-- ==== Sys2Proof/Word.lean ====
section
/-! DEFINITION. The words of the device: the 32-bit word of its registers, order blocks and manager port (R174, R191), and the
byte of its frames, card images and journal records. -/

namespace Sys2Proof

/-- A 32-bit word of the common area, of a register or of an order block (R191). -/
abbrev Word := BitVec 32

/-- A byte of a frame, of a card image or of a journal record. -/
abbrev Byte := BitVec 8

end Sys2Proof
end

