-- ==== Sys2Proof/Syntax.lean ====
section
/-! DEFINITION. The commands of the block: one constructor of `Instr` for each row of the operation table, with the operands
that the row's rules give it. What the environment decides (the value a manager-port read returns, how far outstanding writes had
come when an error or a reset fell, the order of two reports that the manual leaves open) is an operand too. -/

namespace Sys2Proof

/-- The level of a contact input (R168). -/
inductive Level where
  | low
  | high
  deriving DecidableEq, Repr

/-- The two contact inputs (R168), which are also the two house modes (R171). -/
inductive Pin where
  | fire
  | storm
  deriving DecidableEq, Repr

/-- The result that an encoder reports (R147). -/
inductive EncResult where
  | written
  | failed
  | noCard
  deriving DecidableEq, Repr, Inhabited

/-- The six header words of an order block, as the manager port returns them (R195). -/
structure Header where
  link : Word
  kind : Word
  tag : Word
  stamp : Word
  result : Word
  size : Word
  deriving DecidableEq, Repr

/-- The thirteen bytes of a card image, by their fields (R8). Any thirteen bytes are such an image. -/
structure CardImage where
  serial : Word
  kind : Byte
  room : BitVec 16
  minute : Word
  check : BitVec 16
  deriving DecidableEq, Repr

/-- What a manager-port access was for, as R186 sorts the errors. -/
inductive PortAccess where
  /-- reading a block's header or parameters -/
  | blockRead
  /-- re-reading a stamped block's LINK -/
  | linkRead
  /-- writing into the block in hand, or a cancellation settlement within its step -/
  | blockWrite
  /-- writing a settlement from the settlement list -/
  | settlement
  /-- publishing the status page, whole or W and the sequence number alone -/
  | publication
  /-- writing a placement into the journal -/
  | placement
  /-- re-reading the read mark -/
  | markRead
  deriving DecidableEq, Repr

/-- How many of the writes outstanding on the manager port had been accepted when a reset fell, for each of its three streams:
the block in hand, the status page and the placement. -/
structure PortProgress where
  block : Nat
  page : Nat
  placement : Nat
  deriving DecidableEq, Repr

/-- The three SETUP parameters of one segment (R138). -/
structure SegmentParams where
  enabled : Word
  mode : Word
  timeout : Word
  deriving DecidableEq, Repr

/-- The parameters of SETUP in the order of section 10.5. -/
structure SetupParams where
  propertyCode : Word
  journalStart : Word
  journalStop : Word
  threshold : Word
  segments : List SegmentParams
  encodingTimeout : Word
  sessionLimit : Word
  fireSense : Word
  stormSense : Word
  deriving DecidableEq, Repr

/-- The common parameters of DEFINE_NODE (R141). -/
structure NodeParams where
  seg : Word
  addr : Word
  kind : Word
  service : Word
  room : Word
  faultMode : Word
  faultDelay : Word
  deglitch : Word
  deriving DecidableEq, Repr

/-- The ten door settings that follow them for a door kind (R64). -/
structure DoorParams where
  admitSet : Word
  hoursOpen : Word
  hoursClose : Word
  relockMode : Word
  releaseTime : Word
  heldLimit : Word
  forcedMode : Word
  forcedDelay : Word
  heldMode : Word
  heldDelay : Word
  deriving DecidableEq, Repr

/-- The commands of the block, one for each row of the operation table. -/
inductive Instr where
  /-- POWER_ON: supply is applied; the operands are the first levels seen on FIRE_IN and STORM_IN (R168). -/
  | powerOn (fire storm : Level)
  /-- BOARD_RESET: RESET_N is asserted (R190). -/
  | boardReset (progress : PortProgress)
  /-- RESET_N_RELEASE (R173). -/
  | resetNRelease
  /-- SOFT_RESET: a CONTROL write, its word as written, with SOFT_RESET, bit 1, at 1 (R177, R193). -/
  | softReset (value : Word) (progress : PortProgress)
  /-- ALERT_ENABLE: a CONTROL write, its word as written, with SOFT_RESET at 0 (R177, R193). -/
  | alertEnable (value : Word)
  /-- REGISTER_WRITE: a write to ALERT_MASK, the one register with no row of its own (R174). -/
  | registerWrite (value : Word)
  | commonBase (value : Word)
  | commonSize (value : Word)
  /-- CHAIN_HEAD_START: a CHAIN_HEAD write of a value other than 0 (R180). -/
  | chainHeadStart (value : Word)
  /-- CHAIN_HEAD_ABORT: a CHAIN_HEAD write of 0 (R180). -/
  | chainHeadAbort
  | statusClear (value : Word)
  /-- BLOCK_CHECK: the header words as read, and the third parameter word, which a DEFINE_NODE's smallest block depends on. -/
  | blockCheck (header : Header) (kindParam : Word)
  /-- LINK_REREAD: the LINK word as the re-read returns it (R185). -/
  | linkReread (link : Word)
  | settlementWrite
  /-- MEMORY_ERROR: an error on the manager port, after so many accepted writes of that access (R186). -/
  | memoryError (access : PortAccess) (accepted : Nat)
  /-- SETUP: its parameters, and what the re-read of the read mark returns (none for an error on the port, R121, R135). -/
  | setup (p : SetupParams) (mark : Option Word)
  | setClock (minute second : Word)
  | houseMode (mode action : Word)
  | issueCard (encSeg encAddr serial kind room validFrom validUntil privileges supersede : Word)
  | revokeCard (serial denyUnknown : Word)
  | extendCard (serial validUntil : Word)
  | suspendCard (serial : Word)
  | resumeCard (serial : Word)
  | readCard (serial : Word)
  | defineRoom (room code doorSeg doorAddr barSeg barAddr grace openFloor defaultCeiling : Word)
  | checkIn (room source ceiling : Word)
  | checkOut (room : Word)
  | setRoomState (room newState : Word)
  | readRoom (room : Word)
  /-- DOOR_COMMAND with action RELEASE; an action word that names no action comes with this row and is refused (R75). -/
  | doorCommandRelease (seg addr action endMinute : Word)
  | doorCommandRelock (seg addr action endMinute : Word)
  | doorCommandHold (seg addr action endMinute : Word)
  | clearAlarm (seg addr : Word)
  /-- SET_SLOTS: the room, then item code and capacity of slots 1 to 12 (R101). -/
  | setSlots (room : Word) (slots : List (Word × Word))
  | postFolio (room amount : Word)
  | setCeiling (room ceiling : Word)
  | setTariff (target index value taxClass : Word)
  | defineNode (p : NodeParams) (door : DoorParams)
  | removeNode (seg addr : Word)
  | restoreNode (seg addr : Word)
  | readNode (seg addr : Word)
  | secondPulse
  | minuteTick
  | releaseTimerExpiry (seg addr : Nat)
  | heldTimerExpiry (seg addr : Nat)
  | alarmDelayExpiry (seg addr : Nat)
  | sessionLimit (room : Nat)
  | encodingTimeout (seg addr : Nat)
  | retryTimerExpiry (seg addr : Nat)
  /-- INPUT_EDGE: the sampled level of the pin becomes the level given (R168). -/
  | inputEdge (pin : Pin) (level : Level)
  | inputSettled (pin : Pin)
  | segmentTurn (seg : Nat)
  /-- MISS: the exchange on the segment gets no answer from a row of its own. `frame` is what arrived in time after its start mark, if
  anything, and where that is a valid answer of the node addressed it acts as that answer; `undeliveredFirst` says which of the two reports of
  R157 its owner takes first. -/
  | miss (seg : Nat) (frame : Option (List Byte)) (undeliveredFirst : Bool)
  | strayFrame (seg : Nat) (frame : List Byte)
  /-- NOTHING: the answer, with its attention mark. -/
  | nothing (seg : Nat) (attention : Bool)
  | present (seg : Nat) (attention : Bool) (seq : BitVec 4) (image : CardImage)
  /-- CONTACT: its body is the position byte. -/
  | contact (seg : Nat) (attention : Bool) (seq : BitVec 4) (position : Byte)
  /-- TALLY: its body is the position byte and six bytes of two slot counts each. -/
  | tally (seg : Nat) (attention : Bool) (seq : BitVec 4) (position : Byte) (pairs : List Byte)
  /-- BUTTON: its body is the byte of its value. -/
  | button (seg : Nat) (attention : Bool) (seq : BitVec 4) (value : Byte)
  /-- ENC_RESULT: its body is the byte of the result's code. -/
  | encResult (seg : Nat) (attention : Bool) (seq : BitVec 4) (code : Byte)
  | placementComplete
  /-- READ_MARK_REREAD: the read mark as the re-read returns it (R121). -/
  | readMarkReread (value : Word)
  deriving DecidableEq, Repr

end Sys2Proof
end

