-- ==== Sys2Proof/Decode.lean ====
section
/-! DEFINITION. The operation table gives its rows no bits: a command reaches this block as a register write, an order block, a frame or
an event, and no row is spelled by a word. So no word decodes, and the decoder rejects every one of them. -/

namespace Sys2Proof

/-- The command that a word of the table's bits spells: none, since no row of the table has bits. -/
def decodeTableWord (nbits w : Nat) : Option Instr :=
  let _ := (nbits, w)
  none

end Sys2Proof
end

