-- ==== Sys2Proof/Config.lean ====
section
/-! DEFINITION. What the manual fixes once for every chapter (the table of numbers in its introduction), and the values that it leaves
open: bytes and bits of a frame or a record that it does not fix, and what a body byte that names nothing is read as. -/

namespace Sys2Proof.Config

/-- R139 opens every frame with a one-byte start mark and gives no value for it. The byte is free: nothing in Lean can evaluate
it, so no claim can rest on its value. (DESIGN CHOICE, log entry 3) -/
opaque startMark : Byte

/-- R198 gives bits 7, 4 and 3–0 of the ACK part byte their meanings and says nothing of bits 6 and 5. They are free, whatever the byte
carries beside them. (DESIGN CHOICE, log entry 41) -/
opaque ackUnused (named : Byte) : BitVec 2

/-- R198 gives the position byte of CONTACT and of TALLY two values, 0 OPEN and 1 CLOSED. Whether any other is read as OPEN is free, for each
message code. (DESIGN CHOICE, log entry 29) -/
opaque unnamedPosition (code position : Byte) : Bool

/-- R198 gives the byte of BUTTON two values, 0 OFF and 1 ON. Whether any other is read as ON is free. (DESIGN CHOICE, log entry 29) -/
opaque unnamedButton (value : Byte) : Bool

/-- R198 gives the byte of ENC_RESULT three values. What any other is read as is free. (DESIGN CHOICE, log entry 29) -/
opaque unnamedResult (code : Byte) : EncResult

/-- R199 gives a charge line five bytes and lists fields of six: slot, item code and delta of one byte each, and an amount of three.
The two bytes left for the amount are free: byte `i` (0 or 1) of the line amount `amount`. (DESIGN CHOICE, log entry 6) -/
opaque lineAmountByte (amount i : Nat) : Byte

/-- Slots of the credential table (R1). -/
abbrev credentialSlots : Nat := 3072
/-- Serials that the deny list holds (R7). -/
abbrev denyCapacity : Nat := 512
/-- Issues that wait at one encoder (R10). -/
abbrev encoderWaiting : Nat := 4
/-- Encoders that may be defined (R141). -/
abbrev encodersMax : Nat := 4
/-- Entries of the settlement list (R184). -/
abbrev settlementCapacity : Nat := 20
/-- Records of the hold queue (R124). -/
abbrev holdCapacity : Nat := 64
/-- Reservations at one time (R132). -/
abbrev reservationsMax : Nat := 24
/-- The stall mark (R133). -/
abbrev stallMark : Nat := 48
/-- The cap of the suppressed count (R130). -/
abbrev suppressedCap : Nat := 65535
/-- The cap of a record's repeat count (R129). -/
abbrev repeatCap : Nat := 255
/-- The cap of the unposted sum U (R110). -/
abbrev unpostedCap : Nat := 16777215
/-- The top of a ceiling, an open floor or a posting (R28, R102, R110). -/
abbrev moneyCap : Nat := 10000000
/-- The modulus of the check word (R9). -/
abbrev checkModulus : Nat := 65521
/-- The room word that names no room (R1, R140). -/
abbrev noRoom : Nat := 65535
/-- Minutes of a day (R13, R55). -/
abbrev minutesPerDay : Nat := 1440
/-- Attempts made on one command (R156). -/
abbrev commandAttempts : Nat := 3
/-- The pass-over limit of PRIORITY scheduling (R152). -/
abbrev passOverLimit : Nat := 8

end Sys2Proof.Config
end

