-- ==== Sys2Proof/Machine/State.lean ====
section
/-! DEFINITION. The state of the block: every piece of state that the manual names, as plain data, with the reasons a step could stop
and the state at power-on. Tables are lists of key and value with their keys strictly rising. -/

namespace Sys2Proof.Machine

/-- A table by natural-number key, its keys strictly rising. -/
abbrev Table (α : Type) := List (Nat × α)

/-! ## Names of the manual -/

/-- The ACK signal of a report (R147). "None" is `Option.none`. -/
inductive Signal where
  | grant
  | refuse
  deriving DecidableEq, Repr

/-- The kind of a card (R3). -/
inductive CardKind where
  | guest
  | staff
  | service
  | master
  | emergency
  deriving DecidableEq, Repr

/-- The state of a credential entry that is not FREE (R2). A FREE slot holds no serial and is no entry of the table. -/
inductive EntryState where
  | encoding
  | active
  | suspended
  deriving DecidableEq, Repr

/-- The state of a room (R29). -/
inductive RoomState where
  | vacant
  | occupied
  | outOfOrder
  deriving DecidableEq, Repr

/-- The state of a minibar (R86). -/
inductive BarState where
  | locked
  | suspended
  | guestOpen
  | restockOpen
  deriving DecidableEq, Repr

/-- The kind of a node (R140). -/
inductive NodeKind where
  | roomDoor
  | commonDoor
  | shoreGate
  | egressDoor
  | minibar
  | encoder
  deriving DecidableEq, Repr

/-- The state of a node (R158). -/
inductive NodeState where
  | absent
  | online
  | suspect
  | faulted
  | retryWait
  | degraded
  deriving DecidableEq, Repr

/-- The four response modes (section Response modes of the introduction). -/
inductive ResponseMode where
  | latch
  | retry
  | report
  | ignore
  deriving DecidableEq, Repr

/-- A retry delay: 2 s or 30 s. -/
inductive RetryDelay where
  | short
  | long
  deriving DecidableEq, Repr

/-- The relock mode of a door (R64). -/
inductive RelockMode where
  | onClose
  | onTimer
  deriving DecidableEq, Repr

/-- The state of a door (R63). -/
inductive DoorState where
  | unknown
  | locked
  | released
  | opened
  | held
  | forced
  | holdOpen
  | emergency
  deriving DecidableEq, Repr

/-- The leaf of a door as last reported (R63). -/
inductive Contact where
  | unseen
  | opened
  | closed
  deriving DecidableEq, Repr

/-- The scheduling mode of a segment (R138). -/
inductive SchedMode where
  | priority
  | rotating
  deriving DecidableEq, Repr

/-- The sense of a contact input (R169). -/
inductive Sense where
  | off
  | levelHigh
  | levelLow
  | riseLatch
  | fallLatch
  | bothLatch
  deriving DecidableEq, Repr

/-- The verdict of a decision (R46). -/
inductive Verdict where
  | grant
  | grantFree
  | refuse
  deriving DecidableEq, Repr

/-- The reason of a verdict (R46). -/
inductive Reason where
  | none
  | badRead
  | revoked
  | unknown
  | notIssued
  | mismatch
  | suspended
  | notYet
  | expired
  | clockUnset
  | noPrivilege
  | roomNotOccupied
  | dnd
  | outOfHours
  | stormLock
  | ceiling
  | minibarBusy
  | noRecordRoom
  deriving DecidableEq, Repr

/-- The events of a DOOR record (R83). -/
inductive DoorEvent where
  | forced
  | held
  | cleared
  | deliveryFailed
  | holdStart
  | holdEnd
  deriving DecidableEq, Repr

/-- The events of a NODE record (R134). -/
inductive NodeEvent where
  | fault
  | restored
  | sequenceGap
  | retry
  deriving DecidableEq, Repr

/-- The events of a CARD record (R134). -/
inductive CardEvent where
  | issued
  | revoked
  | superseded
  | purged
  | extended
  | suspended
  | resumed
  | issueFailed
  deriving DecidableEq, Repr

/-- The events of a STAY record (R134); a STATE event carries the states before and after. -/
inductive StayEvent where
  | checkIn
  | checkOut
  | state (before after : RoomState)
  | dndOn
  | dndOff
  deriving DecidableEq, Repr

/-- The session kind of a CHARGE (R113). -/
inductive ChargeKind where
  | guest
  | unattended
  deriving DecidableEq, Repr

/-- The cause of an UNSETTLED record (R134). -/
inductive UnsettledCause where
  | sessionLimit
  | nodeFault
  | undelivered
  deriving DecidableEq, Repr

/-- The cause of a HOUSE record (R171). -/
inductive HouseCause where
  | pin (p : Pin)
  | order
  | setup
  | reset
  deriving DecidableEq, Repr

/-- How the last walk ended (R178). -/
inductive WalkEnd where
  | none
  | walked
  | aborted
  | badPlace
  | badSize
  | notNew
  | readError
  | writeError
  | reset
  deriving DecidableEq, Repr

/-- The result codes of an order (R195). -/
inductive ResultCode where
  | done
  | badKind
  | badParam
  | notSetUp
  | notFound
  | inUse
  | tableFull
  | wrongState
  | encoderBusy
  | encoderFault
  | nodeUnavailable
  | noCard
  | encodeFailed
  | timeout
  | cancelled
  deriving DecidableEq, Repr

/-- The orders (R182). -/
inductive OrderKind where
  | setup
  | setClock
  | houseMode
  | issueCard
  | revokeCard
  | extendCard
  | suspendCard
  | resumeCard
  | readCard
  | defineRoom
  | checkIn
  | checkOut
  | setRoomState
  | readRoom
  | doorCommand
  | clearAlarm
  | setSlots
  | postFolio
  | setCeiling
  | setTariff
  | defineNode
  | removeNode
  | restoreNode
  | readNode
  deriving DecidableEq, Repr

/-! ## Timers -/

/-- A running timer of elapsed seconds: its count, and whether it has reached its limit at a second pulse and its expiry is still
to be taken (R163). A stopped timer is `Option.none`. -/
structure Timer where
  count : Nat
  due : Bool
  deriving DecidableEq, Repr

/-! ## Registers and the walk (chapter 10) -/

/-- The writable registers of the subordinate port (R174). `status` holds the latched bits; JOURNAL_LEVEL is live and is computed
when STATUS is read (R123). CHAIN_HEAD is the walk's block in hand. -/
structure Registers where
  commonBase : Word
  commonSize : Word
  status : Word
  alertMask : Word
  alertEnable : Bool
  deriving DecidableEq, Repr

/-- One 32-bit write on the manager port. -/
structure PortWrite where
  addr : Word
  data : Word
  deriving DecidableEq, Repr

/-- The outcome that a deferred order is settled with (R184). -/
structure Settlement where
  block : Word
  words : List Word
  code : ResultCode
  deriving DecidableEq, Repr

/-- The writes that end an order and are not yet known to be accepted: the cancellation settlements of its step first, then the
block's own result words, RESULT and STAMP (R183). -/
structure BlockWrites where
  cancels : List (List PortWrite)
  own : List PortWrite
  deriving DecidableEq, Repr

/-- How far the block in hand has come: its header is being read; its order has been handed to the owner; its writes are
outstanding; it is stamped. -/
inductive WalkPhase where
  | checking
  | handed (kind : OrderKind) (tag : Word)
  | writing (w : BlockWrites)
  | stamped
  deriving DecidableEq, Repr

/-- The walk (R180). -/
inductive Walk where
  | idle
  | walking (block : Word) (abort : Bool) (phase : WalkPhase)
  deriving DecidableEq, Repr

/-- The Chain Walker's state: the walk, the last walked block and its cause, the setup state (R189), the settlement list (R184)
and the outstanding writes of the last publication of the status page (R178). -/
structure Walker where
  walk : Walk
  lastBlock : Word
  lastEnd : WalkEnd
  established : Bool
  settlements : List Settlement
  page : List PortWrite
  deriving DecidableEq, Repr

/-! ## Credentials (chapter 1) -/

/-- A credential entry that is not FREE; its serial is its key in the table (R1). -/
structure Entry where
  kind : CardKind
  room : Nat
  issueMinute : Word
  validFrom : Word
  validUntil : Word
  privileges : BitVec 11
  state : EntryState
  deniedBefore : Bool
  tag : Word
  deriving DecidableEq, Repr

/-- An issue at an encoder: the serial of its ENCODING entry, its order's block, its image and its SUPERSEDE flag (R10, R12). -/
structure Issue where
  serial : Word
  block : Word
  image : CardImage
  supersede : Bool
  deriving DecidableEq, Repr

/-- The encoding in progress (R10). The phase is WRITING exactly when the encoding timer runs. `job` is the model's own number
for the ENCODE handed for this encoding (R14: the answer to an earlier ENCODE changes nothing). -/
structure Encoding where
  issue : Issue
  timer : Option Timer
  job : Nat
  deriving DecidableEq, Repr

/-- What the Credential Unit keeps for one encoder (R10). -/
structure Encoder where
  current : Option Encoding
  waiting : List Issue
  lastResult : Option Signal
  deriving DecidableEq, Repr

/-- The Credential Unit: the table by serial, the deny list oldest first (R7), the encoders by node, the property code and the
encoding timeout (none before the first SETUP, R190). The active credential count and the deny list count of R5 are the lengths of
the table and of the list. `nextJob` is the model's own. -/
structure CredentialUnit where
  entries : Table Entry
  deny : List Word
  encoders : Table Encoder
  propertyCode : Option Nat
  encodingTimeout : Option Nat
  nextJob : Nat
  deriving DecidableEq, Repr

/-! ## Rooms, minibars and the tariff (chapters 2, 5, 6) -/

/-- One slot of a minibar; the item is none for EMPTY (R86). -/
structure Slot where
  item : Option Nat
  capacity : Nat
  baseline : Nat
  deriving DecidableEq, Repr

/-- A room record with its folio and its minibar part (R28, R86, R110). Links are node keys. -/
structure Room where
  code : Nat
  state : RoomState
  stayOpen : Bool
  dnd : Bool
  doorLink : Option Nat
  barLink : Option Nat
  grace : Nat
  guestCount : Nat
  lastButton : Option Signal
  defaultCeiling : Nat
  openFloor : Nat
  balance : Nat
  ceiling : Nat
  unposted : Nat
  slots : List Slot
  bar : BarState
  unsettled : Bool
  orphan : Bool
  session : Option Timer
  unlatchPending : Bool
  deriving DecidableEq, Repr

/-- A tariff item (R105). -/
structure TariffItem where
  price : Nat
  taxClass : Nat
  deriving DecidableEq, Repr

/-- The tariff table: 64 items and the rates of 4 tax classes (R105). -/
structure Tariff where
  items : List TariffItem
  rates : List Nat
  deriving DecidableEq, Repr

/-! ## Nodes, doors and segments (chapters 4, 8) -/

/-- The door settings of R64. -/
structure DoorSettings where
  admitSet : BitVec 11
  hoursOpen : Nat
  hoursClose : Nat
  relock : RelockMode
  releaseTime : Nat
  heldLimit : Nat
  forcedMode : ResponseMode
  forcedDelay : RetryDelay
  heldMode : ResponseMode
  heldDelay : RetryDelay
  deriving DecidableEq, Repr

/-- A door record (R63). -/
structure Door where
  settings : DoorSettings
  state : DoorState
  contact : Contact
  releaseTimer : Option Timer
  heldTimer : Option Timer
  delayTimer : Option Timer
  forcedLatch : Bool
  heldLatch : Bool
  holdEnd : Option Word
  savedEnd : Option Word
  holdUnsent : Bool
  deriving DecidableEq, Repr

/-- A command for a node (R146). -/
inductive Command where
  | release (seconds : Nat)
  | relock
  | hold
  | unlatch
  | encode (image : CardImage) (job : Nat)
  | abandon
  | signal
  deriving DecidableEq, Repr

/-- A node record (R140), with the last verdict signal of R61, the last tally signal of R87 and the door record of a door kind. Its
key is segment × 256 + address. -/
structure Node where
  kind : NodeKind
  service : Nat
  room : Nat
  faultMode : ResponseMode
  faultDelay : RetryDelay
  deglitch : Nat
  state : NodeState
  misses : Nat
  lastSeq : Option (BitVec 4)
  passOver : Nat
  retries : Nat
  retryTimer : Option Timer
  onProbe : Bool
  faultOpen : Bool
  owedAck : Option (BitVec 4 × Signal)
  lastVerdict : Option Signal
  lastTally : Option Signal
  door : Option Door
  deriving DecidableEq, Repr

/-- The settings of a segment (R138). -/
structure SegmentSettings where
  enabled : Bool
  mode : SchedMode
  timeout : Nat
  deriving DecidableEq, Repr

/-- A command queue's entry: the node's address, its pending command and the attempts made on it (R155). -/
structure QueueEntry where
  addr : Nat
  command : Command
  attempts : Nat
  deriving DecidableEq, Repr

/-- The exchange in progress: the node addressed, the command its frame carries with the attempts made before it, the node's held
next command (R155, R156), and the reply timeout it began with (R138). -/
structure Exchange where
  addr : Nat
  carried : Option (Command × Nat)
  next : Option Command
  timeout : Nat
  deriving DecidableEq, Repr

/-- A segment: its settings (none while it has never been set up since power-on or a board reset), command queue, exchange in progress,
attention set (addresses strictly rising), presence pointer (R154), last served address (R153), and the last frame driven onto its
transmit pin. -/
structure Segment where
  settings : Option SegmentSettings
  queue : List QueueEntry
  exchange : Option Exchange
  attention : List Nat
  presence : Nat
  lastServed : Nat
  sent : List Byte
  deriving DecidableEq, Repr

/-! ## The journal (chapter 7) -/

/-- The span of the journal in the common area, as offsets (R116). -/
structure Region where
  start : Nat
  stop : Nat
  deriving DecidableEq, Repr

/-- The active values of the two house modes. -/
structure HouseModes where
  fire : Bool
  storm : Bool
  deriving DecidableEq, Repr

/-- A line of a charge (R113): slot 1 to 12, item or EMPTY, delta, line amount. -/
structure ChargeLine where
  slot : Nat
  item : Option Nat
  delta : Int
  amount : Nat
  deriving DecidableEq, Repr

/-- The body of a record (R134). A node is given by its key. -/
inductive RecordBody where
  | access (node : Nat) (serial : Word) (kind : Byte) (verdict : Verdict) (reason : Reason) (repeats : Nat) (room : BitVec 16)
  | door (node : Nat) (event : DoorEvent) (after : DoorState)
  | node (node : Nat) (event : NodeEvent) (count : Nat)
  | card (serial : Word) (event : CardEvent) (room : Nat) (tag : Word)
  | stay (room : Nat) (event : StayEvent) (balance unposted : Nat)
  | charge (room node : Nat) (kind : ChargeKind) (lines : List ChargeLine) (amount : Int) (posted excessOrLost : Nat)
  | lateCharge (room node : Nat) (lines : List ChargeLine) (amount : Int)
  | unsettled (room node : Nat) (cause : UnsettledCause)
  | restock (room node : Nat) (counts : List Nat)
  | house (before after : HouseModes) (cause : HouseCause)
  | clock (oldMinute newMinute : Word)
  deriving DecidableEq, Repr

/-- The header flags of a record (R199). -/
structure RecordFlags where
  clampedReading : Bool := false
  unpriced : Bool := false
  saturated : Bool := false
  givenUp : Bool := false
  barWord1 : Bool := false
  barWord2 : Bool := false
  deriving DecidableEq, Repr

/-- The class of a record (R125). -/
inductive RecordClass where
  | reserved
  | routine
  | notable
  deriving DecidableEq, Repr

/-- A held record: body, flags, class, header time, and its gap-before count, 0 for none (R124). -/
structure HeldRecord where
  body : RecordBody
  flags : RecordFlags
  cls : RecordClass
  minute : Word
  second : Nat
  clockValid : Bool
  gap : Nat
  deriving DecidableEq, Repr

/-- The drain state (R126). -/
inductive Drain where
  | inactive
  | idle
  | placing
  | waitingRoom
  | waitingRetry
  deriving DecidableEq, Repr

/-- What an outstanding re-read of the read mark was made for (R121). -/
inductive Reread where
  | attempt
  | second
  deriving DecidableEq, Repr

/-- The Journal Writer (R116, R124). -/
structure Journal where
  region : Option Region
  lastRegion : Option Region
  writeMark : Nat
  readMark : Nat
  threshold : Nat
  queue : List HeldRecord
  reserved : Nat
  suppressed : Nat
  nextSeq : Word
  drain : Drain
  reread : Option Reread
  deriving DecidableEq, Repr

/-! ## The clock and the house (chapter 9) -/

/-- The property clock (R163). `tickDue` says that the second count has passed 59 at a pulse and the minute tick is still to be
taken. -/
structure Clock where
  minute : Word
  second : Nat
  valid : Bool
  tickDue : Bool
  deriving DecidableEq, Repr

/-- One contact input and its house mode: sampled and settled level (none for UNKNOWN), whether the sampled level has yet to hold for
its second (R168), the sense and the latched input part (R169), and the mode's order part (R171). -/
structure House where
  sampled : Level
  settled : Option Level
  settling : Bool
  sense : Sense
  latch : Bool
  order : Bool
  deriving DecidableEq, Repr

/-! ## The whole state -/

/-- An undelivered command on its way to its submitter within one step (R78, R92, R19). The list of them is empty between steps. -/
structure Report where
  node : Nat
  command : Command
  deriving DecidableEq, Repr

/-- The device: everything on its own side of the manager port. -/
@[ext]
structure Device where
  regs : Registers
  /-- RESET_N is held: the active house modes when it was asserted (R173). -/
  resetHeld : Option HouseModes
  walker : Walker
  creds : CredentialUnit
  rooms : Table Room
  nodes : Table Node
  segments : List Segment
  tariff : Tariff
  /-- The session limit in minutes, none before the first SETUP (R190). -/
  sessionLimit : Option Nat
  journal : Journal
  clock : Clock
  fire : House
  storm : House
  reports : List Report
  deriving DecidableEq, Repr

/-- The machine: the commands that wait, first in first out; the device; and the bytes that the device's accepted writes have left in
board memory, by board address. -/
@[ext]
structure State where
  pending : List Instr
  dev : Device
  mem : Table Byte
  deriving DecidableEq, Repr

/-! ## Reasons to stop -/

/-- No command faults: the manual reports every error in the state (STATUS bits, result codes, records), so this type has no
constructor and nothing raises it (safe). -/
inductive Fault where
  deriving DecidableEq, Repr

/-- The reasons a step is refused. -/
inductive Refusal where
  /-- Raised by an arm of `exec` whose command has no meaning yet: none in this package (safe). -/
  | notModelled (mnemonic : String)
  deriving DecidableEq, Repr

/-! ## Power-on -/

/-- A segment at power-on (R162). -/
def Segment.initial : Segment :=
  { settings := none, queue := [], exchange := none, attention := [], presence := 1, lastServed := 0, sent := [] }

/-- An input and its mode at power-on, the first level seen given (R168, R173). -/
def House.initial (first : Level) : House :=
  { sampled := first, settled := none, settling := true, sense := .off, latch := false, order := false }

/-- The Journal Writer at power-on (R137). -/
def Journal.initial : Journal :=
  { region := none, lastRegion := none, writeMark := 0, readMark := 0, threshold := 0, queue := [], reserved := 0,
    suppressed := 0, nextSeq := 0, drain := .inactive, reread := none }

/-- The device at power-on, with the first levels seen on the two inputs (R27, R43, R62, R84, R104, R105, R137, R162, R167, R173,
R190). -/
def Device.initial (fire storm : Level) : Device :=
  { regs := { commonBase := 0, commonSize := 0, status := 0, alertMask := 0, alertEnable := false }
    resetHeld := none
    walker := { walk := .idle, lastBlock := 0, lastEnd := .none, established := false, settlements := [], page := [] }
    creds := { entries := [], deny := [], encoders := [], propertyCode := none, encodingTimeout := none, nextJob := 0 }
    rooms := []
    nodes := []
    segments := List.replicate 8 Segment.initial
    tariff := { items := List.replicate 64 { price := 0, taxClass := 0 }, rates := List.replicate 4 0 }
    sessionLimit := none
    journal := Journal.initial
    clock := { minute := 0, second := 0, valid := false, tickDue := false }
    fire := House.initial fire
    storm := House.initial storm
    reports := [] }

/-- The machine right after power-on: no command waits, and nothing is known of board memory. Both inputs read HIGH, as an open contact
under its pull-up does (section 9.3). (DESIGN CHOICE, log entry 4) -/
def State.reset : State :=
  { pending := [], dev := Device.initial .high .high, mem := [] }

end Sys2Proof.Machine
end

