-- ==== Sys2Proof/Machine/Ops.lean ====
section
/-! DEFINITION. The operations that every chapter shares: tables, board memory and the writes on the manager port, node keys, timers,
and the small updates of one part of the device. -/

namespace Sys2Proof.Machine

/-! ## Tables -/

/-- The value at a key. -/
def Table.find {α : Type} (key : Nat) : Table α → Option α
  | [] => none
  | (k, v) :: rest => if k = key then some v else Table.find key rest

/-- The table with a value at a key, its keys kept rising. -/
def Table.put {α : Type} (key : Nat) (x : α) : Table α → Table α
  | [] => [(key, x)]
  | (k, v) :: rest =>
    if key < k then (key, x) :: (k, v) :: rest
    else if key = k then (key, x) :: rest
    else (k, v) :: Table.put key x rest

/-- The table without a key. -/
def Table.erase {α : Type} (key : Nat) (t : Table α) : Table α :=
  t.filter (fun p => decide (p.1 ≠ key))

/-- The table with one value changed, where the key is there. -/
def Table.modify {α : Type} (key : Nat) (f : α → α) (t : Table α) : Table α :=
  t.map (fun p => if p.1 = key then (p.1, f p.2) else p)

/-- The table with every value changed. -/
def Table.mapVals {α : Type} (f : Nat → α → α) (t : Table α) : Table α :=
  t.map (fun p => (p.1, f p.1 p.2))

/-- The keys of a table whose values pass a test, rising. -/
def Table.keysWhere {α : Type} (f : Nat → α → Bool) (t : Table α) : List Nat :=
  (t.filter (fun p => f p.1 p.2)).map (fun p => p.1)

/-- The one form of a table: its keys strictly rising. -/
def Table.wf {α : Type} (t : Table α) : Bool :=
  decide (t.Pairwise (fun a b => a.1 < b.1))

/-! ## Board memory -/

/-- The byte that board memory holds at an address as far as the device's own accepted writes tell; none elsewhere, since the host
and the rest of the board write there too. (DESIGN CHOICE, log entry 5) -/
def Memory.read (mem : Table Byte) (addr : Nat) : Option Byte :=
  Table.find addr mem

/-- The four bytes of a word, the least significant first (R191). -/
def wordBytes (w : Word) : List Byte :=
  [w.extractLsb' 0 8, w.extractLsb' 8 8, w.extractLsb' 16 8, w.extractLsb' 24 8]

/-- One accepted write of a word: four bytes, little-endian (R191). -/
def Memory.writeWord (mem : Table Byte) (w : PortWrite) : Table Byte :=
  Table.put (w.addr + 3).toNat (w.data.extractLsb' 24 8)
    (Table.put (w.addr + 2).toNat (w.data.extractLsb' 16 8)
      (Table.put (w.addr + 1).toNat (w.data.extractLsb' 8 8)
        (Table.put w.addr.toNat (w.data.extractLsb' 0 8) mem)))

/-- Accepted writes, in the order they were issued. -/
def Memory.accept (mem : Table Byte) (ws : List PortWrite) : Table Byte :=
  ws.foldl Memory.writeWord mem

/-- Memory's canonical form: addresses strictly rising. An address that is not listed reads as none, so no entry repeats it. -/
def Memory.wf (mem : Table Byte) : Bool :=
  Table.wf mem

/-! ## Node keys -/

/-- The key of a node, which is also its code in a result word (R196): segment in bits 15–8, address in bits 7–0. -/
def nodeKey (seg addr : Nat) : Nat :=
  seg * 256 + addr

/-- The segment of a node's key. -/
def keySeg (key : Nat) : Nat :=
  key / 256

/-- The address of a node's key. -/
def keyAddr (key : Nat) : Nat :=
  key % 256

/-! ## Small updates -/

/-- The segment of a number; numbers above 7 name none and read as a silent one. -/
def Device.segment (d : Device) (seg : Nat) : Segment :=
  d.segments.getD seg Segment.initial

/-- The device with one segment replaced. -/
def Device.setSegment (d : Device) (seg : Nat) (x : Segment) : Device :=
  { d with segments := d.segments.set seg x }

/-- The device with one node record changed, where it is defined. -/
def Device.modifyNode (d : Device) (key : Nat) (f : Node → Node) : Device :=
  { d with nodes := Table.modify key f d.nodes }

/-- The device with one room record changed, where it is defined. -/
def Device.modifyRoom (d : Device) (room : Nat) (f : Room → Room) : Device :=
  { d with rooms := Table.modify room f d.rooms }

/-- The device with one encoder changed, where it is defined. -/
def Device.modifyEncoder (d : Device) (key : Nat) (f : Encoder → Encoder) : Device :=
  { d with creds := { d.creds with encoders := Table.modify key f d.creds.encoders } }

/-! ## Node and minibar states by their groups -/

/-- FAULTED or RETRY_WAIT: neither polled nor sent commands (R158). -/
def NodeState.isOut : NodeState → Bool
  | .faulted => true
  | .retryWait => true
  | .absent => false
  | .online => false
  | .suspect => false
  | .degraded => false

/-- ONLINE, SUSPECT or DEGRADED: counted as online (R140) and served in fire release (R80). -/
def NodeState.inService : NodeState → Bool
  | .online => true
  | .suspect => true
  | .degraded => true
  | .absent => false
  | .faulted => false
  | .retryWait => false

/-- The four door kinds. -/
def NodeKind.isDoor : NodeKind → Bool
  | .roomDoor => true
  | .commonDoor => true
  | .shoreGate => true
  | .egressDoor => true
  | .minibar => false
  | .encoder => false

/-- The door kinds that fire releases (R80). -/
def NodeKind.firesFree : NodeKind → Bool
  | .egressDoor => true
  | .commonDoor => true
  | .roomDoor => false
  | .shoreGate => false
  | .minibar => false
  | .encoder => false

/-- GUEST_OPEN or RESTOCK_OPEN (R86). -/
def BarState.inSession : BarState → Bool
  | .guestOpen => true
  | .restockOpen => true
  | .locked => false
  | .suspended => false

/-! ## Timers -/

/-- A timer started at 0 (R63). -/
def Timer.started : Option Timer :=
  some { count := 0, due := false }

/-- A timer at a second pulse: a running one counts, and is due when it has reached the limit in force (R63, R163). One that is due
already keeps its count until its expiry is taken. (DESIGN CHOICE, log entry 7) -/
def Timer.tick (limit : Nat) : Option Timer → Option Timer
  | none => none
  | some t => if t.due then some t else some { count := t.count + 1, due := decide (limit ≤ t.count + 1) }

/-- Whether a timer's expiry is to be taken. -/
def Timer.isDue : Option Timer → Bool
  | none => false
  | some t => t.due

/-- A timer's count, 0 when it is stopped. -/
def Timer.seconds : Option Timer → Nat
  | none => 0
  | some t => t.count

/-- The seconds of a retry delay. -/
def RetryDelay.seconds : RetryDelay → Nat
  | .short => 2
  | .long => 30

/-! ## Orders and their answers -/

/-- What the walker tells an owner of the order it hands on: the block's address and its TAG (R182). -/
structure OrderContext where
  block : Word
  tag : Word
  deriving DecidableEq, Repr

/-- What an owner returns (R182): the result code, the CLAMPED flag, the result words, the settlements of the encodings its step
cancelled, and whether the order is deferred. -/
structure Reply where
  code : ResultCode
  clamped : Bool := false
  words : List Word := []
  cancels : List Settlement := []
  deferred : Bool := false
  deriving DecidableEq, Repr

/-- A refusal: every result word is 0 (R182), and CLAMPED is clear whatever the settings of the order. (DESIGN CHOICE, log entry 50) -/
def Reply.refusal (code : ResultCode) (nwords : Nat) : Reply :=
  { code := code, words := List.replicate nwords 0 }

/-- DONE with its result words. -/
def Reply.done (words : List Word) : Reply :=
  { code := .done, words := words }

/-- A setting clamped to the top of its range, and whether it was (section Parameters out of range). -/
def clampTop (top value : Nat) : Nat × Bool :=
  if top < value then (top, true) else (value, false)

/-- A setting clamped into its range, 0 taking the default without CLAMPED (R138, R187). -/
def clampDefault (low top default value : Nat) : Nat × Bool :=
  if value = 0 then (default, false)
  else if value < low then (low, true)
  else if top < value then (top, true)
  else (value, false)

/-- A flag as a result word. -/
def flagWord (b : Bool) : Word :=
  if b then 1 else 0

/-- A count or an amount as a result word. -/
def natWord (n : Nat) : Word :=
  BitVec.ofNat 32 n

end Sys2Proof.Machine
end

