-- ==== Sys2Proof/Machine/Flags.lean ====
section
/-! DEFINITION. The STATUS bits, the live JOURNAL_LEVEL, the alert line and the reads of the six registers (R123, R174 to R177, R193). -/

namespace Sys2Proof.Machine

/-- The STATUS bits (R176). -/
inductive StatusBit where
  | chainWalked
  | orderSettled
  | chainFault
  | chainOverrun
  | memoryFault
  | journalLevel
  | journalStall
  | doorAlarm
  | nodeFault
  | houseChange
  deriving DecidableEq, Repr

/-- The bit's place in STATUS and ALERT_MASK (R193). -/
def StatusBit.index : StatusBit → Nat
  | .chainWalked => 0
  | .orderSettled => 1
  | .chainFault => 2
  | .chainOverrun => 3
  | .memoryFault => 4
  | .journalLevel => 5
  | .journalStall => 6
  | .doorAlarm => 7
  | .nodeFault => 8
  | .houseChange => 9

/-- The bit alone in a word. -/
def StatusBit.mask (b : StatusBit) : Word :=
  1#32 <<< b.index

/-- The bits of STATUS and ALERT_MASK that mean something: 9 to 0 (R193). -/
def statusBits : Word := 0x3ff

/-- The bits of STATUS that are latched: all but JOURNAL_LEVEL (R176). -/
def latchedBits : Word := 0x3df

/-- ALERT_ENABLE in a word written to CONTROL: bit 0 (R193). -/
def controlEnable (value : Word) : Bool :=
  value.getLsbD 0

/-- SOFT_RESET in a word written to CONTROL: bit 1 (R193). The bits above it mean nothing and are ignored (R174). -/
def controlReset (value : Word) : Bool :=
  value.getLsbD 1

/-- A STATUS bit latched (R176). -/
def Device.latch (d : Device) (b : StatusBit) : Device :=
  { d with regs := { d.regs with status := d.regs.status ||| b.mask } }

/-- The size of a region (R116). -/
def Region.size (r : Region) : Nat :=
  r.stop - r.start

/-- The unread bytes of a region of the given size (R117). -/
def Journal.unreadIn (j : Journal) (size : Nat) : Nat :=
  (j.writeMark + size - j.readMark) % size

/-- The unread bytes of the region in force, 0 where there is none. -/
def Journal.unread (j : Journal) : Nat :=
  match j.region with
  | none => 0
  | some r => j.unreadIn r.size

/-- JOURNAL_LEVEL, which is live (R123). -/
def Journal.level (j : Journal) : Bool :=
  match j.region with
  | none => false
  | some r => decide (j.threshold < j.unreadIn r.size)

/-- STATUS as it stands: the latched bits with the live JOURNAL_LEVEL (R176). -/
def Device.statusNow (d : Device) : Word :=
  (d.regs.status &&& latchedBits) ||| (if d.journal.level then StatusBit.journalLevel.mask else 0)

/-- ALERT_N is asserted, driven low (R177). -/
def Device.alertAsserted (d : Device) : Bool :=
  d.resetHeld.isNone && d.regs.alertEnable && decide (d.statusNow &&& d.regs.alertMask ≠ 0)

/-- The six registers of the subordinate port (R174). -/
inductive Register where
  | commonBase
  | commonSize
  | chainHead
  | status
  | alertMask
  | control
  deriving DecidableEq, Repr

/-- The block in hand, 0 while the walk is IDLE (R174). -/
def Walk.head : Walk → Word
  | .idle => 0
  | .walking block _ _ => block

/-- A read of a register (R174): 0 while RESET_N is held. CONTROL reads ALERT_ENABLE in bit 0 and 0 above it, SOFT_RESET among the rest
(R193). -/
def Device.readRegister (d : Device) (r : Register) : Word :=
  if d.resetHeld.isSome then 0
  else
    match r with
    | .commonBase => d.regs.commonBase
    | .commonSize => d.regs.commonSize
    | .chainHead => d.walker.walk.head
    | .status => d.statusNow
    | .alertMask => d.regs.alertMask
    | .control => flagWord d.regs.alertEnable

end Sys2Proof.Machine
end

