-- ==== Sys2Proof/Machine/Operands.lean ====
section
/-! DEFINITION. The codes of parameter and result words, read and written (R195, R196), and the shape of each order's block (R182). -/

namespace Sys2Proof.Machine

/-! ## Codes read from parameter words: none where the word names nothing -/

/-- The card kind that a code names (R3). -/
def CardKind.ofCode (n : Nat) : Option CardKind :=
  match n with
  | 1 => some .guest
  | 2 => some .staff
  | 3 => some .service
  | 4 => some .master
  | 5 => some .emergency
  | _ => none

/-- The code of a card kind (R3). -/
def CardKind.code : CardKind → Nat
  | .guest => 1
  | .staff => 2
  | .service => 3
  | .master => 4
  | .emergency => 5

/-- A privilege set: its eleven bits, none where the word names anything outside them (R4). -/
def privilegesOf (w : Word) : Option (BitVec 11) :=
  if w >>> 11 = 0 then some (w.extractLsb' 0 11) else none

/-- The privileges of R4. -/
inductive Privilege where
  | ownRoom
  | minibar
  | pool
  | shore
  | common
  | serviceAreas
  | allRooms
  | restock
  | stormPass
  | dndOverride
  | egressOutside
  deriving DecidableEq, Repr

/-- The bit of a privilege (R196). -/
def Privilege.index : Privilege → Nat
  | .ownRoom => 0
  | .minibar => 1
  | .pool => 2
  | .shore => 3
  | .common => 4
  | .serviceAreas => 5
  | .allRooms => 6
  | .restock => 7
  | .stormPass => 8
  | .dndOverride => 9
  | .egressOutside => 10

/-- Whether a set holds a privilege. -/
def hasPrivilege (set : BitVec 11) (p : Privilege) : Bool :=
  set.getLsbD p.index

/-- A room word: 0–767, or 65,535 for no room. -/
def roomWordOk (n : Nat) : Bool :=
  decide (n < 768) || decide (n = Config.noRoom)

/-- The code of an entry state; 0 is FREE. -/
def EntryState.code : EntryState → Nat
  | .encoding => 1
  | .active => 2
  | .suspended => 3

/-- The room state that a code names. -/
def RoomState.ofCode (n : Nat) : Option RoomState :=
  match n with
  | 1 => some .vacant
  | 2 => some .occupied
  | 3 => some .outOfOrder
  | _ => none

/-- The code of a room state. -/
def RoomState.code : RoomState → Nat
  | .vacant => 1
  | .occupied => 2
  | .outOfOrder => 3

/-- The node kind that a code names. -/
def NodeKind.ofCode (n : Nat) : Option NodeKind :=
  match n with
  | 1 => some .roomDoor
  | 2 => some .commonDoor
  | 3 => some .shoreGate
  | 4 => some .egressDoor
  | 5 => some .minibar
  | 6 => some .encoder
  | _ => none

/-- The code of a node kind. -/
def NodeKind.code : NodeKind → Nat
  | .roomDoor => 1
  | .commonDoor => 2
  | .shoreGate => 3
  | .egressDoor => 4
  | .minibar => 5
  | .encoder => 6

/-- The code of a node state. -/
def NodeState.code : NodeState → Nat
  | .absent => 0
  | .online => 1
  | .suspect => 2
  | .faulted => 3
  | .retryWait => 4
  | .degraded => 5

/-- The response mode that a code names. -/
def ResponseMode.ofCode (n : Nat) : Option ResponseMode :=
  match n with
  | 0 => some .latch
  | 1 => some .retry
  | 2 => some .report
  | 3 => some .ignore
  | _ => none

/-- The code of a response mode. -/
def ResponseMode.code : ResponseMode → Nat
  | .latch => 0
  | .retry => 1
  | .report => 2
  | .ignore => 3

/-- The retry delay that a code names. -/
def RetryDelay.ofCode (n : Nat) : Option RetryDelay :=
  match n with
  | 0 => some .short
  | 1 => some .long
  | _ => none

/-- The code of a retry delay. -/
def RetryDelay.code : RetryDelay → Nat
  | .short => 0
  | .long => 1

/-- The relock mode that a code names. -/
def RelockMode.ofCode (n : Nat) : Option RelockMode :=
  match n with
  | 0 => some .onClose
  | 1 => some .onTimer
  | _ => none

/-- The code of a relock mode. -/
def RelockMode.code : RelockMode → Nat
  | .onClose => 0
  | .onTimer => 1

/-- The scheduling mode that a code names. -/
def SchedMode.ofCode (n : Nat) : Option SchedMode :=
  match n with
  | 0 => some .priority
  | 1 => some .rotating
  | _ => none

/-- The input sense that a code names. -/
def Sense.ofCode (n : Nat) : Option Sense :=
  match n with
  | 0 => some .off
  | 1 => some .levelHigh
  | 2 => some .levelLow
  | 3 => some .riseLatch
  | 4 => some .fallLatch
  | 5 => some .bothLatch
  | _ => none

/-- The code of a door state. -/
def DoorState.code : DoorState → Nat
  | .unknown => 0
  | .locked => 1
  | .released => 2
  | .opened => 3
  | .held => 4
  | .forced => 5
  | .holdOpen => 6
  | .emergency => 7

/-- The code of a contact. -/
def Contact.code : Contact → Nat
  | .unseen => 0
  | .opened => 1
  | .closed => 2

/-- The code of a minibar state. -/
def BarState.code : BarState → Nat
  | .locked => 0
  | .suspended => 1
  | .guestOpen => 2
  | .restockOpen => 3

/-- The item code that a slot word names, EMPTY being none; none outside where it names nothing (R101). -/
def itemOf (n : Nat) : Option (Option Nat) :=
  if n < 64 then some (some n) else if n = 255 then some none else none

/-- The code of an item, 255 for EMPTY. -/
def itemCode : Option Nat → Nat
  | none => 255
  | some n => n

/-- The code of a kept signal, 0 for none. -/
def signalCode : Option Signal → Nat
  | none => 0
  | some .grant => 1
  | some .refuse => 2

/-- A node link as a result word, 0 for none (R196). -/
def linkWord : Option Nat → Word
  | none => 0
  | some key => natWord key

/-- The message code of a command (R198). -/
def Command.code : Command → Nat
  | .release _ => 2
  | .relock => 3
  | .hold => 4
  | .unlatch => 5
  | .encode _ _ => 6
  | .abandon => 7
  | .signal => 8

/-- The result codes (R195). -/
def ResultCode.code : ResultCode → Nat
  | .done => 1
  | .badKind => 2
  | .badParam => 3
  | .notSetUp => 4
  | .notFound => 5
  | .inUse => 6
  | .tableFull => 7
  | .wrongState => 8
  | .encoderBusy => 9
  | .encoderFault => 10
  | .nodeUnavailable => 11
  | .noCard => 12
  | .encodeFailed => 13
  | .timeout => 14
  | .cancelled => 15

/-! ## Orders -/

/-- The order that a KIND names (R195). -/
def OrderKind.ofCode (n : Nat) : Option OrderKind :=
  match n with
  | 0x01 => some .setup
  | 0x02 => some .setClock
  | 0x03 => some .houseMode
  | 0x10 => some .issueCard
  | 0x11 => some .revokeCard
  | 0x12 => some .extendCard
  | 0x13 => some .suspendCard
  | 0x14 => some .resumeCard
  | 0x15 => some .readCard
  | 0x20 => some .defineRoom
  | 0x21 => some .checkIn
  | 0x22 => some .checkOut
  | 0x23 => some .setRoomState
  | 0x24 => some .readRoom
  | 0x30 => some .doorCommand
  | 0x31 => some .clearAlarm
  | 0x40 => some .setSlots
  | 0x41 => some .postFolio
  | 0x42 => some .setCeiling
  | 0x43 => some .setTariff
  | 0x50 => some .defineNode
  | 0x51 => some .removeNode
  | 0x52 => some .restoreNode
  | 0x53 => some .readNode
  | _ => none

/-- The parameter words of each order. A DEFINE_NODE has ten more for a door kind (R141). -/
def OrderKind.params : OrderKind → Nat
  | .setup => 32
  | .setClock => 2
  | .houseMode => 2
  | .issueCard => 9
  | .revokeCard => 2
  | .extendCard => 2
  | .suspendCard => 1
  | .resumeCard => 1
  | .readCard => 1
  | .defineRoom => 9
  | .checkIn => 3
  | .checkOut => 1
  | .setRoomState => 2
  | .readRoom => 1
  | .doorCommand => 4
  | .clearAlarm => 2
  | .setSlots => 25
  | .postFolio => 2
  | .setCeiling => 2
  | .setTariff => 4
  | .defineNode => 8
  | .removeNode => 2
  | .restoreNode => 2
  | .readNode => 2

/-- The result words of each order. -/
def OrderKind.results : OrderKind → Nat
  | .setup => 1
  | .setClock => 3
  | .houseMode => 4
  | .issueCard => 2
  | .revokeCard => 1
  | .extendCard => 1
  | .suspendCard => 0
  | .resumeCard => 0
  | .readCard => 12
  | .defineRoom => 1
  | .checkIn => 3
  | .checkOut => 4
  | .setRoomState => 1
  | .readRoom => 29
  | .doorCommand => 2
  | .clearAlarm => 2
  | .setSlots => 0
  | .postFolio => 5
  | .setCeiling => 3
  | .setTariff => 2
  | .defineNode => 1
  | .removeNode => 1
  | .restoreNode => 1
  | .readNode => 33

/-- Whether a kind word names a door kind. -/
def doorKindWord (w : Word) : Bool :=
  match NodeKind.ofCode w.toNat with
  | none => false
  | some k => k.isDoor

/-- The smallest block of an order, in words: the header, the parameters and the result words (R182). `kindParam` is the third
parameter word, which a DEFINE_NODE's size depends on. -/
def OrderKind.smallest (k : OrderKind) (kindParam : Word) : Nat :=
  6 + k.params + k.results + (if k = .defineNode && doorKindWord kindParam then 10 else 0)

/-- A node address as an order gives it: segment at most 7, address 1 to 120 (R141). -/
def addressOk (seg addr : Nat) : Bool :=
  decide (seg < 8) && decide (1 ≤ addr) && decide (addr ≤ 120)

end Sys2Proof.Machine
end

