-- ==== Sys2Proof/Machine/Formats.lean ====
section
/-! DEFINITION. The byte layouts of chapter 11: the card image and its check word (R8, R9), the frames of the field line with their
check and the bodies of answers (R139, R198), the journal records (R118, R199) and the status page (R194). -/

namespace Sys2Proof.Machine

/-! ## The card image -/

/-- The thirteen bytes of an image, each quantity most significant byte first (R8). -/
def imageContent (i : CardImage) : List Byte :=
  [i.serial.extractLsb' 24 8, i.serial.extractLsb' 16 8, i.serial.extractLsb' 8 8, i.serial.extractLsb' 0 8, i.kind,
    i.room.extractLsb' 8 8, i.room.extractLsb' 0 8, i.minute.extractLsb' 24 8, i.minute.extractLsb' 16 8,
    i.minute.extractLsb' 8 8, i.minute.extractLsb' 0 8]

/-- The image as an encoder writes it: the content and the check word (R8). -/
def imageBytes (i : CardImage) : List Byte :=
  imageContent i ++ [i.check.extractLsb' 8 8, i.check.extractLsb' 0 8]

/-- The sum of bytes weighted by their positions, the first of the list at position `i` (R9). -/
def weightedSum (i : Nat) : List Byte → Nat
  | [] => 0
  | b :: rest => i * b.toNat + weightedSum (i + 1) rest

/-- The check word of an image under a property code (R9). -/
def checkWord (property : Nat) (i : CardImage) : Nat :=
  (property + weightedSum 1 (imageContent i)) % Config.checkModulus

/-- The image of an entry, its check word built under the property code in force (R8). -/
def buildImage (property : Nat) (serial : Word) (kind : CardKind) (room : Nat) (minute : Word) : CardImage :=
  let bare : CardImage :=
    { serial := serial, kind := BitVec.ofNat 8 kind.code, room := BitVec.ofNat 16 room, minute := minute, check := 0 }
  { bare with check := BitVec.ofNat 16 (checkWord property bare) }

/-- Whether a read image passes its check word (R9). -/
def imagePasses (property : Nat) (i : CardImage) : Bool :=
  decide (checkWord property i = i.check.toNat)

/-! ## Frames -/

/-- One bit into the check register, most significant first (R139): the terms of degree 12, 5 and 0 are 0x1021. -/
def crcBit (r : BitVec 16) (bit : Bool) : BitVec 16 :=
  if r.getLsbD 15 != bit then (r <<< 1) ^^^ 0x1021#16 else r <<< 1

/-- One byte into the check register. -/
def crcByte (r : BitVec 16) (b : Byte) : BitVec 16 :=
  [7, 6, 5, 4, 3, 2, 1, 0].foldl (fun acc i => crcBit acc (b.getLsbD i)) r

/-- The frame check of a run of bytes: initial value all ones, no final inversion (R139). -/
def frameCheck (bytes : List Byte) : BitVec 16 :=
  bytes.foldl crcByte 0xffff#16

/-- The check's two bytes, most significant first. -/
def checkBytes (bytes : List Byte) : List Byte :=
  [(frameCheck bytes).extractLsb' 8 8, (frameCheck bytes).extractLsb' 0 8]

/-- The ACK part's byte: presence in bit 7, signal in bit 4, sequence in bits 3–0 (R198). Bits 6 and 5, which no rule names, are free.
(DESIGN CHOICE, log entry 41) -/
def ackByte (seq : BitVec 4) (signal : Signal) : Byte :=
  let named := 0x80#8 ||| (match signal with
    | .grant => 0#8
    | .refuse => 0x10#8) ||| seq.zeroExtend 8
  named ||| ((Config.ackUnused named).zeroExtend 8 <<< 5)

/-- The body of a command (R198). -/
def Command.body : Command → List Byte
  | .release seconds => [BitVec.ofNat 8 seconds]
  | .relock => []
  | .hold => []
  | .unlatch => []
  | .encode image _ => imageBytes image
  | .abandon => []
  | .signal => [3]

/-- A device frame (R139): start mark, address, length of the rest, the ACK part if one rides, message code, body and check. -/
def deviceFrame (addr : Nat) (ack : Option (BitVec 4 × Signal)) (code : Byte) (body : List Byte) : List Byte :=
  let ackPart := match ack with
    | none => []
    | some (seq, signal) => [ackByte seq signal]
  let rest := ackPart ++ [code] ++ body
  let covered := [BitVec.ofNat 8 addr, BitVec.ofNat 8 rest.length] ++ rest
  Config.startMark :: (covered ++ checkBytes covered)

/-- The body length of a message code that a node may send (R198). -/
def answerBodyLength (code : Byte) : Option Nat :=
  match code.toNat with
  | 0x80 => some 0
  | 0x81 => some 13
  | 0x82 => some 1
  | 0x83 => some 7
  | 0x84 => some 1
  | 0x85 => some 1
  | _ => none

/-- Whether what arrived after the start mark is a valid answer of the node addressed: its address, a length that matches its message,
a message code that a node may send, and a correct check (R139). -/
def answerValid (addr : Nat) : List Byte → Bool
  | a :: len :: mark :: code :: rest =>
    match answerBodyLength code with
    | none => false
    | some n =>
      decide (a.toNat = addr) && decide (len.toNat = n + 2) && decide (rest.length = n + 2)
        && decide (rest.drop n = checkBytes ([a, len, mark, code] ++ rest.take n))
  | _ => false

/-! ## Answers -/

/-- The attention mark of an answer: bit 7 of the byte before the message code (R139, R198). -/
def answerAttention (mark : Byte) : Bool :=
  mark.getLsbD 7

/-- The sequence of an answer's report: bits 3–0 of that byte (R139, R198). -/
def answerSequence (mark : Byte) : BitVec 4 :=
  mark.extractLsb' 0 4

/-- The report that an answer carries (R147). -/
inductive ReportBody where
  | present (image : CardImage)
  | contact (isOpen : Bool)
  | tally (closed : Bool) (counts : List (BitVec 4))
  | button (on : Bool)
  | encResult (result : EncResult)
  deriving DecidableEq, Repr

/-- Whether a position byte says OPEN: 0 OPEN, 1 CLOSED (R198). Any other is read as one of the two. (DESIGN CHOICE, log entry 29) -/
def positionOpen (code position : Byte) : Bool :=
  if position = 0 then true else if position = 1 then false else Config.unnamedPosition code position

/-- A CONTACT body (R198). -/
def contactBody (position : Byte) : ReportBody :=
  .contact (positionOpen 0x82#8 position)

/-- The slot counts of a TALLY body: two in each byte, the lower-numbered slot in the high four bits (R198). -/
def tallyCounts (pairs : List Byte) : List (BitVec 4) :=
  pairs.flatMap (fun b => [b.extractLsb' 4 4, b.extractLsb' 0 4])

/-- A TALLY body: the position byte and six bytes of counts (R198). -/
def tallyBody (position : Byte) (pairs : List Byte) : ReportBody :=
  .tally (!positionOpen 0x83#8 position) (tallyCounts pairs)

/-- A BUTTON body: 0 OFF, 1 ON (R198). Any other is read as one of the two. (DESIGN CHOICE, log entry 29) -/
def buttonBody (value : Byte) : ReportBody :=
  .button (if value = 0 then false else if value = 1 then true else Config.unnamedButton value)

/-- The result that a byte names: 1 WRITTEN, 2 FAILED, 3 NO_CARD (R198). Any other is read as one of them. (DESIGN CHOICE, log
entry 29) -/
def encResultOf (code : Byte) : EncResult :=
  if code = 1 then .written else if code = 2 then .failed else if code = 3 then .noCard else Config.unnamedResult code

/-- An ENC_RESULT body (R198). -/
def resultBody (code : Byte) : ReportBody :=
  .encResult (encResultOf code)

/-- The card image that thirteen bytes are (R8); a byte that is missing reads as 0, and no valid PRESENT misses one. -/
def imageOf (bytes : List Byte) : CardImage :=
  let at_ (i : Nat) : Byte := bytes.getD i 0
  { serial := at_ 0 ++ at_ 1 ++ at_ 2 ++ at_ 3
    kind := at_ 4
    room := at_ 5 ++ at_ 6
    minute := at_ 7 ++ at_ 8 ++ at_ 9 ++ at_ 10
    check := at_ 11 ++ at_ 12 }

/-- The report of a message code with its body; none for NOTHING, and for a code that no node sends (R198). -/
def reportOf (code : Byte) (body : List Byte) : Option ReportBody :=
  match code.toNat with
  | 0x81 => some (.present (imageOf body))
  | 0x82 => some (contactBody (body.getD 0 0))
  | 0x83 => some (tallyBody (body.getD 0 0) (body.drop 1))
  | 0x84 => some (buttonBody (body.getD 0 0))
  | 0x85 => some (resultBody (body.getD 0 0))
  | _ => none

/-! ## Journal records -/

/-- A two-byte quantity, little-endian (R191). -/
def halfBytes (n : Nat) : List Byte :=
  [BitVec.ofNat 8 n, BitVec.ofNat 8 (n / 256)]

/-- A node field: segment, then address (R199). -/
def nodeBytes (key : Nat) : List Byte :=
  [BitVec.ofNat 8 (keySeg key), BitVec.ofNat 8 (keyAddr key)]

/-- A byte holding a small number. -/
def byteOf (n : Nat) : Byte :=
  BitVec.ofNat 8 n

/-- The verdict codes (R199). -/
def Verdict.code : Verdict → Nat
  | .grant => 0
  | .grantFree => 1
  | .refuse => 2

/-- The reason codes (R199). -/
def Reason.code : Reason → Nat
  | .none => 0
  | .badRead => 1
  | .revoked => 2
  | .unknown => 3
  | .notIssued => 4
  | .mismatch => 5
  | .suspended => 6
  | .notYet => 7
  | .expired => 8
  | .clockUnset => 9
  | .noPrivilege => 10
  | .roomNotOccupied => 11
  | .dnd => 12
  | .outOfHours => 13
  | .stormLock => 14
  | .ceiling => 15
  | .minibarBusy => 16
  | .noRecordRoom => 17

/-- The DOOR event codes (R199). -/
def DoorEvent.code : DoorEvent → Nat
  | .forced => 1
  | .held => 2
  | .cleared => 3
  | .deliveryFailed => 4
  | .holdStart => 5
  | .holdEnd => 6

/-- The NODE event codes (R199). -/
def NodeEvent.code : NodeEvent → Nat
  | .fault => 1
  | .restored => 2
  | .sequenceGap => 3
  | .retry => 4

/-- The CARD event codes (R199). -/
def CardEvent.code : CardEvent → Nat
  | .issued => 1
  | .revoked => 2
  | .superseded => 3
  | .purged => 4
  | .extended => 5
  | .suspended => 6
  | .resumed => 7
  | .issueFailed => 8

/-- The STAY event codes (R199). -/
def StayEvent.code : StayEvent → Nat
  | .checkIn => 1
  | .checkOut => 2
  | .state _ _ => 3
  | .dndOn => 4
  | .dndOff => 5

/-- The states before and after in a STAY record, 0 for events other than STATE (R199). -/
def StayEvent.states : StayEvent → Nat × Nat
  | .state before after => (before.code, after.code)
  | .checkIn => (0, 0)
  | .checkOut => (0, 0)
  | .dndOn => (0, 0)
  | .dndOff => (0, 0)

/-- The session kind codes (R199). -/
def ChargeKind.code : ChargeKind → Nat
  | .guest => 1
  | .unattended => 2

/-- The UNSETTLED cause codes (R199). -/
def UnsettledCause.code : UnsettledCause → Nat
  | .sessionLimit => 1
  | .nodeFault => 2
  | .undelivered => 3

/-- The HOUSE cause codes (R199). -/
def HouseCause.code : HouseCause → Nat
  | .pin .fire => 1
  | .pin .storm => 2
  | .order => 3
  | .setup => 4
  | .reset => 5

/-- The modes byte of a HOUSE record: bit 0 fire, bit 1 storm (R199). -/
def HouseModes.byte (m : HouseModes) : Byte :=
  byteOf ((if m.fire then 1 else 0) + (if m.storm then 2 else 0))

/-- The five bytes of a charge line (R118, R134, R199): slot, item code and delta as listed, then two bytes in which the manual's
three-byte amount cannot stand; they are free. (DESIGN CHOICE, log entry 6) -/
def ChargeLine.bytes (l : ChargeLine) : List Byte :=
  [byteOf l.slot, byteOf (itemCode l.item), BitVec.ofInt 8 l.delta, Config.lineAmountByte l.amount 0,
    Config.lineAmountByte l.amount 1]

/-- A run of bytes rounded up with zeros to a whole number of words (R192). -/
def padWords (bytes : List Byte) : List Byte :=
  bytes ++ List.replicate ((4 - bytes.length % 4) % 4) 0

/-- A record's kind code (R199). -/
def RecordBody.kindCode : RecordBody → Nat
  | .access _ _ _ _ _ _ _ => 1
  | .door _ _ _ => 2
  | .node _ _ _ => 3
  | .card _ _ _ _ => 4
  | .stay _ _ _ _ => 5
  | .charge _ _ _ _ _ _ _ => 6
  | .lateCharge _ _ _ _ => 7
  | .unsettled _ _ _ => 8
  | .restock _ _ _ => 9
  | .house _ _ _ => 10
  | .clock _ _ => 11

/-- A record's body, from its offset 16 (R199), with the bytes that no field names at 0 (R192). -/
def RecordBody.bytes : RecordBody → List Byte
  | .access n serial kind verdict reason repeats room =>
    nodeBytes n ++ wordBytes serial ++ [kind, byteOf verdict.code, byteOf reason.code, byteOf repeats] ++ halfBytes room.toNat
  | .door n event after => nodeBytes n ++ [byteOf event.code, byteOf after.code]
  | .node n event count => nodeBytes n ++ [byteOf event.code, byteOf count]
  | .card serial event room tag =>
    wordBytes serial ++ [byteOf event.code, 0] ++ halfBytes room ++ wordBytes tag
  | .stay room event balance unposted =>
    halfBytes room ++ [byteOf event.code, 0, byteOf event.states.1, byteOf event.states.2, 0, 0] ++ wordBytes (natWord balance)
      ++ wordBytes (natWord unposted)
  | .charge room n kind lines amount posted excessOrLost =>
    halfBytes room ++ nodeBytes n ++ [byteOf kind.code, byteOf lines.length, 0, 0] ++ wordBytes (BitVec.ofInt 32 amount)
      ++ wordBytes (natWord posted) ++ wordBytes (natWord excessOrLost) ++ padWords (lines.flatMap ChargeLine.bytes)
  | .lateCharge room n lines amount =>
    halfBytes room ++ nodeBytes n ++ [byteOf lines.length, 0, 0, 0] ++ wordBytes (BitVec.ofInt 32 amount)
      ++ padWords (lines.flatMap ChargeLine.bytes)
  | .unsettled room n cause => halfBytes room ++ nodeBytes n ++ [byteOf cause.code, 0, 0, 0]
  | .restock room n counts =>
    halfBytes room ++ nodeBytes n ++ (List.range 12).map (fun i => byteOf (counts.getD i 0))
  | .house before after cause => [before.byte, after.byte, byteOf cause.code, 0]
  | .clock oldMinute newMinute => wordBytes oldMinute ++ wordBytes newMinute

/-- The length of a record in bytes (R118). -/
def RecordBody.length : RecordBody → Nat
  | .access _ _ _ _ _ _ _ => 28
  | .door _ _ _ => 20
  | .node _ _ _ => 20
  | .card _ _ _ _ => 28
  | .stay _ _ _ _ => 32
  | .charge _ _ _ lines _ _ _ => (36 + 5 * lines.length + 3) / 4 * 4
  | .lateCharge _ _ lines _ => (28 + 5 * lines.length + 3) / 4 * 4
  | .unsettled _ _ _ => 24
  | .restock _ _ _ => 32
  | .house _ _ _ => 20
  | .clock _ _ => 24

/-- The flags byte (R199). -/
def RecordFlags.byte (f : RecordFlags) : Byte :=
  byteOf ((if f.clampedReading then 1 else 0) + (if f.unpriced then 2 else 0) + (if f.saturated then 4 else 0)
    + (if f.givenUp then 8 else 0) + (if f.barWord1 then 16 else 0) + (if f.barWord2 then 32 else 0))

/-- The 16-byte header of a record (R120, R199). -/
def headerBytes (kind : Nat) (flags : Byte) (length : Nat) (seq : Word) (minute : Word) (second : Nat) (valid : Bool) : List Byte :=
  [byteOf kind, flags] ++ halfBytes length ++ wordBytes seq ++ wordBytes minute
    ++ [byteOf second, byteOf (if valid then 1 else 0), 0, 0]

/-- A record as it stands in the journal under a sequence number. -/
def HeldRecord.bytes (r : HeldRecord) (seq : Word) : List Byte :=
  headerBytes r.body.kindCode r.flags.byte r.body.length seq r.minute r.second r.clockValid ++ r.body.bytes

/-- The GAP that a record carries, with the record's time (R120, R131). -/
def HeldRecord.gapBytes (r : HeldRecord) (seq : Word) : List Byte :=
  headerBytes 12 0 20 seq r.minute r.second r.clockValid ++ halfBytes r.gap ++ [0, 0]

/-- The first word of a PAD, the only word of it that is written (R118, R119). -/
def padHead (length : Nat) : List Byte :=
  [15, 0] ++ halfBytes length

/-- Bytes as the 32-bit writes of the manager port, the lowest address in the least significant byte (R191). -/
def wordsOf : List Byte → List Word
  | b0 :: b1 :: b2 :: b3 :: rest =>
    (b3.zeroExtend 32 <<< 24 ||| b2.zeroExtend 32 <<< 16 ||| b1.zeroExtend 32 <<< 8 ||| b0.zeroExtend 32) :: wordsOf rest
  | _ => []

/-- Words written one after another from an address. -/
def writesFrom (addr : Word) : List Word → List PortWrite
  | [] => []
  | w :: rest => { addr := addr, data := w } :: writesFrom (addr + 4) rest

/-! ## The status page -/

/-- The input part of a pin (R169): a level sense follows the settled level, a latching sense is its latch. -/
def House.inputPart (h : House) : Bool :=
  match h.sense with
  | .off => false
  | .levelHigh => decide (h.settled = some .high)
  | .levelLow => decide (h.settled = some .low)
  | .riseLatch => h.latch
  | .fallLatch => h.latch
  | .bothLatch => h.latch

/-- The active value of a house mode (R171). -/
def House.active (h : House) : Bool :=
  h.inputPart || h.order

/-- The active values of both modes. -/
def Device.modes (d : Device) : HouseModes :=
  { fire := d.fire.active, storm := d.storm.active }

/-- The page's byte of one mode: bit 0 active, bit 1 input part, bit 2 order part (R194). -/
def House.pageByte (h : House) : Nat :=
  (if h.active then 1 else 0) + (if h.inputPart then 2 else 0) + (if h.order then 4 else 0)

/-- The nodes online count (R140). -/
def Device.nodesOnline (d : Device) : Nat :=
  (d.nodes.filter (fun p => p.2.state.inService)).length

/-- The nodes out of service count (R140). -/
def Device.nodesOut (d : Device) : Nat :=
  (d.nodes.filter (fun p => p.2.state.isOut)).length

/-- The walk end codes (R194). -/
def WalkEnd.code : WalkEnd → Nat
  | .none => 0
  | .walked => 1
  | .aborted => 2
  | .badPlace => 3
  | .badSize => 4
  | .notNew => 5
  | .readError => 6
  | .writeError => 7
  | .reset => 8

/-- The word at one offset of the status page, with the bytes that no field names at 0 (R192, R194). -/
def Device.pageWord (d : Device) (offset : Nat) : Word :=
  match offset with
  | 0 => natWord d.journal.writeMark
  | 4 => d.journal.nextSeq
  | 8 => d.clock.minute
  | 12 => natWord (d.clock.second + 256 * (if d.clock.valid then 1 else 0) + 65536 * d.fire.pageByte
      + 16777216 * d.storm.pageByte)
  | 16 => natWord (d.creds.entries.length + 65536 * d.creds.deny.length)
  | 20 => natWord (d.nodesOnline + 65536 * d.nodesOut)
  | 24 => natWord (d.journal.queue.length + 256 * d.journal.reserved + 65536 * d.journal.suppressed)
  | 28 => d.walker.lastBlock
  | 32 => natWord d.walker.lastEnd.code
  | _ => 0

/-- The offsets that a whole publication writes: 0 to 255, but 0 to 7 and 24 to 27 while no region is in force (R192). The words are written
in rising order of offset, an order that the manual does not give. (DESIGN CHOICE, log entry 42) -/
def Device.pageOffsets (d : Device) : List Nat :=
  ((List.range 64).map (fun i => 4 * i)).filter
    (fun o => d.journal.region.isSome || (decide (o ≠ 0) && decide (o ≠ 4) && decide (o ≠ 24)))

/-- The writes of a whole publication (R178), in rising order of offset (DESIGN CHOICE, log entry 42); none while COMMON_SIZE is 0. -/
def Device.pageWrites (d : Device) : List PortWrite :=
  if d.regs.commonSize = 0 then []
  else d.pageOffsets.map (fun o => { addr := d.regs.commonBase + natWord o, data := d.pageWord o })

/-- The writes of the Journal Writer's own publication at a completed placement (R119): W, then the sequence number. (DESIGN CHOICE, log
entry 42) -/
def Device.markWrites (d : Device) : List PortWrite :=
  if d.regs.commonSize = 0 then []
  else [0, 4].map (fun o => { addr := d.regs.commonBase + natWord o, data := d.pageWord o })

end Sys2Proof.Machine
end

