-- ==== Sys2Proof/Machine/Journal.lean ====
section
/-! DEFINITION. The Journal Writer (chapter 7): admission to the hold queue, reservations, the drain, placements and the read mark. -/

namespace Sys2Proof.Machine

/-! ## Counts -/

/-- The bytes free in a region of the given size (R117). -/
def Journal.freeIn (j : Journal) (size : Nat) : Nat :=
  size - j.unreadIn size - 4

/-- Held records and reservations together (R133). -/
def Journal.load (j : Journal) : Nat :=
  j.queue.length + j.reserved

/-- Whether the head of the queue is being placed (R126). -/
def Journal.isPlacing (j : Journal) : Bool :=
  decide (j.drain = .placing)

/-! ## A placement (R119) -/

/-- Where the parts of a placement go, as offsets in the region: a PAD ahead of the GAP, the GAP, a PAD ahead of the record and
the record; `need` is their sum and `after` the write mark when it completes. A PAD is given as offset and length. -/
structure Plan where
  pad1 : Option (Nat × Nat)
  gap : Option Nat
  pad2 : Option (Nat × Nat)
  at_ : Nat
  need : Nat
  after : Nat
  deriving DecidableEq, Repr

/-- The plan of a placement from the write mark: `gap` says whether the head carries a GAP, `length` is the record's (R119). -/
def placementPlan (size writeMark : Nat) (gap : Bool) (length : Nat) : Plan :=
  let left := size - writeMark
  let padFirst := gap && decide (left < 20)
  let gapAt := if padFirst then 0 else writeMark
  let pos := if gap then gapAt + 20 else writeMark
  let left2 := size - pos
  let padSecond := decide (left2 ≠ 0) && decide (left2 < length)
  let at_ := if left2 = 0 || padSecond then 0 else pos
  { pad1 := if padFirst then some (writeMark, left) else none
    gap := if gap then some gapAt else none
    pad2 := if padSecond then some (pos, left2) else none
    at_ := at_
    need := (if padFirst then left else 0) + (if gap then 20 else 0) + (if padSecond then left2 else 0) + length
    after := if at_ + length = size then 0 else at_ + length }

/-- The plan of the head of the queue in a region. -/
def Journal.headPlan (j : Journal) (r : Region) (h : HeldRecord) : Plan :=
  placementPlan r.size j.writeMark (decide (h.gap ≠ 0)) h.body.length

/-- Whether the head's need is at most free (R126). -/
def Journal.headFits (j : Journal) (r : Region) (h : HeldRecord) : Bool :=
  decide ((j.headPlan r h).need ≤ j.freeIn r.size)

/-- The sequence number of the head record: the one after its GAP's where it carries one (R120). -/
def Journal.recordSeq (j : Journal) (h : HeldRecord) : Word :=
  if h.gap ≠ 0 then j.nextSeq + 1 else j.nextSeq

/-- The writes of the placement in progress: PAD, GAP and record in that order (R119), the words of each in rising order of address (DESIGN
CHOICE, log entry 42); none when nothing is being placed. -/
def Device.placementWrites (d : Device) : List PortWrite :=
  match d.journal.region, d.journal.queue with
  | some r, h :: _ =>
    if d.journal.isPlacing then
      let p := d.journal.headPlan r h
      let address (o : Nat) : Word := d.regs.commonBase + natWord (r.start + o)
      let pad (x : Option (Nat × Nat)) : List PortWrite :=
        match x with
        | none => []
        | some (o, n) => writesFrom (address o) (wordsOf (padHead n))
      let gap : List PortWrite :=
        match p.gap with
        | none => []
        | some o => writesFrom (address o) (wordsOf (h.gapBytes d.journal.nextSeq))
      pad p.pad1 ++ gap ++ pad p.pad2 ++ writesFrom (address p.at_) (wordsOf (h.bytes (d.journal.recordSeq h)))
    else []
  | _, _ => []

/-! ## The drain (R126) -/

/-- An attempt: the placement begins when the head's need is at most free, and otherwise a re-read is made and the drain waits for
room. A re-read that a second's pulse has outstanding then serves the attempt too. (DEDUCED, log entry 27) With the queue empty the drain is IDLE,
and with no region in force INACTIVE. -/
def Journal.attempt (j : Journal) : Journal :=
  match j.region, j.queue with
  | none, _ => { j with drain := .inactive }
  | some _, [] => { j with drain := .idle }
  | some r, h :: _ =>
    if j.headFits r h then { j with drain := .placing }
    else { j with drain := .waitingRoom, reread := some .attempt }

/-- The comparison made again after an attempt's own re-read (R126). -/
def Journal.compareAgain (j : Journal) : Journal :=
  match j.region, j.queue, j.drain with
  | some r, h :: _, .waitingRoom => if j.headFits r h then { j with drain := .placing } else j
  | _, _, _ => j

/-- A record has entered: the drain makes an attempt from IDLE and from either waiting state (R126). -/
def Journal.wake (j : Journal) : Journal :=
  match j.drain with
  | .idle => j.attempt
  | .waitingRoom => j.attempt
  | .waitingRetry => j.attempt
  | .placing => j
  | .inactive => j

/-- The cached read mark has moved: the drain makes an attempt from either waiting state (R126). -/
def Journal.wakeOnMark (j : Journal) : Journal :=
  match j.drain with
  | .waitingRoom => j.attempt
  | .waitingRetry => j.attempt
  | .idle => j
  | .placing => j
  | .inactive => j

/-! ## Admission (R128 to R131) -/

/-- The suppressed count after a rise, saturating (R130). -/
def raiseSuppressed (count by_ : Nat) : Nat :=
  min Config.suppressedCap (count + by_)

/-- A record enters at the tail, taking a suppressed count above 0 as its gap-before count, and wakes the drain (R126, R128, R131). -/
def Journal.enter (j : Journal) (r : HeldRecord) : Journal :=
  Journal.wake { j with queue := j.queue ++ [{ r with gap := j.suppressed }], suppressed := 0 }

/-- Whether a new ACCESS body merges into a held one: the same node, serial, verdict and reason, and a repeat count below 255
(R129). -/
def mergesInto (held new : RecordBody) : Bool :=
  match held, new with
  | .access n s _ v r k _, .access n' s' _ v' r' _ _ =>
    decide (n = n') && decide (s = s') && decide (v = v') && decide (r = r') && decide (k < Config.repeatCap)
  | _, _ => false

/-- A held ACCESS body with its repeat count one higher; the card kind and room it holds are kept (R129). -/
def RecordBody.repeated : RecordBody → RecordBody
  | .access n s c v r k room => .access n s c v r (k + 1) room
  | b => b

/-- The queue with a ROUTINE ACCESS record merged into its newest record, none where it does not merge; `placing` says that the
queue's head is being placed (R129). -/
def mergeNewest (placing : Bool) (new : HeldRecord) : List HeldRecord → Option (List HeldRecord)
  | [] => none
  | [last] =>
    if !placing && decide (new.cls = .routine) && mergesInto last.body new.body then
      some [{ last with body := last.body.repeated }]
    else none
  | first :: rest =>
    match mergeNewest false new rest with
    | none => none
    | some rest' => some (first :: rest')

/-- The oldest ROUTINE record of a queue and the queue without it; a head being placed is passed over (R130). -/
def takeRoutine (placing : Bool) : List HeldRecord → Option (HeldRecord × List HeldRecord)
  | [] => none
  | h :: rest =>
    if !placing && decide (h.cls = .routine) then some (h, rest)
    else
      match takeRoutine false rest with
      | none => none
      | some (r, rest') => some (r, h :: rest')

/-- Admission of a record that is neither merged nor reserved (R128 steps 3 and 4, R130). -/
def Journal.admitPlain (j : Journal) (r : HeldRecord) : Journal :=
  if j.load < Config.holdCapacity then j.enter r
  else
    match r.cls with
    | .routine => { j with suppressed := raiseSuppressed j.suppressed 1 }
    | _ =>
      match takeRoutine j.isPlacing j.queue with
      | none => { j with suppressed := raiseSuppressed j.suppressed 1 }
      | some (old, rest) =>
        Journal.enter { j with queue := rest, suppressed := raiseSuppressed j.suppressed (1 + old.gap) } r

/-- Admission of a record (R128). A reserved record uses its reservation; one for which none is held, which no state reached from
power-on gives, is admitted like a NOTABLE one. -/
def Journal.admitRecord (j : Journal) (r : HeldRecord) : Journal :=
  match mergeNewest j.isPlacing r j.queue with
  | some queue => { j with queue := queue }
  | none =>
    if r.cls = .reserved && decide (0 < j.reserved) then Journal.enter { j with reserved := j.reserved - 1 } r
    else j.admitPlain r

/-- A record handed to the Journal Writer, with the clock's time in its header (R120, R128). -/
def Device.record (d : Device) (body : RecordBody) (flags : RecordFlags) (cls : RecordClass) : Device :=
  let r : HeldRecord :=
    { body := body, flags := flags, cls := cls, minute := d.clock.minute, second := d.clock.second,
      clockValid := d.clock.valid, gap := 0 }
  { d with journal := d.journal.admitRecord r }

/-- A NOTABLE record without flags. -/
def Device.notable (d : Device) (body : RecordBody) : Device :=
  d.record body {} .notable

/-! ## Reservations (R132) -/

/-- Whether a reservation would be granted. -/
def Journal.mayReserve (j : Journal) : Bool :=
  decide (j.load < Config.holdCapacity) && decide (j.reserved < Config.reservationsMax)

/-- A reservation taken. -/
def Device.reserve (d : Device) : Device :=
  { d with journal := { d.journal with reserved := d.journal.reserved + 1 } }

/-- A reservation given back. -/
def Device.giveBack (d : Device) : Device :=
  { d with journal := { d.journal with reserved := d.journal.reserved - 1 } }

/-- JOURNAL_STALL latched where the step has brought held plus reserved to the stall mark from below it (R133). -/
def Device.latchStall (before after : Device) : Device :=
  if before.journal.load < Config.stallMark && decide (Config.stallMark ≤ after.journal.load) then after.latch .journalStall
  else after

/-! ## The read mark (R121, R122) -/

/-- Whether a read value is taken as the new read mark (R122). -/
def Journal.markOk (j : Journal) (size value : Nat) : Bool :=
  decide (value % 4 = 0) && decide (value < size)
    && decide ((value + size - j.readMark) % size ≤ j.unreadIn size)

/-- A read value checked and, where it passes, taken; a move wakes a waiting drain (R122, R126). -/
def Journal.takeMark (j : Journal) (value : Nat) : Journal :=
  match j.region with
  | none => j
  | some r =>
    if j.markOk r.size value && decide (value ≠ j.readMark) then Journal.wakeOnMark { j with readMark := value } else j

/-- The re-read of each second while unread is above 0 (R121); one already outstanding serves both. (DEDUCED, log entry 27) -/
def Journal.secondReread (j : Journal) : Journal :=
  if j.region.isSome && decide (0 < j.unread) && j.reread.isNone then { j with reread := some .second } else j

/-- A re-read completes: the value is tried, and where the re-read was an attempt's own and the drain still waits for room, the
comparison is made again (R121, R126). -/
def Journal.rereadDone (j : Journal) (value : Nat) : Journal :=
  match j.reread with
  | none => j
  | some .second => Journal.takeMark { j with reread := none } value
  | some .attempt =>
    match j.region with
    | none => { j with reread := none }
    | some r =>
      let moved := j.markOk r.size value && decide (value ≠ j.readMark)
      let k := { j with reread := none, readMark := if moved then value else j.readMark }
      if moved && decide (k.drain = .waitingRetry) then k.attempt else k.compareAgain

/-! ## Completion of a placement (R119) -/

/-- The Journal Writer after a placement completes: the write mark advances, the head leaves the queue and the sequence number
rises by one for each numbered record; then an attempt is made, or the drain is IDLE. -/
def Journal.complete (j : Journal) : Journal :=
  match j.region, j.queue with
  | some r, h :: rest =>
    Journal.attempt
      { j with writeMark := (j.headPlan r h).after, queue := rest, nextSeq := j.recordSeq h + 1 }
  | _, _ => j

/-! ## SETUP and the resets (R135, R137) -/

/-- Whether a SETUP names the region last established (R135). -/
def Journal.sameRegion (j : Journal) (r : Region) : Bool :=
  decide (j.lastRegion = some r)

/-- The unread bytes that SETUP's test on moving the region judges: those of the last region, on the cached read mark (R135). -/
def Journal.unreadOfLast (j : Journal) : Nat :=
  match j.lastRegion with
  | none => 0
  | some r => j.unreadIn r.size

/-- Whether a SETUP may not establish a region other than the last: unread bytes, or a hold queue that is not empty (R135). -/
def Journal.mayNotMove (j : Journal) : Bool :=
  decide (0 < j.unreadOfLast) || decide (j.queue ≠ [])

/-- The region and threshold of an accepted SETUP (R135). A re-read still outstanding is dropped where the region moves. (DESIGN CHOICE, log
entry 46) -/
def Journal.establish (j : Journal) (r : Region) (threshold : Nat) : Journal :=
  if j.sameRegion r then
    let k := { j with region := some r, threshold := threshold }
    if j.drain = .inactive then k.attempt else k
  else
    { j with region := some r, lastRegion := some r, writeMark := 0, readMark := 0, threshold := threshold, drain := .idle,
             reread := none }

/-- The Journal Writer after a board reset (R137). A re-read still outstanding is dropped. (DESIGN CHOICE, log entry 46) -/
def Journal.boardReset (j : Journal) : Journal :=
  { j with region := none, reserved := 0, drain := .inactive, reread := none }

/-- The Journal Writer after a soft reset (R137). A re-read still outstanding is dropped. (DESIGN CHOICE, log entry 46) -/
def Journal.softReset (j : Journal) : Journal :=
  Journal.attempt { j with reserved := 0, reread := none }

end Sys2Proof.Machine
end

