-- ==== Sys2Proof/Machine/Line.lean ====
section
/-! DEFINITION. The Line Controller's queues and turns (chapter 8): a command handed for a node, the attention set, and the choice of whom a
segment serves next. -/

namespace Sys2Proof.Machine

/-! ## The command queue (R155) -/

/-- Whether SETUP has left the segment disabled (R138); a segment that has not been set up is silent, not disabled. -/
def Segment.isDisabled (g : Segment) : Bool :=
  match g.settings with
  | none => false
  | some st => !st.enabled

/-- Whether a command for the address is queued. -/
def Segment.hasQueued (g : Segment) (addr : Nat) : Bool :=
  g.queue.any (fun e => decide (e.addr = addr))

/-- Whether an attempt of a command for the address is in progress. -/
def Segment.hasAttempt (g : Segment) (addr : Nat) : Bool :=
  match g.exchange with
  | none => false
  | some x => decide (x.addr = addr) && x.carried.isSome

/-- A command placed for an address of a segment that takes it: a SIGNAL is dropped behind a pending command, a queued command is
replaced in place, one behind an attempt in progress is held as the next, and any other goes to the tail (R155). -/
def Segment.place (g : Segment) (addr : Nat) (c : Command) : Segment :=
  if decide (c = .signal) && (g.hasQueued addr || g.hasAttempt addr) then g
  else if g.hasQueued addr then
    { g with queue := g.queue.map (fun e => if e.addr = addr then { addr := addr, command := c, attempts := 0 } else e) }
  else if g.hasAttempt addr then
    { g with exchange := g.exchange.map (fun x => { x with next := some c }) }
  else { g with queue := g.queue ++ [{ addr := addr, command := c, attempts := 0 }] }

/-- A command handed to the Line Controller for a node (R155): reported undelivered at once when the node is FAULTED or RETRY_WAIT or its
segment is not enabled after SETUP, and placed otherwise. -/
def Device.hand (d : Device) (key : Nat) (c : Command) : Device :=
  match Table.find key d.nodes with
  | none => d
  | some n =>
    if n.state.isOut || (d.segment (keySeg key)).isDisabled then
      { d with reports := d.reports ++ [{ node := key, command := c }] }
    else d.setSegment (keySeg key) ((d.segment (keySeg key)).place (keyAddr key) c)

/-- Commands handed in order. -/
def Device.handAll (d : Device) (key : Nat) (cs : List Command) : Device :=
  cs.foldl (fun acc c => acc.hand key c) d

/-- The pending commands of an address: queued, then held behind an attempt (R157). -/
def Segment.pendingOf (g : Segment) (addr : Nat) : List Command :=
  (g.queue.filter (fun e => decide (e.addr = addr))).map (fun e => e.command)

/-- The segment without the queued commands of an address. -/
def Segment.dropQueued (g : Segment) (addr : Nat) : Segment :=
  { g with queue := g.queue.filter (fun e => decide (e.addr ≠ addr)) }

/-! ## The attention set (R151) -/

/-- An address put into a rising list without duplicates. -/
def insertAddress (addr : Nat) : List Nat → List Nat
  | [] => [addr]
  | a :: rest => if addr < a then addr :: a :: rest else if addr = a then a :: rest else a :: insertAddress addr rest

/-- A node joins its segment's attention set. -/
def Device.joinAttention (d : Device) (key : Nat) : Device :=
  let g := d.segment (keySeg key)
  d.setSegment (keySeg key) { g with attention := insertAddress (keyAddr key) g.attention }

/-- A node leaves its segment's attention set, and its pass-over count becomes 0 where it was a member (R151). -/
def Device.leaveAttention (d : Device) (key : Nat) : Device :=
  let g := d.segment (keySeg key)
  if g.attention.contains (keyAddr key) then
    (d.setSegment (keySeg key) { g with attention := g.attention.filter (fun a => decide (a ≠ keyAddr key)) }).modifyNode key
      (fun n => { n with passOver := 0 })
  else d

/-! ## Choosing whom to serve (R150 to R154) -/

/-- The addresses of a segment's nodes that pass a test, rising. -/
def Device.addressesWhere (d : Device) (seg : Nat) (f : Node → Bool) : List Nat :=
  (Table.keysWhere (fun key n => decide (keySeg key = seg) && f n) d.nodes).map keyAddr

/-- The service class of a member, 0 where no node is defined. -/
def Device.serviceOf (d : Device) (seg addr : Nat) : Nat :=
  match Table.find (nodeKey seg addr) d.nodes with
  | none => 0
  | some n => n.service

/-- The pass-over count of a member, 0 where no node is defined. -/
def Device.passOverOf (d : Device) (seg addr : Nat) : Nat :=
  match Table.find (nodeKey seg addr) d.nodes with
  | none => 0
  | some n => n.passOver

/-- The member of highest service class, and among equals of lowest address, of a rising list. -/
def Device.highest (d : Device) (seg : Nat) : List Nat → Option Nat
  | [] => none
  | a :: rest =>
    match d.highest seg rest with
    | none => some a
    | some b => if d.serviceOf seg a < d.serviceOf seg b then some b else some a

/-- The PRIORITY choice of an attention turn (R152): among the members at a pass-over count of 8 where there are any, and otherwise
among all. -/
def Device.priorityChoice (d : Device) (seg : Nat) (members : List Nat) : Option Nat :=
  match d.highest seg (members.filter (fun a => decide (d.passOverOf seg a = Config.passOverLimit))) with
  | some a => some a
  | none => d.highest seg members

/-- The ROTATING choice of an attention turn (R153): the first member above the last served, and otherwise the first. -/
def rotatingChoice (lastServed : Nat) (members : List Nat) : Option Nat :=
  match members.find? (fun a => decide (lastServed < a)) with
  | some a => some a
  | none => members.head?

/-- The pass-over counts after a PRIORITY attention turn (R152): the chosen node's is 0, every other member's is one higher, to at
most 8. -/
def Device.countPassOver (d : Device) (seg chosen : Nat) (members : List Nat) : Device :=
  { d with nodes := Table.mapVals (fun key n =>
      if keySeg key = seg && members.contains (keyAddr key) then
        { n with passOver := if keyAddr key = chosen then 0 else min Config.passOverLimit (n.passOver + 1) }
      else n) d.nodes }

/-- The choice of a presence turn, and the pointer after it (R154): the lowest node on probe, the pointer kept; otherwise the first
polled node at or above the pointer, going on from 1. -/
def Device.presenceChoice (d : Device) (seg pointer : Nat) : Option (Nat × Nat) :=
  match d.addressesWhere seg (fun n => n.onProbe && !n.state.isOut) with
  | a :: _ => some (a, pointer)
  | [] =>
    let polled := d.addressesWhere seg (fun n => !n.state.isOut)
    match (match polled.find? (fun a => decide (pointer ≤ a)) with
      | some a => some a
      | none => polled.head?) with
    | none => none
    | some a => some (a, if 120 ≤ a then 1 else a + 1)

/-- The kinds of frame that a turn sends. -/
inductive Send where
  | ackAlone
  | command (c : Command) (attempts : Nat)
  | fetch
  deriving DecidableEq, Repr

/-- The message code of a frame (R198). -/
def Send.code : Send → Byte
  | .ackAlone => 0
  | .command c _ => byteOf c.code
  | .fetch => 1

/-- The message body of a frame. -/
def Send.body : Send → List Byte
  | .ackAlone => []
  | .command c _ => c.body
  | .fetch => []

/-- The command that a frame carries, with its attempts. -/
def Send.carried : Send → Option (Command × Nat)
  | .ackAlone => none
  | .command c attempts => some (c, attempts)
  | .fetch => none

/-- A frame sent: the node's owed ACK rides and is then none, a carried command leaves the queue, and the exchange begins with the
segment's reply timeout (R138, R149, R156). -/
def Device.sendFrame (d : Device) (seg addr : Nat) (m : Send) : Device :=
  let key := nodeKey seg addr
  let ack := match Table.find key d.nodes with
    | none => none
    | some n => n.owedAck
  let g := d.segment seg
  let timeout := match g.settings with
    | none => 10
    | some st => st.timeout
  let g' : Segment :=
    { g with
      queue := if m.carried.isSome then g.queue.filter (fun e => decide (e.addr ≠ addr)) else g.queue
      exchange := some { addr := addr, carried := m.carried, next := none, timeout := timeout }
      sent := deviceFrame addr ack m.code m.body }
  (d.setSegment seg g').modifyNode key (fun n => { n with owedAck := none })

/-- The queued command of an address as a frame's message; the ACK alone where there is none (R150). -/
def Segment.ackMessage (g : Segment) (addr : Nat) : Send :=
  match g.queue.find? (fun e => decide (e.addr = addr)) with
  | some e => .command e.command e.attempts
  | none => .ackAlone

/-- An attention turn (R152, R153). -/
def Device.attentionTurn (d : Device) (seg : Nat) (mode : SchedMode) (members : List Nat) : Option Device :=
  match mode with
  | .priority =>
    match d.priorityChoice seg members with
    | none => none
    | some a => some ((d.countPassOver seg a members).sendFrame seg a .fetch)
  | .rotating =>
    match rotatingChoice (d.segment seg).lastServed members with
    | none => none
    | some a => some ((d.setSegment seg { d.segment seg with lastServed := a }).sendFrame seg a .fetch)

/-- A presence turn (R154); a segment with no candidate sends nothing (R150). -/
def Device.presenceTurn (d : Device) (seg : Nat) : Device :=
  match d.presenceChoice seg (d.segment seg).presence with
  | none => d
  | some (a, pointer) => (d.setSegment seg { d.segment seg with presence := pointer }).sendFrame seg a .fetch

/-- A segment's next turn (R150): an owed ACK, the head of the command queue, a member of the attention set, then presence. A segment
that is not enabled, or has an exchange in progress, takes none. -/
def Device.turn (d : Device) (seg : Nat) : Device :=
  let g := d.segment seg
  match g.settings, g.exchange with
  | some st, none =>
    if st.enabled then
      match d.addressesWhere seg (fun n => n.owedAck.isSome) with
      | a :: _ => d.sendFrame seg a (g.ackMessage a)
      | [] =>
        match g.queue with
        | e :: _ => d.sendFrame seg e.addr (.command e.command e.attempts)
        | [] =>
          match d.attentionTurn seg st.mode g.attention with
          | some d' => d'
          | none => d.presenceTurn seg
    else d
  | _, _ => d

end Sys2Proof.Machine
end

