-- ==== Sys2Proof/Machine/Door.lean ====
section
/-! DEFINITION. The Door Unit (chapter 4). What an event does to one door is a function of its record alone, which answers the new record,
the commands handed for its node, the DOOR records written and whether DOOR_ALARM is latched. -/

namespace Sys2Proof.Machine

/-- What an event does at one door: commands are handed before records (R83). -/
structure DoorOut where
  door : Door
  commands : List Command := []
  events : List DoorEvent := []
  alarm : Bool := false
  deriving DecidableEq, Repr

/-- No change. -/
def DoorOut.same (r : Door) : DoorOut :=
  { door := r }

/-- Commands handed ahead of those of an outcome, such as a RELOCK ahead of coming to rest. One that coming to rest would hand again is handed
once: the one RELOCK serves both (R66). -/
def DoorOut.after (o : DoorOut) (first : List Command) : DoorOut :=
  { o with commands := first ++ o.commands.filter (fun c => !first.contains c) }

/-- The same outcome with one more record. -/
def DoorOut.withEvent (o : DoorOut) (e : DoorEvent) : DoorOut :=
  { o with events := o.events ++ [e] }

/-- The running state of a new door record, and of every one after a board or soft reset (R64, R84). -/
def Door.fresh (settings : DoorSettings) : Door :=
  { settings := settings, state := .unknown, contact := .unseen, releaseTimer := none, heldTimer := none, delayTimer := none,
    forcedLatch := false, heldLatch := false, holdEnd := none, savedEnd := none, holdUnsent := false }

/-- All three timers stopped. -/
def Door.stopTimers (r : Door) : Door :=
  { r with releaseTimer := none, heldTimer := none, delayTimer := none }

/-- The RELEASE of a door: its duration is the release time under ON_TIMER and 0 under ON_CLOSE (R66). -/
def Door.releaseCommand (r : Door) : Command :=
  match r.settings.relock with
  | .onTimer => .release r.settings.releaseTime
  | .onClose => .release 0

/-- Whether a release runs that the node itself ends (R69, R73). -/
def Door.timedRelease (r : Door) : Bool :=
  r.releaseTimer.isSome && decide (r.settings.relock = .onTimer)

/-- A held timer started where it is stopped (R66). -/
def startIfStopped (t : Option Timer) : Option Timer :=
  match t with
  | none => Timer.started
  | some x => some x

/-- The door comes to rest in the first case that applies (R66); `out` says that its node is FAULTED or RETRY_WAIT. Only the first case
names the alarm delay timer: in every other it is left as it is, running on where no rule has stopped it. (DESIGN CHOICE, log entry 20) -/
def Door.rest (r : Door) (out : Bool) : DoorOut :=
  if out then { door := { r.stopTimers with state := .unknown } }
  else if r.forcedLatch then { door := { r with state := .forced, heldTimer := none } }
  else if r.heldLatch then { door := { r with state := .held, heldTimer := none } }
  else
    match r.contact with
    | .opened => { door := { r with state := .opened, heldTimer := startIfStopped r.heldTimer } }
    | .closed =>
      if r.timedRelease then { door := { r with state := .released, heldTimer := none } }
      else { door := { r with state := .locked, releaseTimer := none, heldTimer := none }, commands := [.relock] }
    | .unseen => { door := { r with state := .unknown, releaseTimer := none, heldTimer := none }, commands := [.relock] }

/-! ## The release cycle (R67 to R70) -/

/-- A door freed by a grant: OPEN with the held timer started where its leaf stands open, RELEASED otherwise (R67). -/
def Door.freed (r : Door) : Door :=
  if r.contact = .opened then { r with state := .opened, releaseTimer := Timer.started, heldTimer := Timer.started }
  else { r with state := .released, releaseTimer := Timer.started }

/-- A standing alarm met by a grant (R67): with its latch set the state is kept, and otherwise the alarm ends. (DEDUCED, log entry 8) -/
def Door.grantInAlarm (r : Door) (latched : Bool) : DoorOut :=
  if latched then { door := { r with releaseTimer := Timer.started }, commands := [r.releaseCommand] }
  else { door := { r.freed with delayTimer := none }, commands := [r.releaseCommand], events := [.cleared] }

/-- A grant (R67). -/
def Door.grant (r : Door) : DoorOut :=
  match r.state with
  | .unknown => { door := r.freed, commands := [r.releaseCommand] }
  | .locked => { door := r.freed, commands := [r.releaseCommand] }
  | .released => { door := { r with releaseTimer := Timer.started }, commands := [r.releaseCommand] }
  | .opened => { door := { r with releaseTimer := Timer.started }, commands := [r.releaseCommand] }
  | .forced => r.grantInAlarm r.forcedLatch
  | .held => r.grantInAlarm r.heldLatch
  | .holdOpen => .same r
  | .emergency => .same r

/-- A forced alarm, of a door opened in LOCKED (R72). -/
def Door.raiseForced (r : Door) : DoorOut :=
  match r.settings.forcedMode with
  | .latch =>
    { door := { r with state := .forced, forcedLatch := true }, commands := [.signal], events := [.forced], alarm := true }
  | .retry => { door := { r with state := .forced }, commands := [.signal], events := [.forced], alarm := true }
  | .report => { door := { r with state := .forced }, commands := [.signal], events := [.forced], alarm := true }
  | .ignore => { door := { r with state := .opened, heldTimer := Timer.started } }

/-- A held alarm, of a held timer that expired in OPEN (R72). -/
def Door.raiseHeld (r : Door) : DoorOut :=
  match r.settings.heldMode with
  | .latch => { door := { r with state := .held, heldLatch := true }, commands := [.signal], events := [.held], alarm := true }
  | .retry => { door := { r with state := .held }, commands := [.signal], events := [.held], alarm := true }
  | .report => { door := { r with state := .held }, commands := [.signal], events := [.held], alarm := true }
  | .ignore => { door := { r with heldTimer := Timer.started } }

/-- A CONTACT report of open (R68). -/
def Door.reportOpen (r : Door) : DoorOut :=
  let r' := { r with contact := .opened }
  match r.state with
  | .unknown => (r'.rest false).after [.relock]
  | .locked => r'.raiseForced
  | .released => { door := { r' with state := .opened, heldTimer := Timer.started } }
  | .opened => .same r'
  | .forced => .same { r' with delayTimer := none }
  | .held => .same { r' with delayTimer := none }
  | .holdOpen => .same r'
  | .emergency => .same r'

/-- The retry delay of the alarm that a state stands for; of a delay timer that runs with no alarm standing, that of a forced one. (DESIGN
CHOICE, log entry 20) -/
def Door.alarmDelay (r : Door) : RetryDelay :=
  if r.state = .held then r.settings.heldDelay else r.settings.forcedDelay

/-- A standing alarm whose leaf closes (R73); `latched` is the latch of that alarm and `mode` its mode in force. A LATCH mode met without
a latch, set since the alarm was raised, holds the alarm as a latch does. (DEDUCED, log entry 9) A delay timer that already runs is started
anew by a RETRY mode, and left running by the others. (DESIGN CHOICE, log entry 20) -/
def Door.closeInAlarm (r : Door) (latched : Bool) (mode : ResponseMode) : DoorOut :=
  let relock : List Command := if r.timedRelease then [] else [.relock]
  if latched then { door := r, commands := relock }
  else
    match mode with
    | .latch => { door := r, commands := relock }
    | .retry => { door := { r with delayTimer := Timer.started }, commands := relock }
    | .report => (r.rest false).withEvent .cleared
    | .ignore => (r.rest false).withEvent .cleared

/-- A CONTACT report of closed (R69). -/
def Door.reportClosed (r : Door) : DoorOut :=
  let r' := { r with contact := .closed }
  match r.state with
  | .unknown => (r'.rest false).after [.relock]
  | .locked => .same r'
  | .released => .same r'
  | .opened => Door.rest { r' with heldTimer := none } false
  | .forced => r'.closeInAlarm r.forcedLatch r.settings.forcedMode
  | .held => r'.closeInAlarm r.heldLatch r.settings.heldMode
  | .holdOpen => .same r'
  | .emergency => .same r'

/-- The release timer expires (R70). -/
def Door.releaseExpiry (r : Door) : DoorOut :=
  let r' := { r with releaseTimer := none }
  let inAlarm : List Command :=
    match r.settings.relock with
    | .onTimer => [.relock]
    | .onClose => if r.contact = .closed then [.relock] else []
  match r.state with
  | .released => { door := { r' with state := .locked }, commands := [.relock] }
  | .opened => { door := r', commands := if r.settings.relock = .onTimer then [.relock] else [] }
  | .forced => { door := r', commands := inAlarm }
  | .held => { door := r', commands := inAlarm }
  | .unknown => .same r'
  | .locked => .same r'
  | .holdOpen => .same r'
  | .emergency => .same r'

/-- The held timer expires (R71). -/
def Door.heldExpiry (r : Door) : DoorOut :=
  let r' := { r with heldTimer := none }
  if r.state = .opened then r'.raiseHeld else .same r'

/-- The alarm delay timer expires (R73): in a standing alarm DOOR CLEARED is written and the door comes to rest. In another state it only
stops, and a timer left running by an earlier alarm ends the one that stands. (DESIGN CHOICE, log entry 20) -/
def Door.delayExpiry (r : Door) (out : Bool) : DoorOut :=
  let r' := { r with delayTimer := none }
  if r.state = .forced || r.state = .held then (r'.rest out).withEvent .cleared else .same r'

/-! ## Orders (R74 to R76) -/

/-- CLEAR_ALARM (R74). -/
def Door.clearAlarm (r : Door) (out : Bool) : DoorOut :=
  let r' := { r with forcedLatch := false, heldLatch := false, delayTimer := none }
  if r.state = .forced || r.state = .held then
    (Door.rest { r' with heldTimer := none } out).withEvent .cleared
  else .same r'

/-- DOOR_COMMAND RELOCK; none where it is refused (R75). Ending a hold leaves hold unsent as it is. (DESIGN CHOICE, log entry 47) -/
def Door.orderRelock (r : Door) (out : Bool) : Option DoorOut :=
  match r.state with
  | .released => some { door := { r with state := .locked, releaseTimer := none }, commands := [.relock] }
  | .opened => some { door := { r with releaseTimer := none }, commands := [.relock] }
  | .holdOpen => some (((Door.rest { r with holdEnd := none } out).after [.relock]).withEvent .holdEnd)
  | .locked => some { door := r, commands := [.relock] }
  | .unknown => some { door := r, commands := [.relock] }
  | .forced => some { door := r, commands := [.relock] }
  | .held => some { door := r, commands := [.relock] }
  | .emergency => none

/-- DOOR_COMMAND HOLD to an end minute; none where the door's state refuses it. Going to HOLD_OPEN stops every timer, the alarm delay timer
that an earlier alarm left running among them: in HOLD_OPEN no timer runs (R76). -/
def Door.orderHold (r : Door) (endMinute : Word) : Option DoorOut :=
  let held : DoorOut :=
    { door := { r.stopTimers with state := .holdOpen, holdEnd := some endMinute }
      commands := [.hold]
      events := [.holdStart] }
  match r.state with
  | .unknown => some held
  | .locked => some held
  | .released => some held
  | .opened => some held
  | .holdOpen => some { door := { r with holdEnd := some endMinute }, commands := [.hold], events := [.holdStart] }
  | .emergency => some { door := { r with savedEnd := some endMinute }, events := [.holdStart] }
  | .forced => none
  | .held => none

/-! ## Hold ends, delivery, service and the house modes (R77 to R82)

The end of a hold leaves hold unsent as it is. (DESIGN CHOICE, log entry 47) -/

/-- Whether an end minute is at or below a minute. -/
def endDue (e : Option Word) (minute : Word) : Bool :=
  match e with
  | none => false
  | some x => decide (x.toNat ≤ minute.toNat)

/-- A minute of the property clock is reached or set (R77). Hold unsent is left as it is. (DESIGN CHOICE, log entry 47) -/
def Door.minute (r : Door) (out : Bool) (minute : Word) : DoorOut :=
  match r.state with
  | .holdOpen =>
    if endDue r.holdEnd minute then
      ((Door.rest { r with holdEnd := none } out).after [.relock]).withEvent .holdEnd
    else .same r
  | .emergency =>
    if endDue r.savedEnd minute then { door := { r with savedEnd := none }, events := [.holdEnd] } else .same r
  | .unknown => .same r
  | .locked => .same r
  | .released => .same r
  | .opened => .same r
  | .held => .same r
  | .forced => .same r

/-- A command for the door was answered by its node (R78). -/
def Door.answered (r : Door) (c : Command) : DoorOut :=
  match c with
  | .relock =>
    if r.state = .unknown then
      let o := Door.rest { r with contact := if r.contact = .unseen then .closed else r.contact } false
      { o with door := { o.door with contact := r.contact } }
    else .same r
  | .release _ => .same { r with holdUnsent := false }
  | .hold => .same { r with holdUnsent := false }
  | .unlatch => .same r
  | .encode _ _ => .same r
  | .abandon => .same r
  | .signal => .same r

/-- A command for the door was undelivered, its node not FAULTED or RETRY_WAIT (R78). The rest after a RELEASE undelivered leaves the alarm
delay timer as it is. (DESIGN CHOICE, log entry 20) A RELEASE or RELOCK undelivered at a door in HOLD_OPEN or EMERGENCY takes it out of that
state with its hold end, or its fire-saved hold end, kept. (DESIGN CHOICE, log entry 49) -/
def Door.undelivered (r : Door) (c : Command) : DoorOut :=
  match c with
  | .release _ => (Door.rest { r with releaseTimer := none } false).withEvent .deliveryFailed
  | .relock => { door := { r.stopTimers with state := .unknown }, events := [.deliveryFailed] }
  | .hold =>
    if r.state = .holdOpen || r.state = .emergency then
      { door := { r with holdUnsent := true }, events := [.deliveryFailed] }
    else .same r
  | .unlatch => .same r
  | .encode _ _ => .same r
  | .abandon => .same r
  | .signal => .same r

/-- The door's node leaves service: FAULTED, RETRY_WAIT, or ABSENT from a served state (R79). -/
def Door.outOfService (r : Door) : Door :=
  if r.state = .holdOpen || r.state = .emergency then r.stopTimers
  else { r.stopTimers with state := .unknown, contact := .unseen }

/-- A door goes into EMERGENCY (R80). -/
def Door.intoEmergency (r : Door) : DoorOut :=
  { door := { r.stopTimers with
      state := .emergency
      savedEnd := if r.state = .holdOpen then r.holdEnd else none
      holdEnd := if r.state = .holdOpen then none else r.holdEnd }
    commands := [.hold] }

/-- The door's node comes into service (R79, R80); `freeing` says that fire is active and the kind is one that it frees. A door so freed
goes into EMERGENCY from HOLD_OPEN too, by R80. (DEDUCED, log entry 11) A door that was not UNKNOWN has its timers stopped. (DEDUCED, log
entry 10) Hold unsent is cleared whatever the state, so that a door whose hold ended while its node was out is relocked: the HOLD that R78 hands
at this answer is replaced by the command handed here. (DEDUCED, log entry 12) A door already UNKNOWN loses a contact told before its node went
out: the contact is UNSEEN, and a CONTACT in this very answer, the first that can tell one since, is taken after. (DEDUCED, log entry 51) -/
def Door.intoService (r : Door) (freeing : Bool) : DoorOut :=
  let heard : Door := { r with holdUnsent := false }
  if r.state = .emergency then { door := heard, commands := [.hold] }
  else if freeing then heard.intoEmergency
  else if r.state = .holdOpen then { door := heard, commands := [.hold] }
  else if r.state = .unknown then { door := { heard with contact := .unseen }, commands := [.relock] }
  else { door := { heard.stopTimers with state := .unknown, contact := .unseen }, commands := [.relock] }

/-- Fire mode becomes inactive (R81). Hold unsent is left as it is. (DESIGN CHOICE, log entry 47) -/
def Door.fireEnds (r : Door) (out : Bool) (minute : Word) : DoorOut :=
  match r.state with
  | .emergency =>
    match r.savedEnd with
    | none => (r.rest out).after [.relock]
    | some e =>
      if minute.toNat < e.toNat then .same { r with state := .holdOpen, holdEnd := some e, savedEnd := none }
      else ((Door.rest { r with savedEnd := none } out).after [.relock]).withEvent .holdEnd
  | .unknown => .same r
  | .locked => .same r
  | .released => .same r
  | .opened => .same r
  | .held => .same r
  | .forced => .same r
  | .holdOpen => .same r

/-- Storm mode becomes active at a shore gate (R82). Hold unsent is left as it is. (DESIGN CHOICE, log entry 47) -/
def Door.stormBegins (r : Door) (out : Bool) : DoorOut :=
  match r.state with
  | .released => { door := { r with state := .locked, releaseTimer := none }, commands := [.relock] }
  | .opened => { door := { r with releaseTimer := none }, commands := [.relock] }
  | .holdOpen => ((Door.rest { r with holdEnd := none } out).after [.relock]).withEvent .holdEnd
  | .forced => if r.releaseTimer.isSome then { door := { r with releaseTimer := none }, commands := [.relock] } else .same r
  | .held => if r.releaseTimer.isSome then { door := { r with releaseTimer := none }, commands := [.relock] } else .same r
  | .unknown => .same r
  | .locked => .same r
  | .emergency => .same r

/-! ## Doors of the device -/

/-- The class of a DOOR record (R83). -/
def DoorEvent.cls : DoorEvent → RecordClass
  | .holdEnd => .routine
  | .forced => .notable
  | .held => .notable
  | .cleared => .notable
  | .deliveryFailed => .notable
  | .holdStart => .notable

/-- An outcome carried out at a door: the record is replaced, the commands are handed unless the node is FAULTED or RETRY_WAIT (R66),
DOOR_ALARM is latched, and the DOOR records are handed with the state after (R72, R83). -/
def Device.applyDoor (d : Device) (key : Nat) (out : Bool) (o : DoorOut) : Device :=
  let d := d.modifyNode key (fun n => { n with door := some o.door })
  let d := if out then d else d.handAll key o.commands
  let d := if o.alarm then d.latch .doorAlarm else d
  o.events.foldl (fun acc e => acc.record (.door key e o.door.state) {} e.cls) d

/-- An event at the door of a node; nothing where the node has no door. -/
def Device.doorEvent (d : Device) (key : Nat) (f : Node → Door → DoorOut) : Device :=
  match Table.find key d.nodes with
  | none => d
  | some n =>
    match n.door with
    | none => d
    | some r => d.applyDoor key n.state.isOut (f n r)

/-- An event at every door, in the order of the node table: by segment, and by address within one. The manual gives no order among the doors
of one step. (DESIGN CHOICE, log entry 40) -/
def Device.everyDoor (d : Device) (f : Node → Door → DoorOut) : Device :=
  (d.nodes.map (fun p => p.1)).foldl (fun acc key => acc.doorEvent key f) d

/-- Holds and fire-saved holds that are due at the present minute end (R77). -/
def Device.endHolds (d : Device) : Device :=
  let minute := d.clock.minute
  d.everyDoor (fun n r => r.minute n.state.isOut minute)

/-- The Door Unit is told that fire mode has changed (R80, R81). -/
def Device.doorsOnFire (d : Device) (active : Bool) : Device :=
  let minute := d.clock.minute
  if active then
    d.everyDoor (fun n r => if n.kind.firesFree && n.state.inService then r.intoEmergency else .same r)
  else d.everyDoor (fun n r => r.fireEnds n.state.isOut minute)

/-- The Door Unit is told that storm mode has changed (R82). -/
def Device.doorsOnStorm (d : Device) (active : Bool) : Device :=
  if active then d.everyDoor (fun n r => if n.kind = .shoreGate then r.stormBegins n.state.isOut else .same r) else d

/-- The Door Unit is told of a change of a door node's state (R79), its node already in the state after. -/
def Device.doorNodeChanged (d : Device) (key : Nat) (before after : NodeState) : Device :=
  let freeing := d.fire.active
  d.doorEvent key (fun n r =>
    match after with
    | .faulted => .same r.outOfService
    | .retryWait => .same r.outOfService
    | .absent => if before.inService then .same r.outOfService else .same r
    | .online => if before = .absent then r.intoService (freeing && n.kind.firesFree) else .same r
    | .suspect => .same r
    | .degraded => .same r)

/-- Any answer from a door node: a HOLD left unsent is handed again, whatever the door's state (R78). No rule clears hold unsent where a hold
ends (R75, R77, R81, R82), so the HOLD is handed after it too. (DESIGN CHOICE, log entry 47) -/
def Device.doorHeard (d : Device) (key : Nat) : Device :=
  d.doorEvent key (fun _ r => if r.holdUnsent then { door := { r with holdUnsent := false }, commands := [.hold] } else .same r)

end Sys2Proof.Machine
end

