-- ==== Sys2Proof/Machine/Credential.lean ====
section
/-! DEFINITION. The Credential Unit (chapter 1): the table and the deny list, encodings and their settlement, cancellation, supersession
and withdrawal, and the card orders. -/

namespace Sys2Proof.Machine

/-! ## The table and the deny list -/

/-- The entry that a serial holds, none where it is not in the table (R1). -/
def Device.entryOf (d : Device) (serial : Word) : Option Entry :=
  Table.find serial.toNat d.creds.entries

/-- A serial appended to the deny list: moved to the newest end where it is listed, and otherwise placed there, the oldest dropped first
from a full list (R7). -/
def denyAppend (serial : Word) (deny : List Word) : List Word :=
  if deny.contains serial then deny.filter (fun s => decide (s ≠ serial)) ++ [serial]
  else if deny.length < Config.denyCapacity then deny ++ [serial]
  else deny.drop 1 ++ [serial]

/-- A serial appended to the device's deny list. -/
def Device.denySerial (d : Device) (serial : Word) : Device :=
  { d with creds := { d.creds with deny := denyAppend serial d.creds.deny } }

/-- An entry put into the table. -/
def Device.putEntry (d : Device) (serial : Word) (e : Entry) : Device :=
  { d with creds := { d.creds with entries := Table.put serial.toNat e d.creds.entries } }

/-- The guest card count of a room raised for a GUEST entry taken (R5, R31). -/
def Device.countGuest (d : Device) (e : Entry) : Device :=
  if e.kind = .guest then d.modifyRoom e.room (fun r => { r with guestCount := r.guestCount + 1 }) else d

/-- An entry made FREE; the guest card count of its room falls for a GUEST entry (R5, R31). -/
def Device.freeEntry (d : Device) (serial : Word) (e : Entry) : Device :=
  let d := { d with creds := { d.creds with entries := Table.erase serial.toNat d.creds.entries } }
  if e.kind = .guest then d.modifyRoom e.room (fun r => { r with guestCount := r.guestCount - 1 }) else d

/-- A CARD record, which is NOTABLE (R134). -/
def Device.recordCard (d : Device) (serial : Word) (event : CardEvent) (room : Nat) (tag : Word) : Device :=
  d.notable (.card serial event room tag)

/-- The serials of the GUEST entries bound to a room that pass a test, in ascending order. -/
def Device.guestSerials (d : Device) (room : Nat) (f : Nat → Entry → Bool) : List Word :=
  (Table.keysWhere (fun k e => decide (e.kind = .guest) && decide (e.room = room) && f k e) d.creds.entries).map natWord

/-- Entries in ENCODING (R11, R184). -/
def Device.encodingCount (d : Device) : Nat :=
  (d.creds.entries.filter (fun p => decide (p.2.state = .encoding))).length

/-- The property code in force (R9); before the first SETUP, where nothing builds or tests an image, it reads as 0.
(DESIGN CHOICE, log entry 25) -/
def Device.propertyCode (d : Device) : Nat :=
  d.creds.propertyCode.getD 0

/-! ## Encodings (R14 to R20) -/

/-- The place of a serial in a wait queue, counted from the head as `i`. -/
def waitingPlace (serial : Word) (i : Nat) : List Issue → Option Nat
  | [] => none
  | x :: rest => if x.serial = serial then some i else waitingPlace serial (i + 1) rest

/-- Where a serial's issue stands at an encoder: 0 for the encoding in progress, 1 on for its place in the wait queue (R26). -/
def Encoder.place (e : Encoder) (serial : Word) : Option Nat :=
  match e.current with
  | some c => if c.issue.serial = serial then some 0 else waitingPlace serial 1 e.waiting
  | none => waitingPlace serial 1 e.waiting

/-- The encoder and place of a serial's issue among the encoders. -/
def locateIssue (serial : Word) : Table Encoder → Option (Nat × Nat)
  | [] => none
  | (k, e) :: rest =>
    match e.place serial with
    | some p => some (k, p)
    | none => locateIssue serial rest

/-- An encoding starts (R14): ENCODE is handed with the image, and the phase is STARTING. -/
def Device.startEncoding (d : Device) (key : Nat) (i : Issue) : Device :=
  let job := d.creds.nextJob
  let d := d.modifyEncoder key (fun e => { e with current := some { issue := i, timer := none, job := job } })
  Device.hand { d with creds := { d.creds with nextJob := job + 1 } } key (.encode i.image job)

/-- The encoding in progress cleared, and the head of the wait queue, where there is one, started (R15 step 4, R20). -/
def Device.nextEncoding (d : Device) (key : Nat) : Device :=
  match Table.find key d.creds.encoders with
  | none => d
  | some e =>
    match e.waiting with
    | [] => d.modifyEncoder key (fun e => { e with current := none })
    | i :: rest => (d.modifyEncoder key (fun e => { e with current := none, waiting := rest })).startEncoding key i

/-- A settlement handed to the Chain Walker's list (R184). -/
def Device.handSettlement (d : Device) (s : Settlement) : Device :=
  { d with walker := { d.walker with settlements := d.walker.settlements ++ [s] } }

/-- An issue settled with a result other than DONE: steps 1 to 3 of R15. -/
def Device.failIssue (d : Device) (i : Issue) (code : ResultCode) : Device :=
  let d :=
    match d.entryOf i.serial with
    | none => d
    | some e =>
      let d := d.freeEntry i.serial e
      let d := if e.deniedBefore then d.denySerial i.serial else d
      d.recordCard i.serial .issueFailed e.room e.tag
  d.handSettlement { block := i.block, words := [0, 0], code := code }

/-- An encoding cancelled (R20): ABANDON for one in progress, the entry FREE and its serial denied, and the next issue started. The
settlement of its block is answered beside the device. -/
def Device.cancelEncoding (d : Device) (serial : Word) (e : Entry) : Device × List Settlement :=
  match locateIssue serial d.creds.encoders with
  | none => ((d.freeEntry serial e).denySerial serial, [])
  | some (key, place) =>
    match Table.find key d.creds.encoders with
    | none => (d, [])
    | some enc =>
      let block : Word :=
        if place = 0 then
          match enc.current with
          | some c => c.issue.block
          | none => 0
        else
          match enc.waiting[place - 1]? with
          | some i => i.block
          | none => 0
      let s : Settlement := { block := block, words := [0, 0], code := .cancelled }
      if place = 0 then
        ((((d.hand key .abandon).freeEntry serial e).denySerial serial).nextEncoding key, [s])
      else
        (((d.modifyEncoder key (fun x => { x with waiting := x.waiting.filter (fun i => decide (i.serial ≠ serial)) })).freeEntry
          serial e).denySerial serial, [s])

/-- One serial retired by revoke, supersession or withdrawal: an ENCODING entry is cancelled, any other is made FREE and denied. The
CARD record is the caller's event and tag (R17, R21, R23). -/
def Device.retire (d : Device) (serial : Word) (event : CardEvent) (tag : Word) : Device × List Settlement :=
  match d.entryOf serial with
  | none => (d, [])
  | some e =>
    match e.state with
    | .encoding =>
      let out := d.cancelEncoding serial e
      (out.1.recordCard serial event e.room tag, out.2)
    | .active => (((d.freeEntry serial e).denySerial serial).recordCard serial event e.room tag, [])
    | .suspended => (((d.freeEntry serial e).denySerial serial).recordCard serial event e.room tag, [])

/-- Serials retired in turn, with the settlements of the encodings cancelled, in order. -/
def Device.retireAll (d : Device) (event : CardEvent) (tag : Word) : List Word → Device × List Settlement
  | [] => (d, [])
  | s :: rest =>
    let first := d.retire s event tag
    let others := Device.retireAll first.1 event tag rest
    (others.1, first.2 ++ others.2)

/-- Supersession (R17): every other GUEST entry of the room is retired, and the cancelled blocks join the settlement list. The number
retired is answered beside the device. -/
def Device.supersede (d : Device) (serial : Word) (e : Entry) : Device × Nat :=
  let serials := d.guestSerials e.room (fun k _ => decide (k ≠ serial.toNat))
  let out := d.retireAll .superseded e.tag serials
  (out.2.foldl Device.handSettlement out.1, serials.length)

/-- An issue settled with WRITTEN: steps 1 to 3 of R15, with the supersession of R17 ahead of its record. -/
def Device.issueWritten (d : Device) (i : Issue) : Device :=
  match d.entryOf i.serial with
  | none => d.handSettlement { block := i.block, words := [0, 0], code := .done }
  | some e =>
    let d := d.putEntry i.serial { e with state := .active, deniedBefore := false }
    let out := if i.supersede then d.supersede i.serial e else (d, 0)
    (out.1.recordCard i.serial .issued e.room e.tag).handSettlement
      { block := i.block, words := [e.issueMinute, natWord out.2], code := .done }

/-- An ENC_RESULT from an encoder that is not a duplicate, with the signal of its ACK, kept as the encoder's last result signal (R16):
applied in WRITING, and discarded otherwise. -/
def Device.takeResult (d : Device) (key : Nat) (result : EncResult) : Device × Signal :=
  let discarded := (d.modifyEncoder key (fun e => { e with lastResult := some .refuse }), Signal.refuse)
  match Table.find key d.creds.encoders with
  | none => discarded
  | some e =>
    match e.current with
    | none => discarded
    | some c =>
      if c.timer.isSome then
        let d := d.modifyEncoder key (fun e => { e with lastResult := some .grant })
        let d :=
          match result with
          | .written => d.issueWritten c.issue
          | .failed => d.failIssue c.issue .encodeFailed
          | .noCard => d.failIssue c.issue .noCard
        (d.nextEncoding key, .grant)
      else discarded

/-- The encoding timer of an encoder has reached the timeout (R18): TIMEOUT, then ABANDON, then the next issue. -/
def Device.encodingExpired (d : Device) (key : Nat) : Device :=
  match Table.find key d.creds.encoders with
  | none => d
  | some e =>
    match e.current with
    | none => d
    | some c =>
      if Timer.isDue c.timer then ((d.failIssue c.issue .timeout).hand key .abandon).nextEncoding key else d

/-- An encoder fault (R19): every issue bound to the encoder settles with ENCODER_FAULT, and no encoding starts. -/
def Device.encoderFault (d : Device) (key : Nat) : Device :=
  match Table.find key d.creds.encoders with
  | none => d
  | some e =>
    let issues := (match e.current with
      | none => []
      | some c => [c.issue]) ++ e.waiting
    (issues.foldl (fun acc i => acc.failIssue i .encoderFault) d).modifyEncoder key
      (fun e => { e with current := none, waiting := [] })

/-- Whether a job is that of the encoding in progress (R14). -/
def Device.isCurrentJob (d : Device) (key job : Nat) : Bool :=
  match Table.find key d.creds.encoders with
  | none => false
  | some e =>
    match e.current with
    | none => false
    | some c => decide (c.job = job)

/-- An ENCODE was answered: where it is the one handed for the encoding in progress, the phase becomes WRITING (R14). -/
def Device.encodeAnswered (d : Device) (key job : Nat) : Device :=
  if d.isCurrentJob key job then
    d.modifyEncoder key (fun e => { e with current := e.current.map (fun c => { c with timer := Timer.started }) })
  else d

/-- An ENCODE is reported undelivered (R14, R19). -/
def Device.encodeUndelivered (d : Device) (key job : Nat) : Device :=
  if d.isCurrentJob key job then d.encoderFault key else d

/-- The Credential Unit is told of a change of an encoder node's state (R19). -/
def Device.encoderNodeChanged (d : Device) (key : Nat) (after : NodeState) : Device :=
  if after.isOut then d.encoderFault key else d

/-! ## Purge (R13) -/

/-- Whether an entry may be purged: ACTIVE or SUSPENDED, a day past its valid-until by a valid clock. -/
def Device.purgeable (d : Device) (e : Entry) : Bool :=
  d.clock.valid && decide (e.state ≠ .encoding) && decide (e.validUntil.toNat + Config.minutesPerDay ≤ d.clock.minute.toNat)

/-- The entry of smallest valid-until in a list, the first among equals; in the rising table that is the smallest serial. -/
def earliest : List (Nat × Entry) → Option (Nat × Entry)
  | [] => none
  | p :: rest =>
    match earliest rest with
    | none => some p
    | some q => if q.2.validUntil.toNat < p.2.validUntil.toNat then some q else some p

/-- The candidate that a purge takes (R13). -/
def Device.purgeCandidate (d : Device) : Option (Nat × Entry) :=
  earliest (d.creds.entries.filter (fun p => d.purgeable p.2))

/-- Whether no entry is FREE (R1). -/
def Device.tableFull (d : Device) : Bool :=
  decide (Config.credentialSlots ≤ d.creds.entries.length)

/-- The purge of an accepted issue, where no entry is FREE (R12 step 1, R13). -/
def Device.purge (d : Device) (tag : Word) : Device :=
  if d.tableFull then
    match d.purgeCandidate with
    | none => d
    | some (serial, e) => (d.freeEntry (natWord serial) e).recordCard (natWord serial) .purged e.room tag
  else d

/-! ## Card orders -/

/-- The words of an ISSUE_CARD that name an identity (R11 step 1): the kind and the privileges, none where any test of the step fails. -/
def issueIdentity (serial kind room validFrom validUntil privileges supersede : Word) : Option (CardKind × BitVec 11) :=
  match CardKind.ofCode kind.toNat, privilegesOf privileges with
  | some k, some p =>
    if serial = 0 || !roomWordOk room.toNat || (decide (k = .guest) && decide (room.toNat = Config.noRoom))
        || decide (validUntil.toNat ≤ validFrom.toNat) || decide (1 < supersede.toNat)
        || (decide (supersede = 1) && decide (k ≠ .guest)) then none
    else some (k, p)
  | _, _ => none

/-- Whether a room is OCCUPIED; an undefined room is not (R30). -/
def Device.roomOccupied (d : Device) (room : Nat) : Bool :=
  match Table.find room d.rooms with
  | none => false
  | some r => decide (r.state = .occupied)

/-- Whether an encoder can take one more issue (R11 step 7). -/
def Device.encoderFull (d : Device) (key : Nat) : Bool :=
  (match Table.find key d.creds.encoders with
    | none => false
    | some e => e.current.isSome && decide (Config.encoderWaiting ≤ e.waiting.length))
  || decide (Config.settlementCapacity ≤ d.encodingCount + d.walker.settlements.length)

/-- The tests of R11 from step 2 on, none where every one passes. -/
def Device.issueRefused (d : Device) (seg addr serial : Word) (kind : CardKind) (room : Nat) : Option ResultCode :=
  if !addressOk seg.toNat addr.toNat then some .badParam
  else
    match Table.find (nodeKey seg.toNat addr.toNat) d.nodes with
    | none => some .badParam
    | some n =>
      if n.kind ≠ .encoder then some .badParam
      else if n.state.isOut then some .nodeUnavailable
      else if (d.entryOf serial).isSome then some .inUse
      else if kind = .guest && !d.roomOccupied room then some .wrongState
      else if d.tableFull && d.purgeCandidate.isNone then some .tableFull
      else if d.encoderFull (nodeKey seg.toNat addr.toNat) then some .encoderBusy
      else none

/-- An issue joins its encoder: it starts where none is in progress, and waits otherwise (R12 step 6). -/
def Device.joinEncoder (d : Device) (key : Nat) (i : Issue) : Device :=
  match Table.find key d.creds.encoders with
  | none => d
  | some e =>
    if e.current.isNone then d.startEncoding key i
    else d.modifyEncoder key (fun e => { e with waiting := e.waiting ++ [i] })

/-- The entry that an accepted issue takes (R12 step 2, R1). -/
def Device.newEntry (d : Device) (serial : Word) (k : CardKind) (p : BitVec 11) (room : Nat) (validFrom validUntil tag : Word) :
    Entry :=
  { kind := k, room := room, issueMinute := if d.clock.valid then d.clock.minute else 0, validFrom := validFrom,
    validUntil := validUntil, privileges := p, state := .encoding, deniedBefore := d.creds.deny.contains serial, tag := tag }

/-- An ISSUE_CARD accepted (R12). -/
def Device.acceptIssue (d : Device) (ctx : OrderContext) (key : Nat) (serial : Word) (e : Entry) (supersede : Bool) : Device :=
  let d := (d.purge ctx.tag).putEntry serial e
  let d := { d with creds := { d.creds with deny := d.creds.deny.filter (fun s => decide (s ≠ serial)) } }
  let d := d.countGuest e
  let image := buildImage d.propertyCode serial e.kind e.room e.issueMinute
  d.joinEncoder key { serial := serial, block := ctx.block, image := image, supersede := supersede }

/-- ISSUE_CARD (R11, R12). -/
def Device.issueCard (encSeg encAddr serial kind room validFrom validUntil privileges supersede : Word) (ctx : OrderContext)
    (d : Device) : Device × Reply :=
  match issueIdentity serial kind room validFrom validUntil privileges supersede with
  | none => (d, .refusal .badParam 2)
  | some (k, p) =>
    match d.issueRefused encSeg encAddr serial k room.toNat with
    | some code => (d, .refusal code 2)
    | none =>
      (d.acceptIssue ctx (nodeKey encSeg.toNat encAddr.toNat) serial
          (d.newEntry serial k p room.toNat validFrom validUntil ctx.tag) (decide (supersede = 1)),
        { code := .done, deferred := true })

/-- REVOKE_CARD (R21). -/
def Device.revokeCard (serial denyUnknown : Word) (ctx : OrderContext) (d : Device) : Device × Reply :=
  if serial = 0 || decide (1 < denyUnknown.toNat) then (d, .refusal .badParam 1)
  else
    match d.entryOf serial with
    | none => (if denyUnknown = 1 then d.denySerial serial else d, .refusal .notFound 1)
    | some e =>
      let out := d.retire serial .revoked ctx.tag
      (out.1, { code := .done, words := [natWord e.state.code], cancels := out.2 })

/-- EXTEND_CARD (R24). -/
def Device.extendCard (serial validUntil : Word) (ctx : OrderContext) (d : Device) : Device × Reply :=
  if serial = 0 then (d, .refusal .badParam 1)
  else
    match d.entryOf serial with
    | none => (d, .refusal .notFound 1)
    | some e =>
      if e.state = .encoding then (d, .refusal .wrongState 1)
      else if validUntil.toNat ≤ e.validFrom.toNat then (d, .refusal .badParam 1)
      else
        ((d.putEntry serial { e with validUntil := validUntil }).recordCard serial .extended e.room ctx.tag,
          .done [e.validUntil])

/-- SUSPEND_CARD and RESUME_CARD (R25): the entry moves from one state to another with its record. -/
def Device.moveCard (fromState toState : EntryState) (event : CardEvent) (serial : Word) (ctx : OrderContext) (d : Device) :
    Device × Reply :=
  if serial = 0 then (d, .refusal .badParam 0)
  else
    match d.entryOf serial with
    | none => (d, .refusal .notFound 0)
    | some e =>
      if e.state = fromState then
        ((d.putEntry serial { e with state := toState }).recordCard serial event e.room ctx.tag, .done [])
      else (d, .refusal .wrongState 0)

/-- The position of a serial in the deny list, the oldest at `i`; 0 where it is not listed (R26). -/
def denyPosition (serial : Word) (i : Nat) : List Word → Nat
  | [] => 0
  | s :: rest => if s = serial then i else denyPosition serial (i + 1) rest

/-- READ_CARD (R26). -/
def Device.readCard (serial : Word) (_ctx : OrderContext) (d : Device) : Device × Reply :=
  if serial = 0 then (d, .refusal .badParam 12)
  else
    let deny := natWord (denyPosition serial 1 d.creds.deny)
    match d.entryOf serial with
    | none => (d, { code := .notFound, words := List.replicate 11 0 ++ [deny] })
    | some e =>
      let at_ := if e.state = .encoding then locateIssue serial d.creds.encoders else none
      let encoder : Word := match at_ with
        | none => 0
        | some (key, _) => natWord key
      let place : Word := match at_ with
        | none => 0
        | some (_, p) => natWord p
      (d, .done [natWord e.kind.code, natWord e.room, e.issueMinute, e.validFrom, e.validUntil, e.privileges.zeroExtend 32,
        natWord e.state.code, flagWord e.deniedBefore, e.tag, encoder, place, deny])

/-! ## Resets (R27) -/

/-- An entry freed by a reset, its flagged serial back in the deny list. -/
def Device.freeAtReset (d : Device) (serial : Nat) : Device :=
  match Table.find serial d.creds.entries with
  | none => d
  | some e =>
    let d := d.freeEntry (natWord serial) e
    if e.deniedBefore then d.denySerial (natWord serial) else d

/-- The Credential Unit at a board or soft reset: ENCODING entries FREE in ascending order of serial, encoders empty, signals none. -/
def Device.resetCredentials (d : Device) : Device :=
  let d := (Table.keysWhere (fun _ e => decide (e.state = .encoding)) d.creds.entries).foldl Device.freeAtReset d
  let encoders := Table.mapVals (fun _ _ => ({ current := none, waiting := [], lastResult := none } : Encoder)) d.creds.encoders
  { d with creds := { d.creds with encoders := encoders } }

end Sys2Proof.Machine
end

