-- ==== Sys2Proof/Machine/Charge.lean ====
section
/-! DEFINITION. The charge and folio arithmetic (chapter 6): the stages from counts to lines, from lines to the amount, and from the
amount to the folio, with the suspension rule (R88). -/

namespace Sys2Proof.Machine

/-! ## Stages one to four (R107 to R109) -/

/-- The tax of a line: its exact tax rounded to the cent, a half cent upward (R108). -/
def lineTax (net rate : Nat) : Nat :=
  (net * rate + 5000) / 10000

/-- The amount of a priced line: net plus tax (R107 to R109). -/
def pricedAmount (price rate count : Nat) : Nat :=
  count * price + lineTax (count * price) rate

/-- The price and tax rate of an item (R105). -/
def Tariff.priceAndRate (t : Tariff) (item : Nat) : Nat × Nat :=
  let i := t.items.getD item { price := 0, taxClass := 0 }
  (i.price, t.rates.getD i.taxClass 0)

/-- The amount of a line: 0 where its slot is EMPTY (R107, R109). -/
def Tariff.amount (t : Tariff) (item : Option Nat) (count : Nat) : Nat :=
  match item with
  | none => 0
  | some i => pricedAmount (t.priceAndRate i).1 (t.priceAndRate i).2 count

/-- A reported count as clamped to its slot's capacity (R95). -/
def Slot.counted (s : Slot) (reported : Nat) : Nat :=
  min reported s.capacity

/-- A slot's delta: its baseline less the present count as clamped (R95). -/
def Slot.delta (s : Slot) (reported : Nat) : Int :=
  (s.baseline : Int) - (s.counted reported : Int)

/-- The lines of a settlement, from slot `k` on, in ascending order (R107, R109). -/
def Tariff.lines (t : Tariff) (k : Nat) : List (Slot × Nat) → List ChargeLine
  | [] => []
  | (s, reported) :: rest =>
    let d := s.delta reported
    if d = 0 then t.lines (k + 1) rest
    else { slot := k, item := s.item, delta := d, amount := t.amount s.item d.natAbs } :: t.lines (k + 1) rest

/-- The signed amount of a line: owed where goods left the slot, owed back where they returned (R109). -/
def ChargeLine.signed (l : ChargeLine) : Int :=
  if 0 < l.delta then (l.amount : Int) else -(l.amount : Int)

/-- The settlement amount A (R109). -/
def settlementAmount : List ChargeLine → Int
  | [] => 0
  | l :: rest => l.signed + settlementAmount rest

/-- Whether any line is unpriced (R107). -/
def anyUnpriced (lines : List ChargeLine) : Bool :=
  lines.any (fun l => l.item.isNone)

/-! ## Stage five (R110 to R112) -/

/-- What stage five leaves: the folio, the posted or credited figure, the excess, the credit lost, and whether U was clipped. -/
structure Posting where
  balance : Nat
  unposted : Nat
  moved : Nat
  excess : Nat
  lost : Nat
  saturated : Bool
  deriving DecidableEq, Repr

/-- Stage five for an amount of 0 or more (R111). -/
def postCharge (balance ceiling unposted amount : Nat) : Posting :=
  let posted := min amount (ceiling - balance)
  let excess := amount - posted
  { balance := balance + posted
    unposted := min Config.unpostedCap (unposted + excess)
    moved := posted
    excess := excess
    lost := 0
    saturated := decide (Config.unpostedCap < unposted + excess) }

/-- Stage five for a credit (R112). -/
def postCredit (balance unposted credit : Nat) : Posting :=
  let fromUnposted := min credit unposted
  let fromBalance := min (credit - fromUnposted) balance
  { balance := balance - fromBalance
    unposted := unposted - fromUnposted
    moved := fromUnposted + fromBalance
    excess := 0
    lost := credit - fromUnposted - fromBalance
    saturated := false }

/-- Stage five (R111, R112). -/
def post (balance ceiling unposted : Nat) (amount : Int) : Posting :=
  if 0 ≤ amount then postCharge balance ceiling unposted amount.natAbs else postCredit balance unposted amount.natAbs

/-- A room with stage five applied to its folio. -/
def Room.posted (r : Room) (amount : Int) : Room :=
  let p := post r.balance r.ceiling r.unposted amount
  { r with balance := p.balance, unposted := p.unposted }

/-- A new ceiling: the part of F above it moves to U, which stops at its cap (R115). -/
def Room.withCeiling (r : Room) (ceiling : Nat) : Room :=
  { r with
    ceiling := ceiling
    balance := min r.balance ceiling
    unposted := if ceiling < r.balance then min Config.unpostedCap (r.unposted + (r.balance - ceiling)) else r.unposted }

/-! ## The suspension rule -/

/-- SUSPENDED exactly when the headroom is below the open floor or U is above zero, and LOCKED otherwise (R88). -/
def Room.restState (r : Room) : BarState :=
  if r.ceiling - r.balance < r.openFloor || decide (0 < r.unposted) then .suspended else .locked

/-- The suspension rule, which a minibar in session does not take (R88). -/
def Room.suspension (r : Room) : Room :=
  if r.bar.inSession then r else { r with bar := r.restState }

/-- A session ends at the room: the timer stops, unlatch pending clears, and the state is set by the suspension rule (R91). -/
def Room.closeSession (r : Room) : Room :=
  { r with session := none, unlatchPending := false, bar := r.restState }

end Sys2Proof.Machine
end

