-- ==== Sys2Proof/Machine/Minibar.lean ====
section
/-! DEFINITION. The Minibar Unit (chapter 5): sessions and their ends, tallies and their settlement, and the orders on the minibar and
the folio. -/

namespace Sys2Proof.Machine

/-- The defined room whose minibar link names a node (R87). -/
def Device.barRoom (d : Device) (key : Nat) : Option (Nat × Room) :=
  d.rooms.find? (fun p => decide (p.2.barLink = some key))

/-- A command for the minibar node that a room links; nothing where it links none. -/
def Device.handBar (d : Device) (r : Room) (c : Command) : Device :=
  match r.barLink with
  | none => d
  | some key => d.hand key c

/-! ## Opening (R89, R90) -/

/-- Whether a card asks for a restock session (R89): RESTOCK qualified, and it is not a GUEST card whose MINIBAR qualified too. -/
def restockRequest (kind : CardKind) (minibar restock : Bool) : Bool :=
  restock && !(decide (kind = .guest) && minibar)

/-- A session opened (R90): the reservation kept, UNLATCH handed on and pending, the session timer started, the state by the request. -/
def Device.openSession (d : Device) (key room : Nat) (restock : Bool) : Device :=
  ((d.reserve).hand key .unlatch).modifyRoom room (fun r =>
    { r with unlatchPending := true, session := Timer.started, bar := if restock then .restockOpen else .guestOpen })

/-- The grant checks of step 13 (R89): none for a grant, and otherwise the reason. A grant has taken effect in the device answered. -/
def Device.barGrant (d : Device) (key : Nat) (kind : CardKind) (minibar restock : Bool) : Device × Option Reason :=
  match d.barRoom key with
  | none => (d, some .minibarBusy)
  | some (room, r) =>
    let asksRestock := restockRequest kind minibar restock
    if r.bar.inSession then (d, none)
    else if !asksRestock && !d.clock.valid then (d, some .clockUnset)
    else if !asksRestock && decide (r.state ≠ .occupied) then (d, some .minibarBusy)
    else if !asksRestock && decide (r.bar = .suspended) then (d, some .ceiling)
    else if !d.journal.mayReserve then (d, some .noRecordRoom)
    else (d.openSession key room asksRestock, none)

/-! ## Ends that no tally makes (R92 to R94) -/

/-- The UNLATCH of a node was answered (R92). One of an earlier session, answered by the frame whose PRESENT opened a new one, makes the new
session's flag clear too: R92 names any answered UNLATCH, and R86 the present session's. (DESIGN CHOICE, log entry 45) -/
def Device.unlatchAnswered (d : Device) (key : Nat) : Device :=
  match d.barRoom key with
  | none => d
  | some (room, _) => d.modifyRoom room (fun r => { r with unlatchPending := false })

/-- The UNLATCH of a node is reported undelivered: a session whose UNLATCH is pending ends without a charge (R92). -/
def Device.unlatchUndelivered (d : Device) (key : Nat) : Device :=
  match d.barRoom key with
  | none => d
  | some (room, r) =>
    if r.unlatchPending then
      ((d.giveBack).modifyRoom room Room.closeSession).notable (.unsettled room key .undelivered)
    else d

/-- A session ends unsettled against its reservation (R93, R94); `relock` says whether RELOCK is handed on. -/
def Device.endUnsettled (d : Device) (key room : Nat) (cause : UnsettledCause) (relock : Bool) : Device :=
  let d := if relock then d.hand key .relock else d
  (d.modifyRoom room (fun r => { r.closeSession with unsettled := true })).record (.unsettled room key cause) {} .reserved

/-- The session timer of a room has reached the limit (R93). -/
def Device.sessionExpired (d : Device) (room : Nat) : Device :=
  match Table.find room d.rooms with
  | none => d
  | some r =>
    match r.barLink with
    | none => d
    | some key =>
      if r.bar.inSession && Timer.isDue r.session then d.endUnsettled key room .sessionLimit true else d

/-- The Minibar Unit is told of a change of its node's state (R94). -/
def Device.barNodeChanged (d : Device) (key : Nat) (before after : NodeState) : Device :=
  match d.barRoom key with
  | none => d
  | some (room, r) =>
    if r.bar.inSession then
      match after with
      | .faulted => d.endUnsettled key room .nodeFault false
      | .retryWait => d.endUnsettled key room .nodeFault false
      | .degraded => d.endUnsettled key room .nodeFault true
      | .absent => if before.isOut then d else d.endUnsettled key room .nodeFault false
      | .online => d
      | .suspect => d
    else d

/-! ## Tallies (R95 to R100) -/

/-- Slots with the counts reported for them, slot 1 first. A count that is missing, which no well-formed report has, reads as 0. -/
def readings : List Slot → List (BitVec 4) → List (Slot × Nat)
  | [], _ => []
  | s :: rest, [] => (s, 0) :: readings rest []
  | s :: rest, c :: cs => (s, c.toNat) :: readings rest cs

/-- Whether any count was clamped to its slot's capacity (R95). -/
def anyClamped (rs : List (Slot × Nat)) : Bool :=
  rs.any (fun p => decide (p.1.capacity < p.2))

/-- The slots with the baseline at the present counts (R96 to R100). -/
def rebased (rs : List (Slot × Nat)) : List Slot :=
  rs.map (fun p => { p.1 with baseline := p.1.counted p.2 })

/-- A CHARGE record of the figures of a charge to the folio, unless every delta is 0 (R95, R113). -/
def Device.recordCharge (d : Device) (room key : Nat) (kind : ChargeKind) (lines : List ChargeLine) (clamped : Bool) (p : Posting)
    (cls : RecordClass) : Device :=
  if lines = [] then d
  else
    let amount := settlementAmount lines
    d.record
      (.charge room key kind lines amount p.moved (if 0 ≤ amount then p.excess else p.lost))
      { clampedReading := clamped, unpriced := anyUnpriced lines, saturated := p.saturated } cls

/-- A LATE_CHARGE record, unless every delta is 0 (R96, R114). -/
def Device.recordLate (d : Device) (room key : Nat) (lines : List ChargeLine) (clamped : Bool) (cls : RecordClass) : Device :=
  if lines = [] then d
  else
    d.record (.lateCharge room key lines (settlementAmount lines))
      { clampedReading := clamped, unpriced := anyUnpriced lines } cls

/-- RELOCK for a CLOSED reading. -/
def Device.relockIf (d : Device) (key : Nat) (closed : Bool) : Device :=
  if closed then d.hand key .relock else d

/-- A reservation given back where the settlement makes no record (R132). -/
def Device.giveBackIf (d : Device) (lines : List ChargeLine) : Device :=
  if lines = [] then d.giveBack else d

/-- A tally settled at the room that links its node (R96 to R100). -/
def Device.settleTally (d : Device) (room : Nat) (r : Room) (key : Nat) (closed : Bool) (counts : List (BitVec 4)) : Device :=
  let rs := readings r.slots counts
  let lines := d.tariff.lines 1 rs
  let clamped := anyClamped rs
  let p := post r.balance r.ceiling r.unposted (settlementAmount lines)
  let moved : Room := { r with slots := rebased rs, unsettled := false }
  let charged : Room := { moved with balance := p.balance, unposted := p.unposted }
  let put (x : Device) (r' : Room) : Device := x.modifyRoom room (fun _ => r')
  if r.orphan then
    let settled : Room := { moved with orphan := false }
    if r.bar.inSession then
      if closed then
        (((put d settled.closeSession).hand key .relock).giveBackIf lines).recordLate room key lines clamped .reserved
      else (put d settled).recordLate room key lines clamped .notable
    else ((put d settled.suspension).relockIf key closed).recordLate room key lines clamped .notable
  else
    match r.bar, closed with
    | .guestOpen, true =>
      (((put d charged.closeSession).hand key .relock).giveBackIf lines).recordCharge room key .guest lines clamped p .reserved
    | .guestOpen, false => (put d charged).recordCharge room key .unattended lines clamped p .notable
    | .restockOpen, true =>
      ((put d moved.closeSession).hand key .relock).record (.restock room key (moved.slots.map (fun s => s.baseline)))
        { clampedReading := clamped, givenUp := r.unsettled } .reserved
    | .restockOpen, false => (put d charged).recordCharge room key .unattended lines clamped p .notable
    | .locked, c => ((put d charged.suspension).relockIf key c).recordCharge room key .unattended lines clamped p .notable
    | .suspended, c => ((put d charged.suspension).relockIf key c).recordCharge room key .unattended lines clamped p .notable

/-- A TALLY from a MINIBAR node that is not a duplicate, with the signal of its ACK, kept as the node's last tally signal (R87, R95). -/
def Device.takeTally (d : Device) (key : Nat) (closed : Bool) (counts : List (BitVec 4)) : Device × Signal :=
  match d.barRoom key with
  | none => (d.modifyNode key (fun n => { n with lastTally := some .refuse }), .refuse)
  | some (room, r) =>
    ((d.settleTally room r key closed counts).modifyNode key (fun n => { n with lastTally := some .grant }), .grant)

/-! ## Orders (R101 to R103, R106) -/

/-- An order that names a room by its index (R28): BAD_PARAM above 767, NOT_FOUND where the place is undefined. -/
def Device.withRoom (d : Device) (room : Word) (nwords : Nat) (f : Nat → Room → Device × Reply) : Device × Reply :=
  if 768 ≤ room.toNat then (d, .refusal .badParam nwords)
  else
    match Table.find room.toNat d.rooms with
    | none => (d, .refusal .notFound nwords)
    | some r => f room.toNat r

/-- Whether the item words of a SET_SLOTS each name an item or EMPTY (R101). -/
def slotsOk (ps : List (Word × Word)) : Bool :=
  ps.all (fun p => (itemOf p.1.toNat).isSome)

/-- A slot with the item and capacity of its two parameter words, the capacity clamped to 1 to 15 (R101). -/
def Slot.reset (s : Slot) (p : Word × Word) : Slot :=
  { s with item := (itemOf p.1.toNat).getD none, capacity := max 1 (min 15 p.2.toNat) }

/-- The slots replaced in turn by their parameter words (R101). -/
def resetSlots : List Slot → List (Word × Word) → List Slot
  | [], _ => []
  | s :: rest, [] => s :: rest
  | s :: rest, p :: ps => s.reset p :: resetSlots rest ps

/-- SET_SLOTS (R101). The item codes are tested before the room is looked up. (DEDUCED, log entry 31) A refusal carries no CLAMPED,
whatever the capacities. (DESIGN CHOICE, log entry 50) -/
def Device.setSlots (d : Device) (room : Word) (ps : List (Word × Word)) : Device × Reply :=
  if 768 ≤ room.toNat || !slotsOk ps then (d, .refusal .badParam 0)
  else
    d.withRoom room 0 (fun k r =>
      if r.bar.inSession then (d, .refusal .wrongState 0)
      else
        (d.modifyRoom k (fun r => { r with slots := resetSlots r.slots ps }),
          { code := .done, clamped := ps.any (fun p => decide (p.2.toNat < 1 ∨ 15 < p.2.toNat)) }))

/-- The amount of POST_FOLIO as clamped (R102). -/
def clampAmount (a : Int) : Int :=
  max (-(Config.moneyCap : Int)) (min (Config.moneyCap : Int) a)

/-- POST_FOLIO (R102, R115); the amount is a signed word (R191). -/
def Device.postFolio (d : Device) (room amount : Word) : Device × Reply :=
  d.withRoom room 5 (fun k r =>
    let a := clampAmount amount.toInt
    let p := post r.balance r.ceiling r.unposted a
    (d.modifyRoom k (fun r => (Room.posted r a).suspension),
      { code := .done
        clamped := decide (a ≠ amount.toInt)
        words := [natWord p.balance, natWord p.unposted, natWord p.excess, natWord p.lost, flagWord p.saturated] }))

/-- SET_CEILING (R103, R115). -/
def Device.setCeiling (d : Device) (room ceiling : Word) : Device × Reply :=
  d.withRoom room 3 (fun k r =>
    let c := clampTop Config.moneyCap ceiling.toNat
    let after := r.withCeiling c.1
    (d.modifyRoom k (fun r => (Room.withCeiling r c.1).suspension),
      { code := .done, clamped := c.2, words := [natWord r.ceiling, natWord after.balance, natWord after.unposted] }))

/-- SET_TARIFF (R106). -/
def Device.setTariff (d : Device) (target index value taxClass : Word) : Device × Reply :=
  let i := index.toNat
  if target = 0 then
    if 63 < i || decide (3 < taxClass.toNat) then (d, .refusal .badParam 2)
    else
      let old := d.tariff.items.getD i { price := 0, taxClass := 0 }
      let v := clampTop 50000 value.toNat
      ({ d with tariff := { d.tariff with items := d.tariff.items.set i { price := v.1, taxClass := taxClass.toNat } } },
        { code := .done, clamped := v.2, words := [natWord old.price, natWord old.taxClass] })
  else if target = 1 then
    if 3 < i then (d, .refusal .badParam 2)
    else
      let v := clampTop 3000 value.toNat
      ({ d with tariff := { d.tariff with rates := d.tariff.rates.set i v.1 } },
        { code := .done, clamped := v.2, words := [natWord (d.tariff.rates.getD i 0), 0] })
  else (d, .refusal .badParam 2)

end Sys2Proof.Machine
end

