-- ==== Sys2Proof/Machine/Decision.lean ====
section
/-! DEFINITION. The Decision Unit (chapter 3): the ordered checks that turn a presentation into a verdict and a reason, and what the verdict
produces. -/

namespace Sys2Proof.Machine

/-- A room as the Room Unit answers about it; an undefined place answers VACANT, DND clear, grace 0 (R30). -/
structure RoomAnswer where
  occupied : Bool
  dnd : Bool
  grace : Nat
  deriving DecidableEq, Repr

/-- The Room Unit's answer about a room index (R30). -/
def Device.roomAnswer (d : Device) (room : Nat) : RoomAnswer :=
  match Table.find room d.rooms with
  | none => { occupied := false, dnd := false, grace := 0 }
  | some r => { occupied := decide (r.state = .occupied), dnd := r.dnd, grace := r.grace }

/-- "Its own room door" (R51): a ROOM_DOOR bound to the entry's room. -/
def ownDoor (n : Node) (e : Entry) : Bool :=
  decide (n.kind = .roomDoor) && decide (n.room = e.room)

/-- A card held to door hours: GUEST and SERVICE (R55). -/
def CardKind.keepsHours : CardKind → Bool
  | .guest => true
  | .service => true
  | .staff => false
  | .master => false
  | .emergency => false

/-- The limit of step 7b: valid-until, with the room's grace for a GUEST card at its own room door (R51). -/
def Device.validLimit (d : Device) (n : Node) (e : Entry) : Nat :=
  if e.kind = .guest && ownDoor n e then e.validUntil.toNat + (d.roomAnswer e.room).grace else e.validUntil.toNat

/-- Step 7 (R51, R57). -/
def Device.checkValidity (d : Device) (n : Node) (e : Entry) : Option Reason :=
  if d.clock.valid then
    if d.clock.minute.toNat < e.validFrom.toNat then some .notYet
    else if d.clock.minute.toNat < d.validLimit n e then none
    else some .expired
  else if e.kind = .guest && !ownDoor n e then some .clockUnset
  else none

/-- MINIBAR counts at the entry's own room's minibar, RESTOCK at any (R52). -/
def minibarQualifies (n : Node) (e : Entry) : Bool :=
  hasPrivilege e.privileges .minibar && decide (e.room = n.room)

/-- The privileges of a card that count at a door: OWN_ROOM only where the entry's room is the node's bound room, and neither is "no
room" (R52). -/
def countedAt (n : Node) (e : Entry) : BitVec 11 :=
  if e.room = n.room && decide (e.room ≠ Config.noRoom) then e.privileges else e.privileges &&& ~~~1#11

/-- Step 8 (R52). -/
def checkPrivilege (n : Node) (e : Entry) : Option Reason :=
  match n.door with
  | some r => if countedAt n e &&& r.settings.admitSet = 0 then some .noPrivilege else none
  | none => if minibarQualifies n e || hasPrivilege e.privileges .restock then none else some .noPrivilege

/-- Step 9 (R53). -/
def Device.checkOccupied (d : Device) (e : Entry) : Option Reason :=
  if e.kind = .guest && !(d.roomAnswer e.room).occupied then some .roomNotOccupied else none

/-- Step 10 (R54). -/
def Device.checkDnd (d : Device) (n : Node) (e : Entry) : Option Reason :=
  if n.kind = .roomDoor && (d.roomAnswer n.room).dnd
      && !((decide (e.kind = .guest) && decide (e.room = n.room)) || decide (e.kind = .emergency)
        || hasPrivilege e.privileges .dndOverride) then
    some .dnd
  else none

/-- Whether a minute of day lies within hours that are set (R55). -/
def withinHours (openAt closeAt m : Nat) : Bool :=
  if openAt < closeAt then decide (openAt ≤ m) && decide (m < closeAt) else decide (openAt ≤ m) || decide (m < closeAt)

/-- Step 11 (R55, R57). -/
def Device.checkHours (d : Device) (n : Node) (e : Entry) : Option Reason :=
  match n.door with
  | none => none
  | some r =>
    let s := r.settings
    if s.hoursOpen = s.hoursClose || !e.kind.keepsHours || (decide (e.kind = .guest) && ownDoor n e) then none
    else if !d.clock.valid then some .clockUnset
    else if withinHours s.hoursOpen s.hoursClose (d.clock.minute.toNat % Config.minutesPerDay) then none
    else some .outOfHours

/-- Step 12 (R56). -/
def Device.checkStorm (d : Device) (n : Node) (e : Entry) : Option Reason :=
  if n.kind = .shoreGate && d.storm.active && !(decide (e.kind = .emergency) || hasPrivilege e.privileges .stormPass) then
    some .stormLock
  else none

/-- The first reason of a list of checks, none where each passes (R47). -/
def firstReason : List (Option Reason) → Option Reason
  | [] => none
  | some r :: _ => some r
  | none :: rest => firstReason rest

/-- Whether the image is the entry's image (R50 step 6a). -/
def imageMatches (i : CardImage) (e : Entry) : Bool :=
  decide (i.kind.toNat = e.kind.code) && decide (i.room.toNat = e.room) && decide (i.minute = e.issueMinute)

/-- Steps 2 to 12: the reason that refuses the card, or the ACTIVE entry that passed (R47, R49, R50). -/
def Device.checkCard (d : Device) (n : Node) (i : CardImage) : Except Reason Entry :=
  if !imagePasses d.propertyCode i then .error .badRead
  else if d.creds.deny.contains i.serial then .error .revoked
  else
    match d.entryOf i.serial with
    | none => .error .unknown
    | some e =>
      if e.state = .encoding then .error .notIssued
      else if !imageMatches i e then .error .mismatch
      else if e.state = .suspended then .error .suspended
      else
        match firstReason [d.checkValidity n e, checkPrivilege n e, d.checkOccupied e, d.checkDnd n e, d.checkHours n e,
            d.checkStorm n e] with
        | some r => .error r
        | none => .ok e

/-- A verdict with its reason (R46). -/
structure Decided where
  verdict : Verdict
  reason : Reason
  deriving DecidableEq, Repr

/-- Whether step 1 ends the decision: a door in EMERGENCY or HOLD_OPEN (R48). -/
def freeDoor (n : Node) : Bool :=
  match n.door with
  | none => false
  | some r => decide (r.state = .emergency) || decide (r.state = .holdOpen)

/-- The decision (R47), with step 13 carried out at a MINIBAR node (R58). -/
def Device.decideCard (d : Device) (key : Nat) (n : Node) (i : CardImage) : Device × Decided :=
  if freeDoor n then (d, { verdict := .grantFree, reason := .none })
  else
    match d.checkCard n i with
    | .error r => (d, { verdict := .refuse, reason := r })
    | .ok e =>
      if n.kind = .minibar then
        let out := d.barGrant key e.kind (minibarQualifies n e) (hasPrivilege e.privileges .restock)
        match out.2 with
        | none => (out.1, { verdict := .grant, reason := .none })
        | some r => (out.1, { verdict := .refuse, reason := r })
      else (d, { verdict := .grant, reason := .none })

/-- The ACK signal of a verdict (R46). -/
def Verdict.signal : Verdict → Signal
  | .grant => .grant
  | .grantFree => .grant
  | .refuse => .refuse

/-- The class of an ACCESS record (R46, R60). -/
def Decided.cls (o : Decided) : RecordClass :=
  match o.verdict with
  | .grant => .routine
  | .grantFree => .routine
  | .refuse => if o.reason = .badRead then .routine else .notable

/-- Whether a verdict latches DOOR_ALARM (R50, R60). -/
def Decided.alarms (o : Decided) : Bool :=
  decide (o.reason = .revoked) || decide (o.reason = .mismatch)

/-- A presentation decided and carried out in the order of R59, with the signal of its ACK. At an ENCODER it is refused and not decided
(R44). -/
def Device.takePresent (d : Device) (key : Nat) (n : Node) (i : CardImage) : Device × Signal :=
  if n.kind = .encoder then (d.modifyNode key (fun n => { n with lastVerdict := some .refuse }), .refuse)
  else
    let out := d.decideCard key n i
    let o := out.2
    let d := out.1.modifyNode key (fun n => { n with lastVerdict := some o.verdict.signal })
    let d := if o.verdict = .grant then d.doorEvent key (fun _ r => r.grant) else d
    let d := if o.alarms then d.latch .doorAlarm else d
    (d.record (.access key i.serial i.kind o.verdict o.reason 1 i.room) {} o.cls, o.verdict.signal)

end Sys2Proof.Machine
end

