-- ==== Sys2Proof/Machine/Rooms.lean ====
section
/-! DEFINITION. The Room Unit (chapter 2): defining a room, its stay, its DND button, its links and its reading. -/

namespace Sys2Proof.Machine

/-! ## Defining (R32, R33) -/

/-- A link of DEFINE_ROOM: none of it where the address word is 0; outside none where it fails a test of R32 step 3. -/
def Device.linkOf (d : Device) (seg addr : Word) (kind : NodeKind) (room : Nat) : Option (Option Nat) :=
  if addr = 0 then some none
  else if !addressOk seg.toNat addr.toNat then none
  else
    let key := nodeKey seg.toNat addr.toNat
    match Table.find key d.nodes with
    | none => none
    | some n => if n.kind = kind && decide (n.room = room) then some (some key) else none

/-- An empty slot of a new room (R86). -/
def Slot.empty : Slot :=
  { item := none, capacity := 15, baseline := 0 }

/-- A new room record, before the suspension rule (R33, R86). -/
def Room.new (code : Nat) (doorLink barLink : Option Nat) (grace openFloor ceiling : Nat) : Room :=
  { code := code, state := .vacant, stayOpen := false, dnd := false, doorLink := doorLink, barLink := barLink, grace := grace,
    guestCount := 0, lastButton := none, defaultCeiling := ceiling, openFloor := openFloor, balance := 0, ceiling := ceiling,
    unposted := 0, slots := List.replicate 12 Slot.empty, bar := .locked, unsettled := false, orphan := false, session := none,
    unlatchPending := false }

/-- A defined room redefined (R33): the last button signal becomes none where the door link changes. -/
def Room.redefined (r : Room) (code : Nat) (doorLink barLink : Option Nat) (grace openFloor ceiling : Nat) : Room :=
  Room.suspension
    { r with
      code := code
      doorLink := doorLink
      barLink := barLink
      grace := grace
      openFloor := openFloor
      defaultCeiling := ceiling
      lastButton := if doorLink = r.doorLink then r.lastButton else none }

/-- DEFINE_ROOM (R32, R33). -/
def Device.defineRoom (d : Device) (room code doorSeg doorAddr barSeg barAddr grace openFloor defaultCeiling : Word) :
    Device × Reply :=
  let k := room.toNat
  if 768 ≤ k || decide (9999 < code.toNat) then (d, .refusal .badParam 1)
  else
    match d.linkOf doorSeg doorAddr .roomDoor k, d.linkOf barSeg barAddr .minibar k with
    | some door, some bar =>
      let g := clampTop 240 grace.toNat
      let o := clampTop Config.moneyCap openFloor.toNat
      let c := clampTop Config.moneyCap defaultCeiling.toNat
      let clamped := g.2 || o.2 || c.2
      match Table.find k d.rooms with
      | none =>
        ({ d with rooms := Table.put k (Room.new code.toNat door bar g.1 o.1 c.1).suspension d.rooms },
          { code := .done, clamped := clamped, words := [1] })
      | some r =>
        if (decide (door ≠ r.doorLink) || decide (bar ≠ r.barLink)) && r.bar.inSession then (d, .refusal .wrongState 1)
        else
          (d.modifyRoom k (fun r => r.redefined code.toNat door bar g.1 o.1 c.1),
            { code := .done, clamped := clamped, words := [0] })
    | _, _ => (d, .refusal .badParam 1)

/-! ## Links that follow the node table (R34) -/

/-- A room with every link that names a node made none; a door link cleared takes the last button signal with it (R34). -/
def Room.withoutNode (r : Room) (key : Nat) : Room :=
  { r with
    doorLink := if r.doorLink = some key then none else r.doorLink
    lastButton := if r.doorLink = some key then none else r.lastButton
    barLink := if r.barLink = some key then none else r.barLink }

/-- Every room link that names a node made none (R34). -/
def Device.clearLinks (d : Device) (key : Nat) : Device :=
  { d with rooms := Table.mapVals (fun _ r => r.withoutNode key) d.rooms }

/-- The link of one room that names a node made none (R34, R142). -/
def Device.clearLinkOf (d : Device) (room key : Nat) : Device :=
  d.modifyRoom room (fun r => r.withoutNode key)

/-! ## The DND button (R35, R36) -/

/-- The defined room whose door link names a node (R35). -/
def Device.doorRoom (d : Device) (key : Nat) : Option (Nat × Room) :=
  d.rooms.find? (fun p => decide (p.2.doorLink = some key))

/-- A STAY record without flags, F or U (R134). -/
def Device.recordStay (d : Device) (room : Nat) (event : StayEvent) : Device :=
  d.notable (.stay room event 0 0)

/-- A BUTTON report that is not a duplicate, with the signal of its ACK, kept as the room's last button signal (R35). -/
def Device.takeButton (d : Device) (key : Nat) (on : Bool) : Device × Signal :=
  match d.doorRoom key with
  | none => (d, .refuse)
  | some (room, r) =>
    if r.state = .vacant then (d.modifyRoom room (fun r => { r with lastButton := some .refuse }), .refuse)
    else
      let d' := d.modifyRoom room (fun r => { r with dnd := on, lastButton := some .grant })
      (if on = r.dnd then d' else d'.recordStay room (if on then .dndOn else .dndOff), .grant)

/-- The signal that answers a duplicate BUTTON (R36). -/
def Device.buttonSignal (d : Device) (key : Nat) : Signal :=
  match d.doorRoom key with
  | none => .refuse
  | some (_, r) => r.lastButton.getD .refuse

/-! ## The stay (R37 to R41) -/

/-- CHECK_IN (R37). The words of the order are tested before the room is looked up. (DEDUCED, log entry 31) -/
def Device.checkIn (d : Device) (room source ceiling : Word) : Device × Reply :=
  if 768 ≤ room.toNat || decide (1 < source.toNat) then (d, .refusal .badParam 3)
  else
    d.withRoom room 3 (fun k r =>
      if r.state = .vacant then
        let c := if source = 1 then clampTop Config.moneyCap ceiling.toNat else (r.defaultCeiling, false)
        let opened (r : Room) : Room :=
          { r with balance := 0, unposted := 0, ceiling := c.1, state := .occupied, stayOpen := true, dnd := false }
        ((d.modifyRoom k (fun r => (opened r).suspension)).recordStay k .checkIn,
          { code := .done, clamped := c.2, words := [natWord r.balance, natWord r.unposted, flagWord r.orphan] })
      else (d, .refusal .wrongState 3))

/-- The minibar word of CHECK_OUT (R39): 1 for an open session, 2 for unsettled goods, 0 for neither. Unsettled goods give 2 also where the
orphan flag is still set from an earlier stay. (DESIGN CHOICE, log entry 48) -/
def Room.minibarWord (r : Room) : Nat :=
  if r.bar.inSession then 1 else if r.unsettled then 2 else 0

/-- The minibar of a room orphaned at check-out (R39): an open session ends with its reservation given back and RELOCK handed on. -/
def Device.orphanBar (d : Device) (r : Room) : Device :=
  if r.bar.inSession then (d.handBar r .relock).giveBack else d

/-- A room closed at check-out: DND, minibar flags, folio, state and the suspension rule (R38 steps 2, 3, 5 and 6, R39). -/
def Room.checkedOut (r : Room) : Room :=
  Room.closeSession
    { r with
      dnd := false
      orphan := r.orphan || decide (r.minibarWord ≠ 0)
      unsettled := false
      balance := 0
      unposted := 0
      ceiling := r.defaultCeiling
      state := .vacant
      stayOpen := false }

/-- The serials that the room withdrawal retires, in its two passes (R23). -/
def Device.withdrawn (d : Device) (room : Nat) : List Word :=
  d.guestSerials room (fun _ e => decide (e.state = .encoding)) ++ d.guestSerials room (fun _ e => decide (e.state ≠ .encoding))

/-- CHECK_OUT (R38, R39). -/
def Device.checkOut (room : Word) (ctx : OrderContext) (d : Device) : Device × Reply :=
  d.withRoom room 4 (fun k r =>
    if r.state = .vacant then (d, .refusal .wrongState 4)
    else
      let serials := d.withdrawn k
      let out := d.retireAll .revoked ctx.tag serials
      let word := r.minibarWord
      let d' := (out.1.orphanBar r).modifyRoom k Room.checkedOut
      (d'.record (.stay k .checkOut r.balance r.unposted) { barWord1 := decide (word = 1), barWord2 := decide (word = 2) } .notable,
        { code := .done
          words := [natWord r.balance, natWord r.unposted, natWord serials.length, natWord word]
          cancels := out.2 }))

/-- The moves that SET_ROOM_STATE may make (R29, R41). -/
def stateMove (before : RoomState) (stayOpen : Bool) (after : RoomState) : Bool :=
  match before, after with
  | .occupied, .outOfOrder => true
  | .vacant, .outOfOrder => true
  | .outOfOrder, .occupied => stayOpen
  | .outOfOrder, .vacant => !stayOpen
  | _, _ => false

/-- SET_ROOM_STATE (R41). The state code is tested before the room is looked up. (DEDUCED, log entry 31) -/
def Device.setRoomState (d : Device) (room newState : Word) : Device × Reply :=
  match RoomState.ofCode newState.toNat with
  | none => (d, .refusal .badParam 1)
  | some after =>
    d.withRoom room 1 (fun k r =>
      if after = r.state then (d, .done [natWord r.state.code])
      else if stateMove r.state r.stayOpen after then
        ((d.modifyRoom k (fun r => { r with state := after })).recordStay k (.state r.state after), .done [natWord r.state.code])
      else (d, .refusal .wrongState 1))

/-- A slot word of READ_ROOM (R196). -/
def Slot.word (s : Slot) : Word :=
  natWord (itemCode s.item + 256 * s.capacity + 65536 * s.baseline)

/-- READ_ROOM (R42). -/
def Device.readRoom (d : Device) (room : Word) : Device × Reply :=
  d.withRoom room 29 (fun _ r =>
    (d, .done ([natWord r.code, natWord r.state.code, flagWord r.stayOpen, flagWord r.dnd, linkWord r.doorLink, linkWord r.barLink,
      natWord r.grace, natWord r.guestCount, natWord r.balance, natWord r.ceiling, natWord r.unposted, natWord r.openFloor,
      natWord r.defaultCeiling, natWord r.bar.code, flagWord r.unsettled, flagWord r.orphan, natWord (Timer.seconds r.session)]
      ++ r.slots.map Slot.word)))

/-! ## Resets (R43, R104) -/

/-- A room at a board or soft reset: the last button signal none, and an open session ended unsettled. -/
def Room.reset (r : Room) : Room :=
  let r' := { r with lastButton := none, session := none, unlatchPending := false }
  if r.bar.inSession then { r' with unsettled := true, bar := r.restState } else r'

end Sys2Proof.Machine
end

