-- ==== Sys2Proof/Machine/Reports.lean ====
section
/-! DEFINITION. What the Line Controller tells the owner of a node (R161): a change of its state, an answered command, and a command that
was undelivered. -/

namespace Sys2Proof.Machine

/-- The owner of a node told of a change of its state (R19, R79, R94, R161), the node already in the state after. -/
def Device.ownerTold (d : Device) (key : Nat) (before after : NodeState) : Device :=
  match Table.find key d.nodes with
  | none => d
  | some n =>
    if before = after then d
    else
      match n.kind with
      | .minibar => d.barNodeChanged key before after
      | .encoder => d.encoderNodeChanged key after
      | .roomDoor => d.doorNodeChanged key before after
      | .commonDoor => d.doorNodeChanged key before after
      | .shoreGate => d.doorNodeChanged key before after
      | .egressDoor => d.doorNodeChanged key before after

/-- The submitter of a command told that it was answered (R14, R78, R92). -/
def Device.commandAnswered (d : Device) (key : Nat) (c : Command) : Device :=
  match c with
  | .unlatch => d.unlatchAnswered key
  | .encode _ job => d.encodeAnswered key job
  | .relock => d.doorEvent key (fun _ r => r.answered c)
  | .release _ => d.doorEvent key (fun _ r => r.answered c)
  | .hold => d.doorEvent key (fun _ r => r.answered c)
  | .signal => d
  | .abandon => d

/-- The submitter of a command told that it was undelivered (R19, R78, R92). A door whose node is FAULTED or RETRY_WAIT takes no such
report (R78). -/
def Device.commandUndelivered (d : Device) (key : Nat) (c : Command) : Device :=
  let door : Device := d.doorEvent key (fun n r => if n.state.isOut then .same r else r.undelivered c)
  match c with
  | .unlatch => d.unlatchUndelivered key
  | .encode _ job => d.encodeUndelivered key job
  | .relock => door
  | .release _ => door
  | .hold => door
  | .signal => d
  | .abandon => d

/-- Undelivered reports taken in the order they were made. -/
def Device.deliver (d : Device) (rs : List Report) : Device :=
  rs.foldl (fun acc r => acc.commandUndelivered r.node r.command) d

/-- One round of the reports that wait: the list is emptied and each report in it is taken. -/
def Device.deliverRound (d : Device) : Device :=
  Device.deliver { d with reports := [] } d.reports

/-- The undelivered reports of a step taken within it. A door's RELEASE may leave a RELOCK undelivered in its turn (R78), and that leaves
nothing more, so two rounds take them all. -/
def Device.takeReports (d : Device) : Device :=
  { (d.deliverRound).deliverRound with reports := [] }

end Sys2Proof.Machine
end

