-- ==== Sys2Proof/Machine/Exchange.lean ====
section
/-! DEFINITION. The end of an exchange (chapter 8): an answer with its report, or a miss. -/

namespace Sys2Proof.Machine

/-! ## Answers -/

/-- A report handed to the block that owns it, with the signal of its ACK (R147). -/
def Device.handReport (d : Device) (key : Nat) (n : Node) (b : ReportBody) : Device × Signal :=
  match b with
  | .present image => d.takePresent key n image
  | .contact isOpen =>
    if n.kind.isDoor then (d.doorEvent key (fun _ r => if isOpen then r.reportOpen else r.reportClosed), .grant) else (d, .refuse)
  | .tally closed counts => if n.kind = .minibar then d.takeTally key closed counts else (d, .refuse)
  | .button on => d.takeButton key on
  | .encResult result => if n.kind = .encoder then d.takeResult key result else (d, .refuse)

/-- The last result signal of an encoder (R16). -/
def Device.resultSignal (d : Device) (key : Nat) : Option Signal :=
  match Table.find key d.creds.encoders with
  | none => none
  | some e => e.lastResult

/-- The signal that answers a duplicate: the owner's kept signal, REFUSE where there is none (R147). -/
def Device.duplicateSignal (d : Device) (key : Nat) (n : Node) (b : ReportBody) : Signal :=
  match b with
  | .present _ => n.lastVerdict.getD .refuse
  | .contact _ => if n.kind.isDoor then .grant else .refuse
  | .tally _ _ => if n.kind = .minibar then n.lastTally.getD .refuse else .refuse
  | .button _ => d.buttonSignal key
  | .encResult _ => if n.kind = .encoder then (d.resultSignal key).getD .refuse else .refuse

/-- The sequence values skipped between the last accepted sequence and a report's (R148). -/
def sequenceSkipped (last seq : BitVec 4) : Nat :=
  (seq - last - 1#4).toNat

/-- The node's owed ACK (R149). -/
def Device.oweAck (d : Device) (key : Nat) (seq : BitVec 4) (signal : Signal) : Device :=
  d.modifyNode key (fun n => { n with owedAck := some (seq, signal) })

/-- A report accepted: its sequence is the last accepted, its owner takes it, and the ACK is owed (R148, R149). -/
def Device.acceptReport (d : Device) (key : Nat) (n : Node) (seq : BitVec 4) (b : ReportBody) : Device :=
  let out := (d.modifyNode key (fun n => { n with lastSeq := some seq })).handReport key n b
  out.1.oweAck key seq out.2

/-- A report handled by its sequence (R148): accepted, answered as a duplicate, or accepted behind a NODE SEQUENCE_GAP record. -/
def Device.takeReport (d : Device) (key : Nat) (seq : BitVec 4) (b : ReportBody) : Device :=
  match Table.find key d.nodes with
  | none => d
  | some n =>
    match n.lastSeq with
    | none => d.acceptReport key n seq b
    | some last =>
      if seq = last then d.oweAck key seq (d.duplicateSignal key n b)
      else if seq = last + 1 then d.acceptReport key n seq b
      else (d.notable (.node key .sequenceGap (sequenceSkipped last seq))).acceptReport key n seq b

/-- The count of a NODE RESTORED record (R158). -/
def Node.restoredCount (n : Node) : Nat :=
  if n.onProbe then n.retries else if n.state = .degraded then n.misses else 0

/-- The change of state that an answer makes, told to the owner, and the NODE RESTORED record (R158); then the Door Unit hears of the
answer, so that a HOLD left unsent is handed again (R78, R161). (DEDUCED, log entry 12) -/
def Device.heardFrom (d : Device) (key : Nat) (n : Node) : Device :=
  let d := d.modifyNode key (fun n => { n with state := .online, misses := 0, retries := 0, onProbe := false })
  let d := d.ownerTold key n.state .online
  let d :=
    if n.faultOpen then
      (d.modifyNode key (fun n => { n with faultOpen := false })).notable (.node key .restored n.restoredCount)
    else d
  d.doorHeard key

/-- The exchange of a segment over: a next command that is held enters the queue at its head (R156). -/
def Segment.closed (g : Segment) : Segment :=
  match g.exchange with
  | none => g
  | some x =>
    match x.next with
    | none => { g with exchange := none }
    | some c => { g with exchange := none, queue := { addr := x.addr, command := c, attempts := 0 } :: g.queue }

/-- The command of the frame told answered to its submitter (R156). -/
def Device.carriedAnswered (d : Device) (key : Nat) (x : Exchange) : Device :=
  match x.carried with
  | none => d
  | some (c, _) => d.commandAnswered key c

/-- An answer with a report, or with NOTHING, in the order of R161: the change of state, the report, the command the frame carried, and
the attention mark. The exchange is over with the command's answer: while the report is handled the attempt is still in progress, so that a
command handed by it is held as the next, and a SIGNAL is dropped (R155, R156). (DESIGN CHOICE, log entry 43) Without an exchange in progress
the frame is discarded (R139). -/
def Device.answer (d : Device) (seg : Nat) (attention : Bool) (report : Option (BitVec 4 × ReportBody)) : Device :=
  match (d.segment seg).exchange with
  | none => d
  | some x =>
    let key := nodeKey seg x.addr
    match Table.find key d.nodes with
    | none => d
    | some n =>
      let d := d.heardFrom key n
      let d :=
        match report with
        | none => d
        | some (seq, b) => d.takeReport key seq b
      let d := d.carriedAnswered key x
      let d := d.setSegment seg (d.segment seg).closed
      if attention then d.joinAttention key else d.leaveAttention key

/-- An answer by its bytes from the address on: the byte of attention mark and sequence is the third, the code the fourth, and the body
follows as far as the two bytes of the check; the sequence is not read for NOTHING (R139). -/
def Device.answerBytes (d : Device) (seg : Nat) (bytes : List Byte) : Device :=
  let mark := bytes.getD 2 0
  let body := (bytes.drop 4).dropLast.dropLast
  d.answer seg (answerAttention mark) ((reportOf (bytes.getD 3 0) body).map (fun b => (answerSequence mark, b)))

/-! ## Misses (R156 to R160) -/

/-- The node after a miss: the miss counted, the fault mode acting at the deglitch count, and a missed probe back in RETRY_WAIT (R159,
R160). -/
def Node.missed (n : Node) : Node :=
  match n.state with
  | .absent =>
    if n.onProbe then
      { n with state := .retryWait, onProbe := false, retries := min 255 (n.retries + 1), retryTimer := Timer.started, owedAck := none }
    else n
  | .degraded => { n with misses := min 255 (n.misses + 1) }
  | .faulted => n
  | .retryWait => n
  | _ =>
    let m := { n with misses := min 255 (n.misses + 1) }
    if m.misses < n.deglitch then { m with state := .suspect }
    else
      match n.faultMode with
      | .latch => { m with state := .faulted, faultOpen := true, owedAck := none }
      | .retry =>
        { m with state := .retryWait, retries := 0, retryTimer := Timer.started, faultOpen := true, owedAck := none }
      | .report => { m with state := .degraded, faultOpen := true }
      | .ignore => { m with state := .degraded }

/-- The NODE record of a miss, with its count, and whether NODE_FAULT is latched (R159, R160): none where the miss writes none. -/
def missRecord (before after : Node) : Option (NodeEvent × Nat × Bool) :=
  match before.state, after.state with
  | .absent, .retryWait => some (.retry, after.retries, false)
  | .online, .faulted => some (.fault, after.misses, true)
  | .online, .retryWait => some (.fault, after.misses, true)
  | .suspect, .faulted => some (.fault, after.misses, true)
  | .suspect, .retryWait => some (.fault, after.misses, true)
  | .online, .degraded => if before.faultMode = .report then some (.fault, after.misses, true) else none
  | .suspect, .degraded => if before.faultMode = .report then some (.fault, after.misses, true) else none
  | _, _ => none

/-- A NODE record of a miss written, and NODE_FAULT latched with a NODE FAULT. -/
def Device.recordMiss (d : Device) (key : Nat) (r : Option (NodeEvent × Nat × Bool)) : Device :=
  match r with
  | none => d
  | some (event, count, latches) =>
    let d := if latches then d.latch .nodeFault else d
    d.notable (.node key event count)

/-- The commands discarded when a node enters FAULTED or RETRY_WAIT: queued, in progress, held next (R157). -/
def discarded (g : Segment) (x : Exchange) : List Command :=
  g.pendingOf x.addr
    ++ (match x.carried with
      | none => []
      | some (c, _) => [c])
    ++ (match x.next with
      | none => []
      | some c => [c])

/-- What a miss makes of the command its frame carried, while its node stays in a polled state (R156): the queue after, and a command
abandoned at its third attempt. -/
def missedCommand (g : Segment) (x : Exchange) : List QueueEntry × List Command :=
  match x.carried, x.next with
  | some _, some c => ({ addr := x.addr, command := c, attempts := 0 } :: g.queue, [])
  | some (c, attempts), none =>
    if attempts + 1 < Config.commandAttempts then ({ addr := x.addr, command := c, attempts := attempts + 1 } :: g.queue, [])
    else (g.queue, [c])
  | none, _ => (g.queue, [])

/-- The reports of a miss to the node's owner: its change of state and the commands undelivered, in the order the step is given
(R157). -/
def Device.tellMiss (d : Device) (key : Nat) (before after : NodeState) (cs : List Command) (undeliveredFirst : Bool) : Device :=
  let rs : List Report := cs.map (fun c => { node := key, command := c })
  if undeliveredFirst then ((d.deliver rs).takeReports).ownerTold key before after
  else ((d.ownerTold key before after).deliver rs).takeReports

/-- A miss in an exchange with a node, in the order of R161. Where the node stays polled the exchange is over, and the command the frame
carried back in the queue or dropped, before the owner is told. (DESIGN CHOICE, log entry 43) -/
def Device.missAt (d : Device) (seg : Nat) (x : Exchange) (n : Node) (undeliveredFirst : Bool) : Device :=
  let key := nodeKey seg x.addr
  let after := n.missed
  let g := d.segment seg
  let d := d.modifyNode key (fun _ => after)
  let d :=
    if after.state.isOut then
      let d := d.setSegment seg { g.dropQueued x.addr with exchange := none }
      let d := d.leaveAttention key
      d.tellMiss key n.state after.state (discarded g x) undeliveredFirst
    else
      let m := missedCommand g x
      (d.setSegment seg { g with exchange := none, queue := m.1 }).tellMiss key n.state after.state m.2 undeliveredFirst
  d.recordMiss key (missRecord n after)

/-- MISS: nothing where no exchange is in progress; where what arrived in time is a valid answer of the node addressed, that answer (R139). -/
def Device.miss (d : Device) (seg : Nat) (frame : Option (List Byte)) (undeliveredFirst : Bool) : Device :=
  match (d.segment seg).exchange with
  | none => d
  | some x =>
    let bytes := frame.getD []
    if answerValid x.addr bytes then d.answerBytes seg bytes
    else
      match Table.find (nodeKey seg x.addr) d.nodes with
      | none => d
      | some n => d.missAt seg x n undeliveredFirst

/-- A retry timer has reached the retry delay (R160). -/
def Device.retryExpired (d : Device) (key : Nat) : Device :=
  match Table.find key d.nodes with
  | none => d
  | some n =>
    if n.state = .retryWait && Timer.isDue n.retryTimer then
      (d.modifyNode key (fun n => { n with state := .absent, onProbe := true, retryTimer := none })).ownerTold key .retryWait .absent
    else d

end Sys2Proof.Machine
end

