-- ==== Sys2Proof/Machine/HouseModes.lean ====
section
/-! DEFINITION. The Clock and House Unit (chapter 9): the contact inputs, the house modes, SET_CLOCK, HOUSE_MODE and the two resets. -/

namespace Sys2Proof.Machine

/-- The input and mode of a pin. -/
def Device.house (d : Device) (p : Pin) : House :=
  match p with
  | .fire => d.fire
  | .storm => d.storm

/-- The device with one input and mode replaced. -/
def Device.setHouse (d : Device) (p : Pin) (h : House) : Device :=
  match p with
  | .fire => { d with fire := h }
  | .storm => { d with storm := h }

/-- Whether a sense latches (R169). -/
def Sense.latches : Sense → Bool
  | .riseLatch => true
  | .fallLatch => true
  | .bothLatch => true
  | .off => false
  | .levelHigh => false
  | .levelLow => false

/-- Whether an edge to a level sets the latch of a sense: a rise ends HIGH and a fall ends LOW (R168, R169). -/
def Sense.catches (s : Sense) (level : Level) : Bool :=
  match s, level with
  | .riseLatch, .high => true
  | .fallLatch, .low => true
  | .bothLatch, _ => true
  | _, _ => false

/-- One changed mode handed on (R171): HOUSE_CHANGE, then the HOUSE record, then the Door Unit. -/
def Device.fireChanged (d : Device) (before after : HouseModes) (cause : HouseCause) : Device :=
  ((d.latch .houseChange).notable (.house before { before with fire := after.fire } cause)).doorsOnFire after.fire

/-- The storm mode's change handed on (R171): its record shows fire as it stands after the step. -/
def Device.stormChanged (d : Device) (before after : HouseModes) (cause : HouseCause) : Device :=
  ((d.latch .houseChange).notable (.house { before with fire := after.fire } after cause)).doorsOnStorm after.storm

/-- The changes of active value since `before` handed on, fire first (R171); nothing while RESET_N is held (R173). -/
def Device.houseChanges (d : Device) (before : HouseModes) (cause : HouseCause) : Device :=
  if d.resetHeld.isSome then d
  else
    let after := d.modes
    let d := if before.fire = after.fire then d else d.fireChanged before after cause
    if before.storm = after.storm then d else d.stormChanged before after cause

/-- The sampled level of a pin changes (R168, R169): the second starts anew, and a latching sense may set its latch at once. -/
def House.edge (h : House) (level : Level) : House :=
  { h with sampled := level, settling := true, latch := h.latch || h.sense.catches level }

/-- The sampled level has held for its second: the settled level takes it (R168). -/
def House.settle (h : House) : House :=
  { h with settled := some h.sampled, settling := false }

/-- A new sense (R170). -/
def House.withSense (h : House) (s : Sense) : House :=
  { h with sense := s, latch := if s = h.sense then h.latch else h.latch && h.sense.latches && s.latches }

/-- INPUT_EDGE: nothing where the level is the sampled level already. (DESIGN CHOICE, log entry 2) -/
def Device.inputEdge (d : Device) (p : Pin) (level : Level) : Device :=
  if (d.house p).sampled = level then d
  else (d.setHouse p ((d.house p).edge level)).houseChanges d.modes (.pin p)

/-- INPUT_SETTLED: nothing where the sampled level has settled already. (DESIGN CHOICE, log entry 2) -/
def Device.inputSettled (d : Device) (p : Pin) : Device :=
  if (d.house p).settling then (d.setHouse p (d.house p).settle).houseChanges d.modes (.pin p) else d

/-- The pin that a HOUSE_MODE mode word names (R196). -/
def pinOf (w : Word) : Option Pin :=
  if w = 0 then some .fire else if w = 1 then some .storm else none

/-- A mode with its order part set or cleared; CLEAR drops a latched input part too (R172). -/
def House.ordered (h : House) (set : Bool) : House :=
  if set then { h with order := true }
  else { h with order := false, latch := if h.sense.latches then false else h.latch }

/-- HOUSE_MODE (R172). -/
def Device.houseMode (d : Device) (mode action : Word) : Device × Reply :=
  match pinOf mode with
  | none => (d, .refusal .badParam 4)
  | some p =>
    if 1 < action.toNat then (d, .refusal .badParam 4)
    else
      let h := (d.house p).ordered (decide (action = 1))
      ((d.setHouse p h).houseChanges d.modes .order,
        .done [flagWord (d.house p).active, flagWord h.active, flagWord h.inputPart, flagWord h.order])

/-- The CLOCK record of a SET_CLOCK, written only where the clock was valid already (R165 step 3). -/
def Device.recordClock (d : Device) (old : Clock) : Device :=
  if old.valid then d.notable (.clock old.minute d.clock.minute) else d

/-- SET_CLOCK (R165); a minute tick still due is dropped with the second count that had passed 59. (DEDUCED, log entry 16) -/
def Device.setClock (d : Device) (minute second : Word) : Device × Reply :=
  let old := d.clock
  let sec := clampTop 59 second.toNat
  let d := { d with clock := { minute := minute, second := sec.1, valid := true, tickDue := false } }
  ((d.recordClock old).endHolds,
    { code := .done, clamped := sec.2, words := [old.minute, natWord old.second, flagWord old.valid] })

/-- The minute tick (R163): the second becomes 0, the minute rises by one, wrapping, and the holds that are due end. -/
def Device.minuteTick (d : Device) : Device :=
  Device.endHolds { d with clock := { d.clock with minute := d.clock.minute + 1, second := 0, tickDue := false } }

/-- The second count at a pulse (R163): it rises, or has passed 59 and the tick is due. -/
def Clock.pulse (c : Clock) : Clock :=
  if c.second < 59 then { c with second := c.second + 1 } else { c with tickDue := true }

end Sys2Proof.Machine
end

