-- ==== Sys2Proof/Machine/Nodes.lean ====
section
/-! DEFINITION. The node orders (R141 to R145) and the door orders (R74 to R76). -/

namespace Sys2Proof.Machine

/-! ## DEFINE_NODE (R64, R141, R142) -/

/-- The door settings of an order (R64), and whether one was clamped; none where an identity names nothing. -/
def doorSettingsOf (q : DoorParams) : Option (DoorSettings × Bool) :=
  match privilegesOf q.admitSet, RelockMode.ofCode q.relockMode.toNat, ResponseMode.ofCode q.forcedMode.toNat,
      RetryDelay.ofCode q.forcedDelay.toNat, ResponseMode.ofCode q.heldMode.toNat, RetryDelay.ofCode q.heldDelay.toNat with
  | some admitSet, some relock, some fm, some fd, some hm, some hd =>
    let o := clampTop 1439 q.hoursOpen.toNat
    let c := clampTop 1439 q.hoursClose.toNat
    let r := clampDefault 1 60 5 q.releaseTime.toNat
    let h := clampDefault 10 600 60 q.heldLimit.toNat
    some ({ admitSet := admitSet, hoursOpen := o.1, hoursClose := c.1, relock := relock, releaseTime := r.1, heldLimit := h.1,
            forcedMode := fm, forcedDelay := fd, heldMode := hm, heldDelay := hd }, o.2 || c.2 || r.2 || h.2)
  | _, _, _, _, _, _ => none

/-- What a DEFINE_NODE names, its identities tested (R141 step 1). -/
structure NodeOrder where
  kind : NodeKind
  service : Nat
  room : Nat
  faultMode : ResponseMode
  faultDelay : RetryDelay
  deglitch : Nat
  door : Option DoorSettings
  clamped : Bool
  deriving DecidableEq, Repr

/-- The door part of a DEFINE_NODE: no settings for MINIBAR and ENCODER; outside none where a door identity fails. -/
def doorPart (k : NodeKind) (q : DoorParams) : Option (Option DoorSettings × Bool) :=
  if k.isDoor then
    match doorSettingsOf q with
    | none => none
    | some (s, c) => some (some s, c)
  else some (none, false)

/-- A DEFINE_NODE with its identities tested and its settings clamped; none for BAD_PARAM (R141 step 1). -/
def nodeOrderOf (p : NodeParams) (q : DoorParams) : Option NodeOrder :=
  match NodeKind.ofCode p.kind.toNat, ResponseMode.ofCode p.faultMode.toNat, RetryDelay.ofCode p.faultDelay.toNat with
  | some k, some fm, some fd =>
    match doorPart k q with
    | none => none
    | some (door, dc) =>
      let needsRoom := decide (k = .roomDoor) || decide (k = .minibar)
      if !addressOk p.seg.toNat p.addr.toNat || !roomWordOk p.room.toNat
          || (needsRoom && decide (p.room.toNat = Config.noRoom)) then none
      else
        let s := clampTop 3 p.service.toNat
        let g := clampDefault 1 8 3 p.deglitch.toNat
        some { kind := k, service := s.1, room := p.room.toNat, faultMode := fm, faultDelay := fd, deglitch := g.1, door := door,
               clamped := s.2 || g.2 || dc }
  | _, _, _ => none

/-- A node as DEFINE_NODE creates it (R141). -/
def NodeOrder.created (o : NodeOrder) : Node :=
  { kind := o.kind, service := o.service, room := o.room, faultMode := o.faultMode, faultDelay := o.faultDelay,
    deglitch := o.deglitch, state := .absent, misses := 0, lastSeq := none, passOver := 0, retries := 0, retryTimer := none,
    onProbe := false, faultOpen := false, owedAck := none, lastVerdict := none, lastTally := none,
    door := o.door.map Door.fresh }

/-- The door record of a node that an update gives new settings (R65). -/
def Node.redoor (n : Node) (o : NodeOrder) : Option Door :=
  match n.door, o.door with
  | some r, some s => some { r with settings := s }
  | _, _ => n.door

/-- A node as DEFINE_NODE updates it: the settings replaced, every other field kept (R65, R142). -/
def NodeOrder.updated (o : NodeOrder) (n : Node) : Node :=
  { n with
    service := o.service
    room := o.room
    faultMode := o.faultMode
    faultDelay := o.faultDelay
    deglitch := o.deglitch
    door := n.redoor o }

/-- Whether a node is a MINIBAR whose linked room's minibar is in session (R94, R141, R143). -/
def Device.barInSession (d : Device) (key : Nat) (n : Node) : Bool :=
  decide (n.kind = .minibar) && (match d.barRoom key with
    | none => false
    | some (_, r) => r.bar.inSession)

/-- A new ENCODER gets its empty encoding slot and wait queue (R141). -/
def Device.createEncoder (d : Device) (key : Nat) (k : NodeKind) : Device :=
  if k = .encoder then
    { d with creds := { d.creds with
        encoders := Table.put key { current := none, waiting := [], lastResult := none } d.creds.encoders } }
  else d

/-- DEFINE_NODE (R141, R142). -/
def Device.defineNode (d : Device) (p : NodeParams) (q : DoorParams) : Device × Reply :=
  match nodeOrderOf p q with
  | none => (d, .refusal .badParam 1)
  | some o =>
    let key := nodeKey p.seg.toNat p.addr.toNat
    match Table.find key d.nodes with
    | none =>
      if o.kind = .encoder && decide (Config.encodersMax ≤ d.creds.encoders.length) then (d, .refusal .tableFull 1)
      else
        (Device.createEncoder { d with nodes := Table.put key o.created d.nodes } key o.kind,
          { code := .done, clamped := o.clamped, words := [1] })
    | some n =>
      if n.kind ≠ o.kind then (d, .refusal .inUse 1)
      else if decide (n.room ≠ o.room) && d.barInSession key n then (d, .refusal .wrongState 1)
      else
        let d := if n.room = o.room then d else d.clearLinkOf n.room key
        (d.modifyNode key o.updated, { code := .done, clamped := o.clamped, words := [0] })

/-! ## REMOVE_NODE, RESTORE_NODE and READ_NODE (R143 to R145) -/

/-- An order that names a defined node: BAD_PARAM for an address out of range, NOT_FOUND for an undefined place (R143). -/
def Device.withNode (d : Device) (seg addr : Word) (nwords : Nat) (f : Nat → Node → Device × Reply) : Device × Reply :=
  if !addressOk seg.toNat addr.toNat then (d, .refusal .badParam nwords)
  else
    match Table.find (nodeKey seg.toNat addr.toNat) d.nodes with
    | none => (d, .refusal .notFound nwords)
    | some n => f (nodeKey seg.toNat addr.toNat) n

/-- Whether an encoder has an encoding in progress or an issue waiting (R143). -/
def Device.encoderBusy (d : Device) (key : Nat) : Bool :=
  match Table.find key d.creds.encoders with
  | none => false
  | some e => e.current.isSome || decide (e.waiting ≠ [])

/-- A segment without the exchange with an address, its answer to be discarded (R143). -/
def Segment.abandon (g : Segment) (addr : Nat) : Segment :=
  match g.exchange with
  | none => g
  | some x => if x.addr = addr then { g with exchange := none } else g

/-- A node's place made undefined (R143). -/
def Device.dropNode (d : Device) (key : Nat) : Device :=
  let d := d.setSegment (keySeg key) (((d.segment (keySeg key)).abandon (keyAddr key)).dropQueued (keyAddr key))
  let d := (d.leaveAttention key).clearLinks key
  { d with
    nodes := Table.erase key d.nodes
    creds := { d.creds with encoders := Table.erase key d.creds.encoders } }

/-- REMOVE_NODE (R143). -/
def Device.removeNode (d : Device) (seg addr : Word) : Device × Reply :=
  d.withNode seg addr 1 (fun key n =>
    if d.barInSession key n || d.encoderBusy key then (d, .refusal .wrongState 1)
    else (d.dropNode key, .done [natWord n.state.code]))

/-- RESTORE_NODE (R144). -/
def Device.restoreNode (d : Device) (seg addr : Word) : Device × Reply :=
  d.withNode seg addr 1 (fun key n =>
    if n.state = .faulted then
      ((d.modifyNode key (fun n => { n with state := .absent, misses := 0 })).ownerTold key .faulted .absent,
        .done [natWord n.state.code])
    else (d, .refusal .wrongState 1))

/-- The pending command that READ_NODE shows, with its attempts: queued, or with its attempt in progress (R145). -/
def Segment.shownCommand (g : Segment) (addr : Nat) : Option (Command × Nat) :=
  match g.queue.find? (fun e => decide (e.addr = addr)) with
  | some e => some (e.command, e.attempts)
  | none =>
    match g.exchange with
    | none => none
    | some x => if x.addr = addr then x.carried else none

/-- A timer word of READ_NODE (R196). -/
def timerWord : Option Timer → Word
  | none => 0
  | some t => natWord (2147483648 + t.count)

/-- Words 17 to 33 of READ_NODE (R83, R196). -/
def doorWords : Option Door → List Word
  | none => List.replicate 17 0
  | some r =>
    let s := r.settings
    [s.admitSet.zeroExtend 32, natWord s.hoursOpen, natWord s.hoursClose, natWord s.relock.code, natWord s.releaseTime,
      natWord s.heldLimit, natWord s.forcedMode.code, natWord s.forcedDelay.code, natWord s.heldMode.code,
      natWord s.heldDelay.code, natWord r.state.code,
      natWord (r.contact.code + (if r.forcedLatch then 256 else 0) + (if r.heldLatch then 512 else 0)
        + (if r.holdUnsent then 1024 else 0)),
      timerWord r.releaseTimer, timerWord r.heldTimer, timerWord r.delayTimer, r.holdEnd.getD 0, r.savedEnd.getD 0]

/-- The words of READ_NODE (R145, R196). -/
def Device.nodeWords (d : Device) (key : Nat) (n : Node) : List Word :=
  let g := d.segment (keySeg key)
  let shown := g.shownCommand (keyAddr key)
  let result := match Table.find key d.creds.encoders with
    | none => none
    | some e => e.lastResult
  [natWord n.kind.code, natWord n.service, natWord n.room, natWord n.faultMode.code, natWord n.faultDelay.code,
    natWord n.deglitch, natWord n.state.code, natWord n.misses,
    (match n.lastSeq with
      | none => 16
      | some q => q.zeroExtend 32),
    natWord n.passOver, natWord n.retries, natWord (Timer.seconds n.retryTimer),
    natWord ((if n.onProbe then 1 else 0) + (if n.faultOpen then 2 else 0) + (if g.attention.contains (keyAddr key) then 4 else 0)),
    (match shown with
      | none => 0
      | some (c, _) => natWord c.code),
    (match shown with
      | none => 0
      | some (_, a) => natWord a),
    natWord (signalCode n.lastVerdict + 256 * signalCode n.lastTally + 65536 * signalCode result)]
    ++ doorWords n.door

/-- READ_NODE (R145). -/
def Device.readNode (d : Device) (seg addr : Word) : Device × Reply :=
  d.withNode seg addr 33 (fun key n => (d, .done (d.nodeWords key n)))

/-! ## Door orders (R74 to R76) -/

/-- The tests that CLEAR_ALARM and DOOR_COMMAND share: the node and its door, none for BAD_PARAM (R74, R75). -/
def Device.doorOf (d : Device) (seg addr : Word) : Option (Nat × Node × Door) :=
  if !addressOk seg.toNat addr.toNat then none
  else
    match Table.find (nodeKey seg.toNat addr.toNat) d.nodes with
    | none => none
    | some n =>
      match n.door with
      | none => none
      | some r => some (nodeKey seg.toNat addr.toNat, n, r)

/-- An outcome at a door answered as DONE with the states before and after. -/
def Device.doneAtDoor (d : Device) (key : Nat) (n : Node) (r : Door) (o : DoorOut) (clamped : Bool) : Device × Reply :=
  (d.applyDoor key n.state.isOut o,
    { code := .done, clamped := clamped, words := [natWord r.state.code, natWord o.door.state.code] })

/-- CLEAR_ALARM (R74). -/
def Device.clearAlarm (d : Device) (seg addr : Word) : Device × Reply :=
  match d.doorOf seg addr with
  | none => (d, .refusal .badParam 2)
  | some (key, n, r) => d.doneAtDoor key n r (r.clearAlarm n.state.isOut) false

/-- The end minute of a HOLD as clamped: one at or below the present minute becomes the present minute plus one (R76). -/
def holdEndMinute (now endMinute : Word) : Word × Bool :=
  if endMinute.toNat ≤ now.toNat then (now + 1, true) else (endMinute, false)

/-- DOOR_COMMAND HOLD at a door (R76). -/
def Device.commandHold (d : Device) (key : Nat) (n : Node) (r : Door) (endMinute : Word) : Device × Reply :=
  if !d.clock.valid || (decide (n.kind = .shoreGate) && d.storm.active) then (d, .refusal .wrongState 2)
  else
    let e := holdEndMinute d.clock.minute endMinute
    match r.orderHold e.1 with
    | none => (d, .refusal .wrongState 2)
    | some o => d.doneAtDoor key n r o e.2

/-- DOOR_COMMAND (R75, R76), by its action word: 1 RELEASE, 2 RELOCK, 3 HOLD; any other names no action. -/
def Device.doorCommand (d : Device) (seg addr action endMinute : Word) : Device × Reply :=
  match d.doorOf seg addr with
  | none => (d, .refusal .badParam 2)
  | some (key, n, r) =>
    if action = 0 || decide (3 < action.toNat) then (d, .refusal .badParam 2)
    else if n.state.isOut then (d, .refusal .nodeUnavailable 2)
    else if action = 1 then
      if r.state = .holdOpen || r.state = .emergency then (d, .refusal .wrongState 2)
      else d.doneAtDoor key n r r.grant false
    else if action = 2 then
      match r.orderRelock n.state.isOut with
      | none => (d, .refusal .wrongState 2)
      | some o => d.doneAtDoor key n r o false
    else d.commandHold key n r endMinute

/-! ## Timers at a pulse, and the resets (R84, R162) -/

/-- A door's three timers at a second pulse, against the limits now in force (R63, R65). -/
def Door.pulse (r : Door) : Door :=
  { r with
    releaseTimer := Timer.tick r.settings.releaseTime r.releaseTimer
    heldTimer := Timer.tick r.settings.heldLimit r.heldTimer
    delayTimer := Timer.tick r.alarmDelay.seconds r.delayTimer }

/-- A node's timers at a second pulse (R140, R142). -/
def Node.pulse (n : Node) : Node :=
  { n with retryTimer := Timer.tick n.faultDelay.seconds n.retryTimer, door := n.door.map Door.pulse }

/-- A node at a board or soft reset (R62, R84, R87, R162). -/
def Node.reset (n : Node) : Node :=
  { n with
    state := .absent
    misses := 0
    passOver := 0
    retries := 0
    retryTimer := none
    onProbe := false
    faultOpen := false
    lastSeq := none
    owedAck := none
    lastVerdict := none
    lastTally := none
    door := n.door.map (fun r => Door.fresh r.settings) }

end Sys2Proof.Machine
end

