-- ==== Sys2Proof/Machine/Walker.lean ====
section
/-! DEFINITION. The Chain Walker (chapter 10): the register writes, the walk, the writes into blocks, the settlement list, the status page,
and the errors of the manager port. What has been issued on the manager port stays outstanding in the state until a later step shows that
it was accepted, or that it failed. (DESIGN CHOICE, log entry 13) -/

namespace Sys2Proof.Machine

/-- A command's effect on the device, the waiting commands and board memory left alone. -/
def State.onDevice (s : State) (f : Device → Device) : State :=
  { s with dev := f s.dev }

/-- A command carried out: undelivered reports are taken within the step (R155), and JOURNAL_STALL is latched where the step has brought
the journal's load to the stall mark (R133). The reports are taken behind the whole of the command's own effect, where the manual says no more
than at once. (DESIGN CHOICE, log entries 35 and 44) -/
def commit (s : State) (f : State → State) : Host.Outcome State Fault Refusal :=
  let t := f s
  .next { t with dev := Device.latchStall s.dev t.dev.takeReports }

/-! ## Register writes (R174 to R177, R180) -/

/-- A register write, which is ignored while RESET_N is held (R174). -/
def Device.writeRegister (d : Device) (f : Device → Device) : Device :=
  if d.resetHeld.isSome then d else f d

/-- Whether the walk is IDLE. -/
def Walk.isIdle : Walk → Bool
  | .idle => true
  | .walking _ _ _ => false

/-- Whether COMMON_BASE and COMMON_SIZE take a write: the walk is IDLE and no region is in force (R175). -/
def Device.areaMayMove (d : Device) : Bool :=
  d.walker.walk.isIdle && d.journal.region.isNone

/-- The largest size, in 4 KiB units, with which an area at a base ends by the top of the address space; 0 where fewer than 16 fit
(R175). -/
def sizeThatFits (base : Word) (units : Nat) : Nat :=
  let room := (4294967296 - base.toNat) / 4096
  if units ≤ room then units else if room < 16 then 0 else room

/-- COMMON_SIZE as taken (R175). -/
def sizeTaken (base : Word) (written : Nat) : Nat :=
  if written = 0 then 0 else sizeThatFits base (max 16 (min 4096 written))

/-- A write to COMMON_BASE: bits 11–0 are ignored (R175). -/
def Device.writeBase (d : Device) (value : Word) : Device :=
  if d.areaMayMove then { d with regs := { d.regs with commonBase := value &&& 0xfffff000#32 } } else d

/-- A write to COMMON_SIZE: bits 12–0 are the size, and the others are ignored (R174, R175, R193). -/
def Device.writeSize (d : Device) (value : Word) : Device :=
  if d.areaMayMove then
    { d with regs := { d.regs with commonSize := natWord (sizeTaken d.regs.commonBase (value.extractLsb' 0 13).toNat) } }
  else d

/-- A write to CHAIN_HEAD (R180). -/
def Device.writeChainHead (d : Device) (value : Word) : Device :=
  match d.walker.walk with
  | .idle =>
    if value = 0 then d else { d with walker := { d.walker with walk := .walking value false .checking } }
  | .walking block _ phase =>
    if value = 0 then { d with walker := { d.walker with walk := .walking block true phase } } else d.latch .chainOverrun

/-- A write to STATUS: each latched bit written as 1 is cleared (R176). -/
def Device.clearStatus (d : Device) (value : Word) : Device :=
  { d with regs := { d.regs with status := d.regs.status &&& ~~~(value &&& latchedBits) } }

/-- A write to ALERT_MASK: bits that mean nothing are ignored (R174, R193). -/
def Device.writeMask (d : Device) (value : Word) : Device :=
  { d with regs := { d.regs with alertMask := value &&& statusBits } }

/-- ALERT_ENABLE taken from a CONTROL write (R177). -/
def Device.writeAlertEnable (d : Device) (enable : Bool) : Device :=
  { d with regs := { d.regs with alertEnable := enable } }

/-! ## The status page (R178) -/

/-- A whole publication: one view of every field, issued in this step. What an earlier publication had outstanding was accepted before
it. -/
def State.publish (s : State) : State :=
  { s with
    mem := Memory.accept s.mem s.dev.walker.page
    dev := { s.dev with walker := { s.dev.walker with page := s.dev.pageWrites } } }

/-- The Journal Writer's publication of W and the next sequence number (R119, R136). -/
def State.publishMarks (s : State) : State :=
  { s with
    mem := Memory.accept s.mem s.dev.walker.page
    dev := { s.dev with walker := { s.dev.walker with page := s.dev.markWrites } } }

/-! ## The walk (R181, R182, R185) -/

/-- A walk ended at a block with a cause (R185). -/
def Device.endWalk (d : Device) (block : Word) (cause : WalkEnd) : Device :=
  { d with walker := { d.walker with walk := .idle, lastBlock := block, lastEnd := cause } }

/-- A walk ended, and the status page published. -/
def State.endWalk (s : State) (block : Word) (cause : WalkEnd) : State :=
  (s.onDevice (fun d => d.endWalk block cause)).publish

/-- A walk ended with CHAIN_FAULT. -/
def State.chainFault (s : State) (block : Word) (cause : WalkEnd) : State :=
  (s.onDevice (fun d => d.latch .chainFault)).endWalk block cause

/-- The block in hand at a phase. -/
def Device.setPhase (d : Device) (block : Word) (abort : Bool) (phase : WalkPhase) : Device :=
  { d with walker := { d.walker with walk := .walking block abort phase } }

/-- Whether an address lies inside the common area (R175). -/
def Registers.inside (r : Registers) (addr : Nat) : Bool :=
  decide (r.commonBase.toNat ≤ addr) && decide (addr < r.commonBase.toNat + r.commonSize.toNat * 4096)

/-- Check 1: a multiple of 16, inside the area, at offset 512 or above (R181). -/
def Registers.placeOk (r : Registers) (block : Word) : Bool :=
  decide (block.toNat % 16 = 0) && r.inside block.toNat && decide (r.commonBase.toNat + 512 ≤ block.toNat)

/-- Check 3: SIZE from 6 to 64, and the block's last byte inside the area (R181). -/
def Registers.sizeOk (r : Registers) (block size : Word) : Bool :=
  decide (6 ≤ size.toNat) && decide (size.toNat ≤ 64) && r.inside (block.toNat + 4 * size.toNat - 1)

/-- RESULT with its code and the CLAMPED flag (R195). -/
def resultWord (code : ResultCode) (clamped : Bool) : Word :=
  natWord (code.code + (if clamped then 65536 else 0))

/-- The two writes that stamp a block DONE: RESULT, then STAMP (R183). -/
def doneWrites (block : Word) (code : ResultCode) (clamped : Bool) : List PortWrite :=
  [{ addr := block + 16, data := resultWord code clamped }, { addr := block + 12, data := 2 }]

/-- The two writes that stamp a block TAKEN (R184). -/
def takenWrites (block : Word) : List PortWrite :=
  [{ addr := block + 16, data := 0 }, { addr := block + 12, data := 1 }]

/-- The writes of a settlement: its result words after the nine parameters of ISSUE_CARD, RESULT, STAMP (R184). -/
def Settlement.writes (s : Settlement) : List PortWrite :=
  writesFrom (s.block + natWord (24 + 4 * 9)) s.words ++ doneWrites s.block s.code false

/-- The writes that an order's reply issues: its cancellation settlements, then its own (R183, R184). -/
def replyWrites (block : Word) (params : Nat) (r : Reply) : BlockWrites :=
  { cancels := r.cancels.map Settlement.writes
    own :=
      if r.deferred then takenWrites block
      else writesFrom (block + natWord (24 + 4 * params)) r.words ++ doneWrites block r.code r.clamped }

/-- How the walker settles a block that has passed its checks: the code it answers itself, or the order it hands on (R182). -/
def Device.settleKind (d : Device) (h : Header) (kindParam : Word) : Sum ResultCode OrderKind :=
  match OrderKind.ofCode h.kind.toNat with
  | none => .inl .badKind
  | some k =>
    if !d.walker.established && decide (k ≠ .setup) && decide (k ≠ .setClock) then .inl .notSetUp
    else if h.size.toNat < k.smallest kindParam then .inl .badParam
    else .inr k

/-- A block that has passed its checks is taken (R182). -/
def Device.takeBlock (d : Device) (block : Word) (abort : Bool) (h : Header) (kindParam : Word) : Device :=
  match d.settleKind h kindParam with
  | .inl code => d.setPhase block abort (.writing { cancels := [], own := doneWrites block code false })
  | .inr k => d.setPhase block abort (.handed k h.tag)

/-- BLOCK_CHECK (R181, R182): nothing where no block's header is being read. -/
def State.checkBlock (s : State) (h : Header) (kindParam : Word) : State :=
  match s.dev.walker.walk with
  | .walking block abort .checking =>
    if !s.dev.regs.placeOk block then s.chainFault block .badPlace
    else if !s.dev.regs.sizeOk block h.size then s.chainFault block .badSize
    else if h.stamp ≠ 0 then s.chainFault block .notNew
    else s.onDevice (fun d => d.takeBlock block abort h kindParam)
  | _ => s

/-- An order handed to its owner: the owner's step, and the writes of its reply issued. Nothing where the block in hand has not been
handed on as an order of that kind. (DESIGN CHOICE, log entry 14) -/
def Device.runOrder (d : Device) (kind : OrderKind) (params : Nat) (owner : OrderContext → Device → Device × Reply) : Device :=
  match d.walker.walk with
  | .walking block abort (.handed k tag) =>
    if k = kind then
      let out := owner { block := block, tag := tag } d
      out.1.setPhase block abort (.writing (replyWrites block params out.2))
    else d
  | _ => d

/-- ORDER_SETTLED latched where a settlement's STAMP was among the writes accepted (R184). -/
def Device.settledIf (d : Device) (any : Bool) : Device :=
  if any then d.latch .orderSettled else d

/-- The block in hand stamped: every write outstanding for it was accepted. -/
def State.stampBlock (s : State) : State :=
  match s.dev.walker.walk with
  | .walking block abort (.writing w) =>
    { s with
      mem := Memory.accept s.mem (w.cancels.flatten ++ w.own)
      dev := (s.dev.setPhase block abort .stamped).settledIf (decide (w.cancels ≠ [])) }
  | _ => s

/-- The walk after the re-read of a stamped block's LINK (R185). -/
def State.follow (s : State) (link : Word) : State :=
  match s.dev.walker.walk with
  | .walking block abort .stamped =>
    if abort then s.endWalk block .aborted
    else if link = 0 then (s.onDevice (fun d => d.latch .chainWalked)).endWalk block .walked
    else s.onDevice (fun d => d.setPhase link false .checking)
  | _ => s

/-- LINK_REREAD (R185): the block's writes have been accepted, and the walk ends or goes on. -/
def State.rereadLink (s : State) (link : Word) : State :=
  s.stampBlock.follow link

/-! ## The settlement list (R184) -/

/-- Whether the walker's write of TAKEN to a block is still outstanding. -/
def Walk.writesTo (w : Walk) (block : Word) : Bool :=
  match w with
  | .walking b _ (.writing _) => decide (b = block)
  | _ => false

/-- The block in hand stamped where a settlement is being written into it: its TAKEN was accepted first (R184). -/
def State.stampBefore (s : State) (block : Word) : State :=
  if s.dev.walker.walk.writesTo block then s.stampBlock else s

/-- SETTLEMENT_WRITE (R184): the oldest settlement is written whole, and ORDER_SETTLED is latched. -/
def State.writeSettlement (s : State) : State :=
  match s.dev.walker.settlements with
  | [] => s
  | x :: rest =>
    let s := s.stampBefore x.block
    { s with
      mem := Memory.accept s.mem x.writes
      dev := Device.latch { s.dev with walker := { s.dev.walker with settlements := rest } } .orderSettled }

/-! ## Errors of the manager port (R186) -/

/-- MEMORY_FAULT latched. -/
def State.memoryFault (s : State) : State :=
  s.onDevice (fun d => d.latch .memoryFault)

/-- The writes of a cancellation sequence up to the first that failed: those accepted, how many settlements were written whole, and the
groups after the one that failed; none where every cancellation was accepted first. -/
def failCancel (n : Nat) : List (List PortWrite) → Option (List PortWrite × Nat × List (List PortWrite))
  | [] => none
  | g :: rest =>
    if n < g.length then some (g.take n, 0, rest)
    else
      match failCancel (n - g.length) rest with
      | none => none
      | some (ws, k, left) => some (g ++ ws, k + 1, left)

/-- An error on a write into the block in hand, or on a cancellation settlement within its order: `n` writes were accepted before it. -/
def State.failBlock (s : State) (n : Nat) : State :=
  match s.dev.walker.walk with
  | .walking block abort (.writing w) =>
    match failCancel n w.cancels with
    | some (ws, k, left) =>
      State.memoryFault
        { s with
          mem := Memory.accept s.mem ws
          dev := (s.dev.setPhase block abort (.writing { w with cancels := left })).settledIf (decide (0 < k)) }
    | none =>
      let all := w.cancels.flatten ++ w.own
      if n < all.length then
        let t : State :=
          { s with mem := Memory.accept s.mem (all.take n), dev := s.dev.settledIf (decide (w.cancels ≠ [])) }
        t.memoryFault.endWalk block .writeError
      else s
  | _ => s

/-- An error on reading a block's header or parameters. The header is read at check 2, so only of a block that check 1 has passed (R181). -/
def State.failRead (s : State) : State :=
  match s.dev.walker.walk with
  | .walking block _ .checking => if s.dev.regs.placeOk block then s.memoryFault.chainFault block .readError else s
  | .walking block _ (.handed _ _) => s.memoryFault.chainFault block .readError
  | _ => s

/-- An error on the re-read of a stamped block's LINK, which an aborted walk does not make. -/
def State.failLink (s : State) : State :=
  let t := s.stampBlock
  match t.dev.walker.walk with
  | .walking block false .stamped => t.memoryFault.chainFault block .readError
  | _ => s

/-- An error on a settlement's write: the rest of it is not made, and it leaves the list. -/
def State.failSettlement (s : State) (n : Nat) : State :=
  match s.dev.walker.settlements with
  | [] => s
  | x :: rest =>
    if n < x.writes.length then
      let s := s.stampBefore x.block
      State.memoryFault
        { s with
          mem := Memory.accept s.mem (x.writes.take n)
          dev := { s.dev with walker := { s.dev.walker with settlements := rest } } }
    else s

/-- An error on a publication: the rest of it is not written (R178). -/
def State.failPage (s : State) (n : Nat) : State :=
  if n < s.dev.walker.page.length then
    State.memoryFault
      { s with
        mem := Memory.accept s.mem (s.dev.walker.page.take n)
        dev := { s.dev with walker := { s.dev.walker with page := [] } } }
  else s

/-- An error on a placement: the record stays at the head, and the drain is WAITING_RETRY (R127). -/
def State.failPlacement (s : State) (n : Nat) : State :=
  if n < s.dev.placementWrites.length then
    State.memoryFault
      { s with
        mem := Memory.accept s.mem (s.dev.placementWrites.take n)
        dev := { s.dev with journal := { s.dev.journal with drain := .waitingRetry } } }
  else s

/-- An error on a re-read of the read mark: the cached Rd is kept (R121). -/
def State.failMark (s : State) : State :=
  if s.dev.journal.reread.isSome then
    State.memoryFault (s.onDevice (fun d => { d with journal := { d.journal with reread := none } }))
  else s

/-- MEMORY_ERROR by what the access was for (R186): nothing where no such access is outstanding. -/
def State.portError (s : State) (access : PortAccess) (accepted : Nat) : State :=
  match access with
  | .blockRead => s.failRead
  | .linkRead => s.failLink
  | .blockWrite => s.failBlock accepted
  | .settlement => s.failSettlement accepted
  | .publication => s.failPage accepted
  | .placement => s.failPlacement accepted
  | .markRead => s.failMark

/-! ## The Journal Writer on the manager port (R119, R121) -/

/-- PLACEMENT_COMPLETE (R119): every byte was accepted, the journal advances, and W and the sequence number are published. -/
def State.completePlacement (s : State) : State :=
  if s.dev.journal.isPlacing then
    let t := { s with mem := Memory.accept s.mem s.dev.placementWrites }
    (t.onDevice (fun d => { d with journal := d.journal.complete })).publishMarks
  else s

/-- READ_MARK_REREAD (R121, R122). -/
def Device.rereadMark (d : Device) (value : Word) : Device :=
  { d with journal := d.journal.rereadDone value.toNat }

end Sys2Proof.Machine
end

