-- ==== Sys2Proof/Machine/Setup.lean ====
section
/-! DEFINITION. SETUP (R138, R170, R187, R188), the second pulse (R163), and the three resets (R27, R43, R62, R84, R104, R137, R162, R167,
R173, R190). -/

namespace Sys2Proof.Machine

/-! ## SETUP -/

/-- What a SETUP names, its identities tested and its settings clamped (R187). -/
structure SetupPlan where
  propertyCode : Nat
  region : Region
  threshold : Nat
  segments : List SegmentSettings
  encodingTimeout : Nat
  sessionLimit : Nat
  fireSense : Sense
  stormSense : Sense
  clamped : Bool
  deriving DecidableEq, Repr

/-- One segment's settings (R138), and whether the timeout was clamped; none where an identity fails. -/
def segmentOf (q : SegmentParams) : Option (SegmentSettings × Bool) :=
  match SchedMode.ofCode q.mode.toNat with
  | none => none
  | some m =>
    if 1 < q.enabled.toNat then none
    else
      let t := clampDefault 2 50 10 q.timeout.toNat
      some ({ enabled := decide (q.enabled = 1), mode := m, timeout := t.1 }, t.2)

/-- The settings of every segment, none where one fails. -/
def segmentsOf : List SegmentParams → Option (List SegmentSettings × Bool)
  | [] => some ([], false)
  | q :: rest =>
    match segmentOf q, segmentsOf rest with
    | some (st, c), some (sts, cs) => some (st :: sts, c || cs)
    | _, _ => none

/-- The tests on the journal region (R187). -/
def regionOk (commonSize start stop : Nat) : Bool :=
  decide (start % 4 = 0) && decide (stop % 4 = 0) && decide (512 ≤ start) && decide (start < stop)
    && decide (stop ≤ commonSize * 4096) && decide (4096 ≤ stop - start) && decide (stop - start ≤ 8388608)

/-- A SETUP with its identities tested and its settings clamped; none for BAD_PARAM (R187). -/
def setupPlanOf (commonSize : Nat) (p : SetupParams) : Option SetupPlan :=
  match segmentsOf p.segments, Sense.ofCode p.fireSense.toNat, Sense.ofCode p.stormSense.toNat with
  | some (sts, sc), some fs, some ss =>
    if 65535 < p.propertyCode.toNat || !regionOk commonSize p.journalStart.toNat p.journalStop.toNat then none
    else
      let th := clampTop 8388604 p.threshold.toNat
      let et := clampDefault 5 120 30 p.encodingTimeout.toNat
      let sl := clampDefault 2 30 10 p.sessionLimit.toNat
      some { propertyCode := p.propertyCode.toNat, region := { start := p.journalStart.toNat, stop := p.journalStop.toNat },
             threshold := th.1, segments := sts, encodingTimeout := et.1, sessionLimit := sl.1, fireSense := fs,
             stormSense := ss, clamped := sc || th.2 || et.2 || sl.2 }
  | _, _, _ => none

/-- The Journal Writer's re-read of the read mark as a SETUP is taken, where a region is in force (R121, R135); `none` is an error on the
manager port. -/
def Device.setupReread (d : Device) (mark : Option Word) : Device :=
  match d.journal.region, mark with
  | none, _ => d
  | some _, none => d.latch .memoryFault
  | some _, some v => { d with journal := d.journal.takeMark v.toNat }

/-- The commands of a disabled segment that are reported undelivered: those queued, then that in progress and its next (R138). -/
def Segment.stranded (g : Segment) (seg : Nat) : List Report :=
  g.queue.map (fun e => { node := nodeKey seg e.addr, command := e.command })
    ++ (match g.exchange with
      | none => []
      | some x =>
        (match x.carried with
          | none => []
          | some (c, _) => [{ node := nodeKey seg x.addr, command := c }])
        ++ (match x.next with
          | none => []
          | some c => [{ node := nodeKey seg x.addr, command := c }]))

/-- A node of a segment that is disabled (R138): its owed ACK dropped, and ABSENT unless it is FAULTED. -/
def Node.disabled (n : Node) : Node :=
  if n.state = .faulted then { n with owedAck := none, passOver := 0 }
  else { n with state := .absent, misses := 0, retryTimer := none, retries := 0, onProbe := false, owedAck := none, passOver := 0 }

/-- The keys of a segment's nodes with their states, rising. -/
def Device.statesOn (d : Device) (seg : Nat) : List (Nat × NodeState) :=
  (d.nodes.filter (fun p => decide (keySeg p.1 = seg))).map (fun p => (p.1, p.2.state))

/-- The owner of one node of a disabled segment told, where the state has changed. -/
def Device.tellDisabled (d : Device) (p : Nat × NodeState) : Device :=
  match Table.find p.1 d.nodes with
  | none => d
  | some n => d.ownerTold p.1 p.2 n.state

/-- A segment disabled (R138): its commands reported undelivered, its attention set and owed ACKs dropped, its nodes ABSENT and their
owners told. -/
def Device.disableSegment (d : Device) (seg : Nat) : Device :=
  let g := d.segment seg
  let d := d.setSegment seg { g with exchange := none, queue := [] }
  let d := (d.deliver (g.stranded seg)).takeReports
  let before := d.statesOn seg
  let d := d.setSegment seg { d.segment seg with attention := [] }
  let d := { d with nodes := Table.mapVals (fun k n => if keySeg k = seg then n.disabled else n) d.nodes }
  before.foldl Device.tellDisabled d

/-- The pass-over counts of a segment made 0 (R138). -/
def Device.clearPassOver (d : Device) (seg : Nat) : Device :=
  { d with nodes := Table.mapVals (fun k n => if keySeg k = seg then { n with passOver := 0 } else n) d.nodes }

/-- Whether a segment's scheduling mode changes. -/
def Segment.modeChanges (g : Segment) (m : SchedMode) : Bool :=
  match g.settings with
  | none => false
  | some st => decide (st.mode ≠ m)

/-- One segment's new settings act at once (R138). -/
def Device.applySegment (d : Device) (seg : Nat) (st : SegmentSettings) : Device :=
  let changes := (d.segment seg).modeChanges st.mode
  let d := d.setSegment seg { d.segment seg with settings := some st }
  let d := if changes then d.clearPassOver seg else d
  if st.enabled then d else d.disableSegment seg

/-- The segments' new settings, from segment `seg` on, one segment after another in rising number. (DESIGN CHOICE, log entry 34) -/
def Device.applySegments (d : Device) (seg : Nat) : List SegmentSettings → Device
  | [] => d
  | st :: rest => Device.applySegments (d.applySegment seg st) (seg + 1) rest

/-- An accepted SETUP, in the order of R188. -/
def Device.acceptSetup (d : Device) (p : SetupPlan) : Device :=
  let before := d.modes
  let d := { d with creds := { d.creds with propertyCode := some p.propertyCode } }
  let d := { d with journal := d.journal.establish p.region p.threshold }
  let d := d.applySegments 0 p.segments
  let d := { d with creds := { d.creds with encodingTimeout := some p.encodingTimeout } }
  let d := { d with sessionLimit := some p.sessionLimit }
  let d := { d with fire := d.fire.withSense p.fireSense, storm := d.storm.withSense p.stormSense }
  let d := d.houseChanges before .setup
  { d with walker := { d.walker with established := true } }

/-- SETUP (R187, R188). -/
def Device.setup (p : SetupParams) (mark : Option Word) (d : Device) : Device × Reply :=
  match setupPlanOf d.regs.commonSize.toNat p with
  | none => (d, .refusal .badParam 1)
  | some plan =>
    let d := d.setupReread mark
    let same := d.journal.sameRegion plan.region
    if !same && d.journal.mayNotMove then (d, .refusal .wrongState 1)
    else (d.acceptSetup plan, { code := .done, clamped := plan.clamped, words := [if same then 0 else 1] })

/-! ## The second pulse (R163) -/

/-- The encoding timer of an encoder at a second pulse (R18). -/
def Encoder.pulse (limit : Nat) (e : Encoder) : Encoder :=
  { e with current := e.current.map (fun c => { c with timer := Timer.tick limit c.timer }) }

/-- Every timer of the device at a second pulse, and the Journal Writer's re-read (R163). -/
def Device.pulseTimers (d : Device) : Device :=
  { d with
    nodes := Table.mapVals (fun _ n => n.pulse) d.nodes
    rooms := Table.mapVals (fun _ r => { r with session := Timer.tick (60 * d.sessionLimit.getD 10) r.session }) d.rooms
    creds := { d.creds with encoders := Table.mapVals (fun _ e => e.pulse (d.creds.encodingTimeout.getD 30)) d.creds.encoders }
    journal := d.journal.secondReread }

/-- The minute tick where it is still due. -/
def Device.tickIfDue (d : Device) : Device :=
  if d.clock.tickDue then d.minuteTick else d

/-- The second pulse (R163, R178): a tick still due is taken first; timers count, the page is published, and the second count rises.
(DESIGN CHOICE, log entry 15) -/
def State.secondPulse (s : State) : State :=
  (((s.onDevice Device.tickIfDue).onDevice Device.pulseTimers).publish).onDevice (fun d => { d with clock := d.clock.pulse })

/-! ## The resets -/

/-- Board memory with the writes that had been accepted when a reset stopped the rest (R137, R190). The last write of the block in hand is
its STAMP (R183), and a reset finds that block not stamped. -/
def State.acceptUpTo (s : State) (p : PortProgress) : State :=
  let block : List PortWrite :=
    match s.dev.walker.walk with
    | .walking _ _ (.writing w) => (w.cancels.flatten ++ w.own).dropLast
    | _ => []
  { s with
    mem := Memory.accept s.mem
      (block.take p.block ++ s.dev.walker.page.take p.page ++ s.dev.placementWrites.take p.placement) }

/-- The Chain Walker after a board or soft reset (R190): a walk in progress stops at its block with cause RESET. -/
def Walker.reset (w : Walker) (established : Bool) : Walker :=
  match w.walk with
  | .idle => { w with established := established, settlements := [], page := [] }
  | .walking block _ _ =>
    { walk := .idle, lastBlock := block, lastEnd := .reset, established := established, settlements := [], page := [] }

/-- A segment after a board or soft reset (R162). -/
def Segment.reset (g : Segment) (settings : Option SegmentSettings) : Segment :=
  { g with settings := settings, queue := [], exchange := none, attention := [], presence := 1, lastServed := 0 }

/-- What a board reset and a soft reset do alike: credentials, rooms and nodes (R27, R43, R62, R84, R104, R162). -/
def Device.resetRunning (d : Device) : Device :=
  let d := d.resetCredentials
  { d with
    rooms := Table.mapVals (fun _ r => r.reset) d.rooms
    nodes := Table.mapVals (fun _ n => n.reset) d.nodes
    reports := [] }

/-- RESET_N asserted (R190); nothing while it is held already. -/
def Device.boardReset (d : Device) : Device :=
  let modes := d.modes
  let d := d.resetRunning
  { d with
    regs := { commonBase := 0, commonSize := 0, status := 0, alertMask := 0, alertEnable := false }
    resetHeld := some modes
    walker := d.walker.reset false
    segments := d.segments.map (fun g => g.reset none)
    journal := d.journal.boardReset }

/-- A soft reset (R190): STATUS is cleared and the other registers, ALERT_ENABLE among them (R177), are kept. -/
def Device.softReset (d : Device) : Device :=
  let d := d.resetRunning
  { d with
    regs := { d.regs with status := 0 }
    walker := d.walker.reset d.walker.established
    segments := d.segments.map (fun g => g.reset g.settings)
    journal := d.journal.softReset }

/-- RESET_N released (R173): the changes of each mode's active value since it was asserted are handed on, with cause RESET. -/
def Device.releaseReset (d : Device) : Device :=
  match d.resetHeld with
  | none => d
  | some before => Device.houseChanges { d with resetHeld := none } before .reset

/-- POWER_ON (R190). Of board memory nothing is known then. -/
def State.powerOn (s : State) (fire storm : Level) : State :=
  { s with dev := Device.initial fire storm, mem := [] }

/-- BOARD_RESET. -/
def State.boardReset (s : State) (p : PortProgress) : State :=
  if s.dev.resetHeld.isSome then s else (s.acceptUpTo p).onDevice Device.boardReset

/-- A write to CONTROL (R177, R193): ALERT_ENABLE is taken from the written word, and with SOFT_RESET at 1 in it a soft reset follows in the
same step. It is ignored while RESET_N is held (R174). -/
def State.writeControl (s : State) (value : Word) (p : PortProgress) : State :=
  if s.dev.resetHeld.isSome then s
  else
    let t := s.onDevice (fun d => d.writeAlertEnable (controlEnable value))
    if controlReset value then (t.acceptUpTo p).onDevice Device.softReset else t

end Sys2Proof.Machine
end

