-- ==== Sys2Proof/Machine/CardCommands.lean ====
section
/-! DEFINITION. The meanings of the card orders. -/

namespace Sys2Proof.Machine

/-- ISSUE_CARD (R11, R12). -/
def execIssueCard (encSeg encAddr serial kind room validFrom validUntil privileges supersede : Word) (s : State) :
    Host.Outcome State Fault Refusal :=
  commit s (fun t => t.onDevice (fun d => d.runOrder .issueCard 9 
    (Device.issueCard encSeg encAddr serial kind room validFrom validUntil privileges supersede)))

/-- REVOKE_CARD (R21). -/
def execRevokeCard (serial denyUnknown : Word) (s : State) : Host.Outcome State Fault Refusal :=
  commit s (fun t => t.onDevice (fun d => d.runOrder .revokeCard 2 (Device.revokeCard serial denyUnknown)))

/-- EXTEND_CARD (R24). -/
def execExtendCard (serial validUntil : Word) (s : State) : Host.Outcome State Fault Refusal :=
  commit s (fun t => t.onDevice (fun d => d.runOrder .extendCard 2 (Device.extendCard serial validUntil)))

/-- SUSPEND_CARD (R25). -/
def execSuspendCard (serial : Word) (s : State) : Host.Outcome State Fault Refusal :=
  commit s (fun t => t.onDevice (fun d => d.runOrder .suspendCard 1 (Device.moveCard .active .suspended .suspended serial)))

/-- RESUME_CARD (R25). -/
def execResumeCard (serial : Word) (s : State) : Host.Outcome State Fault Refusal :=
  commit s (fun t => t.onDevice (fun d => d.runOrder .resumeCard 1 (Device.moveCard .suspended .active .resumed serial)))

/-- READ_CARD (R26). -/
def execReadCard (serial : Word) (s : State) : Host.Outcome State Fault Refusal :=
  commit s (fun t => t.onDevice (fun d => d.runOrder .readCard 1 (Device.readCard serial)))

end Sys2Proof.Machine
end

