-- ==== Sys2Proof/Machine/DoorCommands.lean ====
section
/-! DEFINITION. The meanings of the door orders and of the door timers. -/

namespace Sys2Proof.Machine

/-- A DOOR_COMMAND of action RELEASE (R75), and of one whose action names nothing. -/
def execDoorCommandRelease (seg addr action endMinute : Word) (s : State) : Host.Outcome State Fault Refusal :=
  commit s (fun t => t.onDevice (fun d => d.runOrder .doorCommand 4 (fun _ x => x.doorCommand seg addr action endMinute)))

/-- A DOOR_COMMAND of action RELOCK (R75). -/
def execDoorCommandRelock (seg addr action endMinute : Word) (s : State) : Host.Outcome State Fault Refusal :=
  commit s (fun t => t.onDevice (fun d => d.runOrder .doorCommand 4 (fun _ x => x.doorCommand seg addr action endMinute)))

/-- A DOOR_COMMAND of action HOLD (R76). -/
def execDoorCommandHold (seg addr action endMinute : Word) (s : State) : Host.Outcome State Fault Refusal :=
  commit s (fun t => t.onDevice (fun d => d.runOrder .doorCommand 4 (fun _ x => x.doorCommand seg addr action endMinute)))

/-- CLEAR_ALARM (R74). -/
def execClearAlarm (seg addr : Word) (s : State) : Host.Outcome State Fault Refusal :=
  commit s (fun t => t.onDevice (fun d => d.runOrder .clearAlarm 2 (fun _ x => x.clearAlarm seg addr)))

/-- RELEASE_TIMER_EXPIRY (R70): nothing where the timer is not due. -/
def execReleaseTimerExpiry (seg addr : Nat) (s : State) : Host.Outcome State Fault Refusal :=
  commit s (fun t => t.onDevice (fun d => d.doorEvent (nodeKey seg addr) (fun _ r =>
    if Timer.isDue r.releaseTimer then r.releaseExpiry else .same r)))

/-- HELD_TIMER_EXPIRY (R71): nothing where the timer is not due. -/
def execHeldTimerExpiry (seg addr : Nat) (s : State) : Host.Outcome State Fault Refusal :=
  commit s (fun t => t.onDevice (fun d => d.doorEvent (nodeKey seg addr) (fun _ r =>
    if Timer.isDue r.heldTimer then r.heldExpiry else .same r)))

/-- ALARM_DELAY_EXPIRY (R73): nothing where the timer is not due. -/
def execAlarmDelayExpiry (seg addr : Nat) (s : State) : Host.Outcome State Fault Refusal :=
  commit s (fun t => t.onDevice (fun d => d.doorEvent (nodeKey seg addr) (fun n r =>
    if Timer.isDue r.delayTimer then r.delayExpiry n.state.isOut else .same r)))

end Sys2Proof.Machine
end

