-- ==== Sys2Proof/Machine/HouseCommands.lean ====
section
/-! DEFINITION. The meanings of SETUP, of the clock and of the house modes.An event that the state does not
have, such as an answer with no exchange in progress, changes nothing. (DESIGN CHOICE, log entry 2) -/

namespace Sys2Proof.Machine

/-- SETUP (R187, R188). -/
def execSetup (p : SetupParams) (mark : Option Word) (s : State) : Host.Outcome State Fault Refusal :=
  commit s (fun t => t.onDevice (fun d => d.runOrder .setup 32 (fun _ x => x.setup p mark)))

/-- SET_CLOCK (R165). -/
def execSetClock (minute second : Word) (s : State) : Host.Outcome State Fault Refusal :=
  commit s (fun t => t.onDevice (fun d => d.runOrder .setClock 2 (fun _ x => x.setClock minute second)))

/-- HOUSE_MODE (R172). -/
def execHouseMode (mode action : Word) (s : State) : Host.Outcome State Fault Refusal :=
  commit s (fun t => t.onDevice (fun d => d.runOrder .houseMode 2 (fun _ x => x.houseMode mode action)))

/-- SECOND_PULSE (R163, R178). -/
def execSecondPulse (s : State) : Host.Outcome State Fault Refusal :=
  commit s State.secondPulse

/-- MINUTE_TICK (R163, R77): nothing where the second count has not passed 59. -/
def execMinuteTick (s : State) : Host.Outcome State Fault Refusal :=
  commit s (fun t => t.onDevice (fun d => d.tickIfDue))

/-- INPUT_EDGE (R168, R169). -/
def execInputEdge (pin : Pin) (level : Level) (s : State) : Host.Outcome State Fault Refusal :=
  commit s (fun t => t.onDevice (fun d => d.inputEdge pin level))

/-- INPUT_SETTLED (R168, R169). -/
def execInputSettled (pin : Pin) (s : State) : Host.Outcome State Fault Refusal :=
  commit s (fun t => t.onDevice (fun d => d.inputSettled pin))

end Sys2Proof.Machine
end

