-- ==== Sys2Proof/Machine/LineCommands.lean ====
section
/-! DEFINITION. The meanings of the turns of a segment and of what nodes answer. An event that the state does not
have, such as an answer with no exchange in progress, changes nothing. (DESIGN CHOICE, log entry 2) -/

namespace Sys2Proof.Machine

/-- SEGMENT_TURN (R150). -/
def execSegmentTurn (seg : Nat) (s : State) : Host.Outcome State Fault Refusal :=
  commit s (fun t => t.onDevice (fun d => d.turn seg))

/-- MISS (R139, R159). -/
def execMiss (seg : Nat) (frame : Option (List Byte)) (undeliveredFirst : Bool) (s : State) : Host.Outcome State Fault Refusal :=
  commit s (fun t => t.onDevice (fun d => d.miss seg frame undeliveredFirst))

/-- STRAY_FRAME (R139): the frame is discarded and counted nowhere. -/
def execStrayFrame (seg : Nat) (frame : List Byte) (s : State) : Host.Outcome State Fault Refusal :=
  commit s (fun t =>
    let _ := (seg, frame)
    t)

/-- NOTHING (R158). -/
def execNothing (seg : Nat) (attention : Bool) (s : State) : Host.Outcome State Fault Refusal :=
  commit s (fun t => t.onDevice (fun d => d.answer seg attention none))

/-- PRESENT (R47, R61). -/
def execPresent (seg : Nat) (attention : Bool) (seq : BitVec 4) (image : CardImage) (s : State) :
    Host.Outcome State Fault Refusal :=
  commit s (fun t => t.onDevice (fun d => d.answer seg attention (some (seq, .present image))))

/-- CONTACT (R68, R69). -/
def execContact (seg : Nat) (attention : Bool) (seq : BitVec 4) (position : Byte) (s : State) : Host.Outcome State Fault Refusal :=
  commit s (fun t => t.onDevice (fun d => d.answer seg attention (some (seq, contactBody position))))

/-- TALLY (R95). -/
def execTally (seg : Nat) (attention : Bool) (seq : BitVec 4) (position : Byte) (pairs : List Byte) (s : State) :
    Host.Outcome State Fault Refusal :=
  commit s (fun t => t.onDevice (fun d => d.answer seg attention (some (seq, tallyBody position pairs))))

/-- BUTTON (R35, R36). -/
def execButton (seg : Nat) (attention : Bool) (seq : BitVec 4) (value : Byte) (s : State) : Host.Outcome State Fault Refusal :=
  commit s (fun t => t.onDevice (fun d => d.answer seg attention (some (seq, buttonBody value))))

/-- ENC_RESULT (R16). -/
def execEncResult (seg : Nat) (attention : Bool) (seq : BitVec 4) (code : Byte) (s : State) :
    Host.Outcome State Fault Refusal :=
  commit s (fun t => t.onDevice (fun d => d.answer seg attention (some (seq, resultBody code))))

end Sys2Proof.Machine
end

