-- ==== Sys2Proof/Machine/MinibarCommands.lean ====
section
/-! DEFINITION. The meanings of the minibar, folio and tariff orders, and of the session limit. -/

namespace Sys2Proof.Machine

/-- SET_SLOTS (R101). -/
def execSetSlots (room : Word) (slots : List (Word × Word)) (s : State) : Host.Outcome State Fault Refusal :=
  commit s (fun t => t.onDevice (fun d => d.runOrder .setSlots 25 (fun _ x => x.setSlots room slots)))

/-- POST_FOLIO (R102). -/
def execPostFolio (room amount : Word) (s : State) : Host.Outcome State Fault Refusal :=
  commit s (fun t => t.onDevice (fun d => d.runOrder .postFolio 2 (fun _ x => x.postFolio room amount)))

/-- SET_CEILING (R103). -/
def execSetCeiling (room ceiling : Word) (s : State) : Host.Outcome State Fault Refusal :=
  commit s (fun t => t.onDevice (fun d => d.runOrder .setCeiling 2 (fun _ x => x.setCeiling room ceiling)))

/-- SET_TARIFF (R106). -/
def execSetTariff (target index value taxClass : Word) (s : State) : Host.Outcome State Fault Refusal :=
  commit s (fun t => t.onDevice (fun d => d.runOrder .setTariff 4 (fun _ x => x.setTariff target index value taxClass)))

/-- SESSION_LIMIT (R93): nothing where no session of the room has its timer due. -/
def execSessionLimit (room : Nat) (s : State) : Host.Outcome State Fault Refusal :=
  commit s (fun t => t.onDevice (fun d => d.sessionExpired room))

end Sys2Proof.Machine
end

