-- ==== Sys2Proof/Machine/NodeCommands.lean ====
section
/-! DEFINITION. The meanings of the node orders, and of the encoding and retry timers.An event that the state does not
have, such as an answer with no exchange in progress, changes nothing. (DESIGN CHOICE, log entry 2) -/

namespace Sys2Proof.Machine

/-- DEFINE_NODE (R64, R141, R142). -/
def execDefineNode (p : NodeParams) (door : DoorParams) (s : State) : Host.Outcome State Fault Refusal :=
  commit s (fun t => t.onDevice (fun d => d.runOrder .defineNode (if doorKindWord p.kind then 18 else 8) 
    (fun _ x => x.defineNode p door)))

/-- REMOVE_NODE (R143). -/
def execRemoveNode (seg addr : Word) (s : State) : Host.Outcome State Fault Refusal :=
  commit s (fun t => t.onDevice (fun d => d.runOrder .removeNode 2 (fun _ x => x.removeNode seg addr)))

/-- RESTORE_NODE (R144). -/
def execRestoreNode (seg addr : Word) (s : State) : Host.Outcome State Fault Refusal :=
  commit s (fun t => t.onDevice (fun d => d.runOrder .restoreNode 2 (fun _ x => x.restoreNode seg addr)))

/-- READ_NODE (R145). -/
def execReadNode (seg addr : Word) (s : State) : Host.Outcome State Fault Refusal :=
  commit s (fun t => t.onDevice (fun d => d.runOrder .readNode 2 (fun _ x => x.readNode seg addr)))

/-- ENCODING_TIMEOUT (R18): nothing where the encoder has no encoding timer due. -/
def execEncodingTimeout (seg addr : Nat) (s : State) : Host.Outcome State Fault Refusal :=
  commit s (fun t => t.onDevice (fun d => d.encodingExpired (nodeKey seg addr)))

/-- RETRY_TIMER_EXPIRY (R160): nothing where the node is not in RETRY_WAIT with its timer due. -/
def execRetryTimerExpiry (seg addr : Nat) (s : State) : Host.Outcome State Fault Refusal :=
  commit s (fun t => t.onDevice (fun d => d.retryExpired (nodeKey seg addr)))

end Sys2Proof.Machine
end

