-- ==== Sys2Proof/Machine/PortCommands.lean ====
section
/-! DEFINITION. The meanings of the register writes, of the walk, and of what happens on the manager port. An event that the state does not
have, such as an answer with no exchange in progress, changes nothing. (DESIGN CHOICE, log entry 2) -/

namespace Sys2Proof.Machine

/-- ALERT_ENABLE (R177): a CONTROL write. A word with SOFT_RESET at 1 belongs to that row; under this one its soft reset finds none of the
outstanding writes accepted. (DESIGN CHOICE, log entry 17) -/
def execAlertEnable (value : Word) (s : State) : Host.Outcome State Fault Refusal :=
  commit s (fun t => t.writeControl value { block := 0, page := 0, placement := 0 })

/-- REGISTER_WRITE (R174): a write to ALERT_MASK. -/
def execRegisterWrite (value : Word) (s : State) : Host.Outcome State Fault Refusal :=
  commit s (fun t => t.onDevice (fun d => d.writeRegister (fun x => x.writeMask value)))

/-- COMMON_BASE (R175). -/
def execCommonBase (value : Word) (s : State) : Host.Outcome State Fault Refusal :=
  commit s (fun t => t.onDevice (fun d => d.writeRegister (fun x => x.writeBase value)))

/-- COMMON_SIZE (R175). -/
def execCommonSize (value : Word) (s : State) : Host.Outcome State Fault Refusal :=
  commit s (fun t => t.onDevice (fun d => d.writeRegister (fun x => x.writeSize value)))

/-- CHAIN_HEAD_START (R180): a write of a value other than 0. -/
def execChainHeadStart (value : Word) (s : State) : Host.Outcome State Fault Refusal :=
  commit s (fun t => t.onDevice (fun d => d.writeRegister (fun x => x.writeChainHead value)))

/-- CHAIN_HEAD_ABORT (R180): a write of 0. -/
def execChainHeadAbort (s : State) : Host.Outcome State Fault Refusal :=
  commit s (fun t => t.onDevice (fun d => d.writeRegister (fun x => x.writeChainHead 0)))

/-- STATUS_CLEAR (R176). -/
def execStatusClear (value : Word) (s : State) : Host.Outcome State Fault Refusal :=
  commit s (fun t => t.onDevice (fun d => d.writeRegister (fun x => x.clearStatus value)))

/-- BLOCK_CHECK (R181, R182). -/
def execBlockCheck (header : Header) (kindParam : Word) (s : State) : Host.Outcome State Fault Refusal :=
  commit s (fun t => t.checkBlock header kindParam)

/-- LINK_REREAD (R185). -/
def execLinkReread (link : Word) (s : State) : Host.Outcome State Fault Refusal :=
  commit s (fun t => t.rereadLink link)

/-- SETTLEMENT_WRITE (R184). -/
def execSettlementWrite (s : State) : Host.Outcome State Fault Refusal :=
  commit s State.writeSettlement

/-- MEMORY_ERROR (R186). -/
def execMemoryError (access : PortAccess) (accepted : Nat) (s : State) : Host.Outcome State Fault Refusal :=
  commit s (fun t => t.portError access accepted)

/-- PLACEMENT_COMPLETE (R119). -/
def execPlacementComplete (s : State) : Host.Outcome State Fault Refusal :=
  commit s State.completePlacement

/-- READ_MARK_REREAD (R121, R122). -/
def execReadMarkReread (value : Word) (s : State) : Host.Outcome State Fault Refusal :=
  commit s (fun t => t.onDevice (fun d => d.rereadMark value))

end Sys2Proof.Machine
end

