-- ==== Sys2Proof/Machine/ResetCommands.lean ====
section
/-! DEFINITION. The meanings of the resets. -/

namespace Sys2Proof.Machine

/-- POWER_ON (R190, R168): every block takes its power-on state. -/
def execPowerOn (fire storm : Level) (s : State) : Host.Outcome State Fault Refusal :=
  commit s (fun t => t.powerOn fire storm)

/-- BOARD_RESET (R190): RESET_N is asserted. -/
def execBoardReset (progress : PortProgress) (s : State) : Host.Outcome State Fault Refusal :=
  commit s (fun t => t.boardReset progress)

/-- RESET_N_RELEASE (R173). -/
def execResetNRelease (s : State) : Host.Outcome State Fault Refusal :=
  commit s (fun t => t.onDevice Device.releaseReset)

/-- SOFT_RESET (R177, R190): a CONTROL write, which acts by its word. -/
def execSoftReset (value : Word) (progress : PortProgress) (s : State) : Host.Outcome State Fault Refusal :=
  commit s (fun t => t.writeControl value progress)

end Sys2Proof.Machine
end

