-- ==== Sys2Proof/Machine/RoomCommands.lean ====
section
/-! DEFINITION. The meanings of the room orders. -/

namespace Sys2Proof.Machine

/-- DEFINE_ROOM (R32, R33). -/
def execDefineRoom (room code doorSeg doorAddr barSeg barAddr grace openFloor defaultCeiling : Word) (s : State) :
    Host.Outcome State Fault Refusal :=
  commit s (fun t => t.onDevice (fun d => d.runOrder .defineRoom 9 
    (fun _ x => x.defineRoom room code doorSeg doorAddr barSeg barAddr grace openFloor defaultCeiling)))

/-- CHECK_IN (R37). -/
def execCheckIn (room source ceiling : Word) (s : State) : Host.Outcome State Fault Refusal :=
  commit s (fun t => t.onDevice (fun d => d.runOrder .checkIn 3 (fun _ x => x.checkIn room source ceiling)))

/-- CHECK_OUT (R38, R39). -/
def execCheckOut (room : Word) (s : State) : Host.Outcome State Fault Refusal :=
  commit s (fun t => t.onDevice (fun d => d.runOrder .checkOut 1 (Device.checkOut room)))

/-- SET_ROOM_STATE (R41). -/
def execSetRoomState (room newState : Word) (s : State) : Host.Outcome State Fault Refusal :=
  commit s (fun t => t.onDevice (fun d => d.runOrder .setRoomState 2 (fun _ x => x.setRoomState room newState)))

/-- READ_ROOM (R42). -/
def execReadRoom (room : Word) (s : State) : Host.Outcome State Fault Refusal :=
  commit s (fun t => t.onDevice (fun d => d.runOrder .readRoom 1 (fun _ x => x.readRoom room)))

end Sys2Proof.Machine
end

