-- ==== Sys2Proof/Machine/Dispatch.lean ====
section
/-! DEFINITION. The dispatch of a command to its meaning. -/

namespace Sys2Proof.Machine

/-- The effect of a command on everything but the queue of commands that wait. -/
def exec (i : Instr) (s : State) : Host.Outcome State Fault Refusal :=
  match i with
  | .powerOn fire storm => Sys2Proof.Machine.execPowerOn fire storm s
  | .boardReset progress => Sys2Proof.Machine.execBoardReset progress s
  | .resetNRelease => Sys2Proof.Machine.execResetNRelease s
  | .softReset value progress => Sys2Proof.Machine.execSoftReset value progress s
  | .alertEnable value => Sys2Proof.Machine.execAlertEnable value s
  | .registerWrite value => Sys2Proof.Machine.execRegisterWrite value s
  | .commonBase value => Sys2Proof.Machine.execCommonBase value s
  | .commonSize value => Sys2Proof.Machine.execCommonSize value s
  | .chainHeadStart value => Sys2Proof.Machine.execChainHeadStart value s
  | .chainHeadAbort => Sys2Proof.Machine.execChainHeadAbort s
  | .statusClear value => Sys2Proof.Machine.execStatusClear value s
  | .blockCheck header kindParam => Sys2Proof.Machine.execBlockCheck header kindParam s
  | .linkReread link => Sys2Proof.Machine.execLinkReread link s
  | .settlementWrite => Sys2Proof.Machine.execSettlementWrite s
  | .memoryError access accepted => Sys2Proof.Machine.execMemoryError access accepted s
  | .setup p mark => Sys2Proof.Machine.execSetup p mark s
  | .setClock minute second => Sys2Proof.Machine.execSetClock minute second s
  | .houseMode mode action => Sys2Proof.Machine.execHouseMode mode action s
  | .issueCard encSeg encAddr serial kind room validFrom validUntil privileges supersede => Sys2Proof.Machine.execIssueCard encSeg encAddr serial kind room validFrom validUntil privileges supersede s
  | .revokeCard serial denyUnknown => Sys2Proof.Machine.execRevokeCard serial denyUnknown s
  | .extendCard serial validUntil => Sys2Proof.Machine.execExtendCard serial validUntil s
  | .suspendCard serial => Sys2Proof.Machine.execSuspendCard serial s
  | .resumeCard serial => Sys2Proof.Machine.execResumeCard serial s
  | .readCard serial => Sys2Proof.Machine.execReadCard serial s
  | .defineRoom room code doorSeg doorAddr barSeg barAddr grace openFloor defaultCeiling => Sys2Proof.Machine.execDefineRoom room code doorSeg doorAddr barSeg barAddr grace openFloor defaultCeiling s
  | .checkIn room source ceiling => Sys2Proof.Machine.execCheckIn room source ceiling s
  | .checkOut room => Sys2Proof.Machine.execCheckOut room s
  | .setRoomState room newState => Sys2Proof.Machine.execSetRoomState room newState s
  | .readRoom room => Sys2Proof.Machine.execReadRoom room s
  | .doorCommandRelease seg addr action endMinute => Sys2Proof.Machine.execDoorCommandRelease seg addr action endMinute s
  | .doorCommandRelock seg addr action endMinute => Sys2Proof.Machine.execDoorCommandRelock seg addr action endMinute s
  | .doorCommandHold seg addr action endMinute => Sys2Proof.Machine.execDoorCommandHold seg addr action endMinute s
  | .clearAlarm seg addr => Sys2Proof.Machine.execClearAlarm seg addr s
  | .setSlots room slots => Sys2Proof.Machine.execSetSlots room slots s
  | .postFolio room amount => Sys2Proof.Machine.execPostFolio room amount s
  | .setCeiling room ceiling => Sys2Proof.Machine.execSetCeiling room ceiling s
  | .setTariff target index value taxClass => Sys2Proof.Machine.execSetTariff target index value taxClass s
  | .defineNode p door => Sys2Proof.Machine.execDefineNode p door s
  | .removeNode seg addr => Sys2Proof.Machine.execRemoveNode seg addr s
  | .restoreNode seg addr => Sys2Proof.Machine.execRestoreNode seg addr s
  | .readNode seg addr => Sys2Proof.Machine.execReadNode seg addr s
  | .secondPulse => Sys2Proof.Machine.execSecondPulse s
  | .minuteTick => Sys2Proof.Machine.execMinuteTick s
  | .releaseTimerExpiry seg addr => Sys2Proof.Machine.execReleaseTimerExpiry seg addr s
  | .heldTimerExpiry seg addr => Sys2Proof.Machine.execHeldTimerExpiry seg addr s
  | .alarmDelayExpiry seg addr => Sys2Proof.Machine.execAlarmDelayExpiry seg addr s
  | .sessionLimit room => Sys2Proof.Machine.execSessionLimit room s
  | .encodingTimeout seg addr => Sys2Proof.Machine.execEncodingTimeout seg addr s
  | .retryTimerExpiry seg addr => Sys2Proof.Machine.execRetryTimerExpiry seg addr s
  | .inputEdge pin level => Sys2Proof.Machine.execInputEdge pin level s
  | .inputSettled pin => Sys2Proof.Machine.execInputSettled pin s
  | .segmentTurn seg => Sys2Proof.Machine.execSegmentTurn seg s
  | .miss seg frame undeliveredFirst => Sys2Proof.Machine.execMiss seg frame undeliveredFirst s
  | .strayFrame seg frame => Sys2Proof.Machine.execStrayFrame seg frame s
  | .nothing seg attention => Sys2Proof.Machine.execNothing seg attention s
  | .present seg attention seq image => Sys2Proof.Machine.execPresent seg attention seq image s
  | .contact seg attention seq position => Sys2Proof.Machine.execContact seg attention seq position s
  | .tally seg attention seq position pairs => Sys2Proof.Machine.execTally seg attention seq position pairs s
  | .button seg attention seq value => Sys2Proof.Machine.execButton seg attention seq value s
  | .encResult seg attention seq code => Sys2Proof.Machine.execEncResult seg attention seq code s
  | .placementComplete => Sys2Proof.Machine.execPlacementComplete s
  | .readMarkReread value => Sys2Proof.Machine.execReadMarkReread value s

end Sys2Proof.Machine
end

