-- ==== Sys2Proof/Safety.lean ====
section
/-! DEFINITION. What counts as a safe run, in the terms that the statements use: the invariants of the block, each kept by every step, and
the words for an order that has been handed to its owner and answered. -/

namespace Sys2Proof.Machine

/-! ## An order in hand and its answer -/

/-- No report waits: the undelivered reports of a step are taken within it (R155). -/
def State.settled (s : State) : Prop :=
  s.dev.reports = []

/-- The block in hand has been handed to its owner as an order of the kind, and no report waits: the moment at which an order's step is
taken (R182). -/
def Device.orderInHand (d : Device) (kind : OrderKind) (block tag : Word) (abort : Bool) : Prop :=
  d.walker.walk = .walking block abort (.handed kind tag) ∧ d.reports = []

/-- The walker with an order's answer issued: its result words behind `params` parameter words, RESULT and STAMP are outstanding
(R183). -/
def Walker.replied (w : Walker) (block : Word) (abort : Bool) (params : Nat) (r : Reply) : Walker :=
  { w with walk := .walking block abort (.writing (replyWrites block params r)) }

/-- STATUS after a step that changes the journal alone among what feeds it: JOURNAL_STALL is latched where held plus reserved has
come to 48 from below (R133). -/
def stallStatus (before after : Journal) (status : Word) : Word :=
  if before.load < Config.stallMark ∧ Config.stallMark ≤ after.load then status ||| StatusBit.journalStall.mask else status

/-- A node that takes commands at once: it is defined, not FAULTED or RETRY_WAIT, and its segment is not disabled (R155). -/
def Device.reachable (d : Device) (key : Nat) (n : Node) : Prop :=
  Table.find key d.nodes = some n ∧ n.state.isOut = false ∧ (d.segment (keySeg key)).isDisabled = false

/-- Two link words of DEFINE_ROOM name a link (R32): none where the address word is 0, and otherwise a node of the kind, bound to the
room. -/
def Device.linkNamed (d : Device) (kind : NodeKind) (room : Nat) (seg addr : Word) (link : Option Nat) : Prop :=
  (addr = 0 ∧ link = none)
    ∨ (seg.toNat < 8 ∧ 1 ≤ addr.toNat ∧ addr.toNat ≤ 120 ∧ link = some (seg.toNat * 256 + addr.toNat)
        ∧ ∃ n, Table.find (seg.toNat * 256 + addr.toNat) d.nodes = some n ∧ n.kind = kind ∧ n.room = room)

/-- The serials whose issues an encoder holds: that of the encoding in progress, then those of its wait queue (R10). -/
def Encoder.serials (enc : Encoder) : List Word :=
  (enc.current.map (fun c => c.issue.serial)).toList ++ enc.waiting.map (fun i => i.serial)

/-- The issue of a serial stands at one encoder alone. -/
def Device.issueAt (d : Device) (serial : Word) (key : Nat) (enc : Encoder) : Prop :=
  Table.find key d.creds.encoders = some enc ∧ serial ∈ enc.serials
    ∧ ∀ other x, other ≠ key → Table.find other d.creds.encoders = some x → serial ∉ x.serials

/-- Each of some serials has an entry, and where it is in ENCODING its issue stands at one encoder alone, whose node takes commands. -/
def Device.issuesStand (d : Device) (serials : List Word) : Prop :=
  Table.wf d.creds.encoders = true ∧ serials.Nodup
    ∧ ∀ serial ∈ serials, ∃ e, d.entryOf serial = some e
      ∧ (e.state = .encoding → ∃ key enc n, d.issueAt serial key enc ∧ d.reachable key n)

/-- Commands placed in turn for a node of a segment (R155). -/
def placedFor (segments : List Segment) (key : Nat) (commands : List Command) : List Segment :=
  commands.foldl (fun gs c => gs.set (key / 256) ((gs.getD (key / 256) Segment.initial).place (key % 256) c)) segments

/-- One serial retired by revoke, supersession or withdrawal (R17, R20, R21, R23): its entry is FREE, its serial denied, its room's guest card
count the less for a GUEST entry, and the CARD record written. An entry in ENCODING is cancelled: its block settles with CANCELLED and result
words 0; a waiting issue leaves its queue, whose others keep their order; of one in progress ABANDON is handed, and the next that waits
starts. Nothing else changes. -/
def Device.retired (d u : Device) (serial : Word) (event : CardEvent) (tag : Word) (settled : List Settlement) : Prop :=
  ∃ e, d.entryOf serial = some e ∧ u.entryOf serial = none ∧ (∀ other, other ≠ serial → u.entryOf other = d.entryOf other)
    ∧ u.creds.deny = denyAppend serial d.creds.deny
    ∧ (∀ room, Table.find room u.rooms = (Table.find room d.rooms).map (fun r =>
        if e.kind = .guest ∧ room = e.room then { r with guestCount := r.guestCount - 1 } else r))
    ∧ u.journal = (d.notable (.card serial event e.room tag)).journal
    ∧ ((e.state ≠ .encoding ∧ settled = [] ∧ u.creds.encoders = d.creds.encoders ∧ u.segments = d.segments
        ∧ u.creds.nextJob = d.creds.nextJob)
      ∨ (e.state = .encoding ∧ ∃ key enc after issue commands, d.issueAt serial key enc ∧ issue.serial = serial
        ∧ settled = [{ block := issue.block, words := [0, 0], code := .cancelled }]
        ∧ Table.find key u.creds.encoders = some after
        ∧ (∀ other, other ≠ key → Table.find other u.creds.encoders = Table.find other d.creds.encoders)
        ∧ u.segments = placedFor d.segments key commands
        ∧ ((issue ∈ enc.waiting ∧ after = { enc with waiting := enc.waiting.filter (fun i => decide (i.serial ≠ serial)) }
            ∧ commands = [] ∧ u.creds.nextJob = d.creds.nextJob)
          ∨ ∃ c, enc.current = some c ∧ issue = c.issue
            ∧ ((enc.waiting = [] ∧ after = { enc with current := none } ∧ commands = [.abandon]
                ∧ u.creds.nextJob = d.creds.nextJob)
              ∨ ∃ next rest, enc.waiting = next :: rest ∧ commands = [.abandon, .encode next.image d.creds.nextJob]
                ∧ after = { enc with current := some { issue := next, timer := none, job := d.creds.nextJob }, waiting := rest }
                ∧ u.creds.nextJob = d.creds.nextJob + 1))))
    ∧ u = { d with
        creds := { d.creds with
          entries := u.creds.entries, deny := u.creds.deny, encoders := u.creds.encoders, nextJob := u.creds.nextJob }
        rooms := u.rooms, segments := u.segments, journal := u.journal }

/-- Serials retired in turn, with the settlements of the encodings cancelled, in order. -/
def Device.retiredAll (event : CardEvent) (tag : Word) (d u : Device) : List Word → List Settlement → Prop
  | [], settled => u = d ∧ settled = []
  | serial :: rest, settled => ∃ mid first more,
      d.retired mid serial event tag first ∧ Device.retiredAll event tag mid u rest more ∧ settled = first ++ more

/-- Every issue of an encoder failed by an encoder fault (R15, R19), the encoding in progress first and then the wait queue in its order: the
entries are FREE, the serials denied before are denied again, the guest card counts fall, each CARD ISSUE_FAILED carries its entry's tag, and
each block settles with ENCODER_FAULT and result words 0. -/
def Device.encoderFaulted (d u : Device) (key : Nat) (enc : Encoder) (failed : List (Issue × Entry)) : Prop :=
  (∀ serial, u.entryOf serial = if serial ∈ failed.map (fun p => p.1.serial) then none else d.entryOf serial)
    ∧ u.creds.deny = failed.foldl (fun deny p => if p.2.deniedBefore then denyAppend p.1.serial deny else deny) d.creds.deny
    ∧ (∀ room, Table.find room u.rooms = (Table.find room d.rooms).map (fun r => { r with
        guestCount := r.guestCount - (failed.filter (fun p => decide (p.2.kind = .guest) && decide (p.2.room = room))).length }))
    ∧ Table.find key u.creds.encoders = some { enc with current := none, waiting := [] }
    ∧ (∀ other, other ≠ key → Table.find other u.creds.encoders = Table.find other d.creds.encoders)
    ∧ u.journal = (failed.foldl (fun d p => d.notable (.card p.1.serial .issueFailed p.2.room p.2.tag)) d).journal
    ∧ u = { d with
        walker := { d.walker with settlements := d.walker.settlements ++ failed.map (fun p =>
          { block := p.1.block, words := [0, 0], code := .encoderFault }) }
        creds := { d.creds with entries := u.creds.entries, deny := u.creds.deny, encoders := u.creds.encoders }
        rooms := u.rooms, journal := u.journal }

/-- The issues of an encoder with their entries. -/
def Device.issuesOf (d : Device) (enc : Encoder) (failed : List (Issue × Entry)) : Prop :=
  failed.map (fun p => p.1) = (enc.current.map (fun c => c.issue)).toList ++ enc.waiting ∧ enc.serials.Nodup
    ∧ ∀ p ∈ failed, d.entryOf p.1.serial = some p.2

/-- An event at the door of a node that takes commands: the record there becomes `after`, the commands take their places for the node's
address in turn, the DOOR records with the state after are handed to the journal, HOLD_END as ROUTINE and the others as NOTABLE, DOOR_ALARM
is latched for an alarm (R72, R83, R155), and but for the walker nothing else changes. -/
def State.doorMoved (s t : State) (w : Walker) (key : Nat) (n : Node) (after : Door) (commands : List Command) (events : List DoorEvent)
    (alarm : Bool) : Prop :=
  Table.find key t.dev.nodes = some { n with door := some after }
    ∧ (∀ other, other ≠ key → Table.find other t.dev.nodes = Table.find other s.dev.nodes)
    ∧ t.dev.segments = (if commands = [] then s.dev.segments else
        s.dev.segments.set (key / 256) (commands.foldl (fun g c => g.place (key % 256) c) (s.dev.segment (key / 256))))
    ∧ t.dev.journal = (events.foldl (fun d e =>
        d.record (.door key e after.state) {} (if e = .holdEnd then .routine else .notable)) s.dev).journal
    ∧ t = { s with dev := { s.dev with
        regs := { s.dev.regs with
          status := stallStatus s.dev.journal t.dev.journal (if alarm then s.dev.regs.status ||| 128 else s.dev.regs.status) }
        walker := w
        nodes := t.dev.nodes
        segments := t.dev.segments
        journal := t.dev.journal } }

/-- Ten door words give settings (R64): the identities by their codes, the hours and times clamped, a release time of 0 taking 5 s and a
held limit of 0 taking 60 s; `clamped` says whether one was out of its range. -/
def doorWordsGive (q : DoorParams) (st : DoorSettings) (clamped : Bool) : Prop :=
  privilegesOf q.admitSet = some st.admitSet ∧ RelockMode.ofCode q.relockMode.toNat = some st.relock
    ∧ ResponseMode.ofCode q.forcedMode.toNat = some st.forcedMode ∧ RetryDelay.ofCode q.forcedDelay.toNat = some st.forcedDelay
    ∧ ResponseMode.ofCode q.heldMode.toNat = some st.heldMode ∧ RetryDelay.ofCode q.heldDelay.toNat = some st.heldDelay
    ∧ st.hoursOpen = min 1439 q.hoursOpen.toNat ∧ st.hoursClose = min 1439 q.hoursClose.toNat
    ∧ st.releaseTime = (if q.releaseTime = 0 then 5 else min 60 q.releaseTime.toNat)
    ∧ st.heldLimit = (if q.heldLimit = 0 then 60 else max 10 (min 600 q.heldLimit.toNat))
    ∧ clamped = decide (1439 < q.hoursOpen.toNat ∨ 1439 < q.hoursClose.toNat ∨ 60 < q.releaseTime.toNat
        ∨ (0 < q.heldLimit.toNat ∧ q.heldLimit.toNat < 10) ∨ 600 < q.heldLimit.toNat)

/-- What gives the input or mode of a pin the value `after` (R168, R169, R172): an edge to a new level, a level that has held for its
second, and a HOUSE_MODE order, with the cause of the record it may make and the walker after it. -/
def State.houseEvent (s : State) (pin : Pin) (c : Instr) (after : House) (cause : HouseCause) (w : Walker) : Prop :=
  (∃ level, c = .inputEdge pin level ∧ s.settled ∧ (s.dev.house pin).sampled ≠ level ∧ cause = .pin pin ∧ w = s.dev.walker
      ∧ after = { s.dev.house pin with
          sampled := level
          settling := true
          latch := (s.dev.house pin).latch || decide ((s.dev.house pin).sense = .bothLatch
            ∨ ((s.dev.house pin).sense = .riseLatch ∧ level = .high) ∨ ((s.dev.house pin).sense = .fallLatch ∧ level = .low)) })
    ∨ (c = .inputSettled pin ∧ s.settled ∧ (s.dev.house pin).settling = true ∧ cause = .pin pin ∧ w = s.dev.walker
        ∧ after = { s.dev.house pin with settled := some (s.dev.house pin).sampled, settling := false })
    ∨ (∃ block tag abort action, c = .houseMode (match pin with
            | .fire => 0
            | .storm => 1) action
        ∧ s.dev.orderInHand .houseMode block tag abort ∧ cause = .order
        ∧ ((action = 1 ∧ after = { s.dev.house pin with order := true })
          ∨ (action = 0 ∧ after = { s.dev.house pin with
              order := false
              latch := (s.dev.house pin).latch && !(s.dev.house pin).sense.latches }))
        ∧ w = s.dev.walker.replied block abort 2
            (.done [flagWord (s.dev.house pin).active, flagWord after.active, flagWord after.inputPart, flagWord after.order]))

/-- Every door told of one event in a step, with what the event does at each: the records become theirs, the commands of a node that is not
FAULTED or RETRY_WAIT take their places, and the DOOR records follow what `base` has written, the doors in rising order of their nodes (log
entry 40). -/
def Device.doorsMoved (d u base : Device) (o : Nat → DoorOut) : Prop :=
  (∀ key, Table.find key u.nodes = (Table.find key d.nodes).map (fun n => { n with door := n.door.map (fun _ => (o key).door) }))
    ∧ u.segments = d.nodes.foldl (fun gs p =>
        if p.2.door.isSome && !p.2.state.isOut then placedFor gs p.1 (o p.1).commands else gs) d.segments
    ∧ u.journal = (d.nodes.foldl (fun (x : Device) p => if p.2.door.isSome then (o p.1).events.foldl (fun (y : Device) e =>
        y.record (.door p.1 e (o p.1).door.state) {} (if e = .holdEnd then .routine else .notable)) x else x) base).journal

/-- What a mode's new value does at a door (R80, R81, R82). A hold, and a fire-saved hold, that is over ends with RELOCK, DOOR HOLD_END and the
door coming to rest, hold unsent as it is (log entry 47), and a running alarm delay timer too (log entry 20). -/
def Door.modeGives (r : Door) (n : Node) (pin : Pin) (active : Bool) (minute : Word) (o : DoorOut) : Prop :=
  match pin, active with
  | .fire, true =>
    ((n.kind = .egressDoor ∨ n.kind = .commonDoor) ∧ (n.state = .online ∨ n.state = .suspect ∨ n.state = .degraded)
        ∧ o = { door := { r with
                  state := .emergency, releaseTimer := none, heldTimer := none, delayTimer := none
                  savedEnd := if r.state = .holdOpen then r.holdEnd else none
                  holdEnd := if r.state = .holdOpen then none else r.holdEnd }
                commands := [.hold] })
      ∨ (¬ ((n.kind = .egressDoor ∨ n.kind = .commonDoor) ∧ (n.state = .online ∨ n.state = .suspect ∨ n.state = .degraded))
        ∧ o = { door := r })
  | .fire, false =>
    (r.state ≠ .emergency ∧ o = { door := r })
      ∨ (r.state = .emergency ∧ ∃ e, r.savedEnd = some e ∧ minute.toNat < e.toNat
        ∧ o = { door := { r with state := .holdOpen, holdEnd := some e, savedEnd := none } })
      ∨ (r.state = .emergency ∧ (∀ e, r.savedEnd = some e → e.toNat ≤ minute.toNat)
        ∧ o = { door := (Door.rest { r with savedEnd := none } n.state.isOut).door, commands := [.relock]
                events := if r.savedEnd = none then [] else [.holdEnd] })
  | .storm, true =>
    (n.kind = .shoreGate ∧ r.state = .released
        ∧ o = { door := { r with state := .locked, releaseTimer := none }, commands := [.relock] })
      ∨ (n.kind = .shoreGate ∧ r.state = .opened ∧ o = { door := { r with releaseTimer := none }, commands := [.relock] })
      ∨ (n.kind = .shoreGate ∧ r.state = .holdOpen
        ∧ o = { door := (Door.rest { r with holdEnd := none } n.state.isOut).door, commands := [.relock], events := [.holdEnd] })
      ∨ (n.kind = .shoreGate ∧ (r.state = .forced ∨ r.state = .held) ∧ r.releaseTimer ≠ none
        ∧ o = { door := { r with releaseTimer := none }, commands := [.relock] })
      ∨ (¬ (n.kind = .shoreGate ∧ (r.state = .released ∨ r.state = .opened ∨ r.state = .holdOpen
          ∨ ((r.state = .forced ∨ r.state = .held) ∧ r.releaseTimer ≠ none))) ∧ o = { door := r })
  | .storm, false => o = { door := r }

/-- What a minute of the property clock does at a door (R77): the end of a hold leaves hold unsent as it is (log entry 47), and coming to rest a
running alarm delay timer (log entry 20). -/
def Door.minuteGives (r : Door) (n : Node) (minute : Word) (o : DoorOut) : Prop :=
  (r.state = .holdOpen ∧ (∃ e, r.holdEnd = some e ∧ e.toNat ≤ minute.toNat)
      ∧ o = { door := (Door.rest { r with holdEnd := none } n.state.isOut).door, commands := [.relock], events := [.holdEnd] })
    ∨ (r.state = .emergency ∧ (∃ e, r.savedEnd = some e ∧ e.toNat ≤ minute.toNat)
      ∧ o = { door := { r with savedEnd := none }, events := [.holdEnd] })
    ∨ ((r.state = .holdOpen → ∀ e, r.holdEnd = some e → minute.toNat < e.toNat)
      ∧ (r.state = .emergency → ∀ e, r.savedEnd = some e → minute.toNat < e.toNat) ∧ o = { door := r })

/-- A mode's change handed on (R171): HOUSE_CHANGE latched, the HOUSE record of both modes before and after, then every door told. Nothing else
changes. -/
def Device.modeTold (d u : Device) (pin : Pin) (before after : HouseModes) (cause : HouseCause) : Prop :=
  ∃ o : Nat → DoorOut,
    (∀ key n r, Table.find key d.nodes = some n → n.door = some r →
      r.modeGives n pin (match pin with
        | .fire => after.fire
        | .storm => after.storm) d.clock.minute (o key))
    ∧ d.doorsMoved u (d.notable (.house before after cause)) o
    ∧ u = { d with
        regs := { d.regs with status := d.regs.status ||| 512 }
        nodes := u.nodes, segments := u.segments, journal := u.journal }

/-- The changes of both modes since `before` handed on, fire first (R171): each HOUSE record shows the other mode as it stands at its place. -/
def Device.modesTold (d u : Device) (before : HouseModes) (cause : HouseCause) : Prop :=
  ∃ (mid : Device) (after : HouseModes), after = { fire := d.fire.active, storm := d.storm.active }
    ∧ (if before.fire = after.fire then mid = d else d.modeTold mid .fire before { before with fire := after.fire } cause)
    ∧ (if before.storm = after.storm then u = mid
      else mid.modeTold u .storm { before with fire := after.fire } after cause)

/-- The changes of a SETUP handed on, with its own cause; none while RESET_N is held (R170, R173). -/
def Device.setupTold (d u : Device) (before : HouseModes) : Prop :=
  if d.resetHeld.isSome then u = d else d.modesTold u before .setup

/-- A node of a segment that a SETUP leaves disabled (R79, R138): it owes no ACK and is passed over no more; unless it is FAULTED it is ABSENT
with its miss count, retries, retry timer and probe at their start, and a door in it that was in service is UNKNOWN, its contact UNSEEN and its
timers stopped, or has its timers stopped in HOLD_OPEN and EMERGENCY. -/
def Node.leftDisabled (n : Node) : Node :=
  if n.state = .faulted then { n with owedAck := none, passOver := 0 }
  else { n with
    state := .absent, misses := 0, retryTimer := none, retries := 0, onProbe := false, owedAck := none, passOver := 0
    door := if n.state = .online ∨ n.state = .suspect ∨ n.state = .degraded then n.door.map (fun r =>
        if r.state = .holdOpen ∨ r.state = .emergency then { r with releaseTimer := none, heldTimer := none, delayTimer := none }
        else { r with state := .unknown, contact := .unseen, releaseTimer := none, heldTimer := none, delayTimer := none })
      else n.door }

/-- Every door of a node that is not FAULTED or RETRY_WAIT stands on a segment that is not disabled, so that its commands are taken. -/
def Device.doorsReachable (d : Device) : Prop :=
  Table.wf d.nodes = true ∧ ∀ key n, Table.find key d.nodes = some n → n.door.isSome = true → n.state.isOut = false →
    (d.segment (key / 256)).isDisabled = false

/-- What a board reset and a soft reset do alike to the credentials, the rooms and the nodes (R27, R43, R62, R84, R104, R162): every
ENCODING entry is FREE, those denied before back in the deny list in ascending order of serial; the encoders are empty; a room's count
falls by its GUEST encodings, its last button signal is none, and a session ends unsettled; every node is ABSENT with its running fields
at their start, and every door UNKNOWN. -/
def Device.runningReset (d t : Device) : Prop :=
  (∀ serial, t.entryOf serial = (d.entryOf serial).filter (fun e => decide (e.state ≠ .encoding)))
    ∧ t.creds.deny = (((d.creds.entries.filter (fun p => decide (p.2.state = .encoding) && p.2.deniedBefore)).map
        (fun p => natWord p.1)).foldl (fun deny serial => denyAppend serial deny) d.creds.deny)
    ∧ (∀ key, Table.find key t.creds.encoders
        = (Table.find key d.creds.encoders).map (fun _ => { current := none, waiting := [], lastResult := none }))
    ∧ (∀ i, Table.find i t.rooms = (Table.find i d.rooms).map (fun r => { r with
        guestCount := r.guestCount - (d.creds.entries.filter (fun p =>
          decide (p.2.state = .encoding) && decide (p.2.kind = .guest) && decide (p.2.room = i))).length
        lastButton := none
        session := none
        unlatchPending := false
        unsettled := r.unsettled || r.bar.inSession
        bar := if r.bar.inSession then r.restState else r.bar }))
    ∧ ∀ key, Table.find key t.nodes = (Table.find key d.nodes).map (fun n => { n with
        state := .absent, misses := 0, passOver := 0, retries := 0, retryTimer := none, onProbe := false, faultOpen := false
        lastSeq := none, owedAck := none, lastVerdict := none, lastTally := none
        door := n.door.map (fun r => { settings := r.settings, state := .unknown, contact := .unseen, releaseTimer := none
                                       heldTimer := none, delayTimer := none, forcedLatch := false, heldLatch := false
                                       holdEnd := none, savedEnd := none, holdUnsent := false }) })

/-- What a block's check finds wrong with it, none where it passes (R181): its address is not a multiple of 16, or not inside the common
area at an offset of 512 or above; its SIZE is not 6 to 64, or its last byte is not inside the area; its STAMP is not NEW. -/
def blockFailure (base size block stamp words : Nat) : Option WalkEnd :=
  if block % 16 ≠ 0 ∨ block < base + 512 ∨ base + size * 4096 ≤ block then some .badPlace
  else if words < 6 ∨ 64 < words ∨ base + size * 4096 < block + 4 * words then some .badSize
  else if stamp ≠ 0 then some .notNew
  else none

/-- A word as board memory holds it at an address, least significant byte first (R191). -/
def Memory.holdsWord (mem : Table Byte) (addr : Nat) (w : Word) : Prop :=
  Memory.read mem addr = some (w.extractLsb' 0 8) ∧ Memory.read mem (addr + 1) = some (w.extractLsb' 8 8)
    ∧ Memory.read mem (addr + 2) = some (w.extractLsb' 16 8) ∧ Memory.read mem (addr + 3) = some (w.extractLsb' 24 8)

/-- The fields of the status page (R178, R194): offset, bytes, value. -/
def Device.pageFields (d : Device) : List (Nat × Nat × Nat) :=
  let mode (h : House) : Nat := (if h.active then 1 else 0) + (if h.inputPart then 2 else 0) + (if h.order then 4 else 0)
  [(0, 4, d.journal.writeMark), (4, 4, d.journal.nextSeq.toNat), (8, 4, d.clock.minute.toNat), (12, 1, d.clock.second),
    (13, 1, if d.clock.valid then 1 else 0), (14, 1, mode d.fire), (15, 1, mode d.storm), (16, 2, d.creds.entries.length),
    (18, 2, d.creds.deny.length),
    (20, 2, (d.nodes.filter (fun p => decide (p.2.state = .online ∨ p.2.state = .suspect ∨ p.2.state = .degraded))).length),
    (22, 2, (d.nodes.filter (fun p => decide (p.2.state = .faulted ∨ p.2.state = .retryWait))).length),
    (24, 1, d.journal.queue.length), (25, 1, d.journal.reserved), (26, 2, d.journal.suppressed), (28, 4, d.walker.lastBlock.toNat),
    (32, 1, match d.walker.lastEnd with
      | .none => 0
      | .walked => 1
      | .aborted => 2
      | .badPlace => 3
      | .badSize => 4
      | .notNew => 5
      | .readError => 6
      | .writeError => 7
      | .reset => 8)]

/-- The bytes of fields as board memory holds them from a base on, each least significant byte first (R191). -/
def Memory.holdsFields (mem : Table Byte) (base : Nat) (fields : List (Nat × Nat × Nat)) : Prop :=
  ∀ f ∈ fields, ∀ i < f.2.1, Memory.read mem (base + f.1 + i) = some (BitVec.ofNat 8 (f.2.2 / 256 ^ i))

/-! ## The hold queue -/

/-- An attempt of the drain (R126), with a region in force and a record at the head: the placement begins where the head's need is at most
free, and otherwise the drain waits for room and a re-read is made, which is outstanding (log entry 27). -/
def Journal.tries (j : Journal) (drain : Drain) (reread : Option Reread) : Prop :=
  ∃ r h rest, j.region = some r ∧ j.queue = h :: rest
    ∧ (((placementPlan r.size j.writeMark (decide (h.gap ≠ 0)) h.body.length).need ≤ j.freeIn r.size
        ∧ drain = .placing ∧ reread = j.reread)
      ∨ (j.freeIn r.size < (placementPlan r.size j.writeMark (decide (h.gap ≠ 0)) h.body.length).need
        ∧ drain = .waitingRoom ∧ reread = some .attempt))

/-- A record that enters the queue (R126, R128, R131): it stands at the tail with the suppressed count as its gap-before count, which leaves the
suppressed count at 0, and the drain makes an attempt from IDLE and from either waiting state. Nothing else changes. -/
def Journal.entered (j after : Journal) (r : HeldRecord) : Prop :=
  ∃ k drain reread, k = { j with queue := j.queue ++ [{ r with gap := j.suppressed }], suppressed := 0 }
    ∧ after = { k with drain := drain, reread := reread }
    ∧ (((j.drain = .placing ∨ j.drain = .inactive) ∧ drain = j.drain ∧ reread = j.reread)
      ∨ ((j.drain = .idle ∨ j.drain = .waitingRoom ∨ j.drain = .waitingRetry) ∧ k.tries drain reread))

/-- A record that merges into the newest of a queue (R129): a ROUTINE ACCESS record of the same node, serial, verdict and reason, the held one's
repeat count below 255, and it is not being placed. `merged` is the queue after, its repeat count one higher. -/
def Journal.merges (j : Journal) (cls : RecordClass) (body : RecordBody) (merged : List HeldRecord) : Prop :=
  ∃ older last node serial verdict reason card room count card' room' count', j.queue = older ++ [last] ∧ cls = .routine
    ∧ last.body = .access node serial card verdict reason count room ∧ body = .access node serial card' verdict reason count' room'
    ∧ count < 255 ∧ (j.drain = .placing → older ≠ [])
    ∧ merged = older ++ [{ last with body := .access node serial card verdict reason (count + 1) room }]

/-! ## Turns, exchanges and answers -/

/-- A segment that is enabled and has no exchange in progress, and so takes its next turn (R150). -/
def Device.atTurn (d : Device) (seg : Nat) (g : Segment) (st : SegmentSettings) : Prop :=
  d.segment seg = g ∧ seg < d.segments.length ∧ g.settings = some st ∧ st.enabled = true ∧ g.exchange = none

/-- A frame sent to an address (R138, R139, R149, R156): the address's owed ACK rides and is then none, a carried command leaves the
queue, and the exchange begins with the reply timeout. The turn has left the segment's other fields as in `g` and a node as `passed` says.
Nothing else changes. -/
def State.frameSent (s t : State) (seg addr : Nat) (g : Segment) (timeout : Nat) (passed : Nat → Node → Node) (code : Byte)
    (body : List Byte) (carried : Option (Command × Nat)) : Prop :=
  (∀ key, Table.find key t.dev.nodes = (Table.find key s.dev.nodes).map (fun n =>
      if key = seg * 256 + addr then { passed key n with owedAck := none } else passed key n))
    ∧ t = { s with dev := { s.dev with
        nodes := t.dev.nodes
        segments := s.dev.segments.set seg { g with
          queue := if carried.isSome then g.queue.filter (fun e => decide (e.addr ≠ addr)) else g.queue
          exchange := some { addr := addr, carried := carried, next := none, timeout := timeout }
          sent := deviceFrame addr ((Table.find (seg * 256 + addr) s.dev.nodes).bind (fun n => n.owedAck)) code body } } }

/-- Of two addresses of an attention set, `a` goes before `b` under PRIORITY (R152): a pass-over count of 8 first, then the higher service
class, then the lower address. -/
def Device.ahead (d : Device) (seg a b : Nat) : Prop :=
  ∃ m n, Table.find (seg * 256 + a) d.nodes = some m ∧ Table.find (seg * 256 + b) d.nodes = some n
    ∧ ((m.passOver = 8 ∧ n.passOver ≠ 8)
      ∨ ((m.passOver = 8 ↔ n.passOver = 8) ∧ (n.service < m.service ∨ (n.service = m.service ∧ a < b))))

/-- An exchange in progress that carries no command, with a node that is defined at the address, on a segment that is not disabled. -/
def Device.exchangeWith (d : Device) (seg addr : Nat) (n : Node) : Prop :=
  addr < 256 ∧ (∃ timeout, (d.segment seg).exchange = some { addr := addr, carried := none, next := none, timeout := timeout })
    ∧ (d.segment seg).isDisabled = false ∧ Table.find (seg * 256 + addr) d.nodes = some n

/-- A node that stands ONLINE with nothing that an answer would mend (R158, R78). -/
def Node.sound (n : Node) : Prop :=
  n.state = .online ∧ n.misses = 0 ∧ n.retries = 0 ∧ n.onProbe = false ∧ n.faultOpen = false
    ∧ ∀ r, n.door = some r → r.holdUnsent = false

/-- An answer taken (R151, R155, R161): the exchange is over; the commands it gave rise to take their places for the node; the node joins
the attention set where the answer carries the mark, and leaves it, its pass-over count 0, where it carries none; the node becomes
`after`, and every other node is as it was. -/
def State.answered (s t : State) (seg addr : Nat) (attention : Bool) (after : Node) (commands : List Command) : Prop :=
  Table.find (seg * 256 + addr) t.dev.nodes
      = some (if attention || !(s.dev.segment seg).attention.contains addr then after else { after with passOver := 0 })
    ∧ (∀ other, other ≠ seg * 256 + addr → Table.find other t.dev.nodes = Table.find other s.dev.nodes)
    ∧ t.dev.segments = s.dev.segments.set seg { commands.foldl (fun g c => g.place addr c) (s.dev.segment seg) with
        exchange := none
        attention := if attention then insertAddress addr (s.dev.segment seg).attention
          else (s.dev.segment seg).attention.filter (fun a => decide (a ≠ addr)) }

/-- What a miss makes of a node that stays polled (R159); `fault` says that a NODE FAULT record comes of it. -/
def Node.missPolled (n after : Node) (fault : Bool) : Prop :=
  (n.state = .absent ∧ n.onProbe = false ∧ after = n ∧ fault = false)
    ∨ (n.state = .degraded ∧ after = { n with misses := min 255 (n.misses + 1) } ∧ fault = false)
    ∨ ((n.state = .online ∨ n.state = .suspect) ∧ min 255 (n.misses + 1) < n.deglitch
      ∧ after = { n with state := .suspect, misses := min 255 (n.misses + 1) } ∧ fault = false)
    ∨ ((n.state = .online ∨ n.state = .suspect) ∧ n.deglitch ≤ min 255 (n.misses + 1)
      ∧ ((n.faultMode = .report ∧ fault = true
          ∧ after = { n with state := .degraded, misses := min 255 (n.misses + 1), faultOpen := true })
        ∨ (n.faultMode = .ignore ∧ fault = false ∧ after = { n with state := .degraded, misses := min 255 (n.misses + 1) })))

/-- What a miss makes of a node that it takes out, with the NODE record's event and count (R159, R160). -/
def Node.missOut (n after : Node) (event : NodeEvent) (count : Nat) : Prop :=
  ((n.state = .online ∨ n.state = .suspect) ∧ n.deglitch ≤ min 255 (n.misses + 1) ∧ event = .fault
      ∧ count = min 255 (n.misses + 1)
      ∧ ((n.faultMode = .latch ∧ after = { n with state := .faulted, misses := count, faultOpen := true, owedAck := none })
        ∨ (n.faultMode = .retry ∧ after = { n with
            state := .retryWait, misses := count, faultOpen := true, owedAck := none, retries := 0
            retryTimer := some { count := 0, due := false } })))
    ∨ (n.state = .absent ∧ n.onProbe = true ∧ event = .retry ∧ count = min 255 (n.retries + 1)
      ∧ after = { n with
          state := .retryWait, onProbe := false, owedAck := none, retries := count, retryTimer := some { count := 0, due := false } })

/-- What becomes of the command that a missed frame carried while its node stays polled (R156): the queue after. -/
def Segment.missQueue (g : Segment) (x : Exchange) (barNode : Bool) (queue : List QueueEntry) : Prop :=
  (x.carried = none ∧ queue = g.queue)
    ∨ (∃ c k c', x.carried = some (c, k) ∧ x.next = some c' ∧ queue = { addr := x.addr, command := c', attempts := 0 } :: g.queue)
    ∨ (∃ c k, x.carried = some (c, k) ∧ x.next = none
      ∧ ((k < 2 ∧ queue = { addr := x.addr, command := c, attempts := k + 1 } :: g.queue)
        ∨ (2 ≤ k ∧ (c = .signal ∨ c = .abandon ∨ (c = .relock ∧ barNode = true)) ∧ queue = g.queue)))

/-- A command that stands for the address of an exchange: queued, in progress or held next (R157). -/
def Segment.standing (g : Segment) (x : Exchange) (c : Command) : Prop :=
  (∃ e ∈ g.queue, e.addr = x.addr ∧ e.command = c) ∨ (∃ k, x.carried = some (c, k)) ∨ x.next = some c

/-- What an undelivered command does at a door (R78). Coming to rest behind a RELEASE leaves a running alarm delay timer as it is (log entry
20), and a RELEASE or RELOCK leaves a hold end as it is (log entry 49). -/
def Door.undeliveredGives (r : Door) (c : Command) (o : DoorOut) : Prop :=
  (∃ seconds, c = .release seconds
      ∧ o = { Door.rest { r with releaseTimer := none } false with events := [.deliveryFailed] })
    ∨ (c = .relock ∧ o = { door := { r with state := .unknown, releaseTimer := none, heldTimer := none, delayTimer := none }
                           events := [.deliveryFailed] })
    ∨ (c = .hold ∧ (r.state = .holdOpen ∨ r.state = .emergency)
      ∧ o = { door := { r with holdUnsent := true }, events := [.deliveryFailed] })
    ∨ (c = .hold ∧ r.state ≠ .holdOpen ∧ r.state ≠ .emergency ∧ o = { door := r })

/-- What an answered command does at a door (R78): a RELOCK at a door in UNKNOWN lets it come to rest as if the contact were CLOSED where it is
UNSEEN, which it stays. -/
def Door.answeredGives (r : Door) (c : Command) (o : DoorOut) : Prop :=
  (c = .relock ∧ r.state = .unknown ∧ ∃ rested,
      rested = Door.rest { r with contact := if r.contact = .unseen then .closed else r.contact } false
      ∧ o = { rested with door := { rested.door with contact := r.contact } })
    ∨ (c = .relock ∧ r.state ≠ .unknown ∧ o = { door := r })
    ∨ ((c = .hold ∨ ∃ seconds, c = .release seconds) ∧ o = { door := { r with holdUnsent := false } })
    ∨ (c = .signal ∧ o = { door := r })

/-- What the first answer of a door's node does at the door as it comes into service, with the commands handed (R79, R80); `freed` says that fire
is active and frees the kind. A door in HOLD_OPEN is freed so too (log entry 11), one in another state but UNKNOWN has its timers stopped
(log entry 10), no HOLD is left unsent (log entry 12), and a door already UNKNOWN is UNSEEN like one in another state (log entry 51). -/
def Door.serviceGives (r : Door) (freed : Bool) (after : Door) (commands : List Command) : Prop :=
  ((r.state = .emergency ∨ (r.state = .holdOpen ∧ freed = false)) ∧ after = { r with holdUnsent := false } ∧ commands = [.hold])
    ∨ (r.state ≠ .emergency ∧ freed = true ∧ commands = [.hold]
      ∧ after = { r with
          state := .emergency, releaseTimer := none, heldTimer := none, delayTimer := none, holdUnsent := false
          savedEnd := if r.state = .holdOpen then r.holdEnd else none
          holdEnd := if r.state = .holdOpen then none else r.holdEnd })
    ∨ (freed = false ∧ r.state = .unknown ∧ after = { r with contact := .unseen, holdUnsent := false } ∧ commands = [.relock])
    ∨ (freed = false ∧ r.state ≠ .unknown ∧ r.state ≠ .holdOpen ∧ r.state ≠ .emergency ∧ commands = [.relock]
      ∧ after = { r with
          state := .unknown, contact := .unseen, releaseTimer := none, heldTimer := none, delayTimer := none, holdUnsent := false })

/-- What a position byte means in a message (R198): 0 OPEN, 1 CLOSED, and any other is read as one of the two (log entry 29). -/
def positionMeans (code position : Byte) (isOpen : Bool) : Prop :=
  (position = 0 ∧ isOpen = true) ∨ (position = 1 ∧ isOpen = false)
    ∨ (position ≠ 0 ∧ position ≠ 1 ∧ isOpen = Config.unnamedPosition code position)

/-- What the byte of a BUTTON means (R198): 0 OFF, 1 ON, and any other is read as one of the two (log entry 29). -/
def buttonMeans (value : Byte) (on : Bool) : Prop :=
  (value = 0 ∧ on = false) ∨ (value = 1 ∧ on = true) ∨ (value ≠ 0 ∧ value ≠ 1 ∧ on = Config.unnamedButton value)

/-- What the byte of an ENC_RESULT means (R198): 1 WRITTEN, 2 FAILED, 3 NO_CARD, and any other is read as one of the three (log entry 29). -/
def resultMeans (code : Byte) (result : EncResult) : Prop :=
  (code = 1 ∧ result = .written) ∨ (code = 2 ∧ result = .failed) ∨ (code = 3 ∧ result = .noCard)
    ∨ (code ≠ 1 ∧ code ≠ 2 ∧ code ≠ 3 ∧ result = Config.unnamedResult code)

/-- The slot counts of a TALLY, two in each byte, the lower-numbered slot in the high four bits (R198). -/
def pairsMean (pairs : List Byte) (counts : List (BitVec 4)) : Prop :=
  counts.length = 2 * pairs.length ∧ ∀ (i : Nat) (b : Byte), pairs[i]? = some b →
    (∃ high, counts[2 * i]? = some high ∧ high.toNat = b.toNat / 16)
      ∧ ∃ low, counts[2 * i + 1]? = some low ∧ low.toNat = b.toNat % 16

/-- A node's answer as it stands behind its start mark (R139, R198): address, length, the byte of attention mark and sequence, message code, body
and check. -/
def answerFrame (addr mark code : Byte) (body : List Byte) : List Byte :=
  [addr, BitVec.ofNat 8 (body.length + 2), mark, code] ++ body
    ++ checkBytes ([addr, BitVec.ofNat 8 (body.length + 2), mark, code] ++ body)

/-- The device as a report's owner meets it (R148): behind the NODE SEQUENCE_GAP record, with the number of sequences missed, where the
report's sequence does not follow the last accepted one. -/
def Device.beforeReport (d : Device) (key : Nat) (n : Node) (seq : BitVec 4) : Device :=
  match n.lastSeq with
  | none => d
  | some last => if seq = last + 1 then d else d.notable (.node key .sequenceGap (seq - last - 1).toNat)

/-- What a CONTACT report does at a door (R66, R68, R69, R72, R73): `timed` says that a release runs which the node itself ends. A
delay timer left running by an earlier alarm runs on where no case names it (log entry 20). -/
def Door.contactGives (r : Door) (isOpen : Bool) (o : DoorOut) : Prop :=
  ∃ (timed : Bool) (latched : Bool) (mode : ResponseMode),
    timed = (r.releaseTimer.isSome && decide (r.settings.relock = .onTimer))
    ∧ latched = (if r.state = .held then r.heldLatch else r.forcedLatch)
    ∧ mode = (if r.state = .held then r.settings.heldMode else r.settings.forcedMode)
    ∧ (if isOpen then
        (r.state = .unknown ∧ r.forcedLatch = false ∧ r.heldLatch = false
          ∧ o = { door := { r with
                    state := .opened, contact := .opened
                    heldTimer := if r.heldTimer = none then some { count := 0, due := false } else r.heldTimer }
                  commands := [.relock] })
        ∨ (r.state = .locked ∧ r.settings.forcedMode = .ignore
          ∧ o = { door := { r with state := .opened, contact := .opened, heldTimer := some { count := 0, due := false } } })
        ∨ (r.state = .locked ∧ r.settings.forcedMode ≠ .ignore
          ∧ o = { door := { r with
                    state := .forced, contact := .opened
                    forcedLatch := r.forcedLatch || decide (r.settings.forcedMode = .latch) }
                  commands := [.signal], events := [.forced], alarm := true })
        ∨ (r.state = .released
          ∧ o = { door := { r with state := .opened, contact := .opened, heldTimer := some { count := 0, due := false } } })
        ∨ ((r.state = .forced ∨ r.state = .held) ∧ o = { door := { r with contact := .opened, delayTimer := none } })
        ∨ ((r.state = .opened ∨ r.state = .holdOpen ∨ r.state = .emergency) ∧ o = { door := { r with contact := .opened } })
      else
        (r.state = .unknown ∧ r.forcedLatch = false ∧ r.heldLatch = false
          ∧ o = (if timed then { door := { r with state := .released, contact := .closed, heldTimer := none }, commands := [.relock] }
            else { door := { r with state := .locked, contact := .closed, releaseTimer := none, heldTimer := none }
                   commands := [.relock] }))
        ∨ (r.state = .opened ∧ r.forcedLatch = false ∧ r.heldLatch = false
          ∧ o = (if timed then { door := { r with state := .released, contact := .closed, heldTimer := none } }
            else { door := { r with state := .locked, contact := .closed, releaseTimer := none, heldTimer := none }
                   commands := [.relock] }))
        ∨ ((r.state = .forced ∨ r.state = .held) ∧ (latched = true ∨ mode = .latch)
          ∧ o = { door := { r with contact := .closed }, commands := if timed then [] else [.relock] })
        ∨ ((r.state = .forced ∨ r.state = .held) ∧ latched = false ∧ mode = .retry
          ∧ o = { door := { r with contact := .closed, delayTimer := some { count := 0, due := false } }
                  commands := if timed then [] else [.relock] })
        ∨ ((r.state = .forced ∨ r.state = .held) ∧ r.forcedLatch = false ∧ r.heldLatch = false ∧ (mode = .report ∨ mode = .ignore)
          ∧ o = (if timed then { door := { r with state := .released, contact := .closed, heldTimer := none }, events := [.cleared] }
            else { door := { r with state := .locked, contact := .closed, releaseTimer := none, heldTimer := none }
                   commands := [.relock], events := [.cleared] }))
        ∨ ((r.state = .locked ∨ r.state = .released ∨ r.state = .holdOpen ∨ r.state = .emergency)
          ∧ o = { door := { r with contact := .closed } }))

/-- What a grant does at a door that is neither in HOLD_OPEN nor in EMERGENCY (R66, R67). A running alarm delay timer is left as it is where no
case names it (log entry 20). -/
def Door.grantGives (r : Door) (o : DoorOut) : Prop :=
  ∃ (freed : Door) (duration : Nat),
    duration = (if r.settings.relock = .onTimer then r.settings.releaseTime else 0)
    ∧ freed = { r with
        state := if r.contact = .opened then .opened else .released
        releaseTimer := some { count := 0, due := false }
        heldTimer := if r.contact = .opened then some { count := 0, due := false } else r.heldTimer }
    ∧ (((r.state = .unknown ∨ r.state = .locked) ∧ o = { door := freed, commands := [.release duration] })
      ∨ ((r.state = .released ∨ r.state = .opened ∨ (r.state = .forced ∧ r.forcedLatch = true) ∨ (r.state = .held ∧ r.heldLatch = true))
        ∧ o = { door := { r with releaseTimer := some { count := 0, due := false } }, commands := [.release duration] })
      ∨ (((r.state = .forced ∧ r.forcedLatch = false) ∨ (r.state = .held ∧ r.heldLatch = false))
        ∧ o = { door := { freed with delayTimer := none }, commands := [.release duration], events := [.cleared] }))

/-! ## The decision (R47 to R57) -/

/-- The reason of the first test of a list that fails. -/
def firstFailure : List (Reason × Prop) → Reason → Prop
  | [], _ => False
  | (reason, passes) :: rest, x => (¬ passes ∧ x = reason) ∨ (passes ∧ firstFailure rest x)

/-- The node is the entry's own room door (R51). -/
def Node.isOwnDoor (n : Node) (e : Entry) : Prop :=
  n.kind = .roomDoor ∧ n.room = e.room

/-- A privilege of an entry by its bit (R6). -/
def Entry.may (e : Entry) (bit : Nat) : Prop :=
  e.privileges.getLsbD bit = true

/-- Steps 2 to 12 of the decision, in their order, for a card whose serial, where the table holds it, has the entry `e`. -/
def Device.cardTests (d : Device) (n : Node) (i : CardImage) (e : Entry) : List (Reason × Prop) :=
  [ (.badRead, checkWord (d.creds.propertyCode.getD 0) i = i.check.toNat),
    (.revoked, i.serial ∉ d.creds.deny),
    (.unknown, d.entryOf i.serial = some e),
    (.notIssued, e.state ≠ .encoding),
    (.mismatch, i.kind.toNat = e.kind.code ∧ i.room.toNat = e.room ∧ i.minute = e.issueMinute),
    (.suspended, e.state ≠ .suspended),
    (.notYet, d.clock.valid = true → e.validFrom.toNat ≤ d.clock.minute.toNat),
    (.expired, d.clock.valid = true → ∃ grace : Nat,
      ((e.kind = .guest ∧ n.isOwnDoor e ∧ grace = ((Table.find e.room d.rooms).map (fun r => r.grace)).getD 0)
        ∨ (¬ (e.kind = .guest ∧ n.isOwnDoor e) ∧ grace = 0))
      ∧ d.clock.minute.toNat < e.validUntil.toNat + grace),
    (.clockUnset, d.clock.valid = false → e.kind = .guest → n.isOwnDoor e),
    (.noPrivilege, (∃ r, n.door = some r ∧ ∃ bit, bit < 11 ∧ e.may bit ∧ r.settings.admitSet.getLsbD bit = true
        ∧ (bit = 0 → e.room = n.room ∧ e.room ≠ 65535))
      ∨ (n.door = none ∧ ((e.may 1 ∧ e.room = n.room) ∨ e.may 7))),
    (.roomNotOccupied, e.kind = .guest → ∃ r, Table.find e.room d.rooms = some r ∧ r.state = .occupied),
    (.dnd, n.kind = .roomDoor → (∃ r, Table.find n.room d.rooms = some r ∧ r.dnd = true) →
      (e.kind = .guest ∧ e.room = n.room) ∨ e.kind = .emergency ∨ e.may 9),
    (.clockUnset, ∀ r, n.door = some r → r.settings.hoursOpen ≠ r.settings.hoursClose → (e.kind = .guest ∨ e.kind = .service) →
      ¬ (e.kind = .guest ∧ n.isOwnDoor e) → d.clock.valid = true),
    (.outOfHours, ∀ r, n.door = some r → r.settings.hoursOpen ≠ r.settings.hoursClose → (e.kind = .guest ∨ e.kind = .service) →
      ¬ (e.kind = .guest ∧ n.isOwnDoor e) →
      if r.settings.hoursOpen < r.settings.hoursClose then
        r.settings.hoursOpen ≤ d.clock.minute.toNat % 1440 ∧ d.clock.minute.toNat % 1440 < r.settings.hoursClose
      else r.settings.hoursOpen ≤ d.clock.minute.toNat % 1440 ∨ d.clock.minute.toNat % 1440 < r.settings.hoursClose),
    (.stormLock, n.kind = .shoreGate → d.storm.active = true → e.kind = .emergency ∨ e.may 8) ]

/-! ## Invariants -/

/-- Board memory is in its one form. -/
def State.memoryCanonical (s : State) : Prop :=
  Memory.wf s.mem = true

/-- The repeat count that a record carries, 0 for kinds that carry none (R129). -/
def RecordBody.repeatCount : RecordBody → Nat
  | .access _ _ _ _ _ k _ => k
  | .door _ _ _ => 0
  | .node _ _ _ => 0
  | .card _ _ _ _ => 0
  | .stay _ _ _ _ => 0
  | .charge _ _ _ _ _ _ _ => 0
  | .lateCharge _ _ _ _ => 0
  | .unsettled _ _ _ => 0
  | .restock _ _ _ => 0
  | .house _ _ _ => 0
  | .clock _ _ => 0

/-- The journal's counts stay in their ranges: held plus reserved at most 64 (R124, R132), reservations at most 24 (R132), the
suppressed count and every gap-before count at most 65,535 (R130, R131), every repeat count at most 255 (R129). -/
def Journal.bounded (j : Journal) : Prop :=
  j.load ≤ Config.holdCapacity ∧ j.reserved ≤ Config.reservationsMax ∧ j.suppressed ≤ Config.suppressedCap
    ∧ ∀ h ∈ j.queue, h.gap ≤ Config.suppressedCap ∧ h.body.repeatCount ≤ Config.repeatCap

/-- A folio in its ranges (R28, R110): the balance at most the ceiling, ceilings and the open floor at most 10,000,000, the unposted
sum at most its cap. -/
def Room.folioOk (r : Room) : Prop :=
  r.balance ≤ r.ceiling ∧ r.ceiling ≤ Config.moneyCap ∧ r.defaultCeiling ≤ Config.moneyCap ∧ r.openFloor ≤ Config.moneyCap
    ∧ r.unposted ≤ Config.unpostedCap

/-- The suspension rule at a room (R88): outside a session the minibar is SUSPENDED exactly when the headroom is below the open floor
or the unposted sum is above zero, and LOCKED otherwise. -/
def Room.suspensionOk (r : Room) : Prop :=
  r.bar.inSession = true
    ∨ (r.bar = .suspended ∧ (r.ceiling - r.balance < r.openFloor ∨ 0 < r.unposted))
    ∨ (r.bar = .locked ∧ ¬ (r.ceiling - r.balance < r.openFloor ∨ 0 < r.unposted))

/-- Every room's folio is in its ranges and every minibar follows the suspension rule. -/
def Device.foliosOk (d : Device) : Prop :=
  ∀ p ∈ d.rooms, p.2.folioOk ∧ p.2.suspensionOk

/-- The rooms whose minibars are in session. -/
def Device.sessionsOpen (d : Device) : Nat :=
  (d.rooms.filter (fun p => p.2.bar.inSession)).length

/-- Every open session holds one reservation (R90, R132), and its timer runs exactly while it is open; an UNLATCH is pending only in a
session (R90). -/
def Device.sessionsReserved (d : Device) : Prop :=
  Table.wf d.rooms = true ∧ d.journal.reserved = d.sessionsOpen
    ∧ ∀ p ∈ d.rooms, (p.2.session.isSome = p.2.bar.inSession) ∧ (p.2.unlatchPending = true → p.2.bar.inSession = true)

/-- The deny list and the credential table (R1, R5, R7): a table of at most 3,072 32-bit serials, a deny list of at most 512 serials
without duplicates, and no serial in both. -/
def Device.serialsOk (d : Device) : Prop :=
  Table.wf d.creds.entries = true ∧ d.creds.entries.length ≤ Config.credentialSlots ∧ d.creds.deny.Nodup
    ∧ d.creds.deny.length ≤ Config.denyCapacity
    ∧ ∀ p ∈ d.creds.entries, p.1 < 4294967296 ∧ natWord p.1 ∉ d.creds.deny

/-- The property clock and one input keep their shape (R163, R168, R169): a latch stands only under a latching sense, and an UNKNOWN
settled level has its second still to run. -/
def House.shapeOk (h : House) : Prop :=
  (h.latch = true → h.sense.latches = true) ∧ (h.settled = none → h.settling = true)

/-- The second count is 0 to 59, and stands at 59 while a minute tick is due (R163). -/
def Clock.shapeOk (c : Clock) : Prop :=
  c.second ≤ 59 ∧ (c.tickDue = true → c.second = 59)

end Sys2Proof.Machine
end

