-- ==== Sys2Proof/Certificates/Slice0/Obligations.lean ====
section
/-! DEFINITION. The statements for the provers. A statement about a command says which next state it answers: what changes, by the rules of
the manual, and that nothing else does. -/

open Sys2Proof Sys2Proof.Machine

/-! ## The block as a whole -/

/-- A step takes the command at the front of the queue and is that command's effect on the state with the rest of the queue. With no command
waiting a step changes nothing, which is the model's choice (log entry 1): the manual's time-driven events are rows of the table of their
own. -/
def Obligations.StepTakesTheFrontCommand : Prop :=
  (∀ (s : State) (c : Instr) (rest : List Instr), s.pending = c :: rest → step s = exec c { s with pending := rest }) ∧
  (∀ s : State, s.pending = [] → step s = .next s)

/-- Every command answers a next state, whatever the state, leaves the commands that wait alone, and leaves no undelivered report behind
it. A command handed for a node that cannot take it is reported within the same step (R155): however many reports wait, taking each of
them, and then each of those that this made, takes them all. -/
def Obligations.EveryCommandCompletesAndSettles : Prop :=
  (∀ (c : Instr) (s : State), ∃ t, exec c s = .next t ∧ t.pending = s.pending ∧ t.settled) ∧
  ∀ d : Device, d.deliverRound.deliverRound.reports = []

/-- The machine after reset, and after POWER_ON from any state with the levels it names: the registers 0, the walk IDLE with no walk
ended, no setup, no property code and no time limits, empty tables, tariff 0, a silent line with its presence pointers 1 and its last served
addresses 0, no journal region in force and none before, both marks, the level threshold, the sequence number and the suppressed count 0, no
re-read outstanding, the clock at minute 0, second 0 and invalid, both senses OFF, both modes inactive and both settled levels UNKNOWN (R105,
R137, R162, R163, R173, R190). That State.reset takes both first levels HIGH (log entry 4), and that POWER_ON leaves the commands that wait in
the queue (log entry 23), are the model's choices. -/
def Obligations.PowerOnState : Prop :=
  State.reset.dev = Device.initial .high .high ∧ State.reset.pending = [] ∧
  ∀ (s : State) (fire storm : Level), ∃ t, exec (.powerOn fire storm) s = .next t ∧ t.pending = s.pending ∧
    t.dev.regs = { commonBase := 0, commonSize := 0, status := 0, alertMask := 0, alertEnable := false } ∧
    t.dev.resetHeld = none ∧ t.dev.walker.walk = .idle ∧ t.dev.walker.lastBlock = 0 ∧ t.dev.walker.lastEnd = .none ∧
    t.dev.walker.established = false ∧ t.dev.walker.settlements = [] ∧ t.dev.walker.page = [] ∧
    t.dev.creds.entries = [] ∧ t.dev.creds.deny = [] ∧ t.dev.creds.encoders = [] ∧ t.dev.rooms = [] ∧ t.dev.nodes = [] ∧
    t.dev.creds.propertyCode = none ∧ t.dev.creds.encodingTimeout = none ∧ t.dev.sessionLimit = none ∧
    (∀ item < 64, t.dev.tariff.items[item]? = some { price := 0, taxClass := 0 }) ∧
    (∀ cls < 4, t.dev.tariff.rates[cls]? = some 0) ∧
    t.dev.segments.length = 8 ∧
    (∀ g ∈ t.dev.segments, g.settings = none ∧ g.queue = [] ∧ g.exchange = none ∧ g.attention = [] ∧ g.presence = 1 ∧
      g.lastServed = 0) ∧
    t.dev.journal.region = none ∧ t.dev.journal.lastRegion = none ∧ t.dev.journal.threshold = 0 ∧ t.dev.journal.queue = [] ∧ t.dev.journal.reserved = 0 ∧ t.dev.journal.suppressed = 0 ∧
    t.dev.journal.nextSeq = 0 ∧ t.dev.journal.drain = .inactive ∧
    t.dev.journal.writeMark = 0 ∧ t.dev.journal.readMark = 0 ∧ t.dev.journal.reread = none ∧
    t.dev.clock = { minute := 0, second := 0, valid := false, tickDue := false } ∧
    (∀ pin, (t.dev.house pin).sense = .off ∧ (t.dev.house pin).settled = none ∧ (t.dev.house pin).latch = false ∧
      (t.dev.house pin).order = false ∧ (t.dev.house pin).active = false) ∧
    (t.dev.house .fire).sampled = fire ∧ (t.dev.house .storm).sampled = storm ∧ t.settled

/-! ## Registers -/

/-- While RESET_N is held every register write is ignored, every read returns 0 and ALERT_N is released (R174, R177). -/
def Obligations.HeldResetIgnoresWrites : Prop :=
  ∀ (s : State) (value : Word) (progress : PortProgress),
    s.dev.resetHeld.isSome = true → s.settled →
    exec (.alertEnable value) s = .next s ∧ exec (.registerWrite value) s = .next s ∧
    exec (.commonBase value) s = .next s ∧ exec (.commonSize value) s = .next s ∧
    exec (.chainHeadStart value) s = .next s ∧ exec .chainHeadAbort s = .next s ∧
    exec (.statusClear value) s = .next s ∧ exec (.softReset value progress) s = .next s ∧
    (∀ r : Register, s.dev.readRegister r = 0) ∧ s.dev.alertAsserted = false

/-- The writes of five registers, RESET_N not held. A CONTROL write with SOFT_RESET, bit 1, at 0 takes ALERT_ENABLE from bit 0 of the
written word, and a write to ALERT_MASK its bits 9 to 0, the other bits being ignored (R174, R177, R193); CONTROL then reads as that bit
alone (R193). A write to STATUS clears each latched bit that is 1 in the written value and leaves the others as they stand; JOURNAL_LEVEL,
bit 5, follows the journal whatever is written (R176). COMMON_BASE and COMMON_SIZE take a write while the walk is IDLE and no region is in
force, and ignore it otherwise: a base loses its low twelve bits, and the size stands beside it as it was (log entry 37, a reading of
R175); of a size the low thirteen bits are taken (R174, R193): 0 is 0, and any other is brought into 16 to 4,096 units and, where the area
would pass the top of the address space, to the largest that fits, or 0 when fewer than 16 units fit (R175). Nothing else changes. -/
def Obligations.RegistersTakeTheirWrites : Prop :=
  (∀ (s : State) (value : Word) (progress : PortProgress), s.dev.resetHeld = none → s.settled →
     (value.getLsbD 1 = false → ∀ t, t = { s with dev := { s.dev with regs := { s.dev.regs with alertEnable := value.getLsbD 0 } } } →
       exec (.alertEnable value) s = .next t ∧ exec (.softReset value progress) s = .next t ∧
       t.dev.readRegister .control = if value.getLsbD 0 then 1 else 0) ∧
     ∃ mask : Word, exec (.registerWrite value) s
         = .next { s with dev := { s.dev with regs := { s.dev.regs with alertMask := mask } } } ∧
       ∀ i, mask.getLsbD i = (value.getLsbD i && decide (i < 10))) ∧
  (∀ (s : State) (value : Word), s.dev.resetHeld = none → s.settled →
     ∃ status : Word, exec (.statusClear value) s
         = .next { s with dev := { s.dev with regs := { s.dev.regs with status := status } } } ∧
       (∀ i, i < 10 → i ≠ 5 →
         status.getLsbD i = (s.dev.regs.status.getLsbD i && !value.getLsbD i)) ∧
       ∀ t, exec (.statusClear value) s = .next t →
         t.dev.statusNow.getLsbD 5 = s.dev.journal.level ∧ s.dev.statusNow.getLsbD 5 = s.dev.journal.level) ∧
  (∀ (s : State) (value : Word), s.dev.resetHeld = none → s.settled →
     (¬ (s.dev.walker.walk = .idle ∧ s.dev.journal.region = none) →
       exec (.commonBase value) s = .next s ∧ exec (.commonSize value) s = .next s) ∧
     (s.dev.walker.walk = .idle → s.dev.journal.region = none →
       (∃ base : Word, exec (.commonBase value) s
           = .next { s with dev := { s.dev with regs := { s.dev.regs with commonBase := base } } } ∧
         base.toNat = value.toNat / 4096 * 4096) ∧
       ∃ size : Word, exec (.commonSize value) s
           = .next { s with dev := { s.dev with regs := { s.dev.regs with commonSize := size } } } ∧
         (value.toNat % 8192 = 0 → size = 0) ∧
         (value.toNat % 8192 ≠ 0 → ∀ want, want = max 16 (min 4096 (value.toNat % 8192)) →
           (s.dev.regs.commonBase.toNat + want * 4096 ≤ 4294967296 → size.toNat = want) ∧
           (4294967296 < s.dev.regs.commonBase.toNat + want * 4096 → ∀ fits,
             s.dev.regs.commonBase.toNat + fits * 4096 ≤ 4294967296 →
             4294967296 < s.dev.regs.commonBase.toNat + (fits + 1) * 4096 →
             size.toNat = if fits < 16 then 0 else fits))))

/-! ## The walk -/

/-- A write to CHAIN_HEAD: a non-zero value starts a walk from IDLE and latches CHAIN_OVERRUN while WALKING; 0 is ignored in IDLE and
sets the abort flag while WALKING. Nothing else changes (R180). -/
def Obligations.ChainHeadWrites : Prop :=
  ∀ (s : State) (value : Word), s.dev.resetHeld = none → s.settled → value ≠ 0 →
    (s.dev.walker.walk = .idle →
      exec (.chainHeadStart value) s
        = .next { s with dev := { s.dev with walker := { s.dev.walker with walk := .walking value false .checking } } } ∧
      exec .chainHeadAbort s = .next s) ∧
    ∀ block abort phase, s.dev.walker.walk = .walking block abort phase →
      exec (.chainHeadStart value) s
        = .next { s with dev := { s.dev with regs := { s.dev.regs with status := s.dev.regs.status ||| 8 } } } ∧
      exec .chainHeadAbort s
        = .next { s with dev := { s.dev with walker := { s.dev.walker with walk := .walking block true phase } } }

/-- BLOCK_CHECK of the block in hand. A failed check latches CHAIN_FAULT, ends the walk at the block with the cause of R181's table, and
publishes the status page, whether or not the abort flag is set; that an earlier publication's writes have been accepted by then is the
model's choice (log entry 13). A block that passes goes to its order's owner, or, answered by the
walker itself, gets RESULT with that code and the stamp DONE with no result word. The page that a publication leaves in board memory once its
writes are accepted: every field at its offset, and 0 in every byte up to 255 that no field names; with no region in force the Journal Writer's
five fields are as memory held them; the publication of W and the next sequence number writes these two alone; with COMMON_SIZE 0 nothing is
written; every other byte is as before (R119, R178, R181, R182, R192, R194). -/
def Obligations.BlockCheckFollowsItsTable : Prop :=
  (∀ (d : Device) (mem page marks : Table Byte) (base : Nat), base = d.regs.commonBase.toNat → base + 256 ≤ 4294967296 →
    page = Memory.accept mem d.pageWrites → marks = Memory.accept mem d.markWrites → (∀ f ∈ d.pageFields, f.2.2 < 256 ^ f.2.1) →
    (d.regs.commonSize = 0 → page = mem ∧ marks = mem) ∧
    (d.regs.commonSize ≠ 0 →
      Memory.holdsFields page base (d.pageFields.filter (fun f =>
        d.journal.region.isSome || decide (7 < f.1 ∧ f.1 < 24 ∨ 27 < f.1))) ∧
      (∀ i, 33 ≤ i → i < 256 → Memory.read page (base + i) = some 0) ∧
      (d.journal.region = none → ∀ i, i < 8 ∨ (24 ≤ i ∧ i < 28) → Memory.read page (base + i) = Memory.read mem (base + i)) ∧
      (∀ a, a < base ∨ base + 256 ≤ a → Memory.read page a = Memory.read mem a) ∧
      Memory.holdsFields marks base [(0, 4, d.journal.writeMark), (4, 4, d.journal.nextSeq.toNat)] ∧
      ∀ a, a < base ∨ base + 8 ≤ a → Memory.read marks a = Memory.read mem a)) ∧
  ∀ (s : State) (block : Word) (abort : Bool) (h : Header) (kindParam : Word),
    s.settled → s.dev.walker.walk = .walking block abort .checking →
    (∀ cause, blockFailure s.dev.regs.commonBase.toNat s.dev.regs.commonSize.toNat block.toNat h.stamp.toNat h.size.toNat
        = some cause →
      ∃ t, exec (.blockCheck h kindParam) s = .next t ∧
        t.dev.walker.walk = .idle ∧ t.dev.walker.lastBlock = block ∧ t.dev.walker.lastEnd = cause ∧
        t.dev.regs.status = s.dev.regs.status ||| 4 ∧ t.dev.walker.page = t.dev.pageWrites ∧
        t.mem = Memory.accept s.mem s.dev.walker.page ∧
        t = { s with
          mem := t.mem
          dev := { s.dev with
            regs := { s.dev.regs with status := t.dev.regs.status }
            walker := { s.dev.walker with
              walk := .idle, lastBlock := t.dev.walker.lastBlock, lastEnd := t.dev.walker.lastEnd, page := t.dev.walker.page } } }) ∧
    (blockFailure s.dev.regs.commonBase.toNat s.dev.regs.commonSize.toNat block.toNat h.stamp.toNat h.size.toNat = none →
      ∃ phase, exec (.blockCheck h kindParam) s
          = .next { s with dev := { s.dev with walker := { s.dev.walker with walk := .walking block abort phase } } } ∧
        (OrderKind.ofCode h.kind.toNat = none →
          phase = .writing { cancels := [], own := doneWrites block .badKind false }) ∧
        ∀ kind, OrderKind.ofCode h.kind.toNat = some kind →
          (s.dev.walker.established = false ∧ kind ≠ .setup ∧ kind ≠ .setClock →
            phase = .writing { cancels := [], own := doneWrites block .notSetUp false }) ∧
          (¬ (s.dev.walker.established = false ∧ kind ≠ .setup ∧ kind ≠ .setClock) →
            (h.size.toNat < kind.smallest kindParam →
              phase = .writing { cancels := [], own := doneWrites block .badParam false }) ∧
            (kind.smallest kindParam ≤ h.size.toNat → phase = .handed kind h.tag)))

/-- The answer of an order as board memory shows it once its writes are accepted: its result words behind the parameters in the order
listed, then RESULT with its code in its low half and CLAMPED in bit 16, then STAMP at DONE; a deferred order has RESULT 0 and STAMP
TAKEN and its result words untouched; every other byte is as before (R183, R184, R195). -/
def Obligations.AnswerInBoardMemory : Prop :=
  ∀ (mem : Table Byte) (block : Word) (params : Nat) (r : Reply),
    6 + params + r.words.length ≤ 64 → block.toNat + 256 ≤ 4294967296 →
    ∀ after, after = Memory.accept mem (replyWrites block params r).own →
    (r.deferred = false →
      Memory.holdsWord after (block.toNat + 12) 2 ∧
      Memory.holdsWord after (block.toNat + 16) (natWord (r.code.code + if r.clamped then 65536 else 0)) ∧
      (∀ i, ∀ hi : i < r.words.length, Memory.holdsWord after (block.toNat + 24 + 4 * (params + i)) (r.words[i]'hi)) ∧
      ∀ a, ¬ (block.toNat + 12 ≤ a ∧ a < block.toNat + 20) →
        ¬ (block.toNat + 24 + 4 * params ≤ a ∧ a < block.toNat + 24 + 4 * (params + r.words.length)) →
        Memory.read after a = Memory.read mem a) ∧
    (r.deferred = true →
      Memory.holdsWord after (block.toNat + 12) 1 ∧ Memory.holdsWord after (block.toNat + 16) 0 ∧
      ∀ a, ¬ (block.toNat + 12 ≤ a ∧ a < block.toNat + 20) → Memory.read after a = Memory.read mem a)

/-- LINK_REREAD of a block whose writes are outstanding: the writes have been accepted, cancellation settlements first, and ORDER_SETTLED
is latched where there were any; then, with the abort flag set, the walk ends with cause ABORTED; with it clear, a LINK of 0 ends it
with CHAIN_WALKED and cause WALKED, and any other LINK is the block in hand. Every end publishes the status page (R183, R185). That the
block's writes and an earlier publication's have been accepted by then, and that the aborted walk ends at this command, are the model's choices
(log entries 13 and 38). -/
def Obligations.LinkRereadMovesOn : Prop :=
  ∀ (s : State) (block : Word) (abort : Bool) (w : BlockWrites) (link : Word),
    s.settled → s.dev.walker.walk = .walking block abort (.writing w) →
    ∃ t, exec (.linkReread link) s = .next t ∧
      (abort = true ∨ link = 0 →
        t.dev.walker.walk = .idle ∧ t.dev.walker.lastBlock = block ∧
        t.dev.walker.lastEnd = (if abort then .aborted else .walked) ∧ t.dev.walker.page = t.dev.pageWrites ∧
        t.mem = Memory.accept (Memory.accept s.mem (w.cancels.flatten ++ w.own)) s.dev.walker.page) ∧
      (abort = false → link ≠ 0 →
        t.dev.walker = { s.dev.walker with walk := .walking link false .checking } ∧
        t.mem = Memory.accept s.mem (w.cancels.flatten ++ w.own)) ∧
      t.dev.regs.status = ((s.dev.regs.status ||| (if w.cancels = [] then 0 else 2)) |||
        (if abort = false ∧ link = 0 then 1 else 0)) ∧
      t = { s with
        mem := t.mem
        dev := { s.dev with
          regs := { s.dev.regs with status := t.dev.regs.status }
          walker := { s.dev.walker with
            walk := t.dev.walker.walk, lastBlock := t.dev.walker.lastBlock, lastEnd := t.dev.walker.lastEnd
            page := t.dev.walker.page } } }

/-- SETTLEMENT_WRITE with no write of its block outstanding: the oldest settlement leaves the list, its block shows its result words,
RESULT with its code, and STAMP at DONE, ORDER_SETTLED is latched, and nothing else changes (R184). -/
def Obligations.SettlementIsWritten : Prop :=
  ∀ (s : State) (x : Settlement) (rest : List Settlement),
    s.settled → s.dev.walker.settlements = x :: rest → s.dev.walker.walk.writesTo x.block = false →
    x.words.length ≤ 49 → x.block.toNat + 256 ≤ 4294967296 →
    ∃ t, exec .settlementWrite s = .next t ∧
      Memory.holdsWord t.mem (x.block.toNat + 12) 2 ∧ Memory.holdsWord t.mem (x.block.toNat + 16) (natWord x.code.code) ∧
      (∀ i, ∀ hi : i < x.words.length, Memory.holdsWord t.mem (x.block.toNat + 60 + 4 * i) (x.words[i]'hi)) ∧
      (∀ a, ¬ (x.block.toNat + 12 ≤ a ∧ a < x.block.toNat + 20) →
        ¬ (x.block.toNat + 60 ≤ a ∧ a < x.block.toNat + 60 + 4 * x.words.length) →
        Memory.read t.mem a = Memory.read s.mem a) ∧
      t = { s with
        mem := t.mem
        dev := { s.dev with
          regs := { s.dev.regs with status := s.dev.regs.status ||| 2 }
          walker := { s.dev.walker with settlements := rest } } }

/-! ## Errors on the manager port -/

/-- MEMORY_ERROR latches MEMORY_FAULT, and of the writes of the access the first `accepted` alone are made. On an access of the walk
(reading the header of a block whose place is right, or its parameters; re-reading the LINK of a block whose writes were accepted; one of the
block's own writes) the walk ends at the block with cause READ_ERROR or WRITE_ERROR, with CHAIN_FAULT for the two reads alone, and the status
page is published (R181, R186). The cancellation settlements ahead of the block's own writes were then accepted, and ORDER_SETTLED is latched
where there were any. An error on one of them leaves the rest of that settlement alone unmade: those before it are accepted, with ORDER_SETTLED,
and those after it and the block's own writes are still to be made (R184, R186). A settlement of the list leaves it without ORDER_SETTLED; a
publication is dropped; a placement that fails leaves its record at the head and the drain in WAITING_RETRY, with the write mark and the
sequence number as they were; a failed re-read keeps the cached read mark (R121, R127, R178, R184, R186). That an earlier publication's writes
have been accepted by then is the model's choice (log entry 13). -/
def Obligations.MemoryErrorsLeaveTheRestUnmade : Prop :=
  (∀ (s : State) (block : Word) (abort : Bool) (phase : WalkPhase) (accepted : Nat),
     s.settled → s.dev.walker.walk = .walking block abort phase →
     ∀ (access : PortAccess) (status : Word) (written : List PortWrite) (cause : WalkEnd),
     ((access = .blockRead ∧ ((phase = .checking ∧ block.toNat % 16 = 0 ∧ s.dev.regs.commonBase.toNat + 512 ≤ block.toNat ∧
             block.toNat < s.dev.regs.commonBase.toNat + s.dev.regs.commonSize.toNat * 4096) ∨
           ∃ kind tag, phase = .handed kind tag) ∧ status = 20 ∧ written = [] ∧ cause = .readError) ∨
       (access = .linkRead ∧ abort = false ∧ (∃ w, phase = .writing w ∧ written = w.cancels.flatten ++ w.own ∧
           status = (if w.cancels = [] then 20 else 22)) ∧ cause = .readError) ∨
       (access = .blockWrite ∧ (∃ w, phase = .writing w ∧ w.cancels.flatten.length ≤ accepted ∧
           accepted < (w.cancels.flatten ++ w.own).length ∧ written = (w.cancels.flatten ++ w.own).take accepted ∧
           status = (if w.cancels = [] then 16 else 18)) ∧ cause = .writeError)) →
     ∃ t, exec (.memoryError access accepted) s = .next t ∧
       t.dev.walker.walk = .idle ∧ t.dev.walker.lastBlock = block ∧ t.dev.walker.lastEnd = cause ∧
       t.dev.walker.page = t.dev.pageWrites ∧ t.dev.regs.status = s.dev.regs.status ||| status ∧
       t.mem = Memory.accept (Memory.accept s.mem written) s.dev.walker.page ∧
       t = { s with
         mem := t.mem
         dev := { s.dev with
           regs := { s.dev.regs with status := t.dev.regs.status }
           walker := { s.dev.walker with
             walk := .idle, lastBlock := t.dev.walker.lastBlock, lastEnd := t.dev.walker.lastEnd, page := t.dev.walker.page } } }) ∧
  (∀ (s : State) (block : Word) (abort : Bool) (own : List PortWrite) (done left : List (List PortWrite)) (failed : List PortWrite)
     (n : Nat), s.settled → s.dev.walker.walk = .walking block abort (.writing { cancels := done ++ failed :: left, own := own }) →
     n < failed.length →
     exec (.memoryError .blockWrite (done.flatten.length + n)) s = .next { s with
       mem := Memory.accept s.mem (done.flatten ++ failed.take n)
       dev := { s.dev with
         regs := { s.dev.regs with status := s.dev.regs.status ||| (if done = [] then 16 else 18) }
         walker := { s.dev.walker with walk := .walking block abort (.writing { cancels := left, own := own }) } } }) ∧
  (∀ (s : State) (accepted : Nat), s.settled →
     (∀ x rest, s.dev.walker.settlements = x :: rest → accepted < x.writes.length → s.dev.walker.walk.writesTo x.block = false →
       exec (.memoryError .settlement accepted) s = .next { s with
         mem := Memory.accept s.mem (x.writes.take accepted)
         dev := { s.dev with
           regs := { s.dev.regs with status := s.dev.regs.status ||| 16 }
           walker := { s.dev.walker with settlements := rest } } }) ∧
     (accepted < s.dev.walker.page.length →
       exec (.memoryError .publication accepted) s = .next { s with
         mem := Memory.accept s.mem (s.dev.walker.page.take accepted)
         dev := { s.dev with
           regs := { s.dev.regs with status := s.dev.regs.status ||| 16 }
           walker := { s.dev.walker with page := [] } } }) ∧
     (accepted < s.dev.placementWrites.length →
       exec (.memoryError .placement accepted) s = .next { s with
         mem := Memory.accept s.mem (s.dev.placementWrites.take accepted)
         dev := { s.dev with
           regs := { s.dev.regs with status := s.dev.regs.status ||| 16 }
           journal := { s.dev.journal with drain := .waitingRetry } } }) ∧
     (s.dev.journal.reread.isSome = true →
       exec (.memoryError .markRead accepted) s = .next { s with
         dev := { s.dev with
           regs := { s.dev.regs with status := s.dev.regs.status ||| 16 }
           journal := { s.dev.journal with reread := none } } }))

/-! ## The journal -/

/-- Where a placement from a write mark inside the region ends: its record lies whole within the region, the write mark stays inside it,
and has advanced by exactly the bytes needed, PADs and GAP included (R118, R119). Every record is as many bytes long as its kind says, a
whole number of words, its header's length field included (R118, R120, R199). -/
def Obligations.RecordsAndPlacementsHaveTheirShape : Prop :=
  (∀ (size mark length : Nat) (gap : Bool), mark < size → 16 ≤ length → length ≤ 96 → 4096 ≤ size →
     size % 4 = 0 → mark % 4 = 0 → length % 4 = 0 →
     (placementPlan size mark gap length).at_ + length ≤ size ∧ (placementPlan size mark gap length).after < size ∧
     (placementPlan size mark gap length).after = (mark + (placementPlan size mark gap length).need) % size ∧
     ∀ o n, (placementPlan size mark gap length).pad1 = some (o, n) ∨ (placementPlan size mark gap length).pad2 = some (o, n) →
       0 < n ∧ n ≤ 92 ∧ o + n = size) ∧
  (∀ (r : HeldRecord) (seq : Word),
     (r.bytes seq).length = r.body.length ∧ r.body.length % 4 = 0 ∧ (r.gapBytes seq).length = 20 ∧
     (r.bytes seq)[0]? = some (byteOf r.body.kindCode) ∧
     (r.bytes seq)[2]? = some (byteOf r.body.length) ∧ (r.bytes seq)[3]? = some (byteOf (r.body.length / 256)))

/-- PLACEMENT_COMPLETE while the head of the queue is being placed: its PAD, GAP and record bytes have been accepted, the write mark is
just past the record, the head has left the queue, and the sequence number has risen by one for the record and one for a GAP. The drain
is IDLE with the queue empty, PLACING where the next head's need is at most free, and waits for room otherwise, with a re-read made. The
new write mark and sequence number are published, and nothing else changes (R119, R120, R126). That the drain is WAITING_ROOM while its re-read
is outstanding is a reading of R126 (log entry 27), and that an earlier publication's writes have been accepted by then is the model's choice
(log entry 13). -/
def Obligations.PlacementCompletes : Prop :=
  ∀ (s : State) (r : Region) (h : HeldRecord) (rest : List HeldRecord),
    s.settled → s.dev.journal.region = some r → s.dev.journal.queue = h :: rest → s.dev.journal.drain = .placing →
    ∃ t, exec .placementComplete s = .next t ∧
      t.mem = Memory.accept (Memory.accept s.mem s.dev.placementWrites) s.dev.walker.page ∧
      t.dev.journal.writeMark = (placementPlan r.size s.dev.journal.writeMark (decide (h.gap ≠ 0)) h.body.length).after ∧
      t.dev.journal.nextSeq = s.dev.journal.nextSeq + (if h.gap = 0 then 1 else 2) ∧
      t.dev.journal.queue = rest ∧
      (rest = [] → t.dev.journal.drain = .idle ∧ t.dev.journal.reread = s.dev.journal.reread) ∧
      (∀ next more, rest = next :: more →
        if (placementPlan r.size t.dev.journal.writeMark (decide (next.gap ≠ 0)) next.body.length).need
            ≤ t.dev.journal.freeIn r.size
        then t.dev.journal.drain = .placing ∧ t.dev.journal.reread = s.dev.journal.reread
        else t.dev.journal.drain = .waitingRoom ∧ t.dev.journal.reread = some .attempt) ∧
      t.dev.walker.page = t.dev.markWrites ∧
      t = { s with
        mem := t.mem
        dev := { s.dev with
          walker := { s.dev.walker with page := t.dev.walker.page }
          journal := { s.dev.journal with
            writeMark := t.dev.journal.writeMark, queue := rest, nextSeq := t.dev.journal.nextSeq
            drain := t.dev.journal.drain, reread := t.dev.journal.reread } } }

/-- READ_MARK_REREAD of an outstanding re-read: the value is the new read mark when it is a multiple of 4, below the region's size, and
within the unread span counted forward from the cached mark; it is ignored otherwise. The re-read is over. A mark that moves starts an
attempt of the drain from either waiting state, which begins the placement where the head's need is now at most free, and waits for room with
a re-read of its own otherwise; behind an attempt's own re-read the comparison alone is made again: PLACING where the need fits, WAITING_ROOM
where it does not. A drain that does not wait, and a waiting one whose mark has not moved, stays as it is. Nothing else changes (R121, R122,
R126). That the drain is WAITING_ROOM while an attempt's own re-read is outstanding is a reading of R126 (log entry 27). -/
def Obligations.ReadMarkIsTested : Prop :=
  ∀ (s : State) (r : Region) (value : Word),
    s.settled → s.dev.journal.region = some r → s.dev.journal.reread.isSome = true →
    ∃ t, exec (.readMarkReread value) s = .next t ∧
      t.dev.journal.readMark
        = (if value.toNat % 4 = 0 ∧ value.toNat < r.size ∧
            (value.toNat + r.size - s.dev.journal.readMark) % r.size
              ≤ (s.dev.journal.writeMark + r.size - s.dev.journal.readMark) % r.size
          then value.toNat else s.dev.journal.readMark) ∧
      (s.dev.journal.drain ≠ .waitingRoom → s.dev.journal.drain ≠ .waitingRetry →
        t.dev.journal.drain = s.dev.journal.drain ∧ t.dev.journal.reread = none) ∧
      (∀ h rest, s.dev.journal.queue = h :: rest →
        (s.dev.journal.drain = .waitingRetry ∨ (s.dev.journal.drain = .waitingRoom ∧ s.dev.journal.reread = some .second) →
          (t.dev.journal.readMark ≠ s.dev.journal.readMark →
            Journal.tries { s.dev.journal with readMark := t.dev.journal.readMark, reread := none } t.dev.journal.drain
              t.dev.journal.reread) ∧
          (t.dev.journal.readMark = s.dev.journal.readMark →
            t.dev.journal.drain = s.dev.journal.drain ∧ t.dev.journal.reread = none)) ∧
        (s.dev.journal.drain = .waitingRoom → s.dev.journal.reread = some .attempt →
          t.dev.journal.drain = (if (placementPlan r.size s.dev.journal.writeMark (decide (h.gap ≠ 0)) h.body.length).need
            ≤ t.dev.journal.freeIn r.size then .placing else .waitingRoom) ∧
          t.dev.journal.reread = none)) ∧
      t = { s with dev := { s.dev with journal := { s.dev.journal with
        readMark := t.dev.journal.readMark, drain := t.dev.journal.drain, reread := t.dev.journal.reread } } }

/-- What handing a record to the journal does, its header bearing the time of the property clock. A ROUTINE ACCESS record that repeats the
newest record held, which is not being placed, raises that record's repeat count, up to 255, and is discarded. Any other enters at the tail: a
reserved one on its reservation, one of another class while held and reserved are below 64. In a full queue a ROUTINE record is dropped and the
suppressed count rises by one; a NOTABLE one displaces the oldest ROUTINE record that is not being placed, whose gap-before count and one more
join the suppressed count, or is dropped likewise where there is none. The suppressed count stops at 65,535, and a record that enters takes it
as its gap-before count and leaves 0. A record that enters wakes a drain in IDLE or in either waiting state, whose attempt begins the placement
or waits for room with a re-read (a reading of R126, log entry 27); nothing else changes (R120, R126, R128, R129, R130, R131). The record
displaced is the oldest ROUTINE record that is not being placed, and the records around it keep their order (R130). -/
def Obligations.OldestRoutineIsDisplaced : Prop :=
  (∀ (d : Device) (body : RecordBody) (flags : RecordFlags) (cls : RecordClass) (r : HeldRecord) (placing : Bool),
     (d.journal.region = none → d.journal.drain = .inactive) → placing = decide (d.journal.drain = .placing) →
     r = { body := body, flags := flags, cls := cls, minute := d.clock.minute, second := d.clock.second, clockValid := d.clock.valid
           gap := 0 } →
     (∀ merged, d.journal.merges cls body merged →
       d.record body flags cls = { d with journal := { d.journal with queue := merged } }) ∧
     ((∀ merged, ¬ d.journal.merges cls body merged) →
       ∃ after, d.record body flags cls = { d with journal := after } ∧
         (cls = .reserved → 0 < d.journal.reserved →
           Journal.entered { d.journal with reserved := d.journal.reserved - 1 } after r) ∧
         (cls ≠ .reserved → d.journal.queue.length + d.journal.reserved < 64 → d.journal.entered after r) ∧
         (64 ≤ d.journal.queue.length + d.journal.reserved →
           (cls = .routine ∨ (cls = .notable ∧ takeRoutine placing d.journal.queue = none) →
             after = { d.journal with suppressed := min 65535 (d.journal.suppressed + 1) }) ∧
           ∀ old rest, cls = .notable → takeRoutine placing d.journal.queue = some (old, rest) →
             Journal.entered { d.journal with
               queue := rest, suppressed := min 65535 (d.journal.suppressed + 1 + old.gap) } after r))) ∧
  ∀ (placing : Bool) (queue rest : List HeldRecord) (old : HeldRecord),
    takeRoutine placing queue = some (old, rest) ↔
      ∃ before after, queue = before ++ old :: after ∧ rest = before ++ after ∧ old.cls = .routine ∧
        (placing = true → before ≠ []) ∧
        ∀ i, ∀ hi : i < before.length, (before[i]'hi).cls = .routine → placing = true ∧ i = 0

/-! ## The second pulse and the minute tick -/

/-- SECOND_PULSE with no minute tick due: every running timer counts against its limit, a re-read of the read mark is made while there are
unread bytes, the whole status page is published, and the second count rises, or has passed 59 and the tick is due (R63, R121, R163, R178);
that the page shows the second before the pulse (log entry 15), that an earlier publication's writes have been accepted by then (log entry
13), that a re-read already outstanding serves the pulse's (log entry 27) and that the limits before the first SETUP are 10 minutes and 30
seconds (log entry 25) are the model's choices. A timer at a pulse: a stopped one stays stopped; a running one counts one second more and
is due when it has reached its limit; that one which is due already keeps its count until its expiry is taken is the model's choice (log
entry 7), as is the limit of an alarm delay timer that runs with no alarm standing (log entry 20). MINUTE_TICK with the tick due: the
second becomes 0 and the minute rises by one, wrapping, clock-valid kept, and where no hold has come to its end nothing else changes (R77,
R163); with no tick due nothing changes (log entry 2). -/
def Obligations.PulseAndTickMoveTheClock : Prop :=
  (∀ s : State, s.settled → s.dev.clock.tickDue = false →
     ∃ t, exec .secondPulse s = .next t ∧
       t.dev.clock = (if s.dev.clock.second < 59 then { s.dev.clock with second := s.dev.clock.second + 1 }
         else { s.dev.clock with tickDue := true }) ∧
       (∀ key, Table.find key t.dev.nodes = (Table.find key s.dev.nodes).map (fun n => { n with
         retryTimer := Timer.tick (match n.faultDelay with | .short => 2 | .long => 30) n.retryTimer
         door := n.door.map (fun r => { r with
           releaseTimer := Timer.tick r.settings.releaseTime r.releaseTimer
           heldTimer := Timer.tick r.settings.heldLimit r.heldTimer
           delayTimer := Timer.tick
             (match (if r.state = .held then r.settings.heldDelay else r.settings.forcedDelay) with | .short => 2 | .long => 30)
             r.delayTimer }) })) ∧
       (∀ room, Table.find room t.dev.rooms = (Table.find room s.dev.rooms).map (fun r => { r with
         session := Timer.tick (60 * s.dev.sessionLimit.getD 10) r.session })) ∧
       (∀ key, Table.find key t.dev.creds.encoders = (Table.find key s.dev.creds.encoders).map (fun e => { e with
         current := e.current.map (fun c => { c with timer := Timer.tick (s.dev.creds.encodingTimeout.getD 30) c.timer }) })) ∧
       t.dev.journal.reread = (if s.dev.journal.region.isSome = true ∧ 0 < s.dev.journal.unread ∧ s.dev.journal.reread = none
         then some .second else s.dev.journal.reread) ∧
       t.mem = Memory.accept s.mem s.dev.walker.page ∧
       t.dev.walker.page = { t.dev with clock := s.dev.clock }.pageWrites ∧
       t = { s with
         mem := t.mem
         dev := { s.dev with
           walker := { s.dev.walker with page := t.dev.walker.page }
           creds := { s.dev.creds with encoders := t.dev.creds.encoders }
           rooms := t.dev.rooms
           nodes := t.dev.nodes
           journal := { s.dev.journal with reread := t.dev.journal.reread }
           clock := t.dev.clock } }) ∧
  (∀ (limit count : Nat),
     Timer.tick limit none = none ∧
     Timer.tick limit (some { count := count, due := false }) = some { count := count + 1, due := decide (limit ≤ count + 1) } ∧
     Timer.tick limit (some { count := count, due := true }) = some { count := count, due := true }) ∧
  (∀ s : State, s.settled →
     (s.dev.clock.tickDue = false → exec .minuteTick s = .next s) ∧
     (s.dev.clock.tickDue = true →
       (∀ key n r, Table.find key s.dev.nodes = some n → n.door = some r →
         (r.state = .holdOpen → ∀ e, r.holdEnd = some e → (s.dev.clock.minute + 1).toNat < e.toNat) ∧
         (r.state = .emergency → ∀ e, r.savedEnd = some e → (s.dev.clock.minute + 1).toNat < e.toNat)) →
       ∃ t, exec .minuteTick s = .next t ∧
         t.dev.clock = { s.dev.clock with minute := s.dev.clock.minute + 1, second := 0, tickDue := false } ∧
         (∀ key, Table.find key t.dev.nodes = Table.find key s.dev.nodes) ∧
         t = { s with dev := { s.dev with clock := t.dev.clock, nodes := t.dev.nodes } }))

/-! ## Credentials -/

/-- EXTEND_CARD of an entry that is ACTIVE or SUSPENDED to a valid-until above its valid-from: the valid-until alone is replaced, the
result word is the one before, the CARD record carries the order's TAG, and nothing else changes (R24).
SUSPEND_CARD of an ACTIVE entry, and RESUME_CARD of a SUSPENDED one: the entry moves, the CARD record carries its serial, its room and
the order's TAG, the block is answered DONE without result words, and nothing else changes (R25). -/
def Obligations.ExtendAndSuspendAndResume : Prop :=
  (∀ (s : State) (serial validUntil block tag : Word) (abort : Bool) (e : Entry),
     serial ≠ 0 → s.dev.entryOf serial = some e → e.state ≠ .encoding → e.validFrom.toNat < validUntil.toNat →
     s.dev.orderInHand .extendCard block tag abort →
     ∃ t, exec (.extendCard serial validUntil) s = .next t ∧
       t.dev.entryOf serial = some { e with validUntil := validUntil } ∧
       (∀ other, other ≠ serial → t.dev.entryOf other = s.dev.entryOf other) ∧
       t.dev.journal = (s.dev.notable (.card serial .extended e.room tag)).journal ∧
       t.dev.walker = s.dev.walker.replied block abort 2 (.done [e.validUntil]) ∧
       t = { s with dev := { s.dev with
         regs := { s.dev.regs with status := stallStatus s.dev.journal t.dev.journal s.dev.regs.status }
         walker := t.dev.walker
         creds := { s.dev.creds with entries := t.dev.creds.entries }
         journal := t.dev.journal } }) ∧
  (∀ (s : State) (serial block tag : Word) (abort : Bool) (e : Entry), serial ≠ 0 → s.dev.entryOf serial = some e →
     ∀ (cmd : Instr) (kind : OrderKind) (after : EntryState) (event : CardEvent),
     ((cmd = .suspendCard serial ∧ kind = .suspendCard ∧ e.state = .active ∧ after = .suspended ∧ event = .suspended) ∨
       (cmd = .resumeCard serial ∧ kind = .resumeCard ∧ e.state = .suspended ∧ after = .active ∧ event = .resumed)) →
     s.dev.orderInHand kind block tag abort →
     ∃ t, exec cmd s = .next t ∧
       t.dev.entryOf serial = some { e with state := after } ∧
       (∀ other, other ≠ serial → t.dev.entryOf other = s.dev.entryOf other) ∧
       t.dev.journal = (s.dev.notable (.card serial event e.room tag)).journal ∧
       t.dev.walker = s.dev.walker.replied block abort 1 (.done []) ∧
       t = { s with dev := { s.dev with
         regs := { s.dev.regs with status := stallStatus s.dev.journal t.dev.journal s.dev.regs.status }
         walker := t.dev.walker
         creds := { s.dev.creds with entries := t.dev.creds.entries }
         journal := t.dev.journal } })

/-- A deny list with a serial appended (R7): the serial is at the newest end and stands nowhere else; where it was listed the others keep
their order; where it was not, the others keep theirs, and from a full list the oldest alone is dropped. -/
def Obligations.DenyListAppend : Prop :=
  ∀ (deny : List Word) (serial : Word), deny.Nodup → deny.length ≤ 512 →
    (denyAppend serial deny).Nodup ∧ (denyAppend serial deny).length ≤ 512 ∧ (denyAppend serial deny).getLast? = some serial ∧
    (serial ∈ deny → (denyAppend serial deny).dropLast = deny.filter (fun x => decide (x ≠ serial))) ∧
    (serial ∉ deny → deny.length < 512 → (denyAppend serial deny).dropLast = deny) ∧
    (serial ∉ deny → deny.length = 512 → (denyAppend serial deny).dropLast = deny.tail)

/-- REVOKE_CARD of an ACTIVE or SUSPENDED entry: the entry is FREE and its serial at the newest end of the deny list; the guest card count
of its room falls by one for a GUEST card; the CARD record carries the order's TAG; the result word is the state before. Of an ENCODING entry:
its issue is cancelled besides, waiting or in progress, and its block settles with CANCELLED ahead of the order's own answer, whose result word
is ENCODING. Of a serial that no entry holds: NOT_FOUND with result word 0, and the serial is denied where DENY_UNKNOWN is set and not where it
is clear. Nothing else changes (R5, R7, R20, R21). -/
def Obligations.RevokeFreesAndDenies : Prop :=
  ∀ (s : State) (serial denyUnknown block tag : Word) (abort : Bool), serial ≠ 0 →
    s.dev.orderInHand .revokeCard block tag abort →
    (∀ e, denyUnknown.toNat ≤ 1 → s.dev.entryOf serial = some e → e.state ≠ .encoding →
      ∃ t, exec (.revokeCard serial denyUnknown) s = .next t ∧
        t.dev.entryOf serial = none ∧ (∀ other, other ≠ serial → t.dev.entryOf other = s.dev.entryOf other) ∧
        t.dev.creds.deny = denyAppend serial s.dev.creds.deny ∧
        (∀ room, Table.find room t.dev.rooms = (Table.find room s.dev.rooms).map (fun r =>
          if e.kind = .guest ∧ room = e.room then { r with guestCount := r.guestCount - 1 } else r)) ∧
        t.dev.journal = (s.dev.notable (.card serial .revoked e.room tag)).journal ∧
        t.dev.walker = s.dev.walker.replied block abort 2 (.done [if e.state = .active then 2 else 3]) ∧
        t = { s with dev := { s.dev with
          regs := { s.dev.regs with status := stallStatus s.dev.journal t.dev.journal s.dev.regs.status }
          walker := t.dev.walker
          creds := { s.dev.creds with entries := t.dev.creds.entries, deny := t.dev.creds.deny }
          rooms := t.dev.rooms
          journal := t.dev.journal } }) ∧
    (∀ e, denyUnknown.toNat ≤ 1 → s.dev.entryOf serial = some e → e.state = .encoding → s.dev.issuesStand [serial] →
      ∃ t u settled, exec (.revokeCard serial denyUnknown) s = .next t ∧
        s.dev.retired u serial .revoked tag settled ∧
        t = { s with dev := { u with
          regs := { s.dev.regs with status := stallStatus s.dev.journal u.journal s.dev.regs.status }
          walker := s.dev.walker.replied block abort 2 { code := .done, words := [1], cancels := settled } } }) ∧
    (s.dev.entryOf serial = none →
      (denyUnknown = 1 → exec (.revokeCard serial denyUnknown) s = .next { s with dev := { s.dev with
        walker := s.dev.walker.replied block abort 2 { code := .notFound, words := [0] }
        creds := { s.dev.creds with deny := denyAppend serial s.dev.creds.deny } } }) ∧
      (denyUnknown = 0 → exec (.revokeCard serial denyUnknown) s = .next { s with dev := { s.dev with
        walker := s.dev.walker.replied block abort 2 { code := .notFound, words := [0] } } }))

/-- READ_CARD changes nothing but its own block. For a serial that an entry outside ENCODING holds it answers DONE with the entry's twelve
words, the encoder and place words 0; for one that an entry in ENCODING holds, with the code of its encoder's node, and the place 0 of the
encoding in progress or 1 on of its issue in the wait queue, counted from the head; for one that no entry holds, NOT_FOUND with every word 0 but the deny word, which is the serial's
place in the deny list counted from the oldest as 1, or 0 (R26). -/
def Obligations.ReadCardReports : Prop :=
  ∀ (s : State) (serial block tag : Word) (abort : Bool), serial ≠ 0 → s.dev.orderInHand .readCard block tag abort →
    ∃ deny : Word,
      (serial ∉ s.dev.creds.deny → deny = 0) ∧
      (∀ older newer, s.dev.creds.deny = older ++ serial :: newer → serial ∉ older → deny = natWord (older.length + 1)) ∧
      (s.dev.entryOf serial = none →
        exec (.readCard serial) s = .next { s with dev := { s.dev with
          walker := s.dev.walker.replied block abort 1
            { code := .notFound, words := [0, 0, 0, 0, 0, 0, 0, 0, 0, 0, 0, deny] } } }) ∧
      ∀ (e : Entry) (encoder place : Nat), s.dev.entryOf serial = some e →
        ((e.state ≠ .encoding ∧ encoder = 0 ∧ place = 0)
          ∨ (e.state = .encoding ∧ Table.wf s.dev.creds.encoders = true ∧ ∃ enc, s.dev.issueAt serial encoder enc
            ∧ ((place = 0 ∧ ∃ c, enc.current = some c ∧ c.issue.serial = serial)
              ∨ ((∀ c, enc.current = some c → c.issue.serial ≠ serial) ∧ ∃ ahead i behind, enc.waiting = ahead ++ i :: behind
                ∧ i.serial = serial ∧ (∀ x ∈ ahead, x.serial ≠ serial) ∧ place = ahead.length + 1)))) →
        exec (.readCard serial) s = .next { s with dev := { s.dev with
          walker := s.dev.walker.replied block abort 1 (.done [natWord e.kind.code, natWord e.room, e.issueMinute, e.validFrom,
            e.validUntil, e.privileges.zeroExtend 32,
            match e.state with
            | .encoding => 1
            | .active => 2
            | .suspended => 3,
            if e.deniedBefore then 1 else 0, e.tag, natWord encoder, natWord place, deny]) } }

/-- ISSUE_CARD accepted, its encoder's node ready: every test of R11 passes. From a full table the purge takes, of the ACTIVE and SUSPENDED entries
a day past their valid-until by a valid clock, the one of smallest valid-until, and of smallest serial among equals: it is FREE, its room's guest
card count the less for a GUEST card, its serial not denied, and CARD PURGED carries the order's TAG. The serial's entry is in ENCODING with the
order's words, its issue minute the present minute or 0 while the clock is invalid, and its denied-before flag as the
deny list stood; the serial leaves the deny list; a GUEST card raises its room's count by one; the issue starts at an idle encoder, its
ENCODE handed with an image of the entry, and waits at a busy one; the block is stamped TAKEN. Nothing else changes (R11, R12, R13, R14). -/
def Obligations.IssueTakesAnEntry : Prop :=
  ∀ (s : State) (encSeg encAddr serial kind room validFrom validUntil privileges supersede block tag : Word) (abort : Bool)
    (k : CardKind) (p : BitVec 11) (n : Node) (enc : Encoder) (key : Nat) (purged : Option (Word × Entry)),
    s.dev.orderInHand .issueCard block tag abort →
    CardKind.ofCode kind.toNat = some k → privilegesOf privileges = some p → serial ≠ 0 →
    (room.toNat < 768 ∨ room.toNat = 65535) → (k = .guest → room.toNat < 768) → validFrom.toNat < validUntil.toNat →
    supersede.toNat ≤ 1 → (supersede = 1 → k = .guest) →
    encSeg.toNat < 8 → 1 ≤ encAddr.toNat → encAddr.toNat ≤ 120 → key = encSeg.toNat * 256 + encAddr.toNat →
    s.dev.reachable key n → n.kind = .encoder → Table.find key s.dev.creds.encoders = some enc →
    s.dev.entryOf serial = none → (k = .guest → ∃ r, Table.find room.toNat s.dev.rooms = some r ∧ r.state = .occupied) →
    ((s.dev.creds.entries.length < 3072 ∧ purged = none)
      ∨ (3072 ≤ s.dev.creds.entries.length ∧ Table.wf s.dev.creds.entries = true ∧ (∀ q ∈ s.dev.creds.entries, q.1 < 4294967296)
        ∧ s.dev.clock.valid = true ∧ ∃ old q, purged = some (old, q) ∧ s.dev.entryOf old = some q ∧ q.state ≠ .encoding
        ∧ q.validUntil.toNat + 1440 ≤ s.dev.clock.minute.toNat
        ∧ ∀ other x, s.dev.entryOf other = some x → x.state ≠ .encoding → x.validUntil.toNat + 1440 ≤ s.dev.clock.minute.toNat →
          q.validUntil.toNat < x.validUntil.toNat ∨ (q.validUntil = x.validUntil ∧ old.toNat ≤ other.toNat))) →
    (enc.current = none ∨ enc.waiting.length < 4) → s.dev.encodingCount + s.dev.walker.settlements.length < 20 →
    ∃ t e image, exec (.issueCard encSeg encAddr serial kind room validFrom validUntil privileges supersede) s = .next t ∧
      e = { kind := k, room := room.toNat, issueMinute := if s.dev.clock.valid then s.dev.clock.minute else 0
            validFrom := validFrom, validUntil := validUntil, privileges := p, state := .encoding
            deniedBefore := s.dev.creds.deny.contains serial, tag := tag } ∧
      t.dev.entryOf serial = some e ∧
      (∀ other, other ≠ serial → t.dev.entryOf other = if purged.map (fun q => q.1) = some other then none else s.dev.entryOf other) ∧
      t.dev.creds.deny = s.dev.creds.deny.filter (fun x => decide (x ≠ serial)) ∧
      (∀ i, Table.find i t.dev.rooms = (Table.find i s.dev.rooms).map (fun r => { r with
        guestCount := r.guestCount - (if purged.any (fun q => decide (q.2.kind = .guest) && decide (q.2.room = i)) then 1 else 0)
          + (if k = .guest ∧ i = room.toNat then 1 else 0) })) ∧
      t.dev.journal = (match purged with
        | none => s.dev.journal
        | some (old, q) => (s.dev.notable (.card old .purged q.room tag)).journal) ∧
      image.serial = serial ∧ image.kind.toNat = k.code ∧ image.room.toNat = room.toNat ∧ image.minute = e.issueMinute ∧
      imagePasses s.dev.propertyCode image = true ∧
      (enc.current = none →
        Table.find key t.dev.creds.encoders = some { enc with current := some {
          issue := { serial := serial, block := block, image := image, supersede := decide (supersede = 1) }, timer := none
          job := s.dev.creds.nextJob } } ∧
        t.dev.segments = s.dev.segments.set encSeg.toNat
          ((s.dev.segment encSeg.toNat).place encAddr.toNat (.encode image s.dev.creds.nextJob))) ∧
      (enc.current ≠ none →
        Table.find key t.dev.creds.encoders = some { enc with waiting := enc.waiting ++
          [{ serial := serial, block := block, image := image, supersede := decide (supersede = 1) }] } ∧
        t.dev.segments = s.dev.segments) ∧
      (∀ other, other ≠ key → Table.find other t.dev.creds.encoders = Table.find other s.dev.creds.encoders) ∧
      t.dev.walker = s.dev.walker.replied block abort 9 { code := .done, deferred := true } ∧
      t.dev.creds.nextJob = (if enc.current = none then s.dev.creds.nextJob + 1 else s.dev.creds.nextJob) ∧
      t = { s with dev := { s.dev with
        regs := { s.dev.regs with status := stallStatus s.dev.journal t.dev.journal s.dev.regs.status }
        walker := t.dev.walker
        creds := { s.dev.creds with
          entries := t.dev.creds.entries, deny := t.dev.creds.deny, encoders := t.dev.creds.encoders
          nextJob := t.dev.creds.nextJob }
        rooms := t.dev.rooms
        segments := t.dev.segments
        journal := t.dev.journal } }

/-- ENCODING_TIMEOUT of an encoding whose timer is due, at an encoder whose node is ready: the entry is FREE, its
serial back in the deny list where it was denied before, the guest card count lowered for a GUEST card; CARD ISSUE_FAILED carries the
entry's tag; the block joins the settlement list with TIMEOUT and result words 0; ABANDON is handed for the node; where no issue waits the
encoder is idle, and otherwise the head of its wait queue starts, its ENCODE handed behind the ABANDON under the next job. Nothing else changes
(R14, R15, R18). -/
def Obligations.EncodingTimeoutFails : Prop :=
  ∀ (s : State) (seg addr : Nat) (n : Node) (enc next : Encoder) (c : Encoding) (e : Entry) (key job : Nat) (commands : List Command),
    key = seg * 256 + addr → addr < 256 → s.settled → s.dev.reachable key n →
    Table.find key s.dev.creds.encoders = some enc → enc.current = some c →
    ((enc.waiting = [] ∧ next = { enc with current := none } ∧ commands = [.abandon] ∧ job = s.dev.creds.nextJob)
      ∨ ∃ issue rest, enc.waiting = issue :: rest ∧ commands = [.abandon, .encode issue.image s.dev.creds.nextJob]
        ∧ next = { enc with current := some { issue := issue, timer := none, job := s.dev.creds.nextJob }, waiting := rest }
        ∧ job = s.dev.creds.nextJob + 1) →
    (∃ count, c.timer = some { count := count, due := true }) → s.dev.entryOf c.issue.serial = some e →
    ∃ t, exec (.encodingTimeout seg addr) s = .next t ∧
      t.dev.entryOf c.issue.serial = none ∧
      (∀ other, other ≠ c.issue.serial → t.dev.entryOf other = s.dev.entryOf other) ∧
      t.dev.creds.deny = (if e.deniedBefore then denyAppend c.issue.serial s.dev.creds.deny else s.dev.creds.deny) ∧
      (∀ room, Table.find room t.dev.rooms = (Table.find room s.dev.rooms).map (fun r =>
        if e.kind = .guest ∧ room = e.room then { r with guestCount := r.guestCount - 1 } else r)) ∧
      t.dev.journal = (s.dev.notable (.card c.issue.serial .issueFailed e.room e.tag)).journal ∧
      t.dev.walker = { s.dev.walker with settlements := s.dev.walker.settlements ++
        [{ block := c.issue.block, words := [0, 0], code := .timeout }] } ∧
      Table.find key t.dev.creds.encoders = some next ∧
      (∀ other, other ≠ key → Table.find other t.dev.creds.encoders = Table.find other s.dev.creds.encoders) ∧
      t.dev.segments = placedFor s.dev.segments key commands ∧
      t = { s with dev := { s.dev with
        regs := { s.dev.regs with status := stallStatus s.dev.journal t.dev.journal s.dev.regs.status }
        walker := t.dev.walker
        creds := { s.dev.creds with
          entries := t.dev.creds.entries, deny := t.dev.creds.deny, encoders := t.dev.creds.encoders, nextJob := job }
        rooms := t.dev.rooms
        segments := t.dev.segments
        journal := t.dev.journal } }

/-- The check word (R9): the property code plus the eleven content bytes weighted by their places, modulo 65,521; the image that the
device builds passes, and one that differs from a passing image in a single content byte fails. -/
def Obligations.CheckWordCatchesAByte : Prop :=
  ∀ (property : Nat) (i : CardImage), property ≤ 65535 →
    checkWord property i = (property + ((imageContent i).zipIdx 1).foldl (fun sum b => sum + b.2 * b.1.toNat) 0) % 65521 ∧
    (∀ serial kind room minute, imagePasses property (buildImage property serial kind room minute) = true) ∧
    ∀ j : CardImage, imagePasses property i = true → j.check = i.check →
      (∃ k, k < 11 ∧ (imageContent j)[k]? ≠ (imageContent i)[k]? ∧
        ∀ m, m ≠ k → (imageContent j)[m]? = (imageContent i)[m]?) →
      imagePasses property j = false

/-! ## Rooms -/

/-- DEFINE_ROOM: an unused place gets a new VACANT room, its ceiling the default ceiling, its minibar set by the suspension rule, result
word 1; a defined room takes the settings and keeps its running state, its last button signal lost with a change of the door link, result
word 0. The grace, the open floor and the default ceiling are clamped to their tops. Nothing else changes (R32, R33, R86). -/
def Obligations.DefineRoomCreatesOrRedefines : Prop :=
  ∀ (s : State) (room code doorSeg doorAddr barSeg barAddr grace openFloor ceiling block tag : Word) (abort : Bool)
    (door bar : Option Nat) (g o c : Nat),
    s.dev.orderInHand .defineRoom block tag abort → room.toNat < 768 → code.toNat ≤ 9999 →
    s.dev.linkNamed .roomDoor room.toNat doorSeg doorAddr door → s.dev.linkNamed .minibar room.toNat barSeg barAddr bar →
    g = min 240 grace.toNat → o = min 10000000 openFloor.toNat → c = min 10000000 ceiling.toNat →
    (∀ r, Table.find room.toNat s.dev.rooms = some r → r.bar.inSession = true → door = r.doorLink ∧ bar = r.barLink) →
    ∃ t after, exec (.defineRoom room code doorSeg doorAddr barSeg barAddr grace openFloor ceiling) s = .next t ∧
      Table.find room.toNat t.dev.rooms = some after ∧
      (∀ other, other ≠ room.toNat → Table.find other t.dev.rooms = Table.find other s.dev.rooms) ∧
      (Table.find room.toNat s.dev.rooms = none →
        after = { code := code.toNat, state := .vacant, stayOpen := false, dnd := false, doorLink := door, barLink := bar, grace := g
                  guestCount := 0, lastButton := none, defaultCeiling := c, openFloor := o, balance := 0, ceiling := c, unposted := 0
                  slots := List.replicate 12 { item := none, capacity := 15, baseline := 0 }
                  bar := if c < o then .suspended else .locked
                  unsettled := false, orphan := false, session := none, unlatchPending := false }) ∧
      (∀ r, Table.find room.toNat s.dev.rooms = some r →
        after = { r with
          code := code.toNat, doorLink := door, barLink := bar, grace := g, openFloor := o, defaultCeiling := c
          lastButton := if door = r.doorLink then r.lastButton else none
          bar := if r.bar.inSession then r.bar else if r.ceiling - r.balance < o ∨ 0 < r.unposted then .suspended else .locked }) ∧
      t.dev.walker = s.dev.walker.replied block abort 9
        { code := .done, words := [if Table.find room.toNat s.dev.rooms = none then 1 else 0]
          clamped := decide (240 < grace.toNat ∨ 10000000 < openFloor.toNat ∨ 10000000 < ceiling.toNat) } ∧
      t = { s with dev := { s.dev with walker := t.dev.walker, rooms := t.dev.rooms } }

/-- CHECK_IN of a VACANT room: the folio starts at 0 and 0, under the default ceiling or the one given, clamped to 10,000,000; the room is
OCCUPIED with its stay open and DND clear; outside a session its minibar stands as the suspension rule sets it; the STAY CHECK_IN record
is written, and the result words are the balance and the unposted sum before and the orphan flag. Nothing else changes (R37). -/
def Obligations.CheckInOpensTheStay : Prop :=
  ∀ (s : State) (room source ceiling block tag : Word) (abort : Bool) (r : Room) (c : Nat),
    s.dev.orderInHand .checkIn block tag abort → room.toNat < 768 → source.toNat ≤ 1 →
    Table.find room.toNat s.dev.rooms = some r → r.state = .vacant →
    c = (if source = 1 then min 10000000 ceiling.toNat else r.defaultCeiling) →
    ∃ t, exec (.checkIn room source ceiling) s = .next t ∧
      Table.find room.toNat t.dev.rooms = some { r with
        balance := 0, unposted := 0, ceiling := c, state := .occupied, stayOpen := true, dnd := false
        bar := if r.bar.inSession then r.bar else if c < r.openFloor then .suspended else .locked } ∧
      (∀ other, other ≠ room.toNat → Table.find other t.dev.rooms = Table.find other s.dev.rooms) ∧
      t.dev.journal = (s.dev.notable (.stay room.toNat .checkIn 0 0)).journal ∧
      t.dev.walker = s.dev.walker.replied block abort 3
        { code := .done, words := [natWord r.balance, natWord r.unposted, if r.orphan then 1 else 0]
          clamped := decide (source = 1 ∧ 10000000 < ceiling.toNat) } ∧
      t = { s with dev := { s.dev with
        regs := { s.dev.regs with status := stallStatus s.dev.journal t.dev.journal s.dev.regs.status }
        walker := t.dev.walker
        rooms := t.dev.rooms
        journal := t.dev.journal } }

/-- CHECK_OUT of a room that is not VACANT, no GUEST card of it in ENCODING: its GUEST entries are FREE and denied in ascending order of
serial, each with CARD REVOKED. With GUEST cards in ENCODING these come first, each cancelled, in ascending order, its block settling with
CANCELLED ahead of the order's own answer; then the others. A minibar in session is relocked and its reservation given back; the room is
VACANT with its stay closed, DND clear, folio 0 under the default ceiling, minibar orphaned where it was in session or unsettled; the STAY
CHECK_OUT record carries the balance and the unposted sum, and the result words with them the cards revoked and the minibar word. Nothing
else changes (R20, R23, R38, R39). That unsettled goods give word 2 where the minibar is still orphaned too is the model's choice (log
entry 48). -/
def Obligations.CheckOutClosesTheStay : Prop :=
  (∀ (s : State) (room block tag : Word) (abort : Bool) (r : Room) (serials : List Word) (barWord : Nat),
    s.dev.orderInHand .checkOut block tag abort → room.toNat < 768 →
    Table.find room.toNat s.dev.rooms = some r → r.state ≠ .vacant →
    Table.wf s.dev.creds.entries = true → (∀ p ∈ s.dev.creds.entries, p.1 < 4294967296) →
    (∀ serial e, s.dev.entryOf serial = some e → e.kind = .guest → e.room = room.toNat → e.state ≠ .encoding) →
    (∀ serial, serial ∈ serials ↔ ∃ e, s.dev.entryOf serial = some e ∧ e.kind = .guest ∧ e.room = room.toNat) →
    serials.Pairwise (fun a b => a.toNat < b.toNat) →
    (r.bar.inSession = true → ∀ key, r.barLink = some key → ∃ n, s.dev.reachable key n) →
    barWord = (if r.bar.inSession then 1 else if r.unsettled then 2 else 0) →
    ∃ t, exec (.checkOut room) s = .next t ∧
      (∀ serial, t.dev.entryOf serial = if serial ∈ serials then none else s.dev.entryOf serial) ∧
      t.dev.creds.deny = serials.foldl (fun deny serial => denyAppend serial deny) s.dev.creds.deny ∧
      (∀ other, other ≠ room.toNat → Table.find other t.dev.rooms = Table.find other s.dev.rooms) ∧
      Table.find room.toNat t.dev.rooms = some { r with
        state := .vacant, stayOpen := false, dnd := false, guestCount := r.guestCount - serials.length
        balance := 0, unposted := 0, ceiling := r.defaultCeiling
        bar := if r.defaultCeiling < r.openFloor then .suspended else .locked
        unsettled := false, orphan := r.orphan || decide (barWord ≠ 0), session := none, unlatchPending := false } ∧
      t.dev.segments = (match r.barLink with
        | some key =>
          if r.bar.inSession then
            s.dev.segments.set (key / 256) ((s.dev.segment (key / 256)).place (key % 256) .relock)
          else s.dev.segments
        | none => s.dev.segments) ∧
      (∀ revoked closed : Device,
        revoked = serials.foldl (fun d serial => d.notable (.card serial .revoked room.toNat tag)) s.dev →
        closed = (if r.bar.inSession then revoked.giveBack else revoked) →
        t.dev.journal = (closed.record (.stay room.toNat .checkOut r.balance r.unposted)
          { barWord1 := decide (barWord = 1), barWord2 := decide (barWord = 2) } .notable).journal) ∧
      t.dev.walker = s.dev.walker.replied block abort 1
        (.done [natWord r.balance, natWord r.unposted, natWord serials.length, natWord barWord]) ∧
      t = { s with dev := { s.dev with
        regs := { s.dev.regs with status := stallStatus s.dev.journal t.dev.journal s.dev.regs.status }
        walker := t.dev.walker
        creds := { s.dev.creds with entries := t.dev.creds.entries, deny := t.dev.creds.deny }
        rooms := t.dev.rooms
        segments := t.dev.segments
        journal := t.dev.journal } }) ∧
  (∀ (s : State) (room block tag : Word) (abort : Bool) (r : Room) (cancelled held : List Word) (barWord : Nat),
    s.dev.orderInHand .checkOut block tag abort → room.toNat < 768 →
    Table.find room.toNat s.dev.rooms = some r → r.state ≠ .vacant →
    Table.wf s.dev.creds.entries = true → (∀ p ∈ s.dev.creds.entries, p.1 < 4294967296) →
    (∀ serial, serial ∈ cancelled ↔
      ∃ e, s.dev.entryOf serial = some e ∧ e.kind = .guest ∧ e.room = room.toNat ∧ e.state = .encoding) →
    (∀ serial, serial ∈ held ↔
      ∃ e, s.dev.entryOf serial = some e ∧ e.kind = .guest ∧ e.room = room.toNat ∧ e.state ≠ .encoding) →
    cancelled.Pairwise (fun a b => a.toNat < b.toNat) → held.Pairwise (fun a b => a.toNat < b.toNat) →
    s.dev.issuesStand (cancelled ++ held) →
    (r.bar.inSession = true → ∀ key, r.barLink = some key → ∃ n, s.dev.reachable key n) →
    barWord = (if r.bar.inSession then 1 else if r.unsettled then 2 else 0) →
    ∃ t mid settled, exec (.checkOut room) s = .next t ∧
      Device.retiredAll .revoked tag s.dev mid (cancelled ++ held) settled ∧
      (∀ other, other ≠ room.toNat → Table.find other t.dev.rooms = Table.find other mid.rooms) ∧
      Table.find room.toNat t.dev.rooms = some { r with
        state := .vacant, stayOpen := false, dnd := false, guestCount := r.guestCount - (cancelled ++ held).length
        balance := 0, unposted := 0, ceiling := r.defaultCeiling
        bar := if r.defaultCeiling < r.openFloor then .suspended else .locked
        unsettled := false, orphan := r.orphan || decide (barWord ≠ 0), session := none, unlatchPending := false } ∧
      t.dev.segments = (match r.barLink with
        | some key => if r.bar.inSession then placedFor mid.segments key [.relock] else mid.segments
        | none => mid.segments) ∧
      t.dev.journal = ((if r.bar.inSession then mid.giveBack else mid).record (.stay room.toNat .checkOut r.balance r.unposted)
        { barWord1 := decide (barWord = 1), barWord2 := decide (barWord = 2) } .notable).journal ∧
      t = { s with dev := { mid with
        regs := { s.dev.regs with status := stallStatus s.dev.journal t.dev.journal s.dev.regs.status }
        walker := s.dev.walker.replied block abort 1
          { code := .done, words := [natWord r.balance, natWord r.unposted, natWord (cancelled ++ held).length, natWord barWord]
            cancels := settled }
        rooms := t.dev.rooms
        segments := t.dev.segments
        journal := t.dev.journal } })

/-- SET_ROOM_STATE to a state that the room may take: the state alone changes, behind a STAY STATE record; to the state the room is in,
nothing. A room goes to OUT_OF_ORDER from either other state, and from there to OCCUPIED with its stay open and to VACANT with it closed;
any other move is refused with WRONG_STATE. The result word is the state before (R29, R41); a refused move's is 0, a reading of R182 against R41
(log entry 32). -/
def Obligations.SetRoomStateMovesTheRoom : Prop :=
  ∀ (s : State) (room newState block tag : Word) (abort : Bool) (r : Room) (after : RoomState) (may : Prop),
    s.dev.orderInHand .setRoomState block tag abort → room.toNat < 768 → Table.find room.toNat s.dev.rooms = some r →
    ((newState = 1 ∧ after = .vacant) ∨ (newState = 2 ∧ after = .occupied) ∨ (newState = 3 ∧ after = .outOfOrder)) →
    may = ((after = .outOfOrder ∧ r.state ≠ .outOfOrder) ∨ (r.state = .outOfOrder ∧ after = .occupied ∧ r.stayOpen = true) ∨
      (r.state = .outOfOrder ∧ after = .vacant ∧ r.stayOpen = false)) →
    (may → ∃ t, exec (.setRoomState room newState) s = .next t ∧
      Table.find room.toNat t.dev.rooms = some { r with state := after } ∧
      (∀ other, other ≠ room.toNat → Table.find other t.dev.rooms = Table.find other s.dev.rooms) ∧
      t.dev.journal = (s.dev.notable (.stay room.toNat (.state r.state after) 0 0)).journal ∧
      t.dev.walker = s.dev.walker.replied block abort 2 (.done [natWord r.state.code]) ∧
      t = { s with dev := { s.dev with
        regs := { s.dev.regs with status := stallStatus s.dev.journal t.dev.journal s.dev.regs.status }
        walker := t.dev.walker
        rooms := t.dev.rooms
        journal := t.dev.journal } }) ∧
    (¬ may → exec (.setRoomState room newState) s = .next { s with dev := { s.dev with
      walker := s.dev.walker.replied block abort 2
        (if after = r.state then .done [natWord r.state.code] else { code := .wrongState, words := [0] }) } })

/-- READ_ROOM and READ_NODE change nothing but their own block (R42, R145). READ_ROOM answers a defined room's fields and slots; a link is
its node's code and a stopped timer reads 0. READ_NODE answers the fields of a defined node; the
sequence is 16 before any report, the pending command and its attempts are those of the command queued, or of the attempt in progress, and the
three kept signals, 0 for none, 1 GRANT and 2 REFUSE, share a word; then come the settings and the running fields of its door record. -/
def Obligations.ReadsShowTheRecords : Prop :=
  ∀ (s : State) (block tag : Word) (abort : Bool),
    (∀ (room : Word) (r : Room), s.dev.orderInHand .readRoom block tag abort → room.toNat < 768 →
      Table.find room.toNat s.dev.rooms = some r →
      exec (.readRoom room) s = .next { s with dev := { s.dev with walker := s.dev.walker.replied block abort 1 (.done (
        [natWord r.code, natWord r.state.code, if r.stayOpen then 1 else 0, if r.dnd then 1 else 0, natWord (r.doorLink.getD 0),
          natWord (r.barLink.getD 0), natWord r.grace, natWord r.guestCount, natWord r.balance, natWord r.ceiling, natWord r.unposted,
          natWord r.openFloor, natWord r.defaultCeiling, natWord r.bar.code, if r.unsettled then 1 else 0, if r.orphan then 1 else 0,
          natWord ((r.session.map (fun t => t.count)).getD 0)]
        ++ r.slots.map (fun x => natWord (x.item.getD 255 + 256 * x.capacity + 65536 * x.baseline)))) } }) ∧
    (∀ (seg addr : Word) (n : Node) (key : Nat), s.dev.orderInHand .readNode block tag abort →
      seg.toNat < 8 → 1 ≤ addr.toNat → addr.toNat ≤ 120 → key = seg.toNat * 256 + addr.toNat → Table.find key s.dev.nodes = some n →
      ∃ words, words.length = 33 ∧
        exec (.readNode seg addr) s = .next { s with dev := { s.dev with
          walker := s.dev.walker.replied block abort 2 (.done words) } } ∧
        words.take 13 = [natWord n.kind.code, natWord n.service, natWord n.room, natWord n.faultMode.code, natWord n.faultDelay.code,
          natWord n.deglitch, natWord n.state.code, natWord n.misses, natWord ((n.lastSeq.map (fun q => q.toNat)).getD 16),
          natWord n.passOver, natWord n.retries, natWord ((n.retryTimer.map (fun t => t.count)).getD 0),
          natWord ((if n.onProbe then 1 else 0) + (if n.faultOpen then 2 else 0)
            + (if addr.toNat ∈ (s.dev.segment seg.toNat).attention then 4 else 0))] ∧
        ((s.dev.segment seg.toNat).queue = [] →
          (∀ x, (s.dev.segment seg.toNat).exchange = some x → x.addr = addr.toNat → ∀ c attempts, x.carried = some (c, attempts) →
            words[13]? = some (natWord c.code) ∧ words[14]? = some (natWord attempts)) ∧
          ((s.dev.segment seg.toNat).exchange = none → words[13]? = some 0 ∧ words[14]? = some 0)) ∧
        (∀ e rest, (s.dev.segment seg.toNat).queue = e :: rest → e.addr = addr.toNat →
          words[13]? = some (natWord e.command.code) ∧ words[14]? = some (natWord e.attempts)) ∧
        (∀ code : Option Signal → Nat, code none = 0 → code (some .grant) = 1 → code (some .refuse) = 2 →
          words[15]? = some (natWord (code n.lastVerdict + 256 * code n.lastTally
            + 65536 * code ((Table.find key s.dev.creds.encoders).bind (fun e => e.lastResult))))) ∧
        (n.door = none → words.drop 16 = List.replicate 17 0) ∧
        (∀ r, n.door = some r →
          (words.drop 16).take 10 = [r.settings.admitSet.zeroExtend 32, natWord r.settings.hoursOpen, natWord r.settings.hoursClose,
            natWord r.settings.relock.code, natWord r.settings.releaseTime, natWord r.settings.heldLimit,
            natWord r.settings.forcedMode.code, natWord r.settings.forcedDelay.code, natWord r.settings.heldMode.code,
            natWord r.settings.heldDelay.code] ∧
          words[26]? = some (natWord r.state.code) ∧ words[27]? = some (natWord (r.contact.code + (if r.forcedLatch then 256 else 0)
            + (if r.heldLatch then 512 else 0) + (if r.holdUnsent then 1024 else 0))) ∧
          (words.drop 28).take 3 = [r.releaseTimer, r.heldTimer, r.delayTimer].map (fun t =>
            match t with
            | none => 0
            | some x => natWord (2147483648 + x.count)) ∧
          words[31]? = some (r.holdEnd.getD 0) ∧ words[32]? = some (r.savedEnd.getD 0)))

/-! ## Doors -/

/-- Coming to rest follows the first case of R66 that applies: the node out of service, a forced latch, a held latch, an open contact, a
closed contact under a running ON_TIMER release, a closed contact, an unseen contact. That every case but the first leaves the alarm delay
timer as it is is the model's choice (log entry 20). -/
def Obligations.DoorRestsByTheFirstCase : Prop :=
  ∀ r : Door,
    r.rest true = { door := { r with state := .unknown, releaseTimer := none, heldTimer := none, delayTimer := none } } ∧
    (r.forcedLatch = true → r.rest false = { door := { r with state := .forced, heldTimer := none } }) ∧
    (r.forcedLatch = false → r.heldLatch = true → r.rest false = { door := { r with state := .held, heldTimer := none } }) ∧
    (r.forcedLatch = false → r.heldLatch = false →
      (r.contact = .opened → ∀ running, running = (if r.heldTimer = none then Timer.started else r.heldTimer) →
        r.rest false = { door := { r with state := .opened, heldTimer := running } }) ∧
      (r.contact = .closed → r.releaseTimer ≠ none → r.settings.relock = .onTimer →
        r.rest false = { door := { r with state := .released, heldTimer := none } }) ∧
      (r.contact = .closed → ¬ (r.releaseTimer ≠ none ∧ r.settings.relock = .onTimer) →
        r.rest false = { door := { r with state := .locked, releaseTimer := none, heldTimer := none }, commands := [.relock] }) ∧
      (r.contact = .unseen →
        r.rest false = { door := { r with state := .unknown, releaseTimer := none, heldTimer := none }, commands := [.relock] }))

/-- DOOR_COMMAND RELEASE and RELOCK at a door whose node takes commands: the door, the commands and the record by the door's state, the
states before and after as result words, and WRONG_STATE with no effect where the state refuses it (R66, R67, R75). That the latch of the
standing alarm alone decides a release in an alarm is a reading of R67 (log entry 8), and that a refusal's result words are 0 one of R182
(log entry 32). That an alarm delay timer still running is left so, and hold unsent at the end of a hold, are the model's choices (log
entries 20 and 47). -/
def Obligations.DoorReleaseAndRelock : Prop :=
  ∀ (s : State) (seg addr endMinute block tag : Word) (abort : Bool) (key : Nat) (n : Node) (r : Door),
    s.dev.orderInHand .doorCommand block tag abort → seg.toNat < 8 → 1 ≤ addr.toNat → addr.toNat ≤ 120 →
    key = seg.toNat * 256 + addr.toNat → s.dev.reachable key n → n.door = some r →
    (∀ (freed after : Door) (events : List DoorEvent) (duration : Nat),
      duration = (if r.settings.relock = .onTimer then r.settings.releaseTime else 0) →
      freed = (if r.contact = .opened then
        { r with state := .opened, releaseTimer := some { count := 0, due := false }, heldTimer := some { count := 0, due := false } }
        else { r with state := .released, releaseTimer := some { count := 0, due := false } }) →
      (((r.state = .unknown ∨ r.state = .locked) ∧ after = freed ∧ events = []) ∨
        ((r.state = .released ∨ r.state = .opened ∨ (r.state = .forced ∧ r.forcedLatch = true) ∨
          (r.state = .held ∧ r.heldLatch = true)) ∧
          after = { r with releaseTimer := some { count := 0, due := false } } ∧ events = []) ∨
        (((r.state = .forced ∧ r.forcedLatch = false) ∨ (r.state = .held ∧ r.heldLatch = false)) ∧
          after = { freed with delayTimer := none } ∧ events = [.cleared])) →
      ∃ t, exec (.doorCommandRelease seg addr 1 endMinute) s = .next t ∧
        s.doorMoved t (s.dev.walker.replied block abort 4 (.done [natWord r.state.code, natWord after.state.code])) key n after
          [.release duration] events false) ∧
    (r.state = .holdOpen ∨ r.state = .emergency →
      exec (.doorCommandRelease seg addr 1 endMinute) s = .next { s with dev := { s.dev with
        walker := s.dev.walker.replied block abort 4 { code := .wrongState, words := [0, 0] } } }) ∧
    (∀ (after : Door) (events : List DoorEvent),
      ((r.state = .released ∧ after = { r with state := .locked, releaseTimer := none } ∧ events = []) ∨
        (r.state = .opened ∧ after = { r with releaseTimer := none } ∧ events = []) ∨
        (r.state = .holdOpen ∧ after = (Door.rest { r with holdEnd := none } false).door ∧ events = [.holdEnd]) ∨
        ((r.state = .locked ∨ r.state = .unknown ∨ r.state = .forced ∨ r.state = .held) ∧ after = r ∧ events = [])) →
      ∃ t, exec (.doorCommandRelock seg addr 2 endMinute) s = .next t ∧
        s.doorMoved t (s.dev.walker.replied block abort 4 (.done [natWord r.state.code, natWord after.state.code])) key n after
          [.relock] events false) ∧
    (r.state = .emergency →
      exec (.doorCommandRelock seg addr 2 endMinute) s = .next { s with dev := { s.dev with
        walker := s.dev.walker.replied block abort 4 { code := .wrongState, words := [0, 0] } } })

/-- DOOR_COMMAND HOLD with the clock valid, and storm mode inactive at a SHORE_GATE: an end minute at or below the present one becomes the
present minute plus one, with CLAMPED; the door goes to HOLD_OPEN with every timer stopped, or takes the new end, and in EMERGENCY it keeps
the end for after the fire; FORCED and HELD refuse it. CLEAR_ALARM clears both latches and the alarm delay, and a standing alarm comes to
rest with DOOR CLEARED (R74, R76). That the minute after the last one is 0, and that a refusal carries no CLAMPED, are the model's choices
(log entries 22 and 50), and that a refusal's result words are 0 a reading of R182 (log entry 32). -/
def Obligations.DoorHoldAndClearAlarm : Prop :=
  ∀ (s : State) (seg addr endMinute block tag : Word) (abort : Bool) (key : Nat) (n : Node) (r : Door),
    seg.toNat < 8 → 1 ≤ addr.toNat → addr.toNat ≤ 120 →
    key = seg.toNat * 256 + addr.toNat → s.dev.reachable key n → n.door = some r →
    (s.dev.orderInHand .doorCommand block tag abort → s.dev.clock.valid = true →
      (n.kind = .shoreGate → s.dev.storm.active = false) →
      (∀ (after : Door) (commands : List Command) (hold : Word) (early : Bool),
        early = decide (endMinute.toNat ≤ s.dev.clock.minute.toNat) → hold = (if early then s.dev.clock.minute + 1 else endMinute) →
        (((r.state = .unknown ∨ r.state = .locked ∨ r.state = .released ∨ r.state = .opened) ∧
            after = { r with state := .holdOpen, releaseTimer := none, heldTimer := none, delayTimer := none, holdEnd := some hold } ∧
            commands = [.hold]) ∨
          (r.state = .holdOpen ∧ after = { r with holdEnd := some hold } ∧ commands = [.hold]) ∨
          (r.state = .emergency ∧ after = { r with savedEnd := some hold } ∧ commands = [])) →
        ∃ t, exec (.doorCommandHold seg addr 3 endMinute) s = .next t ∧
          s.doorMoved t (s.dev.walker.replied block abort 4
            { code := .done, clamped := early, words := [natWord r.state.code, natWord after.state.code] }) key n after
            commands [.holdStart] false) ∧
      (r.state = .forced ∨ r.state = .held →
        exec (.doorCommandHold seg addr 3 endMinute) s = .next { s with dev := { s.dev with
          walker := s.dev.walker.replied block abort 4 { code := .wrongState, words := [0, 0] } } })) ∧
    (s.dev.orderInHand .clearAlarm block tag abort →
      ∀ (cleared : Door) (o : DoorOut) (events : List DoorEvent),
        cleared = { r with forcedLatch := false, heldLatch := false, delayTimer := none } →
        (((r.state = .forced ∨ r.state = .held) ∧ o = Door.rest { cleared with heldTimer := none } false ∧ events = [.cleared]) ∨
          (r.state ≠ .forced ∧ r.state ≠ .held ∧ o = { door := cleared } ∧ events = [])) →
        ∃ t, exec (.clearAlarm seg addr) s = .next t ∧
          s.doorMoved t (s.dev.walker.replied block abort 2 (.done [natWord r.state.code, natWord o.door.state.code])) key n o.door
            o.commands events false)

/-- The three timers of a door, each due, at a node that takes commands: the timer stops; a release ends by the state and the relock mode;
a held timer in OPEN raises the held alarm by its response mode, with SIGNAL ALARM, DOOR HELD and DOOR_ALARM; an alarm delay ends a
standing alarm with DOOR CLEARED (R70, R71, R72, R73). With the timer not due nothing happens (the model's choice, log entry 2). That the
delay timer of an earlier alarm ends the alarm that stands is the model's choice too (log entry 20). -/
def Obligations.DoorTimersExpire : Prop :=
  ∀ (s : State) (seg addr key : Nat) (n : Node) (r : Door),
    s.settled → key = seg * 256 + addr → s.dev.reachable key n → n.door = some r →
    (∀ (count : Nat) (after : Door) (commands : List Command), r.releaseTimer = some { count := count, due := true } →
      ((r.state = .released ∧ after = { r with state := .locked, releaseTimer := none } ∧ commands = [.relock]) ∨
        (r.state = .opened ∧ after = { r with releaseTimer := none } ∧
          commands = (if r.settings.relock = .onTimer then [.relock] else [])) ∨
        ((r.state = .forced ∨ r.state = .held) ∧ after = { r with releaseTimer := none } ∧
          commands = (if r.settings.relock = .onTimer ∨ r.contact = .closed then [.relock] else []))) →
      ∃ t, exec (.releaseTimerExpiry seg addr) s = .next t ∧ s.doorMoved t s.dev.walker key n after commands [] false) ∧
    (∀ (count : Nat) (after : Door), r.heldTimer = some { count := count, due := true } → r.state = .opened →
      (r.settings.heldMode ≠ .ignore →
        after = { r with state := .held, heldTimer := none, heldLatch := r.heldLatch || decide (r.settings.heldMode = .latch) } →
        ∃ t, exec (.heldTimerExpiry seg addr) s = .next t ∧ s.doorMoved t s.dev.walker key n after [.signal] [.held] true) ∧
      (r.settings.heldMode = .ignore → after = { r with heldTimer := some { count := 0, due := false } } →
        ∃ t, exec (.heldTimerExpiry seg addr) s = .next t ∧ s.doorMoved t s.dev.walker key n after [] [] false)) ∧
    (∀ (count : Nat) (o : DoorOut), r.delayTimer = some { count := count, due := true } → (r.state = .forced ∨ r.state = .held) →
      o = Door.rest { r with delayTimer := none } false →
      ∃ t, exec (.alarmDelayExpiry seg addr) s = .next t ∧ s.doorMoved t s.dev.walker key n o.door o.commands [.cleared] false) ∧
    (Timer.isDue r.releaseTimer = false →
      ∃ t, exec (.releaseTimerExpiry seg addr) s = .next t ∧ s.doorMoved t s.dev.walker key n r [] [] false) ∧
    (Timer.isDue r.heldTimer = false →
      ∃ t, exec (.heldTimerExpiry seg addr) s = .next t ∧ s.doorMoved t s.dev.walker key n r [] [] false) ∧
    (Timer.isDue r.delayTimer = false →
      ∃ t, exec (.alarmDelayExpiry seg addr) s = .next t ∧ s.doorMoved t s.dev.walker key n r [] [] false)

/-! ## Minibars, folios and the tariff -/

/-- POST_FOLIO and SET_CEILING in every room and minibar state. A posting of 0 or more fills the headroom and sends its excess to the
unposted sum, which stops at 16,777,215; a credit is taken from the unposted sum, then from the balance, and the rest is lost; the amount
is clamped to 10,000,000 either way. A new ceiling, clamped to 10,000,000, moves the balance above it to the unposted sum. Outside a
session the minibar stands as the suspension rule sets it. No record is written, and nothing else changes (R102, R103, R111, R112, R115). -/
def Obligations.FolioOrders : Prop :=
  ∀ (s : State) (room block tag : Word) (abort : Bool) (r : Room), room.toNat < 768 → Table.find room.toNat s.dev.rooms = some r →
    (∀ (amount : Word) (a : Int) (balance unposted excess lost : Nat) (saturated : Bool),
      s.dev.orderInHand .postFolio block tag abort → a = max (-10000000) (min 10000000 amount.toInt) →
      ((0 ≤ a ∧ ∃ posted, posted = min a.toNat (r.ceiling - r.balance) ∧ balance = r.balance + posted ∧ excess = a.toNat - posted ∧
          unposted = min 16777215 (r.unposted + excess) ∧ lost = 0 ∧ saturated = decide (16777215 < r.unposted + excess)) ∨
        (a < 0 ∧ ∃ first second, first = min (-a).toNat r.unposted ∧ second = min ((-a).toNat - first) r.balance ∧
          unposted = r.unposted - first ∧ balance = r.balance - second ∧ lost = (-a).toNat - first - second ∧ excess = 0 ∧
          saturated = false)) →
      ∃ t, exec (.postFolio room amount) s = .next t ∧
        Table.find room.toNat t.dev.rooms = some { r with
          balance := balance, unposted := unposted
          bar := if r.bar.inSession then r.bar else if r.ceiling - balance < r.openFloor ∨ 0 < unposted then .suspended else .locked } ∧
        (∀ other, other ≠ room.toNat → Table.find other t.dev.rooms = Table.find other s.dev.rooms) ∧
        t.dev.walker = s.dev.walker.replied block abort 2
          { code := .done, clamped := decide (a ≠ amount.toInt)
            words := [natWord balance, natWord unposted, natWord excess, natWord lost, if saturated then 1 else 0] } ∧
        t = { s with dev := { s.dev with walker := t.dev.walker, rooms := t.dev.rooms } }) ∧
    (∀ (ceiling : Word) (top balance unposted : Nat),
      s.dev.orderInHand .setCeiling block tag abort → top = min 10000000 ceiling.toNat → balance = min r.balance top →
      unposted = (if top < r.balance then min 16777215 (r.unposted + (r.balance - top)) else r.unposted) →
      ∃ t, exec (.setCeiling room ceiling) s = .next t ∧
        Table.find room.toNat t.dev.rooms = some { r with
          ceiling := top, balance := balance, unposted := unposted
          bar := if r.bar.inSession then r.bar else if top - balance < r.openFloor ∨ 0 < unposted then .suspended else .locked } ∧
        (∀ other, other ≠ room.toNat → Table.find other t.dev.rooms = Table.find other s.dev.rooms) ∧
        t.dev.walker = s.dev.walker.replied block abort 2
          { code := .done, clamped := decide (10000000 < ceiling.toNat)
            words := [natWord r.ceiling, natWord balance, natWord unposted] } ∧
        t = { s with dev := { s.dev with walker := t.dev.walker, rooms := t.dev.rooms } })

/-- SET_SLOTS of a room not in session replaces the item and the capacity of all twelve slots, the capacity brought into 1 to 15 with
CLAMPED, and keeps the baselines; in a session it is refused with WRONG_STATE, without CLAMPED whatever the capacities (the model's choice,
log entry 50). SET_TARIFF writes one item's price and tax class, or one class's rate, a value above its top clamped, and answers what stood
there before. No record is written, and nothing else changes (R101, R106). -/
def Obligations.SlotsAndTariff : Prop :=
  ∀ (s : State) (block tag : Word) (abort : Bool),
    (∀ (room : Word) (slots : List (Word × Word)) (r : Room), s.dev.orderInHand .setSlots block tag abort →
      room.toNat < 768 → Table.find room.toNat s.dev.rooms = some r → slots.length = 12 → r.slots.length = 12 →
      (∀ p ∈ slots, p.1.toNat < 64 ∨ p.1.toNat = 255) →
      (r.bar.inSession = false → ∃ t, exec (.setSlots room slots) s = .next t ∧
        Table.find room.toNat t.dev.rooms = some { r with slots := List.zipWith (fun (x : Slot) (p : Word × Word) =>
          { x with item := if p.1 = 255 then none else some p.1.toNat, capacity := max 1 (min 15 p.2.toNat) }) r.slots slots } ∧
        (∀ other, other ≠ room.toNat → Table.find other t.dev.rooms = Table.find other s.dev.rooms) ∧
        t.dev.walker = s.dev.walker.replied block abort 25
          { code := .done, clamped := slots.any (fun p => p.2.toNat = 0 || decide (15 < p.2.toNat)) } ∧
        t = { s with dev := { s.dev with walker := t.dev.walker, rooms := t.dev.rooms } }) ∧
      (r.bar.inSession = true → exec (.setSlots room slots) s = .next { s with dev := { s.dev with
        walker := s.dev.walker.replied block abort 25 { code := .wrongState } } })) ∧
    (∀ (index value taxClass : Word), s.dev.orderInHand .setTariff block tag abort →
      (∀ old : TariffItem, index.toNat < 64 → taxClass.toNat < 4 → s.dev.tariff.items[index.toNat]? = some old →
        exec (.setTariff 0 index value taxClass) s = .next { s with dev := { s.dev with
          tariff := { s.dev.tariff with
            items := s.dev.tariff.items.set index.toNat { price := min 50000 value.toNat, taxClass := taxClass.toNat } }
          walker := s.dev.walker.replied block abort 4
            { code := .done, clamped := decide (50000 < value.toNat), words := [natWord old.price, natWord old.taxClass] } } }) ∧
      (∀ old : Nat, index.toNat < 4 → s.dev.tariff.rates[index.toNat]? = some old →
        exec (.setTariff 1 index value taxClass) s = .next { s with dev := { s.dev with
          tariff := { s.dev.tariff with rates := s.dev.tariff.rates.set index.toNat (min 3000 value.toNat) }
          walker := s.dev.walker.replied block abort 4
            { code := .done, clamped := decide (3000 < value.toNat), words := [natWord old, 0] } } }))

/-- SESSION_LIMIT of a session whose timer is due, at a minibar node that takes commands: RELOCK is handed; the session ends unsettled, its
timer stopped, UNLATCH no longer pending, the minibar as the suspension rule sets it; UNSETTLED SESSION_LIMIT uses the session's
reservation. Nothing else changes (R91, R93, R132). -/
def Obligations.SessionLimitEndsTheSession : Prop :=
  ∀ (s : State) (room key count : Nat) (r : Room) (n : Node),
    s.settled → Table.find room s.dev.rooms = some r → r.barLink = some key → r.bar.inSession = true →
    r.session = some { count := count, due := true } → s.dev.reachable key n → 0 < s.dev.journal.reserved →
    ∃ t, exec (.sessionLimit room) s = .next t ∧
      Table.find room t.dev.rooms = some { r with
        session := none, unlatchPending := false, unsettled := true
        bar := if r.ceiling - r.balance < r.openFloor ∨ 0 < r.unposted then .suspended else .locked } ∧
      (∀ other, other ≠ room → Table.find other t.dev.rooms = Table.find other s.dev.rooms) ∧
      t.dev.segments = s.dev.segments.set (key / 256) ((s.dev.segment (key / 256)).place (key % 256) .relock) ∧
      t.dev.journal = (s.dev.record (.unsettled room key .sessionLimit) {} .reserved).journal ∧
      t.dev.journal.load = s.dev.journal.load ∧
      t = { s with dev := { s.dev with rooms := t.dev.rooms, segments := t.dev.segments, journal := t.dev.journal } }

/-- From slots and counts to lines, and from lines to the amount: one line for each slot whose delta is not 0, in ascending order of slot;
an empty slot's amount 0, an item's its net plus the tax rounded to the nearest cent with a half cent upward; the settlement amount what
was taken less what was returned (R95, R107, R108, R109). -/
def Obligations.LinesArePricedByTheTariff : Prop :=
  (∀ net rate tax : Nat, tax = lineTax net rate → 10000 * tax ≤ net * rate + 5000 ∧ net * rate < 10000 * tax + 5000 ∧
    (net ≤ 750000 → rate ≤ 3000 → tax ≤ 225000)) ∧
  ∀ (tariff : Tariff) (reports : List (Slot × Nat)) (delta : Slot × Nat → Int) (amount : Slot × Nat → Nat),
    (∀ p, delta p = (p.1.baseline : Int) - (min p.2 p.1.capacity : Nat)) →
    (∀ p, p.1.item = none → amount p = 0) →
    (∀ p i item rate net, p.1.item = some i → tariff.items[i]? = some item → tariff.rates[item.taxClass]? = some rate →
      net = (delta p).natAbs * item.price → amount p = net + (net * rate + 5000) / 10000) →
    (∀ p ∈ reports, ∀ i, p.1.item = some i → ∃ item rate, tariff.items[i]? = some item ∧ tariff.rates[item.taxClass]? = some rate) →
    tariff.lines 1 reports = ((reports.zipIdx 1).filter (fun q => decide (delta q.1 ≠ 0))).map (fun q =>
      { slot := q.2, item := q.1.1.item, delta := delta q.1, amount := amount q.1 }) ∧
    settlementAmount (tariff.lines 1 reports) = (reports.map (fun p =>
      if 0 < delta p then (amount p : Int) else if delta p < 0 then -(amount p : Int) else 0)).sum

/-! ## Nodes -/

/-- DEFINE_NODE: an undefined place gets a node that is ABSENT with every running field at its start, an ENCODER its empty encoding slot and
wait queue, a door its record in UNKNOWN with the contact UNSEEN, result word 1; a defined place of the same kind takes the settings and
keeps every running field, its room's link gone with a change of room, result word 0. A service class above 3 and a deglitch count above 8
are clamped, a deglitch count of 0 takes 3. Nothing else changes (R34, R64, R65, R141, R142). -/
def Obligations.DefineNodeCreatesOrUpdates : Prop :=
  ∀ (s : State) (p : NodeParams) (q : DoorParams) (block tag : Word) (abort : Bool) (k : NodeKind) (fm : ResponseMode)
    (fd : RetryDelay) (settings : Option DoorSettings) (doorClamped : Bool) (key params : Nat) (reply : Nat → Reply),
    s.dev.orderInHand .defineNode block tag abort →
    p.seg.toNat < 8 → 1 ≤ p.addr.toNat → p.addr.toNat ≤ 120 → key = p.seg.toNat * 256 + p.addr.toNat →
    (p.room.toNat < 768 ∨ (p.room.toNat = 65535 ∧ k ≠ .roomDoor ∧ k ≠ .minibar)) →
    NodeKind.ofCode p.kind.toNat = some k → ResponseMode.ofCode p.faultMode.toNat = some fm →
    RetryDelay.ofCode p.faultDelay.toNat = some fd →
    ((k.isDoor = true ∧ params = 18 ∧ ∃ st, settings = some st ∧ doorWordsGive q st doorClamped) ∨
      (k.isDoor = false ∧ params = 8 ∧ settings = none ∧ doorClamped = false)) →
    (∀ created, reply created = { code := .done, words := [natWord created]
                                  clamped := decide (3 < p.service.toNat ∨ 8 < p.deglitch.toNat) || doorClamped }) →
    (Table.find key s.dev.nodes = none → (k = .encoder → s.dev.creds.encoders.length < 4) →
      ∃ t, exec (.defineNode p q) s = .next t ∧
        Table.find key t.dev.nodes = some {
          kind := k, service := min 3 p.service.toNat, room := p.room.toNat, faultMode := fm, faultDelay := fd
          deglitch := if p.deglitch = 0 then 3 else min 8 p.deglitch.toNat
          state := .absent, misses := 0, lastSeq := none, passOver := 0, retries := 0, retryTimer := none, onProbe := false
          faultOpen := false, owedAck := none, lastVerdict := none, lastTally := none
          door := settings.map (fun st => { settings := st, state := .unknown, contact := .unseen, releaseTimer := none
                                            heldTimer := none, delayTimer := none, forcedLatch := false, heldLatch := false
                                            holdEnd := none, savedEnd := none, holdUnsent := false }) } ∧
        (∀ other, other ≠ key → Table.find other t.dev.nodes = Table.find other s.dev.nodes) ∧
        (k = .encoder → Table.find key t.dev.creds.encoders = some { current := none, waiting := [], lastResult := none }) ∧
        (∀ other, other ≠ key ∨ k ≠ .encoder → Table.find other t.dev.creds.encoders = Table.find other s.dev.creds.encoders) ∧
        t.dev.walker = s.dev.walker.replied block abort params (reply 1) ∧
        t = { s with dev := { s.dev with
          walker := t.dev.walker, nodes := t.dev.nodes, creds := { s.dev.creds with encoders := t.dev.creds.encoders } } }) ∧
    (∀ n, Table.find key s.dev.nodes = some n → n.kind = k →
      (n.room ≠ p.room.toNat → k = .minibar → ∀ i r, (i, r) ∈ s.dev.rooms → r.barLink = some key → r.bar.inSession = false) →
      ∃ t, exec (.defineNode p q) s = .next t ∧
        Table.find key t.dev.nodes = some { n with
          service := min 3 p.service.toNat, room := p.room.toNat, faultMode := fm, faultDelay := fd
          deglitch := if p.deglitch = 0 then 3 else min 8 p.deglitch.toNat
          door := match n.door, settings with
            | some r, some st => some { r with settings := st }
            | _, _ => n.door } ∧
        (∀ other, other ≠ key → Table.find other t.dev.nodes = Table.find other s.dev.nodes) ∧
        (∀ i, Table.find i t.dev.rooms = (Table.find i s.dev.rooms).map (fun r =>
          if i = n.room ∧ n.room ≠ p.room.toNat then { r with
            doorLink := if r.doorLink = some key then none else r.doorLink
            lastButton := if r.doorLink = some key then none else r.lastButton
            barLink := if r.barLink = some key then none else r.barLink }
          else r)) ∧
        t.dev.walker = s.dev.walker.replied block abort params (reply 0) ∧
        t = { s with dev := { s.dev with walker := t.dev.walker, nodes := t.dev.nodes, rooms := t.dev.rooms } })

/-- REMOVE_NODE of a node that is no minibar in session and no busy encoder: the place is undefined; an exchange with it is abandoned and
its queued command dropped; it leaves the attention set; every room link that names it is none, a door link with the last button signal;
an encoder's state is gone. The result word is the node's state before, and nothing else changes (R143). -/
def Obligations.RemoveNodeClearsThePlace : Prop :=
  ∀ (s : State) (seg addr block tag : Word) (abort : Bool) (key : Nat) (n : Node) (g : Segment),
    s.dev.orderInHand .removeNode block tag abort → seg.toNat < 8 → 1 ≤ addr.toNat → addr.toNat ≤ 120 →
    key = seg.toNat * 256 + addr.toNat → Table.find key s.dev.nodes = some n → s.dev.segments[seg.toNat]? = some g →
    (n.kind = .minibar → ∀ i r, (i, r) ∈ s.dev.rooms → r.barLink = some key → r.bar.inSession = false) →
    (∀ enc, Table.find key s.dev.creds.encoders = some enc → enc.current = none ∧ enc.waiting = []) →
    ∃ t, exec (.removeNode seg addr) s = .next t ∧
      Table.find key t.dev.nodes = none ∧
      (∀ other, other ≠ key → Table.find other t.dev.nodes = Table.find other s.dev.nodes) ∧
      Table.find key t.dev.creds.encoders = none ∧
      (∀ other, other ≠ key → Table.find other t.dev.creds.encoders = Table.find other s.dev.creds.encoders) ∧
      (∀ i, Table.find i t.dev.rooms = (Table.find i s.dev.rooms).map (fun r => { r with
        doorLink := if r.doorLink = some key then none else r.doorLink
        lastButton := if r.doorLink = some key then none else r.lastButton
        barLink := if r.barLink = some key then none else r.barLink })) ∧
      t.dev.segments = s.dev.segments.set seg.toNat { g with
        queue := g.queue.filter (fun e => decide (e.addr ≠ addr.toNat))
        exchange := match g.exchange with
          | none => none
          | some x => if x.addr = addr.toNat then none else some x
        attention := g.attention.filter (fun a => decide (a ≠ addr.toNat)) } ∧
      t.dev.walker = s.dev.walker.replied block abort 2 (.done [natWord n.state.code]) ∧
      t = { s with dev := { s.dev with
        walker := t.dev.walker, nodes := t.dev.nodes, rooms := t.dev.rooms, segments := t.dev.segments
        creds := { s.dev.creds with encoders := t.dev.creds.encoders } } }

/-- RESTORE_NODE makes a FAULTED node ABSENT with no misses, and is refused with WRONG_STATE in any other state; a retry timer that is due
makes a node in RETRY_WAIT ABSENT and on probe, its timer stopped, and is nothing in any other state (the model's choice, log entry 2). That
the refusal's result word is 0 is a reading of R182 against R144 (log entry 32).
Neither writes a record, and nothing else changes (R144, R160). -/
def Obligations.NodesReturnToPolling : Prop :=
  ∀ (s : State) (key : Nat) (n : Node), Table.find key s.dev.nodes = some n →
    (∀ (seg addr block tag : Word) (abort : Bool), s.dev.orderInHand .restoreNode block tag abort →
      seg.toNat < 8 → 1 ≤ addr.toNat → addr.toNat ≤ 120 → key = seg.toNat * 256 + addr.toNat →
      (n.state = .faulted → ∃ t, exec (.restoreNode seg addr) s = .next t ∧
        Table.find key t.dev.nodes = some { n with state := .absent, misses := 0 } ∧
        (∀ other, other ≠ key → Table.find other t.dev.nodes = Table.find other s.dev.nodes) ∧
        t.dev.walker = s.dev.walker.replied block abort 2 (.done [natWord n.state.code]) ∧
        t = { s with dev := { s.dev with walker := t.dev.walker, nodes := t.dev.nodes } }) ∧
      (n.state ≠ .faulted → exec (.restoreNode seg addr) s = .next { s with dev := { s.dev with
        walker := s.dev.walker.replied block abort 2 { code := .wrongState, words := [0] } } })) ∧
    (∀ seg addr : Nat, s.settled → key = seg * 256 + addr →
      (∀ count, n.state = .retryWait → n.retryTimer = some { count := count, due := true } →
        ∃ t, exec (.retryTimerExpiry seg addr) s = .next t ∧
          Table.find key t.dev.nodes = some { n with state := .absent, onProbe := true, retryTimer := none } ∧
          (∀ other, other ≠ key → Table.find other t.dev.nodes = Table.find other s.dev.nodes) ∧
          t = { s with dev := { s.dev with nodes := t.dev.nodes } }) ∧
      (n.state ≠ .retryWait ∨ Timer.isDue n.retryTimer = false → exec (.retryTimerExpiry seg addr) s = .next s))

/-! ## The clock, the house modes, SETUP and the resets -/

/-- SET_CLOCK takes the minute and the second, clamped to 59, makes the clock valid, and takes back a tick still due (log entry 16); where
the clock was valid already the CLOCK record, under the new time, carries the old minute and the new. The result words are what it found.
Where no hold is due at the new minute, nothing else changes (R165). -/
def Obligations.SetClockTakesTheTime : Prop :=
  ∀ (s : State) (minute second block tag : Word) (abort : Bool) (clock : Clock),
    s.dev.orderInHand .setClock block tag abort →
    clock = { minute := minute, second := min 59 second.toNat, valid := true, tickDue := false } →
    (∀ key n r, Table.find key s.dev.nodes = some n → n.door = some r →
      (r.state = .holdOpen → ∀ e, r.holdEnd = some e → minute.toNat < e.toNat) ∧
      (r.state = .emergency → ∀ e, r.savedEnd = some e → minute.toNat < e.toNat)) →
    ∃ t, exec (.setClock minute second) s = .next t ∧
      t.dev.clock = clock ∧
      (∀ key, Table.find key t.dev.nodes = Table.find key s.dev.nodes) ∧
      t.dev.journal = (if s.dev.clock.valid then
        (Device.notable { s.dev with clock := clock } (.clock s.dev.clock.minute minute)).journal else s.dev.journal) ∧
      t.dev.walker = s.dev.walker.replied block abort 2
        { code := .done, clamped := decide (59 < second.toNat)
          words := [s.dev.clock.minute, natWord s.dev.clock.second, if s.dev.clock.valid then 1 else 0] } ∧
      t = { s with dev := { s.dev with
        regs := { s.dev.regs with status := stallStatus s.dev.journal t.dev.journal s.dev.regs.status }
        walker := t.dev.walker, nodes := t.dev.nodes, journal := t.dev.journal, clock := clock } }

/-- An edge, a settled level and a HOUSE_MODE order that leave their mode's active value as it stands, or that fall while RESET_N is held,
change the input or the order part alone, with no record and no alarm; an edge to the level that stands, and a level that has settled, are
nothing (the model's choice, log entry 2); the release of RESET_N with both modes as they were when it was asserted is its release alone
(R168, R169, R171, R172, R173). -/
def Obligations.HousePartsAlone : Prop :=
  ∀ (s : State),
    (∀ (pin : Pin) (c : Instr) (after : House) (cause : HouseCause) (w : Walker),
      s.houseEvent pin c after cause w → (after.active = (s.dev.house pin).active ∨ s.dev.resetHeld.isSome = true) →
      exec c s = .next { s with dev := { s.dev.setHouse pin after with walker := w } }) ∧
    (s.settled →
      (∀ pin level, (s.dev.house pin).sampled = level → exec (.inputEdge pin level) s = .next s) ∧
      (∀ pin, (s.dev.house pin).settling = false → exec (.inputSettled pin) s = .next s) ∧
      (s.dev.resetHeld = none → exec .resetNRelease s = .next s) ∧
      (s.dev.resetHeld = some s.dev.modes → exec .resetNRelease s = .next { s with dev := { s.dev with resetHeld := none } }))

/-- Fire mode becoming active, by an edge, a settled level or an order: HOUSE_CHANGE is latched, the HOUSE record of both modes before and
after with its cause is written, and every exit and common door in service goes into EMERGENCY, its timers stopped, a hold's end saved for
after the fire, and HOLD placed for it. Nothing else changes (R80, R171). Any change of either mode's active value so made, and those that
the release of RESET_N finds, fire first, with cause RESET, are handed on alike: the end of fire lets every door in EMERGENCY take up its
hold or come to rest, and the start of storm shuts every shore gate (R81, R82, R171, R173). At a minute tick, and at a SET_CLOCK, every
hold and fire-saved hold that is due ends, with DOOR HOLD_END (R77, R163, R165). That the doors of one step are told in the order of their
nodes is the model's choice (log entry 40), as are that SET_CLOCK takes back a tick still due (log entry 16), that the end of a hold leaves
hold unsent as it is (log entry 47), and coming to rest a running alarm delay timer (log entry 20). -/
def Obligations.FireFreesTheDoors : Prop :=
  (∀ (s : State) (c : Instr) (after : House) (cause : HouseCause) (w : Walker) (freed : Nat → Node → Bool),
    s.houseEvent .fire c after cause w → s.dev.fire.active = false → after.active = true → s.dev.resetHeld = none →
    Table.wf s.dev.nodes = true →
    (∀ key n, Table.find key s.dev.nodes = some n → n.state.inService = true → (s.dev.segment (key / 256)).isDisabled = false) →
    (∀ key n, freed key n = (n.kind.firesFree && n.state.inService && n.door.isSome)) →
    ∃ t, exec c s = .next t ∧
      (∀ key, Table.find key t.dev.nodes = (Table.find key s.dev.nodes).map (fun n => if freed key n then
        { n with door := n.door.map (fun r => { r with
          state := .emergency, releaseTimer := none, heldTimer := none, delayTimer := none
          savedEnd := if r.state = .holdOpen then r.holdEnd else none
          holdEnd := if r.state = .holdOpen then none else r.holdEnd }) } else n)) ∧
      t.dev.segments = (Table.keysWhere freed s.dev.nodes).foldl (fun segments key =>
        segments.set (key / 256) ((segments.getD (key / 256) Segment.initial).place (key % 256) .hold)) s.dev.segments ∧
      t.dev.journal = (s.dev.notable (.house { fire := false, storm := s.dev.storm.active }
        { fire := true, storm := s.dev.storm.active } cause)).journal ∧
      t = { s with dev := { s.dev with
        regs := { s.dev.regs with status := stallStatus s.dev.journal t.dev.journal (s.dev.regs.status ||| 512) }
        walker := w, fire := after, nodes := t.dev.nodes, segments := t.dev.segments, journal := t.dev.journal } }) ∧
  (∀ (s : State) (pin : Pin) (c : Instr) (after : House) (cause : HouseCause) (w : Walker) (told : Device),
    s.houseEvent pin c after cause w → (after.active = true ↔ (s.dev.house pin).active = false) → s.dev.resetHeld = none →
    s.dev.doorsReachable → told = { s.dev.setHouse pin after with walker := w } →
    ∃ t u, exec c s = .next t ∧
      told.modeTold u pin { fire := s.dev.fire.active, storm := s.dev.storm.active }
        { fire := told.fire.active, storm := told.storm.active } cause ∧
      t = { s with dev := { u with
        regs := { u.regs with status := stallStatus s.dev.journal u.journal u.regs.status } } }) ∧
  (∀ (s : State) (before : HouseModes), s.settled → s.dev.resetHeld = some before → s.dev.doorsReachable →
    ∃ t u, exec .resetNRelease s = .next t ∧
      Device.modesTold { s.dev with resetHeld := none } u before .reset ∧
      t = { s with dev := { u with
        regs := { u.regs with status := stallStatus s.dev.journal u.journal u.regs.status } } }) ∧
  ∀ (s : State) (c : Instr) (clock : Clock) (base : Device) (w : Walker) (o : Nat → DoorOut),
    s.dev.doorsReachable →
    ((c = .minuteTick ∧ s.settled ∧ s.dev.clock.tickDue = true ∧ w = s.dev.walker
        ∧ clock = { s.dev.clock with minute := s.dev.clock.minute + 1, second := 0, tickDue := false }
        ∧ base = { s.dev with clock := clock })
      ∨ ∃ minute second block tag abort, c = .setClock minute second ∧ s.dev.orderInHand .setClock block tag abort
        ∧ clock = { minute := minute, second := min 59 second.toNat, valid := true, tickDue := false }
        ∧ base = (if s.dev.clock.valid then Device.notable { s.dev with clock := clock } (.clock s.dev.clock.minute minute)
          else { s.dev with clock := clock })
        ∧ w = s.dev.walker.replied block abort 2
          { code := .done, clamped := decide (59 < second.toNat)
            words := [s.dev.clock.minute, natWord s.dev.clock.second, if s.dev.clock.valid then 1 else 0] }) →
    (∀ key n r, Table.find key s.dev.nodes = some n → n.door = some r → r.minuteGives n clock.minute (o key)) →
    ∃ t u, exec c s = .next t ∧ s.dev.doorsMoved u base o ∧
      t = { s with dev := { s.dev with
        regs := { s.dev.regs with status := stallStatus s.dev.journal u.journal s.dev.regs.status }
        walker := w, clock := clock, nodes := u.nodes, segments := u.segments, journal := u.journal } }

/-- What SETUP's words give (R138, R170, R187): a plan exists exactly where the property code, the enabled words, the modes, the senses and
the journal region pass their tests, and it holds the settings clamped. A SETUP that passes its tests, its re-read answered: the re-read of
the read mark first; then the property code, the region with its threshold, every segment's settings with the pass-over counts 0 where its
mode changes, the two time limits and the two senses; the setup is established, and the result word is 0 for the region last in force and 1
for another. A segment that it leaves disabled, no command standing on it that a submitter minds and no session open on it, has no queue,
no exchange and no attention set; its nodes owe no ACK, and those not FAULTED are ABSENT, a door among them that was in service UNKNOWN but
in HOLD_OPEN and EMERGENCY. A change of either mode's active value, every segment enabled, is handed on with cause SETUP. A re-read that
fails, a segment disabled with such a command or session, and one disabled beside a change of mode are not stated here. Nothing else
changes (R79, R135, R138, R170, R171, R187, R188). That a re-read still outstanding is dropped where the region moves is the model's choice
(log entry 46), as are, at a change of mode, that the doors are told in the order of their nodes (log entry 40), that the end of a hold
leaves hold unsent as it is (log entry 47), and coming to rest a running alarm delay timer (log entry 20). -/
def Obligations.SetupIsTestedAndEstablishes : Prop :=
  (∀ (commonSize : Nat) (p : SetupParams),
     ((setupPlanOf commonSize p).isSome = true ↔
       p.propertyCode.toNat ≤ 65535 ∧ (Sense.ofCode p.fireSense.toNat).isSome = true ∧ (Sense.ofCode p.stormSense.toNat).isSome = true ∧
       (∀ q ∈ p.segments, q.enabled.toNat ≤ 1 ∧ (SchedMode.ofCode q.mode.toNat).isSome = true) ∧
       p.journalStart.toNat % 4 = 0 ∧ p.journalStop.toNat % 4 = 0 ∧ 512 ≤ p.journalStart.toNat ∧
       p.journalStart.toNat < p.journalStop.toNat ∧ p.journalStop.toNat ≤ commonSize * 4096 ∧
       4096 ≤ p.journalStop.toNat - p.journalStart.toNat ∧ p.journalStop.toNat - p.journalStart.toNat ≤ 8388608) ∧
     ∀ plan, setupPlanOf commonSize p = some plan →
       plan.propertyCode = p.propertyCode.toNat ∧ plan.region = { start := p.journalStart.toNat, stop := p.journalStop.toNat } ∧
       plan.threshold = min 8388604 p.threshold.toNat ∧
       plan.encodingTimeout = (if p.encodingTimeout = 0 then 30 else max 5 (min 120 p.encodingTimeout.toNat)) ∧
       plan.sessionLimit = (if p.sessionLimit = 0 then 10 else max 2 (min 30 p.sessionLimit.toNat)) ∧
       Sense.ofCode p.fireSense.toNat = some plan.fireSense ∧ Sense.ofCode p.stormSense.toNat = some plan.stormSense ∧
       plan.segments.length = p.segments.length ∧
       (∀ (i : Nat) (q : SegmentParams) (st : SegmentSettings), p.segments[i]? = some q → plan.segments[i]? = some st →
         st.enabled = decide (q.enabled = 1) ∧ SchedMode.ofCode q.mode.toNat = some st.mode ∧
         st.timeout = (if q.timeout = 0 then 10 else max 2 (min 50 q.timeout.toNat))) ∧
       (plan.clamped = true ↔ 8388604 < p.threshold.toNat ∨
         (0 < p.encodingTimeout.toNat ∧ p.encodingTimeout.toNat < 5) ∨ 120 < p.encodingTimeout.toNat ∨
         p.sessionLimit.toNat = 1 ∨ 30 < p.sessionLimit.toNat ∨
         ∃ q ∈ p.segments, q.timeout.toNat = 1 ∨ 50 < q.timeout.toNat)) ∧
  (∀ (s : State) (p : SetupParams) (mark : Option Word) (block tag : Word) (abort : Bool) (plan : SetupPlan) (j : Journal)
     (fire storm : House),
     s.dev.orderInHand .setup block tag abort → setupPlanOf s.dev.regs.commonSize.toNat p = some plan →
     plan.segments.length = 8 → s.dev.segments.length = 8 →
     (∀ (i : Nat) (st : SegmentSettings) (g : Segment), plan.segments[i]? = some st → s.dev.segments[i]? = some g → st.enabled = false →
       (∀ e ∈ g.queue, e.command = .signal ∨ e.command = .abandon) ∧
       (∀ x, g.exchange = some x → (∀ c k, x.carried = some (c, k) → c = .signal ∨ c = .abandon) ∧
         (∀ c, x.next = some c → c = .signal ∨ c = .abandon)) ∧
       ∀ key room r, key / 256 = i → (room, r) ∈ s.dev.rooms → r.barLink = some key → r.bar.inSession = false) →
     ((s.dev.journal.region = none ∧ j = s.dev.journal) ∨
       (∃ r v, s.dev.journal.region = some r ∧ mark = some v ∧ j = s.dev.journal.takeMark v.toNat)) →
     (j.lastRegion = some plan.region ∨
       (j.queue = [] ∧ ∀ r, j.lastRegion = some r → (j.writeMark + r.size - j.readMark) % r.size = 0)) →
     fire = { s.dev.fire with
       sense := plan.fireSense
       latch := s.dev.fire.latch && (decide (plan.fireSense = s.dev.fire.sense)
         || (s.dev.fire.sense.latches && plan.fireSense.latches)) } →
     storm = { s.dev.storm with
       sense := plan.stormSense
       latch := s.dev.storm.latch && (decide (plan.stormSense = s.dev.storm.sense)
         || (s.dev.storm.sense.latches && plan.stormSense.latches)) } →
     (((∀ st ∈ plan.segments, st.enabled = true) ∧ fire.active = s.dev.fire.active ∧ storm.active = s.dev.storm.active) ∨
       (Table.wf s.dev.nodes = true
         ∧ (∀ key n r, Table.find key s.dev.nodes = some n → n.door = some r → n.kind.isDoor = true)
         ∧ ((∀ st ∈ plan.segments, st.enabled = true)
           ∨ (fire.active = s.dev.fire.active ∧ storm.active = s.dev.storm.active)))) →
     ∃ (t : State) (set told : Device), exec (.setup p mark) s = .next t ∧
       set.journal = (if j.lastRegion = some plan.region then
           (if j.drain = .inactive then Journal.attempt { j with region := some plan.region, threshold := plan.threshold }
           else { j with region := some plan.region, threshold := plan.threshold })
         else { j with
           region := some plan.region, lastRegion := some plan.region, writeMark := 0, readMark := 0, threshold := plan.threshold
           drain := .idle, reread := none }) ∧
       (∀ key, Table.find key set.nodes = (Table.find key s.dev.nodes).map (fun n =>
         match s.dev.segments[key / 256]?, plan.segments[key / 256]? with
         | some g, some st =>
           if st.enabled = false then n.leftDisabled
           else if g.settings.isSome ∧ g.settings.map (fun x => x.mode) ≠ some st.mode then { n with passOver := 0 } else n
         | _, _ => n)) ∧
       set.segments = List.zipWith (fun (g : Segment) st =>
         if st.enabled then { g with settings := some st }
         else { g with settings := some st, queue := [], exchange := none, attention := [] }) s.dev.segments plan.segments ∧
       set = { s.dev with
         creds := { s.dev.creds with propertyCode := some plan.propertyCode, encodingTimeout := some plan.encodingTimeout }
         sessionLimit := some plan.sessionLimit
         nodes := set.nodes, segments := set.segments, journal := set.journal, fire := fire, storm := storm } ∧
       set.setupTold told { fire := s.dev.fire.active, storm := s.dev.storm.active } ∧
       t.dev.walker = { s.dev.walker.replied block abort 32
           { code := .done, clamped := plan.clamped, words := [if j.lastRegion = some plan.region then 0 else 1] } with
         established := true } ∧
       t = { s with dev := { told with
         regs := { told.regs with status := stallStatus s.dev.journal told.journal told.regs.status }
         walker := t.dev.walker } })

/-- SOFT_RESET and BOARD_RESET, RESET_N not held already: what they do alike to the running state; the writes accepted before it stand and
the others are not made, the STAMP of the block in hand never; a walk stops at its block with cause RESET, the settlement list is emptied
unwritten; every segment drops its queue, exchange and attention set; the journal keeps its marks and its queue and drops its reservations.
A CONTROL write with SOFT_RESET, bit 1, at 1 takes ALERT_ENABLE from bit 0, ignores the bits above and makes the soft reset (R174, R177,
R193), which clears STATUS, keeps the setup, the segments' settings and the region; a board reset clears the registers, the setup, the
settings and the region in force, and holds the modes to compare with. The clock, the house modes, the tariff and the limits are kept
(R137, R162, R167, R173, R190). That a re-read of the read mark still outstanding is dropped (log entry 46), and that such a word under the
row ALERT_ENABLE finds none of the writes accepted (log entry 17), are the model's choices. -/
def Obligations.ResetsKeepAndClear : Prop :=
  ∀ (s : State) (value : Word) (p : PortProgress) (ws : List PortWrite) (stopped : Walker) (mem : Table Byte),
    s.dev.resetHeld = none → s.settled → Table.wf s.dev.creds.entries = true → (∀ q ∈ s.dev.creds.entries, q.1 < 4294967296) →
    (∀ block abort w, s.dev.walker.walk = .walking block abort (.writing w) → ws = (w.cancels.flatten ++ w.own).dropLast) →
    ((∀ block abort w, s.dev.walker.walk ≠ .walking block abort (.writing w)) → ws = []) →
    (s.dev.walker.walk = .idle → stopped = { s.dev.walker with settlements := [], page := [] }) →
    (∀ block abort phase, s.dev.walker.walk = .walking block abort phase →
      stopped = { s.dev.walker with walk := .idle, lastBlock := block, lastEnd := .reset, settlements := [], page := [] }) →
    mem = Memory.accept s.mem (ws.take p.block ++ s.dev.walker.page.take p.page ++ s.dev.placementWrites.take p.placement) →
    (value.getLsbD 1 = true → ∃ t, exec (.softReset value p) s = .next t ∧
      (p = { block := 0, page := 0, placement := 0 } → exec (.alertEnable value) s = .next t) ∧ s.dev.runningReset t.dev ∧
      t.dev.journal = Journal.attempt { s.dev.journal with reserved := 0, reread := none } ∧
      t = { s with
        mem := mem
        dev := { s.dev with
          regs := { s.dev.regs with status := 0, alertEnable := value.getLsbD 0 }
          walker := stopped
          creds := { s.dev.creds with
            entries := t.dev.creds.entries, deny := t.dev.creds.deny, encoders := t.dev.creds.encoders }
          rooms := t.dev.rooms, nodes := t.dev.nodes
          segments := s.dev.segments.map (fun g =>
            { g with queue := [], exchange := none, attention := [], presence := 1, lastServed := 0 })
          journal := t.dev.journal } }) ∧
    ∃ t, exec (.boardReset p) s = .next t ∧ s.dev.runningReset t.dev ∧
      t = { s with
        mem := mem
        dev := { s.dev with
          regs := { commonBase := 0, commonSize := 0, status := 0, alertMask := 0, alertEnable := false }
          resetHeld := some { fire := s.dev.fire.active, storm := s.dev.storm.active }
          walker := { stopped with established := false }
          creds := { s.dev.creds with
            entries := t.dev.creds.entries, deny := t.dev.creds.deny, encoders := t.dev.creds.encoders }
          rooms := t.dev.rooms, nodes := t.dev.nodes
          segments := s.dev.segments.map (fun g =>
            { g with settings := none, queue := [], exchange := none, attention := [], presence := 1, lastServed := 0 })
          journal := { s.dev.journal with region := none, reserved := 0, drain := .inactive, reread := none } } }

/-! ## The segments -/

/-- A segment's turn goes to the first of these with a candidate: the lowest address owing an ACK, with its queued command if it has one;
the head of the command queue; the member of the attention set that the mode chooses, with PRIORITY moving the pass-over counts and
ROTATING the last served address; the lowest node on probe, and otherwise the first polled node from the presence pointer on, which moves.
With no candidate nothing is sent, and a segment that is disabled, not set up or in an exchange takes no turn (the model's
choice where a turn is commanded then, log entry 2) (R138, R149, R150, R152,
R153, R154). A command handed for a node that is FAULTED or RETRY_WAIT, or whose segment SETUP has left disabled, is reported undelivered and not
queued. Any other is placed by the first case that holds: a SIGNAL is dropped where the node has a command queued or an attempt in progress; a
queued command is replaced in its place, its attempts 0; behind an attempt in progress it is held as the next, in place of one held already;
and otherwise it enters at the tail with attempts 0. Nothing else changes (R155). -/
def Obligations.TurnServesTheFirstCandidate : Prop :=
  (∀ (d : Device) (key : Nat) (n : Node) (c : Command), Table.find key d.nodes = some n →
    (¬ d.reachable key n → d.hand key c = { d with reports := d.reports ++ [{ node := key, command := c }] }) ∧
    (d.reachable key n →
      d.hand key c = { d with segments := d.segments.set (key / 256) ((d.segment (key / 256)).place (key % 256) c) })) ∧
  (∀ (g : Segment) (addr : Nat) (c : Command) (attempt : Prop),
    (attempt ↔ ∃ x, g.exchange = some x ∧ x.addr = addr ∧ x.carried ≠ none) →
    (c = .signal → (attempt ∨ ∃ e ∈ g.queue, e.addr = addr) → g.place addr c = g) ∧
    (∀ before e after, c ≠ .signal → g.queue = before ++ e :: after → e.addr = addr → (∀ x ∈ before ++ after, x.addr ≠ addr) →
      g.place addr c = { g with queue := before ++ { addr := addr, command := c, attempts := 0 } :: after }) ∧
    ((∀ e ∈ g.queue, e.addr ≠ addr) →
      (∀ x, c ≠ .signal → attempt → g.exchange = some x → g.place addr c = { g with exchange := some { x with next := some c } }) ∧
      (¬ attempt → g.place addr c = { g with queue := g.queue ++ [{ addr := addr, command := c, attempts := 0 }] }))) ∧
  ∀ (s : State) (seg : Nat), s.settled → Table.wf s.dev.nodes = true →
    (((s.dev.segment seg).settings = none ∨ (s.dev.segment seg).isDisabled = true ∨ (s.dev.segment seg).exchange ≠ none) →
      exec (.segmentTurn seg) s = .next s) ∧
    ∀ (g : Segment) (st : SegmentSettings) (owing polled : Nat → Prop),
      s.dev.atTurn seg g st → g.attention.Pairwise (fun a b => a < b) →
      (∀ a ∈ g.attention, a < 256 ∧ (Table.find (seg * 256 + a) s.dev.nodes).isSome = true) →
      (∀ a, owing a ↔ a < 256 ∧ ∃ n, Table.find (seg * 256 + a) s.dev.nodes = some n ∧ n.owedAck.isSome = true) →
      (∀ a, polled a ↔ a < 256 ∧ ∃ n, Table.find (seg * 256 + a) s.dev.nodes = some n ∧ n.state ≠ .faulted ∧ n.state ≠ .retryWait) →
      (∀ a, owing a → (∀ b, owing b → a ≤ b) → ∃ t, exec (.segmentTurn seg) s = .next t ∧
        match g.queue.find? (fun e => decide (e.addr = a)) with
        | some e => s.frameSent t seg a g st.timeout (fun _ n => n) (byteOf e.command.code) e.command.body (some (e.command, e.attempts))
        | none => s.frameSent t seg a g st.timeout (fun _ n => n) 0 [] none) ∧
      ((∀ a, ¬ owing a) →
        (∀ e rest, g.queue = e :: rest → ∃ t, exec (.segmentTurn seg) s = .next t ∧
          s.frameSent t seg e.addr g st.timeout (fun _ n => n) (byteOf e.command.code) e.command.body
            (some (e.command, e.attempts))) ∧
        (g.queue = [] →
          (st.mode = .priority → ∀ a ∈ g.attention, (∀ b ∈ g.attention, b ≠ a → s.dev.ahead seg a b) →
            ∃ t, exec (.segmentTurn seg) s = .next t ∧
              s.frameSent t seg a g st.timeout (fun key n => if key / 256 = seg ∧ key % 256 ∈ g.attention then
                { n with passOver := if key % 256 = a then 0 else min 8 (n.passOver + 1) } else n) 1 [] none) ∧
          (st.mode = .rotating → ∀ a ∈ g.attention,
            ((g.lastServed < a ∧ ∀ b ∈ g.attention, g.lastServed < b → a ≤ b)
              ∨ ∀ b ∈ g.attention, b ≤ g.lastServed ∧ a ≤ b) →
            ∃ t, exec (.segmentTurn seg) s = .next t ∧
              s.frameSent t seg a { g with lastServed := a } st.timeout (fun _ n => n) 1 [] none) ∧
          (g.attention = [] →
            (∀ a n, polled a → Table.find (seg * 256 + a) s.dev.nodes = some n → n.onProbe = true →
              (∀ b m, polled b → Table.find (seg * 256 + b) s.dev.nodes = some m → m.onProbe = true → a ≤ b) →
              ∃ t, exec (.segmentTurn seg) s = .next t ∧ s.frameSent t seg a g st.timeout (fun _ n => n) 1 [] none) ∧
            (∀ a, polled a → (∀ b m, polled b → Table.find (seg * 256 + b) s.dev.nodes = some m → m.onProbe = false) →
              ((g.presence ≤ a ∧ ∀ b, polled b → g.presence ≤ b → a ≤ b) ∨ ∀ b, polled b → b < g.presence ∧ a ≤ b) →
              ∃ t, exec (.segmentTurn seg) s = .next t ∧
                s.frameSent t seg a { g with presence := if 120 ≤ a then 1 else a + 1 } st.timeout (fun _ n => n) 1 [] none) ∧
            ((∀ a, ¬ polled a) → exec (.segmentTurn seg) s = .next s))))

/-- A valid frame in an exchange is its answer: address, length, code and check right, bit 7 of the third byte the attention mark, bits 3
to 0 the sequence (R139, R198). With no exchange there is no miss (the model's choice, log entry 2); a stray frame is nothing (R139). A
miss that leaves its node polled: an ABSENT node not on probe is not counted, a DEGRADED one counts on, and an ONLINE or SUSPECT one is
SUSPECT below its deglitch count and DEGRADED from it on, under REPORT with NODE FAULT, NODE_FAULT and fault open; the command carried goes
back to the queue's head, one attempt the more, or its next command does. A minibar in session that becomes DEGRADED ends it with
NODE_FAULT, and RELOCK is handed (R94, R139, R156, R159). That the exchange is over when this RELOCK, or a door's command at a third
attempt, takes its place, in place of the returned command or at the tail, is the model's choice (log entry 43). At the third attempt the
command is undelivered: a door's RELEASE lets it come to rest, its RELOCK leaves it UNKNOWN and its HOLD unsent, with DOOR DELIVERY_FAILED,
a delay timer running on at that rest and a hold end kept (the model's choices, log entries 20, 49); an UNLATCH pending ends its session,
the reservation given back, with UNSETTLED UNDELIVERED; the ENCODE of the encoding in progress fails every issue of its encoder (R19, R78,
R92, R156). A miss that takes its node out: at the deglitch count FAULTED under LATCH, RETRY_WAIT with its timer started under RETRY;
NODE_FAULT latched, fault open set, NODE FAULT written with the miss count. A missed probe is back in RETRY_WAIT, its retry count raised,
with NODE RETRY. The node loses its owed ACK, its commands and its attention. A door not in HOLD_OPEN or EMERGENCY is UNKNOWN and UNSEEN,
its timers stopped. A minibar's session ends with NODE_FAULT, or with UNDELIVERED where a pending UNLATCH was discarded and is told first.
An encoder's issues all fail. Nothing else changes (R79, R94, R151, R157, R159, R160). -/
def Obligations.MissesCountAndTakeTheNodeOut : Prop :=
  (∀ (s : State) (seg : Nat) (frame : Option (List Byte)) (undeliveredFirst : Bool), s.settled →
     (∀ bytes, exec (.strayFrame seg bytes) s = .next s) ∧
     ((s.dev.segment seg).exchange = none → exec (.miss seg frame undeliveredFirst) s = .next s) ∧
     ∀ (x : Exchange) (addr mark : Byte) (attention : Bool) (seq : BitVec 4), (s.dev.segment seg).exchange = some x →
       x.addr = addr.toNat → attention = mark.getLsbD 7 → seq.toNat = mark.toNat % 16 →
       exec (.miss seg (some (answerFrame addr mark 0x80 [])) undeliveredFirst) s = exec (.nothing seg attention) s ∧
       (∀ image, exec (.miss seg (some (answerFrame addr mark 0x81 (imageBytes image))) undeliveredFirst) s
         = exec (.present seg attention seq image) s) ∧
       (∀ position, exec (.miss seg (some (answerFrame addr mark 0x82 [position])) undeliveredFirst) s
         = exec (.contact seg attention seq position) s) ∧
       (∀ position pairs, pairs.length = 6 →
         exec (.miss seg (some (answerFrame addr mark 0x83 (position :: pairs))) undeliveredFirst) s
           = exec (.tally seg attention seq position pairs) s) ∧
       (∀ value, exec (.miss seg (some (answerFrame addr mark 0x84 [value])) undeliveredFirst) s
         = exec (.button seg attention seq value) s) ∧
       (∀ code, exec (.miss seg (some (answerFrame addr mark 0x85 [code])) undeliveredFirst) s
         = exec (.encResult seg attention seq code) s)) ∧
  (∀ (s : State) (seg : Nat) (frame : Option (List Byte)) (undeliveredFirst : Bool) (g : Segment) (x : Exchange) (key : Nat)
     (n after : Node) (fault : Bool) (status : Word → Word),
     s.settled → s.dev.segment seg = g → g.exchange = some x → key = seg * 256 + x.addr → Table.find key s.dev.nodes = some n →
     (∀ bytes, frame = some bytes → answerValid x.addr bytes = false) → n.missPolled after fault →
     (∀ word, status word = if fault then word ||| 256 else word) →
     (∀ queue : List QueueEntry, g.missQueue x (decide (n.kind = .minibar ∧ n.door = none)) queue →
       ((n.kind = .minibar → n.state ≠ .degraded → after.state = .degraded →
           ∀ i r, (i, r) ∈ s.dev.rooms → r.barLink = some key → r.bar.inSession = false) →
         ∃ t, exec (.miss seg frame undeliveredFirst) s = .next t ∧
           Table.find key t.dev.nodes = some after ∧
           (∀ other, other ≠ key → Table.find other t.dev.nodes = Table.find other s.dev.nodes) ∧
           t.dev.journal = (if fault then (s.dev.notable (.node key .fault after.misses)).journal else s.dev.journal) ∧
           t = { s with dev := { s.dev with
             regs := { s.dev.regs with status := stallStatus s.dev.journal t.dev.journal (status s.dev.regs.status) }
             nodes := t.dev.nodes, journal := t.dev.journal
             segments := s.dev.segments.set seg { g with exchange := none, queue := queue } } }) ∧
       (∀ room r, n.kind = .minibar → n.state ≠ .degraded → after.state = .degraded → x.addr < 256 → g.isDisabled = false →
         (room, r) ∈ s.dev.rooms → Table.find room s.dev.rooms = some r → r.barLink = some key → r.bar.inSession = true →
         (∀ q ∈ s.dev.rooms, q.2.barLink = some key → q = (room, r)) →
         ∃ t ended, exec (.miss seg frame undeliveredFirst) s = .next t ∧
           Table.find key t.dev.nodes = some after ∧
           (∀ other, other ≠ key → Table.find other t.dev.nodes = Table.find other s.dev.nodes) ∧
           Table.find room t.dev.rooms = some { r with
             session := none, unlatchPending := false, unsettled := true
             bar := if r.ceiling - r.balance < r.openFloor ∨ 0 < r.unposted then .suspended else .locked } ∧
           (∀ other, other ≠ room → Table.find other t.dev.rooms = Table.find other s.dev.rooms) ∧
           ended = s.dev.record (.unsettled room key .nodeFault) {} .reserved ∧
           t.dev.journal = (if fault then (ended.notable (.node key .fault after.misses)).journal else ended.journal) ∧
           t = { s with dev := { s.dev with
             regs := { s.dev.regs with status := stallStatus s.dev.journal t.dev.journal (status s.dev.regs.status) }
             nodes := t.dev.nodes, rooms := t.dev.rooms, journal := t.dev.journal
             segments := s.dev.segments.set seg (Segment.place { g with exchange := none, queue := queue } x.addr .relock) } })) ∧
     (∀ (c : Command) (k : Nat), x.carried = some (c, k) → 2 ≤ k → x.next = none → x.addr < 256 → g.isDisabled = false →
       (∀ r o, n.kind.isDoor = true → n.door = some r → r.undeliveredGives c o →
         ∃ t failed, exec (.miss seg frame undeliveredFirst) s = .next t ∧
           Table.find key t.dev.nodes = some { after with door := some o.door } ∧
           (∀ other, other ≠ key → Table.find other t.dev.nodes = Table.find other s.dev.nodes) ∧
           failed = o.events.foldl (fun (d : Device) e => d.notable (.door key e o.door.state)) s.dev ∧
           t.dev.journal = (if fault then (failed.notable (.node key .fault after.misses)).journal else failed.journal) ∧
           t = { s with dev := { s.dev with
             regs := { s.dev.regs with status := stallStatus s.dev.journal t.dev.journal (status s.dev.regs.status) }
             nodes := t.dev.nodes, journal := t.dev.journal
             segments := s.dev.segments.set seg (o.commands.foldl (fun h c' => h.place x.addr c') { g with exchange := none }) } }) ∧
       (∀ room r, c = .unlatch → n.kind = .minibar → (after.state = .degraded → n.state = .degraded) →
         (room, r) ∈ s.dev.rooms → Table.find room s.dev.rooms = some r → r.barLink = some key →
         (∀ q ∈ s.dev.rooms, q.2.barLink = some key → q = (room, r)) →
         ∃ t failed, exec (.miss seg frame undeliveredFirst) s = .next t ∧
           Table.find key t.dev.nodes = some after ∧
           (∀ other, other ≠ key → Table.find other t.dev.nodes = Table.find other s.dev.nodes) ∧
           Table.find room t.dev.rooms = some (if r.unlatchPending then { r with
             session := none, unlatchPending := false
             bar := if r.ceiling - r.balance < r.openFloor ∨ 0 < r.unposted then .suspended else .locked } else r) ∧
           (∀ other, other ≠ room → Table.find other t.dev.rooms = Table.find other s.dev.rooms) ∧
           failed = (if r.unlatchPending then s.dev.giveBack.notable (.unsettled room key .undelivered) else s.dev) ∧
           t.dev.journal = (if fault then (failed.notable (.node key .fault after.misses)).journal else failed.journal) ∧
           t = { s with dev := { s.dev with
             regs := { s.dev.regs with status := stallStatus s.dev.journal t.dev.journal (status s.dev.regs.status) }
             nodes := t.dev.nodes, rooms := t.dev.rooms, journal := t.dev.journal
             segments := s.dev.segments.set seg { g with exchange := none } } }) ∧
       (∀ image job enc encoding failed, c = .encode image job → n.kind = .encoder →
         Table.find key s.dev.creds.encoders = some enc → enc.current = some encoding →
         (encoding.job ≠ job → ∃ t, exec (.miss seg frame undeliveredFirst) s = .next t ∧
           Table.find key t.dev.nodes = some after ∧
           (∀ other, other ≠ key → Table.find other t.dev.nodes = Table.find other s.dev.nodes) ∧
           t.dev.journal = (if fault then (s.dev.notable (.node key .fault after.misses)).journal else s.dev.journal) ∧
           t = { s with dev := { s.dev with
             regs := { s.dev.regs with status := stallStatus s.dev.journal t.dev.journal (status s.dev.regs.status) }
             nodes := t.dev.nodes, journal := t.dev.journal
             segments := s.dev.segments.set seg { g with exchange := none } } }) ∧
         (encoding.job = job → s.dev.issuesOf enc failed → ∃ t u, exec (.miss seg frame undeliveredFirst) s = .next t ∧
           s.dev.encoderFaulted u key enc failed ∧
           Table.find key t.dev.nodes = some after ∧
           (∀ other, other ≠ key → Table.find other t.dev.nodes = Table.find other s.dev.nodes) ∧
           t.dev.journal = (if fault then (u.notable (.node key .fault after.misses)).journal else u.journal) ∧
           t = { s with dev := { s.dev with
             regs := { s.dev.regs with status := stallStatus s.dev.journal t.dev.journal (status s.dev.regs.status) }
             walker := u.walker
             creds := { s.dev.creds with entries := u.creds.entries, deny := u.creds.deny, encoders := u.creds.encoders }
             rooms := u.rooms
             nodes := t.dev.nodes, journal := t.dev.journal
             segments := s.dev.segments.set seg { g with exchange := none } } })))) ∧
  (∀ (s : State) (seg : Nat) (frame : Option (List Byte)) (undeliveredFirst : Bool) (g : Segment) (x : Exchange) (key : Nat)
     (n after : Node) (event : NodeEvent) (count : Nat),
     s.settled → s.dev.segment seg = g → g.exchange = some x → x.addr < 256 → key = seg * 256 + x.addr →
     Table.find key s.dev.nodes = some n → (∀ bytes, frame = some bytes → answerValid x.addr bytes = false) →
     n.missOut after event count →
     ∃ t u : Device,
       exec (.miss seg frame undeliveredFirst) s = .next { s with dev := t } ∧
       (∀ other, other ≠ key → Table.find other t.nodes = Table.find other s.dev.nodes) ∧
       t.journal = (u.notable (.node key event count)).journal ∧
       u = { s.dev with walker := t.walker, creds := t.creds, rooms := t.rooms, journal := u.journal } ∧
       t = { s.dev with
         regs := { s.dev.regs with
           status := stallStatus s.dev.journal t.journal (if event = .fault then s.dev.regs.status ||| 256 else s.dev.regs.status) }
         creds := { s.dev.creds with entries := t.creds.entries, deny := t.creds.deny, encoders := t.creds.encoders }
         walker := t.walker, rooms := t.rooms, nodes := t.nodes, journal := t.journal
         segments := s.dev.segments.set seg { g with
           exchange := none, queue := g.queue.filter (fun e => decide (e.addr ≠ x.addr))
           attention := g.attention.filter (fun a => decide (a ≠ x.addr)) } } ∧
       (n.kind.isDoor = true →
         (∀ c, g.standing x c → c = .relock ∨ c = .hold ∨ c = .signal ∨ ∃ seconds, c = .release seconds) →
         Table.find key t.nodes = some { after with
             passOver := if g.attention.contains x.addr then 0 else n.passOver
             door := n.door.map (fun r =>
               if r.state = .holdOpen ∨ r.state = .emergency then { r with releaseTimer := none, heldTimer := none, delayTimer := none }
               else { r with
                 state := .unknown, contact := .unseen, releaseTimer := none, heldTimer := none, delayTimer := none }) }
           ∧ u.journal = s.dev.journal ∧ t.walker = s.dev.walker ∧ t.rooms = s.dev.rooms ∧ t.creds = s.dev.creds) ∧
       (n.door = none → Table.find key t.nodes = some { after with passOver := if g.attention.contains x.addr then 0 else n.passOver }) ∧
       (n.kind = .minibar → n.door = none → (∀ c, g.standing x c → c = .relock ∨ c = .unlatch ∨ c = .signal) →
         t.walker = s.dev.walker ∧ t.creds = s.dev.creds ∧
         ((∀ i r, (i, r) ∈ s.dev.rooms → r.barLink = some key → r.bar.inSession = false ∧ r.unlatchPending = false) →
           u.journal = s.dev.journal ∧ t.rooms = s.dev.rooms) ∧
         ∀ room r, (room, r) ∈ s.dev.rooms → Table.find room s.dev.rooms = some r → r.barLink = some key → r.bar.inSession = true →
           (∀ q ∈ s.dev.rooms, q.2.barLink = some key → q = (room, r)) → ∀ undelivered : Bool,
           (undelivered = true ↔ undeliveredFirst = true ∧ r.unlatchPending = true ∧ g.standing x .unlatch) →
           Table.find room t.rooms = some { r with
             session := none, unlatchPending := false, unsettled := r.unsettled || !undelivered
             bar := if r.ceiling - r.balance < r.openFloor ∨ 0 < r.unposted then .suspended else .locked } ∧
           (∀ other, other ≠ room → Table.find other t.rooms = Table.find other s.dev.rooms) ∧
           u.journal = (if undelivered then s.dev.giveBack.notable (.unsettled room key .undelivered)
             else s.dev.record (.unsettled room key .nodeFault) {} .reserved).journal) ∧
       (n.kind = .encoder → n.door = none →
         (∀ c, g.standing x c → c = .abandon ∨ c = .signal ∨ ∃ image job, c = .encode image job) →
         ∀ enc failed, Table.find key s.dev.creds.encoders = some enc → s.dev.issuesOf enc failed →
           s.dev.encoderFaulted u key enc failed))

/-! ## Answers -/

/-- An answer NOTHING, no command riding in its exchange: the node is ONLINE, its misses, retries and probe done with; with fault open set,
NODE RESTORED is written with the retry count after a probe, else the miss count of a DEGRADED node, else 0; a HOLD left unsent is handed
again, whatever the door's state (log entry 47), and a door that comes into service, no HOLD left unsent, is handed HOLD in HOLD_OPEN and
in EMERGENCY, goes into EMERGENCY where fire frees it, and is otherwise UNKNOWN, its contact UNSEEN, and handed RELOCK. Where a command
rode in the exchange it is answered: a RELOCK lets a door in UNKNOWN come to rest, a RELEASE or HOLD leaves no HOLD unsent, an UNLATCH is
pending no more, the ENCODE of the encoding in progress starts its timer, and another does nothing; a command held next enters the queue at
its head. Nothing else changes (R14, R78, R79, R80, R92, R151, R155, R156, R158, R161). That a node restored from ABSENT off probe counts 0
is a reading of R158 (log entry 33), that a door in HOLD_OPEN is freed too and one in another state has its timers stopped are readings of
R79 and R80 (log entries 10 and 11), as is that one whose hold ended while its node was out is relocked and not held (log entry 12) and
that a door already UNKNOWN keeps no contact from before (log entry 51), and that a door that an answered RELOCK brings to rest is handed
RELOCK again is a reading of R66 and R78 (log entry 19). That coming to rest leaves a running alarm delay timer as it is is the model's
choice (log entry 20). That a command so handed is held behind the answered one, and so enters the queue at its head and not at its tail,
is the model's choice (log entry 43). -/
def Obligations.NothingKeepsTheNodeOnline : Prop :=
  (∀ (s : State) (seg addr : Nat) (attention : Bool) (n after : Node) (door : Option Door) (commands : List Command) (count : Nat),
    s.settled → s.dev.exchangeWith seg addr n →
    (((n.state = .online ∨ n.state = .suspect ∨ n.state = .degraded ∨ (n.state = .absent ∧ n.kind.isDoor = false ∧ n.door = none))
        ∧ commands = (if n.door.any (fun r => r.holdUnsent) then [.hold] else [])
        ∧ door = n.door.map (fun r => { r with holdUnsent := false }))
      ∨ (n.state = .absent ∧ n.kind.isDoor = true ∧ ∃ r r', n.door = some r ∧ door = some r'
        ∧ r.serviceGives (s.dev.fire.active && (decide (n.kind = .egressDoor) || decide (n.kind = .commonDoor))) r' commands)) →
    after = { n with
      state := .online, misses := 0, retries := 0, onProbe := false, faultOpen := false, door := door } →
    count = (if n.onProbe then n.retries else if n.state = .degraded then n.misses else 0) →
    ∃ t, exec (.nothing seg attention) s = .next t ∧ s.answered t seg addr attention after commands ∧
      t.dev.journal = (if n.faultOpen then (s.dev.notable (.node (seg * 256 + addr) .restored count)).journal else s.dev.journal) ∧
      t = { s with dev := { s.dev with
        regs := { s.dev.regs with status := stallStatus s.dev.journal t.dev.journal s.dev.regs.status }
        nodes := t.dev.nodes, segments := t.dev.segments, journal := t.dev.journal } }) ∧
  (∀ (s : State) (seg addr key : Nat) (attention : Bool) (g placed : Segment) (x : Exchange) (n : Node) (c : Command) (attempts : Nat)
     (door : Option Door) (commands : List Command) (pending : Room → Bool) (timer : Encoding → Option Timer),
    s.settled → addr < 256 → key = seg * 256 + addr → s.dev.segment seg = g → g.exchange = some x → x.addr = addr →
    x.carried = some (c, attempts) → g.isDisabled = false → Table.find key s.dev.nodes = some n → n.sound →
    ((∃ r o, n.door = some r ∧ r.answeredGives c o ∧ door = some o.door ∧ commands = o.commands)
      ∨ (n.door = none ∧ door = none ∧ commands = [])) →
    (∀ i r, (i, r) ∈ s.dev.rooms → r.barLink = some key → ∀ i' r', (i', r') ∈ s.dev.rooms → r'.barLink = some key → i' = i) →
    (∀ r, pending r = (r.unlatchPending && !(decide (c = .unlatch) && decide (r.barLink = some key)))) →
    (∀ e : Encoding, timer e = match c with
      | .encode _ job => if e.job = job then some { count := 0, due := false } else e.timer
      | _ => e.timer) →
    placed = commands.foldl (fun h c' => h.place addr c') g →
    Table.wf s.dev.rooms = true →
    ∃ t, exec (.nothing seg attention) s = .next t ∧
      Table.find key t.dev.nodes = some (if attention || !g.attention.contains addr then { n with door := door }
        else { n with door := door, passOver := 0 }) ∧
      (∀ other, other ≠ key → Table.find other t.dev.nodes = Table.find other s.dev.nodes) ∧
      t.dev.segments = s.dev.segments.set seg { placed with
        exchange := none
        queue := match placed.exchange.bind (fun y => y.next) with
          | none => placed.queue
          | some c' => { addr := addr, command := c', attempts := 0 } :: placed.queue
        attention := if attention then insertAddress addr g.attention else g.attention.filter (fun a => decide (a ≠ addr)) } ∧
      (∀ room, Table.find room t.dev.rooms = (Table.find room s.dev.rooms).map (fun r => { r with unlatchPending := pending r })) ∧
      (∀ other, Table.find other t.dev.creds.encoders = (Table.find other s.dev.creds.encoders).map (fun enc =>
        if other = key then { enc with current := enc.current.map (fun e => { e with timer := timer e }) } else enc)) ∧
      t = { s with dev := { s.dev with
        creds := { s.dev.creds with encoders := t.dev.creds.encoders }
        rooms := t.dev.rooms, nodes := t.dev.nodes, segments := t.dev.segments } })

/-- CONTACT in a sound exchange, its sequence not the last accepted one: the sequence is the last accepted, GRANT is owed, and the door,
the commands, the records and the alarm are as the report gives at the door's state; at a node that is no door REFUSE is owed and nothing
else happens. Nothing else changes (R66, R68, R69, R72, R73, R148, R149). That the latch of the standing alarm alone holds it, and that
LATCH mode met without its latch holds it too, are readings of R73 (log entries 8 and 9), and that a delay timer left running by an earlier
alarm runs on is the model's choice (log entry 20); what a position byte that names nothing is read as is free (log entry 29). -/
def Obligations.ContactMovesTheDoor : Prop :=
  ∀ (s : State) (seg addr : Nat) (attention isOpen : Bool) (seq : BitVec 4) (position : Byte) (n : Node) (key : Nat),
    s.settled → s.dev.exchangeWith seg addr n → n.sound → n.lastSeq ≠ some seq → key = seg * 256 + addr →
    positionMeans 0x82 position isOpen →
    (∀ (r : Door) (o : DoorOut), n.kind.isDoor = true → n.door = some r → r.contactGives isOpen o →
      ∃ t, exec (.contact seg attention seq position) s = .next t ∧
        s.answered t seg addr attention
          { n with lastSeq := some seq, owedAck := some (seq, .grant), door := some o.door } o.commands ∧
        t.dev.journal = (o.events.foldl (fun d e => d.record (.door key e o.door.state) {} .notable)
          (s.dev.beforeReport key n seq)).journal ∧
        t = { s with dev := { s.dev with
          regs := { s.dev.regs with
            status := stallStatus s.dev.journal t.dev.journal (if o.alarm then s.dev.regs.status ||| 128 else s.dev.regs.status) }
          nodes := t.dev.nodes, segments := t.dev.segments, journal := t.dev.journal } }) ∧
    (n.kind.isDoor = false →
      ∃ t, exec (.contact seg attention seq position) s = .next t ∧
        s.answered t seg addr attention { n with lastSeq := some seq, owedAck := some (seq, .refuse) } [] ∧
        t.dev.journal = (s.dev.beforeReport key n seq).journal ∧
        t = { s with dev := { s.dev with
          regs := { s.dev.regs with status := stallStatus s.dev.journal t.dev.journal s.dev.regs.status }
          nodes := t.dev.nodes, segments := t.dev.segments, journal := t.dev.journal } })

/-- BUTTON in a sound exchange, its sequence not the last accepted one: at a node that no room links as its door, REFUSE and nothing else;
at a VACANT room REFUSE, kept as its last button signal; otherwise the room takes the button as its DND flag and GRANT as its last button
signal, and a change writes STAY DND_ON or DND_OFF. Nothing else changes (R35, R148, R149). What a byte that names neither value is read as is
free (log entry 29). -/
def Obligations.ButtonSetsDoNotDisturb : Prop :=
  ∀ (s : State) (seg addr : Nat) (attention on : Bool) (seq : BitVec 4) (value : Byte) (n : Node) (key : Nat),
    s.settled → s.dev.exchangeWith seg addr n → n.sound → n.lastSeq ≠ some seq → key = seg * 256 + addr →
    buttonMeans value on →
    ((∀ p ∈ s.dev.rooms, p.2.doorLink ≠ some key) →
      ∃ t, exec (.button seg attention seq value) s = .next t ∧
        s.answered t seg addr attention { n with lastSeq := some seq, owedAck := some (seq, .refuse) } [] ∧
        t.dev.journal = (s.dev.beforeReport key n seq).journal ∧
        t = { s with dev := { s.dev with
          regs := { s.dev.regs with status := stallStatus s.dev.journal t.dev.journal s.dev.regs.status }
          nodes := t.dev.nodes, segments := t.dev.segments, journal := t.dev.journal } }) ∧
    (∀ (room : Nat) (r after : Room) (signal : Signal), (room, r) ∈ s.dev.rooms → Table.find room s.dev.rooms = some r →
      r.doorLink = some key → (∀ p ∈ s.dev.rooms, p.2.doorLink = some key → p = (room, r)) →
      ((r.state = .vacant ∧ signal = .refuse ∧ after = { r with lastButton := some .refuse })
        ∨ (r.state ≠ .vacant ∧ signal = .grant ∧ after = { r with dnd := on, lastButton := some .grant })) →
      ∃ t, exec (.button seg attention seq value) s = .next t ∧
        s.answered t seg addr attention { n with lastSeq := some seq, owedAck := some (seq, signal) } [] ∧
        Table.find room t.dev.rooms = some after ∧
        (∀ other, other ≠ room → Table.find other t.dev.rooms = Table.find other s.dev.rooms) ∧
        t.dev.journal = (if r.state ≠ .vacant ∧ on ≠ r.dnd then
          ((s.dev.beforeReport key n seq).notable (.stay room (if on then .dndOn else .dndOff) 0 0)).journal
          else (s.dev.beforeReport key n seq).journal) ∧
        t = { s with dev := { s.dev with
          regs := { s.dev.regs with status := stallStatus s.dev.journal t.dev.journal s.dev.regs.status }
          rooms := t.dev.rooms, nodes := t.dev.nodes, segments := t.dev.segments, journal := t.dev.journal } })

/-- A report with the last accepted sequence is answered with the signal that its owner kept and has no other effect: a GRANT for CONTACT
at a door; the last verdict, tally, button and result signal for the others; REFUSE where there is none (R148, R149). -/
def Obligations.DuplicatesAreAnsweredAlike : Prop :=
  ∀ (s : State) (seg addr : Nat) (attention : Bool) (seq : BitVec 4) (n : Node) (key : Nat) (c : Instr) (signal : Signal),
    s.settled → s.dev.exchangeWith seg addr n → n.sound → n.lastSeq = some seq → key = seg * 256 + addr →
    ((∃ image, c = .present seg attention seq image) ∧ signal = n.lastVerdict.getD .refuse)
      ∨ ((∃ position, c = .contact seg attention seq position) ∧ signal = (if n.kind.isDoor then .grant else .refuse))
      ∨ ((∃ position pairs, c = .tally seg attention seq position pairs) ∧ n.kind = .minibar ∧ signal = n.lastTally.getD .refuse)
      ∨ ((∃ value, c = .button seg attention seq value)
        ∧ (((∀ p ∈ s.dev.rooms, p.2.doorLink ≠ some key) ∧ signal = .refuse)
          ∨ ∃ p ∈ s.dev.rooms, p.2.doorLink = some key ∧ (∀ q ∈ s.dev.rooms, q.2.doorLink = some key → q = p)
            ∧ signal = p.2.lastButton.getD .refuse))
      ∨ ((∃ code, c = .encResult seg attention seq code) ∧ n.kind = .encoder
        ∧ ∃ enc, Table.find key s.dev.creds.encoders = some enc ∧ signal = enc.lastResult.getD .refuse) →
    ∃ t, exec c s = .next t ∧ s.answered t seg addr attention { n with owedAck := some (seq, signal) } [] ∧
      t = { s with dev := { s.dev with nodes := t.dev.nodes, segments := t.dev.segments } }

/-- PRESENT in a sound exchange, its sequence not the last accepted one. An ENCODER refuses it, undecided and unrecorded. A door in
EMERGENCY or HOLD_OPEN lets it through unread with GRANT_FREE. Otherwise the first test of steps 2 to 12 that fails refuses the card with
its reason, and REVOKED and MISMATCH latch DOOR_ALARM. The signal is owed and kept as the last verdict, and the ACCESS record carries what
the reader saw, ROUTINE for GRANT_FREE and BAD_READ, NOTABLE for another refusal. Nothing else changes (R44, R46 to R57, R59, R60, R148,
R149). -/
def Obligations.PresentIsRefusedByTheFirstFailure : Prop :=
  ∀ (s : State) (seg addr : Nat) (attention : Bool) (seq : BitVec 4) (i : CardImage) (n : Node) (key : Nat),
    s.settled → s.dev.exchangeWith seg addr n → n.sound → n.lastSeq ≠ some seq → key = seg * 256 + addr →
    (n.kind = .encoder →
      ∃ t, exec (.present seg attention seq i) s = .next t ∧
        s.answered t seg addr attention
          { n with lastSeq := some seq, owedAck := some (seq, .refuse), lastVerdict := some .refuse } [] ∧
        t.dev.journal = (s.dev.beforeReport key n seq).journal ∧
        t = { s with dev := { s.dev with
          regs := { s.dev.regs with status := stallStatus s.dev.journal t.dev.journal s.dev.regs.status }
          nodes := t.dev.nodes, segments := t.dev.segments, journal := t.dev.journal } }) ∧
    (∀ r, n.kind ≠ .encoder → n.door = some r → (r.state = .emergency ∨ r.state = .holdOpen) →
      ∃ t, exec (.present seg attention seq i) s = .next t ∧
        s.answered t seg addr attention
          { n with lastSeq := some seq, owedAck := some (seq, .grant), lastVerdict := some .grant } [] ∧
        t.dev.journal = ((s.dev.beforeReport key n seq).record
          (.access key i.serial i.kind .grantFree .none 1 i.room) {} .routine).journal ∧
        t = { s with dev := { s.dev with
          regs := { s.dev.regs with status := stallStatus s.dev.journal t.dev.journal s.dev.regs.status }
          nodes := t.dev.nodes, segments := t.dev.segments, journal := t.dev.journal } }) ∧
    (∀ (e : Entry) (reason : Reason), n.kind ≠ .encoder → (∀ r, n.door = some r → r.state ≠ .emergency ∧ r.state ≠ .holdOpen) →
      (∀ e', s.dev.entryOf i.serial = some e' → e' = e) → firstFailure (s.dev.cardTests n i e) reason →
      ∃ t, exec (.present seg attention seq i) s = .next t ∧
        s.answered t seg addr attention
          { n with lastSeq := some seq, owedAck := some (seq, .refuse), lastVerdict := some .refuse } [] ∧
        t.dev.journal = ((s.dev.beforeReport key n seq).record
          (.access key i.serial i.kind .refuse reason 1 i.room) {} (if reason = .badRead then .routine else .notable)).journal ∧
        t = { s with dev := { s.dev with
          regs := { s.dev.regs with
            status := stallStatus s.dev.journal t.dev.journal
              (if reason = .revoked ∨ reason = .mismatch then s.dev.regs.status ||| 128 else s.dev.regs.status) }
          nodes := t.dev.nodes, segments := t.dev.segments, journal := t.dev.journal } })

/-- A card that passes every test of steps 2 to 12, in an exchange that carries no command with a node that has nothing to mend: a door is
granted, its outcome carried out ahead of the ROUTINE ACCESS record; a minibar with no linked room, or whose checks of step 13 fail in
their order, refuses it; a minibar in session grants it and goes on; and otherwise a session opens: a reservation is kept, UNLATCH handed
and pending, the session timer started, the state by what the card asks for. Nothing else changes (R58, R59, R67, R89, R90). That the latch
of the standing alarm alone decides a grant in an alarm is a reading of R67 (log entry 8), and that a grant outside an unlatched alarm
leaves a running alarm delay timer as it is is the model's choice (log entry 20). -/
def Obligations.PresentThatPassesIsGranted : Prop :=
  ∀ (s : State) (seg addr : Nat) (attention : Bool) (seq : BitVec 4) (i : CardImage) (n : Node) (key : Nat) (e : Entry),
    s.settled → s.dev.exchangeWith seg addr n → n.sound → n.lastSeq ≠ some seq → key = seg * 256 + addr →
    (∀ p ∈ s.dev.cardTests n i e, p.2) →
    (∀ (r : Door) (o : DoorOut), n.kind.isDoor = true → n.door = some r → r.grantGives o →
      ∃ t, exec (.present seg attention seq i) s = .next t ∧
        s.answered t seg addr attention
          { n with lastSeq := some seq, owedAck := some (seq, .grant), lastVerdict := some .grant, door := some o.door } o.commands ∧
        t.dev.journal = ((o.events.foldl (fun d e => d.record (.door key e o.door.state) {} .notable)
          (s.dev.beforeReport key n seq)).record (.access key i.serial i.kind .grant .none 1 i.room) {} .routine).journal ∧
        t = { s with dev := { s.dev with
          regs := { s.dev.regs with status := stallStatus s.dev.journal t.dev.journal s.dev.regs.status }
          nodes := t.dev.nodes, segments := t.dev.segments, journal := t.dev.journal } }) ∧
    (n.kind = .minibar → n.door = none →
      (∀ reason : Reason,
        (reason = .minibarBusy ∧ ∀ p ∈ s.dev.rooms, p.2.barLink ≠ some key)
        ∨ (∃ p ∈ s.dev.rooms, p.2.barLink = some key ∧ (∀ q ∈ s.dev.rooms, q.2.barLink = some key → q = p) ∧ p.2.bar.inSession = false
          ∧ firstFailure [
              (.clockUnset, (e.may 7 ∧ ¬ (e.kind = .guest ∧ e.may 1 ∧ e.room = n.room)) ∨ s.dev.clock.valid = true),
              (.minibarBusy, (e.may 7 ∧ ¬ (e.kind = .guest ∧ e.may 1 ∧ e.room = n.room)) ∨ p.2.state = .occupied),
              (.ceiling, (e.may 7 ∧ ¬ (e.kind = .guest ∧ e.may 1 ∧ e.room = n.room)) ∨ p.2.bar ≠ .suspended),
              (.noRecordRoom, (s.dev.beforeReport key n seq).journal.load < 64
                ∧ (s.dev.beforeReport key n seq).journal.reserved < 24)] reason) →
        ∃ t, exec (.present seg attention seq i) s = .next t ∧
          s.answered t seg addr attention
            { n with lastSeq := some seq, owedAck := some (seq, .refuse), lastVerdict := some .refuse } [] ∧
          t.dev.journal = ((s.dev.beforeReport key n seq).record
            (.access key i.serial i.kind .refuse reason 1 i.room) {} .notable).journal ∧
          t = { s with dev := { s.dev with
            regs := { s.dev.regs with status := stallStatus s.dev.journal t.dev.journal s.dev.regs.status }
            nodes := t.dev.nodes, segments := t.dev.segments, journal := t.dev.journal } }) ∧
      (∀ (room : Nat) (r after : Room) (commands : List Command) (kept : Device), (room, r) ∈ s.dev.rooms →
        Table.find room s.dev.rooms = some r → r.barLink = some key → (∀ q ∈ s.dev.rooms, q.2.barLink = some key → q = (room, r)) →
        ((r.bar.inSession = true ∧ after = r ∧ commands = [] ∧ kept = s.dev.beforeReport key n seq)
          ∨ (r.bar.inSession = false ∧ (s.dev.beforeReport key n seq).journal.load < 64
            ∧ (s.dev.beforeReport key n seq).journal.reserved < 24 ∧ commands = [.unlatch]
            ∧ kept = (s.dev.beforeReport key n seq).reserve
            ∧ (((e.may 7 ∧ ¬ (e.kind = .guest ∧ e.may 1 ∧ e.room = n.room))
                ∧ after = { r with bar := .restockOpen, unlatchPending := true, session := some { count := 0, due := false } })
              ∨ (¬ (e.may 7 ∧ ¬ (e.kind = .guest ∧ e.may 1 ∧ e.room = n.room))
                ∧ s.dev.clock.valid = true ∧ r.state = .occupied ∧ r.bar ≠ .suspended
                ∧ after = { r with bar := .guestOpen, unlatchPending := true, session := some { count := 0, due := false } })))) →
        ∃ t, exec (.present seg attention seq i) s = .next t ∧
          s.answered t seg addr attention
            { n with lastSeq := some seq, owedAck := some (seq, .grant), lastVerdict := some .grant } commands ∧
          Table.find room t.dev.rooms = some after ∧
          (∀ other, other ≠ room → Table.find other t.dev.rooms = Table.find other s.dev.rooms) ∧
          t.dev.journal = (kept.record (.access key i.serial i.kind .grant .none 1 i.room) {} .routine).journal ∧
          t = { s with dev := { s.dev with
            regs := { s.dev.regs with status := stallStatus s.dev.journal t.dev.journal s.dev.regs.status }
            rooms := t.dev.rooms, nodes := t.dev.nodes, segments := t.dev.segments, journal := t.dev.journal } }))

/-- TALLY in a sound exchange, its sequence not the last accepted one. At a node that is no minibar, REFUSE; at a minibar that no room
links, REFUSE, kept as the last tally signal. Otherwise GRANT is kept, every baseline takes its count as clamped to the capacity,
unsettled clears, and the sum of the lines, priced by the tariff, is posted: a CLOSED tally ends a GUEST session with its CHARGE on the
reservation, or the reservation given back where no slot moved, and a RESTOCK session, unposted, with its RESTOCK record; any other tally
is an UNATTENDED CHARGE. A session's end and a CLOSED tally out of session relock. An orphaned minibar posts nothing and writes
LATE_CHARGE. Nothing else changes (R91, R95 to R100, R113, R114, R132). The counts come two in a byte, the lower-numbered slot in its high four
bits (R198); what a position byte that names nothing is read as is free (log entry 29). -/
def Obligations.TallySettlesTheSlots : Prop :=
  ∀ (s : State) (seg addr : Nat) (attention closed : Bool) (seq : BitVec 4) (position : Byte) (pairs : List Byte)
    (counts : List (BitVec 4)) (n : Node) (key : Nat),
    s.settled → s.dev.exchangeWith seg addr n → n.sound → n.lastSeq ≠ some seq → key = seg * 256 + addr →
    positionMeans 0x83 position (!closed) → pairsMean pairs counts →
    (n.kind ≠ .minibar →
      ∃ t, exec (.tally seg attention seq position pairs) s = .next t ∧
        s.answered t seg addr attention { n with lastSeq := some seq, owedAck := some (seq, .refuse) } [] ∧
        t.dev.journal = (s.dev.beforeReport key n seq).journal ∧
        t = { s with dev := { s.dev with
          regs := { s.dev.regs with status := stallStatus s.dev.journal t.dev.journal s.dev.regs.status }
          nodes := t.dev.nodes, segments := t.dev.segments, journal := t.dev.journal } }) ∧
    (n.kind = .minibar → (∀ p ∈ s.dev.rooms, p.2.barLink ≠ some key) →
      ∃ t, exec (.tally seg attention seq position pairs) s = .next t ∧
        s.answered t seg addr attention
          { n with lastSeq := some seq, owedAck := some (seq, .refuse), lastTally := some .refuse } [] ∧
        t.dev.journal = (s.dev.beforeReport key n seq).journal ∧
        t = { s with dev := { s.dev with
          regs := { s.dev.regs with status := stallStatus s.dev.journal t.dev.journal s.dev.regs.status }
          nodes := t.dev.nodes, segments := t.dev.segments, journal := t.dev.journal } }) ∧
    (∀ (room : Nat) (r rebased charged after : Room) (slots : List Slot) (lines : List ChargeLine) (amount : Int) (p : Posting)
      (clamped : Bool) (commands : List Command) (base made : Device), n.kind = .minibar → (room, r) ∈ s.dev.rooms →
      Table.find room s.dev.rooms = some r → r.barLink = some key → (∀ q ∈ s.dev.rooms, q.2.barLink = some key → q = (room, r)) →
      counts.length = r.slots.length → base = s.dev.beforeReport key n seq →
      slots = List.zipWith (fun (x : Slot) (c : BitVec 4) => { x with baseline := min c.toNat x.capacity }) r.slots counts →
      lines = s.dev.tariff.lines 1 (r.slots.zip (counts.map (fun c => c.toNat))) → amount = settlementAmount lines →
      p = post r.balance r.ceiling r.unposted amount →
      clamped = (List.zipWith (fun (x : Slot) (c : BitVec 4) => decide (x.capacity < c.toNat)) r.slots counts).any id →
      rebased = { r with slots := slots, unsettled := false } →
      charged = { rebased with balance := p.balance, unposted := p.unposted } →
      commands = (if closed then [.relock] else []) →
      ((r.orphan = false ∧ r.bar = .guestOpen ∧ closed = true
          ∧ after = { charged with session := none, unlatchPending := false, bar := charged.restState }
          ∧ made = (if lines = [] then base.giveBack else base.record
            (.charge room key .guest lines amount p.moved (if 0 ≤ amount then p.excess else p.lost))
            { clampedReading := clamped, unpriced := lines.any (fun l => l.item.isNone), saturated := p.saturated } .reserved))
        ∨ (r.orphan = false ∧ r.bar = .restockOpen ∧ closed = true
          ∧ after = { rebased with session := none, unlatchPending := false, bar := rebased.restState }
          ∧ made = base.record (.restock room key (slots.map (fun x => x.baseline)))
            { clampedReading := clamped, givenUp := r.unsettled } .reserved)
        ∨ (r.orphan = false ∧ ¬ (r.bar.inSession = true ∧ closed = true)
          ∧ after = (if r.bar.inSession then charged else { charged with bar := charged.restState })
          ∧ made = (if lines = [] then base else base.record
            (.charge room key .unattended lines amount p.moved (if 0 ≤ amount then p.excess else p.lost))
            { clampedReading := clamped, unpriced := lines.any (fun l => l.item.isNone), saturated := p.saturated } .notable))
        ∨ (r.orphan = true ∧ r.bar.inSession = false
          ∧ after = { rebased with orphan := false, bar := rebased.restState }
          ∧ made = (if lines = [] then base else base.record (.lateCharge room key lines amount)
            { clampedReading := clamped, unpriced := lines.any (fun l => l.item.isNone) } .notable))
        ∨ (r.orphan = true ∧ r.bar.inSession = true ∧ closed = true
          ∧ after = { rebased with orphan := false, session := none, unlatchPending := false, bar := rebased.restState }
          ∧ made = (if lines = [] then base.giveBack else base.record (.lateCharge room key lines amount)
            { clampedReading := clamped, unpriced := lines.any (fun l => l.item.isNone) } .reserved))
        ∨ (r.orphan = true ∧ r.bar.inSession = true ∧ closed = false ∧ after = { rebased with orphan := false }
          ∧ made = (if lines = [] then base else base.record (.lateCharge room key lines amount)
            { clampedReading := clamped, unpriced := lines.any (fun l => l.item.isNone) } .notable))) →
      ∃ t, exec (.tally seg attention seq position pairs) s = .next t ∧
        s.answered t seg addr attention
          { n with lastSeq := some seq, owedAck := some (seq, .grant), lastTally := some .grant } commands ∧
        Table.find room t.dev.rooms = some after ∧
        (∀ other, other ≠ room → Table.find other t.dev.rooms = Table.find other s.dev.rooms) ∧
        t.dev.journal = made.journal ∧
        t = { s with dev := { s.dev with
          regs := { s.dev.regs with status := stallStatus s.dev.journal t.dev.journal s.dev.regs.status }
          rooms := t.dev.rooms, nodes := t.dev.nodes, segments := t.dev.segments, journal := t.dev.journal } })

/-- ENC_RESULT in a sound exchange, its sequence not the last accepted one. At a node that is no encoder, REFUSE. At an encoder with no
encoding in WRITING the result is discarded and REFUSE kept as the last result signal. In WRITING, GRANT is kept: WRITTEN, superseding
nothing, makes the entry ACTIVE, writes CARD ISSUED and settles the block with DONE, the issue minute and 0; FAILED and NO_CARD free the
entry, put a serial denied before back in the deny list, lower the guest card count, write CARD ISSUE_FAILED and settle with their code and
words 0. WRITTEN of an issue with SUPERSEDE set retires every other GUEST entry of the room besides, in ascending order of serial, ahead of CARD
ISSUED: each ACTIVE or SUSPENDED one is FREE and denied, each ENCODING one cancelled, its block settling with CANCELLED; CARD SUPERSEDED carries
the issue's tag, and their number is the second result word. Then the next issue starts, where one waits, with ENCODE under the next job. Nothing
else changes (R14, R15, R16, R17, R20). What a code that names no result is read as is free (log entry 29). -/
def Obligations.EncodingResultSettles : Prop :=
  ∀ (s : State) (seg addr : Nat) (attention : Bool) (seq : BitVec 4) (code : Byte) (result : EncResult) (n : Node)
    (key : Nat),
    s.settled → s.dev.exchangeWith seg addr n → n.sound → n.lastSeq ≠ some seq → key = seg * 256 + addr →
    resultMeans code result →
    (n.kind ≠ .encoder →
      ∃ t, exec (.encResult seg attention seq code) s = .next t ∧
        s.answered t seg addr attention { n with lastSeq := some seq, owedAck := some (seq, .refuse) } [] ∧
        t.dev.journal = (s.dev.beforeReport key n seq).journal ∧
        t = { s with dev := { s.dev with
          regs := { s.dev.regs with status := stallStatus s.dev.journal t.dev.journal s.dev.regs.status }
          nodes := t.dev.nodes, segments := t.dev.segments, journal := t.dev.journal } }) ∧
    (∀ enc : Encoder, n.kind = .encoder → Table.find key s.dev.creds.encoders = some enc →
      (∀ c, enc.current = some c → c.timer = none) →
      ∃ t, exec (.encResult seg attention seq code) s = .next t ∧
        s.answered t seg addr attention { n with lastSeq := some seq, owedAck := some (seq, .refuse) } [] ∧
        Table.find key t.dev.creds.encoders = some { enc with lastResult := some .refuse } ∧
        (∀ other, other ≠ key → Table.find other t.dev.creds.encoders = Table.find other s.dev.creds.encoders) ∧
        t.dev.journal = (s.dev.beforeReport key n seq).journal ∧
        t = { s with dev := { s.dev with
          regs := { s.dev.regs with status := stallStatus s.dev.journal t.dev.journal s.dev.regs.status }
          creds := { s.dev.creds with encoders := t.dev.creds.encoders }
          nodes := t.dev.nodes, segments := t.dev.segments, journal := t.dev.journal } }) ∧
    (∀ (enc after : Encoder) (c : Encoding) (timer : Timer) (e : Entry) (left : Option Entry) (event : CardEvent)
      (settlement : Settlement) (job : Nat) (commands : List Command), n.kind = .encoder →
      Table.find key s.dev.creds.encoders = some enc → enc.current = some c → c.timer = some timer →
      s.dev.entryOf c.issue.serial = some e →
      ((result = .written ∧ c.issue.supersede = false ∧ left = some { e with state := .active, deniedBefore := false }
          ∧ event = .issued ∧ settlement = { block := c.issue.block, words := [e.issueMinute, 0], code := .done })
        ∨ (result ≠ .written ∧ left = none ∧ event = .issueFailed
          ∧ settlement = { block := c.issue.block, words := [0, 0]
                           code := if result = .failed then .encodeFailed else .noCard })) →
      ((enc.waiting = [] ∧ after = { enc with current := none, lastResult := some .grant } ∧ job = s.dev.creds.nextJob
          ∧ commands = [])
        ∨ ∃ issue rest, enc.waiting = issue :: rest ∧ job = s.dev.creds.nextJob + 1
          ∧ commands = [.encode issue.image s.dev.creds.nextJob]
          ∧ after = { current := some { issue := issue, timer := none, job := s.dev.creds.nextJob }, waiting := rest
                      lastResult := some .grant }) →
      ∃ t, exec (.encResult seg attention seq code) s = .next t ∧
        s.answered t seg addr attention { n with lastSeq := some seq, owedAck := some (seq, .grant) } commands ∧
        (∀ serial, t.dev.entryOf serial = if serial = c.issue.serial then left else s.dev.entryOf serial) ∧
        t.dev.creds.deny = (if result ≠ .written ∧ e.deniedBefore = true then denyAppend c.issue.serial s.dev.creds.deny
          else s.dev.creds.deny) ∧
        (∀ room, Table.find room t.dev.rooms = (Table.find room s.dev.rooms).map (fun r =>
          if result ≠ .written ∧ e.kind = .guest ∧ room = e.room then { r with guestCount := r.guestCount - 1 } else r)) ∧
        Table.find key t.dev.creds.encoders = some after ∧
        (∀ other, other ≠ key → Table.find other t.dev.creds.encoders = Table.find other s.dev.creds.encoders) ∧
        t.dev.journal = ((s.dev.beforeReport key n seq).notable (.card c.issue.serial event e.room e.tag)).journal ∧
        t = { s with dev := { s.dev with
          regs := { s.dev.regs with status := stallStatus s.dev.journal t.dev.journal s.dev.regs.status }
          walker := { s.dev.walker with settlements := s.dev.walker.settlements ++ [settlement] }
          creds := { s.dev.creds with
            entries := t.dev.creds.entries, deny := t.dev.creds.deny, encoders := t.dev.creds.encoders, nextJob := job }
          rooms := t.dev.rooms, nodes := t.dev.nodes, segments := t.dev.segments, journal := t.dev.journal } }) ∧
    (∀ (enc : Encoder) (c : Encoding) (timer : Timer) (e : Entry) (serials : List Word), n.kind = .encoder → result = .written →
      Table.find key s.dev.creds.encoders = some enc → enc.current = some c → c.timer = some timer → c.issue.supersede = true →
      s.dev.entryOf c.issue.serial = some e → Table.wf s.dev.creds.entries = true →
      (∀ p ∈ s.dev.creds.entries, p.1 < 4294967296) →
      (∀ serial, serial ∈ serials ↔ serial ≠ c.issue.serial
        ∧ ∃ x, s.dev.entryOf serial = some x ∧ x.kind = .guest ∧ x.room = e.room) →
      serials.Pairwise (fun a b => a.toNat < b.toNat) → s.dev.issuesStand serials →
      ∃ (t : State) (written mid : Device) (settled : List Settlement) (last after : Encoder) (commands : List Command),
        exec (.encResult seg attention seq code) s = .next t ∧
        written.entryOf c.issue.serial = some { e with state := .active, deniedBefore := false } ∧
        (∀ other, other ≠ c.issue.serial → written.entryOf other = s.dev.entryOf other) ∧
        Table.find key written.creds.encoders = some { enc with lastResult := some .grant } ∧
        (∀ other, other ≠ key → Table.find other written.creds.encoders = Table.find other s.dev.creds.encoders) ∧
        Table.find key written.nodes = some { n with lastSeq := some seq } ∧
        (∀ other, other ≠ key → Table.find other written.nodes = Table.find other s.dev.nodes) ∧
        written.journal = (s.dev.beforeReport key n seq).journal ∧
        written = { s.dev with
          creds := { s.dev.creds with entries := written.creds.entries, encoders := written.creds.encoders }
          nodes := written.nodes, journal := written.journal } ∧
        Device.retiredAll .superseded e.tag written mid serials settled ∧
        Table.find key mid.creds.encoders = some last ∧
        ((last.waiting = [] ∧ after = { last with current := none } ∧ commands = [] ∧ t.dev.creds.nextJob = mid.creds.nextJob)
          ∨ ∃ issue rest, last.waiting = issue :: rest ∧ commands = [.encode issue.image mid.creds.nextJob]
            ∧ after = { last with
                current := some { issue := issue, timer := none, job := mid.creds.nextJob }, waiting := rest }
            ∧ t.dev.creds.nextJob = mid.creds.nextJob + 1) ∧
        State.answered { s with dev := mid } t seg addr attention
          { n with lastSeq := some seq, owedAck := some (seq, .grant) } commands ∧
        Table.find key t.dev.creds.encoders = some after ∧
        (∀ other, other ≠ key → Table.find other t.dev.creds.encoders = Table.find other mid.creds.encoders) ∧
        t.dev.journal = (mid.notable (.card c.issue.serial .issued e.room e.tag)).journal ∧
        t = { s with dev := { mid with
          regs := { s.dev.regs with status := stallStatus s.dev.journal t.dev.journal s.dev.regs.status }
          walker := { s.dev.walker with settlements := s.dev.walker.settlements ++ settled ++
            [{ block := c.issue.block, words := [e.issueMinute, natWord serials.length], code := .done }] }
          creds := { mid.creds with encoders := t.dev.creds.encoders, nextJob := t.dev.creds.nextJob }
          nodes := t.dev.nodes, segments := t.dev.segments, journal := t.dev.journal } })

/-! ## Invariants: each holds after every step from any state in which it holds -/

/-- Board memory as the device wrote it stays in its one form; the second count stays 0 to 59, and stands at 59 while a minute tick is due;
an input's latch stands only under a latching sense, and an UNKNOWN settled level has its second still to run (R163, R168, R169). -/
def Obligations.MemoryClockAndInputsKeepTheirForm : Prop :=
  ∀ s t : State, s.memoryCanonical → s.dev.clock.shapeOk → s.dev.fire.shapeOk → s.dev.storm.shapeOk → step s = .next t →
    t.memoryCanonical ∧ t.dev.clock.shapeOk ∧ t.dev.fire.shapeOk ∧ t.dev.storm.shapeOk

/-- The journal's counts stay in their ranges: held plus reserved at most 64, reservations at most 24, the suppressed count and every
gap-before count at most 65,535, every repeat count at most 255 (R124, R129, R130, R131, R132). -/
def Obligations.JournalStaysBounded : Prop :=
  ∀ s t : State, s.dev.journal.bounded → step s = .next t → t.dev.journal.bounded

/-- Every folio stays in its ranges, and outside a session every minibar is SUSPENDED exactly when its headroom is below the open floor or
its unposted sum is above 0, and LOCKED otherwise (R28, R88, R110). -/
def Obligations.FoliosKeepTheSuspensionRule : Prop :=
  ∀ s t : State, s.dev.foliosOk → step s = .next t → t.dev.foliosOk

/-- The journal holds exactly one reservation for each open session; a session timer runs exactly while its session is open, and an UNLATCH
is pending only in a session (R90, R91, R132). -/
def Obligations.SessionsHoldTheirReservations : Prop :=
  ∀ s t : State, s.dev.sessionsReserved → step s = .next t → t.dev.sessionsReserved

/-- The credential table holds at most 3,072 serials and the deny list at most 512 without duplicates, and no serial is ever in both
(R1, R7). -/
def Obligations.NoSerialIsHeldAndDenied : Prop :=
  ∀ s t : State, s.dev.serialsOk → step s = .next t → t.dev.serialsOk

/-- Right after reset every invariant holds. -/
def Obligations.ResetMeetsTheInvariants : Prop :=
  State.reset.memoryCanonical ∧ State.reset.dev.clock.shapeOk ∧ State.reset.dev.fire.shapeOk ∧ State.reset.dev.storm.shapeOk ∧
  State.reset.dev.journal.bounded ∧ State.reset.dev.foliosOk ∧ State.reset.dev.sessionsReserved ∧ State.reset.dev.serialsOk ∧
  State.reset.settled
end

