-- ==== Sys2Proof/Laws/State.lean ====
section
/-! SUPPORT. What each small update of the device leaves in each of its fields: one lemma per field per update, so that no proof unfolds a
record update. -/

namespace Sys2Proof.Machine

variable (d : Device)

/-! ### latch -/

@[simp] theorem Device.latch_regs (b : StatusBit) : (d.latch b).regs = { d.regs with status := d.regs.status ||| b.mask } := rfl
@[simp] theorem Device.latch_resetHeld (b : StatusBit) : (d.latch b).resetHeld = d.resetHeld := rfl
@[simp] theorem Device.latch_walker (b : StatusBit) : (d.latch b).walker = d.walker := rfl
@[simp] theorem Device.latch_creds (b : StatusBit) : (d.latch b).creds = d.creds := rfl
@[simp] theorem Device.latch_rooms (b : StatusBit) : (d.latch b).rooms = d.rooms := rfl
@[simp] theorem Device.latch_nodes (b : StatusBit) : (d.latch b).nodes = d.nodes := rfl
@[simp] theorem Device.latch_segments (b : StatusBit) : (d.latch b).segments = d.segments := rfl
@[simp] theorem Device.latch_tariff (b : StatusBit) : (d.latch b).tariff = d.tariff := rfl
@[simp] theorem Device.latch_sessionLimit (b : StatusBit) : (d.latch b).sessionLimit = d.sessionLimit := rfl
@[simp] theorem Device.latch_journal (b : StatusBit) : (d.latch b).journal = d.journal := rfl
@[simp] theorem Device.latch_clock (b : StatusBit) : (d.latch b).clock = d.clock := rfl
@[simp] theorem Device.latch_fire (b : StatusBit) : (d.latch b).fire = d.fire := rfl
@[simp] theorem Device.latch_storm (b : StatusBit) : (d.latch b).storm = d.storm := rfl
@[simp] theorem Device.latch_reports (b : StatusBit) : (d.latch b).reports = d.reports := rfl

/-! ### setSegment -/

@[simp] theorem Device.setSegment_regs (seg : Nat) (x : Segment) : (d.setSegment seg x).regs = d.regs := rfl
@[simp] theorem Device.setSegment_resetHeld (seg : Nat) (x : Segment) : (d.setSegment seg x).resetHeld = d.resetHeld := rfl
@[simp] theorem Device.setSegment_walker (seg : Nat) (x : Segment) : (d.setSegment seg x).walker = d.walker := rfl
@[simp] theorem Device.setSegment_creds (seg : Nat) (x : Segment) : (d.setSegment seg x).creds = d.creds := rfl
@[simp] theorem Device.setSegment_rooms (seg : Nat) (x : Segment) : (d.setSegment seg x).rooms = d.rooms := rfl
@[simp] theorem Device.setSegment_nodes (seg : Nat) (x : Segment) : (d.setSegment seg x).nodes = d.nodes := rfl
@[simp] theorem Device.setSegment_segments (seg : Nat) (x : Segment) : (d.setSegment seg x).segments = d.segments.set seg x := rfl
@[simp] theorem Device.setSegment_tariff (seg : Nat) (x : Segment) : (d.setSegment seg x).tariff = d.tariff := rfl
@[simp] theorem Device.setSegment_sessionLimit (seg : Nat) (x : Segment) : (d.setSegment seg x).sessionLimit = d.sessionLimit := rfl
@[simp] theorem Device.setSegment_journal (seg : Nat) (x : Segment) : (d.setSegment seg x).journal = d.journal := rfl
@[simp] theorem Device.setSegment_clock (seg : Nat) (x : Segment) : (d.setSegment seg x).clock = d.clock := rfl
@[simp] theorem Device.setSegment_fire (seg : Nat) (x : Segment) : (d.setSegment seg x).fire = d.fire := rfl
@[simp] theorem Device.setSegment_storm (seg : Nat) (x : Segment) : (d.setSegment seg x).storm = d.storm := rfl
@[simp] theorem Device.setSegment_reports (seg : Nat) (x : Segment) : (d.setSegment seg x).reports = d.reports := rfl

/-! ### modifyNode -/

@[simp] theorem Device.modifyNode_regs (key : Nat) (f : Node → Node) : (d.modifyNode key f).regs = d.regs := rfl
@[simp] theorem Device.modifyNode_resetHeld (key : Nat) (f : Node → Node) : (d.modifyNode key f).resetHeld = d.resetHeld := rfl
@[simp] theorem Device.modifyNode_walker (key : Nat) (f : Node → Node) : (d.modifyNode key f).walker = d.walker := rfl
@[simp] theorem Device.modifyNode_creds (key : Nat) (f : Node → Node) : (d.modifyNode key f).creds = d.creds := rfl
@[simp] theorem Device.modifyNode_rooms (key : Nat) (f : Node → Node) : (d.modifyNode key f).rooms = d.rooms := rfl
@[simp] theorem Device.modifyNode_nodes (key : Nat) (f : Node → Node) : (d.modifyNode key f).nodes = Table.modify key f d.nodes := rfl
@[simp] theorem Device.modifyNode_segments (key : Nat) (f : Node → Node) : (d.modifyNode key f).segments = d.segments := rfl
@[simp] theorem Device.modifyNode_tariff (key : Nat) (f : Node → Node) : (d.modifyNode key f).tariff = d.tariff := rfl
@[simp] theorem Device.modifyNode_sessionLimit (key : Nat) (f : Node → Node) : (d.modifyNode key f).sessionLimit = d.sessionLimit := rfl
@[simp] theorem Device.modifyNode_journal (key : Nat) (f : Node → Node) : (d.modifyNode key f).journal = d.journal := rfl
@[simp] theorem Device.modifyNode_clock (key : Nat) (f : Node → Node) : (d.modifyNode key f).clock = d.clock := rfl
@[simp] theorem Device.modifyNode_fire (key : Nat) (f : Node → Node) : (d.modifyNode key f).fire = d.fire := rfl
@[simp] theorem Device.modifyNode_storm (key : Nat) (f : Node → Node) : (d.modifyNode key f).storm = d.storm := rfl
@[simp] theorem Device.modifyNode_reports (key : Nat) (f : Node → Node) : (d.modifyNode key f).reports = d.reports := rfl

/-! ### modifyRoom -/

@[simp] theorem Device.modifyRoom_regs (room : Nat) (f : Room → Room) : (d.modifyRoom room f).regs = d.regs := rfl
@[simp] theorem Device.modifyRoom_resetHeld (room : Nat) (f : Room → Room) : (d.modifyRoom room f).resetHeld = d.resetHeld := rfl
@[simp] theorem Device.modifyRoom_walker (room : Nat) (f : Room → Room) : (d.modifyRoom room f).walker = d.walker := rfl
@[simp] theorem Device.modifyRoom_creds (room : Nat) (f : Room → Room) : (d.modifyRoom room f).creds = d.creds := rfl
@[simp] theorem Device.modifyRoom_rooms (room : Nat) (f : Room → Room) : (d.modifyRoom room f).rooms = Table.modify room f d.rooms := rfl
@[simp] theorem Device.modifyRoom_nodes (room : Nat) (f : Room → Room) : (d.modifyRoom room f).nodes = d.nodes := rfl
@[simp] theorem Device.modifyRoom_segments (room : Nat) (f : Room → Room) : (d.modifyRoom room f).segments = d.segments := rfl
@[simp] theorem Device.modifyRoom_tariff (room : Nat) (f : Room → Room) : (d.modifyRoom room f).tariff = d.tariff := rfl
@[simp] theorem Device.modifyRoom_sessionLimit (room : Nat) (f : Room → Room) : (d.modifyRoom room f).sessionLimit = d.sessionLimit := rfl
@[simp] theorem Device.modifyRoom_journal (room : Nat) (f : Room → Room) : (d.modifyRoom room f).journal = d.journal := rfl
@[simp] theorem Device.modifyRoom_clock (room : Nat) (f : Room → Room) : (d.modifyRoom room f).clock = d.clock := rfl
@[simp] theorem Device.modifyRoom_fire (room : Nat) (f : Room → Room) : (d.modifyRoom room f).fire = d.fire := rfl
@[simp] theorem Device.modifyRoom_storm (room : Nat) (f : Room → Room) : (d.modifyRoom room f).storm = d.storm := rfl
@[simp] theorem Device.modifyRoom_reports (room : Nat) (f : Room → Room) : (d.modifyRoom room f).reports = d.reports := rfl

/-! ### modifyEncoder -/

@[simp] theorem Device.modifyEncoder_regs (key : Nat) (f : Encoder → Encoder) : (d.modifyEncoder key f).regs = d.regs := rfl
@[simp] theorem Device.modifyEncoder_resetHeld (key : Nat) (f : Encoder → Encoder) : (d.modifyEncoder key f).resetHeld = d.resetHeld := rfl
@[simp] theorem Device.modifyEncoder_walker (key : Nat) (f : Encoder → Encoder) : (d.modifyEncoder key f).walker = d.walker := rfl
@[simp] theorem Device.modifyEncoder_creds (key : Nat) (f : Encoder → Encoder) : (d.modifyEncoder key f).creds = { d.creds with encoders := Table.modify key f d.creds.encoders } := rfl
@[simp] theorem Device.modifyEncoder_rooms (key : Nat) (f : Encoder → Encoder) : (d.modifyEncoder key f).rooms = d.rooms := rfl
@[simp] theorem Device.modifyEncoder_nodes (key : Nat) (f : Encoder → Encoder) : (d.modifyEncoder key f).nodes = d.nodes := rfl
@[simp] theorem Device.modifyEncoder_segments (key : Nat) (f : Encoder → Encoder) : (d.modifyEncoder key f).segments = d.segments := rfl
@[simp] theorem Device.modifyEncoder_tariff (key : Nat) (f : Encoder → Encoder) : (d.modifyEncoder key f).tariff = d.tariff := rfl
@[simp] theorem Device.modifyEncoder_sessionLimit (key : Nat) (f : Encoder → Encoder) : (d.modifyEncoder key f).sessionLimit = d.sessionLimit := rfl
@[simp] theorem Device.modifyEncoder_journal (key : Nat) (f : Encoder → Encoder) : (d.modifyEncoder key f).journal = d.journal := rfl
@[simp] theorem Device.modifyEncoder_clock (key : Nat) (f : Encoder → Encoder) : (d.modifyEncoder key f).clock = d.clock := rfl
@[simp] theorem Device.modifyEncoder_fire (key : Nat) (f : Encoder → Encoder) : (d.modifyEncoder key f).fire = d.fire := rfl
@[simp] theorem Device.modifyEncoder_storm (key : Nat) (f : Encoder → Encoder) : (d.modifyEncoder key f).storm = d.storm := rfl
@[simp] theorem Device.modifyEncoder_reports (key : Nat) (f : Encoder → Encoder) : (d.modifyEncoder key f).reports = d.reports := rfl

/-! ### record -/

@[simp] theorem Device.record_regs (body : RecordBody) (flags : RecordFlags) (cls : RecordClass) : (d.record body flags cls).regs = d.regs := rfl
@[simp] theorem Device.record_resetHeld (body : RecordBody) (flags : RecordFlags) (cls : RecordClass) : (d.record body flags cls).resetHeld = d.resetHeld := rfl
@[simp] theorem Device.record_walker (body : RecordBody) (flags : RecordFlags) (cls : RecordClass) : (d.record body flags cls).walker = d.walker := rfl
@[simp] theorem Device.record_creds (body : RecordBody) (flags : RecordFlags) (cls : RecordClass) : (d.record body flags cls).creds = d.creds := rfl
@[simp] theorem Device.record_rooms (body : RecordBody) (flags : RecordFlags) (cls : RecordClass) : (d.record body flags cls).rooms = d.rooms := rfl
@[simp] theorem Device.record_nodes (body : RecordBody) (flags : RecordFlags) (cls : RecordClass) : (d.record body flags cls).nodes = d.nodes := rfl
@[simp] theorem Device.record_segments (body : RecordBody) (flags : RecordFlags) (cls : RecordClass) : (d.record body flags cls).segments = d.segments := rfl
@[simp] theorem Device.record_tariff (body : RecordBody) (flags : RecordFlags) (cls : RecordClass) : (d.record body flags cls).tariff = d.tariff := rfl
@[simp] theorem Device.record_sessionLimit (body : RecordBody) (flags : RecordFlags) (cls : RecordClass) : (d.record body flags cls).sessionLimit = d.sessionLimit := rfl
@[simp] theorem Device.record_journal (body : RecordBody) (flags : RecordFlags) (cls : RecordClass) : (d.record body flags cls).journal = d.journal.admitRecord
      { body := body, flags := flags, cls := cls, minute := d.clock.minute, second := d.clock.second,
        clockValid := d.clock.valid, gap := 0 } := rfl
@[simp] theorem Device.record_clock (body : RecordBody) (flags : RecordFlags) (cls : RecordClass) : (d.record body flags cls).clock = d.clock := rfl
@[simp] theorem Device.record_fire (body : RecordBody) (flags : RecordFlags) (cls : RecordClass) : (d.record body flags cls).fire = d.fire := rfl
@[simp] theorem Device.record_storm (body : RecordBody) (flags : RecordFlags) (cls : RecordClass) : (d.record body flags cls).storm = d.storm := rfl
@[simp] theorem Device.record_reports (body : RecordBody) (flags : RecordFlags) (cls : RecordClass) : (d.record body flags cls).reports = d.reports := rfl

/-! ### notable -/

@[simp] theorem Device.notable_regs (body : RecordBody) : (d.notable body).regs = d.regs := rfl
@[simp] theorem Device.notable_resetHeld (body : RecordBody) : (d.notable body).resetHeld = d.resetHeld := rfl
@[simp] theorem Device.notable_walker (body : RecordBody) : (d.notable body).walker = d.walker := rfl
@[simp] theorem Device.notable_creds (body : RecordBody) : (d.notable body).creds = d.creds := rfl
@[simp] theorem Device.notable_rooms (body : RecordBody) : (d.notable body).rooms = d.rooms := rfl
@[simp] theorem Device.notable_nodes (body : RecordBody) : (d.notable body).nodes = d.nodes := rfl
@[simp] theorem Device.notable_segments (body : RecordBody) : (d.notable body).segments = d.segments := rfl
@[simp] theorem Device.notable_tariff (body : RecordBody) : (d.notable body).tariff = d.tariff := rfl
@[simp] theorem Device.notable_sessionLimit (body : RecordBody) : (d.notable body).sessionLimit = d.sessionLimit := rfl
@[simp] theorem Device.notable_journal (body : RecordBody) : (d.notable body).journal = (d.record body {} .notable).journal := rfl
@[simp] theorem Device.notable_clock (body : RecordBody) : (d.notable body).clock = d.clock := rfl
@[simp] theorem Device.notable_fire (body : RecordBody) : (d.notable body).fire = d.fire := rfl
@[simp] theorem Device.notable_storm (body : RecordBody) : (d.notable body).storm = d.storm := rfl
@[simp] theorem Device.notable_reports (body : RecordBody) : (d.notable body).reports = d.reports := rfl

/-! ### recordCard -/

@[simp] theorem Device.recordCard_regs (serial : Word) (event : CardEvent) (room : Nat) (tag : Word) : (d.recordCard serial event room tag).regs = d.regs := rfl
@[simp] theorem Device.recordCard_resetHeld (serial : Word) (event : CardEvent) (room : Nat) (tag : Word) : (d.recordCard serial event room tag).resetHeld = d.resetHeld := rfl
@[simp] theorem Device.recordCard_walker (serial : Word) (event : CardEvent) (room : Nat) (tag : Word) : (d.recordCard serial event room tag).walker = d.walker := rfl
@[simp] theorem Device.recordCard_creds (serial : Word) (event : CardEvent) (room : Nat) (tag : Word) : (d.recordCard serial event room tag).creds = d.creds := rfl
@[simp] theorem Device.recordCard_rooms (serial : Word) (event : CardEvent) (room : Nat) (tag : Word) : (d.recordCard serial event room tag).rooms = d.rooms := rfl
@[simp] theorem Device.recordCard_nodes (serial : Word) (event : CardEvent) (room : Nat) (tag : Word) : (d.recordCard serial event room tag).nodes = d.nodes := rfl
@[simp] theorem Device.recordCard_segments (serial : Word) (event : CardEvent) (room : Nat) (tag : Word) : (d.recordCard serial event room tag).segments = d.segments := rfl
@[simp] theorem Device.recordCard_tariff (serial : Word) (event : CardEvent) (room : Nat) (tag : Word) : (d.recordCard serial event room tag).tariff = d.tariff := rfl
@[simp] theorem Device.recordCard_sessionLimit (serial : Word) (event : CardEvent) (room : Nat) (tag : Word) : (d.recordCard serial event room tag).sessionLimit = d.sessionLimit := rfl
@[simp] theorem Device.recordCard_journal (serial : Word) (event : CardEvent) (room : Nat) (tag : Word) : (d.recordCard serial event room tag).journal = (d.record (.card serial event room tag) {} .notable).journal := rfl
@[simp] theorem Device.recordCard_clock (serial : Word) (event : CardEvent) (room : Nat) (tag : Word) : (d.recordCard serial event room tag).clock = d.clock := rfl
@[simp] theorem Device.recordCard_fire (serial : Word) (event : CardEvent) (room : Nat) (tag : Word) : (d.recordCard serial event room tag).fire = d.fire := rfl
@[simp] theorem Device.recordCard_storm (serial : Word) (event : CardEvent) (room : Nat) (tag : Word) : (d.recordCard serial event room tag).storm = d.storm := rfl
@[simp] theorem Device.recordCard_reports (serial : Word) (event : CardEvent) (room : Nat) (tag : Word) : (d.recordCard serial event room tag).reports = d.reports := rfl

/-! ### reserve -/

@[simp] theorem Device.reserve_regs : d.reserve.regs = d.regs := rfl
@[simp] theorem Device.reserve_resetHeld : d.reserve.resetHeld = d.resetHeld := rfl
@[simp] theorem Device.reserve_walker : d.reserve.walker = d.walker := rfl
@[simp] theorem Device.reserve_creds : d.reserve.creds = d.creds := rfl
@[simp] theorem Device.reserve_rooms : d.reserve.rooms = d.rooms := rfl
@[simp] theorem Device.reserve_nodes : d.reserve.nodes = d.nodes := rfl
@[simp] theorem Device.reserve_segments : d.reserve.segments = d.segments := rfl
@[simp] theorem Device.reserve_tariff : d.reserve.tariff = d.tariff := rfl
@[simp] theorem Device.reserve_sessionLimit : d.reserve.sessionLimit = d.sessionLimit := rfl
@[simp] theorem Device.reserve_journal : d.reserve.journal = { d.journal with reserved := d.journal.reserved + 1 } := rfl
@[simp] theorem Device.reserve_clock : d.reserve.clock = d.clock := rfl
@[simp] theorem Device.reserve_fire : d.reserve.fire = d.fire := rfl
@[simp] theorem Device.reserve_storm : d.reserve.storm = d.storm := rfl
@[simp] theorem Device.reserve_reports : d.reserve.reports = d.reports := rfl

/-! ### giveBack -/

@[simp] theorem Device.giveBack_regs : d.giveBack.regs = d.regs := rfl
@[simp] theorem Device.giveBack_resetHeld : d.giveBack.resetHeld = d.resetHeld := rfl
@[simp] theorem Device.giveBack_walker : d.giveBack.walker = d.walker := rfl
@[simp] theorem Device.giveBack_creds : d.giveBack.creds = d.creds := rfl
@[simp] theorem Device.giveBack_rooms : d.giveBack.rooms = d.rooms := rfl
@[simp] theorem Device.giveBack_nodes : d.giveBack.nodes = d.nodes := rfl
@[simp] theorem Device.giveBack_segments : d.giveBack.segments = d.segments := rfl
@[simp] theorem Device.giveBack_tariff : d.giveBack.tariff = d.tariff := rfl
@[simp] theorem Device.giveBack_sessionLimit : d.giveBack.sessionLimit = d.sessionLimit := rfl
@[simp] theorem Device.giveBack_journal : d.giveBack.journal = { d.journal with reserved := d.journal.reserved - 1 } := rfl
@[simp] theorem Device.giveBack_clock : d.giveBack.clock = d.clock := rfl
@[simp] theorem Device.giveBack_fire : d.giveBack.fire = d.fire := rfl
@[simp] theorem Device.giveBack_storm : d.giveBack.storm = d.storm := rfl
@[simp] theorem Device.giveBack_reports : d.giveBack.reports = d.reports := rfl

/-! ### denySerial -/

@[simp] theorem Device.denySerial_regs (serial : Word) : (d.denySerial serial).regs = d.regs := rfl
@[simp] theorem Device.denySerial_resetHeld (serial : Word) : (d.denySerial serial).resetHeld = d.resetHeld := rfl
@[simp] theorem Device.denySerial_walker (serial : Word) : (d.denySerial serial).walker = d.walker := rfl
@[simp] theorem Device.denySerial_creds (serial : Word) : (d.denySerial serial).creds = { d.creds with deny := denyAppend serial d.creds.deny } := rfl
@[simp] theorem Device.denySerial_rooms (serial : Word) : (d.denySerial serial).rooms = d.rooms := rfl
@[simp] theorem Device.denySerial_nodes (serial : Word) : (d.denySerial serial).nodes = d.nodes := rfl
@[simp] theorem Device.denySerial_segments (serial : Word) : (d.denySerial serial).segments = d.segments := rfl
@[simp] theorem Device.denySerial_tariff (serial : Word) : (d.denySerial serial).tariff = d.tariff := rfl
@[simp] theorem Device.denySerial_sessionLimit (serial : Word) : (d.denySerial serial).sessionLimit = d.sessionLimit := rfl
@[simp] theorem Device.denySerial_journal (serial : Word) : (d.denySerial serial).journal = d.journal := rfl
@[simp] theorem Device.denySerial_clock (serial : Word) : (d.denySerial serial).clock = d.clock := rfl
@[simp] theorem Device.denySerial_fire (serial : Word) : (d.denySerial serial).fire = d.fire := rfl
@[simp] theorem Device.denySerial_storm (serial : Word) : (d.denySerial serial).storm = d.storm := rfl
@[simp] theorem Device.denySerial_reports (serial : Word) : (d.denySerial serial).reports = d.reports := rfl

/-! ### putEntry -/

@[simp] theorem Device.putEntry_regs (serial : Word) (e : Entry) : (d.putEntry serial e).regs = d.regs := rfl
@[simp] theorem Device.putEntry_resetHeld (serial : Word) (e : Entry) : (d.putEntry serial e).resetHeld = d.resetHeld := rfl
@[simp] theorem Device.putEntry_walker (serial : Word) (e : Entry) : (d.putEntry serial e).walker = d.walker := rfl
@[simp] theorem Device.putEntry_creds (serial : Word) (e : Entry) : (d.putEntry serial e).creds = { d.creds with entries := Table.put serial.toNat e d.creds.entries } := rfl
@[simp] theorem Device.putEntry_rooms (serial : Word) (e : Entry) : (d.putEntry serial e).rooms = d.rooms := rfl
@[simp] theorem Device.putEntry_nodes (serial : Word) (e : Entry) : (d.putEntry serial e).nodes = d.nodes := rfl
@[simp] theorem Device.putEntry_segments (serial : Word) (e : Entry) : (d.putEntry serial e).segments = d.segments := rfl
@[simp] theorem Device.putEntry_tariff (serial : Word) (e : Entry) : (d.putEntry serial e).tariff = d.tariff := rfl
@[simp] theorem Device.putEntry_sessionLimit (serial : Word) (e : Entry) : (d.putEntry serial e).sessionLimit = d.sessionLimit := rfl
@[simp] theorem Device.putEntry_journal (serial : Word) (e : Entry) : (d.putEntry serial e).journal = d.journal := rfl
@[simp] theorem Device.putEntry_clock (serial : Word) (e : Entry) : (d.putEntry serial e).clock = d.clock := rfl
@[simp] theorem Device.putEntry_fire (serial : Word) (e : Entry) : (d.putEntry serial e).fire = d.fire := rfl
@[simp] theorem Device.putEntry_storm (serial : Word) (e : Entry) : (d.putEntry serial e).storm = d.storm := rfl
@[simp] theorem Device.putEntry_reports (serial : Word) (e : Entry) : (d.putEntry serial e).reports = d.reports := rfl

/-! ### handSettlement -/

@[simp] theorem Device.handSettlement_regs (x : Settlement) : (d.handSettlement x).regs = d.regs := rfl
@[simp] theorem Device.handSettlement_resetHeld (x : Settlement) : (d.handSettlement x).resetHeld = d.resetHeld := rfl
@[simp] theorem Device.handSettlement_walker (x : Settlement) : (d.handSettlement x).walker = { d.walker with settlements := d.walker.settlements ++ [x] } := rfl
@[simp] theorem Device.handSettlement_creds (x : Settlement) : (d.handSettlement x).creds = d.creds := rfl
@[simp] theorem Device.handSettlement_rooms (x : Settlement) : (d.handSettlement x).rooms = d.rooms := rfl
@[simp] theorem Device.handSettlement_nodes (x : Settlement) : (d.handSettlement x).nodes = d.nodes := rfl
@[simp] theorem Device.handSettlement_segments (x : Settlement) : (d.handSettlement x).segments = d.segments := rfl
@[simp] theorem Device.handSettlement_tariff (x : Settlement) : (d.handSettlement x).tariff = d.tariff := rfl
@[simp] theorem Device.handSettlement_sessionLimit (x : Settlement) : (d.handSettlement x).sessionLimit = d.sessionLimit := rfl
@[simp] theorem Device.handSettlement_journal (x : Settlement) : (d.handSettlement x).journal = d.journal := rfl
@[simp] theorem Device.handSettlement_clock (x : Settlement) : (d.handSettlement x).clock = d.clock := rfl
@[simp] theorem Device.handSettlement_fire (x : Settlement) : (d.handSettlement x).fire = d.fire := rfl
@[simp] theorem Device.handSettlement_storm (x : Settlement) : (d.handSettlement x).storm = d.storm := rfl
@[simp] theorem Device.handSettlement_reports (x : Settlement) : (d.handSettlement x).reports = d.reports := rfl

/-! ### endWalk -/

@[simp] theorem Device.endWalk_regs (block : Word) (cause : WalkEnd) : (d.endWalk block cause).regs = d.regs := rfl
@[simp] theorem Device.endWalk_resetHeld (block : Word) (cause : WalkEnd) : (d.endWalk block cause).resetHeld = d.resetHeld := rfl
@[simp] theorem Device.endWalk_walker (block : Word) (cause : WalkEnd) : (d.endWalk block cause).walker = { d.walker with walk := .idle, lastBlock := block, lastEnd := cause } := rfl
@[simp] theorem Device.endWalk_creds (block : Word) (cause : WalkEnd) : (d.endWalk block cause).creds = d.creds := rfl
@[simp] theorem Device.endWalk_rooms (block : Word) (cause : WalkEnd) : (d.endWalk block cause).rooms = d.rooms := rfl
@[simp] theorem Device.endWalk_nodes (block : Word) (cause : WalkEnd) : (d.endWalk block cause).nodes = d.nodes := rfl
@[simp] theorem Device.endWalk_segments (block : Word) (cause : WalkEnd) : (d.endWalk block cause).segments = d.segments := rfl
@[simp] theorem Device.endWalk_tariff (block : Word) (cause : WalkEnd) : (d.endWalk block cause).tariff = d.tariff := rfl
@[simp] theorem Device.endWalk_sessionLimit (block : Word) (cause : WalkEnd) : (d.endWalk block cause).sessionLimit = d.sessionLimit := rfl
@[simp] theorem Device.endWalk_journal (block : Word) (cause : WalkEnd) : (d.endWalk block cause).journal = d.journal := rfl
@[simp] theorem Device.endWalk_clock (block : Word) (cause : WalkEnd) : (d.endWalk block cause).clock = d.clock := rfl
@[simp] theorem Device.endWalk_fire (block : Word) (cause : WalkEnd) : (d.endWalk block cause).fire = d.fire := rfl
@[simp] theorem Device.endWalk_storm (block : Word) (cause : WalkEnd) : (d.endWalk block cause).storm = d.storm := rfl
@[simp] theorem Device.endWalk_reports (block : Word) (cause : WalkEnd) : (d.endWalk block cause).reports = d.reports := rfl

/-! ### setPhase -/

@[simp] theorem Device.setPhase_regs (block : Word) (abort : Bool) (phase : WalkPhase) : (d.setPhase block abort phase).regs = d.regs := rfl
@[simp] theorem Device.setPhase_resetHeld (block : Word) (abort : Bool) (phase : WalkPhase) : (d.setPhase block abort phase).resetHeld = d.resetHeld := rfl
@[simp] theorem Device.setPhase_walker (block : Word) (abort : Bool) (phase : WalkPhase) : (d.setPhase block abort phase).walker = { d.walker with walk := .walking block abort phase } := rfl
@[simp] theorem Device.setPhase_creds (block : Word) (abort : Bool) (phase : WalkPhase) : (d.setPhase block abort phase).creds = d.creds := rfl
@[simp] theorem Device.setPhase_rooms (block : Word) (abort : Bool) (phase : WalkPhase) : (d.setPhase block abort phase).rooms = d.rooms := rfl
@[simp] theorem Device.setPhase_nodes (block : Word) (abort : Bool) (phase : WalkPhase) : (d.setPhase block abort phase).nodes = d.nodes := rfl
@[simp] theorem Device.setPhase_segments (block : Word) (abort : Bool) (phase : WalkPhase) : (d.setPhase block abort phase).segments = d.segments := rfl
@[simp] theorem Device.setPhase_tariff (block : Word) (abort : Bool) (phase : WalkPhase) : (d.setPhase block abort phase).tariff = d.tariff := rfl
@[simp] theorem Device.setPhase_sessionLimit (block : Word) (abort : Bool) (phase : WalkPhase) : (d.setPhase block abort phase).sessionLimit = d.sessionLimit := rfl
@[simp] theorem Device.setPhase_journal (block : Word) (abort : Bool) (phase : WalkPhase) : (d.setPhase block abort phase).journal = d.journal := rfl
@[simp] theorem Device.setPhase_clock (block : Word) (abort : Bool) (phase : WalkPhase) : (d.setPhase block abort phase).clock = d.clock := rfl
@[simp] theorem Device.setPhase_fire (block : Word) (abort : Bool) (phase : WalkPhase) : (d.setPhase block abort phase).fire = d.fire := rfl
@[simp] theorem Device.setPhase_storm (block : Word) (abort : Bool) (phase : WalkPhase) : (d.setPhase block abort phase).storm = d.storm := rfl
@[simp] theorem Device.setPhase_reports (block : Word) (abort : Bool) (phase : WalkPhase) : (d.setPhase block abort phase).reports = d.reports := rfl

/-! ### writeMask -/

@[simp] theorem Device.writeMask_regs (value : Word) : (d.writeMask value).regs = { d.regs with alertMask := value &&& statusBits } := rfl
@[simp] theorem Device.writeMask_resetHeld (value : Word) : (d.writeMask value).resetHeld = d.resetHeld := rfl
@[simp] theorem Device.writeMask_walker (value : Word) : (d.writeMask value).walker = d.walker := rfl
@[simp] theorem Device.writeMask_creds (value : Word) : (d.writeMask value).creds = d.creds := rfl
@[simp] theorem Device.writeMask_rooms (value : Word) : (d.writeMask value).rooms = d.rooms := rfl
@[simp] theorem Device.writeMask_nodes (value : Word) : (d.writeMask value).nodes = d.nodes := rfl
@[simp] theorem Device.writeMask_segments (value : Word) : (d.writeMask value).segments = d.segments := rfl
@[simp] theorem Device.writeMask_tariff (value : Word) : (d.writeMask value).tariff = d.tariff := rfl
@[simp] theorem Device.writeMask_sessionLimit (value : Word) : (d.writeMask value).sessionLimit = d.sessionLimit := rfl
@[simp] theorem Device.writeMask_journal (value : Word) : (d.writeMask value).journal = d.journal := rfl
@[simp] theorem Device.writeMask_clock (value : Word) : (d.writeMask value).clock = d.clock := rfl
@[simp] theorem Device.writeMask_fire (value : Word) : (d.writeMask value).fire = d.fire := rfl
@[simp] theorem Device.writeMask_storm (value : Word) : (d.writeMask value).storm = d.storm := rfl
@[simp] theorem Device.writeMask_reports (value : Word) : (d.writeMask value).reports = d.reports := rfl

/-! ### writeAlertEnable -/

@[simp] theorem Device.writeAlertEnable_regs (enable : Bool) : (d.writeAlertEnable enable).regs = { d.regs with alertEnable := enable } := rfl
@[simp] theorem Device.writeAlertEnable_resetHeld (enable : Bool) : (d.writeAlertEnable enable).resetHeld = d.resetHeld := rfl
@[simp] theorem Device.writeAlertEnable_walker (enable : Bool) : (d.writeAlertEnable enable).walker = d.walker := rfl
@[simp] theorem Device.writeAlertEnable_creds (enable : Bool) : (d.writeAlertEnable enable).creds = d.creds := rfl
@[simp] theorem Device.writeAlertEnable_rooms (enable : Bool) : (d.writeAlertEnable enable).rooms = d.rooms := rfl
@[simp] theorem Device.writeAlertEnable_nodes (enable : Bool) : (d.writeAlertEnable enable).nodes = d.nodes := rfl
@[simp] theorem Device.writeAlertEnable_segments (enable : Bool) : (d.writeAlertEnable enable).segments = d.segments := rfl
@[simp] theorem Device.writeAlertEnable_tariff (enable : Bool) : (d.writeAlertEnable enable).tariff = d.tariff := rfl
@[simp] theorem Device.writeAlertEnable_sessionLimit (enable : Bool) : (d.writeAlertEnable enable).sessionLimit = d.sessionLimit := rfl
@[simp] theorem Device.writeAlertEnable_journal (enable : Bool) : (d.writeAlertEnable enable).journal = d.journal := rfl
@[simp] theorem Device.writeAlertEnable_clock (enable : Bool) : (d.writeAlertEnable enable).clock = d.clock := rfl
@[simp] theorem Device.writeAlertEnable_fire (enable : Bool) : (d.writeAlertEnable enable).fire = d.fire := rfl
@[simp] theorem Device.writeAlertEnable_storm (enable : Bool) : (d.writeAlertEnable enable).storm = d.storm := rfl
@[simp] theorem Device.writeAlertEnable_reports (enable : Bool) : (d.writeAlertEnable enable).reports = d.reports := rfl

/-! ### clearStatus -/

@[simp] theorem Device.clearStatus_regs (value : Word) : (d.clearStatus value).regs = { d.regs with status := d.regs.status &&& ~~~(value &&& latchedBits) } := rfl
@[simp] theorem Device.clearStatus_resetHeld (value : Word) : (d.clearStatus value).resetHeld = d.resetHeld := rfl
@[simp] theorem Device.clearStatus_walker (value : Word) : (d.clearStatus value).walker = d.walker := rfl
@[simp] theorem Device.clearStatus_creds (value : Word) : (d.clearStatus value).creds = d.creds := rfl
@[simp] theorem Device.clearStatus_rooms (value : Word) : (d.clearStatus value).rooms = d.rooms := rfl
@[simp] theorem Device.clearStatus_nodes (value : Word) : (d.clearStatus value).nodes = d.nodes := rfl
@[simp] theorem Device.clearStatus_segments (value : Word) : (d.clearStatus value).segments = d.segments := rfl
@[simp] theorem Device.clearStatus_tariff (value : Word) : (d.clearStatus value).tariff = d.tariff := rfl
@[simp] theorem Device.clearStatus_sessionLimit (value : Word) : (d.clearStatus value).sessionLimit = d.sessionLimit := rfl
@[simp] theorem Device.clearStatus_journal (value : Word) : (d.clearStatus value).journal = d.journal := rfl
@[simp] theorem Device.clearStatus_clock (value : Word) : (d.clearStatus value).clock = d.clock := rfl
@[simp] theorem Device.clearStatus_fire (value : Word) : (d.clearStatus value).fire = d.fire := rfl
@[simp] theorem Device.clearStatus_storm (value : Word) : (d.clearStatus value).storm = d.storm := rfl
@[simp] theorem Device.clearStatus_reports (value : Word) : (d.clearStatus value).reports = d.reports := rfl

/-! ### clearLinks -/

@[simp] theorem Device.clearLinks_regs (key : Nat) : (d.clearLinks key).regs = d.regs := rfl
@[simp] theorem Device.clearLinks_resetHeld (key : Nat) : (d.clearLinks key).resetHeld = d.resetHeld := rfl
@[simp] theorem Device.clearLinks_walker (key : Nat) : (d.clearLinks key).walker = d.walker := rfl
@[simp] theorem Device.clearLinks_creds (key : Nat) : (d.clearLinks key).creds = d.creds := rfl
@[simp] theorem Device.clearLinks_rooms (key : Nat) : (d.clearLinks key).rooms = Table.mapVals (fun _ r => r.withoutNode key) d.rooms := rfl
@[simp] theorem Device.clearLinks_nodes (key : Nat) : (d.clearLinks key).nodes = d.nodes := rfl
@[simp] theorem Device.clearLinks_segments (key : Nat) : (d.clearLinks key).segments = d.segments := rfl
@[simp] theorem Device.clearLinks_tariff (key : Nat) : (d.clearLinks key).tariff = d.tariff := rfl
@[simp] theorem Device.clearLinks_sessionLimit (key : Nat) : (d.clearLinks key).sessionLimit = d.sessionLimit := rfl
@[simp] theorem Device.clearLinks_journal (key : Nat) : (d.clearLinks key).journal = d.journal := rfl
@[simp] theorem Device.clearLinks_clock (key : Nat) : (d.clearLinks key).clock = d.clock := rfl
@[simp] theorem Device.clearLinks_fire (key : Nat) : (d.clearLinks key).fire = d.fire := rfl
@[simp] theorem Device.clearLinks_storm (key : Nat) : (d.clearLinks key).storm = d.storm := rfl
@[simp] theorem Device.clearLinks_reports (key : Nat) : (d.clearLinks key).reports = d.reports := rfl

/-! ### clearLinkOf -/

@[simp] theorem Device.clearLinkOf_regs (room key : Nat) : (d.clearLinkOf room key).regs = d.regs := rfl
@[simp] theorem Device.clearLinkOf_resetHeld (room key : Nat) : (d.clearLinkOf room key).resetHeld = d.resetHeld := rfl
@[simp] theorem Device.clearLinkOf_walker (room key : Nat) : (d.clearLinkOf room key).walker = d.walker := rfl
@[simp] theorem Device.clearLinkOf_creds (room key : Nat) : (d.clearLinkOf room key).creds = d.creds := rfl
@[simp] theorem Device.clearLinkOf_rooms (room key : Nat) : (d.clearLinkOf room key).rooms = Table.modify room (fun r => r.withoutNode key) d.rooms := rfl
@[simp] theorem Device.clearLinkOf_nodes (room key : Nat) : (d.clearLinkOf room key).nodes = d.nodes := rfl
@[simp] theorem Device.clearLinkOf_segments (room key : Nat) : (d.clearLinkOf room key).segments = d.segments := rfl
@[simp] theorem Device.clearLinkOf_tariff (room key : Nat) : (d.clearLinkOf room key).tariff = d.tariff := rfl
@[simp] theorem Device.clearLinkOf_sessionLimit (room key : Nat) : (d.clearLinkOf room key).sessionLimit = d.sessionLimit := rfl
@[simp] theorem Device.clearLinkOf_journal (room key : Nat) : (d.clearLinkOf room key).journal = d.journal := rfl
@[simp] theorem Device.clearLinkOf_clock (room key : Nat) : (d.clearLinkOf room key).clock = d.clock := rfl
@[simp] theorem Device.clearLinkOf_fire (room key : Nat) : (d.clearLinkOf room key).fire = d.fire := rfl
@[simp] theorem Device.clearLinkOf_storm (room key : Nat) : (d.clearLinkOf room key).storm = d.storm := rfl
@[simp] theorem Device.clearLinkOf_reports (room key : Nat) : (d.clearLinkOf room key).reports = d.reports := rfl

/-! ### recordStay -/

@[simp] theorem Device.recordStay_regs (room : Nat) (event : StayEvent) : (d.recordStay room event).regs = d.regs := rfl
@[simp] theorem Device.recordStay_resetHeld (room : Nat) (event : StayEvent) : (d.recordStay room event).resetHeld = d.resetHeld := rfl
@[simp] theorem Device.recordStay_walker (room : Nat) (event : StayEvent) : (d.recordStay room event).walker = d.walker := rfl
@[simp] theorem Device.recordStay_creds (room : Nat) (event : StayEvent) : (d.recordStay room event).creds = d.creds := rfl
@[simp] theorem Device.recordStay_rooms (room : Nat) (event : StayEvent) : (d.recordStay room event).rooms = d.rooms := rfl
@[simp] theorem Device.recordStay_nodes (room : Nat) (event : StayEvent) : (d.recordStay room event).nodes = d.nodes := rfl
@[simp] theorem Device.recordStay_segments (room : Nat) (event : StayEvent) : (d.recordStay room event).segments = d.segments := rfl
@[simp] theorem Device.recordStay_tariff (room : Nat) (event : StayEvent) : (d.recordStay room event).tariff = d.tariff := rfl
@[simp] theorem Device.recordStay_sessionLimit (room : Nat) (event : StayEvent) : (d.recordStay room event).sessionLimit = d.sessionLimit := rfl
@[simp] theorem Device.recordStay_journal (room : Nat) (event : StayEvent) : (d.recordStay room event).journal = (d.record (.stay room event 0 0) {} .notable).journal := rfl
@[simp] theorem Device.recordStay_clock (room : Nat) (event : StayEvent) : (d.recordStay room event).clock = d.clock := rfl
@[simp] theorem Device.recordStay_fire (room : Nat) (event : StayEvent) : (d.recordStay room event).fire = d.fire := rfl
@[simp] theorem Device.recordStay_storm (room : Nat) (event : StayEvent) : (d.recordStay room event).storm = d.storm := rfl
@[simp] theorem Device.recordStay_reports (room : Nat) (event : StayEvent) : (d.recordStay room event).reports = d.reports := rfl

/-! ### rereadMark -/

@[simp] theorem Device.rereadMark_regs (value : Word) : (d.rereadMark value).regs = d.regs := rfl
@[simp] theorem Device.rereadMark_resetHeld (value : Word) : (d.rereadMark value).resetHeld = d.resetHeld := rfl
@[simp] theorem Device.rereadMark_walker (value : Word) : (d.rereadMark value).walker = d.walker := rfl
@[simp] theorem Device.rereadMark_creds (value : Word) : (d.rereadMark value).creds = d.creds := rfl
@[simp] theorem Device.rereadMark_rooms (value : Word) : (d.rereadMark value).rooms = d.rooms := rfl
@[simp] theorem Device.rereadMark_nodes (value : Word) : (d.rereadMark value).nodes = d.nodes := rfl
@[simp] theorem Device.rereadMark_segments (value : Word) : (d.rereadMark value).segments = d.segments := rfl
@[simp] theorem Device.rereadMark_tariff (value : Word) : (d.rereadMark value).tariff = d.tariff := rfl
@[simp] theorem Device.rereadMark_sessionLimit (value : Word) : (d.rereadMark value).sessionLimit = d.sessionLimit := rfl
@[simp] theorem Device.rereadMark_journal (value : Word) : (d.rereadMark value).journal = d.journal.rereadDone value.toNat := rfl
@[simp] theorem Device.rereadMark_clock (value : Word) : (d.rereadMark value).clock = d.clock := rfl
@[simp] theorem Device.rereadMark_fire (value : Word) : (d.rereadMark value).fire = d.fire := rfl
@[simp] theorem Device.rereadMark_storm (value : Word) : (d.rereadMark value).storm = d.storm := rfl
@[simp] theorem Device.rereadMark_reports (value : Word) : (d.rereadMark value).reports = d.reports := rfl

/-! ### The machine -/

@[simp] theorem State.onDevice_pending (s : State) (f : Device → Device) : (s.onDevice f).pending = s.pending := rfl
@[simp] theorem State.onDevice_dev (s : State) (f : Device → Device) : (s.onDevice f).dev = f s.dev := rfl
@[simp] theorem State.onDevice_mem (s : State) (f : Device → Device) : (s.onDevice f).mem = s.mem := rfl
@[simp] theorem State.memoryFault_pending (s : State) : s.memoryFault.pending = s.pending := rfl
@[simp] theorem State.memoryFault_dev (s : State) : s.memoryFault.dev = s.dev.latch .memoryFault := rfl
@[simp] theorem State.memoryFault_mem (s : State) : s.memoryFault.mem = s.mem := rfl
@[simp] theorem State.publish_pending (s : State) : s.publish.pending = s.pending := rfl
@[simp] theorem State.publish_dev (s : State) :
    s.publish.dev = { s.dev with walker := { s.dev.walker with page := s.dev.pageWrites } } := rfl
@[simp] theorem State.publish_mem (s : State) : s.publish.mem = Memory.accept s.mem s.dev.walker.page := rfl
@[simp] theorem State.publishMarks_pending (s : State) : s.publishMarks.pending = s.pending := rfl
@[simp] theorem State.publishMarks_dev (s : State) :
    s.publishMarks.dev = { s.dev with walker := { s.dev.walker with page := s.dev.markWrites } } := rfl
@[simp] theorem State.publishMarks_mem (s : State) : s.publishMarks.mem = Memory.accept s.mem s.dev.walker.page := rfl
@[simp] theorem State.endWalk_pending (s : State) (block : Word) (cause : WalkEnd) : (s.endWalk block cause).pending = s.pending := rfl
@[simp] theorem State.endWalk_mem (s : State) (block : Word) (cause : WalkEnd) :
    (s.endWalk block cause).mem = Memory.accept s.mem s.dev.walker.page := rfl
@[simp] theorem State.chainFault_pending (s : State) (block : Word) (cause : WalkEnd) :
    (s.chainFault block cause).pending = s.pending := rfl
@[simp] theorem State.chainFault_mem (s : State) (block : Word) (cause : WalkEnd) :
    (s.chainFault block cause).mem = Memory.accept s.mem s.dev.walker.page := rfl
@[simp] theorem State.powerOn_pending (s : State) (fire storm : Level) : (s.powerOn fire storm).pending = s.pending := rfl
@[simp] theorem State.powerOn_dev (s : State) (fire storm : Level) : (s.powerOn fire storm).dev = Device.initial fire storm := rfl
@[simp] theorem State.powerOn_mem (s : State) (fire storm : Level) : (s.powerOn fire storm).mem = [] := rfl
@[simp] theorem State.acceptUpTo_pending (s : State) (p : PortProgress) : (s.acceptUpTo p).pending = s.pending := rfl
@[simp] theorem State.acceptUpTo_dev (s : State) (p : PortProgress) : (s.acceptUpTo p).dev = s.dev := rfl

end Sys2Proof.Machine
end

