-- ==== Sys2Proof/Laws/Journal.lean ====
section
/-! SUPPORT. The Journal Writer: what the drain leaves alone, what admission can do, and that each of its operations keeps its counts in
their ranges. -/

namespace Sys2Proof.Machine

/-! ## The drain changes the drain state and the re-read alone -/

@[simp] theorem Journal.attempt_frame (j : Journal) :
    j.attempt.region = j.region ∧ j.attempt.lastRegion = j.lastRegion ∧ j.attempt.writeMark = j.writeMark
      ∧ j.attempt.readMark = j.readMark ∧ j.attempt.threshold = j.threshold ∧ j.attempt.queue = j.queue
      ∧ j.attempt.reserved = j.reserved ∧ j.attempt.suppressed = j.suppressed ∧ j.attempt.nextSeq = j.nextSeq := by
  unfold Journal.attempt
  (repeat' split) <;> simp_all

@[simp] theorem Journal.compareAgain_frame (j : Journal) :
    j.compareAgain.region = j.region ∧ j.compareAgain.lastRegion = j.lastRegion ∧ j.compareAgain.writeMark = j.writeMark
      ∧ j.compareAgain.readMark = j.readMark ∧ j.compareAgain.threshold = j.threshold ∧ j.compareAgain.queue = j.queue
      ∧ j.compareAgain.reserved = j.reserved ∧ j.compareAgain.suppressed = j.suppressed
      ∧ j.compareAgain.nextSeq = j.nextSeq ∧ j.compareAgain.reread = j.reread := by
  unfold Journal.compareAgain
  (repeat' split) <;> simp_all

@[simp] theorem Journal.wake_frame (j : Journal) :
    j.wake.region = j.region ∧ j.wake.lastRegion = j.lastRegion ∧ j.wake.writeMark = j.writeMark
      ∧ j.wake.readMark = j.readMark ∧ j.wake.threshold = j.threshold ∧ j.wake.queue = j.queue
      ∧ j.wake.reserved = j.reserved ∧ j.wake.suppressed = j.suppressed ∧ j.wake.nextSeq = j.nextSeq := by
  unfold Journal.wake
  split <;> simp

@[simp] theorem Journal.wakeOnMark_frame (j : Journal) :
    j.wakeOnMark.region = j.region ∧ j.wakeOnMark.lastRegion = j.lastRegion ∧ j.wakeOnMark.writeMark = j.writeMark
      ∧ j.wakeOnMark.readMark = j.readMark ∧ j.wakeOnMark.threshold = j.threshold ∧ j.wakeOnMark.queue = j.queue
      ∧ j.wakeOnMark.reserved = j.reserved ∧ j.wakeOnMark.suppressed = j.suppressed ∧ j.wakeOnMark.nextSeq = j.nextSeq := by
  unfold Journal.wakeOnMark
  split <;> simp

/-- What entering the queue leaves: the record at the tail with the suppressed count as its gap, and the count 0 (R128, R131). -/
@[simp] theorem Journal.enter_frame (j : Journal) (r : HeldRecord) :
    (j.enter r).region = j.region ∧ (j.enter r).lastRegion = j.lastRegion ∧ (j.enter r).writeMark = j.writeMark
      ∧ (j.enter r).readMark = j.readMark ∧ (j.enter r).threshold = j.threshold
      ∧ (j.enter r).queue = j.queue ++ [{ r with gap := j.suppressed }] ∧ (j.enter r).reserved = j.reserved
      ∧ (j.enter r).suppressed = 0 ∧ (j.enter r).nextSeq = j.nextSeq := by
  simp [Journal.enter]

/-! ## Merging and displacing -/

/-- A merge keeps the number of records. -/
theorem mergeNewest_length {placing : Bool} {new : HeldRecord} {q q' : List HeldRecord} (h : mergeNewest placing new q = some q') :
    q'.length = q.length := by
  induction q generalizing placing q' with
  | nil => simp [mergeNewest] at h
  | cons a rest ih =>
    cases rest with
    | nil =>
      unfold mergeNewest at h
      split_ifs at h with hm
      cases h; rfl
    | cons b tail =>
      unfold mergeNewest at h
      split at h
      · cases h
      · next h' => cases h; simp [ih h']

/-- Only a ROUTINE record merges. -/
theorem mergeNewest_routine {placing : Bool} {new : HeldRecord} {q q' : List HeldRecord} (h : mergeNewest placing new q = some q') :
    new.cls = .routine := by
  induction q generalizing placing q' with
  | nil => simp [mergeNewest] at h
  | cons a rest ih =>
    cases rest with
    | nil =>
      unfold mergeNewest at h
      split_ifs at h with hm
      simp only [Bool.and_eq_true, decide_eq_true_eq] at hm
      exact hm.1.2
    | cons b tail =>
      unfold mergeNewest at h
      split at h
      · cases h
      · next h' => exact ih h'

theorem mergesInto_repeat {held new : RecordBody} (h : mergesInto held new = true) :
    held.repeated.repeatCount ≤ Config.repeatCap := by
  unfold mergesInto at h
  split at h
  · simp only [Bool.and_eq_true, decide_eq_true_eq] at h
    simp only [RecordBody.repeated, RecordBody.repeatCount]
    exact h.2
  · cases h

/-- A merge keeps every gap, and keeps the repeat counts at most 255. -/
theorem mergeNewest_bounds {placing : Bool} {new : HeldRecord} {q q' : List HeldRecord} (h : mergeNewest placing new q = some q')
    (hq : ∀ x ∈ q, x.gap ≤ Config.suppressedCap ∧ x.body.repeatCount ≤ Config.repeatCap) :
    ∀ x ∈ q', x.gap ≤ Config.suppressedCap ∧ x.body.repeatCount ≤ Config.repeatCap := by
  induction q generalizing placing q' with
  | nil => simp [mergeNewest] at h
  | cons a rest ih =>
    cases rest with
    | nil =>
      unfold mergeNewest at h
      split_ifs at h with hm
      cases h
      simp only [Bool.and_eq_true] at hm
      simpa using ⟨(hq a (by simp)).1, mergesInto_repeat hm.2⟩
    | cons b tail =>
      unfold mergeNewest at h
      split at h
      · cases h
      · next h' =>
        cases h
        intro x hx
        rcases List.mem_cons.mp hx with hx | hx
        · exact hx ▸ hq a (by simp)
        · exact ih h' (fun y hy => hq y (List.mem_cons_of_mem _ hy)) x hx

/-- The record displaced is one of the queue, and one place is free after it. -/
theorem takeRoutine_length {placing : Bool} {q rest : List HeldRecord} {old : HeldRecord}
    (h : takeRoutine placing q = some (old, rest)) : rest.length + 1 = q.length ∧ old ∈ q ∧ ∀ x ∈ rest, x ∈ q := by
  induction q generalizing placing old rest with
  | nil => simp [takeRoutine] at h
  | cons a tail ih =>
    unfold takeRoutine at h
    split_ifs at h with hc
    · cases h
      exact ⟨by simp, by simp, fun x hx => List.mem_cons_of_mem _ hx⟩
    · split at h
      · cases h
      · next h' =>
        cases h
        obtain ⟨h1, h2, h3⟩ := ih h'
        refine ⟨by simp [h1], List.mem_cons_of_mem _ h2, fun x hx => ?_⟩
        rcases List.mem_cons.mp hx with hx | hx
        · simp [hx]
        · exact List.mem_cons_of_mem _ (h3 x hx)

/-- Only a ROUTINE record is displaced (R130). -/
theorem takeRoutine_routine {placing : Bool} {q rest : List HeldRecord} {old : HeldRecord}
    (h : takeRoutine placing q = some (old, rest)) : old.cls = .routine := by
  induction q generalizing placing old rest with
  | nil => simp [takeRoutine] at h
  | cons a tail ih =>
    unfold takeRoutine at h
    split_ifs at h with hc
    · cases h
      simp only [Bool.and_eq_true, decide_eq_true_eq] at hc
      exact hc.2
    · split at h
      · cases h
      · next h' => cases h; exact ih h'

theorem raiseSuppressed_le (count by_ : Nat) : raiseSuppressed count by_ ≤ Config.suppressedCap :=
  Nat.min_le_left _ _

/-! ## Admission -/

/-- All that admitting a record can do (R128 to R131): it merges into the newest record; it enters on its reservation; it enters on a
free place; a NOTABLE record displaces a ROUTINE one; or it is suppressed and counted. -/
theorem Journal.admit_cases (j : Journal) (r : HeldRecord) :
    (∃ q, mergeNewest j.isPlacing r j.queue = some q ∧ j.admitRecord r = { j with queue := q })
    ∨ (mergeNewest j.isPlacing r j.queue = none ∧ r.cls = .reserved ∧ 0 < j.reserved
        ∧ j.admitRecord r = Journal.enter { j with reserved := j.reserved - 1 } r)
    ∨ (mergeNewest j.isPlacing r j.queue = none ∧ ¬ (r.cls = .reserved ∧ 0 < j.reserved) ∧ j.load < Config.holdCapacity
        ∧ j.admitRecord r = j.enter r)
    ∨ (∃ old rest, mergeNewest j.isPlacing r j.queue = none ∧ ¬ (r.cls = .reserved ∧ 0 < j.reserved)
        ∧ Config.holdCapacity ≤ j.load ∧ r.cls ≠ .routine ∧ takeRoutine j.isPlacing j.queue = some (old, rest)
        ∧ j.admitRecord r
          = Journal.enter { j with queue := rest, suppressed := raiseSuppressed j.suppressed (1 + old.gap) } r)
    ∨ (mergeNewest j.isPlacing r j.queue = none ∧ ¬ (r.cls = .reserved ∧ 0 < j.reserved) ∧ Config.holdCapacity ≤ j.load
        ∧ (r.cls = .routine ∨ takeRoutine j.isPlacing j.queue = none)
        ∧ j.admitRecord r = { j with suppressed := raiseSuppressed j.suppressed 1 }) := by
  unfold Journal.admitRecord
  split
  · next q hq => exact .inl ⟨q, hq, rfl⟩
  · next hn =>
    refine .inr ?_
    by_cases hr : r.cls = .reserved ∧ 0 < j.reserved
    · exact .inl ⟨hn, hr.1, hr.2, by simp [hr.1, hr.2]⟩
    · refine .inr ?_
      have hc : (decide (r.cls = .reserved) && decide (0 < j.reserved)) = false := by
        simpa using hr
      rw [hc]
      simp only [Bool.false_eq_true, if_false]
      unfold Journal.admitPlain
      by_cases hl : j.load < Config.holdCapacity
      · exact .inl ⟨hn, hr, hl, by rw [if_pos hl]⟩
      · have hl' : Config.holdCapacity ≤ j.load := Nat.le_of_not_lt hl
        refine .inr ?_
        rw [if_neg hl]
        split
        · next hcls => exact .inr ⟨hn, hr, hl', .inl hcls, rfl⟩
        · next hcls =>
          split
          · next ht => exact .inr ⟨hn, hr, hl', .inr ht, rfl⟩
          · next old rest ht => exact .inl ⟨old, rest, hn, hr, hl', hcls, ht, rfl⟩

/-- Admission leaves the region, the marks, the threshold and the next sequence number alone. -/
@[simp] theorem Journal.admit_frame (j : Journal) (r : HeldRecord) :
    (j.admitRecord r).region = j.region ∧ (j.admitRecord r).lastRegion = j.lastRegion ∧ (j.admitRecord r).writeMark = j.writeMark
      ∧ (j.admitRecord r).readMark = j.readMark ∧ (j.admitRecord r).threshold = j.threshold ∧ (j.admitRecord r).nextSeq = j.nextSeq := by
  rcases j.admit_cases r with ⟨q, _, h⟩ | ⟨_, _, _, h⟩ | ⟨_, _, _, h⟩ | ⟨old, rest, _, _, _, _, _, h⟩ | ⟨_, _, _, _, h⟩ <;>
    rw [h] <;> simp

/-- A record admitted on its reservation uses it; any other leaves the reservations alone (R128, R132). -/
theorem Journal.admit_reserved (j : Journal) (r : HeldRecord) :
    (j.admitRecord r).reserved = if r.cls = .reserved then j.reserved - 1 else j.reserved := by
  rcases j.admit_cases r with ⟨q, hm, h⟩ | ⟨_, hc, _, h⟩ | ⟨_, hn, _, h⟩ | ⟨old, rest, _, hn, _, _, _, h⟩ | ⟨_, hn, _, _, h⟩ <;>
    rw [h] <;> simp only [Journal.enter_frame]
  · simp [mergeNewest_routine hm]
  · simp [hc]
  all_goals
    split_ifs with hc
    · have : ¬ 0 < j.reserved := fun h0 => hn ⟨hc, h0⟩
      omega
    · rfl

/-- Admission keeps the journal's counts in their ranges, for a record whose own repeat count is in range. -/
theorem Journal.bounded_admit {j : Journal} {r : HeldRecord} (hj : j.bounded) (hr : r.body.repeatCount ≤ Config.repeatCap) :
    (j.admitRecord r).bounded := by
  obtain ⟨h1, h2, h3, h4⟩ := hj
  simp only [Journal.load] at h1
  have hent : ∀ k : Journal, k.load + 1 ≤ Config.holdCapacity → k.reserved ≤ Config.reservationsMax →
      k.suppressed ≤ Config.suppressedCap →
      (∀ h ∈ k.queue, h.gap ≤ Config.suppressedCap ∧ h.body.repeatCount ≤ Config.repeatCap) → (k.enter r).bounded := by
    intro k ha hb hc hd
    refine ⟨?_, by simpa using hb, by simp, ?_⟩
    · simp only [Journal.load, Journal.enter_frame, List.length_append, List.length_singleton] at ha ⊢
      omega
    · intro x hx
      simp only [Journal.enter_frame, List.mem_append, List.mem_singleton] at hx
      rcases hx with hx | hx
      · exact hd x hx
      · subst hx; exact ⟨hc, hr⟩
  rcases j.admit_cases r with ⟨q, hm, h⟩ | ⟨_, _, h0, h⟩ | ⟨_, _, hl, h⟩ | ⟨old, rest, _, _, _, _, ht, h⟩ | ⟨_, _, _, _, h⟩ <;> rw [h]
  · refine ⟨?_, h2, h3, mergeNewest_bounds hm h4⟩
    simp only [Journal.load, mergeNewest_length hm]; exact h1
  · exact hent _ (by simp only [Journal.load] at *; omega) (by simp only; omega) h3 h4
  · exact hent _ (by simpa [Journal.load] using hl) h2 h3 h4
  · obtain ⟨t1, _, t3⟩ := takeRoutine_length ht
    exact hent _ (by simp only [Journal.load] at *; omega) h2 (raiseSuppressed_le _ _) (fun x hx => h4 x (t3 x hx))
  · exact ⟨h1, h2, raiseSuppressed_le _ _, h4⟩

/-! ## The other operations keep the counts -/

/-- What leaves the queue and the counts alone keeps them in their ranges. -/
theorem Journal.bounded_of_eq {j k : Journal} (hj : j.bounded) (hq : k.queue = j.queue) (hr : k.reserved ≤ j.reserved)
    (hs : k.suppressed = j.suppressed) : k.bounded := by
  obtain ⟨h1, h2, h3, h4⟩ := hj
  simp only [Journal.load] at h1
  exact ⟨by simp only [Journal.load, hq]; omega, by omega, hs ▸ h3, hq ▸ h4⟩

@[simp] theorem Journal.takeMark_frame (j : Journal) (value : Nat) :
    (j.takeMark value).region = j.region ∧ (j.takeMark value).lastRegion = j.lastRegion
      ∧ (j.takeMark value).writeMark = j.writeMark ∧ (j.takeMark value).threshold = j.threshold
      ∧ (j.takeMark value).queue = j.queue ∧ (j.takeMark value).reserved = j.reserved
      ∧ (j.takeMark value).suppressed = j.suppressed ∧ (j.takeMark value).nextSeq = j.nextSeq := by
  unfold Journal.takeMark
  split
  · simp
  · split <;> simp

@[simp] theorem Journal.rereadDone_frame (j : Journal) (value : Nat) :
    (j.rereadDone value).region = j.region ∧ (j.rereadDone value).lastRegion = j.lastRegion
      ∧ (j.rereadDone value).writeMark = j.writeMark ∧ (j.rereadDone value).threshold = j.threshold
      ∧ (j.rereadDone value).queue = j.queue ∧ (j.rereadDone value).reserved = j.reserved
      ∧ (j.rereadDone value).suppressed = j.suppressed ∧ (j.rereadDone value).nextSeq = j.nextSeq := by
  unfold Journal.rereadDone
  split
  · simp
  · simp
  · split
    · simp
    · dsimp only
      split <;> simp

@[simp] theorem Journal.secondReread_frame (j : Journal) :
    j.secondReread.region = j.region ∧ j.secondReread.lastRegion = j.lastRegion ∧ j.secondReread.writeMark = j.writeMark
      ∧ j.secondReread.readMark = j.readMark ∧ j.secondReread.threshold = j.threshold ∧ j.secondReread.queue = j.queue
      ∧ j.secondReread.reserved = j.reserved ∧ j.secondReread.suppressed = j.suppressed
      ∧ j.secondReread.nextSeq = j.nextSeq ∧ j.secondReread.drain = j.drain := by
  unfold Journal.secondReread
  split <;> simp

@[simp] theorem Journal.establish_frame (j : Journal) (r : Region) (threshold : Nat) :
    (j.establish r threshold).region = some r ∧ (j.establish r threshold).threshold = threshold
      ∧ (j.establish r threshold).queue = j.queue ∧ (j.establish r threshold).reserved = j.reserved
      ∧ (j.establish r threshold).suppressed = j.suppressed ∧ (j.establish r threshold).nextSeq = j.nextSeq := by
  unfold Journal.establish
  dsimp only
  (repeat' split) <;> simp

@[simp] theorem Journal.boardReset_frame (j : Journal) :
    j.boardReset.region = none ∧ j.boardReset.lastRegion = j.lastRegion ∧ j.boardReset.writeMark = j.writeMark
      ∧ j.boardReset.readMark = j.readMark ∧ j.boardReset.threshold = j.threshold ∧ j.boardReset.queue = j.queue
      ∧ j.boardReset.reserved = 0 ∧ j.boardReset.suppressed = j.suppressed ∧ j.boardReset.nextSeq = j.nextSeq := by
  simp [Journal.boardReset]

@[simp] theorem Journal.softReset_frame (j : Journal) :
    j.softReset.region = j.region ∧ j.softReset.lastRegion = j.lastRegion ∧ j.softReset.writeMark = j.writeMark
      ∧ j.softReset.readMark = j.readMark ∧ j.softReset.threshold = j.threshold ∧ j.softReset.queue = j.queue
      ∧ j.softReset.reserved = 0 ∧ j.softReset.suppressed = j.suppressed ∧ j.softReset.nextSeq = j.nextSeq := by
  simp [Journal.softReset]

/-- A completed placement keeps the counts in their ranges: the head leaves the queue (R119). -/
theorem Journal.bounded_complete {j : Journal} (hj : j.bounded) : j.complete.bounded := by
  unfold Journal.complete
  split
  · next r h rest hr hq =>
    obtain ⟨h1, h2, h3, h4⟩ := hj
    simp only [Journal.load, hq, List.length_cons] at h1
    refine ⟨?_, by simpa using h2, by simpa using h3, ?_⟩
    · simp only [Journal.load, Journal.attempt_frame]; omega
    · intro x hx
      simp only [Journal.attempt_frame] at hx
      exact h4 x (by rw [hq]; exact List.mem_cons_of_mem _ hx)
  · exact hj

/-- The journal at power-on has its counts in their ranges. -/
theorem Journal.bounded_initial : Journal.initial.bounded :=
  ⟨by decide, by decide, by decide, fun _ h => absurd h List.not_mem_nil⟩

end Sys2Proof.Machine
end

