-- ==== Sys2Proof/Laws/Admission.lean ====
section
/-! SUPPORT. What an attempt of the drain, a record's entry, a merge and a re-read of the read mark can do, in the words of the statements. -/

namespace Sys2Proof.Machine

open Sys2Proof

/-- An attempt with a region in force and a record at the head. -/
theorem Journal.attempt_tries (j : Journal) {r : Region} {h : HeldRecord} {rest : List HeldRecord} (hr : j.region = some r)
    (hq : j.queue = h :: rest) : ∃ drain reread, j.attempt = { j with drain := drain, reread := reread } ∧ j.tries drain reread := by
  unfold Journal.attempt
  rw [hr, hq]
  dsimp only
  by_cases hf : j.headFits r h = true
  · rw [if_pos hf]
    exact ⟨.placing, j.reread, rfl, r, h, rest, hr, hq, .inl ⟨of_decide_eq_true hf, rfl, rfl⟩⟩
  · rw [if_neg hf]
    exact ⟨.waitingRoom, some .attempt, rfl, r, h, rest, hr, hq, .inr ⟨Nat.lt_of_not_le fun q => hf (decide_eq_true q), rfl, rfl⟩⟩

/-- A record's entry, where a drain that is not INACTIVE has its region. -/
theorem Journal.enter_entered (j : Journal) (x : HeldRecord) (h : j.region = none → j.drain = .inactive) : j.entered (j.enter x) x := by
  obtain ⟨k, hk⟩ : ∃ k : Journal, k = { j with queue := j.queue ++ [{ x with gap := j.suppressed }], suppressed := 0 } := ⟨_, rfl⟩
  have hd : k.drain = j.drain := by rw [hk]
  have woken : j.drain = .idle ∨ j.drain = .waitingRoom ∨ j.drain = .waitingRetry → k.wake = k.attempt →
      j.entered (j.enter x) x := fun hw he => by
    obtain ⟨r, hr⟩ : ∃ r, k.region = some r := by
      rw [hk]
      refine Option.ne_none_iff_exists'.1 fun hn => ?_
      have := h hn
      rcases hw with q | q | q <;> rw [q] at this <;> cases this
    obtain ⟨y, ys, hq⟩ : ∃ y ys, k.queue = y :: ys := by
      rw [hk]
      cases j.queue with
      | nil => exact ⟨_, _, rfl⟩
      | cons a l => exact ⟨_, _, rfl⟩
    obtain ⟨drain, reread, h1, h2⟩ := k.attempt_tries hr hq
    exact ⟨k, drain, reread, hk, by rw [Journal.enter, ← hk, he, h1], .inr ⟨hw, h2⟩⟩
  cases hj : j.drain with
  | idle => exact woken (.inl hj) (by unfold Journal.wake; rw [hd, hj])
  | waitingRoom => exact woken (.inr (.inl hj)) (by unfold Journal.wake; rw [hd, hj])
  | waitingRetry => exact woken (.inr (.inr hj)) (by unfold Journal.wake; rw [hd, hj])
  | placing =>
    refine ⟨k, k.drain, k.reread, hk, ?_, .inl ⟨.inl hj, hd, by rw [hk]⟩⟩
    rw [Journal.enter, ← hk]
    unfold Journal.wake
    rw [hd, hj]
    dsimp only
    rw [← hj, ← hd]
  | inactive =>
    refine ⟨k, k.drain, k.reread, hk, ?_, .inl ⟨.inr hj, hd, by rw [hk]⟩⟩
    rw [Journal.enter, ← hk]
    unfold Journal.wake
    rw [hd, hj]
    dsimp only
    rw [← hj, ← hd]

/-- Merging tests the newest record alone. -/
theorem mergeNewest_append (placing : Bool) (new last : HeldRecord) (older : List HeldRecord) :
    mergeNewest placing new (older ++ [last])
      = (mergeNewest (placing && older.isEmpty) new [last]).map (fun q => older ++ q) := by
  induction older generalizing placing with
  | nil => simp
  | cons a l ih =>
    cases l with
    | nil =>
      rw [List.cons_append, List.nil_append]
      conv_lhs => unfold mergeNewest
      simp only [List.isEmpty_cons, Bool.and_false]
      cases mergeNewest false new [last] <;> rfl
    | cons b m =>
      rw [List.cons_append, List.cons_append]
      conv_lhs => unfold mergeNewest
      have := ih false
      rw [List.cons_append] at this
      rw [this]
      simp only [List.isEmpty_cons, Bool.and_false]
      cases mergeNewest false new [last] <;> rfl

/-- A record that merges, in the words of R129. -/
theorem mergeNewest_iff (j : Journal) (new : HeldRecord) (merged : List HeldRecord) :
    mergeNewest j.isPlacing new j.queue = some merged ↔ j.merges new.cls new.body merged := by
  constructor
  · intro h
    rcases List.eq_nil_or_concat j.queue with hn | ⟨older, last, hq⟩
    · rw [hn] at h; cases h
    · rw [List.concat_eq_append] at hq
      rw [hq, mergeNewest_append] at h
      obtain ⟨q, hq1, rfl⟩ := Option.map_eq_some_iff.1 h
      unfold mergeNewest at hq1
      split at hq1
      · next hc =>
        cases hq1
        simp only [Bool.and_eq_true, Bool.not_eq_true', Bool.and_eq_false_iff, decide_eq_true_eq] at hc
        obtain ⟨⟨h1, h2⟩, h3⟩ := hc
        unfold mergesInto at h3
        split at h3
        · next n s c v rs k room n' s' c' v' r' k' room' hb hb' =>
          simp only [Bool.and_eq_true, decide_eq_true_eq] at h3
          obtain ⟨⟨⟨⟨rfl, rfl⟩, rfl⟩, rfl⟩, hk⟩ := h3
          refine ⟨older, last, _, _, _, _, _, _, _, _, _, _, hq, h2, hb, hb', hk, fun hp he => ?_, ?_⟩
          · subst he
            rcases h1 with h1 | h1
            · simp [Journal.isPlacing, hp] at h1
            · cases h1
          · rw [hb]; rfl
        · cases h3
      · cases hq1
  · rintro ⟨older, last, n, s, v, rs, c, room, k, c', room', k', hq, hcls, hb, hb', hk, hp, rfl⟩
    rw [hq, mergeNewest_append]
    have hc : (j.isPlacing && older.isEmpty) = false := by
      cases older with
      | nil =>
        have : j.isPlacing = false := decide_eq_false fun q => hp q rfl
        rw [this]; rfl
      | cons _ _ => simp
    rw [hc]
    unfold mergeNewest
    have hm : mergesInto last.body new.body = true := by
      rw [hb, hb']
      unfold mergesInto
      simp only [decide_true, Bool.true_and, decide_eq_true_eq]
      exact hk
    rw [if_pos (by rw [hm, hcls]; rfl), hb]
    rfl

/-- The comparison made again does nothing in WAITING_RETRY. -/
theorem Journal.compareAgain_retry (k : Journal) (hd : k.drain = .waitingRetry) : k.compareAgain = k := by
  unfold Journal.compareAgain
  rw [hd]
  split <;> first | rfl | (next h => cases h)

/-- The comparison made again in WAITING_ROOM. -/
theorem Journal.compareAgain_room (k : Journal) {r : Region} {h : HeldRecord} {rest : List HeldRecord} (hr : k.region = some r)
    (hq : k.queue = h :: rest) (hd : k.drain = .waitingRoom) :
    k.compareAgain = if k.headFits r h then { k with drain := .placing } else k := by
  unfold Journal.compareAgain
  rw [hr, hq, hd]

/-- What a re-read of a waiting drain's head leaves: the drain and the re-read outstanding (R121, R126). -/
theorem Journal.rereadDone_waits (j : Journal) (value : Nat) {r : Region} {h : HeldRecord} {rest : List HeldRecord} {why : Reread}
    (hr : j.region = some r) (hq : j.queue = h :: rest) (hw : j.reread = some why) :
    (j.drain = .waitingRetry ∨ (j.drain = .waitingRoom ∧ why = .second) →
      ((j.rereadDone value).readMark ≠ j.readMark →
        Journal.tries { j with readMark := (j.rereadDone value).readMark, reread := none } (j.rereadDone value).drain
          (j.rereadDone value).reread) ∧
      ((j.rereadDone value).readMark = j.readMark →
        (j.rereadDone value).drain = j.drain ∧ (j.rereadDone value).reread = none)) ∧
    (j.drain = .waitingRoom → why = .attempt →
      (j.rereadDone value).drain = (if (placementPlan r.size j.writeMark (decide (h.gap ≠ 0)) h.body.length).need
        ≤ (j.rereadDone value).freeIn r.size then .placing else .waitingRoom) ∧
      (j.rereadDone value).reread = none) := by
  have tried : ∀ v : Nat, ∀ k : Journal, k = { j with readMark := v, reread := none } →
      k.tries k.attempt.drain k.attempt.reread := fun v k hk => by
    obtain ⟨d, w, h1, h2⟩ := k.attempt_tries (by rw [hk]; exact hr) (by rw [hk]; exact hq)
    rw [h1]; exact h2
  cases why with
  | second =>
    refine ⟨fun hd => ?_, fun _ h' => by cases h'⟩
    have e : j.rereadDone value = if j.markOk r.size value && decide (value ≠ j.readMark) then
        Journal.attempt { j with readMark := value, reread := none } else { j with reread := none } := by
      unfold Journal.rereadDone
      rw [hw]
      unfold Journal.takeMark
      simp only [hr]
      have : ({ j with region := some r, reread := none } : Journal).markOk r.size value = j.markOk r.size value := rfl
      split
      · next hc =>
        rw [this] at hc
        rw [if_pos hc]
        unfold Journal.wakeOnMark
        rcases hd with hd | ⟨hd, -⟩ <;> simp only [hd]
      · next hc => rw [this] at hc; rw [if_neg hc]
    rw [e]
    split
    · next hc =>
      have hne : value ≠ j.readMark := by
        rw [Bool.and_eq_true] at hc; exact of_decide_eq_true hc.2
      have hm : (Journal.attempt { j with readMark := value, reread := none }).readMark = value := by simp
      rw [hm]
      exact ⟨fun _ => tried value _ rfl, fun q => absurd q hne⟩
    · exact ⟨fun q => absurd rfl q, fun _ => ⟨rfl, rfl⟩⟩
  | attempt =>
    have e : ∀ moved : Bool, moved = (j.markOk r.size value && decide (value ≠ j.readMark)) →
        j.rereadDone value = if moved && decide (j.drain = .waitingRetry) then
            Journal.attempt { j with readMark := if moved then value else j.readMark, reread := none }
          else Journal.compareAgain { j with readMark := if moved then value else j.readMark, reread := none } := fun moved hm => by
      unfold Journal.rereadDone
      rw [hw, hm]
      simp only [hr]
    obtain ⟨moved, hm⟩ : ∃ moved, moved = (j.markOk r.size value && decide (value ≠ j.readMark)) := ⟨_, rfl⟩
    rw [e moved hm]
    refine ⟨fun hd => ?_, fun hd _ => ?_⟩
    · rcases hd with hd | ⟨-, h'⟩
      · cases moved with
        | true =>
          have hne : value ≠ j.readMark := by
            have := hm.symm; rw [Bool.and_eq_true] at this; exact of_decide_eq_true this.2
          rw [if_pos (by rw [hd]; rfl), if_pos rfl]
          have hm' : (Journal.attempt { j with readMark := value, reread := none }).readMark = value := by simp
          rw [hm']
          exact ⟨fun _ => tried value _ rfl, fun q => absurd q hne⟩
        | false =>
          rw [if_neg (by simp)]
          rw [show Journal.compareAgain { j with readMark := if false = true then value else j.readMark, reread := none }
            = { j with reread := none } from Journal.compareAgain_retry _ hd]
          exact ⟨fun q => absurd rfl q, fun _ => ⟨rfl, rfl⟩⟩
      · cases h'
    · rw [if_neg (by rw [hd]; simp)]
      obtain ⟨k, hk⟩ : ∃ k : Journal, k = { j with readMark := if moved = true then value else j.readMark, reread := none } := ⟨_, rfl⟩
      have hm' : k.writeMark = j.writeMark := by rw [hk]
      rw [← hk, Journal.compareAgain_room k (by rw [hk]; exact hr) (by rw [hk]; exact hq) (by rw [hk]; exact hd)]
      unfold Journal.headFits Journal.headPlan
      rw [← hm']
      split
      · next hf => exact ⟨(if_pos (of_decide_eq_true hf)).symm, by rw [hk]⟩
      · next hf => exact ⟨(by rw [hk]; exact hd : k.drain = .waitingRoom).trans (if_neg fun q => hf (decide_eq_true q)).symm, by rw [hk]⟩

end Sys2Proof.Machine
end

