-- ==== Sys2Proof/Laws/Commands.lean ====
section
/-! SUPPORT. Each command's meaning as one shared form: what it does to the state, carried out by `commit`. -/

namespace Sys2Proof.Machine

theorem exec_powerOn (fire storm : Level) (s : State) :
    exec (.powerOn fire storm) s =
    commit s (fun t => t.powerOn fire storm) := rfl

theorem exec_boardReset (progress : PortProgress) (s : State) :
    exec (.boardReset progress) s =
    commit s (fun t => t.boardReset progress) := rfl

theorem exec_resetNRelease (s : State) :
    exec .resetNRelease s =
    commit s (fun t => t.onDevice Device.releaseReset) := rfl

theorem exec_softReset (value : Word) (progress : PortProgress) (s : State) :
    exec (.softReset value progress) s =
    commit s (fun t => t.writeControl value progress) := rfl

theorem exec_alertEnable (value : Word) (s : State) :
    exec (.alertEnable value) s =
    commit s (fun t => t.writeControl value { block := 0, page := 0, placement := 0 }) := rfl

theorem exec_registerWrite (value : Word) (s : State) :
    exec (.registerWrite value) s =
    commit s (fun t => t.onDevice (fun d => d.writeRegister (fun x => x.writeMask value))) := rfl

theorem exec_commonBase (value : Word) (s : State) :
    exec (.commonBase value) s =
    commit s (fun t => t.onDevice (fun d => d.writeRegister (fun x => x.writeBase value))) := rfl

theorem exec_commonSize (value : Word) (s : State) :
    exec (.commonSize value) s =
    commit s (fun t => t.onDevice (fun d => d.writeRegister (fun x => x.writeSize value))) := rfl

theorem exec_chainHeadStart (value : Word) (s : State) :
    exec (.chainHeadStart value) s =
    commit s (fun t => t.onDevice (fun d => d.writeRegister (fun x => x.writeChainHead value))) := rfl

theorem exec_chainHeadAbort (s : State) :
    exec .chainHeadAbort s =
    commit s (fun t => t.onDevice (fun d => d.writeRegister (fun x => x.writeChainHead 0))) := rfl

theorem exec_statusClear (value : Word) (s : State) :
    exec (.statusClear value) s =
    commit s (fun t => t.onDevice (fun d => d.writeRegister (fun x => x.clearStatus value))) := rfl

theorem exec_blockCheck (header : Header) (kindParam : Word) (s : State) :
    exec (.blockCheck header kindParam) s =
    commit s (fun t => t.checkBlock header kindParam) := rfl

theorem exec_linkReread (link : Word) (s : State) :
    exec (.linkReread link) s =
    commit s (fun t => t.rereadLink link) := rfl

theorem exec_settlementWrite (s : State) :
    exec .settlementWrite s =
    commit s State.writeSettlement := rfl

theorem exec_memoryError (access : PortAccess) (accepted : Nat) (s : State) :
    exec (.memoryError access accepted) s =
    commit s (fun t => t.portError access accepted) := rfl

theorem exec_setup (p : SetupParams) (mark : Option Word) (s : State) :
    exec (.setup p mark) s =
    commit s (fun t => t.onDevice (fun d => d.runOrder .setup 32 (fun _ x => x.setup p mark))) := rfl

theorem exec_setClock (minute second : Word) (s : State) :
    exec (.setClock minute second) s =
    commit s (fun t => t.onDevice (fun d => d.runOrder .setClock 2 (fun _ x => x.setClock minute second))) := rfl

theorem exec_houseMode (mode action : Word) (s : State) :
    exec (.houseMode mode action) s =
    commit s (fun t => t.onDevice (fun d => d.runOrder .houseMode 2 (fun _ x => x.houseMode mode action))) := rfl

theorem exec_issueCard (encSeg encAddr serial kind room validFrom validUntil privileges supersede : Word) (s : State) :
    exec (.issueCard encSeg encAddr serial kind room validFrom validUntil privileges supersede) s =
    commit s (fun t => t.onDevice (fun d => d.runOrder .issueCard 9
      (Device.issueCard encSeg encAddr serial kind room validFrom validUntil privileges supersede))) := rfl

theorem exec_revokeCard (serial denyUnknown : Word) (s : State) :
    exec (.revokeCard serial denyUnknown) s =
    commit s (fun t => t.onDevice (fun d => d.runOrder .revokeCard 2 (Device.revokeCard serial denyUnknown))) := rfl

theorem exec_extendCard (serial validUntil : Word) (s : State) :
    exec (.extendCard serial validUntil) s =
    commit s (fun t => t.onDevice (fun d => d.runOrder .extendCard 2 (Device.extendCard serial validUntil))) := rfl

theorem exec_suspendCard (serial : Word) (s : State) :
    exec (.suspendCard serial) s =
    commit s (fun t => t.onDevice (fun d => d.runOrder .suspendCard 1 (Device.moveCard .active .suspended .suspended serial))) := rfl

theorem exec_resumeCard (serial : Word) (s : State) :
    exec (.resumeCard serial) s =
    commit s (fun t => t.onDevice (fun d => d.runOrder .resumeCard 1 (Device.moveCard .suspended .active .resumed serial))) := rfl

theorem exec_readCard (serial : Word) (s : State) :
    exec (.readCard serial) s =
    commit s (fun t => t.onDevice (fun d => d.runOrder .readCard 1 (Device.readCard serial))) := rfl

theorem exec_defineRoom (room code doorSeg doorAddr barSeg barAddr grace openFloor defaultCeiling : Word) (s : State) :
    exec (.defineRoom room code doorSeg doorAddr barSeg barAddr grace openFloor defaultCeiling) s =
    commit s (fun t => t.onDevice (fun d => d.runOrder .defineRoom 9
      (fun _ x => x.defineRoom room code doorSeg doorAddr barSeg barAddr grace openFloor defaultCeiling))) := rfl

theorem exec_checkIn (room source ceiling : Word) (s : State) :
    exec (.checkIn room source ceiling) s =
    commit s (fun t => t.onDevice (fun d => d.runOrder .checkIn 3 (fun _ x => x.checkIn room source ceiling))) := rfl

theorem exec_checkOut (room : Word) (s : State) :
    exec (.checkOut room) s =
    commit s (fun t => t.onDevice (fun d => d.runOrder .checkOut 1 (Device.checkOut room))) := rfl

theorem exec_setRoomState (room newState : Word) (s : State) :
    exec (.setRoomState room newState) s =
    commit s (fun t => t.onDevice (fun d => d.runOrder .setRoomState 2 (fun _ x => x.setRoomState room newState))) := rfl

theorem exec_readRoom (room : Word) (s : State) :
    exec (.readRoom room) s =
    commit s (fun t => t.onDevice (fun d => d.runOrder .readRoom 1 (fun _ x => x.readRoom room))) := rfl

theorem exec_doorCommandRelease (seg addr action endMinute : Word) (s : State) :
    exec (.doorCommandRelease seg addr action endMinute) s =
    commit s (fun t => t.onDevice (fun d => d.runOrder .doorCommand 4 (fun _ x => x.doorCommand seg addr action endMinute))) := rfl

theorem exec_doorCommandRelock (seg addr action endMinute : Word) (s : State) :
    exec (.doorCommandRelock seg addr action endMinute) s =
    commit s (fun t => t.onDevice (fun d => d.runOrder .doorCommand 4 (fun _ x => x.doorCommand seg addr action endMinute))) := rfl

theorem exec_doorCommandHold (seg addr action endMinute : Word) (s : State) :
    exec (.doorCommandHold seg addr action endMinute) s =
    commit s (fun t => t.onDevice (fun d => d.runOrder .doorCommand 4 (fun _ x => x.doorCommand seg addr action endMinute))) := rfl

theorem exec_clearAlarm (seg addr : Word) (s : State) :
    exec (.clearAlarm seg addr) s =
    commit s (fun t => t.onDevice (fun d => d.runOrder .clearAlarm 2 (fun _ x => x.clearAlarm seg addr))) := rfl

theorem exec_setSlots (room : Word) (slots : List (Word × Word)) (s : State) :
    exec (.setSlots room slots) s =
    commit s (fun t => t.onDevice (fun d => d.runOrder .setSlots 25 (fun _ x => x.setSlots room slots))) := rfl

theorem exec_postFolio (room amount : Word) (s : State) :
    exec (.postFolio room amount) s =
    commit s (fun t => t.onDevice (fun d => d.runOrder .postFolio 2 (fun _ x => x.postFolio room amount))) := rfl

theorem exec_setCeiling (room ceiling : Word) (s : State) :
    exec (.setCeiling room ceiling) s =
    commit s (fun t => t.onDevice (fun d => d.runOrder .setCeiling 2 (fun _ x => x.setCeiling room ceiling))) := rfl

theorem exec_setTariff (target index value taxClass : Word) (s : State) :
    exec (.setTariff target index value taxClass) s =
    commit s (fun t => t.onDevice (fun d => d.runOrder .setTariff 4 (fun _ x => x.setTariff target index value taxClass))) := rfl

theorem exec_defineNode (p : NodeParams) (door : DoorParams) (s : State) :
    exec (.defineNode p door) s =
    commit s (fun t => t.onDevice (fun d => d.runOrder .defineNode (if doorKindWord p.kind then 18 else 8)
      (fun _ x => x.defineNode p door))) := rfl

theorem exec_removeNode (seg addr : Word) (s : State) :
    exec (.removeNode seg addr) s =
    commit s (fun t => t.onDevice (fun d => d.runOrder .removeNode 2 (fun _ x => x.removeNode seg addr))) := rfl

theorem exec_restoreNode (seg addr : Word) (s : State) :
    exec (.restoreNode seg addr) s =
    commit s (fun t => t.onDevice (fun d => d.runOrder .restoreNode 2 (fun _ x => x.restoreNode seg addr))) := rfl

theorem exec_readNode (seg addr : Word) (s : State) :
    exec (.readNode seg addr) s =
    commit s (fun t => t.onDevice (fun d => d.runOrder .readNode 2 (fun _ x => x.readNode seg addr))) := rfl

theorem exec_secondPulse (s : State) :
    exec .secondPulse s =
    commit s State.secondPulse := rfl

theorem exec_minuteTick (s : State) :
    exec .minuteTick s =
    commit s (fun t => t.onDevice (fun d => d.tickIfDue)) := rfl

theorem exec_releaseTimerExpiry (seg addr : Nat) (s : State) :
    exec (.releaseTimerExpiry seg addr) s =
    commit s (fun t => t.onDevice (fun d => d.doorEvent (nodeKey seg addr) (fun _ r =>
      if Timer.isDue r.releaseTimer then r.releaseExpiry else .same r))) := rfl

theorem exec_heldTimerExpiry (seg addr : Nat) (s : State) :
    exec (.heldTimerExpiry seg addr) s =
    commit s (fun t => t.onDevice (fun d => d.doorEvent (nodeKey seg addr) (fun _ r =>
      if Timer.isDue r.heldTimer then r.heldExpiry else .same r))) := rfl

theorem exec_alarmDelayExpiry (seg addr : Nat) (s : State) :
    exec (.alarmDelayExpiry seg addr) s =
    commit s (fun t => t.onDevice (fun d => d.doorEvent (nodeKey seg addr) (fun n r =>
      if Timer.isDue r.delayTimer then r.delayExpiry n.state.isOut else .same r))) := rfl

theorem exec_sessionLimit (room : Nat) (s : State) :
    exec (.sessionLimit room) s =
    commit s (fun t => t.onDevice (fun d => d.sessionExpired room)) := rfl

theorem exec_encodingTimeout (seg addr : Nat) (s : State) :
    exec (.encodingTimeout seg addr) s =
    commit s (fun t => t.onDevice (fun d => d.encodingExpired (nodeKey seg addr))) := rfl

theorem exec_retryTimerExpiry (seg addr : Nat) (s : State) :
    exec (.retryTimerExpiry seg addr) s =
    commit s (fun t => t.onDevice (fun d => d.retryExpired (nodeKey seg addr))) := rfl

theorem exec_inputEdge (pin : Pin) (level : Level) (s : State) :
    exec (.inputEdge pin level) s =
    commit s (fun t => t.onDevice (fun d => d.inputEdge pin level)) := rfl

theorem exec_inputSettled (pin : Pin) (s : State) :
    exec (.inputSettled pin) s =
    commit s (fun t => t.onDevice (fun d => d.inputSettled pin)) := rfl

theorem exec_segmentTurn (seg : Nat) (s : State) :
    exec (.segmentTurn seg) s =
    commit s (fun t => t.onDevice (fun d => d.turn seg)) := rfl

theorem exec_miss (seg : Nat) (frame : Option (List Byte)) (undeliveredFirst : Bool) (s : State) :
    exec (.miss seg frame undeliveredFirst) s =
    commit s (fun t => t.onDevice (fun d => d.miss seg frame undeliveredFirst)) := rfl

theorem exec_strayFrame (seg : Nat) (frame : List Byte) (s : State) :
    exec (.strayFrame seg frame) s =
    commit s (fun t =>
      let _ := (seg, frame)
      t) := rfl

theorem exec_nothing (seg : Nat) (attention : Bool) (s : State) :
    exec (.nothing seg attention) s =
    commit s (fun t => t.onDevice (fun d => d.answer seg attention none)) := rfl

theorem exec_present (seg : Nat) (attention : Bool) (seq : BitVec 4) (image : CardImage) (s : State) :
    exec (.present seg attention seq image) s =
    commit s (fun t => t.onDevice (fun d => d.answer seg attention (some (seq, .present image)))) := rfl

theorem exec_contact (seg : Nat) (attention : Bool) (seq : BitVec 4) (position : Byte) (s : State) :
    exec (.contact seg attention seq position) s =
    commit s (fun t => t.onDevice (fun d => d.answer seg attention (some (seq, contactBody position)))) := rfl

theorem exec_tally (seg : Nat) (attention : Bool) (seq : BitVec 4) (position : Byte) (pairs : List Byte) (s : State) :
    exec (.tally seg attention seq position pairs) s =
    commit s (fun t => t.onDevice (fun d => d.answer seg attention (some (seq, tallyBody position pairs)))) := rfl

theorem exec_button (seg : Nat) (attention : Bool) (seq : BitVec 4) (value : Byte) (s : State) :
    exec (.button seg attention seq value) s =
    commit s (fun t => t.onDevice (fun d => d.answer seg attention (some (seq, buttonBody value)))) := rfl

theorem exec_encResult (seg : Nat) (attention : Bool) (seq : BitVec 4) (code : Byte) (s : State) :
    exec (.encResult seg attention seq code) s =
    commit s (fun t => t.onDevice (fun d => d.answer seg attention (some (seq, resultBody code)))) := rfl

theorem exec_placementComplete (s : State) :
    exec .placementComplete s =
    commit s State.completePlacement := rfl

theorem exec_readMarkReread (value : Word) (s : State) :
    exec (.readMarkReread value) s =
    commit s (fun t => t.onDevice (fun d => d.rereadMark value)) := rfl

end Sys2Proof.Machine
end

