-- ==== Sys2Proof/Laws/Folio.lean ====
section
/-! SUPPORT. The folio arithmetic: what stage five keeps, and that the operations on a room keep its folio in range and its minibar under
the suspension rule. -/

namespace Sys2Proof.Machine

/-- A posting keeps the balance at most the ceiling and the unposted sum at most its cap (R111, R112). -/
theorem post_inRange {balance ceiling unposted : Nat} (amount : Int) (hb : balance ≤ ceiling) (hu : unposted ≤ Config.unpostedCap) :
    (post balance ceiling unposted amount).balance ≤ ceiling ∧ (post balance ceiling unposted amount).unposted ≤ Config.unpostedCap := by
  unfold post
  split_ifs
  · simp only [postCharge]
    omega
  · simp only [postCredit]
    omega

/-- The suspension rule's own state satisfies it (R88). -/
theorem Room.suspensionOk_rest (r : Room) (h : r.bar = r.restState) : r.suspensionOk := by
  unfold Room.suspensionOk
  rw [h]
  unfold Room.restState
  split_ifs with hc
  · exact .inr (.inl ⟨rfl, by simpa using hc⟩)
  · exact .inr (.inr ⟨rfl, by simpa using hc⟩)

theorem Room.restState_notInSession (r : Room) : r.restState.inSession = false := by
  unfold Room.restState
  split_ifs <;> rfl

/-- Applying the suspension rule changes the minibar's state alone. -/
@[simp] theorem Room.suspension_frame (r : Room) :
    r.suspension.code = r.code ∧ r.suspension.state = r.state ∧ r.suspension.stayOpen = r.stayOpen ∧ r.suspension.dnd = r.dnd
      ∧ r.suspension.doorLink = r.doorLink ∧ r.suspension.barLink = r.barLink ∧ r.suspension.grace = r.grace
      ∧ r.suspension.guestCount = r.guestCount ∧ r.suspension.lastButton = r.lastButton
      ∧ r.suspension.defaultCeiling = r.defaultCeiling ∧ r.suspension.openFloor = r.openFloor
      ∧ r.suspension.balance = r.balance ∧ r.suspension.ceiling = r.ceiling ∧ r.suspension.unposted = r.unposted
      ∧ r.suspension.slots = r.slots ∧ r.suspension.unsettled = r.unsettled ∧ r.suspension.orphan = r.orphan
      ∧ r.suspension.session = r.session ∧ r.suspension.unlatchPending = r.unlatchPending := by
  unfold Room.suspension
  split_ifs <;> simp

/-- Applying the suspension rule neither opens nor ends a session. -/
@[simp] theorem Room.suspension_inSession (r : Room) : r.suspension.bar.inSession = r.bar.inSession := by
  unfold Room.suspension
  split_ifs with h
  · rfl
  · simp only [Bool.not_eq_true] at h
    simp [Room.restState_notInSession, h]

theorem Room.suspensionOk_suspension (r : Room) : r.suspension.suspensionOk := by
  unfold Room.suspension
  split_ifs with h
  · exact .inl h
  · exact Room.suspensionOk_rest _ rfl

theorem Room.suspensionOk_closeSession (r : Room) : r.closeSession.suspensionOk :=
  Room.suspensionOk_rest _ rfl

theorem Room.folioOk_suspension {r : Room} (h : r.folioOk) : r.suspension.folioOk := by
  simpa [Room.folioOk] using h

/-- A folio stays in range when stage five is applied to it. -/
theorem Room.folioOk_posted {r : Room} (amount : Int) (h : r.folioOk) : (r.posted amount).folioOk := by
  obtain ⟨h1, h2, h3, h4, h5⟩ := h
  have := post_inRange amount h1 h5
  exact ⟨this.1, h2, h3, h4, this.2⟩

/-- A folio stays in range under a new ceiling (R115). -/
theorem Room.folioOk_withCeiling {r : Room} {ceiling : Nat} (hc : ceiling ≤ Config.moneyCap) (h : r.folioOk) :
    (r.withCeiling ceiling).folioOk := by
  obtain ⟨_, _, h3, h4, h5⟩ := h
  refine ⟨Nat.min_le_right _ _, hc, h3, h4, ?_⟩
  simp only [Room.withCeiling]
  split_ifs
  · exact Nat.min_le_left _ _
  · exact h5

theorem clampTop_le (top value : Nat) : (clampTop top value).1 ≤ top := by
  unfold clampTop
  split_ifs <;> simp only <;> omega

end Sys2Proof.Machine
end

