-- ==== Sys2Proof/Laws/Frames.lean ====
section
/-! SUPPORT. The frame of every shared operation of the device: the fields that it never changes, each a rewriting rule. -/

namespace Sys2Proof.Machine

/-- What every step of a fold leaves alone, the fold leaves alone. -/
theorem foldl_leaves {β γ : Type} (f : Device → β → Device) (g : Device → γ) (h : ∀ d x, g (f d x) = g d) (xs : List β) (d : Device) :
    g (xs.foldl f d) = g d := by
  induction xs generalizing d with
  | nil => rfl
  | cons x rest ih => rw [List.foldl_cons, ih, h]

@[simp] theorem Device.hand_frame (d : Device) (key : Nat) (c : Command) :
    (d.hand key c).regs = d.regs ∧ (d.hand key c).resetHeld = d.resetHeld ∧ (d.hand key c).walker = d.walker
      ∧ (d.hand key c).creds = d.creds ∧ (d.hand key c).rooms = d.rooms ∧ (d.hand key c).nodes = d.nodes
      ∧ (d.hand key c).tariff = d.tariff ∧ (d.hand key c).sessionLimit = d.sessionLimit ∧ (d.hand key c).journal = d.journal
      ∧ (d.hand key c).clock = d.clock ∧ (d.hand key c).fire = d.fire ∧ (d.hand key c).storm = d.storm := by
  refine ⟨?_, ?_, ?_, ?_, ?_, ?_, ?_, ?_, ?_, ?_, ?_, ?_⟩ <;>
    (unfold Device.hand; (repeat' split) <;> simp)

@[simp] theorem Device.handAll_frame (d : Device) (key : Nat) (cs : List Command) :
    (d.handAll key cs).regs = d.regs ∧ (d.handAll key cs).resetHeld = d.resetHeld ∧ (d.handAll key cs).walker = d.walker
      ∧ (d.handAll key cs).creds = d.creds ∧ (d.handAll key cs).rooms = d.rooms ∧ (d.handAll key cs).nodes = d.nodes
      ∧ (d.handAll key cs).tariff = d.tariff ∧ (d.handAll key cs).sessionLimit = d.sessionLimit
      ∧ (d.handAll key cs).journal = d.journal ∧ (d.handAll key cs).clock = d.clock ∧ (d.handAll key cs).fire = d.fire
      ∧ (d.handAll key cs).storm = d.storm := by
  exact ⟨foldl_leaves _ Device.regs (fun _ _ => by simp) _ _,
    foldl_leaves _ Device.resetHeld (fun _ _ => by simp) _ _,
    foldl_leaves _ Device.walker (fun _ _ => by simp) _ _,
    foldl_leaves _ Device.creds (fun _ _ => by simp) _ _,
    foldl_leaves _ Device.rooms (fun _ _ => by simp) _ _,
    foldl_leaves _ Device.nodes (fun _ _ => by simp) _ _,
    foldl_leaves _ Device.tariff (fun _ _ => by simp) _ _,
    foldl_leaves _ Device.sessionLimit (fun _ _ => by simp) _ _,
    foldl_leaves _ Device.journal (fun _ _ => by simp) _ _,
    foldl_leaves _ Device.clock (fun _ _ => by simp) _ _,
    foldl_leaves _ Device.fire (fun _ _ => by simp) _ _,
    foldl_leaves _ Device.storm (fun _ _ => by simp) _ _⟩

@[simp] theorem Device.joinAttention_frame (d : Device) (key : Nat) :
    (d.joinAttention key).regs = d.regs ∧ (d.joinAttention key).resetHeld = d.resetHeld
      ∧ (d.joinAttention key).walker = d.walker ∧ (d.joinAttention key).creds = d.creds ∧ (d.joinAttention key).rooms = d.rooms
      ∧ (d.joinAttention key).nodes = d.nodes ∧ (d.joinAttention key).tariff = d.tariff
      ∧ (d.joinAttention key).sessionLimit = d.sessionLimit ∧ (d.joinAttention key).journal = d.journal
      ∧ (d.joinAttention key).clock = d.clock ∧ (d.joinAttention key).fire = d.fire ∧ (d.joinAttention key).storm = d.storm
      ∧ (d.joinAttention key).reports = d.reports := by
  simp [Device.joinAttention]

@[simp] theorem Device.leaveAttention_frame (d : Device) (key : Nat) :
    (d.leaveAttention key).regs = d.regs ∧ (d.leaveAttention key).resetHeld = d.resetHeld
      ∧ (d.leaveAttention key).walker = d.walker ∧ (d.leaveAttention key).creds = d.creds
      ∧ (d.leaveAttention key).rooms = d.rooms ∧ (d.leaveAttention key).tariff = d.tariff
      ∧ (d.leaveAttention key).sessionLimit = d.sessionLimit ∧ (d.leaveAttention key).journal = d.journal
      ∧ (d.leaveAttention key).clock = d.clock ∧ (d.leaveAttention key).fire = d.fire ∧ (d.leaveAttention key).storm = d.storm
      ∧ (d.leaveAttention key).reports = d.reports := by
  refine ⟨?_, ?_, ?_, ?_, ?_, ?_, ?_, ?_, ?_, ?_, ?_, ?_⟩ <;>
    (unfold Device.leaveAttention; dsimp only; split <;> simp)

@[simp] theorem Device.countPassOver_frame (d : Device) (seg chosen : Nat) (members : List Nat) :
    (d.countPassOver seg chosen members).regs = d.regs ∧ (d.countPassOver seg chosen members).resetHeld = d.resetHeld
      ∧ (d.countPassOver seg chosen members).walker = d.walker ∧ (d.countPassOver seg chosen members).creds = d.creds
      ∧ (d.countPassOver seg chosen members).rooms = d.rooms ∧ (d.countPassOver seg chosen members).segments = d.segments
      ∧ (d.countPassOver seg chosen members).tariff = d.tariff
      ∧ (d.countPassOver seg chosen members).sessionLimit = d.sessionLimit
      ∧ (d.countPassOver seg chosen members).journal = d.journal ∧ (d.countPassOver seg chosen members).clock = d.clock
      ∧ (d.countPassOver seg chosen members).fire = d.fire ∧ (d.countPassOver seg chosen members).storm = d.storm
      ∧ (d.countPassOver seg chosen members).reports = d.reports := by
  simp [Device.countPassOver]

@[simp] theorem Device.sendFrame_frame (d : Device) (seg addr : Nat) (m : Send) :
    (d.sendFrame seg addr m).regs = d.regs ∧ (d.sendFrame seg addr m).resetHeld = d.resetHeld
      ∧ (d.sendFrame seg addr m).walker = d.walker ∧ (d.sendFrame seg addr m).creds = d.creds
      ∧ (d.sendFrame seg addr m).rooms = d.rooms ∧ (d.sendFrame seg addr m).tariff = d.tariff
      ∧ (d.sendFrame seg addr m).sessionLimit = d.sessionLimit ∧ (d.sendFrame seg addr m).journal = d.journal
      ∧ (d.sendFrame seg addr m).clock = d.clock ∧ (d.sendFrame seg addr m).fire = d.fire
      ∧ (d.sendFrame seg addr m).storm = d.storm ∧ (d.sendFrame seg addr m).reports = d.reports := by
  simp [Device.sendFrame]

@[simp] theorem Device.presenceTurn_frame (d : Device) (seg : Nat) :
    (d.presenceTurn seg).regs = d.regs ∧ (d.presenceTurn seg).resetHeld = d.resetHeld ∧ (d.presenceTurn seg).walker = d.walker
      ∧ (d.presenceTurn seg).creds = d.creds ∧ (d.presenceTurn seg).rooms = d.rooms ∧ (d.presenceTurn seg).tariff = d.tariff
      ∧ (d.presenceTurn seg).sessionLimit = d.sessionLimit ∧ (d.presenceTurn seg).journal = d.journal
      ∧ (d.presenceTurn seg).clock = d.clock ∧ (d.presenceTurn seg).fire = d.fire ∧ (d.presenceTurn seg).storm = d.storm
      ∧ (d.presenceTurn seg).reports = d.reports := by
  refine ⟨?_, ?_, ?_, ?_, ?_, ?_, ?_, ?_, ?_, ?_, ?_, ?_⟩ <;>
    (unfold Device.presenceTurn; split <;> simp)

@[simp] theorem Device.applyDoor_frame (d : Device) (key : Nat) (out : Bool) (o : DoorOut) :
    (d.applyDoor key out o).resetHeld = d.resetHeld ∧ (d.applyDoor key out o).walker = d.walker
      ∧ (d.applyDoor key out o).creds = d.creds ∧ (d.applyDoor key out o).rooms = d.rooms
      ∧ (d.applyDoor key out o).tariff = d.tariff ∧ (d.applyDoor key out o).sessionLimit = d.sessionLimit
      ∧ (d.applyDoor key out o).clock = d.clock ∧ (d.applyDoor key out o).fire = d.fire
      ∧ (d.applyDoor key out o).storm = d.storm := by
  unfold Device.applyDoor
  dsimp only
  refine ⟨?_, ?_, ?_, ?_, ?_, ?_, ?_, ?_, ?_⟩
  · rw [foldl_leaves _ Device.resetHeld (fun _ _ => by simp)]; (repeat' split) <;> simp
  · rw [foldl_leaves _ Device.walker (fun _ _ => by simp)]; (repeat' split) <;> simp
  · rw [foldl_leaves _ Device.creds (fun _ _ => by simp)]; (repeat' split) <;> simp
  · rw [foldl_leaves _ Device.rooms (fun _ _ => by simp)]; (repeat' split) <;> simp
  · rw [foldl_leaves _ Device.tariff (fun _ _ => by simp)]; (repeat' split) <;> simp
  · rw [foldl_leaves _ Device.sessionLimit (fun _ _ => by simp)]; (repeat' split) <;> simp
  · rw [foldl_leaves _ Device.clock (fun _ _ => by simp)]; (repeat' split) <;> simp
  · rw [foldl_leaves _ Device.fire (fun _ _ => by simp)]; (repeat' split) <;> simp
  · rw [foldl_leaves _ Device.storm (fun _ _ => by simp)]; (repeat' split) <;> simp

@[simp] theorem Device.doorEvent_frame (d : Device) (key : Nat) (f : Node → Door → DoorOut) :
    (d.doorEvent key f).resetHeld = d.resetHeld ∧ (d.doorEvent key f).walker = d.walker ∧ (d.doorEvent key f).creds = d.creds
      ∧ (d.doorEvent key f).rooms = d.rooms ∧ (d.doorEvent key f).tariff = d.tariff
      ∧ (d.doorEvent key f).sessionLimit = d.sessionLimit ∧ (d.doorEvent key f).clock = d.clock
      ∧ (d.doorEvent key f).fire = d.fire ∧ (d.doorEvent key f).storm = d.storm := by
  refine ⟨?_, ?_, ?_, ?_, ?_, ?_, ?_, ?_, ?_⟩ <;>
    (unfold Device.doorEvent; (repeat' split) <;> simp)

@[simp] theorem Device.everyDoor_frame (d : Device) (f : Node → Door → DoorOut) :
    (d.everyDoor f).resetHeld = d.resetHeld ∧ (d.everyDoor f).walker = d.walker ∧ (d.everyDoor f).creds = d.creds
      ∧ (d.everyDoor f).rooms = d.rooms ∧ (d.everyDoor f).tariff = d.tariff ∧ (d.everyDoor f).sessionLimit = d.sessionLimit
      ∧ (d.everyDoor f).clock = d.clock ∧ (d.everyDoor f).fire = d.fire ∧ (d.everyDoor f).storm = d.storm := by
  exact ⟨foldl_leaves _ Device.resetHeld (fun _ _ => by simp) _ _,
    foldl_leaves _ Device.walker (fun _ _ => by simp) _ _,
    foldl_leaves _ Device.creds (fun _ _ => by simp) _ _,
    foldl_leaves _ Device.rooms (fun _ _ => by simp) _ _,
    foldl_leaves _ Device.tariff (fun _ _ => by simp) _ _,
    foldl_leaves _ Device.sessionLimit (fun _ _ => by simp) _ _,
    foldl_leaves _ Device.clock (fun _ _ => by simp) _ _,
    foldl_leaves _ Device.fire (fun _ _ => by simp) _ _,
    foldl_leaves _ Device.storm (fun _ _ => by simp) _ _⟩

@[simp] theorem Device.endHolds_frame (d : Device) :
    d.endHolds.resetHeld = d.resetHeld ∧ d.endHolds.walker = d.walker ∧ d.endHolds.creds = d.creds ∧ d.endHolds.rooms = d.rooms
      ∧ d.endHolds.tariff = d.tariff ∧ d.endHolds.sessionLimit = d.sessionLimit ∧ d.endHolds.clock = d.clock
      ∧ d.endHolds.fire = d.fire ∧ d.endHolds.storm = d.storm := by
  simp [Device.endHolds]

@[simp] theorem Device.doorsOnFire_frame (d : Device) (active : Bool) :
    (d.doorsOnFire active).resetHeld = d.resetHeld ∧ (d.doorsOnFire active).walker = d.walker
      ∧ (d.doorsOnFire active).creds = d.creds ∧ (d.doorsOnFire active).rooms = d.rooms
      ∧ (d.doorsOnFire active).tariff = d.tariff ∧ (d.doorsOnFire active).sessionLimit = d.sessionLimit
      ∧ (d.doorsOnFire active).clock = d.clock ∧ (d.doorsOnFire active).fire = d.fire ∧ (d.doorsOnFire active).storm = d.storm := by
  refine ⟨?_, ?_, ?_, ?_, ?_, ?_, ?_, ?_, ?_⟩ <;>
    (unfold Device.doorsOnFire; split <;> simp)

@[simp] theorem Device.doorsOnStorm_frame (d : Device) (active : Bool) :
    (d.doorsOnStorm active).resetHeld = d.resetHeld ∧ (d.doorsOnStorm active).walker = d.walker
      ∧ (d.doorsOnStorm active).creds = d.creds ∧ (d.doorsOnStorm active).rooms = d.rooms
      ∧ (d.doorsOnStorm active).tariff = d.tariff ∧ (d.doorsOnStorm active).sessionLimit = d.sessionLimit
      ∧ (d.doorsOnStorm active).clock = d.clock ∧ (d.doorsOnStorm active).fire = d.fire
      ∧ (d.doorsOnStorm active).storm = d.storm := by
  refine ⟨?_, ?_, ?_, ?_, ?_, ?_, ?_, ?_, ?_⟩ <;>
    (unfold Device.doorsOnStorm; split <;> simp)

@[simp] theorem Device.doorNodeChanged_frame (d : Device) (key : Nat) (before after : NodeState) :
    (d.doorNodeChanged key before after).resetHeld = d.resetHeld ∧ (d.doorNodeChanged key before after).walker = d.walker
      ∧ (d.doorNodeChanged key before after).creds = d.creds ∧ (d.doorNodeChanged key before after).rooms = d.rooms
      ∧ (d.doorNodeChanged key before after).tariff = d.tariff
      ∧ (d.doorNodeChanged key before after).sessionLimit = d.sessionLimit
      ∧ (d.doorNodeChanged key before after).clock = d.clock ∧ (d.doorNodeChanged key before after).fire = d.fire
      ∧ (d.doorNodeChanged key before after).storm = d.storm := by
  simp [Device.doorNodeChanged]

@[simp] theorem Device.doorHeard_frame (d : Device) (key : Nat) :
    (d.doorHeard key).resetHeld = d.resetHeld ∧ (d.doorHeard key).walker = d.walker ∧ (d.doorHeard key).creds = d.creds
      ∧ (d.doorHeard key).rooms = d.rooms ∧ (d.doorHeard key).tariff = d.tariff
      ∧ (d.doorHeard key).sessionLimit = d.sessionLimit ∧ (d.doorHeard key).clock = d.clock ∧ (d.doorHeard key).fire = d.fire
      ∧ (d.doorHeard key).storm = d.storm := by
  simp [Device.doorHeard]

@[simp] theorem Device.handBar_frame (d : Device) (r : Room) (c : Command) :
    (d.handBar r c).regs = d.regs ∧ (d.handBar r c).resetHeld = d.resetHeld ∧ (d.handBar r c).walker = d.walker
      ∧ (d.handBar r c).creds = d.creds ∧ (d.handBar r c).rooms = d.rooms ∧ (d.handBar r c).nodes = d.nodes
      ∧ (d.handBar r c).tariff = d.tariff ∧ (d.handBar r c).sessionLimit = d.sessionLimit ∧ (d.handBar r c).journal = d.journal
      ∧ (d.handBar r c).clock = d.clock ∧ (d.handBar r c).fire = d.fire ∧ (d.handBar r c).storm = d.storm := by
  refine ⟨?_, ?_, ?_, ?_, ?_, ?_, ?_, ?_, ?_, ?_, ?_, ?_⟩ <;>
    (unfold Device.handBar; split <;> simp)

@[simp] theorem Device.openSession_frame (d : Device) (key room : Nat) (restock : Bool) :
    (d.openSession key room restock).regs = d.regs ∧ (d.openSession key room restock).resetHeld = d.resetHeld
      ∧ (d.openSession key room restock).walker = d.walker ∧ (d.openSession key room restock).creds = d.creds
      ∧ (d.openSession key room restock).nodes = d.nodes ∧ (d.openSession key room restock).tariff = d.tariff
      ∧ (d.openSession key room restock).sessionLimit = d.sessionLimit ∧ (d.openSession key room restock).clock = d.clock
      ∧ (d.openSession key room restock).fire = d.fire ∧ (d.openSession key room restock).storm = d.storm := by
  simp [Device.openSession]

@[simp] theorem Device.barGrant_frame (d : Device) (key : Nat) (kind : CardKind) (minibar restock : Bool) :
    (d.barGrant key kind minibar restock).1.regs = d.regs ∧ (d.barGrant key kind minibar restock).1.resetHeld = d.resetHeld
      ∧ (d.barGrant key kind minibar restock).1.walker = d.walker ∧ (d.barGrant key kind minibar restock).1.creds = d.creds
      ∧ (d.barGrant key kind minibar restock).1.nodes = d.nodes ∧ (d.barGrant key kind minibar restock).1.tariff = d.tariff
      ∧ (d.barGrant key kind minibar restock).1.sessionLimit = d.sessionLimit
      ∧ (d.barGrant key kind minibar restock).1.clock = d.clock ∧ (d.barGrant key kind minibar restock).1.fire = d.fire
      ∧ (d.barGrant key kind minibar restock).1.storm = d.storm := by
  refine ⟨?_, ?_, ?_, ?_, ?_, ?_, ?_, ?_, ?_, ?_⟩ <;>
    (unfold Device.barGrant; dsimp only; (repeat' split) <;> simp)

@[simp] theorem Device.unlatchAnswered_frame (d : Device) (key : Nat) :
    (d.unlatchAnswered key).regs = d.regs ∧ (d.unlatchAnswered key).resetHeld = d.resetHeld
      ∧ (d.unlatchAnswered key).walker = d.walker ∧ (d.unlatchAnswered key).creds = d.creds
      ∧ (d.unlatchAnswered key).nodes = d.nodes ∧ (d.unlatchAnswered key).segments = d.segments
      ∧ (d.unlatchAnswered key).tariff = d.tariff ∧ (d.unlatchAnswered key).sessionLimit = d.sessionLimit
      ∧ (d.unlatchAnswered key).journal = d.journal ∧ (d.unlatchAnswered key).clock = d.clock
      ∧ (d.unlatchAnswered key).fire = d.fire ∧ (d.unlatchAnswered key).storm = d.storm
      ∧ (d.unlatchAnswered key).reports = d.reports := by
  refine ⟨?_, ?_, ?_, ?_, ?_, ?_, ?_, ?_, ?_, ?_, ?_, ?_, ?_⟩ <;>
    (unfold Device.unlatchAnswered; split <;> simp)

@[simp] theorem Device.unlatchUndelivered_frame (d : Device) (key : Nat) :
    (d.unlatchUndelivered key).regs = d.regs ∧ (d.unlatchUndelivered key).resetHeld = d.resetHeld
      ∧ (d.unlatchUndelivered key).walker = d.walker ∧ (d.unlatchUndelivered key).creds = d.creds
      ∧ (d.unlatchUndelivered key).nodes = d.nodes ∧ (d.unlatchUndelivered key).segments = d.segments
      ∧ (d.unlatchUndelivered key).tariff = d.tariff ∧ (d.unlatchUndelivered key).sessionLimit = d.sessionLimit
      ∧ (d.unlatchUndelivered key).clock = d.clock ∧ (d.unlatchUndelivered key).fire = d.fire
      ∧ (d.unlatchUndelivered key).storm = d.storm ∧ (d.unlatchUndelivered key).reports = d.reports := by
  refine ⟨?_, ?_, ?_, ?_, ?_, ?_, ?_, ?_, ?_, ?_, ?_, ?_⟩ <;>
    (unfold Device.unlatchUndelivered; (repeat' split) <;> simp)

@[simp] theorem Device.endUnsettled_frame (d : Device) (key room : Nat) (cause : UnsettledCause) (relock : Bool) :
    (d.endUnsettled key room cause relock).regs = d.regs ∧ (d.endUnsettled key room cause relock).resetHeld = d.resetHeld
      ∧ (d.endUnsettled key room cause relock).walker = d.walker ∧ (d.endUnsettled key room cause relock).creds = d.creds
      ∧ (d.endUnsettled key room cause relock).nodes = d.nodes ∧ (d.endUnsettled key room cause relock).tariff = d.tariff
      ∧ (d.endUnsettled key room cause relock).sessionLimit = d.sessionLimit
      ∧ (d.endUnsettled key room cause relock).clock = d.clock ∧ (d.endUnsettled key room cause relock).fire = d.fire
      ∧ (d.endUnsettled key room cause relock).storm = d.storm := by
  refine ⟨?_, ?_, ?_, ?_, ?_, ?_, ?_, ?_, ?_, ?_⟩ <;>
    (unfold Device.endUnsettled; split <;> simp)

@[simp] theorem Device.sessionExpired_frame (d : Device) (room : Nat) :
    (d.sessionExpired room).regs = d.regs ∧ (d.sessionExpired room).resetHeld = d.resetHeld
      ∧ (d.sessionExpired room).walker = d.walker ∧ (d.sessionExpired room).creds = d.creds
      ∧ (d.sessionExpired room).nodes = d.nodes ∧ (d.sessionExpired room).tariff = d.tariff
      ∧ (d.sessionExpired room).sessionLimit = d.sessionLimit ∧ (d.sessionExpired room).clock = d.clock
      ∧ (d.sessionExpired room).fire = d.fire ∧ (d.sessionExpired room).storm = d.storm := by
  refine ⟨?_, ?_, ?_, ?_, ?_, ?_, ?_, ?_, ?_, ?_⟩ <;>
    (unfold Device.sessionExpired; (repeat' split) <;> simp)

@[simp] theorem Device.barNodeChanged_frame (d : Device) (key : Nat) (before after : NodeState) :
    (d.barNodeChanged key before after).regs = d.regs ∧ (d.barNodeChanged key before after).resetHeld = d.resetHeld
      ∧ (d.barNodeChanged key before after).walker = d.walker ∧ (d.barNodeChanged key before after).creds = d.creds
      ∧ (d.barNodeChanged key before after).nodes = d.nodes ∧ (d.barNodeChanged key before after).tariff = d.tariff
      ∧ (d.barNodeChanged key before after).sessionLimit = d.sessionLimit ∧ (d.barNodeChanged key before after).clock = d.clock
      ∧ (d.barNodeChanged key before after).fire = d.fire ∧ (d.barNodeChanged key before after).storm = d.storm := by
  refine ⟨?_, ?_, ?_, ?_, ?_, ?_, ?_, ?_, ?_, ?_⟩ <;>
    (unfold Device.barNodeChanged; (repeat' split) <;> simp)

@[simp] theorem Device.recordCharge_frame (d : Device) (room key : Nat) (kind : ChargeKind) (lines : List ChargeLine) (clamped : Bool) (p : Posting) (cls : RecordClass) :
    (d.recordCharge room key kind lines clamped p cls).regs = d.regs
      ∧ (d.recordCharge room key kind lines clamped p cls).resetHeld = d.resetHeld
      ∧ (d.recordCharge room key kind lines clamped p cls).walker = d.walker
      ∧ (d.recordCharge room key kind lines clamped p cls).creds = d.creds
      ∧ (d.recordCharge room key kind lines clamped p cls).rooms = d.rooms
      ∧ (d.recordCharge room key kind lines clamped p cls).nodes = d.nodes
      ∧ (d.recordCharge room key kind lines clamped p cls).segments = d.segments
      ∧ (d.recordCharge room key kind lines clamped p cls).tariff = d.tariff
      ∧ (d.recordCharge room key kind lines clamped p cls).sessionLimit = d.sessionLimit
      ∧ (d.recordCharge room key kind lines clamped p cls).clock = d.clock
      ∧ (d.recordCharge room key kind lines clamped p cls).fire = d.fire
      ∧ (d.recordCharge room key kind lines clamped p cls).storm = d.storm
      ∧ (d.recordCharge room key kind lines clamped p cls).reports = d.reports := by
  refine ⟨?_, ?_, ?_, ?_, ?_, ?_, ?_, ?_, ?_, ?_, ?_, ?_, ?_⟩ <;>
    (unfold Device.recordCharge; split <;> simp)

@[simp] theorem Device.recordLate_frame (d : Device) (room key : Nat) (lines : List ChargeLine) (clamped : Bool) (cls : RecordClass) :
    (d.recordLate room key lines clamped cls).regs = d.regs ∧ (d.recordLate room key lines clamped cls).resetHeld = d.resetHeld
      ∧ (d.recordLate room key lines clamped cls).walker = d.walker ∧ (d.recordLate room key lines clamped cls).creds = d.creds
      ∧ (d.recordLate room key lines clamped cls).rooms = d.rooms ∧ (d.recordLate room key lines clamped cls).nodes = d.nodes
      ∧ (d.recordLate room key lines clamped cls).segments = d.segments
      ∧ (d.recordLate room key lines clamped cls).tariff = d.tariff
      ∧ (d.recordLate room key lines clamped cls).sessionLimit = d.sessionLimit
      ∧ (d.recordLate room key lines clamped cls).clock = d.clock ∧ (d.recordLate room key lines clamped cls).fire = d.fire
      ∧ (d.recordLate room key lines clamped cls).storm = d.storm
      ∧ (d.recordLate room key lines clamped cls).reports = d.reports := by
  refine ⟨?_, ?_, ?_, ?_, ?_, ?_, ?_, ?_, ?_, ?_, ?_, ?_, ?_⟩ <;>
    (unfold Device.recordLate; split <;> simp)

@[simp] theorem Device.relockIf_frame (d : Device) (key : Nat) (closed : Bool) :
    (d.relockIf key closed).regs = d.regs ∧ (d.relockIf key closed).resetHeld = d.resetHeld
      ∧ (d.relockIf key closed).walker = d.walker ∧ (d.relockIf key closed).creds = d.creds
      ∧ (d.relockIf key closed).rooms = d.rooms ∧ (d.relockIf key closed).nodes = d.nodes
      ∧ (d.relockIf key closed).tariff = d.tariff ∧ (d.relockIf key closed).sessionLimit = d.sessionLimit
      ∧ (d.relockIf key closed).journal = d.journal ∧ (d.relockIf key closed).clock = d.clock
      ∧ (d.relockIf key closed).fire = d.fire ∧ (d.relockIf key closed).storm = d.storm := by
  refine ⟨?_, ?_, ?_, ?_, ?_, ?_, ?_, ?_, ?_, ?_, ?_, ?_⟩ <;>
    (unfold Device.relockIf; split <;> simp)

@[simp] theorem Device.giveBackIf_frame (d : Device) (lines : List ChargeLine) :
    (d.giveBackIf lines).regs = d.regs ∧ (d.giveBackIf lines).resetHeld = d.resetHeld ∧ (d.giveBackIf lines).walker = d.walker
      ∧ (d.giveBackIf lines).creds = d.creds ∧ (d.giveBackIf lines).rooms = d.rooms ∧ (d.giveBackIf lines).nodes = d.nodes
      ∧ (d.giveBackIf lines).segments = d.segments ∧ (d.giveBackIf lines).tariff = d.tariff
      ∧ (d.giveBackIf lines).sessionLimit = d.sessionLimit ∧ (d.giveBackIf lines).clock = d.clock
      ∧ (d.giveBackIf lines).fire = d.fire ∧ (d.giveBackIf lines).storm = d.storm ∧ (d.giveBackIf lines).reports = d.reports := by
  refine ⟨?_, ?_, ?_, ?_, ?_, ?_, ?_, ?_, ?_, ?_, ?_, ?_, ?_⟩ <;>
    (unfold Device.giveBackIf; split <;> simp)

@[simp] theorem Device.settleTally_frame (d : Device) (room : Nat) (r : Room) (key : Nat) (closed : Bool) (counts : List (BitVec 4)) :
    (d.settleTally room r key closed counts).regs = d.regs ∧ (d.settleTally room r key closed counts).resetHeld = d.resetHeld
      ∧ (d.settleTally room r key closed counts).walker = d.walker ∧ (d.settleTally room r key closed counts).creds = d.creds
      ∧ (d.settleTally room r key closed counts).nodes = d.nodes ∧ (d.settleTally room r key closed counts).tariff = d.tariff
      ∧ (d.settleTally room r key closed counts).sessionLimit = d.sessionLimit
      ∧ (d.settleTally room r key closed counts).clock = d.clock ∧ (d.settleTally room r key closed counts).fire = d.fire
      ∧ (d.settleTally room r key closed counts).storm = d.storm := by
  refine ⟨?_, ?_, ?_, ?_, ?_, ?_, ?_, ?_, ?_, ?_⟩ <;>
    (unfold Device.settleTally; (repeat' split) <;> simp)

@[simp] theorem Device.takeTally_frame (d : Device) (key : Nat) (closed : Bool) (counts : List (BitVec 4)) :
    (d.takeTally key closed counts).1.regs = d.regs ∧ (d.takeTally key closed counts).1.resetHeld = d.resetHeld
      ∧ (d.takeTally key closed counts).1.walker = d.walker ∧ (d.takeTally key closed counts).1.creds = d.creds
      ∧ (d.takeTally key closed counts).1.tariff = d.tariff ∧ (d.takeTally key closed counts).1.sessionLimit = d.sessionLimit
      ∧ (d.takeTally key closed counts).1.clock = d.clock ∧ (d.takeTally key closed counts).1.fire = d.fire
      ∧ (d.takeTally key closed counts).1.storm = d.storm := by
  refine ⟨?_, ?_, ?_, ?_, ?_, ?_, ?_, ?_, ?_⟩ <;>
    (unfold Device.takeTally; split <;> simp)

@[simp] theorem Device.fireChanged_frame (d : Device) (before after : HouseModes) (cause : HouseCause) :
    (d.fireChanged before after cause).resetHeld = d.resetHeld ∧ (d.fireChanged before after cause).walker = d.walker
      ∧ (d.fireChanged before after cause).creds = d.creds ∧ (d.fireChanged before after cause).rooms = d.rooms
      ∧ (d.fireChanged before after cause).tariff = d.tariff ∧ (d.fireChanged before after cause).sessionLimit = d.sessionLimit
      ∧ (d.fireChanged before after cause).clock = d.clock ∧ (d.fireChanged before after cause).fire = d.fire
      ∧ (d.fireChanged before after cause).storm = d.storm := by
  simp [Device.fireChanged]

@[simp] theorem Device.stormChanged_frame (d : Device) (before after : HouseModes) (cause : HouseCause) :
    (d.stormChanged before after cause).resetHeld = d.resetHeld ∧ (d.stormChanged before after cause).walker = d.walker
      ∧ (d.stormChanged before after cause).creds = d.creds ∧ (d.stormChanged before after cause).rooms = d.rooms
      ∧ (d.stormChanged before after cause).tariff = d.tariff
      ∧ (d.stormChanged before after cause).sessionLimit = d.sessionLimit ∧ (d.stormChanged before after cause).clock = d.clock
      ∧ (d.stormChanged before after cause).fire = d.fire ∧ (d.stormChanged before after cause).storm = d.storm := by
  simp [Device.stormChanged]

@[simp] theorem Device.houseChanges_frame (d : Device) (before : HouseModes) (cause : HouseCause) :
    (d.houseChanges before cause).resetHeld = d.resetHeld ∧ (d.houseChanges before cause).walker = d.walker
      ∧ (d.houseChanges before cause).creds = d.creds ∧ (d.houseChanges before cause).rooms = d.rooms
      ∧ (d.houseChanges before cause).tariff = d.tariff ∧ (d.houseChanges before cause).sessionLimit = d.sessionLimit
      ∧ (d.houseChanges before cause).clock = d.clock ∧ (d.houseChanges before cause).fire = d.fire
      ∧ (d.houseChanges before cause).storm = d.storm := by
  refine ⟨?_, ?_, ?_, ?_, ?_, ?_, ?_, ?_, ?_⟩ <;>
    (unfold Device.houseChanges; dsimp only; (repeat' split) <;> simp)

@[simp] theorem Device.setHouse_frame (d : Device) (p : Pin) (h : House) :
    (d.setHouse p h).regs = d.regs ∧ (d.setHouse p h).resetHeld = d.resetHeld ∧ (d.setHouse p h).walker = d.walker
      ∧ (d.setHouse p h).creds = d.creds ∧ (d.setHouse p h).rooms = d.rooms ∧ (d.setHouse p h).nodes = d.nodes
      ∧ (d.setHouse p h).segments = d.segments ∧ (d.setHouse p h).tariff = d.tariff
      ∧ (d.setHouse p h).sessionLimit = d.sessionLimit ∧ (d.setHouse p h).journal = d.journal ∧ (d.setHouse p h).clock = d.clock
      ∧ (d.setHouse p h).reports = d.reports := by
  refine ⟨?_, ?_, ?_, ?_, ?_, ?_, ?_, ?_, ?_, ?_, ?_, ?_⟩ <;>
    (unfold Device.setHouse; split <;> simp)

@[simp] theorem Device.inputEdge_frame (d : Device) (p : Pin) (level : Level) :
    (d.inputEdge p level).resetHeld = d.resetHeld ∧ (d.inputEdge p level).walker = d.walker
      ∧ (d.inputEdge p level).creds = d.creds ∧ (d.inputEdge p level).rooms = d.rooms ∧ (d.inputEdge p level).tariff = d.tariff
      ∧ (d.inputEdge p level).sessionLimit = d.sessionLimit ∧ (d.inputEdge p level).clock = d.clock := by
  refine ⟨?_, ?_, ?_, ?_, ?_, ?_, ?_⟩ <;>
    (unfold Device.inputEdge; split <;> simp)

@[simp] theorem Device.inputSettled_frame (d : Device) (p : Pin) :
    (d.inputSettled p).resetHeld = d.resetHeld ∧ (d.inputSettled p).walker = d.walker ∧ (d.inputSettled p).creds = d.creds
      ∧ (d.inputSettled p).rooms = d.rooms ∧ (d.inputSettled p).tariff = d.tariff
      ∧ (d.inputSettled p).sessionLimit = d.sessionLimit ∧ (d.inputSettled p).clock = d.clock := by
  refine ⟨?_, ?_, ?_, ?_, ?_, ?_, ?_⟩ <;>
    (unfold Device.inputSettled; split <;> simp)

@[simp] theorem Device.recordClock_frame (d : Device) (old : Clock) :
    (d.recordClock old).regs = d.regs ∧ (d.recordClock old).resetHeld = d.resetHeld ∧ (d.recordClock old).walker = d.walker
      ∧ (d.recordClock old).creds = d.creds ∧ (d.recordClock old).rooms = d.rooms ∧ (d.recordClock old).nodes = d.nodes
      ∧ (d.recordClock old).segments = d.segments ∧ (d.recordClock old).tariff = d.tariff
      ∧ (d.recordClock old).sessionLimit = d.sessionLimit ∧ (d.recordClock old).clock = d.clock
      ∧ (d.recordClock old).fire = d.fire ∧ (d.recordClock old).storm = d.storm ∧ (d.recordClock old).reports = d.reports := by
  refine ⟨?_, ?_, ?_, ?_, ?_, ?_, ?_, ?_, ?_, ?_, ?_, ?_, ?_⟩ <;>
    (unfold Device.recordClock; split <;> simp)

@[simp] theorem Device.minuteTick_frame (d : Device) :
    d.minuteTick.resetHeld = d.resetHeld ∧ d.minuteTick.walker = d.walker ∧ d.minuteTick.creds = d.creds
      ∧ d.minuteTick.rooms = d.rooms ∧ d.minuteTick.tariff = d.tariff ∧ d.minuteTick.sessionLimit = d.sessionLimit
      ∧ d.minuteTick.fire = d.fire ∧ d.minuteTick.storm = d.storm := by
  simp [Device.minuteTick]

@[simp] theorem Device.countGuest_frame (d : Device) (e : Entry) :
    (d.countGuest e).regs = d.regs ∧ (d.countGuest e).resetHeld = d.resetHeld ∧ (d.countGuest e).walker = d.walker
      ∧ (d.countGuest e).creds = d.creds ∧ (d.countGuest e).nodes = d.nodes ∧ (d.countGuest e).segments = d.segments
      ∧ (d.countGuest e).tariff = d.tariff ∧ (d.countGuest e).sessionLimit = d.sessionLimit
      ∧ (d.countGuest e).journal = d.journal ∧ (d.countGuest e).clock = d.clock ∧ (d.countGuest e).fire = d.fire
      ∧ (d.countGuest e).storm = d.storm ∧ (d.countGuest e).reports = d.reports := by
  refine ⟨?_, ?_, ?_, ?_, ?_, ?_, ?_, ?_, ?_, ?_, ?_, ?_, ?_⟩ <;>
    (unfold Device.countGuest; split <;> simp)

@[simp] theorem Device.freeEntry_frame (d : Device) (serial : Word) (e : Entry) :
    (d.freeEntry serial e).regs = d.regs ∧ (d.freeEntry serial e).resetHeld = d.resetHeld
      ∧ (d.freeEntry serial e).walker = d.walker ∧ (d.freeEntry serial e).nodes = d.nodes
      ∧ (d.freeEntry serial e).segments = d.segments ∧ (d.freeEntry serial e).tariff = d.tariff
      ∧ (d.freeEntry serial e).sessionLimit = d.sessionLimit ∧ (d.freeEntry serial e).journal = d.journal
      ∧ (d.freeEntry serial e).clock = d.clock ∧ (d.freeEntry serial e).fire = d.fire ∧ (d.freeEntry serial e).storm = d.storm
      ∧ (d.freeEntry serial e).reports = d.reports := by
  refine ⟨?_, ?_, ?_, ?_, ?_, ?_, ?_, ?_, ?_, ?_, ?_, ?_⟩ <;>
    (unfold Device.freeEntry; split <;> simp)

@[simp] theorem Device.startEncoding_frame (d : Device) (key : Nat) (i : Issue) :
    (d.startEncoding key i).regs = d.regs ∧ (d.startEncoding key i).resetHeld = d.resetHeld
      ∧ (d.startEncoding key i).walker = d.walker ∧ (d.startEncoding key i).rooms = d.rooms
      ∧ (d.startEncoding key i).nodes = d.nodes ∧ (d.startEncoding key i).tariff = d.tariff
      ∧ (d.startEncoding key i).sessionLimit = d.sessionLimit ∧ (d.startEncoding key i).journal = d.journal
      ∧ (d.startEncoding key i).clock = d.clock ∧ (d.startEncoding key i).fire = d.fire
      ∧ (d.startEncoding key i).storm = d.storm := by
  simp [Device.startEncoding]

@[simp] theorem Device.nextEncoding_frame (d : Device) (key : Nat) :
    (d.nextEncoding key).regs = d.regs ∧ (d.nextEncoding key).resetHeld = d.resetHeld ∧ (d.nextEncoding key).walker = d.walker
      ∧ (d.nextEncoding key).rooms = d.rooms ∧ (d.nextEncoding key).nodes = d.nodes ∧ (d.nextEncoding key).tariff = d.tariff
      ∧ (d.nextEncoding key).sessionLimit = d.sessionLimit ∧ (d.nextEncoding key).journal = d.journal
      ∧ (d.nextEncoding key).clock = d.clock ∧ (d.nextEncoding key).fire = d.fire ∧ (d.nextEncoding key).storm = d.storm := by
  refine ⟨?_, ?_, ?_, ?_, ?_, ?_, ?_, ?_, ?_, ?_, ?_⟩ <;>
    (unfold Device.nextEncoding; (repeat' split) <;> simp)

@[simp] theorem Device.failIssue_frame (d : Device) (i : Issue) (code : ResultCode) :
    (d.failIssue i code).regs = d.regs ∧ (d.failIssue i code).resetHeld = d.resetHeld ∧ (d.failIssue i code).nodes = d.nodes
      ∧ (d.failIssue i code).segments = d.segments ∧ (d.failIssue i code).tariff = d.tariff
      ∧ (d.failIssue i code).sessionLimit = d.sessionLimit ∧ (d.failIssue i code).clock = d.clock
      ∧ (d.failIssue i code).fire = d.fire ∧ (d.failIssue i code).storm = d.storm ∧ (d.failIssue i code).reports = d.reports := by
  refine ⟨?_, ?_, ?_, ?_, ?_, ?_, ?_, ?_, ?_, ?_⟩ <;>
    (unfold Device.failIssue; (repeat' split) <;> simp)

@[simp] theorem Device.cancelEncoding_frame (d : Device) (serial : Word) (e : Entry) :
    (d.cancelEncoding serial e).1.regs = d.regs ∧ (d.cancelEncoding serial e).1.resetHeld = d.resetHeld
      ∧ (d.cancelEncoding serial e).1.walker = d.walker ∧ (d.cancelEncoding serial e).1.nodes = d.nodes
      ∧ (d.cancelEncoding serial e).1.tariff = d.tariff ∧ (d.cancelEncoding serial e).1.sessionLimit = d.sessionLimit
      ∧ (d.cancelEncoding serial e).1.journal = d.journal ∧ (d.cancelEncoding serial e).1.clock = d.clock
      ∧ (d.cancelEncoding serial e).1.fire = d.fire ∧ (d.cancelEncoding serial e).1.storm = d.storm := by
  refine ⟨?_, ?_, ?_, ?_, ?_, ?_, ?_, ?_, ?_, ?_⟩ <;>
    (unfold Device.cancelEncoding; (repeat' split) <;> simp)

@[simp] theorem Device.retire_frame (d : Device) (serial : Word) (event : CardEvent) (tag : Word) :
    (d.retire serial event tag).1.regs = d.regs ∧ (d.retire serial event tag).1.resetHeld = d.resetHeld
      ∧ (d.retire serial event tag).1.walker = d.walker ∧ (d.retire serial event tag).1.nodes = d.nodes
      ∧ (d.retire serial event tag).1.tariff = d.tariff ∧ (d.retire serial event tag).1.sessionLimit = d.sessionLimit
      ∧ (d.retire serial event tag).1.clock = d.clock ∧ (d.retire serial event tag).1.fire = d.fire
      ∧ (d.retire serial event tag).1.storm = d.storm := by
  refine ⟨?_, ?_, ?_, ?_, ?_, ?_, ?_, ?_, ?_⟩ <;>
    (unfold Device.retire; (repeat' split) <;> simp)

@[simp] theorem Device.retireAll_frame (d : Device) (event : CardEvent) (tag : Word) (ss : List Word) :
    (d.retireAll event tag ss).1.regs = d.regs ∧ (d.retireAll event tag ss).1.resetHeld = d.resetHeld
      ∧ (d.retireAll event tag ss).1.walker = d.walker ∧ (d.retireAll event tag ss).1.nodes = d.nodes
      ∧ (d.retireAll event tag ss).1.tariff = d.tariff ∧ (d.retireAll event tag ss).1.sessionLimit = d.sessionLimit
      ∧ (d.retireAll event tag ss).1.clock = d.clock ∧ (d.retireAll event tag ss).1.fire = d.fire
      ∧ (d.retireAll event tag ss).1.storm = d.storm := by
  refine ⟨?_, ?_, ?_, ?_, ?_, ?_, ?_, ?_, ?_⟩ <;>
    (induction ss generalizing d with | nil => rfl | cons s rest ih => simp [Device.retireAll, ih])

@[simp] theorem Device.supersede_frame (d : Device) (serial : Word) (e : Entry) :
    (d.supersede serial e).1.regs = d.regs ∧ (d.supersede serial e).1.resetHeld = d.resetHeld
      ∧ (d.supersede serial e).1.nodes = d.nodes ∧ (d.supersede serial e).1.tariff = d.tariff
      ∧ (d.supersede serial e).1.sessionLimit = d.sessionLimit ∧ (d.supersede serial e).1.clock = d.clock
      ∧ (d.supersede serial e).1.fire = d.fire ∧ (d.supersede serial e).1.storm = d.storm := by
  unfold Device.supersede
  dsimp only
  refine ⟨?_, ?_, ?_, ?_, ?_, ?_, ?_, ?_⟩
  · rw [foldl_leaves _ Device.regs (fun _ _ => by simp)]; simp
  · rw [foldl_leaves _ Device.resetHeld (fun _ _ => by simp)]; simp
  · rw [foldl_leaves _ Device.nodes (fun _ _ => by simp)]; simp
  · rw [foldl_leaves _ Device.tariff (fun _ _ => by simp)]; simp
  · rw [foldl_leaves _ Device.sessionLimit (fun _ _ => by simp)]; simp
  · rw [foldl_leaves _ Device.clock (fun _ _ => by simp)]; simp
  · rw [foldl_leaves _ Device.fire (fun _ _ => by simp)]; simp
  · rw [foldl_leaves _ Device.storm (fun _ _ => by simp)]; simp

@[simp] theorem Device.issueWritten_frame (d : Device) (i : Issue) :
    (d.issueWritten i).regs = d.regs ∧ (d.issueWritten i).resetHeld = d.resetHeld ∧ (d.issueWritten i).nodes = d.nodes
      ∧ (d.issueWritten i).tariff = d.tariff ∧ (d.issueWritten i).sessionLimit = d.sessionLimit
      ∧ (d.issueWritten i).clock = d.clock ∧ (d.issueWritten i).fire = d.fire ∧ (d.issueWritten i).storm = d.storm := by
  refine ⟨?_, ?_, ?_, ?_, ?_, ?_, ?_, ?_⟩ <;>
    (unfold Device.issueWritten; (repeat' split) <;> simp)

@[simp] theorem Device.takeResult_frame (d : Device) (key : Nat) (result : EncResult) :
    (d.takeResult key result).1.regs = d.regs ∧ (d.takeResult key result).1.resetHeld = d.resetHeld
      ∧ (d.takeResult key result).1.nodes = d.nodes ∧ (d.takeResult key result).1.tariff = d.tariff
      ∧ (d.takeResult key result).1.sessionLimit = d.sessionLimit ∧ (d.takeResult key result).1.clock = d.clock
      ∧ (d.takeResult key result).1.fire = d.fire ∧ (d.takeResult key result).1.storm = d.storm := by
  refine ⟨?_, ?_, ?_, ?_, ?_, ?_, ?_, ?_⟩ <;>
    (unfold Device.takeResult; (repeat' split) <;> simp)

@[simp] theorem Device.encodingExpired_frame (d : Device) (key : Nat) :
    (d.encodingExpired key).regs = d.regs ∧ (d.encodingExpired key).resetHeld = d.resetHeld
      ∧ (d.encodingExpired key).nodes = d.nodes ∧ (d.encodingExpired key).tariff = d.tariff
      ∧ (d.encodingExpired key).sessionLimit = d.sessionLimit ∧ (d.encodingExpired key).clock = d.clock
      ∧ (d.encodingExpired key).fire = d.fire ∧ (d.encodingExpired key).storm = d.storm := by
  refine ⟨?_, ?_, ?_, ?_, ?_, ?_, ?_, ?_⟩ <;>
    (unfold Device.encodingExpired; (repeat' split) <;> simp)

@[simp] theorem Device.encoderFault_frame (d : Device) (key : Nat) :
    (d.encoderFault key).regs = d.regs ∧ (d.encoderFault key).resetHeld = d.resetHeld ∧ (d.encoderFault key).nodes = d.nodes
      ∧ (d.encoderFault key).segments = d.segments ∧ (d.encoderFault key).tariff = d.tariff
      ∧ (d.encoderFault key).sessionLimit = d.sessionLimit ∧ (d.encoderFault key).clock = d.clock
      ∧ (d.encoderFault key).fire = d.fire ∧ (d.encoderFault key).storm = d.storm ∧ (d.encoderFault key).reports = d.reports := by
  unfold Device.encoderFault
  split
  · simp
  · refine ⟨?_, ?_, ?_, ?_, ?_, ?_, ?_, ?_, ?_, ?_⟩
    · exact foldl_leaves _ Device.regs (fun _ _ => by simp) _ _
    · exact foldl_leaves _ Device.resetHeld (fun _ _ => by simp) _ _
    · exact foldl_leaves _ Device.nodes (fun _ _ => by simp) _ _
    · exact foldl_leaves _ Device.segments (fun _ _ => by simp) _ _
    · exact foldl_leaves _ Device.tariff (fun _ _ => by simp) _ _
    · exact foldl_leaves _ Device.sessionLimit (fun _ _ => by simp) _ _
    · exact foldl_leaves _ Device.clock (fun _ _ => by simp) _ _
    · exact foldl_leaves _ Device.fire (fun _ _ => by simp) _ _
    · exact foldl_leaves _ Device.storm (fun _ _ => by simp) _ _
    · exact foldl_leaves _ Device.reports (fun _ _ => by simp) _ _

@[simp] theorem Device.encodeAnswered_frame (d : Device) (key job : Nat) :
    (d.encodeAnswered key job).regs = d.regs ∧ (d.encodeAnswered key job).resetHeld = d.resetHeld
      ∧ (d.encodeAnswered key job).walker = d.walker ∧ (d.encodeAnswered key job).rooms = d.rooms
      ∧ (d.encodeAnswered key job).nodes = d.nodes ∧ (d.encodeAnswered key job).segments = d.segments
      ∧ (d.encodeAnswered key job).tariff = d.tariff ∧ (d.encodeAnswered key job).sessionLimit = d.sessionLimit
      ∧ (d.encodeAnswered key job).journal = d.journal ∧ (d.encodeAnswered key job).clock = d.clock
      ∧ (d.encodeAnswered key job).fire = d.fire ∧ (d.encodeAnswered key job).storm = d.storm
      ∧ (d.encodeAnswered key job).reports = d.reports := by
  refine ⟨?_, ?_, ?_, ?_, ?_, ?_, ?_, ?_, ?_, ?_, ?_, ?_, ?_⟩ <;>
    (unfold Device.encodeAnswered; split <;> simp)

@[simp] theorem Device.encodeUndelivered_frame (d : Device) (key job : Nat) :
    (d.encodeUndelivered key job).regs = d.regs ∧ (d.encodeUndelivered key job).resetHeld = d.resetHeld
      ∧ (d.encodeUndelivered key job).nodes = d.nodes ∧ (d.encodeUndelivered key job).segments = d.segments
      ∧ (d.encodeUndelivered key job).tariff = d.tariff ∧ (d.encodeUndelivered key job).sessionLimit = d.sessionLimit
      ∧ (d.encodeUndelivered key job).clock = d.clock ∧ (d.encodeUndelivered key job).fire = d.fire
      ∧ (d.encodeUndelivered key job).storm = d.storm ∧ (d.encodeUndelivered key job).reports = d.reports := by
  refine ⟨?_, ?_, ?_, ?_, ?_, ?_, ?_, ?_, ?_, ?_⟩ <;>
    (unfold Device.encodeUndelivered; split <;> simp)

@[simp] theorem Device.encoderNodeChanged_frame (d : Device) (key : Nat) (after : NodeState) :
    (d.encoderNodeChanged key after).regs = d.regs ∧ (d.encoderNodeChanged key after).resetHeld = d.resetHeld
      ∧ (d.encoderNodeChanged key after).nodes = d.nodes ∧ (d.encoderNodeChanged key after).segments = d.segments
      ∧ (d.encoderNodeChanged key after).tariff = d.tariff ∧ (d.encoderNodeChanged key after).sessionLimit = d.sessionLimit
      ∧ (d.encoderNodeChanged key after).clock = d.clock ∧ (d.encoderNodeChanged key after).fire = d.fire
      ∧ (d.encoderNodeChanged key after).storm = d.storm ∧ (d.encoderNodeChanged key after).reports = d.reports := by
  refine ⟨?_, ?_, ?_, ?_, ?_, ?_, ?_, ?_, ?_, ?_⟩ <;>
    (unfold Device.encoderNodeChanged; split <;> simp)

@[simp] theorem Device.purge_frame (d : Device) (tag : Word) :
    (d.purge tag).regs = d.regs ∧ (d.purge tag).resetHeld = d.resetHeld ∧ (d.purge tag).walker = d.walker
      ∧ (d.purge tag).nodes = d.nodes ∧ (d.purge tag).segments = d.segments ∧ (d.purge tag).tariff = d.tariff
      ∧ (d.purge tag).sessionLimit = d.sessionLimit ∧ (d.purge tag).clock = d.clock ∧ (d.purge tag).fire = d.fire
      ∧ (d.purge tag).storm = d.storm ∧ (d.purge tag).reports = d.reports := by
  refine ⟨?_, ?_, ?_, ?_, ?_, ?_, ?_, ?_, ?_, ?_, ?_⟩ <;>
    (unfold Device.purge; (repeat' split) <;> simp)

@[simp] theorem Device.joinEncoder_frame (d : Device) (key : Nat) (i : Issue) :
    (d.joinEncoder key i).regs = d.regs ∧ (d.joinEncoder key i).resetHeld = d.resetHeld
      ∧ (d.joinEncoder key i).walker = d.walker ∧ (d.joinEncoder key i).rooms = d.rooms ∧ (d.joinEncoder key i).nodes = d.nodes
      ∧ (d.joinEncoder key i).tariff = d.tariff ∧ (d.joinEncoder key i).sessionLimit = d.sessionLimit
      ∧ (d.joinEncoder key i).journal = d.journal ∧ (d.joinEncoder key i).clock = d.clock ∧ (d.joinEncoder key i).fire = d.fire
      ∧ (d.joinEncoder key i).storm = d.storm := by
  refine ⟨?_, ?_, ?_, ?_, ?_, ?_, ?_, ?_, ?_, ?_, ?_⟩ <;>
    (unfold Device.joinEncoder; (repeat' split) <;> simp)

@[simp] theorem Device.acceptIssue_frame (d : Device) (ctx : OrderContext) (key : Nat) (serial : Word) (e : Entry) (sup : Bool) :
    (d.acceptIssue ctx key serial e sup).regs = d.regs ∧ (d.acceptIssue ctx key serial e sup).resetHeld = d.resetHeld
      ∧ (d.acceptIssue ctx key serial e sup).walker = d.walker ∧ (d.acceptIssue ctx key serial e sup).nodes = d.nodes
      ∧ (d.acceptIssue ctx key serial e sup).tariff = d.tariff
      ∧ (d.acceptIssue ctx key serial e sup).sessionLimit = d.sessionLimit
      ∧ (d.acceptIssue ctx key serial e sup).clock = d.clock ∧ (d.acceptIssue ctx key serial e sup).fire = d.fire
      ∧ (d.acceptIssue ctx key serial e sup).storm = d.storm := by
  simp [Device.acceptIssue]

@[simp] theorem Device.freeAtReset_frame (d : Device) (serial : Nat) :
    (d.freeAtReset serial).regs = d.regs ∧ (d.freeAtReset serial).resetHeld = d.resetHeld
      ∧ (d.freeAtReset serial).walker = d.walker ∧ (d.freeAtReset serial).nodes = d.nodes
      ∧ (d.freeAtReset serial).segments = d.segments ∧ (d.freeAtReset serial).tariff = d.tariff
      ∧ (d.freeAtReset serial).sessionLimit = d.sessionLimit ∧ (d.freeAtReset serial).journal = d.journal
      ∧ (d.freeAtReset serial).clock = d.clock ∧ (d.freeAtReset serial).fire = d.fire ∧ (d.freeAtReset serial).storm = d.storm
      ∧ (d.freeAtReset serial).reports = d.reports := by
  refine ⟨?_, ?_, ?_, ?_, ?_, ?_, ?_, ?_, ?_, ?_, ?_, ?_⟩ <;>
    (unfold Device.freeAtReset; (repeat' split) <;> simp)

@[simp] theorem Device.resetCredentials_frame (d : Device) :
    d.resetCredentials.regs = d.regs ∧ d.resetCredentials.resetHeld = d.resetHeld ∧ d.resetCredentials.walker = d.walker
      ∧ d.resetCredentials.nodes = d.nodes ∧ d.resetCredentials.segments = d.segments ∧ d.resetCredentials.tariff = d.tariff
      ∧ d.resetCredentials.sessionLimit = d.sessionLimit ∧ d.resetCredentials.journal = d.journal
      ∧ d.resetCredentials.clock = d.clock ∧ d.resetCredentials.fire = d.fire ∧ d.resetCredentials.storm = d.storm
      ∧ d.resetCredentials.reports = d.reports := by
  unfold Device.resetCredentials
  dsimp only
  refine ⟨?_, ?_, ?_, ?_, ?_, ?_, ?_, ?_, ?_, ?_, ?_, ?_⟩
  · exact foldl_leaves _ Device.regs (fun _ _ => by simp) _ _
  · exact foldl_leaves _ Device.resetHeld (fun _ _ => by simp) _ _
  · exact foldl_leaves _ Device.walker (fun _ _ => by simp) _ _
  · exact foldl_leaves _ Device.nodes (fun _ _ => by simp) _ _
  · exact foldl_leaves _ Device.segments (fun _ _ => by simp) _ _
  · exact foldl_leaves _ Device.tariff (fun _ _ => by simp) _ _
  · exact foldl_leaves _ Device.sessionLimit (fun _ _ => by simp) _ _
  · exact foldl_leaves _ Device.journal (fun _ _ => by simp) _ _
  · exact foldl_leaves _ Device.clock (fun _ _ => by simp) _ _
  · exact foldl_leaves _ Device.fire (fun _ _ => by simp) _ _
  · exact foldl_leaves _ Device.storm (fun _ _ => by simp) _ _
  · exact foldl_leaves _ Device.reports (fun _ _ => by simp) _ _

@[simp] theorem Device.decideCard_frame (d : Device) (key : Nat) (n : Node) (i : CardImage) :
    (d.decideCard key n i).1.regs = d.regs ∧ (d.decideCard key n i).1.resetHeld = d.resetHeld
      ∧ (d.decideCard key n i).1.walker = d.walker ∧ (d.decideCard key n i).1.creds = d.creds
      ∧ (d.decideCard key n i).1.nodes = d.nodes ∧ (d.decideCard key n i).1.tariff = d.tariff
      ∧ (d.decideCard key n i).1.sessionLimit = d.sessionLimit ∧ (d.decideCard key n i).1.clock = d.clock
      ∧ (d.decideCard key n i).1.fire = d.fire ∧ (d.decideCard key n i).1.storm = d.storm := by
  refine ⟨?_, ?_, ?_, ?_, ?_, ?_, ?_, ?_, ?_, ?_⟩ <;>
    (unfold Device.decideCard; dsimp only; (repeat' split) <;> simp)

@[simp] theorem Device.takePresent_frame (d : Device) (key : Nat) (n : Node) (i : CardImage) :
    (d.takePresent key n i).1.resetHeld = d.resetHeld ∧ (d.takePresent key n i).1.walker = d.walker
      ∧ (d.takePresent key n i).1.creds = d.creds ∧ (d.takePresent key n i).1.tariff = d.tariff
      ∧ (d.takePresent key n i).1.sessionLimit = d.sessionLimit ∧ (d.takePresent key n i).1.clock = d.clock
      ∧ (d.takePresent key n i).1.fire = d.fire ∧ (d.takePresent key n i).1.storm = d.storm := by
  refine ⟨?_, ?_, ?_, ?_, ?_, ?_, ?_, ?_⟩ <;>
    (unfold Device.takePresent; dsimp only; (repeat' split) <;> simp)

@[simp] theorem Device.takeButton_frame (d : Device) (key : Nat) (on : Bool) :
    (d.takeButton key on).1.regs = d.regs ∧ (d.takeButton key on).1.resetHeld = d.resetHeld
      ∧ (d.takeButton key on).1.walker = d.walker ∧ (d.takeButton key on).1.creds = d.creds
      ∧ (d.takeButton key on).1.nodes = d.nodes ∧ (d.takeButton key on).1.segments = d.segments
      ∧ (d.takeButton key on).1.tariff = d.tariff ∧ (d.takeButton key on).1.sessionLimit = d.sessionLimit
      ∧ (d.takeButton key on).1.clock = d.clock ∧ (d.takeButton key on).1.fire = d.fire
      ∧ (d.takeButton key on).1.storm = d.storm ∧ (d.takeButton key on).1.reports = d.reports := by
  refine ⟨?_, ?_, ?_, ?_, ?_, ?_, ?_, ?_, ?_, ?_, ?_, ?_⟩ <;>
    (unfold Device.takeButton; (repeat' split) <;> simp)

@[simp] theorem Device.orphanBar_frame (d : Device) (r : Room) :
    (d.orphanBar r).regs = d.regs ∧ (d.orphanBar r).resetHeld = d.resetHeld ∧ (d.orphanBar r).walker = d.walker
      ∧ (d.orphanBar r).creds = d.creds ∧ (d.orphanBar r).rooms = d.rooms ∧ (d.orphanBar r).nodes = d.nodes
      ∧ (d.orphanBar r).tariff = d.tariff ∧ (d.orphanBar r).sessionLimit = d.sessionLimit ∧ (d.orphanBar r).clock = d.clock
      ∧ (d.orphanBar r).fire = d.fire ∧ (d.orphanBar r).storm = d.storm := by
  refine ⟨?_, ?_, ?_, ?_, ?_, ?_, ?_, ?_, ?_, ?_, ?_⟩ <;>
    (unfold Device.orphanBar; split <;> simp)

@[simp] theorem Device.ownerTold_frame (d : Device) (key : Nat) (before after : NodeState) :
    (d.ownerTold key before after).resetHeld = d.resetHeld ∧ (d.ownerTold key before after).tariff = d.tariff
      ∧ (d.ownerTold key before after).sessionLimit = d.sessionLimit ∧ (d.ownerTold key before after).clock = d.clock
      ∧ (d.ownerTold key before after).fire = d.fire ∧ (d.ownerTold key before after).storm = d.storm := by
  refine ⟨?_, ?_, ?_, ?_, ?_, ?_⟩ <;>
    (unfold Device.ownerTold; (repeat' split) <;> simp)

@[simp] theorem Device.commandAnswered_frame (d : Device) (key : Nat) (c : Command) :
    (d.commandAnswered key c).resetHeld = d.resetHeld ∧ (d.commandAnswered key c).walker = d.walker
      ∧ (d.commandAnswered key c).tariff = d.tariff ∧ (d.commandAnswered key c).sessionLimit = d.sessionLimit
      ∧ (d.commandAnswered key c).clock = d.clock ∧ (d.commandAnswered key c).fire = d.fire
      ∧ (d.commandAnswered key c).storm = d.storm := by
  refine ⟨?_, ?_, ?_, ?_, ?_, ?_, ?_⟩ <;>
    (unfold Device.commandAnswered; split <;> simp)

@[simp] theorem Device.commandUndelivered_frame (d : Device) (key : Nat) (c : Command) :
    (d.commandUndelivered key c).resetHeld = d.resetHeld ∧ (d.commandUndelivered key c).tariff = d.tariff
      ∧ (d.commandUndelivered key c).sessionLimit = d.sessionLimit ∧ (d.commandUndelivered key c).clock = d.clock
      ∧ (d.commandUndelivered key c).fire = d.fire ∧ (d.commandUndelivered key c).storm = d.storm := by
  refine ⟨?_, ?_, ?_, ?_, ?_, ?_⟩ <;>
    (unfold Device.commandUndelivered; split <;> simp)

@[simp] theorem Device.deliver_frame (d : Device) (rs : List Report) :
    (d.deliver rs).resetHeld = d.resetHeld ∧ (d.deliver rs).tariff = d.tariff ∧ (d.deliver rs).sessionLimit = d.sessionLimit
      ∧ (d.deliver rs).clock = d.clock ∧ (d.deliver rs).fire = d.fire ∧ (d.deliver rs).storm = d.storm := by
  exact ⟨foldl_leaves _ Device.resetHeld (fun _ _ => by simp) _ _,
    foldl_leaves _ Device.tariff (fun _ _ => by simp) _ _,
    foldl_leaves _ Device.sessionLimit (fun _ _ => by simp) _ _,
    foldl_leaves _ Device.clock (fun _ _ => by simp) _ _,
    foldl_leaves _ Device.fire (fun _ _ => by simp) _ _,
    foldl_leaves _ Device.storm (fun _ _ => by simp) _ _⟩

@[simp] theorem Device.deliverRound_frame (d : Device) :
    d.deliverRound.resetHeld = d.resetHeld ∧ d.deliverRound.tariff = d.tariff ∧ d.deliverRound.sessionLimit = d.sessionLimit
      ∧ d.deliverRound.clock = d.clock ∧ d.deliverRound.fire = d.fire ∧ d.deliverRound.storm = d.storm := by
  simp [Device.deliverRound]

@[simp] theorem Device.takeReports_frame (d : Device) :
    d.takeReports.resetHeld = d.resetHeld ∧ d.takeReports.tariff = d.tariff ∧ d.takeReports.sessionLimit = d.sessionLimit
      ∧ d.takeReports.clock = d.clock ∧ d.takeReports.fire = d.fire ∧ d.takeReports.storm = d.storm := by
  simp [Device.takeReports]

@[simp] theorem Device.oweAck_frame (d : Device) (key : Nat) (seq : BitVec 4) (signal : Signal) :
    (d.oweAck key seq signal).regs = d.regs ∧ (d.oweAck key seq signal).resetHeld = d.resetHeld
      ∧ (d.oweAck key seq signal).walker = d.walker ∧ (d.oweAck key seq signal).creds = d.creds
      ∧ (d.oweAck key seq signal).rooms = d.rooms ∧ (d.oweAck key seq signal).segments = d.segments
      ∧ (d.oweAck key seq signal).tariff = d.tariff ∧ (d.oweAck key seq signal).sessionLimit = d.sessionLimit
      ∧ (d.oweAck key seq signal).journal = d.journal ∧ (d.oweAck key seq signal).clock = d.clock
      ∧ (d.oweAck key seq signal).fire = d.fire ∧ (d.oweAck key seq signal).storm = d.storm
      ∧ (d.oweAck key seq signal).reports = d.reports := by
  simp [Device.oweAck]

@[simp] theorem Device.handReport_frame (d : Device) (key : Nat) (n : Node) (b : ReportBody) :
    (d.handReport key n b).1.resetHeld = d.resetHeld ∧ (d.handReport key n b).1.tariff = d.tariff
      ∧ (d.handReport key n b).1.sessionLimit = d.sessionLimit ∧ (d.handReport key n b).1.clock = d.clock
      ∧ (d.handReport key n b).1.fire = d.fire ∧ (d.handReport key n b).1.storm = d.storm := by
  refine ⟨?_, ?_, ?_, ?_, ?_, ?_⟩ <;>
    (unfold Device.handReport; (repeat' split) <;> simp)

@[simp] theorem Device.acceptReport_frame (d : Device) (key : Nat) (n : Node) (seq : BitVec 4) (b : ReportBody) :
    (d.acceptReport key n seq b).resetHeld = d.resetHeld ∧ (d.acceptReport key n seq b).tariff = d.tariff
      ∧ (d.acceptReport key n seq b).sessionLimit = d.sessionLimit ∧ (d.acceptReport key n seq b).clock = d.clock
      ∧ (d.acceptReport key n seq b).fire = d.fire ∧ (d.acceptReport key n seq b).storm = d.storm := by
  simp [Device.acceptReport]

@[simp] theorem Device.takeReport_frame (d : Device) (key : Nat) (seq : BitVec 4) (b : ReportBody) :
    (d.takeReport key seq b).resetHeld = d.resetHeld ∧ (d.takeReport key seq b).tariff = d.tariff
      ∧ (d.takeReport key seq b).sessionLimit = d.sessionLimit ∧ (d.takeReport key seq b).clock = d.clock
      ∧ (d.takeReport key seq b).fire = d.fire ∧ (d.takeReport key seq b).storm = d.storm := by
  refine ⟨?_, ?_, ?_, ?_, ?_, ?_⟩ <;>
    (unfold Device.takeReport; (repeat' split) <;> simp)

@[simp] theorem Device.heardFrom_frame (d : Device) (key : Nat) (n : Node) :
    (d.heardFrom key n).resetHeld = d.resetHeld ∧ (d.heardFrom key n).tariff = d.tariff
      ∧ (d.heardFrom key n).sessionLimit = d.sessionLimit ∧ (d.heardFrom key n).clock = d.clock
      ∧ (d.heardFrom key n).fire = d.fire ∧ (d.heardFrom key n).storm = d.storm := by
  refine ⟨?_, ?_, ?_, ?_, ?_, ?_⟩ <;>
    (unfold Device.heardFrom; split <;> simp)

@[simp] theorem Device.carriedAnswered_frame (d : Device) (key : Nat) (x : Exchange) :
    (d.carriedAnswered key x).resetHeld = d.resetHeld ∧ (d.carriedAnswered key x).walker = d.walker
      ∧ (d.carriedAnswered key x).tariff = d.tariff ∧ (d.carriedAnswered key x).sessionLimit = d.sessionLimit
      ∧ (d.carriedAnswered key x).clock = d.clock ∧ (d.carriedAnswered key x).fire = d.fire
      ∧ (d.carriedAnswered key x).storm = d.storm := by
  refine ⟨?_, ?_, ?_, ?_, ?_, ?_, ?_⟩ <;>
    (unfold Device.carriedAnswered; split <;> simp)

@[simp] theorem Device.answer_frame (d : Device) (seg : Nat) (attention : Bool) (report : Option (BitVec 4 × ReportBody)) :
    (d.answer seg attention report).resetHeld = d.resetHeld ∧ (d.answer seg attention report).tariff = d.tariff
      ∧ (d.answer seg attention report).sessionLimit = d.sessionLimit ∧ (d.answer seg attention report).clock = d.clock
      ∧ (d.answer seg attention report).fire = d.fire ∧ (d.answer seg attention report).storm = d.storm := by
  refine ⟨?_, ?_, ?_, ?_, ?_, ?_⟩ <;>
    (unfold Device.answer; dsimp only; (repeat' split) <;> simp)

@[simp] theorem Device.recordMiss_frame (d : Device) (key : Nat) (r : Option (NodeEvent × Nat × Bool)) :
    (d.recordMiss key r).resetHeld = d.resetHeld ∧ (d.recordMiss key r).walker = d.walker ∧ (d.recordMiss key r).creds = d.creds
      ∧ (d.recordMiss key r).rooms = d.rooms ∧ (d.recordMiss key r).nodes = d.nodes ∧ (d.recordMiss key r).segments = d.segments
      ∧ (d.recordMiss key r).tariff = d.tariff ∧ (d.recordMiss key r).sessionLimit = d.sessionLimit
      ∧ (d.recordMiss key r).clock = d.clock ∧ (d.recordMiss key r).fire = d.fire ∧ (d.recordMiss key r).storm = d.storm
      ∧ (d.recordMiss key r).reports = d.reports := by
  refine ⟨?_, ?_, ?_, ?_, ?_, ?_, ?_, ?_, ?_, ?_, ?_, ?_⟩ <;>
    (unfold Device.recordMiss; (repeat' split) <;> simp)

@[simp] theorem Device.tellMiss_frame (d : Device) (key : Nat) (before after : NodeState) (cs : List Command) (undeliveredFirst : Bool) :
    (d.tellMiss key before after cs undeliveredFirst).resetHeld = d.resetHeld
      ∧ (d.tellMiss key before after cs undeliveredFirst).tariff = d.tariff
      ∧ (d.tellMiss key before after cs undeliveredFirst).sessionLimit = d.sessionLimit
      ∧ (d.tellMiss key before after cs undeliveredFirst).clock = d.clock
      ∧ (d.tellMiss key before after cs undeliveredFirst).fire = d.fire
      ∧ (d.tellMiss key before after cs undeliveredFirst).storm = d.storm := by
  refine ⟨?_, ?_, ?_, ?_, ?_, ?_⟩ <;>
    (unfold Device.tellMiss; split <;> simp)

@[simp] theorem Device.missAt_frame (d : Device) (seg : Nat) (x : Exchange) (n : Node) (undeliveredFirst : Bool) :
    (d.missAt seg x n undeliveredFirst).resetHeld = d.resetHeld ∧ (d.missAt seg x n undeliveredFirst).tariff = d.tariff
      ∧ (d.missAt seg x n undeliveredFirst).sessionLimit = d.sessionLimit ∧ (d.missAt seg x n undeliveredFirst).clock = d.clock
      ∧ (d.missAt seg x n undeliveredFirst).fire = d.fire ∧ (d.missAt seg x n undeliveredFirst).storm = d.storm := by
  refine ⟨?_, ?_, ?_, ?_, ?_, ?_⟩ <;>
    (unfold Device.missAt; dsimp only; split <;> simp)

@[simp] theorem Device.miss_frame (d : Device) (seg : Nat) (frame : Option (List Byte)) (undeliveredFirst : Bool) :
    (d.miss seg frame undeliveredFirst).resetHeld = d.resetHeld ∧ (d.miss seg frame undeliveredFirst).tariff = d.tariff
      ∧ (d.miss seg frame undeliveredFirst).sessionLimit = d.sessionLimit ∧ (d.miss seg frame undeliveredFirst).clock = d.clock
      ∧ (d.miss seg frame undeliveredFirst).fire = d.fire ∧ (d.miss seg frame undeliveredFirst).storm = d.storm := by
  refine ⟨?_, ?_, ?_, ?_, ?_, ?_⟩ <;>
    (unfold Device.miss; dsimp only; (repeat' split) <;> simp [Device.answerBytes])

@[simp] theorem Device.retryExpired_frame (d : Device) (key : Nat) :
    (d.retryExpired key).resetHeld = d.resetHeld ∧ (d.retryExpired key).tariff = d.tariff
      ∧ (d.retryExpired key).sessionLimit = d.sessionLimit ∧ (d.retryExpired key).clock = d.clock
      ∧ (d.retryExpired key).fire = d.fire ∧ (d.retryExpired key).storm = d.storm := by
  refine ⟨?_, ?_, ?_, ?_, ?_, ?_⟩ <;>
    (unfold Device.retryExpired; (repeat' split) <;> simp)

@[simp] theorem Device.dropNode_frame (d : Device) (key : Nat) :
    (d.dropNode key).regs = d.regs ∧ (d.dropNode key).resetHeld = d.resetHeld ∧ (d.dropNode key).walker = d.walker
      ∧ (d.dropNode key).tariff = d.tariff ∧ (d.dropNode key).sessionLimit = d.sessionLimit
      ∧ (d.dropNode key).journal = d.journal ∧ (d.dropNode key).clock = d.clock ∧ (d.dropNode key).fire = d.fire
      ∧ (d.dropNode key).storm = d.storm ∧ (d.dropNode key).reports = d.reports := by
  simp [Device.dropNode]

@[simp] theorem Device.createEncoder_frame (d : Device) (key : Nat) (k : NodeKind) :
    (d.createEncoder key k).regs = d.regs ∧ (d.createEncoder key k).resetHeld = d.resetHeld
      ∧ (d.createEncoder key k).walker = d.walker ∧ (d.createEncoder key k).rooms = d.rooms
      ∧ (d.createEncoder key k).nodes = d.nodes ∧ (d.createEncoder key k).segments = d.segments
      ∧ (d.createEncoder key k).tariff = d.tariff ∧ (d.createEncoder key k).sessionLimit = d.sessionLimit
      ∧ (d.createEncoder key k).journal = d.journal ∧ (d.createEncoder key k).clock = d.clock
      ∧ (d.createEncoder key k).fire = d.fire ∧ (d.createEncoder key k).storm = d.storm
      ∧ (d.createEncoder key k).reports = d.reports := by
  refine ⟨?_, ?_, ?_, ?_, ?_, ?_, ?_, ?_, ?_, ?_, ?_, ?_, ?_⟩ <;>
    (unfold Device.createEncoder; split <;> simp)

theorem Device.attentionTurn_frame (d d' : Device) (seg : Nat) (mode : SchedMode) (members : List Nat)
    (h : d.attentionTurn seg mode members = some d') :
    d'.regs = d.regs ∧ d'.resetHeld = d.resetHeld ∧ d'.walker = d.walker ∧ d'.creds = d.creds ∧ d'.rooms = d.rooms
      ∧ d'.tariff = d.tariff ∧ d'.sessionLimit = d.sessionLimit ∧ d'.journal = d.journal ∧ d'.clock = d.clock ∧ d'.fire = d.fire
      ∧ d'.storm = d.storm ∧ d'.reports = d.reports := by
  unfold Device.attentionTurn at h
  (repeat' split at h) <;> cases h <;> simp

@[simp] theorem Device.turn_frame (d : Device) (seg : Nat) :
    (d.turn seg).regs = d.regs ∧ (d.turn seg).resetHeld = d.resetHeld ∧ (d.turn seg).walker = d.walker
      ∧ (d.turn seg).creds = d.creds ∧ (d.turn seg).rooms = d.rooms ∧ (d.turn seg).tariff = d.tariff
      ∧ (d.turn seg).sessionLimit = d.sessionLimit ∧ (d.turn seg).journal = d.journal ∧ (d.turn seg).clock = d.clock
      ∧ (d.turn seg).fire = d.fire ∧ (d.turn seg).storm = d.storm ∧ (d.turn seg).reports = d.reports := by
  unfold Device.turn
  dsimp only
  repeat' split
  all_goals first
    | simp
    | exact Device.attentionTurn_frame _ _ _ _ _ ‹_›

@[simp] theorem Device.clearPassOver_frame (d : Device) (seg : Nat) :
    (d.clearPassOver seg).regs = d.regs ∧ (d.clearPassOver seg).resetHeld = d.resetHeld
      ∧ (d.clearPassOver seg).walker = d.walker ∧ (d.clearPassOver seg).creds = d.creds ∧ (d.clearPassOver seg).rooms = d.rooms
      ∧ (d.clearPassOver seg).segments = d.segments ∧ (d.clearPassOver seg).tariff = d.tariff
      ∧ (d.clearPassOver seg).sessionLimit = d.sessionLimit ∧ (d.clearPassOver seg).journal = d.journal
      ∧ (d.clearPassOver seg).clock = d.clock ∧ (d.clearPassOver seg).fire = d.fire ∧ (d.clearPassOver seg).storm = d.storm
      ∧ (d.clearPassOver seg).reports = d.reports := by
  simp [Device.clearPassOver]

@[simp] theorem Device.tellDisabled_frame (d : Device) (p : Nat × NodeState) :
    (d.tellDisabled p).resetHeld = d.resetHeld ∧ (d.tellDisabled p).tariff = d.tariff
      ∧ (d.tellDisabled p).sessionLimit = d.sessionLimit ∧ (d.tellDisabled p).clock = d.clock ∧ (d.tellDisabled p).fire = d.fire
      ∧ (d.tellDisabled p).storm = d.storm := by
  refine ⟨?_, ?_, ?_, ?_, ?_, ?_⟩ <;>
    (unfold Device.tellDisabled; split <;> simp)

@[simp] theorem Device.disableSegment_frame (d : Device) (seg : Nat) :
    (d.disableSegment seg).resetHeld = d.resetHeld ∧ (d.disableSegment seg).tariff = d.tariff
      ∧ (d.disableSegment seg).sessionLimit = d.sessionLimit ∧ (d.disableSegment seg).clock = d.clock
      ∧ (d.disableSegment seg).fire = d.fire ∧ (d.disableSegment seg).storm = d.storm := by
  unfold Device.disableSegment
  dsimp only
  refine ⟨?_, ?_, ?_, ?_, ?_, ?_⟩
  · rw [foldl_leaves _ Device.resetHeld (fun _ _ => by simp)]; simp
  · rw [foldl_leaves _ Device.tariff (fun _ _ => by simp)]; simp
  · rw [foldl_leaves _ Device.sessionLimit (fun _ _ => by simp)]; simp
  · rw [foldl_leaves _ Device.clock (fun _ _ => by simp)]; simp
  · rw [foldl_leaves _ Device.fire (fun _ _ => by simp)]; simp
  · rw [foldl_leaves _ Device.storm (fun _ _ => by simp)]; simp

@[simp] theorem Device.applySegment_frame (d : Device) (seg : Nat) (st : SegmentSettings) :
    (d.applySegment seg st).resetHeld = d.resetHeld ∧ (d.applySegment seg st).tariff = d.tariff
      ∧ (d.applySegment seg st).sessionLimit = d.sessionLimit ∧ (d.applySegment seg st).clock = d.clock
      ∧ (d.applySegment seg st).fire = d.fire ∧ (d.applySegment seg st).storm = d.storm := by
  refine ⟨?_, ?_, ?_, ?_, ?_, ?_⟩ <;>
    (unfold Device.applySegment; dsimp only; (repeat' split) <;> simp)

@[simp] theorem Device.applySegments_frame (d : Device) (seg : Nat) (sts : List SegmentSettings) :
    (d.applySegments seg sts).resetHeld = d.resetHeld ∧ (d.applySegments seg sts).tariff = d.tariff
      ∧ (d.applySegments seg sts).sessionLimit = d.sessionLimit ∧ (d.applySegments seg sts).clock = d.clock
      ∧ (d.applySegments seg sts).fire = d.fire ∧ (d.applySegments seg sts).storm = d.storm := by
  refine ⟨?_, ?_, ?_, ?_, ?_, ?_⟩ <;>
    (induction sts generalizing d seg with | nil => rfl | cons st rest ih => simp [Device.applySegments, ih])

@[simp] theorem Device.setupReread_frame (d : Device) (mark : Option Word) :
    (d.setupReread mark).resetHeld = d.resetHeld ∧ (d.setupReread mark).walker = d.walker ∧ (d.setupReread mark).creds = d.creds
      ∧ (d.setupReread mark).rooms = d.rooms ∧ (d.setupReread mark).nodes = d.nodes ∧ (d.setupReread mark).segments = d.segments
      ∧ (d.setupReread mark).tariff = d.tariff ∧ (d.setupReread mark).sessionLimit = d.sessionLimit
      ∧ (d.setupReread mark).clock = d.clock ∧ (d.setupReread mark).fire = d.fire ∧ (d.setupReread mark).storm = d.storm
      ∧ (d.setupReread mark).reports = d.reports := by
  refine ⟨?_, ?_, ?_, ?_, ?_, ?_, ?_, ?_, ?_, ?_, ?_, ?_⟩ <;>
    (unfold Device.setupReread; split <;> simp)

@[simp] theorem Device.latchStall_frame (b d : Device) :
    (Device.latchStall b d).resetHeld = d.resetHeld ∧ (Device.latchStall b d).walker = d.walker
      ∧ (Device.latchStall b d).creds = d.creds ∧ (Device.latchStall b d).rooms = d.rooms
      ∧ (Device.latchStall b d).nodes = d.nodes ∧ (Device.latchStall b d).segments = d.segments
      ∧ (Device.latchStall b d).tariff = d.tariff ∧ (Device.latchStall b d).sessionLimit = d.sessionLimit
      ∧ (Device.latchStall b d).journal = d.journal ∧ (Device.latchStall b d).clock = d.clock
      ∧ (Device.latchStall b d).fire = d.fire ∧ (Device.latchStall b d).storm = d.storm
      ∧ (Device.latchStall b d).reports = d.reports := by
  refine ⟨?_, ?_, ?_, ?_, ?_, ?_, ?_, ?_, ?_, ?_, ?_, ?_, ?_⟩ <;>
    (unfold Device.latchStall; split <;> simp)

@[simp] theorem Device.tickIfDue_frame (d : Device) :
    d.tickIfDue.resetHeld = d.resetHeld ∧ d.tickIfDue.walker = d.walker ∧ d.tickIfDue.creds = d.creds
      ∧ d.tickIfDue.rooms = d.rooms ∧ d.tickIfDue.tariff = d.tariff ∧ d.tickIfDue.sessionLimit = d.sessionLimit
      ∧ d.tickIfDue.fire = d.fire ∧ d.tickIfDue.storm = d.storm := by
  refine ⟨?_, ?_, ?_, ?_, ?_, ?_, ?_, ?_⟩ <;>
    (unfold Device.tickIfDue; split <;> simp)

@[simp] theorem Device.pulseTimers_frame (d : Device) :
    d.pulseTimers.regs = d.regs ∧ d.pulseTimers.resetHeld = d.resetHeld ∧ d.pulseTimers.walker = d.walker
      ∧ d.pulseTimers.segments = d.segments ∧ d.pulseTimers.tariff = d.tariff ∧ d.pulseTimers.sessionLimit = d.sessionLimit
      ∧ d.pulseTimers.clock = d.clock ∧ d.pulseTimers.fire = d.fire ∧ d.pulseTimers.storm = d.storm
      ∧ d.pulseTimers.reports = d.reports := by
  simp [Device.pulseTimers]

@[simp] theorem Device.settledIf_frame (d : Device) (any : Bool) :
    (d.settledIf any).resetHeld = d.resetHeld ∧ (d.settledIf any).walker = d.walker ∧ (d.settledIf any).creds = d.creds
      ∧ (d.settledIf any).rooms = d.rooms ∧ (d.settledIf any).nodes = d.nodes ∧ (d.settledIf any).segments = d.segments
      ∧ (d.settledIf any).tariff = d.tariff ∧ (d.settledIf any).sessionLimit = d.sessionLimit
      ∧ (d.settledIf any).journal = d.journal ∧ (d.settledIf any).clock = d.clock ∧ (d.settledIf any).fire = d.fire
      ∧ (d.settledIf any).storm = d.storm ∧ (d.settledIf any).reports = d.reports := by
  refine ⟨?_, ?_, ?_, ?_, ?_, ?_, ?_, ?_, ?_, ?_, ?_, ?_, ?_⟩ <;>
    (unfold Device.settledIf; split <;> simp)

end Sys2Proof.Machine
end

