-- ==== Sys2Proof/Laws/Orders.lean ====
section
/-! SUPPORT. A command as a whole: what carrying one out adds to its effect, how an order's step reaches its owner, and what handing a
command to a node can do. -/

namespace Sys2Proof.Machine

/-! ## Carrying a command out -/

/-- With no report waiting there is nothing to take. -/
theorem Device.takeReports_of_nil {d : Device} (h : d.reports = []) : d.takeReports = d := by
  cases d
  cases h
  rfl

@[simp] theorem Device.takeReports_reports (d : Device) : d.takeReports.reports = [] := rfl

@[simp] theorem Device.latchStall_status (b d : Device) :
    (Device.latchStall b d).regs.status = stallStatus b.journal d.journal d.regs.status := by
  unfold Device.latchStall stallStatus
  by_cases h : b.journal.load < Config.stallMark ∧ Config.stallMark ≤ d.journal.load
  · simp [h.1, h.2]
  · rw [if_neg h, if_neg]
    simpa using h

/-- JOURNAL_STALL is all that carrying a command out can add to the registers (R133). -/
theorem Device.latchStall_eq (b d : Device) :
    Device.latchStall b d = { d with regs := { d.regs with status := stallStatus b.journal d.journal d.regs.status } } := by
  unfold Device.latchStall stallStatus
  by_cases h : b.journal.load < Config.stallMark ∧ Config.stallMark ≤ d.journal.load
  · simp [h.1, h.2]
    rfl
  · rw [if_neg h, if_neg]
    simpa using h

/-- A step that brings no load to the journal latches nothing. -/
theorem stallStatus_of_load_le {before after : Journal} (status : Word) (h : after.load ≤ before.load) :
    stallStatus before after status = status := by
  unfold stallStatus
  rw [if_neg]
  omega

/-- A command carried out answers a next state, its own effect with JOURNAL_STALL as R133 has it, where its effect leaves no report. -/
theorem commit_of_settled (s : State) (f : State → State) (h : (f s).dev.reports = []) :
    commit s f = .next { f s with
      dev := { (f s).dev with
        regs := { (f s).dev.regs with
          status := stallStatus s.dev.journal (f s).dev.journal (f s).dev.regs.status } } } := by
  have e : commit s f = .next { f s with dev := Device.latchStall s.dev (f s).dev.takeReports } := rfl
  rw [e, Device.takeReports_of_nil h, Device.latchStall_eq]

/-- A command carried out whose effect leaves the journal alone, and leaves no report, answers its own effect. -/
theorem commit_of_journal_eq (s : State) (f : State → State) (h : (f s).dev.reports = []) (hj : (f s).dev.journal = s.dev.journal) :
    commit s f = .next (f s) := by
  rw [commit_of_settled s f h, hj, stallStatus_of_load_le _ (Nat.le_refl _)]

/-- A command carried out that has no effect changes nothing. -/
theorem commit_unchanged (s : State) (f : State → State) (hf : f s = s) (h : s.settled) : commit s f = .next s := by
  rw [commit_of_journal_eq s f (by rw [hf]; exact h) (by rw [hf]), hf]

/-- Every command carried out answers a next state in which no report waits, its queue and board memory those of its own effect. -/
theorem commit_next (s : State) (f : State → State) :
    ∃ t, commit s f = .next t ∧ t.pending = (f s).pending ∧ t.mem = (f s).mem
      ∧ t.dev = Device.latchStall s.dev (f s).dev.takeReports :=
  ⟨_, rfl, rfl, rfl, rfl⟩

/-! ## An order's step -/

/-- An order in hand is carried out by its owner, and its answer is issued (R182, R183). -/
theorem Device.runOrder_inHand {d : Device} {kind : OrderKind} {block tag : Word} {abort : Bool} (params : Nat)
    (owner : OrderContext → Device → Device × Reply) (h : d.walker.walk = .walking block abort (.handed kind tag)) :
    d.runOrder kind params owner
      = (owner { block := block, tag := tag } d).1.setPhase block abort
          (.writing (replyWrites block params (owner { block := block, tag := tag } d).2)) := by
  unfold Device.runOrder
  rw [h]
  simp

/-- An order's command answers a next state where its owner's step leaves no report. -/
theorem commit_order {s : State} {kind : OrderKind} {block tag : Word} {abort : Bool} {params : Nat}
    {owner : OrderContext → Device → Device × Reply} {d' : Device} {r : Reply}
    (h : s.dev.walker.walk = .walking block abort (.handed kind tag)) (ho : owner { block := block, tag := tag } s.dev = (d', r))
    (hr : d'.reports = []) :
    commit s (fun t => t.onDevice (fun d => d.runOrder kind params owner))
      = .next { s with
          dev := { d' with
            walker := d'.walker.replied block abort params r
            regs := { d'.regs with status := stallStatus s.dev.journal d'.journal d'.regs.status } } } := by
  have e : ((fun t : State => t.onDevice (fun d => d.runOrder kind params owner)) s).dev
      = d'.setPhase block abort (.writing (replyWrites block params r)) := by
    simp only [State.onDevice_dev]
    rw [Device.runOrder_inHand params owner h, ho]
  rw [commit_of_settled s _ (by rw [e]; exact hr)]
  simp only [e]
  rfl

/-! ## A command handed for a node (R155) -/

/-- All that handing a command can do: nothing for an undefined node; a report for a node out of service or on a disabled segment; and
otherwise a place in the segment's queue. -/
theorem Device.hand_cases (d : Device) (key : Nat) (c : Command) :
    (Table.find key d.nodes = none ∧ d.hand key c = d)
    ∨ (∃ n, Table.find key d.nodes = some n ∧ (n.state.isOut = true ∨ (d.segment (keySeg key)).isDisabled = true)
        ∧ d.hand key c = { d with reports := d.reports ++ [{ node := key, command := c }] })
    ∨ (∃ n, d.reachable key n
        ∧ d.hand key c = d.setSegment (keySeg key) ((d.segment (keySeg key)).place (keyAddr key) c)) := by
  unfold Device.hand
  split
  · next h => exact .inl ⟨h, rfl⟩
  · next n h =>
    split_ifs with hc
    · exact .inr (.inl ⟨n, h, by simpa using hc, rfl⟩)
    · simp only [Bool.or_eq_true, not_or, Bool.not_eq_true] at hc
      exact .inr (.inr ⟨n, ⟨h, hc.1, hc.2⟩, rfl⟩)

/-- A command handed for a reachable node takes its place in the queue, and no report is made. -/
theorem Device.hand_reachable {d : Device} {key : Nat} {n : Node} (c : Command) (h : d.reachable key n) :
    d.hand key c = d.setSegment (keySeg key) ((d.segment (keySeg key)).place (keyAddr key) c) := by
  obtain ⟨h1, h2, h3⟩ := h
  simp [Device.hand, h1, h2, h3]

/-- A command placed keeps the segment's settings. -/
@[simp] theorem Segment.place_frame (g : Segment) (addr : Nat) (c : Command) :
    (g.place addr c).settings = g.settings ∧ (g.place addr c).attention = g.attention ∧ (g.place addr c).presence = g.presence
      ∧ (g.place addr c).lastServed = g.lastServed ∧ (g.place addr c).sent = g.sent := by
  unfold Segment.place
  (repeat' split) <;> simp

@[simp] theorem Segment.place_isDisabled (g : Segment) (addr : Nat) (c : Command) : (g.place addr c).isDisabled = g.isDisabled := by
  simp [Segment.isDisabled]

/-- A segment read after one is replaced. -/
theorem Device.segment_setSegment (d : Device) (seg seg' : Nat) (x : Segment) :
    (d.setSegment seg x).segment seg' = if seg' = seg ∧ seg < d.segments.length then x else d.segment seg' := by
  unfold Device.segment Device.setSegment
  simp only [List.getD_eq_getElem?_getD, List.getElem?_set]
  by_cases h : seg = seg'
  · subst h
    by_cases h2 : seg < d.segments.length
    · simp [h2]
    · simp [h2]
  · have : ¬ seg' = seg := fun e => h e.symm
    simp [h, this]

/-- A node stays reachable when a command is handed for it. -/
theorem Device.reachable_hand {d : Device} {key key' : Nat} {n : Node} (c : Command) (h : d.reachable key n) :
    (d.hand key' c).reachable key n := by
  obtain ⟨h1, h2, h3⟩ := h
  refine ⟨by simpa using h1, h2, ?_⟩
  rcases d.hand_cases key' c with ⟨_, e⟩ | ⟨_, _, _, e⟩ | ⟨_, hr, e⟩
  · rw [e]; exact h3
  · rw [e]; exact h3
  · rw [e, Device.segment_setSegment]
    split_ifs with hs
    · rw [Segment.place_isDisabled, ← hs.1]; exact h3
    · exact h3

/-- Commands handed in turn for a reachable node make no report. -/
theorem Device.handAll_reports {d : Device} {key : Nat} {n : Node} (cs : List Command) (h : d.reachable key n) :
    (d.handAll key cs).reports = d.reports := by
  induction cs generalizing d with
  | nil => rfl
  | cons c rest ih =>
    have : d.handAll key (c :: rest) = (d.hand key c).handAll key rest := rfl
    rw [this, ih (Device.reachable_hand c h), Device.hand_reachable c h, Device.setSegment_reports]

/-! ## An event at a door -/

/-- The records of a fold of DOOR events leave everything but the journal alone. -/
theorem foldl_record_eq (d : Device) (es : List DoorEvent) (key : Nat) (st : DoorState) :
    es.foldl (fun acc e => acc.record (.door key e st) {} e.cls) d
      = { d with journal := (es.foldl (fun acc e => acc.record (.door key e st) {} e.cls) d).journal } := by
  induction es generalizing d with
  | nil => rfl
  | cons e rest ih =>
    rw [List.foldl_cons, ih]
    rfl

/-- What an outcome does at a door: the record replaced, the commands handed, DOOR_ALARM latched and the records written (R83). -/
theorem Device.applyDoor_eq (d : Device) (key : Nat) (out : Bool) (o : DoorOut) :
    d.applyDoor key out o
      = { d with
          nodes := Table.modify key (fun n => { n with door := some o.door }) d.nodes
          segments := (d.applyDoor key out o).segments
          reports := (d.applyDoor key out o).reports
          regs := (d.applyDoor key out o).regs
          journal := (d.applyDoor key out o).journal } := by
  have h := Device.applyDoor_frame d key out o
  have hn : (d.applyDoor key out o).nodes = Table.modify key (fun n => { n with door := some o.door }) d.nodes := by
    unfold Device.applyDoor
    dsimp only
    rw [foldl_leaves _ Device.nodes (fun _ _ => by simp)]
    (repeat' split) <;> simp
  obtain ⟨h1, h2, h3, h4, h5, h6, h7, h8, h9⟩ := h
  generalize d.applyDoor key out o = x at *
  cases x
  simp_all

@[simp] theorem Device.applyDoor_nodes (d : Device) (key : Nat) (out : Bool) (o : DoorOut) :
    (d.applyDoor key out o).nodes = Table.modify key (fun n => { n with door := some o.door }) d.nodes := by
  rw [Device.applyDoor_eq]

/-- DOOR_ALARM is all that an outcome at a door can latch (R72). -/
@[simp] theorem Device.applyDoor_regs (d : Device) (key : Nat) (out : Bool) (o : DoorOut) :
    (d.applyDoor key out o).regs = if o.alarm then (d.latch .doorAlarm).regs else d.regs := by
  unfold Device.applyDoor
  dsimp only
  rw [foldl_leaves _ Device.regs (fun _ _ => by simp)]
  split_ifs <;> simp

/-- An outcome without commands, and one at a node out of service, leaves the segments and the reports alone. -/
theorem Device.applyDoor_quiet (d : Device) (key : Nat) (out : Bool) (o : DoorOut) (h : out = true ∨ o.commands = []) :
    (d.applyDoor key out o).segments = d.segments ∧ (d.applyDoor key out o).reports = d.reports := by
  unfold Device.applyDoor
  dsimp only
  constructor
  · rw [foldl_leaves _ Device.segments (fun _ _ => by simp)]
    rcases h with h | h
    · subst h; simp; split_ifs <;> simp
    · rw [h]; simp [Device.handAll]; split_ifs <;> simp
  · rw [foldl_leaves _ Device.reports (fun _ _ => by simp)]
    rcases h with h | h
    · subst h; simp; split_ifs <;> simp
    · rw [h]; simp [Device.handAll]; split_ifs <;> simp

theorem Table.find_modify_isSome {α : Type} (key key' : Nat) (f : α → α) (t : Table α) :
    (Table.find key' (Table.modify key f t)).isSome = (Table.find key' t).isSome := by
  induction t with
  | nil => rfl
  | cons p rest ih =>
    obtain ⟨k, v⟩ := p
    unfold Table.modify at ih ⊢
    by_cases hk : k = key
    · by_cases hk' : k = key' <;> simp_all [Table.find]
    · by_cases hk' : k = key' <;> simp_all [Table.find]

end Sys2Proof.Machine
end

