-- ==== Sys2Proof/Laws/Tables.lean ====
section
/-! SUPPORT. Tables and board memory: what a read gives after an update, and that every update keeps the one form of a table. -/

namespace Sys2Proof.Machine

variable {α : Type}

/-! ## Reading -/

@[simp] theorem Table.find_nil (key : Nat) : Table.find key ([] : Table α) = none := rfl

theorem Table.find_put_self (key : Nat) (x : α) (t : Table α) : Table.find key (Table.put key x t) = some x := by
  induction t with
  | nil => simp [Table.put, Table.find]
  | cons p rest ih =>
    obtain ⟨k, v⟩ := p
    unfold Table.put
    split_ifs with h1 h2
    · simp [Table.find]
    · simp [Table.find]
    · simp only [Table.find, if_neg (Ne.symm h2), ih]

theorem Table.find_put_ne {key key' : Nat} (x : α) (t : Table α) (h : key' ≠ key) :
    Table.find key' (Table.put key x t) = Table.find key' t := by
  induction t with
  | nil => simp [Table.put, Table.find, Ne.symm h]
  | cons p rest ih =>
    obtain ⟨k, v⟩ := p
    unfold Table.put
    split_ifs with h1 h2
    · simp [Table.find, Ne.symm h]
    · subst h2
      simp [Table.find, Ne.symm h]
    · simp only [Table.find, ih]

/-- A read after a put. -/
theorem Table.find_put (key key' : Nat) (x : α) (t : Table α) :
    Table.find key' (Table.put key x t) = if key' = key then some x else Table.find key' t := by
  split_ifs with h
  · rw [h, Table.find_put_self]
  · exact Table.find_put_ne x t h

theorem Table.find_erase_self (key : Nat) (t : Table α) : Table.find key (Table.erase key t) = none := by
  induction t with
  | nil => rfl
  | cons p rest ih =>
    unfold Table.erase at ih ⊢
    by_cases h : p.1 = key
    · simpa [h] using ih
    · simpa [h, Table.find] using ih

theorem Table.find_erase_ne {key key' : Nat} (t : Table α) (h : key' ≠ key) :
    Table.find key' (Table.erase key t) = Table.find key' t := by
  induction t with
  | nil => rfl
  | cons p rest ih =>
    unfold Table.erase at ih ⊢
    by_cases hp : p.1 = key
    · have : ¬ p.1 = key' := fun e => h (e.symm.trans hp)
      simpa [hp, Table.find, Ne.symm h] using ih
    · simp only [ne_eq, hp, not_false_eq_true, decide_true, List.filter_cons_of_pos, Table.find, ih]

/-- A read after a change of one value. -/
theorem Table.find_modify (key key' : Nat) (f : α → α) (t : Table α) :
    Table.find key' (Table.modify key f t) = if key' = key then (Table.find key t).map f else Table.find key' t := by
  induction t with
  | nil => simp [Table.modify, Table.find]
  | cons p rest ih =>
    obtain ⟨k, v⟩ := p
    unfold Table.modify at ih ⊢
    by_cases hk : k = key
    · subst hk
      by_cases hk' : key' = k
      · subst hk'; simp [Table.find]
      · simp only [List.map_cons, if_true, Table.find, if_neg (Ne.symm hk'), ih, if_neg hk']
    · by_cases hk' : k = key'
      · subst hk'
        simp [Table.find, hk]
      · simp only [List.map_cons, if_neg hk, Table.find, if_neg hk', ih]

theorem Table.find_modify_self (key : Nat) (f : α → α) (t : Table α) :
    Table.find key (Table.modify key f t) = (Table.find key t).map f := by
  rw [Table.find_modify, if_pos rfl]

theorem Table.find_modify_ne {key key' : Nat} (f : α → α) (t : Table α) (h : key' ≠ key) :
    Table.find key' (Table.modify key f t) = Table.find key' t := by
  rw [Table.find_modify, if_neg h]

theorem Table.find_mapVals (key : Nat) (f : Nat → α → α) (t : Table α) :
    Table.find key (Table.mapVals f t) = (Table.find key t).map (f key) := by
  induction t with
  | nil => rfl
  | cons p rest ih =>
    unfold Table.mapVals at ih ⊢
    by_cases h : p.1 = key
    · simp [Table.find, h]
    · simp only [List.map_cons, Table.find, if_neg h, ih]

/-- Only an entry of the table is read. -/
theorem Table.mem_of_find {key : Nat} {x : α} {t : Table α} (h : Table.find key t = some x) : (key, x) ∈ t := by
  induction t with
  | nil => simp at h
  | cons p rest ih =>
    obtain ⟨k, v⟩ := p
    unfold Table.find at h
    split_ifs at h with hk
    · simp at h; simp [hk, h]
    · exact List.mem_cons_of_mem _ (ih h)

/-! ## The one form -/

theorem Table.wf_iff (t : Table α) : Table.wf t = true ↔ t.Pairwise (fun a b => a.1 < b.1) := by
  simp [Table.wf]

/-- In a table of the one form each key has one value. -/
theorem Table.find_of_mem {t : Table α} (hw : Table.wf t = true) {key : Nat} {x : α} (h : (key, x) ∈ t) :
    Table.find key t = some x := by
  rw [Table.wf_iff] at hw
  induction t with
  | nil => simp at h
  | cons p rest ih =>
    obtain ⟨k, v⟩ := p
    rw [List.pairwise_cons] at hw
    rcases List.mem_cons.mp h with h | h
    · cases h; simp [Table.find]
    · have := hw.1 _ h
      simp only at this
      simp only [Table.find, if_neg (Nat.ne_of_lt this), ih hw.2 h]

theorem Table.mem_put {key : Nat} {x : α} {t : Table α} {p : Nat × α} (h : p ∈ Table.put key x t) :
    p = (key, x) ∨ p ∈ t := by
  induction t with
  | nil => simpa [Table.put] using h
  | cons q rest ih =>
    obtain ⟨k, v⟩ := q
    unfold Table.put at h
    split_ifs at h with h1 h2
    · simpa using h
    · rcases List.mem_cons.mp h with h | h
      · exact .inl h
      · exact .inr (List.mem_cons_of_mem _ h)
    · rcases List.mem_cons.mp h with h | h
      · exact .inr (h ▸ List.mem_cons_self)
      · exact (ih h).imp_right (List.mem_cons_of_mem _)

theorem Table.wf_put (key : Nat) (x : α) {t : Table α} (h : Table.wf t = true) : Table.wf (Table.put key x t) = true := by
  rw [Table.wf_iff] at h ⊢
  induction t with
  | nil => simp [Table.put]
  | cons p rest ih =>
    obtain ⟨k, v⟩ := p
    rw [List.pairwise_cons] at h
    unfold Table.put
    split_ifs with h1 h2
    · refine List.pairwise_cons.mpr ⟨fun q hq => ?_, List.pairwise_cons.mpr h⟩
      rcases List.mem_cons.mp hq with hq | hq
      · subst hq; exact h1
      · exact Nat.lt_trans h1 (h.1 q hq)
    · subst h2
      exact List.pairwise_cons.mpr ⟨h.1, h.2⟩
    · refine List.pairwise_cons.mpr ⟨fun q hq => ?_, ih h.2⟩
      rcases Table.mem_put hq with hq | hq
      · subst hq; simp only; omega
      · exact h.1 q hq

theorem Table.wf_erase (key : Nat) {t : Table α} (h : Table.wf t = true) : Table.wf (Table.erase key t) = true := by
  rw [Table.wf_iff] at h ⊢
  exact h.filter _

theorem Table.wf_modify (key : Nat) (f : α → α) {t : Table α} (h : Table.wf t = true) :
    Table.wf (Table.modify key f t) = true := by
  rw [Table.wf_iff] at h ⊢
  refine List.Pairwise.map _ (fun a b hab => ?_) h
  split_ifs <;> exact hab

theorem Table.wf_mapVals (f : Nat → α → α) {t : Table α} (h : Table.wf t = true) : Table.wf (Table.mapVals f t) = true := by
  rw [Table.wf_iff] at h ⊢
  exact List.Pairwise.map _ (fun a b hab => hab) h

/-- The size of a table after a put: one more where the key was free. -/
theorem Table.length_put_le (key : Nat) (x : α) (t : Table α) : (Table.put key x t).length ≤ t.length + 1 := by
  induction t with
  | nil => simp [Table.put]
  | cons p rest ih =>
    obtain ⟨k, v⟩ := p
    unfold Table.put
    split_ifs <;> simp <;> omega

/-! ## Board memory -/

@[simp] theorem Memory.accept_nil (mem : Table Byte) : Memory.accept mem [] = mem := rfl

theorem Memory.accept_cons (mem : Table Byte) (w : PortWrite) (ws : List PortWrite) :
    Memory.accept mem (w :: ws) = Memory.accept (Memory.writeWord mem w) ws := rfl

theorem Memory.accept_append (mem : Table Byte) (a b : List PortWrite) :
    Memory.accept mem (a ++ b) = Memory.accept (Memory.accept mem a) b := by
  simp [Memory.accept, List.foldl_append]

/-- A read after one accepted write of a word: the word's bytes at its four addresses, and every other byte as before. -/
theorem Memory.read_writeWord (mem : Table Byte) (w : PortWrite) (addr : Nat) :
    Memory.read (Memory.writeWord mem w) addr
      = if addr = (w.addr + 3).toNat then some (w.data.extractLsb' 24 8)
        else if addr = (w.addr + 2).toNat then some (w.data.extractLsb' 16 8)
        else if addr = (w.addr + 1).toNat then some (w.data.extractLsb' 8 8)
        else if addr = w.addr.toNat then some (w.data.extractLsb' 0 8)
        else Memory.read mem addr := by
  simp only [Memory.read, Memory.writeWord, Table.find_put]

/-- An accepted write keeps memory's one form. -/
theorem Memory.wf_writeWord {mem : Table Byte} (w : PortWrite) (h : Memory.wf mem = true) :
    Memory.wf (Memory.writeWord mem w) = true :=
  Table.wf_put _ _ (Table.wf_put _ _ (Table.wf_put _ _ (Table.wf_put _ _ h)))

/-- Accepted writes keep memory's one form. -/
theorem Memory.wf_accept {mem : Table Byte} (ws : List PortWrite) (h : Memory.wf mem = true) :
    Memory.wf (Memory.accept mem ws) = true := by
  induction ws generalizing mem with
  | nil => exact h
  | cons w rest ih => exact ih (Memory.wf_writeWord w h)

/-- A byte that no write names reads as before. -/
theorem Memory.read_accept_of_forall {mem : Table Byte} {ws : List PortWrite} {addr : Nat}
    (h : ∀ w ∈ ws, addr ≠ w.addr.toNat ∧ addr ≠ (w.addr + 1).toNat ∧ addr ≠ (w.addr + 2).toNat ∧ addr ≠ (w.addr + 3).toNat) :
    Memory.read (Memory.accept mem ws) addr = Memory.read mem addr := by
  induction ws generalizing mem with
  | nil => rfl
  | cons w rest ih =>
    obtain ⟨h0, h1, h2, h3⟩ := h w List.mem_cons_self
    rw [Memory.accept_cons, ih (fun x hx => h x (List.mem_cons_of_mem _ hx)), Memory.read_writeWord, if_neg h3, if_neg h2,
      if_neg h1, if_neg h0]

/-- The bytes of memory at reset: none, in the one form. -/
theorem Memory.wf_reset : Memory.wf State.reset.mem = true := rfl

end Sys2Proof.Machine
end

