-- ==== Sys2Proof/Laws/Doors.lean ====
section
/-! SUPPORT. What a door's outcome does to the device, and the outcomes that reports and grants give a door. -/

namespace Sys2Proof.Machine

open Sys2Proof

/-- Commands handed to a node of a segment that exists. -/
theorem Device.handAll_segments_within {d : Device} {key : Nat} {n : Node} (cs : List Command) (h : d.reachable key n) (hl : keySeg key <
    d.segments.length) :
   (d.handAll key cs).segments = if cs = [] then d.segments else d.segments.set (key / 256) (cs.foldl (fun g c => g.place (key % 256) c)
       (d.segment (key / 256))) := by
  induction cs generalizing d with
  | nil => rfl
  | cons c r ih =>
    have e : d.handAll key (c :: r) = (d.hand key c).handAll key r := rfl
    rw [e]
    have h2 := Device.reachable_hand (key' := key) c h
    have h1 := Device.hand_reachable c h
    rw [ih h2 (by rw [h1]; simpa using hl)]
    rw [h1]
    simp only [Device.setSegment_segments, List.foldl_cons, reduceCtorEq, if_false]
    by_cases hr : r = []
    · subst hr; rfl
    · rw [if_neg hr]
      show (d.segments.set (key/256) _).set (key / 256) _ = _
      rw [List.set_set]
      rw [show (key / 256) = keySeg key from rfl, Device.segment_setSegment, if_pos]
      · rfl
      · exact ⟨rfl, hl⟩

/-- Commands handed to a reachable node are placed in its segment, one after another. -/
theorem Device.handAll_segments {d : Device} {key : Nat} {n : Node} (cs : List Command) (h : d.reachable key n) :
   (d.handAll key cs).segments = if cs = [] then d.segments else d.segments.set (key / 256) (cs.foldl (fun g c => g.place (key % 256) c)
       (d.segment (key / 256))) := by
  by_cases hl : keySeg key < d.segments.length
  · exact Device.handAll_segments_within cs h hl
  · have : ∀ x, d.segments.set (key / 256) x = d.segments := fun x => List.set_eq_of_length_le (by unfold keySeg at hl; omega)
    rw [this, ite_self]
    clear * - h this
    induction cs generalizing d with
    | nil => rfl
    | cons c r ih =>
      have e : d.handAll key (c :: r) = (d.hand key c).handAll key r := rfl
      have h1 := Device.hand_reachable c h
      rw [e, ih (Device.reachable_hand c h), h1, Device.setSegment_segments]
      · exact this _
      · intro x; rw [h1, Device.setSegment_segments]; rw [show keySeg key = key / 256 from rfl, this, this]

/-- The door records of an outcome, their class written out: a hold's end ROUTINE, the others NOTABLE. -/
theorem Device.doorEvents_journal (es : List DoorEvent) (key st) (d d' : Device) (hj : d.journal = d'.journal) (hc : d.clock = d'.clock) :
   (es.foldl (fun acc e => acc.record (.door key e st) {} e.cls) d).journal = (es.foldl (fun acc e => acc.record (.door key e st) {} (if e
       = .holdEnd then .routine else .notable)) d').journal := by
  induction es generalizing d d' with
  | nil => exact hj
  | cons e r ih =>
    simp only [List.foldl_cons]
    apply ih
    · have : e.cls = if e = .holdEnd then .routine else .notable := by cases e <;> rfl
      simp only [Device.record, hj, hc, this]
    · simpa using hc

/-- The door records of an outcome without a hold's end are all NOTABLE. -/
theorem Device.doorEvents_notable (es : List DoorEvent) (key : Nat) (st : DoorState) (h : ∀ e ∈ es, e.cls = .notable) : ∀ (d d' : Device),
    d.journal = d'.journal → d.clock = d'.clock →
   (es.foldl (fun acc e => acc.record (.door key e st) {} (if e = .holdEnd then .routine else .notable)) d).journal = (es.foldl (fun acc e
       => acc.record (.door key e st) {} .notable) d').journal := by
  induction es with
  | nil => intro d d' hj _; exact hj
  | cons e r ih =>
    intro d d' hj hc
    simp only [List.foldl_cons]
    have he := h e List.mem_cons_self
    have hne : ¬ e = .holdEnd := by rintro rfl; cases he
    refine ih (fun x hx => h x (List.mem_cons_of_mem _ hx)) _ _ ?_ (by simpa using hc)
    simp only [Device.record, hne, if_false, hj, hc]

/-- All that a door's outcome does at a reachable node. -/
theorem Device.applyDoor_fields {d : Device} {key : Nat} {n : Node} (o : DoorOut) (h : d.reachable key n) :
   (d.applyDoor key false o).reports = d.reports ∧
   Table.find key (d.applyDoor key false o).nodes = some { n with door := some o.door } ∧
   (∀ other, other ≠ key → Table.find other (d.applyDoor key false o).nodes = Table.find other d.nodes) ∧
   (d.applyDoor key false o).segments = (if o.commands = [] then d.segments else d.segments.set (key / 256) (o.commands.foldl (fun g c =>
       g.place (key % 256) c) (d.segment (key / 256)))) ∧
   (d.applyDoor key false o).journal = (o.events.foldl (fun d e => d.record (.door key e o.door.state) {} (if e = .holdEnd then .routine
       else .notable)) d).journal ∧
   (d.applyDoor key false o).regs = { d.regs with status := if o.alarm then d.regs.status ||| 128 else d.regs.status } := by
  have h' : (d.modifyNode key (fun n => { n with door := some o.door })).reachable key { n with door := some o.door } := by
    obtain ⟨a, b, c⟩ := h
    refine ⟨?_, b, c⟩
    simp [Table.find_modify, a]
  refine ⟨?_, ?_, ?_, ?_, ?_, ?_⟩
  · unfold Device.applyDoor
    dsimp only
    rw [foldl_leaves _ Device.reports (fun _ _ => by simp)]
    have := Device.handAll_reports o.commands h'
    simp only [Bool.false_eq_true, if_false]
    split_ifs <;> simp [this]
  · rw [Device.applyDoor_nodes, Table.find_modify_self, h.1]; rfl
  · intro q hq; rw [Device.applyDoor_nodes, Table.find_modify_ne _ _ hq]
  · unfold Device.applyDoor
    dsimp only
    rw [foldl_leaves _ Device.segments (fun _ _ => by simp)]
    have := Device.handAll_segments o.commands h'
    simp only [Bool.false_eq_true, if_false]
    split_ifs at * with h1 h2 <;> simp [this, Device.segment]
  · unfold Device.applyDoor
    dsimp only
    apply Device.doorEvents_journal
    · simp only [Bool.false_eq_true, if_false]
      split_ifs <;> simp
    · simp only [Bool.false_eq_true, if_false]
      split_ifs <;> simp
  · rw [Device.applyDoor_regs]
    split_ifs <;> simp [StatusBit.mask, StatusBit.index]

/-- A door's outcome without events or alarm touches only nodes and segments. -/
theorem Device.applyDoor_silent {d : Device} {key : Nat} {n : Node} (hre : d.reachable key n) (o : DoorOut) (he : o.events = []) (ha :
    o.alarm = false) :
   Table.find key (d.applyDoor key false o).nodes = some { n with door := some o.door } ∧
   (∀ x, x ≠ key → Table.find x (d.applyDoor key false o).nodes = Table.find x d.nodes) ∧
   (d.applyDoor key false o).segments = (if o.commands = [] then d.segments else d.segments.set (key / 256) (o.commands.foldl (fun g c =>
       g.place (key % 256) c) (d.segment (key / 256)))) ∧
   d.applyDoor key false o = { d with nodes := (d.applyDoor key false o).nodes, segments := (d.applyDoor key false o).segments } := by
  obtain ⟨m1, m2, m3, m4, m5, m6⟩ := Device.applyDoor_fields o hre
  refine ⟨m2, m3, m4, ?_⟩
  have h := Device.applyDoor_eq d key false o
  have hj : (d.applyDoor key false o).journal = d.journal := by rw [m5, he]; rfl
  have hr : (d.applyDoor key false o).regs = d.regs := by rw [m6, ha]; rfl
  generalize d.applyDoor key false o = d' at *
  rw [h]; simp only [m1, hj, hr]

/-- An order whose owner carries out a door's outcome. -/
theorem exec_orderMovesDoor {s : State} {block tag : Word} {abort : Bool} {kind params} {key : Nat} {n : Node} {c : Instr} (o : DoorOut) (r
    : Reply) (owner : OrderContext → Device → Device × Reply)
   (hw : s.dev.orderInHand kind block tag abort) (h : s.dev.reachable key n)
   (he : exec c s = commit s (fun t => t.onDevice (fun d => d.runOrder kind params owner)))
   (ho : owner { block := block, tag := tag } s.dev = (s.dev.applyDoor key false o, r)) :
   ∃ t, exec c s = .next t ∧ s.doorMoved t (s.dev.walker.replied block abort params r) key n o.door o.commands o.events o.alarm := by
  obtain ⟨m1, m2, m3, m4, m5, m6⟩ := Device.applyDoor_fields o h
  refine ⟨_, he.trans (commit_order hw.1 ho (m1.trans hw.2)), m2, m3, m4, m5, ?_⟩
  have f := Device.applyDoor_eq s.dev key false o
  generalize s.dev.applyDoor key false o = d' at *
  have hr : d'.reports = s.dev.reports := m1
  congr 1
  rw [m6]
  cases d'
  simp_all

/-- An event that carries out a door's outcome. -/
theorem exec_eventMovesDoor {s : State} {key : Nat} {n : Node} {r : Door} {c : Instr} (f : Node → Door → DoorOut)
   (hs : s.settled) (h : s.dev.reachable key n) (hd : n.door = some r)
   (he : exec c s = commit s (fun t => t.onDevice (fun d => d.doorEvent key f))) :
   ∃ t, exec c s = .next t ∧ s.doorMoved t s.dev.walker key n (f n r).door (f n r).commands (f n r).events (f n r).alarm := by
  have e : s.dev.doorEvent key f = s.dev.applyDoor key false (f n r) := by
    unfold Device.doorEvent; rw [h.1]; simp only [hd, h.2.1]
  obtain ⟨m1, m2, m3, m4, m5, m6⟩ := Device.applyDoor_fields (f n r) h
  refine ⟨_, he.trans (commit_of_settled s _ (by simp only [State.onDevice_dev]; rw [e]; exact m1.trans hs)), ?_⟩
  simp only [State.onDevice, e]
  refine ⟨m2, m3, m4, m5, ?_⟩
  have g := Device.applyDoor_eq s.dev key false (f n r)
  generalize s.dev.applyDoor key false (f n r) = d' at *
  have hr : d'.reports = s.dev.reports := m1
  congr 1
  rw [m6]
  cases d'
  simp_all

/-- An event that leaves the door. -/
theorem exec_eventLeavesDoor {s : State} {key : Nat} {n : Node} {r : Door} {c : Instr} (f : Node → Door → DoorOut)
   (hs : s.settled) (h : s.dev.reachable key n) (hd : n.door = some r) (hf : f n r = .same r)
   (he : exec c s = commit s (fun t => t.onDevice (fun d => d.doorEvent key f))) : ∃ t, exec c s = .next t ∧ s.doorMoved t s.dev.walker key
       n r [] [] false := by
  have := exec_eventMovesDoor f hs h hd he
  rw [hf] at this
  exact this

/-- The door that an order's address names. -/
theorem Device.doorOf_reachable {s : State} {seg addr : Word} {key n r} (h1 : seg.toNat < 8) (h2 : 1 ≤ addr.toNat) (h3 : addr.toNat ≤ 120)
    (hk : key = seg.toNat * 256 + addr.toNat) (hre : s.dev.reachable key n) (hd : n.door = some r) :
   s.dev.doorOf seg addr = some (key, n, r) := by
  have ok : addressOk seg.toNat addr.toNat = true := by simp [addressOk]; omega
  have hf : Table.find (nodeKey seg.toNat addr.toNat) s.dev.nodes = some n := by have := hre.1; rw [hk] at this; exact this
  simp only [Device.doorOf, ok, hf, hd]
  rw [hk]; rfl

/-- Coming to rest records nothing and raises no alarm. -/
theorem Door.rest_silent (r : Door) (out : Bool) : (r.rest out).events = [] ∧ (r.rest out).alarm = false := by
  unfold Door.rest; (repeat' split) <;> simp

/-- One event added to an outcome without events. -/
theorem DoorOut.withEvent_silent (o : DoorOut) (e : DoorEvent) (h1 : o.events = []) (h2 : o.alarm = false) : o.withEvent e =
    { o with events := [e], alarm := false } := by
  cases o; simp_all [DoorOut.withEvent]

/-- An event that leaves every door changes nothing that is read of the nodes. -/
theorem Device.everyDoor_same (d : Device) (f : Node → Door → DoorOut) (keys : List Nat)
    (h : ∀ key n r, Table.find key d.nodes = some n → n.door = some r → f n r = .same r) :
    (∀ key, Table.find key (keys.foldl (fun acc key => acc.doorEvent key f) d).nodes = Table.find key d.nodes) ∧
    keys.foldl (fun acc key => acc.doorEvent key f) d = { d with nodes := (keys.foldl (fun acc key => acc.doorEvent key f) d).nodes } := by
  induction keys generalizing d with
  | nil => exact ⟨fun _ => rfl, rfl⟩
  | cons k rest ih =>
    simp only [List.foldl_cons]
    have h1 : (∀ key, Table.find key (d.doorEvent k f).nodes = Table.find key d.nodes) ∧ d.doorEvent k f =
        { d with nodes := (d.doorEvent k f).nodes } := by
      unfold Device.doorEvent
      cases hn : Table.find k d.nodes with
      | none => exact ⟨fun _ => rfl, rfl⟩
      | some n =>
        cases hr : n.door with
        | none => simp only [hr]; exact ⟨fun _ => trivial, trivial⟩
        | some r =>
          simp only [hr, h k n r hn hr]
          refine ⟨?_, ?_⟩
          · intro key
            rw [Device.applyDoor_nodes, Table.find_modify]
            split_ifs with hk
            · subst hk; rw [hn]; simp [DoorOut.same, ← hr]
            · rfl
          · unfold Device.applyDoor DoorOut.same Device.handAll
            simp [Device.modifyNode]
    obtain ⟨i1, i2⟩ := ih (d.doorEvent k f) (by
      intro key n r hn hr
      rw [h1.1] at hn
      exact h key n r hn hr)
    refine ⟨fun key => by rw [i1, h1.1], ?_⟩
    generalize hx : rest.foldl (fun acc key => acc.doorEvent key f) (d.doorEvent k f) = x at *
    rw [i2, h1.2]

/-- A minute before the end of its hold leaves a door. -/
theorem Door.minute_before_end {minute : Word} {n : Node} {r : Door} (a : r.state = .holdOpen → ∀ e, r.holdEnd = some e → minute.toNat <
    e.toNat)
    (b : r.state = .emergency → ∀ e, r.savedEnd = some e → minute.toNat < e.toNat) : r.minute n.state.isOut minute = .same r := by
  simp only [Door.minute]
  cases hst : r.state with
  | holdOpen =>
    have : endDue r.holdEnd minute = false := by
      unfold endDue
      cases he : r.holdEnd with
      | none => rfl
      | some e => have := a hst e he; simp only [decide_eq_false_iff_not]; omega
    simp only [this, Bool.false_eq_true, if_false]
  | emergency =>
    have : endDue r.savedEnd minute = false := by
      unfold endDue
      cases he : r.savedEnd with
      | none => rfl
      | some e => have := b hst e he; simp only [decide_eq_false_iff_not]; omega
    simp only [this, Bool.false_eq_true, if_false]
  | _ => rfl

/-- A contact report's outcome at a door is the one that `contactGives` states, its events all NOTABLE. -/
theorem Door.contact_gives {r : Door} {isOpen : Bool} {o : DoorOut} (h : r.contactGives isOpen o) :
   (if isOpen then r.reportOpen else r.reportClosed) = o ∧ ∀ e ∈ o.events, e.cls = .notable := by
  obtain ⟨timed, latched, mode, ht, hla, hm, h⟩ := h
  have htr : r.timedRelease = timed := by rw [ht]; rfl
  cases isOpen with
  | true =>
    simp only [if_true] at h ⊢
    rcases h with ⟨h1, h2, h3, rfl⟩ | ⟨h1, h2, rfl⟩ | ⟨h1, h2, rfl⟩ | ⟨h1, rfl⟩ | ⟨h1 | h1, rfl⟩ | ⟨h1 | h1 | h1, rfl⟩
    · refine ⟨?_, by simp⟩
      cases hh : r.heldTimer <;> simp [Door.reportOpen, h1, Door.rest, h2, h3, DoorOut.after, startIfStopped, hh, Timer.started]
    · exact ⟨by simp [Door.reportOpen, h1, Door.raiseForced, h2, Timer.started], by simp⟩
    · refine ⟨?_, by simp [DoorEvent.cls]⟩
      cases hf : r.settings.forcedMode <;> simp_all [Door.reportOpen, Door.raiseForced]
    · exact ⟨by simp [Door.reportOpen, h1, Timer.started], by simp⟩
    · exact ⟨by simp [Door.reportOpen, h1, DoorOut.same], by simp⟩
    · exact ⟨by simp [Door.reportOpen, h1, DoorOut.same], by simp⟩
    · exact ⟨by simp [Door.reportOpen, h1, DoorOut.same], by simp⟩
    · exact ⟨by simp [Door.reportOpen, h1, DoorOut.same], by simp⟩
    · exact ⟨by simp [Door.reportOpen, h1, DoorOut.same], by simp⟩
  | false =>
    simp only [Bool.false_eq_true, if_false] at h ⊢
    rcases h with ⟨h1, h2, h3, rfl⟩ | ⟨h1, h2, h3, rfl⟩ | ⟨h1 | h1, h2, rfl⟩ | ⟨h1 | h1, h2, h3, rfl⟩ | ⟨h1 | h1, h2, h3, h4, rfl⟩ | ⟨h1 |
        h1 | h1 | h1, rfl⟩
    · rw [ht]; cases hrt : r.releaseTimer <;> cases hrl : r.settings.relock <;> simp [Door.reportClosed, h1, Door.rest, h2, h3,
        DoorOut.after, Door.timedRelease, hrt, hrl]
    · rw [ht]; cases hrt : r.releaseTimer <;> cases hrl : r.settings.relock <;> simp [Door.reportClosed, h1, Door.rest, h2, h3,
        Door.timedRelease, hrt, hrl]
    · simp only [h1, reduceCtorEq, if_false] at hla hm
      refine ⟨?_, by simp⟩
      rw [ht]
      rcases h2 with h2 | h2
      · rw [hla] at h2
        cases hrt : r.releaseTimer <;> cases hrl : r.settings.relock <;> simp [Door.reportClosed, h1, Door.closeInAlarm, h2,
            Door.timedRelease, hrt, hrl]
      · rw [hm] at h2
        cases hq : r.forcedLatch <;> cases hrt : r.releaseTimer <;> cases hrl : r.settings.relock <;> simp [Door.reportClosed, h1,
            Door.closeInAlarm, h2, Door.timedRelease, hrt, hrl, hq]
    · simp only [h1, if_true] at hla hm
      refine ⟨?_, by simp⟩
      rw [ht]
      rcases h2 with h2 | h2
      · rw [hla] at h2
        cases hrt : r.releaseTimer <;> cases hrl : r.settings.relock <;> simp [Door.reportClosed, h1, Door.closeInAlarm, h2,
            Door.timedRelease, hrt, hrl]
      · rw [hm] at h2
        cases hq : r.heldLatch <;> cases hrt : r.releaseTimer <;> cases hrl : r.settings.relock <;> simp [Door.reportClosed, h1,
            Door.closeInAlarm, h2, Door.timedRelease, hrt, hrl, hq]
    · simp only [h1, reduceCtorEq, if_false] at hla hm
      rw [hla] at h2; rw [hm] at h3; rw [ht]
      cases hrt : r.releaseTimer <;> cases hrl : r.settings.relock <;> simp [Door.reportClosed, h1, Door.closeInAlarm, h2, h3,
          Door.timedRelease, hrt, hrl, Timer.started]
    · simp only [h1, if_true] at hla hm
      rw [hla] at h2; rw [hm] at h3; rw [ht]
      cases hrt : r.releaseTimer <;> cases hrl : r.settings.relock <;> simp [Door.reportClosed, h1, Door.closeInAlarm, h2, h3,
          Door.timedRelease, hrt, hrl, Timer.started]
    · simp only [h1, reduceCtorEq, if_false] at hla hm
      rw [hm] at h4; rw [ht]
      rcases h4 with h4 | h4 <;> cases hrt : r.releaseTimer <;> cases hrl : r.settings.relock <;> simp [Door.reportClosed, h1,
          Door.closeInAlarm, h2, h3, h4, Door.timedRelease, hrt, hrl, Door.rest, DoorOut.withEvent, DoorEvent.cls]
    · simp only [h1, if_true] at hla hm
      rw [hm] at h4; rw [ht]
      rcases h4 with h4 | h4 <;> cases hrt : r.releaseTimer <;> cases hrl : r.settings.relock <;> simp [Door.reportClosed, h1,
          Door.closeInAlarm, h2, h3, h4, Door.timedRelease, hrt, hrl, Door.rest, DoorOut.withEvent, DoorEvent.cls]
    all_goals exact ⟨by simp [Door.reportClosed, h1, DoorOut.same], by simp⟩

/-- A grant's outcome at a door is the one that `grantGives` states. -/
theorem Door.grant_gives {r : Door} {o : DoorOut} (h : r.grantGives o) : r.grant = o ∧ (∀ e ∈ o.events, e.cls = .notable) ∧ o.alarm = false
    ∧ r.state ≠ .holdOpen ∧ r.state ≠ .emergency := by
  obtain ⟨freed, dur, hd, hf, h⟩ := h
  have hrc : r.releaseCommand = .release dur := by
    unfold Door.releaseCommand; rw [hd]; cases r.settings.relock <;> rfl
  have hfreed : r.freed = freed := by
    rw [hf]; unfold Door.freed; split_ifs <;> rfl
  rcases h with ⟨hc, rfl⟩ | ⟨hc, rfl⟩ | ⟨hc, rfl⟩
  · rcases hc with hc | hc <;> refine ⟨by simp [Door.grant, hc, hrc, hfreed], by simp, rfl, by simp [hc], by simp [hc]⟩
  · rcases hc with hc | hc | ⟨hc, hl⟩ | ⟨hc, hl⟩ <;> refine
      ⟨by simp [Door.grant, Door.grantInAlarm, Timer.started, *], by simp, rfl, by simp [hc], by simp [hc]⟩
  · rcases hc with ⟨hc, hl⟩ | ⟨hc, hl⟩ <;> refine
      ⟨by simp [Door.grant, Door.grantInAlarm, hc, hrc, hl, hfreed], by simp [DoorEvent.cls], rfl, by simp [hc], by simp [hc]⟩

end Sys2Proof.Machine
end

