-- ==== Sys2Proof/Laws/Turns.lean ====
section
/-! SUPPORT. Whose turn a segment gives: the addresses in rising order, the choices of the two modes, the frame that is sent. -/

namespace Sys2Proof.Machine

open Sys2Proof

/-- The addresses of a segment whose nodes meet a test. -/
theorem Device.mem_addressesWhere {d : Device} {seg : Nat} {f : Node → Bool} {a : Nat} (hw : Table.wf d.nodes = true) :
   a ∈ d.addressesWhere seg f ↔ a < 256 ∧ ∃ n, Table.find (seg * 256 + a) d.nodes = some n ∧ f n = true := by
  unfold Device.addressesWhere Table.keysWhere
  simp only [List.mem_map, List.mem_filter, Bool.and_eq_true, decide_eq_true_eq]
  constructor
  · rintro ⟨k, ⟨⟨k', n⟩, ⟨hp, hk, hf⟩, rfl⟩, rfl⟩
    simp only [keySeg, keyAddr] at *
    refine ⟨by omega, n, ?_, hf⟩
    have : seg * 256 + k' % 256 = k' := by omega
    rw [this]; exact Table.find_of_mem hw hp
  · rintro ⟨ha, n, hn, hf⟩
    refine ⟨seg * 256 + a, ⟨(seg * 256 + a, n), ⟨Table.mem_of_find hn, by simp only [keySeg]; omega, hf⟩, rfl⟩, ?_⟩
    simp only [keyAddr]; omega

/-- They stand in rising order. -/
theorem Device.addressesWhere_rising {d : Device} {seg : Nat} {f : Node → Bool} (hw : Table.wf d.nodes = true) :
   (d.addressesWhere seg f).Pairwise (fun a b => a < b) := by
  unfold Device.addressesWhere Table.keysWhere
  rw [Table.wf_iff] at hw
  rw [List.map_map, List.pairwise_map]
  have h1 := (hw.filter (fun p => decide (keySeg p.1 = seg) && f p.2))
  refine List.Pairwise.imp_of_mem ?_ h1
  intro a b ha hb hab
  rw [List.mem_filter] at ha hb
  simp only [Bool.and_eq_true, keySeg] at ha hb
  have hab' : a.1 < b.1 := hab
  show a.1 % 256 < b.1 % 256
  have h3 := of_decide_eq_true ha.2.1
  have h4 := of_decide_eq_true hb.2.1
  omega

/-- The least member of a rising list is its head. -/
theorem rising_head {l : List Nat} (hs : l.Pairwise (fun a b => a < b)) {a : Nat} (ha : a ∈ l) (hl : ∀ b ∈ l, a ≤ b) : ∃ r, l = a :: r := by
  cases l with
  | nil => simp at ha
  | cons x r =>
    have hx := hl x List.mem_cons_self
    rw [List.pairwise_cons] at hs
    rcases List.mem_cons.mp ha with rfl | h
    · exact ⟨r, rfl⟩
    · have := hs.1 a h; omega

/-- The least member of a rising list that meets a test is the first found. -/
theorem rising_find {l : List Nat} (hs : l.Pairwise (fun a b => a < b)) {p : Nat → Bool} {a : Nat} (ha : a ∈ l) (hp : p a = true) (hl : ∀ b
    ∈ l, p b = true → a ≤ b) : l.find? p = some a := by
  induction l with
  | nil => simp at ha
  | cons x r ih =>
    rw [List.pairwise_cons] at hs
    by_cases hx : p x = true
    · have h1 := hl x List.mem_cons_self hx
      rcases List.mem_cons.mp ha with rfl | h
      · simp [hp]
      · have := hs.1 a h; omega
    · simp only [List.find?_cons, hx]
      rcases List.mem_cons.mp ha with rfl | h
      · exact absurd hp hx
      · exact ih hs.2 h (fun b hb => hl b (List.mem_cons_of_mem _ hb))

/-- A turn that sends a frame. -/
theorem exec_sendFrame {s : State} {seg addr : Nat} {g : Segment} {st : SegmentSettings} (m : Send) (dx : Device) (passed : Nat → Node →
    Node) (f : Device → Device) (c : Instr)
   (hs : s.settled) (hset : g.settings = some st) (hlen : seg < s.dev.segments.length)
   (hnodes : ∀ key, Table.find key dx.nodes = (Table.find key s.dev.nodes).map (passed key))
   (hack : ∀ key n, (passed key n).owedAck = n.owedAck)
   (hdx : dx = { s.dev with nodes := dx.nodes, segments := s.dev.segments.set seg g })
   (he : exec c s = commit s (fun t => t.onDevice f)) (hf : f s.dev = dx.sendFrame seg addr m) :
   ∃ t, exec c s = .next t ∧ s.frameSent t seg addr g st.timeout passed m.code m.body m.carried := by
  have hseg : dx.segment seg = g := by
    unfold Device.segment; rw [hdx]; simp [List.getD_eq_getElem?_getD, List.getElem?_set_self hlen]
  have hfr := Device.sendFrame_frame dx seg addr m
  have hrep : (dx.sendFrame seg addr m).reports = [] := by
    rw [hfr.2.2.2.2.2.2.2.2.2.2.2]; rw [hdx]; exact hs
  have hj : (dx.sendFrame seg addr m).journal = s.dev.journal := by
    rw [hfr.2.2.2.2.2.2.2.1]; rw [hdx]
  refine ⟨_, he.trans (commit_of_journal_eq s _ (by simp only [State.onDevice_dev]; rw [hf]; exact hrep)
      (by simp only [State.onDevice_dev]; rw [hf]; exact hj)), ?_⟩
  simp only [State.onDevice, hf]
  constructor
  · intro key
    simp only [Device.sendFrame]
    rw [show (Device.modifyNode _ (nodeKey seg addr) _).nodes = Table.modify (nodeKey seg addr) (fun n : Node =>
        { n with owedAck := none }) dx.nodes from rfl, Table.find_modify]
    unfold nodeKey
    by_cases hk : key = seg * 256 + addr
    · subst hk
      rw [if_pos rfl, hnodes, Option.map_map]
      cases Table.find (seg * 256 + addr) s.dev.nodes <;> simp
    · rw [if_neg hk, hnodes]
      cases Table.find key s.dev.nodes <;> simp [hk]
  · congr 1
    have hn := hnodes (nodeKey seg addr)
    have key : nodeKey seg addr = seg * 256 + addr := rfl
    rw [← key]
    simp only [Device.sendFrame, hseg, hset]
    cases h : Table.find (nodeKey seg addr) s.dev.nodes with
    | none =>
      rw [h] at hn
      simp only [hn, Option.map_none, Option.bind_none]
      rw [hdx]
      simp only [Device.modifyNode, Device.setSegment, List.set_set]
    | some n =>
      rw [h] at hn
      simp only [hn, Option.map_some, Option.bind_some, hack]
      rw [hdx]
      simp only [Device.modifyNode, Device.setSegment, List.set_set]

/-- A segment set to what it is. -/
theorem Device.set_segment_self {d : Device} {seg : Nat} (h : seg < d.segments.length) : d.segments.set seg (d.segment seg) = d.segments :=
    by
  unfold Device.segment
  apply List.ext_getElem?
  intro i
  rw [List.getElem?_set]
  split_ifs with h1
  · subst h1; simp [List.getD_eq_getElem?_getD, List.getElem?_eq_getElem h]
  · rfl

/-- The highest service, the lower address first. -/
theorem Device.highest_eq {d : Device} {seg : Nat} (l : List Nat) {a : Nat} (ha : a ∈ l) (h : ∀ b ∈ l, b ≠ a → d.serviceOf seg b <
    d.serviceOf seg a ∨ (d.serviceOf seg b = d.serviceOf seg a ∧ a < b)) (hn : l.Nodup) (hs : l.Pairwise (fun a b => a < b)) : d.highest
    seg l = some a := by
  induction l with
  | nil => simp at ha
  | cons x r ih =>
    rw [List.pairwise_cons] at hs
    rw [List.nodup_cons] at hn
    unfold Device.highest
    rcases List.mem_cons.mp ha with rfl | har
    · cases hr : d.highest seg r with
      | none => rfl
      | some b =>
        have hb : b ∈ r := by
          clear * - hr
          induction r generalizing b with
          | nil => simp [Device.highest] at hr
          | cons y t iht =>
            unfold Device.highest at hr
            cases ht : d.highest seg t with
            | none => rw [ht] at hr; simp at hr; simp [hr]
            | some c =>
              rw [ht] at hr
              simp only at hr
              split_ifs at hr
              · simp only [Option.some.injEq] at hr; subst hr; exact List.mem_cons_of_mem _ (iht _ ht)
              · simp only [Option.some.injEq] at hr; subst hr; exact List.mem_cons_self
        have := h b (List.mem_cons_of_mem _ hb) (by rintro rfl; exact hn.1 hb)
        simp only
        rw [if_neg (by omega)]
    · rw [ih har (fun b hb => h b (List.mem_cons_of_mem _ hb)) hn.2 hs.2]
      have hxa : x ≠ a := by rintro rfl; exact hn.1 har
      have h1 := h x List.mem_cons_self hxa
      have h2 := hs.1 a har
      simp only
      rw [if_pos (by omega)]

/-- PRIORITY's choice is the member ahead of all others. -/
theorem Device.priorityChoice_eq {d : Device} {seg : Nat} {l : List Nat} {a : Nat} (ha : a ∈ l) (hs : l.Pairwise (fun a b => a < b)) (hdef
    : (Table.find (seg * 256 + a) d.nodes).isSome = true) (h : ∀ b ∈ l, b ≠ a → d.ahead seg a b) : d.priorityChoice seg l = some a := by
  have hn : l.Nodup := hs.imp (fun h => Nat.ne_of_lt h)
  have key : ∀ b ∈ l, b ≠ a → (d.passOverOf seg a = 8 ∧ d.passOverOf seg b ≠ 8) ∨ ((d.passOverOf seg a = 8 ↔ d.passOverOf seg b = 8) ∧
      (d.serviceOf seg b < d.serviceOf seg a ∨ (d.serviceOf seg b = d.serviceOf seg a ∧ a < b))) := by
    intro b hb hne
    obtain ⟨m, n, hm, hn', hh⟩ := h b hb hne
    have e : ∀ x, nodeKey seg x = seg * 256 + x := fun _ => rfl
    simp only [Device.passOverOf, Device.serviceOf, e, hm, hn']
    exact hh
  unfold Device.priorityChoice
  by_cases ht : d.passOverOf seg a = 8
  · have : d.highest seg (l.filter (fun a => decide (d.passOverOf seg a = Config.passOverLimit))) = some a := by
      apply Device.highest_eq
      · rw [List.mem_filter]; exact ⟨ha, by simpa [Config.passOverLimit] using ht⟩
      · intro b hb hne
        rw [List.mem_filter] at hb
        have hb2 : d.passOverOf seg b = 8 := by simpa [Config.passOverLimit] using hb.2
        rcases key b hb.1 hne with k | k
        · exact absurd hb2 k.2
        · exact k.2
      · exact hn.filter _
      · exact hs.filter _
    rw [this]
  · have h0 : l.filter (fun a => decide (d.passOverOf seg a = Config.passOverLimit)) = [] := by
      rw [List.filter_eq_nil_iff]
      intro b hb
      simp only [decide_eq_true_eq, Config.passOverLimit]
      by_cases hba : b = a
      · subst hba; exact ht
      · rcases key b hb hba with k | k
        · exact absurd k.1 ht
        · intro hq; exact ht (k.1.2 hq)
    rw [h0]
    show d.highest seg l = some a
    apply Device.highest_eq _ ha _ hn hs
    intro b hb hne
    rcases key b hb hne with k | k
    · exact absurd k.1 ht
    · exact k.2

/-- ROTATING's choice is the next address above the last, else the lowest. -/
theorem rotatingChoice_eq {l : List Nat} {a last : Nat} (ha : a ∈ l) (hs : l.Pairwise (fun a b => a < b))
   (h : (last < a ∧ ∀ b ∈ l, last < b → a ≤ b) ∨ ∀ b ∈ l, b ≤ last ∧ a ≤ b) : rotatingChoice last l = some a := by
  unfold rotatingChoice
  rcases h with ⟨h1, h2⟩ | h2
  · rw [rising_find hs ha (by simpa using h1) (fun b hb hp => h2 b hb (by simpa using hp))]
  · have : l.find? (fun a => decide (last < a)) = none := by
      rw [List.find?_eq_none]; intro b hb; have := (h2 b hb).1; simp; omega
    rw [this]
    obtain ⟨r, hr⟩ := rising_head hs ha (fun b hb => (h2 b hb).2)
    rw [hr]; rfl

end Sys2Proof.Machine
end

