-- ==== Sys2Proof/Laws/Reports.lean ====
section
/-! SUPPORT. A report heard from a node: the part that is the same whatever its owner does with it. -/

namespace Sys2Proof.Machine

open Sys2Proof

/-- A command placed while an exchange carries none leaves the exchange. -/
theorem Segment.place_exchange {g : Segment} {addr addr' : Nat} {t : Nat} (c : Command) (h : g.exchange = some
    { addr := addr', carried := none, next := none, timeout := t }) : (g.place addr c).exchange = g.exchange := by
  have h1 : g.hasAttempt addr = false := by unfold Segment.hasAttempt; rw [h]; simp
  unfold Segment.place
  simp only [h1, Bool.or_false, Bool.false_eq_true, if_false]
  split_ifs <;> rfl

/-- Commands placed while an exchange carries none leave the exchange and the attention list. -/
theorem Segment.places_frame {g : Segment} {addr addr' : Nat} {t : Nat} (cs : List Command) (h : g.exchange = some
    { addr := addr', carried := none, next := none, timeout := t }) :
    (cs.foldl (fun g c => g.place addr c) g).exchange = g.exchange ∧ (cs.foldl (fun g c => g.place addr c) g).attention = g.attention := by
  induction cs generalizing g with
  | nil => exact ⟨rfl, rfl⟩
  | cons c r ih =>
    simp only [List.foldl_cons]
    have h1 := Segment.place_exchange (addr := addr) c h
    obtain ⟨a, b⟩ := ih (h1.trans h)
    exact ⟨a.trans h1, b.trans (Segment.place_frame g addr c).2.1⟩

/-- The end of an answer's step, whatever came before it. -/
theorem Device.answer_end {d : Device} {seg addr : Nat} {g q : Segment} {m : Node} {t : Nat} (att : Bool) (haddr : addr < 256) (hlen : seg
    < d.segments.length)
   (hq : d.segment seg = q) (hx : q.exchange = some { addr := addr, carried := none, next := none, timeout := t }) (ha : q.attention =
       g.attention)
   (hf : Table.find (seg * 256 + addr) d.nodes = some m) (dT : Device)
   (hT : dT = (let d := d.setSegment seg (d.segment seg).closed; if att then d.joinAttention (nodeKey seg addr) else d.leaveAttention
       (nodeKey seg addr))) :
   Table.find (seg * 256 + addr) dT.nodes = some (if att || !g.attention.contains addr then m else { m with passOver := 0 }) ∧
   (∀ o, o ≠ seg * 256 + addr → Table.find o dT.nodes = Table.find o d.nodes) ∧
   dT.segments = d.segments.set seg
       { q with exchange := none, attention := if att then insertAddress addr g.attention else g.attention.filter (fun a => decide (a ≠ addr)) } ∧
   dT = { d with nodes := dT.nodes, segments := dT.segments } := by
  have hks : keySeg (nodeKey seg addr) = seg := by unfold keySeg nodeKey; omega
  have hka : keyAddr (nodeKey seg addr) = addr := by unfold keyAddr nodeKey; omega
  have hcl : (d.segment seg).closed = { q with exchange := none } := by
    rw [hq]; unfold Segment.closed; rw [hx]
  have hsg : (d.setSegment seg { q with exchange := none }).segment seg = { q with exchange := none } := by
    rw [Device.segment_setSegment, if_pos ⟨rfl, hlen⟩]
  simp only [hcl] at hT
  cases att with
  | true =>
    simp only [if_true, Device.joinAttention, hks, hka, hsg] at hT
    rw [hT]
    refine ⟨by simpa using hf, fun _ _ => rfl, ?_, rfl⟩
    simp only [Device.setSegment_segments, List.set_set, if_true, ha]
  | false =>
    simp only [Bool.false_eq_true, if_false, Device.leaveAttention, hks, hka, hsg] at hT
    by_cases hc : g.attention.contains addr = true
    · rw [ha, hc] at hT
      simp only [if_true] at hT
      rw [hT]
      refine ⟨?_, ?_, ?_, rfl⟩
      · simp only [Device.modifyNode_nodes, Device.setSegment_nodes, Table.find_modify_self, nodeKey, hf]
        have e : (false || !g.attention.contains addr) = false := by rw [hc]; rfl
        rw [e]; rfl
      · intro o ho
        simp only [Device.modifyNode_nodes, Device.setSegment_nodes, nodeKey]
        exact Table.find_modify_ne _ _ ho
      · simp only [Device.modifyNode_segments, Device.setSegment_segments, List.set_set]
        simp
    · have hc' : g.attention.contains addr = false := by simpa using hc
      rw [ha, hc'] at hT
      simp only [Bool.false_eq_true, if_false] at hT
      rw [hT]
      have hfl : g.attention.filter (fun a => decide (a ≠ addr)) = g.attention := by
        rw [List.filter_eq_self]; intro a haa; simp only [decide_eq_true_eq]; rintro rfl; exact hc (by simpa using haa)
      refine ⟨by rw [hc']; simpa using hf, fun _ _ => rfl, ?_, rfl⟩
      simp only [Device.setSegment_segments]
      rw [if_neg (by simp), hfl, ← ha]

/-- An exchange is on a segment that exists. -/
theorem State.exchangeWith_length {s : State} {seg addr n} (h : s.dev.exchangeWith seg addr n) : seg < s.dev.segments.length := by
  by_contra hh
  obtain ⟨_, ⟨t, hx⟩, _⟩ := h
  have : s.dev.segment seg = Segment.initial := by
    unfold Device.segment; rw [List.getD_eq_getElem?_getD, List.getElem?_eq_none (by omega)]; rfl
  rw [this] at hx; cases hx

/-- Hearing from a sound node changes nothing that is read of it. -/
theorem Device.heardFrom_sound {d : Device} {key : Nat} {n : Node} (hf : Table.find key d.nodes = some n) (hs : n.sound) :
   ∃ f : Node → Node, f n = n ∧ d.heardFrom key n = d.modifyNode key f := by
  obtain ⟨h1, h2, h3, h4, h5, h6⟩ := hs
  have e0 : ({ n with state := .online, misses := 0, retries := 0, onProbe := false } : Node) = n := by
    cases n; simp at h1 h2 h3 h4 h5; simp [h1, h2, h3, h4]
  set d1 := d.modifyNode key (fun n => { n with state := .online, misses := 0, retries := 0, onProbe := false }) with hd1
  have hf1 : Table.find key d1.nodes = some n := by
    rw [hd1, Device.modifyNode_nodes, Table.find_modify_self, hf]; simp only [Option.map_some, e0]
  have ht : d1.ownerTold key n.state .online = d1 := by
    unfold Device.ownerTold; rw [hf1]; simp [h1]
  have hh : d.heardFrom key n = d1.doorHeard key := by
    unfold Device.heardFrom
    simp only [← hd1, ht, h5, Bool.false_eq_true, if_false]
  rw [hh]
  unfold Device.doorHeard Device.doorEvent
  rw [hf1]
  cases hd : n.door with
  | none => exact ⟨_, e0, by simp only [hd]; exact hd1⟩
  | some r =>
    have hu := h6 r hd
    refine ⟨fun m =>
        { (fun n : Node => ({ n with state := .online, misses := 0, retries := 0, onProbe := false } : Node)) m with door := some r }, ?_,
        ?_⟩
    · cases n; simp at h1 h2 h3 h4 hd; simp [h1, h2, h3, h4, hd]
    · simp only [hd, hu, Bool.false_eq_true, if_false]
      unfold Device.applyDoor DoorOut.same
      cases n.state.isOut <;>
      · simp only [Device.handAll, List.foldl_nil, Bool.false_eq_true, if_false, if_true, hd1, Device.modifyNode, Table.modify,
          List.map_map]
        congr 1
        apply List.map_congr_left
        intro p _
        by_cases hp : p.1 = key <;> simp [hp]

/-- A fresh report in an exchange with a sound node: all that its owner's part does not say. -/
theorem exec_report {s : State} {seg addr : Nat} {n : Node} {seq : BitVec 4} {b : ReportBody} {c : Instr} (att : Bool)
   (hs : s.settled) (hx : s.dev.exchangeWith seg addr n) (hn : n.sound) (hl : n.lastSeq ≠ some seq)
   (he : exec c s = commit s (fun t => t.onDevice (fun d => d.answer seg att (some (seq, b))))) :
   ∃ (dR : Device),
     dR = { s.dev with nodes := dR.nodes, journal := (s.dev.beforeReport (seg * 256 + addr) n seq).journal } ∧
     Table.find (seg * 256 + addr) dR.nodes = some { n with lastSeq := some seq } ∧
     (∀ o, o ≠ seg * 256 + addr → Table.find o dR.nodes = Table.find o s.dev.nodes) ∧
     ∀ (d2 : Device) (sig : Signal) (m : Node) (cs : List Command), dR.handReport (seg * 256 + addr) n b = (d2, sig) → d2.reports = [] →
       Table.find (seg * 256 + addr) d2.nodes = some m → (∀ o, o ≠ seg * 256 + addr → Table.find o d2.nodes = Table.find o s.dev.nodes) →
       d2.segments = s.dev.segments.set seg (cs.foldl (fun g c => g.place addr c) (s.dev.segment seg)) →
       ∃ t, exec c s = .next t ∧ s.answered t seg addr att { m with owedAck := some (seq, sig) } cs ∧ t.dev.journal = d2.journal ∧
         t = { s with dev := { d2 with
           regs := { d2.regs with status := stallStatus s.dev.journal d2.journal d2.regs.status }
           nodes := t.dev.nodes, segments := t.dev.segments } } := by
  have hlen := State.exchangeWith_length hx
  obtain ⟨haddr, ⟨tm, hex⟩, hdis, hf⟩ := hx
  have hkey : nodeKey seg addr = seg * 256 + addr := rfl
  obtain ⟨f, hfn, hh⟩ := Device.heardFrom_sound hf hn
  have hf1 : Table.find (seg * 256 + addr) (s.dev.modifyNode (seg * 256 + addr) f).nodes = some n := by
    rw [Device.modifyNode_nodes, Table.find_modify_self, hf]; simp [hfn]
  set d1 := s.dev.modifyNode (seg * 256 + addr) f with hd1
  set d1b := d1.beforeReport (seg * 256 + addr) n seq with hd1b
  have hb1 : d1b = { d1 with journal := (s.dev.beforeReport (seg * 256 + addr) n seq).journal } := by
    rw [hd1b]; unfold Device.beforeReport
    cases n.lastSeq with
    | none => rfl
    | some last =>
      simp only
      split
      · rfl
      · rfl
  set dR := d1b.modifyNode (seg * 256 + addr) (fun n => { n with lastSeq := some seq }) with hdR
  have hfR : Table.find (seg * 256 + addr) dR.nodes = some { n with lastSeq := some seq } := by
    rw [hdR, Device.modifyNode_nodes, Table.find_modify_self, hb1]; simp only [hf1, Option.map_some]
  have hoR : ∀ o, o ≠ seg * 256 + addr → Table.find o dR.nodes = Table.find o s.dev.nodes := by
    intro o ho
    rw [hdR, Device.modifyNode_nodes, Table.find_modify_ne _ _ ho, hb1]
    simp only [hd1, Device.modifyNode_nodes]
    exact Table.find_modify_ne _ _ ho
  refine ⟨dR, by rw [hdR, hb1]; rfl, hfR, hoR, ?_⟩
  intro d2 sig m cs hrep hr2 hf2 ho2 hsg
  have hlen2 : seg < d2.segments.length := by rw [hsg]; simpa using hlen
  have htake : d1.takeReport (seg * 256 + addr) seq b = d2.oweAck (seg * 256 + addr) seq sig := by
    have hacc : ∀ d : Device, d = d1b → d.acceptReport (seg * 256 + addr) n seq b = d2.oweAck (seg * 256 + addr) seq sig := by
      intro d hd
      unfold Device.acceptReport
      rw [hd, ← hdR, hrep]
    unfold Device.takeReport
    rw [hf1]
    simp only
    cases hls : n.lastSeq with
    | none =>
      simp only
      apply hacc
      rw [hd1b]; unfold Device.beforeReport; rw [hls]
    | some last =>
      simp only
      have hne : seq ≠ last := by rintro rfl; exact hl hls
      rw [if_neg hne]
      split
      · next h => apply hacc; rw [hd1b]; unfold Device.beforeReport; rw [hls]; simp only [if_pos h]
      · next h => apply hacc; rw [hd1b]; unfold Device.beforeReport; rw [hls]; simp only [if_neg h]; rfl
  set d3 := d2.oweAck (seg * 256 + addr) seq sig with hd3
  have hf3 : Table.find (seg * 256 + addr) d3.nodes = some { m with owedAck := some (seq, sig) } := by
    rw [hd3]; unfold Device.oweAck; rw [Device.modifyNode_nodes, Table.find_modify_self, hf2]; rfl
  have hsg3 : d3.segment seg = cs.foldl (fun g c => g.place addr c) (s.dev.segment seg) := by
    rw [hd3]; unfold Device.oweAck Device.segment
    rw [Device.modifyNode_segments, hsg, List.getD_eq_getElem?_getD, List.getElem?_set_self hlen]; rfl
  obtain ⟨p1, p2⟩ := Segment.places_frame (addr := addr) cs hex
  have hans : s.dev.answer seg att (some (seq, b)) = (let d := d3.setSegment seg (d3.segment seg).closed; if att then d.joinAttention
      (nodeKey seg addr) else d.leaveAttention (nodeKey seg addr)) := by
    unfold Device.answer
    rw [hex]
    simp only [hkey, hf, hh, ← hd1, htake, Device.carriedAnswered]
  obtain ⟨t1, t2, t3, t4⟩ := Device.answer_end (d := d3) (g := s.dev.segment seg) att haddr (by rw [hd3]; exact hlen2) hsg3 (p1.trans hex)
      p2 hf3 _ hans
  generalize hdT : s.dev.answer seg att (some (seq, b)) = dT at *
  have hj : dT.journal = d2.journal := by rw [t4]; rfl
  refine ⟨_, he.trans (commit_of_settled s _ (by simp only [State.onDevice_dev]; rw [hdT, t4]; exact hr2)), ⟨?_, ?_, ?_⟩, ?_, ?_⟩
  · simp only [State.onDevice_dev]; rw [hdT]; exact t1
  · intro o ho
    simp only [State.onDevice_dev]; rw [hdT, t2 o ho, hd3]
    unfold Device.oweAck
    rw [Device.modifyNode_nodes, Table.find_modify_ne _ _ ho]; exact ho2 o ho
  · simp only [State.onDevice_dev]; rw [hdT, t3]
    show d2.segments.set seg _ = _
    rw [hsg, List.set_set]
  · simp only [State.onDevice_dev]; rw [hdT]; exact hj
  · simp only [State.onDevice, hdT]
    rw [t4, hd3]
    rfl

/-- What stands before the owner's part, field by field. -/
theorem Device.beforeReport_frame {s t : State} {dR d2 : Device} {key : Nat} {n : Node} {seq : BitVec 4}
   (hR : dR = { s.dev with nodes := dR.nodes, journal := (s.dev.beforeReport key n seq).journal }) : dR.regs = s.dev.regs ∧ dR.segments =
       s.dev.segments ∧ dR.reports = s.dev.reports ∧ dR.rooms = s.dev.rooms ∧ dR.clock = s.dev.clock ∧ dR.creds = s.dev.creds ∧ dR.journal
       = (s.dev.beforeReport key n seq).journal ∧ dR.fire = s.dev.fire ∧ dR.storm = s.dev.storm ∧ dR.tariff = s.dev.tariff := by
  rw [hR]; exact ⟨rfl, rfl, rfl, rfl, rfl, rfl, rfl, rfl, rfl, rfl⟩

/-- No command placed leaves the segments. -/
theorem State.segments_self {s : State} {seg addr n} (h : s.dev.exchangeWith seg addr n) : s.dev.segments = s.dev.segments.set seg (([] :
    List Command).foldl (fun g c => g.place addr c) (s.dev.segment seg)) :=
  (Device.set_segment_self (State.exchangeWith_length h)).symm

/-- A fresh report that its owner refuses without more. -/
theorem exec_reportRefused {s : State} {seg addr : Nat} {n : Node} {seq : BitVec 4} {b : ReportBody} {c : Instr} {key : Nat} (att : Bool)
   (hs : s.settled) (hx : s.dev.exchangeWith seg addr n) (hn : n.sound) (hl : n.lastSeq ≠ some seq) (hkey : key = seg * 256 + addr)
   (he : exec c s = commit s (fun t => t.onDevice (fun d => d.answer seg att (some (seq, b)))))
   (hrep : ∀ dR : Device, dR = { s.dev with nodes := dR.nodes, journal := (s.dev.beforeReport key n seq).journal } → dR.handReport key n b
       = (dR, .refuse)) :
   ∃ t, exec c s = .next t ∧
        s.answered t seg addr att { n with lastSeq := some seq, owedAck := some (seq, .refuse) } [] ∧
        t.dev.journal = (s.dev.beforeReport key n seq).journal ∧
        t = { s with dev := { s.dev with
          regs := { s.dev.regs with status := stallStatus s.dev.journal t.dev.journal s.dev.regs.status }
          nodes := t.dev.nodes, segments := t.dev.segments, journal := t.dev.journal } } := by
  subst hkey
  obtain ⟨dR, hR, hfR, hoR, hgo⟩ := exec_report att hs hx hn hl he
  obtain ⟨q1, q2, q3, q4, q5, q6, q7, q8⟩ := Device.beforeReport_frame (t := s) (d2 := dR) hR
  obtain ⟨t, g1, g2, g3, g4⟩ := hgo dR .refuse _ [] (hrep dR hR) (q3.trans hs) hfR hoR (q2.trans (State.segments_self hx))
  refine ⟨t, g1, g2, g3.trans q7, ?_⟩
  refine g4.trans ?_
  rw [g3, hR]

/-- The clock is not touched before the owner's part. -/
theorem Device.beforeReport_clock (d : Device) (key n seq) : (d.beforeReport key n seq).clock = d.clock := by
  unfold Device.beforeReport; (repeat' split) <;> rfl

/-- Commands placed at the node of an exchange. -/
theorem State.segments_placed {s : State} {seg addr n} (h : s.dev.exchangeWith seg addr n) (cs : List Command) :
   (if cs = [] then s.dev.segments else s.dev.segments.set ((seg * 256 + addr) / 256) (cs.foldl (fun g c => g.place ((seg * 256 + addr) %
       256) c) (s.dev.segment ((seg * 256 + addr) / 256)))) = s.dev.segments.set seg (cs.foldl (fun g c => g.place addr c) (s.dev.segment
       seg)) := by
  have h1 : (seg * 256 + addr) / 256 = seg := by have := h.1; omega
  have h2 : (seg * 256 + addr) % 256 = addr := by have := h.1; omega
  rw [h1, h2]
  split_ifs with hc
  · subst hc; exact State.segments_self h
  · rfl

end Sys2Proof.Machine
end

