-- ==== Sys2Proof/Laws/Answers.lean ====
section
/-! SUPPORT. The bytes of answers, and a report whose owner hands commands elsewhere. -/

namespace Sys2Proof.Machine

open Sys2Proof

/-- A card image is read from its own bytes. -/
theorem image_of_bytes (i : CardImage) : imageOf (imageBytes i) = i := by
  unfold imageOf imageBytes imageContent
  cases i
  simp only [List.cons_append, List.nil_append, List.getD_cons_zero, List.getD_cons_succ, CardImage.mk.injEq, true_and]
  refine ⟨?_, ?_, ?_, ?_⟩ <;> ext j hj <;> simp only [BitVec.getElem_append, BitVec.getElem_extractLsb'] <;> split_ifs <;> (try rw
      [BitVec.getLsbD_eq_getElem (by omega)]) <;> congr 1 <;> omega

/-- An answer framed with a body of the right length is valid. -/
theorem answer_valid (addr mark code : Byte) (body : List Byte) (h : answerBodyLength code = some body.length) (hl : body.length < 200) :
    answerValid addr.toNat (answerFrame addr mark code body) = true := by
  unfold answerFrame answerValid
  simp only [List.cons_append, List.nil_append, h]
  have hlen : (checkBytes ([addr, BitVec.ofNat 8 (body.length + 2), mark, code] ++ body)).length = 2 := rfl
  simp only [List.cons_append, List.nil_append] at hlen
  simp only [decide_true, Bool.true_and, Bool.and_eq_true, decide_eq_true_eq, List.length_append, hlen, and_true]
  refine ⟨by rw [BitVec.toNat_ofNat]; omega, ?_⟩
  rw [List.drop_append_of_le_length (Nat.le_refl _), List.drop_length, List.take_append_of_le_length (Nat.le_refl _), List.take_length]
  rfl

/-- What an answer frame is taken as. -/
theorem answer_bytes (d : Device) (seg : Nat) (addr mark code : Byte) (body : List Byte) :
    d.answerBytes seg (answerFrame addr mark code body) = d.answer seg (answerAttention mark) ((reportOf code body).map (fun b =>
        (answerSequence mark, b))) := by
  unfold Device.answerBytes answerFrame
  simp only [List.cons_append, List.nil_append, List.getD_cons_zero, List.getD_cons_succ, List.drop_succ_cons, List.drop_zero]
  have : (body ++ checkBytes (addr :: BitVec.ofNat 8 (body.length + 2) :: mark :: code :: body)).dropLast.dropLast = body := by
    unfold checkBytes
    rw [show ∀ (a b : Byte), body ++ [a, b] = (body ++ [a]) ++ [b] by intros; simp, List.dropLast_concat, List.dropLast_concat]
  rw [this]

/-- A position byte is read as what it means. -/
theorem position_means {code position : Byte} {b : Bool} (h : positionMeans code position b) : positionOpen code position = b := by
  rcases h with ⟨rfl, rfl⟩ | ⟨rfl, rfl⟩ | ⟨h1, h2, rfl⟩
  · rfl
  · rfl
  · unfold positionOpen; rw [if_neg h1, if_neg h2]

/-- A CONTACT body is read as what its byte means. -/
theorem contact_means {position b} (h : positionMeans 0x82 position b) : contactBody position = .contact b := by
  exact congrArg ReportBody.contact (position_means h)

/-- A BUTTON body is read as what its byte means. -/
theorem button_means {v b} (h : buttonMeans v b) : buttonBody v = .button b := by
  rcases h with ⟨rfl, rfl⟩ | ⟨rfl, rfl⟩ | ⟨h1, h2, rfl⟩
  · rfl
  · rfl
  · unfold buttonBody; rw [if_neg h1, if_neg h2]

/-- An ENC_RESULT body is read as what its byte means. -/
theorem result_means {v b} (h : resultMeans v b) : resultBody v = .encResult b := by
  rcases h with ⟨rfl, rfl⟩ | ⟨rfl, rfl⟩ | ⟨rfl, rfl⟩ | ⟨h1, h2, h3, rfl⟩
  · rfl
  · rfl
  · rfl
  · unfold resultBody; first | rw [if_neg h1, if_neg h2, if_neg h3] | (unfold encResultOf; rw [if_neg h1, if_neg h2, if_neg h3])

/-- The counts of a TALLY are read as what its bytes mean. -/
theorem pairs_mean : ∀ {pairs : List Byte} {counts : List (BitVec 4)}, pairsMean pairs counts → tallyCounts pairs = counts
  | [], counts, h => by
    obtain ⟨h1, _⟩ := h
    have : counts = [] := List.eq_nil_of_length_eq_zero (by simpa using h1)
    rw [this]; rfl
  | b :: pairs, counts, h => by
    obtain ⟨h1, h2⟩ := h
    match counts, h1, h2 with
    | [], h1, _ => simp at h1
    | [x], h1, _ => simp at h1; omega
    | x :: y :: rest, h1, h2 =>
      have ih := pairs_mean (pairs := pairs) (counts := rest) ⟨by simp at h1; omega, by
        intro i b' hb'
        have := h2 (i + 1) b' (by simpa using hb')
        rw [show 2 * (i + 1) = 2 * i + 2 by omega] at this
        simpa using this⟩
      obtain ⟨⟨hi, a1, a2⟩, ⟨lo, a3, a4⟩⟩ := h2 0 b rfl
      simp at a1 a3
      subst a1; subst a3
      unfold tallyCounts at *
      rw [List.flatMap_cons, ih]
      have e1 : b.extractLsb' 4 4 = x := by
        apply BitVec.eq_of_toNat_eq; rw [a2]; simp [BitVec.extractLsb'_toNat, Nat.shiftRight_eq_div_pow]; omega
      have e2 : b.extractLsb' 0 4 = y := by
        apply BitVec.eq_of_toNat_eq; rw [a4]; simp [BitVec.extractLsb'_toNat]
      rw [e1, e2]; rfl

/-- A fresh report in an exchange with a sound node, whose owner first leaves the device at `mid` and then hands commands for the node: all that the
owner's part does not say. -/
theorem exec_report_mid {s : State} {seg addr : Nat} {n : Node} {seq : BitVec 4} {b : ReportBody} {c : Instr} (att : Bool)
   (hx : s.dev.exchangeWith seg addr n) (hn : n.sound) (hl : n.lastSeq ≠ some seq)
   (he : exec c s = commit s (fun t => t.onDevice (fun d => d.answer seg att (some (seq, b))))) :
   ∃ (dR : Device),
     dR = { s.dev with nodes := dR.nodes, journal := (s.dev.beforeReport (seg * 256 + addr) n seq).journal } ∧
     Table.find (seg * 256 + addr) dR.nodes = some { n with lastSeq := some seq } ∧
     (∀ o, o ≠ seg * 256 + addr → Table.find o dR.nodes = Table.find o s.dev.nodes) ∧
     ∀ (d2 mid : Device) (sig : Signal) (m : Node) (cs : List Command) (tm : Nat), dR.handReport (seg * 256 + addr) n b = (d2, sig) →
         d2.reports = [] →
       Table.find (seg * 256 + addr) d2.nodes = some m → (∀ o, o ≠ seg * 256 + addr → Table.find o d2.nodes = Table.find o mid.nodes) →
       (mid.segment seg).exchange = some { addr := addr, carried := none, next := none, timeout := tm } → seg < mid.segments.length →
       d2.segments = mid.segments.set seg (cs.foldl (fun g c => g.place addr c) (mid.segment seg)) →
       ∃ t, exec c s = .next t ∧ State.answered { s with dev := mid } t seg addr att { m with owedAck := some (seq, sig) } cs ∧
           t.dev.journal = d2.journal ∧
         t = { s with dev := { d2 with
           regs := { d2.regs with status := stallStatus s.dev.journal d2.journal d2.regs.status }
           nodes := t.dev.nodes, segments := t.dev.segments } } := by
  have hlen := State.exchangeWith_length hx
  obtain ⟨haddr, ⟨tm, hex⟩, hdis, hf⟩ := hx
  have hkey : nodeKey seg addr = seg * 256 + addr := rfl
  obtain ⟨f, hfn, hh⟩ := Device.heardFrom_sound hf hn
  have hf1 : Table.find (seg * 256 + addr) (s.dev.modifyNode (seg * 256 + addr) f).nodes = some n := by
    rw [Device.modifyNode_nodes, Table.find_modify_self, hf]; simp [hfn]
  set d1 := s.dev.modifyNode (seg * 256 + addr) f with hd1
  set d1b := d1.beforeReport (seg * 256 + addr) n seq with hd1b
  have hb1 : d1b = { d1 with journal := (s.dev.beforeReport (seg * 256 + addr) n seq).journal } := by
    rw [hd1b]; unfold Device.beforeReport
    cases n.lastSeq with
    | none => rfl
    | some last =>
      simp only
      split
      · rfl
      · rfl
  set dR := d1b.modifyNode (seg * 256 + addr) (fun n => { n with lastSeq := some seq }) with hdR
  have hfR : Table.find (seg * 256 + addr) dR.nodes = some { n with lastSeq := some seq } := by
    rw [hdR, Device.modifyNode_nodes, Table.find_modify_self, hb1]; simp only [hf1, Option.map_some]
  have hoR : ∀ o, o ≠ seg * 256 + addr → Table.find o dR.nodes = Table.find o s.dev.nodes := by
    intro o ho
    rw [hdR, Device.modifyNode_nodes, Table.find_modify_ne _ _ ho, hb1]
    simp only [hd1, Device.modifyNode_nodes]
    exact Table.find_modify_ne _ _ ho
  refine ⟨dR, by rw [hdR, hb1]; rfl, hfR, hoR, ?_⟩
  intro d2 mid sig m cs tm2 hrep hr2 hf2 ho2 hmx hml hsg
  have hlen2 : seg < d2.segments.length := by rw [hsg]; simpa using hml
  have htake : d1.takeReport (seg * 256 + addr) seq b = d2.oweAck (seg * 256 + addr) seq sig := by
    have hacc : ∀ d : Device, d = d1b → d.acceptReport (seg * 256 + addr) n seq b = d2.oweAck (seg * 256 + addr) seq sig := by
      intro d hd
      unfold Device.acceptReport
      rw [hd, ← hdR, hrep]
    unfold Device.takeReport
    rw [hf1]
    simp only
    cases hls : n.lastSeq with
    | none =>
      simp only
      apply hacc
      rw [hd1b]; unfold Device.beforeReport; rw [hls]
    | some last =>
      simp only
      have hne : seq ≠ last := by rintro rfl; exact hl hls
      rw [if_neg hne]
      split
      · next h => apply hacc; rw [hd1b]; unfold Device.beforeReport; rw [hls]; simp only [if_pos h]
      · next h => apply hacc; rw [hd1b]; unfold Device.beforeReport; rw [hls]; simp only [if_neg h]; rfl
  set d3 := d2.oweAck (seg * 256 + addr) seq sig with hd3
  have hf3 : Table.find (seg * 256 + addr) d3.nodes = some { m with owedAck := some (seq, sig) } := by
    rw [hd3]; unfold Device.oweAck; rw [Device.modifyNode_nodes, Table.find_modify_self, hf2]; rfl
  have hsg3 : d3.segment seg = cs.foldl (fun g c => g.place addr c) (mid.segment seg) := by
    rw [hd3]; unfold Device.oweAck Device.segment
    rw [Device.modifyNode_segments, hsg, List.getD_eq_getElem?_getD, List.getElem?_set_self hml]; rfl
  obtain ⟨p1, p2⟩ := Segment.places_frame (addr := addr) cs hmx
  have hans : s.dev.answer seg att (some (seq, b)) = (let d := d3.setSegment seg (d3.segment seg).closed; if att then d.joinAttention
      (nodeKey seg addr) else d.leaveAttention (nodeKey seg addr)) := by
    unfold Device.answer
    rw [hex]
    simp only [hkey, hf, hh, htake, Device.carriedAnswered]
  obtain ⟨t1, t2, t3, t4⟩ := Device.answer_end (d := d3) (g := mid.segment seg) att haddr (by rw [hd3]; exact hlen2) hsg3 (p1.trans hmx)
      p2 hf3 _ hans
  generalize hdT : s.dev.answer seg att (some (seq, b)) = dT at *
  have hj : dT.journal = d2.journal := by rw [t4]; rfl
  refine ⟨_, he.trans (commit_of_settled s _ (by simp only [State.onDevice_dev]; rw [hdT, t4]; exact hr2)), ⟨?_, ?_, ?_⟩, ?_, ?_⟩
  · simp only [State.onDevice_dev]; rw [hdT]; exact t1
  · intro o ho
    simp only [State.onDevice_dev]; rw [hdT, t2 o ho, hd3]
    unfold Device.oweAck
    rw [Device.modifyNode_nodes, Table.find_modify_ne _ _ ho]; exact ho2 o ho
  · simp only [State.onDevice_dev]; rw [hdT, t3]
    show d2.segments.set seg _ = _
    rw [hsg, List.set_set]
  · simp only [State.onDevice_dev]; rw [hdT]; exact hj
  · simp only [State.onDevice, hdT]
    rw [t4, hd3]
    rfl

end Sys2Proof.Machine
end

