-- ==== Sys2Proof/Laws/CardTests.lean ====
section
/-! SUPPORT. The check of a card against the tests that `Device.cardTests` lists, one test after another. -/

namespace Sys2Proof.Machine

open Sys2Proof

/-- A privilege held is its bit set. -/
theorem hasPrivilege_iff (e : Entry) (p : Privilege) : hasPrivilege e.privileges p = true ↔ e.may p.index := Iff.rfl

/-- A door admits a card when it admits a bit that counts there. -/
theorem countedAt_admits_iff (n : Node) (e : Entry) (admitSet : BitVec 11) : countedAt n e &&& admitSet ≠ 0 ↔ ∃ bit, bit < 11 ∧ e.may bit ∧
    admitSet.getLsbD bit = true ∧ (bit = 0 → e.room = n.room ∧ e.room ≠ 65535) := by
  have hne : ∀ x : BitVec 11, x ≠ 0 ↔ ∃ b, b < 11 ∧ x.getLsbD b = true := by
    intro x
    constructor
    · intro h
      by_contra hc
      push Not at hc
      apply h
      apply BitVec.eq_of_getLsbD_eq
      intro i hi
      have := hc i hi
      simpa using this
    · rintro ⟨b, hb, hx⟩ rfl
      simp at hx
  rw [hne]
  constructor
  · rintro ⟨b, hb, hx⟩
    rw [BitVec.getLsbD_and, Bool.and_eq_true] at hx
    refine ⟨b, hb, ?_, hx.2, ?_⟩
    · unfold countedAt at hx
      split at hx
      · exact hx.1
      · have := hx.1; rw [BitVec.getLsbD_and, Bool.and_eq_true] at this; exact this.1
    · rintro rfl
      unfold countedAt at hx
      split at hx
      · next h => simpa [Config.noRoom] using h
      · have := hx.1; rw [BitVec.getLsbD_and, Bool.and_eq_true] at this
        exact absurd this.2 (by decide)
  · rintro ⟨b, hb, h1, h2, h3⟩
    refine ⟨b, hb, ?_⟩
    rw [BitVec.getLsbD_and, h2, Bool.and_true]
    unfold countedAt
    split
    · exact h1
    · next h =>
      rw [BitVec.getLsbD_and]
      have hb0 : b ≠ 0 := by
        rintro rfl
        apply h
        obtain ⟨q1, q2⟩ := h3 rfl
        simp [q1, Config.noRoom]
        rw [← q1]; exact q2
      have h1' : e.privileges.getLsbD b = true := h1
      rw [h1', Bool.true_and]
      have : b = 1 ∨ b = 2 ∨ b = 3 ∨ b = 4 ∨ b = 5 ∨ b = 6 ∨ b = 7 ∨ b = 8 ∨ b = 9 ∨ b = 10 := by omega
      rcases this with rfl | rfl | rfl | rfl | rfl | rfl | rfl | rfl | rfl | rfl <;> decide

section
variable (d : Device) (n : Node) (e : Entry)

/-- The test of the first minute. -/
def testNotYet : Prop := d.clock.valid = true → e.validFrom.toNat ≤ d.clock.minute.toNat

/-- The test of the last minute. -/
def testExpired : Prop := d.clock.valid = true → ∃ grace : Nat,
      ((e.kind = .guest ∧ n.isOwnDoor e ∧ grace = ((Table.find e.room d.rooms).map (fun r => r.grace)).getD 0)
        ∨ (¬ (e.kind = .guest ∧ n.isOwnDoor e) ∧ grace = 0))
      ∧ d.clock.minute.toNat < e.validUntil.toNat + grace

/-- The test of the clock. -/
def testClockUnset : Prop := d.clock.valid = false → e.kind = .guest → n.isOwnDoor e

/-- Whether a door is an entry's own. -/
theorem ownDoor_iff : ownDoor n e = true ↔ n.isOwnDoor e := by
  unfold ownDoor Node.isOwnDoor; simp

/-- The expiry test in terms of the limit that the check computes. -/
theorem testExpired_iff : testExpired d n e ↔ (d.clock.valid = true → d.clock.minute.toNat < d.validLimit n e) := by
  unfold testExpired Device.validLimit
  have hg : ((Table.find e.room d.rooms).map (fun r => r.grace)).getD 0 = (d.roomAnswer e.room).grace := by
    unfold Device.roomAnswer; cases Table.find e.room d.rooms <;> rfl
  by_cases hc : e.kind = .guest ∧ n.isOwnDoor e
  · have : (decide (e.kind = .guest) && ownDoor n e) = true := by simp [hc.1, ownDoor_iff, hc.2]
    constructor
    · intro h hv
      obtain ⟨g, hg1, hg2⟩ := h hv
      simp only [this, if_true]
      rcases hg1 with ⟨_, _, rfl⟩ | ⟨h2, _⟩
      · rw [← hg]; exact hg2
      · exact absurd hc h2
    · intro h hv
      have h := h hv
      simp only [this, if_true] at h
      exact ⟨_, .inl ⟨hc.1, hc.2, rfl⟩, by rw [hg]; exact h⟩
  · have : (decide (e.kind = .guest) && ownDoor n e) = false := by
      rw [Bool.eq_false_iff]; intro h; simp only [Bool.and_eq_true, decide_eq_true_eq, ownDoor_iff] at h; exact hc h
    constructor
    · intro h hv
      obtain ⟨g, hg1, hg2⟩ := h hv
      simp only [this, Bool.false_eq_true, if_false]
      rcases hg1 with ⟨h1, h2, _⟩ | ⟨_, rfl⟩
      · exact absurd ⟨h1, h2⟩ hc
      · simpa using hg2
    · intro h hv
      have h := h hv
      simp only [this, Bool.false_eq_true, if_false] at h
      exact ⟨0, .inr ⟨hc, rfl⟩, by simpa using h⟩

/-- Too early. -/
theorem checkValidity_notYet (h : ¬ testNotYet d e) : d.checkValidity n e = some .notYet := by
  unfold testNotYet at h; push Not at h
  unfold Device.checkValidity; rw [if_pos h.1, if_pos h.2]

/-- Too late. -/
theorem checkValidity_expired (h1 : testNotYet d e) (h : ¬ testExpired d n e) : d.checkValidity n e = some .expired := by
  rw [testExpired_iff] at h; push Not at h
  unfold Device.checkValidity; rw [if_pos h.1, if_neg (Nat.not_lt.mpr (h1 h.1)), if_neg (Nat.not_lt.mpr h.2)]

/-- The clock not set. -/
theorem checkValidity_clockUnset (h : ¬ testClockUnset d n e) : d.checkValidity n e = some .clockUnset := by
  unfold testClockUnset at h; push Not at h
  obtain ⟨a, b, c⟩ := h
  have : ownDoor n e = false := by rw [Bool.eq_false_iff]; intro q; exact c ((ownDoor_iff n e).1 q)
  unfold Device.checkValidity; rw [if_neg (by simp [a])]; simp [b, this]

/-- The validity tests passed. -/
theorem checkValidity_passes (h1 : testNotYet d e) (h2 : testExpired d n e) (h3 : testClockUnset d n e) : d.checkValidity n e = none := by
  rw [testExpired_iff] at h2
  unfold Device.checkValidity
  by_cases hv : d.clock.valid = true
  · rw [if_pos hv, if_neg (Nat.not_lt.mpr (h1 hv)), if_pos (h2 hv)]
  · rw [if_neg hv, if_neg]
    intro q
    simp only [Bool.and_eq_true, decide_eq_true_eq, Bool.not_eq_true'] at q
    have := (ownDoor_iff n e).2 (h3 (by simpa using hv) q.1)
    rw [this] at q; cases q.2

/-- The test of the privilege. -/
def testPrivilege : Prop := (∃ r, n.door = some r ∧ ∃ bit, bit < 11 ∧ e.may bit ∧ r.settings.admitSet.getLsbD bit = true
        ∧ (bit = 0 → e.room = n.room ∧ e.room ≠ 65535))
      ∨ (n.door = none ∧ ((e.may 1 ∧ e.room = n.room) ∨ e.may 7))

/-- The privilege check passes exactly when its test does. -/
theorem checkPrivilege_passes_iff : checkPrivilege n e = none ↔ testPrivilege n e := by
  unfold checkPrivilege testPrivilege
  cases hd : n.door with
  | none =>
    simp only [reduceCtorEq, false_and, exists_false, true_and, false_or]
    have : (minibarQualifies n e || hasPrivilege e.privileges .restock) = true ↔ ((e.may 1 ∧ e.room = n.room) ∨ e.may 7) := by
      unfold minibarQualifies
      rw [Bool.or_eq_true, Bool.and_eq_true, decide_eq_true_eq]
      exact Iff.rfl
    rw [← this]
    split <;> simp_all
  | some r =>
    simp only [Option.some.injEq, exists_eq_left', reduceCtorEq, false_and, or_false]
    rw [← countedAt_admits_iff]
    by_cases h : countedAt n e &&& r.settings.admitSet = 0 <;> simp [h]

/-- No privilege. -/
theorem checkPrivilege_fails (h : ¬ testPrivilege n e) : checkPrivilege n e = some .noPrivilege := by
  rw [← checkPrivilege_passes_iff] at h
  unfold checkPrivilege at h ⊢
  split at h <;> split at h <;> simp_all

/-- The test of the occupancy. -/
def testOccupied : Prop := e.kind = .guest → ∃ r, Table.find e.room d.rooms = some r ∧ r.state = .occupied

/-- The occupancy check's condition. -/
theorem testOccupied_iff : (decide (e.kind = .guest) && !(d.roomAnswer e.room).occupied) = true ↔ ¬ testOccupied d e := by
  unfold testOccupied Device.roomAnswer
  cases h : Table.find e.room d.rooms with
  | none => simp
  | some r => simp

/-- A guest's room is not OCCUPIED. -/
theorem checkOccupied_fails (h : ¬ testOccupied d e) : d.checkOccupied e = some .roomNotOccupied := by
  unfold Device.checkOccupied; rw [if_pos ((testOccupied_iff d e).2 h)]

/-- The occupancy test passed. -/
theorem checkOccupied_passes (h : testOccupied d e) : d.checkOccupied e = none := by
  unfold Device.checkOccupied; rw [if_neg (fun q => (testOccupied_iff d e).1 q h)]

/-- The test of do not disturb. -/
def testDnd : Prop := n.kind = .roomDoor → (∃ r, Table.find n.room d.rooms = some r ∧ r.dnd = true) →
      (e.kind = .guest ∧ e.room = n.room) ∨ e.kind = .emergency ∨ e.may 9

/-- The do-not-disturb check's condition. -/
theorem testDnd_iff : (decide (n.kind = .roomDoor) && (d.roomAnswer n.room).dnd
      && !((decide (e.kind = .guest) && decide (e.room = n.room)) || decide (e.kind = .emergency)
        || hasPrivilege e.privileges .dndOverride)) = true ↔ ¬ testDnd d n e := by
  have h9 : hasPrivilege e.privileges .dndOverride = true ↔ e.may 9 := Iff.rfl
  have hr : (d.roomAnswer n.room).dnd = true ↔ ∃ r, Table.find n.room d.rooms = some r ∧ r.dnd = true := by
    unfold Device.roomAnswer; cases Table.find n.room d.rooms <;> simp
  unfold testDnd
  rw [← h9, ← hr]
  cases hasPrivilege e.privileges .dndOverride <;> cases (d.roomAnswer n.room).dnd <;> simp [Bool.and_eq_true] <;> tauto

/-- Do not disturb. -/
theorem checkDnd_fails (h : ¬ testDnd d n e) : d.checkDnd n e = some .dnd := by
  unfold Device.checkDnd; rw [if_pos ((testDnd_iff d n e).2 h)]

/-- The do-not-disturb test passed. -/
theorem checkDnd_passes (h : testDnd d n e) : d.checkDnd n e = none := by
  unfold Device.checkDnd; rw [if_neg (fun q => (testDnd_iff d n e).1 q h)]

/-- The test of the clock where hours bind. -/
def testHoursClock : Prop := ∀ r, n.door = some r → r.settings.hoursOpen ≠ r.settings.hoursClose → (e.kind = .guest ∨ e.kind = .service) →
      ¬ (e.kind = .guest ∧ n.isOwnDoor e) → d.clock.valid = true

/-- The test of the hours. -/
def testHours : Prop := ∀ r, n.door = some r → r.settings.hoursOpen ≠ r.settings.hoursClose → (e.kind = .guest ∨ e.kind = .service) →
      ¬ (e.kind = .guest ∧ n.isOwnDoor e) →
      if r.settings.hoursOpen < r.settings.hoursClose then
        r.settings.hoursOpen ≤ d.clock.minute.toNat % 1440 ∧ d.clock.minute.toNat % 1440 < r.settings.hoursClose
      else r.settings.hoursOpen ≤ d.clock.minute.toNat % 1440 ∨ d.clock.minute.toNat % 1440 < r.settings.hoursClose

/-- When a door's hours do not bind a card. -/
theorem hoursKept_iff (r : Door) : (decide (r.settings.hoursOpen = r.settings.hoursClose) || !e.kind.keepsHours || (decide (e.kind =
    .guest) && ownDoor n e)) = true ↔
    ¬ (r.settings.hoursOpen ≠ r.settings.hoursClose ∧ (e.kind = .guest ∨ e.kind = .service) ∧ ¬ (e.kind = .guest ∧ n.isOwnDoor e)) := by
  rw [← ownDoor_iff]
  cases e.kind <;> simp [CardKind.keepsHours] <;> tauto

/-- Within hours, over midnight or not. -/
theorem withinHours_iff (a b m : Nat) : withinHours a b m = true ↔ if a < b then a ≤ m ∧ m < b else a ≤ m ∨ m < b := by
  unfold withinHours; split <;> simp

/-- Hours bind and the clock is not set. -/
theorem checkHours_clockUnset (h : ¬ testHoursClock d n e) : d.checkHours n e = some .clockUnset := by
  unfold testHoursClock at h; push Not at h
  obtain ⟨r, h1, h2, h3, h4, h5⟩ := h
  unfold Device.checkHours; rw [h1]
  simp only
  rw [if_neg, if_pos]
  · simpa using h5
  · rw [hoursKept_iff]; push Not; exact ⟨h2, h3, h4⟩

/-- Outside the hours. -/
theorem checkHours_outOfHours (h0 : testHoursClock d n e) (h : ¬ testHours d n e) : d.checkHours n e = some .outOfHours := by
  unfold testHours at h
  rw [not_forall] at h
  obtain ⟨r, h⟩ := h
  simp only [Classical.not_imp] at h
  obtain ⟨h1, h2, h3, h4, h5⟩ := h
  unfold Device.checkHours; rw [h1]
  simp only
  rw [if_neg, if_neg, if_neg]
  · intro q; exact h5 ((withinHours_iff _ _ _).1 q)
  · rw [h0 r h1 h2 h3 h4]; simp
  · rw [hoursKept_iff]; exact fun q => q ⟨h2, h3, h4⟩

/-- The tests of the hours passed. -/
theorem checkHours_passes (h0 : testHoursClock d n e) (h : testHours d n e) : d.checkHours n e = none := by
  unfold Device.checkHours
  cases hd : n.door with
  | none => rfl
  | some r =>
    simp only
    by_cases hs : r.settings.hoursOpen ≠ r.settings.hoursClose ∧ (e.kind = .guest ∨ e.kind = .service) ∧ ¬ (e.kind = .guest ∧ n.isOwnDoor e)
    · rw [if_neg (by rw [hoursKept_iff]; exact fun q => q hs), if_neg (by rw [h0 r hd hs.1 hs.2.1 hs.2.2]; simp), if_pos ((withinHours_iff
        _ _ _).2 (h r hd hs.1 hs.2.1 hs.2.2))]
    · rw [if_pos ((hoursKept_iff n e r).2 hs)]

/-- The test of the storm. -/
def testStorm : Prop := n.kind = .shoreGate → d.storm.active = true → e.kind = .emergency ∨ e.may 8

/-- The storm check's condition. -/
theorem testStorm_iff : (decide (n.kind = .shoreGate) && d.storm.active && !(decide (e.kind = .emergency) || hasPrivilege e.privileges
    .stormPass)) = true ↔ ¬ testStorm d n e := by
  have h9 : hasPrivilege e.privileges .stormPass = true ↔ e.may 8 := Iff.rfl
  unfold testStorm; rw [← h9]
  cases hasPrivilege e.privileges .stormPass <;> cases d.storm.active <;> simp

/-- The storm locks the gate. -/
theorem checkStorm_fails (h : ¬ testStorm d n e) : d.checkStorm n e = some .stormLock := by
  unfold Device.checkStorm; rw [if_pos ((testStorm_iff d n e).2 h)]

/-- The storm test passed. -/
theorem checkStorm_passes (h : testStorm d n e) : d.checkStorm n e = none := by
  unfold Device.checkStorm; rw [if_neg (fun q => (testStorm_iff d n e).1 q h)]
end

/-- The check of a card answers the first test that fails. -/
theorem Device.checkCard_error {d : Device} {n : Node} {i : CardImage} {e : Entry} {reason : Reason} (hu : ∀ e', d.entryOf i.serial = some
    e' → e' = e) (h : firstFailure (d.cardTests n i e) reason) :
   d.checkCard n i = .error reason := by
  simp only [Device.cardTests, firstFailure] at h
  change _ ∨ _ at h
  unfold Device.checkCard
  rcases h with ⟨h, rfl⟩ | ⟨h1, h⟩
  · have : imagePasses d.propertyCode i = false := by unfold imagePasses; rw [decide_eq_false_iff_not]; exact h
    simp [this]
  have e1 : imagePasses d.propertyCode i = true := by unfold imagePasses; rw [decide_eq_true_eq]; exact h1
  rw [e1]
  simp only [Bool.not_true, Bool.false_eq_true, if_false]
  rcases h with ⟨h, rfl⟩ | ⟨h2, h⟩
  · have : d.creds.deny.contains i.serial = true := by simpa using h
    rw [if_pos this]
  have e2 : d.creds.deny.contains i.serial = false := by simpa using h2
  rw [e2]
  simp only [Bool.false_eq_true, if_false]
  rcases h with ⟨h, rfl⟩ | ⟨h3, h⟩
  · cases hh : d.entryOf i.serial with
    | none => rfl
    | some e' => exact absurd (by rw [hh, hu e' hh]) h
  rw [h3]
  simp only
  rcases h with ⟨h, rfl⟩ | ⟨h4, h⟩
  · rw [if_pos (not_not.mp h)]
  rw [if_neg h4]
  have him : imageMatches i e = true ↔ (i.kind.toNat = e.kind.code ∧ i.room.toNat = e.room ∧ i.minute = e.issueMinute) := by
    unfold imageMatches; simp [and_assoc]
  rcases h with ⟨h, rfl⟩ | ⟨h5, h⟩
  · rw [if_pos]; rw [← him] at h; simpa using h
  rw [if_neg (by rw [him.2 h5]; simp)]
  rcases h with ⟨h, rfl⟩ | ⟨h6, h⟩
  · rw [if_pos (not_not.mp h)]
  rw [if_neg h6]
  have hfr : ∀ l : List (Option Reason), firstReason l = some reason → (match firstReason l with
    | some r => (Except.error r : Except Reason Entry)
    | none => .ok e) = .error reason := by intro l hl; rw [hl]
  apply hfr
  rcases h with ⟨h, rfl⟩ | ⟨h7, h⟩
  · rw [checkValidity_notYet d n e h]; rfl
  rcases h with ⟨h, rfl⟩ | ⟨h8, h⟩
  · rw [checkValidity_expired d n e h7 h]; rfl
  rcases h with ⟨h, rfl⟩ | ⟨h9, h⟩
  · rw [checkValidity_clockUnset d n e h]; rfl
  rw [checkValidity_passes d n e h7 h8 h9]
  show firstReason [_, _, _, _, _] = _
  rcases h with ⟨h, rfl⟩ | ⟨h10, h⟩
  · rw [checkPrivilege_fails n e h]; rfl
  rw [(checkPrivilege_passes_iff n e).2 h10]
  show firstReason [_, _, _, _] = _
  rcases h with ⟨h, rfl⟩ | ⟨h11, h⟩
  · rw [checkOccupied_fails d e h]; rfl
  rw [checkOccupied_passes d e h11]
  show firstReason [_, _, _] = _
  rcases h with ⟨h, rfl⟩ | ⟨h12, h⟩
  · rw [checkDnd_fails d n e h]; rfl
  rw [checkDnd_passes d n e h12]
  show firstReason [_, _] = _
  rcases h with ⟨h, rfl⟩ | ⟨h13, h⟩
  · rw [checkHours_clockUnset d n e h]; rfl
  rcases h with ⟨h, rfl⟩ | ⟨h14, h⟩
  · rw [checkHours_outOfHours d n e h13 h]; rfl
  rw [checkHours_passes d n e h13 h14]
  show firstReason [_] = _
  rcases h with ⟨h, rfl⟩ | ⟨h15, h⟩
  · rw [checkStorm_fails d n e h]; rfl
  exact absurd h (by exact not_false)

/-- The check of a card answers its entry when every test passes. -/
theorem Device.checkCard_ok {d : Device} {n : Node} {i : CardImage} {e : Entry} (h : ∀ p ∈ d.cardTests n i e, p.2) : d.checkCard n i = .ok
    e := by
  simp only [Device.cardTests, List.forall_mem_cons] at h
  obtain ⟨h1, h2, h3, h4, h5, h6, h7, h8, h9, h10, h11, h12, h13, h14, h15, _⟩ := h
  unfold Device.checkCard
  have e1 : imagePasses d.propertyCode i = true := by unfold imagePasses; rw [decide_eq_true_eq]; exact h1
  have e2 : d.creds.deny.contains i.serial = false := by simpa using h2
  have him : imageMatches i e = true := by
    unfold imageMatches; simp only [Bool.and_eq_true, decide_eq_true_eq]; exact ⟨⟨h5.1, h5.2.1⟩, h5.2.2⟩
  have h3' : d.entryOf i.serial = some e := h3
  rw [e1, e2, h3']
  simp only [Bool.not_true, Bool.false_eq_true, if_false]
  rw [if_neg (show ¬ e.state = .encoding from h4), him]
  simp only [Bool.not_true, Bool.false_eq_true, if_false]
  rw [if_neg (show ¬ e.state = .suspended from h6)]
  rw [checkValidity_passes d n e h7 h8 h9, (checkPrivilege_passes_iff n e).2 h10, checkOccupied_passes d e h11, checkDnd_passes d n e h12,
      checkHours_passes d n e h13 h14, checkStorm_passes d n e h15]
  rfl

end Sys2Proof.Machine
end

