-- ==== Sys2Proof/Laws/Closure.lean ====
section
/-! SUPPORT. The few ways in which a part of the device changes the journal, the rooms, the entries and the deny list. A property that every
one of them keeps is kept by every operation of the model, up to the end of a command: `Closed` says it, one lemma an operation. -/

namespace Sys2Proof.Machine

open Sys2Proof

/-- A room edit that leaves the session alone. -/
def Room.keepsSession (r r' : Room) : Prop :=
  r'.bar.inSession = r.bar.inSession
    ∧ (r.session.isSome = r.bar.inSession → r'.session.isSome = r'.bar.inSession)
    ∧ ((r.unlatchPending = true → r.bar.inSession = true) → r'.unlatchPending = true → r'.bar.inSession = true)

/-- A room edit that leaves the session alone and keeps the folio in its range and the suspension rule. -/
def Room.keepsFolio (r r' : Room) : Prop :=
  (r.folioOk → r.suspensionOk → r'.folioOk ∧ r'.suspensionOk) ∧ r.keepsSession r'

/-- An edit of the room at an index that ends its session and keeps its folio. -/
def Device.endsSession (d : Device) (room : Nat) (f : Room → Room) : Prop :=
  (d.foliosOk → ∀ x, (room, x) ∈ d.rooms → (f x).folioOk ∧ (f x).suspensionOk)
    ∧ ∀ x, (f x).bar.inSession = false ∧ (f x).session = none ∧ (f x).unlatchPending = false

/-- What a property of the device must bear to hold after every operation. -/
structure Closed (P : Device → Prop) : Prop where
  /-- A change that touches neither the journal, the rooms, the entries nor the deny list. -/
  frame : ∀ {d d' : Device}, P d → d'.journal = d.journal → d'.rooms = d.rooms → d'.creds.entries = d.creds.entries →
    d'.creds.deny = d.creds.deny → P d'
  /-- An entry is freed. -/
  free : ∀ {d : Device} {s : Word} {e : Entry}, P d → P (d.freeEntry s e)
  /-- A serial without an entry is denied. -/
  denyNew : ∀ {d : Device} {s : Word}, P d → d.entryOf s = none → P (d.denySerial s)
  /-- An entry that the table holds is replaced. -/
  put : ∀ {d : Device} {s : Word} {e e' : Entry}, P d → d.entryOf s = some e → P (d.putEntry s e')
  /-- A new entry, after the purge that makes place for it; its serial leaves the deny list. -/
  purgePut : ∀ {d : Device} {s t : Word} {e : Entry}, P d → d.entryOf s = none → (d.tableFull && d.purgeCandidate.isNone) = false →
    P { (d.purge t).putEntry s e with
      creds := { ((d.purge t).putEntry s e).creds with
        deny := ((d.purge t).putEntry s e).creds.deny.filter (fun x => decide (x ≠ s)) } }
  /-- A record that takes no reservation. -/
  plain : ∀ {d : Device} {b : RecordBody} {f : RecordFlags} {c : RecordClass}, c ≠ .reserved → b.repeatCount ≤ 1 → P d → P (d.record b f c)
  /-- A change of the journal that leaves its queue, reservations and suppressed count. -/
  jmove : ∀ {d d' : Device}, P d → d'.journal.queue = d.journal.queue → d'.journal.reserved = d.journal.reserved →
    d'.journal.suppressed = d.journal.suppressed → d'.rooms = d.rooms → d'.creds.entries = d.creds.entries →
    d'.creds.deny = d.creds.deny → P d'
  /-- A record is placed. -/
  complete : ∀ {d : Device}, P d → P { d with journal := d.journal.complete }
  /-- Every room is edited, its session and folio kept. -/
  roomsMap : ∀ {d : Device} {f : Nat → Room → Room}, (∀ (k : Nat) (r : Room), r.keepsFolio (f k r)) → P d → P
      { d with rooms := Table.mapVals f d.rooms }
  /-- A room is edited, its session and folio kept. -/
  roomMap : ∀ {d : Device} {room : Nat} {f : Room → Room}, (∀ r : Room, r.keepsFolio (f r)) → P d → P (d.modifyRoom room f)
  /-- A room that the table holds is edited, its session and, in the table as it is, its folio kept. -/
  roomAt : ∀ {d d' : Device} {room : Nat} {r : Room} {f : Room → Room}, (room, r) ∈ d.rooms →
    (d.foliosOk → ∀ x, (room, x) ∈ d.rooms → (f x).folioOk ∧ (f x).suspensionOk) → r.keepsSession (f r) →
    d'.rooms = Table.modify room f d.rooms → d'.creds.entries = d.creds.entries → d'.creds.deny = d.creds.deny →
    d'.journal = d.journal → P d → P d'
  /-- A session ends and gives its reservation back. -/
  closeGive : ∀ {d d' : Device} {room : Nat} {r : Room} {f : Room → Room}, (room, r) ∈ d.rooms →
    (r.bar.inSession = true ∨ r.unlatchPending = true) → d.endsSession room f → d'.rooms = Table.modify room f d.rooms →
    d'.journal = { d.journal with reserved := d.journal.reserved - 1 } → d'.creds.entries = d.creds.entries →
    d'.creds.deny = d.creds.deny → P d → P d'
  /-- A session ends in the record that its reservation was kept for. -/
  closeRecord : ∀ {d x : Device} {room : Nat} {r : Room} {f : Room → Room} {b : RecordBody} {fl : RecordFlags}, (room, r) ∈ d.rooms →
    r.bar.inSession = true → d.endsSession room f → b.repeatCount ≤ 1 → x.rooms = Table.modify room f d.rooms →
    x.journal = d.journal → x.creds.entries = d.creds.entries → x.creds.deny = d.creds.deny → P d → P (x.record b fl .reserved)
  /-- A session opens and takes a reservation. -/
  opens : ∀ {d d' : Device} {room : Nat} {r : Room} {b : BarState}, (room, r) ∈ d.rooms → r.bar.inSession = false → b.inSession = true →
    d.journal.mayReserve = true →
    d'.rooms = Table.modify room (fun r => { r with unlatchPending := true, session := Timer.started, bar := b }) d.rooms →
    d'.journal = { d.journal with reserved := d.journal.reserved + 1 } → d'.creds.entries = d.creds.entries →
    d'.creds.deny = d.creds.deny → P d → P d'
  /-- A room is created, out of session. -/
  newRoom : ∀ {d : Device} {k : Nat} {r : Room}, Table.find k d.rooms = none → r.folioOk → r.suspensionOk → r.bar.inSession = false →
    r.session = none → r.unlatchPending = false → P d → P { d with rooms := Table.put k r d.rooms }
  /-- A reset of the rooms, every reservation given back. -/
  reset : ∀ {d d' : Device}, d'.rooms = Table.mapVals (fun _ r => r.reset) d.rooms → d'.journal.queue = d.journal.queue →
    d'.journal.reserved = 0 → d'.journal.suppressed = d.journal.suppressed → d'.creds.entries = d.creds.entries →
    d'.creds.deny = d.creds.deny → P d → P d'

/-! ## Room edits -/
theorem Room.keepsFolio_self (r : Room) : Room.keepsFolio r r := ⟨fun a b => ⟨a, b⟩, by rfl, id, id⟩

theorem Device.barRoom_mem {d : Device} {key i r} (h : d.barRoom key = some (i, r)) : (i, r) ∈ d.rooms := List.mem_of_find?_eq_some h

theorem Device.doorRoom_mem {d : Device} {key i r} (h : d.doorRoom key = some (i, r)) : (i, r) ∈ d.rooms := List.mem_of_find?_eq_some h

theorem Room.keepsFolio_suspension {r q : Room} (hb : q.bar = r.bar) (hs : q.session = r.session) (hu : q.unlatchPending = r.unlatchPending)
    (hf : r.folioOk → q.folioOk) : Room.keepsFolio r q.suspension := by
  refine ⟨fun a _ => ⟨Room.folioOk_suspension (hf a), Room.suspensionOk_suspension q⟩, ?_, ?_, ?_⟩
  · rw [Room.suspension_inSession, hb]
  · rw [(Room.suspension_frame q).2.2.2.2.2.2.2.2.2.2.2.2.2.2.2.2.2.1, hs, Room.suspension_inSession, hb]; exact id
  · rw [(Room.suspension_frame q).2.2.2.2.2.2.2.2.2.2.2.2.2.2.2.2.2.2, hu, Room.suspension_inSession, hb]; exact id

theorem Room.keepsSession_suspension {r q : Room} (hb : q.bar = r.bar) (hs : q.session = r.session) (hu : q.unlatchPending =
    r.unlatchPending) : Room.keepsSession r q.suspension := by
  refine ⟨?_, ?_, ?_⟩
  · rw [Room.suspension_inSession, hb]
  · rw [(Room.suspension_frame q).2.2.2.2.2.2.2.2.2.2.2.2.2.2.2.2.2.1, hs, Room.suspension_inSession, hb]; exact id
  · rw [(Room.suspension_frame q).2.2.2.2.2.2.2.2.2.2.2.2.2.2.2.2.2.2, hu, Room.suspension_inSession, hb]; exact id

theorem Device.endsSession_closeSession {d : Device} {room : Nat} {f : Room → Room} (hf : d.foliosOk → ∀ x, (room, x) ∈ d.rooms → (f
    x).folioOk) : Device.endsSession d room (fun r => (f r).closeSession) :=
  ⟨fun a x hx => ⟨hf a x hx, Room.suspensionOk_closeSession (f x)⟩, fun x => ⟨Room.restState_notInSession (f x), rfl, rfl⟩⟩

theorem Room.folioOk_same {r q : Room} (h : q.balance = r.balance ∧ q.ceiling = r.ceiling ∧ q.defaultCeiling = r.defaultCeiling ∧
    q.openFloor = r.openFloor ∧ q.unposted = r.unposted) : r.folioOk → q.folioOk := by
  obtain ⟨a, b, c, d, e⟩ := h
  unfold Room.folioOk; rw [a, b, c, d, e]; exact id

/-- The room at the index is in the bar state. -/
def Device.hasBar (d : Device) (k : Nat) (b : BarState) : Prop := ∃ r, (k, r) ∈ d.rooms ∧ r.bar = b

theorem Device.hasBar_same {d d' : Device} {k b} (h : d'.rooms = d.rooms) : Device.hasBar d k b → Device.hasBar d' k b := by
  unfold Device.hasBar; rw [h]; exact id

theorem Device.hasBar_freeEntry {d : Device} {s e k b} (h : Device.hasBar d k b) : Device.hasBar (d.freeEntry s e) k b := by
  unfold Device.freeEntry; dsimp only; split
  · obtain ⟨r, hm, hb⟩ := h
    refine ⟨if k = e.room then { r with guestCount := r.guestCount - 1 } else r, ?_, by split <;> exact hb⟩
    simp only [Device.modifyRoom_rooms]
    unfold Table.modify
    refine List.mem_map.mpr ⟨(k, r), hm, ?_⟩
    simp only; split <;> rfl
  · exact h

theorem Device.hasBar_retire {d : Device} {s e t k b} (h : Device.hasBar d k b) : Device.hasBar (d.retire s e t).1 k b := by
  unfold Device.retire; split
  · exact h
  · have h2 := fun s e => Device.hasBar_freeEntry (s := s) (e := e) h
    split
    · rename_i e0 _ _ _
      refine Device.hasBar_same (d := (Device.cancelEncoding d s e0).1) (by simp [Device.recordCard, Device.notable, Device.record]) ?_
      unfold Device.cancelEncoding; split
      · exact Device.hasBar_same rfl (h2 _ _)
      · next key place _ =>
        split
        · exact h
        · dsimp only; split
          · have h3 := Device.hasBar_freeEntry (s := s) (e := e0) (Device.hasBar_same (d := d) (d' := d.hand key .abandon) (by simp) h)
            exact Device.hasBar_same (by simp [Device.denySerial]) h3
          · exact Device.hasBar_same rfl (Device.hasBar_freeEntry (s := s) (Device.hasBar_same (d := d) rfl h))
    · exact Device.hasBar_same rfl (h2 _ _)
    · exact Device.hasBar_same rfl (h2 _ _)

theorem Device.hasBar_retireAll {e t k b} (l : List Word) {d : Device} (h : Device.hasBar d k b) : Device.hasBar (d.retireAll e t l).1 k
    b := by
  induction l generalizing d with
  | nil => exact h
  | cons x xs ih => exact ih (Device.hasBar_retire h)


theorem Device.entryOf_freeEntry (d : Device) (s e) : (d.freeEntry s e).entryOf s = none := by
  have hE : (d.freeEntry s e).creds.entries = Table.erase s.toNat d.creds.entries := by
    unfold Device.freeEntry; dsimp only; split_ifs <;> rfl
  unfold Device.entryOf; rw [hE]; exact Table.find_erase_self _ _

/-- The journal, the rooms, the entries and the deny list are the same. -/
def State.sameCore (s t : State) : Prop := t.dev.journal = s.dev.journal ∧ t.dev.rooms = s.dev.rooms ∧ t.dev.creds.entries =
    s.dev.creds.entries ∧ t.dev.creds.deny = s.dev.creds.deny

theorem State.sameCore_keeps (C : Closed P) {s t : State} (h : State.sameCore s t) : P s.dev → P t.dev := fun a => C.frame a h.1 h.2.1
    h.2.2.1 h.2.2.2

theorem State.sameCore_stampBlock (s : State) : State.sameCore s s.stampBlock := by
  unfold State.stampBlock State.sameCore; split
  · unfold Device.settledIf; split <;> exact ⟨rfl, rfl, rfl, rfl⟩
  · exact ⟨rfl, rfl, rfl, rfl⟩

theorem State.sameCore_stampBefore (s : State) (b) : State.sameCore s (s.stampBefore b) := by
  unfold State.stampBefore; split
  · exact State.sameCore_stampBlock s
  · exact ⟨rfl, rfl, rfl, rfl⟩

/-! ## Operations -/

section
variable {P : Device → Prop} (C : Closed P)
include C

theorem Closed.notable {d : Device} {b : RecordBody} (hb : b.repeatCount ≤ 1) (h : P d) : P (d.notable b) := C.plain (by decide) hb h

theorem Closed.latch {d : Device} {b} (h : P d) : P (d.latch b) := C.frame h rfl rfl rfl rfl

theorem Closed.modifyNode {d : Device} {k f} (h : P d) : P (d.modifyNode k f) := C.frame h rfl rfl rfl rfl

theorem Closed.modifyEncoder {d : Device} {k f} (h : P d) : P (d.modifyEncoder k f) := C.frame h rfl rfl rfl rfl

theorem Closed.setSegment {d : Device} {k f} (h : P d) : P (d.setSegment k f) := C.frame h rfl rfl rfl rfl

theorem Closed.hand {d : Device} {k c} (h : P d) : P (d.hand k c) := C.frame h (by simp) (by simp) (by simp) (by simp)

theorem Closed.handAll {d : Device} {k c} (h : P d) : P (d.handAll k c) := C.frame h (by simp) (by simp) (by simp) (by simp)

theorem Closed.handBar {d : Device} {k c} (h : P d) : P (d.handBar k c) := C.frame h (by simp) (by simp) (by simp) (by simp)

set_option linter.unusedSectionVars false in
theorem Closed.fold {β : Type} {f : Device → β → Device} (hf : ∀ d x, P d → P (f d x)) (xs : List β) {d : Device} (h : P d) : P (xs.foldl f
    d) := by
  induction xs generalizing d with
  | nil => exact h
  | cons x xs ih => exact ih (hf _ _ h)

theorem Closed.applyDoor {d : Device} {k out o} (h : P d) : P (d.applyDoor k out o) := by
  unfold Device.applyDoor; dsimp only
  apply C.fold
  · intro d x hd
    refine C.plain ?_ ?_ hd
    · cases x <;> decide
    · show (0 : Nat) ≤ 1; decide
  · have h1 := C.modifyNode (k := k) (f := fun n => { n with door := some o.door }) h
    have h2 : P (if out = true then d.modifyNode k (fun n => { n with door := some o.door }) else (d.modifyNode k (fun n =>
        { n with door := some o.door })).handAll k o.commands) := by
      split
      · exact h1
      · exact C.handAll h1
    split
    · exact C.latch h2
    · exact h2

theorem Closed.doorEvent {d : Device} {k f} (h : P d) : P (d.doorEvent k f) := by
  unfold Device.doorEvent; split
  · exact h
  · split
    · exact h
    · exact C.applyDoor h

theorem Closed.everyDoor {d : Device} {f} (h : P d) : P (d.everyDoor f) := C.fold (fun _ _ h => C.doorEvent h) _ h

theorem Closed.endHolds {d : Device} (h : P d) : P d.endHolds := C.everyDoor h

theorem Closed.doorsOnFire {d : Device} {a} (h : P d) : P (d.doorsOnFire a) := by
  unfold Device.doorsOnFire; dsimp only; split <;> exact C.everyDoor h

theorem Closed.doorsOnStorm {d : Device} {a} (h : P d) : P (d.doorsOnStorm a) := by
  unfold Device.doorsOnStorm; split
  · exact C.everyDoor h
  · exact h

theorem Closed.doorNodeChanged {d : Device} {k a b} (h : P d) : P (d.doorNodeChanged k a b) := C.doorEvent h

theorem Closed.doorHeard {d : Device} {k} (h : P d) : P (d.doorHeard k) := C.doorEvent h

theorem Closed.fireChanged {d : Device} {a b c} (h : P d) : P (d.fireChanged a b c) := C.doorsOnFire (C.notable (Nat.zero_le 1) (C.latch h))

theorem Closed.stormChanged {d : Device} {a b c} (h : P d) : P (d.stormChanged a b c) := C.doorsOnStorm (C.notable (Nat.zero_le 1) (C.latch
    h))

theorem Closed.houseChanges {d : Device} {b c} (h : P d) : P (d.houseChanges b c) := by
  unfold Device.houseChanges; split
  · exact h
  · dsimp only
    have h2 : P (if b.fire = d.modes.fire then d else d.fireChanged b d.modes c) := by
      split
      · exact h
      · exact C.fireChanged h
    split
    · exact h2
    · exact C.stormChanged h2

theorem Closed.setHouse {d : Device} {p x} (h : P d) : P (d.setHouse p x) := C.frame h (by simp) (by simp) (by simp) (by simp)

theorem Closed.inputEdge {d : Device} {p x} (h : P d) : P (d.inputEdge p x) := by
  unfold Device.inputEdge; split
  · exact h
  · exact C.houseChanges (C.setHouse h)

theorem Closed.inputSettled {d : Device} {p} (h : P d) : P (d.inputSettled p) := by
  unfold Device.inputSettled; split
  · exact C.houseChanges (C.setHouse h)
  · exact h

theorem Closed.houseMode {d : Device} {p x} (h : P d) : P (d.houseMode p x).1 := by
  unfold Device.houseMode; split
  · exact h
  · split
    · exact h
    · exact C.houseChanges (C.setHouse h)

theorem Closed.setClock {d : Device} {p x} (h : P d) : P (d.setClock p x).1 := by
  unfold Device.setClock; dsimp only
  apply C.endHolds
  unfold Device.recordClock; split
  · exact C.notable (Nat.zero_le 1) (C.frame h rfl rfl rfl rfl)
  · exact C.frame h rfl rfl rfl rfl

theorem Closed.minuteTick {d : Device} (h : P d) : P d.minuteTick := C.endHolds (C.frame h rfl rfl rfl rfl)

theorem Closed.tickIfDue {d : Device} (h : P d) : P d.tickIfDue := by
  unfold Device.tickIfDue; split
  · exact C.minuteTick h
  · exact h

/-! ### Credentials -/
theorem Closed.countGuest {d : Device} {e} (h : P d) : P (d.countGuest e) := by
  unfold Device.countGuest; split
  · exact C.roomMap (fun r => Room.keepsFolio_self r) h
  · exact h

theorem Closed.freeEntry {d : Device} {s e} (h : P d) : P (d.freeEntry s e) := C.free h

theorem Closed.freeDeny {d : Device} {s e} (h : P d) : P ((d.freeEntry s e).denySerial s) := C.denyNew (C.free h) (Device.entryOf_freeEntry
    d s e)

theorem Closed.recordCard {d : Device} {a b c e} (h : P d) : P (d.recordCard a b c e) := C.notable (Nat.zero_le 1) h

theorem Closed.startEncoding {d : Device} {k i} (h : P d) : P (d.startEncoding k i) := C.hand (C.frame h rfl rfl rfl rfl)

theorem Closed.nextEncoding {d : Device} {k} (h : P d) : P (d.nextEncoding k) := by
  unfold Device.nextEncoding; split
  · exact h
  · split
    · exact C.modifyEncoder h
    · exact C.startEncoding (C.modifyEncoder h)

theorem Closed.handSettlement {d : Device} {k} (h : P d) : P (d.handSettlement k) := C.frame h rfl rfl rfl rfl

theorem Closed.failIssue {d : Device} {k c} (h : P d) : P (d.failIssue k c) := by
  unfold Device.failIssue; dsimp only; apply C.handSettlement; split
  · exact h
  · apply C.recordCard; split
    · exact C.freeDeny h
    · exact C.freeEntry h

theorem Closed.cancelEncoding {d : Device} {s e} (h : P d) : P (d.cancelEncoding s e).1 := by
  unfold Device.cancelEncoding; split
  · exact C.freeDeny h
  · split
    · exact h
    · dsimp only; split
      · exact C.nextEncoding (C.freeDeny (C.hand h))
      · exact C.freeDeny (C.modifyEncoder h)

theorem Closed.retire {d : Device} {s e t} (h : P d) : P (d.retire s e t).1 := by
  unfold Device.retire; split
  · exact h
  · split
    · exact C.recordCard (C.cancelEncoding h)
    · exact C.recordCard (C.freeDeny h)
    · exact C.recordCard (C.freeDeny h)

theorem Closed.retireAll {e t} (l : List Word) {d : Device} (h : P d) : P (d.retireAll e t l).1 := by
  induction l generalizing d with
  | nil => exact h
  | cons x xs ih => exact ih (C.retire h)

theorem Closed.supersede {d : Device} {s e} (h : P d) : P (d.supersede s e).1 := by
  unfold Device.supersede; dsimp only
  exact C.fold (fun _ _ h => C.handSettlement h) _ (C.retireAll _ h)

theorem Closed.issueWritten {d : Device} {i} (h : P d) : P (d.issueWritten i) := by
  unfold Device.issueWritten; split
  · exact C.handSettlement h
  · next he =>
    dsimp only; apply C.handSettlement; apply C.recordCard; split
    · exact C.supersede (C.put h he)
    · exact C.put h he

theorem Closed.takeResult {d : Device} {k r} (h : P d) : P (d.takeResult k r).1 := by
  unfold Device.takeResult; dsimp only; split
  · exact C.modifyEncoder h
  · split
    · exact C.modifyEncoder h
    · split
      · apply C.nextEncoding
        cases r
        · exact C.issueWritten (C.modifyEncoder h)
        · exact C.failIssue (C.modifyEncoder h)
        · exact C.failIssue (C.modifyEncoder h)
      · exact C.modifyEncoder h

theorem Closed.encodingExpired {d : Device} {k} (h : P d) : P (d.encodingExpired k) := by
  unfold Device.encodingExpired; split
  · exact h
  · split
    · exact h
    · split
      · exact C.nextEncoding (C.hand (C.failIssue h))
      · exact h

theorem Closed.encoderFault {d : Device} {k} (h : P d) : P (d.encoderFault k) := by
  unfold Device.encoderFault; split
  · exact h
  · exact C.modifyEncoder (C.fold (fun _ _ h => C.failIssue h) _ h)

theorem Closed.encodeAnswered {d : Device} {k j} (h : P d) : P (d.encodeAnswered k j) := by
  unfold Device.encodeAnswered; split
  · exact C.modifyEncoder h
  · exact h

theorem Closed.encodeUndelivered {d : Device} {k j} (h : P d) : P (d.encodeUndelivered k j) := by
  unfold Device.encodeUndelivered; split
  · exact C.encoderFault h
  · exact h

theorem Closed.encoderNodeChanged {d : Device} {k j} (h : P d) : P (d.encoderNodeChanged k j) := by
  unfold Device.encoderNodeChanged; split
  · exact C.encoderFault h
  · exact h

theorem Closed.joinEncoder {d : Device} {k i} (h : P d) : P (d.joinEncoder k i) := by
  unfold Device.joinEncoder; split
  · exact h
  · split
    · exact C.startEncoding h
    · exact C.modifyEncoder h

theorem Closed.acceptIssue {d : Device} {a b c e f} (h1 : d.entryOf c = none) (h2 : (d.tableFull && d.purgeCandidate.isNone) = false) (h :
    P d) : P (d.acceptIssue a b c e f) := by
  unfold Device.acceptIssue; dsimp only
  exact C.joinEncoder (C.countGuest (C.purgePut h h1 h2))

theorem Closed.issueCard {d : Device} {a b c e f g i j k l} (h : P d) : P (Device.issueCard a b c e f g i j k l d).1 := by
  unfold Device.issueCard; split
  · exact h
  · split
    · exact h
    · next hr =>
      unfold Device.issueRefused at hr
      split at hr
      · cases hr
      · split at hr
        · cases hr
        · split_ifs at hr with h1 h2 h3 h4 h5
          exact C.acceptIssue (by simpa using h3) (Bool.eq_false_iff.mpr h5) h

theorem Closed.revokeCard {d : Device} {a b c} (h : P d) : P (Device.revokeCard a b c d).1 := by
  unfold Device.revokeCard; split
  · exact h
  · split
    · next he =>
      dsimp only; split
      · exact C.denyNew h he
      · exact h
    · exact C.retire h

theorem Closed.extendCard {d : Device} {a b c} (h : P d) : P (Device.extendCard a b c d).1 := by
  unfold Device.extendCard; split
  · exact h
  · split
    · exact h
    · next he =>
      split
      · exact h
      · split
        · exact h
        · exact C.recordCard (C.put h he)

theorem Closed.moveCard {d : Device} {a b c e f} (h : P d) : P (Device.moveCard a b c e f d).1 := by
  unfold Device.moveCard; split
  · exact h
  · split
    · exact h
    · next he =>
      split
      · exact C.recordCard (C.put h he)
      · exact h

set_option linter.unusedSectionVars false in
theorem Closed.readCard {d : Device} {a b} (h : P d) : P (Device.readCard a b d).1 := by
  unfold Device.readCard; split
  · exact h
  · dsimp only; split <;> exact h

theorem Closed.freeAtReset {d : Device} {a} (h : P d) : P (d.freeAtReset a) := by
  unfold Device.freeAtReset; split
  · exact h
  · dsimp only; split
    · exact C.freeDeny h
    · exact C.freeEntry h

theorem Closed.resetCredentials {d : Device} (h : P d) : P d.resetCredentials := by
  unfold Device.resetCredentials; dsimp only
  exact C.frame (C.fold (fun _ _ h => C.freeAtReset h) _ h) rfl rfl rfl rfl

theorem Closed.barGrant {d : Device} {k a b c} (h : P d) : P (d.barGrant k a b c).1 := by
  unfold Device.barGrant; split
  · exact h
  · next room r hb =>
    dsimp only
    split_ifs with h1 h2 h3 h4 h5 <;> try exact h
    have hm : d.journal.mayReserve = true := by simpa using h5
    refine C.opens (b := if restockRequest a b c then .restockOpen else .guestOpen) (Device.barRoom_mem hb) (by simpa using h1)
        (by split <;> rfl) hm ?_ ?_ ?_ ?_ h
    all_goals unfold Device.openSession; simp [Device.reserve]

theorem Closed.unlatchAnswered {d : Device} {k} (h : P d) : P (d.unlatchAnswered k) := by
  unfold Device.unlatchAnswered; split
  · exact h
  · exact C.roomMap (fun r => ⟨fun a b => ⟨a, b⟩, by rfl, id, by simp⟩) h


theorem Closed.unlatchUndelivered {d : Device} {k} (h : P d) : P (d.unlatchUndelivered k) := by
  unfold Device.unlatchUndelivered; split
  · exact h
  · next room r hb =>
    split
    · next hu =>
      refine C.notable (Nat.zero_le 1) ?_
      exact C.closeGive (f := Room.closeSession) (Device.barRoom_mem hb) (.inr hu) (Device.endsSession_closeSession (f := id) (fun a x hx
          => (a _ hx).1)) (by simp [Device.giveBack]) (by simp [Device.giveBack]) (by simp [Device.giveBack]) (by simp [Device.giveBack]) h
    · exact h

theorem Closed.endUnsettled {d : Device} {k room r c b} (hm : (room, r) ∈ d.rooms) (hs : r.bar.inSession = true) (h : P d) : P
    (d.endUnsettled k room c b) := by
  unfold Device.endUnsettled; dsimp only
  generalize hd : (if b = true then d.hand k .relock else d) = d1
  have hr : d1.rooms = d.rooms := by rw [← hd]; split <;> simp
  have hj : d1.journal = d.journal := by rw [← hd]; split <;> simp
  refine C.closeRecord (f := fun r => { r.closeSession with unsettled := true }) hm hs ?_ (Nat.zero_le 1) ?_ ?_
      (by rw [← hd]; split <;> simp) (by rw [← hd]; split <;> simp) h
  · exact ⟨fun a x hx => ⟨(a _ hx).1, Room.suspensionOk_closeSession x⟩, fun x => ⟨Room.restState_notInSession x, rfl, rfl⟩⟩
  · simp [hr]
  · simp [hj]

theorem Closed.sessionExpired {d : Device} {k} (h : P d) : P (d.sessionExpired k) := by
  unfold Device.sessionExpired; split
  · exact h
  · next r hf =>
    split
    · exact h
    · split
      · next hc => exact C.endUnsettled (Table.mem_of_find hf) (by simp only [Bool.and_eq_true] at hc; exact hc.1) h
      · exact h

theorem Closed.barNodeChanged {d : Device} {k a b} (h : P d) : P (d.barNodeChanged k a b) := by
  unfold Device.barNodeChanged; split
  · exact h
  · next room r hb =>
    split
    · next hs =>
      have := fun c b => C.endUnsettled (k := k) (c := c) (b := b) (Device.barRoom_mem hb) hs h
      cases b <;> simp only <;> first | exact h | exact this _ _ | (split <;> first | exact h | exact this _ _)
    · exact h

theorem Closed.recordCharge {d : Device} {a b c l e p k} (hk : k ≠ .reserved) (h : P d) : P (d.recordCharge a b c l e p k) := by
  unfold Device.recordCharge; split
  · exact h
  · exact C.plain hk (Nat.zero_le 1) h

theorem Closed.recordLate {d : Device} {a b l e k} (hk : k ≠ .reserved) (h : P d) : P (d.recordLate a b l e k) := by
  unfold Device.recordLate; split
  · exact h
  · exact C.plain hk (Nat.zero_le 1) h

theorem Closed.relockIf {d : Device} {k b} (h : P d) : P (d.relockIf k b) := by
  unfold Device.relockIf; split
  · exact C.hand h
  · exact h

theorem Closed.settleTally {d : Device} {room r k c cs} (hm : (room, r) ∈ d.rooms) (h : P d) : P (d.settleTally room r k c cs) := by
  unfold Device.settleTally; dsimp only
  generalize readings r.slots cs = rs
  generalize settlementAmount (d.tariff.lines 1 rs) = amt
  generalize d.tariff.lines 1 rs = lines
  generalize anyClamped rs = cl
  have hpost : r.folioOk → (r.posted amt).folioOk := Room.folioOk_posted amt
  have ks : ∀ q : Room, Room.keepsFolio r q → P (d.modifyRoom room (fun _ => q)) := fun q hq => C.roomAt hm (fun a _ _ => hq.1 (a _ hm).1
      (a _ hm).2) hq.2 rfl rfl rfl rfl h
  have kc : ∀ q : Room, (r.folioOk → q.folioOk) → Device.endsSession d room (fun _ => q.closeSession) := fun q hq =>
      Device.endsSession_closeSession (f := fun _ => q) (fun a x hx => hq (a _ hm).1)
  have closeCharge : ∀ (q : Room) (kind) (p : Posting), (r.folioOk → q.folioOk) → r.bar.inSession = true → P ((((d.modifyRoom room (fun _
      => q.closeSession)).hand k .relock).giveBackIf lines).recordCharge room k kind lines cl p .reserved) := by
    intro q kind p hq hs
    unfold Device.giveBackIf Device.recordCharge
    by_cases hl : lines = []
    · simp only [hl, if_true]
      exact C.closeGive hm (.inl hs) (kc q hq) (by simp [Device.giveBack]) (by simp [Device.giveBack]) (by simp [Device.giveBack])
          (by simp [Device.giveBack]) h
    · simp only [hl, if_false]
      exact C.closeRecord hm hs (kc q hq) (Nat.zero_le 1) (by simp) (by simp) (by simp) (by simp) h
  have closeLate : ∀ (q : Room), (r.folioOk → q.folioOk) → r.bar.inSession = true → P ((((d.modifyRoom room (fun _ => q.closeSession)).hand
      k .relock).giveBackIf lines).recordLate room k lines cl .reserved) := by
    intro q hq hs
    unfold Device.giveBackIf Device.recordLate
    by_cases hl : lines = []
    · simp only [hl, if_true]
      exact C.closeGive hm (.inl hs) (kc q hq) (by simp [Device.giveBack]) (by simp [Device.giveBack]) (by simp [Device.giveBack])
          (by simp [Device.giveBack]) h
    · simp only [hl, if_false]
      exact C.closeRecord hm hs (kc q hq) (Nat.zero_le 1) (by simp) (by simp) (by simp) (by simp) h
  have closeStock : ∀ (q : Room) (body : RecordBody) (fl : RecordFlags), body.repeatCount ≤ 1 → (r.folioOk → q.folioOk) → r.bar.inSession =
      true → P (((d.modifyRoom room (fun _ => q.closeSession)).hand k .relock).record body fl .reserved) := by
    intro q body fl hb hq hs
    exact C.closeRecord hm hs (kc q hq) hb (by simp) (by simp) (by simp) (by simp) h
  have sessOk : ∀ q : Room, r.bar.inSession = true → (r.folioOk → q.folioOk) → q.bar = r.bar → q.session = r.session → q.unlatchPending =
      r.unlatchPending → Room.keepsFolio r q := by
    intro q hs hf hb h1 h2
    exact ⟨fun a _ => ⟨hf a, .inl (by rw [hb]; exact hs)⟩, by rw [hb], by rw [h1, hb]; exact id, by rw [h2, hb]; exact id⟩
  have nr : RecordClass.notable ≠ .reserved := by decide
  split
  · split
    · next hs =>
      split
      · exact closeLate _ (Room.folioOk_same ⟨rfl, rfl, rfl, rfl, rfl⟩) hs
      · exact C.recordLate nr (ks _ (sessOk _ hs (Room.folioOk_same ⟨rfl, rfl, rfl, rfl, rfl⟩) rfl rfl rfl))
    · exact C.recordLate nr (C.relockIf (ks _ (Room.keepsFolio_suspension rfl rfl rfl (Room.folioOk_same ⟨rfl, rfl, rfl, rfl, rfl⟩))))
  · split
    · next hb => exact closeCharge _ _ _ (fun a => Room.folioOk_same ⟨rfl, rfl, rfl, rfl, rfl⟩ (hpost a)) (by rw [hb]; rfl)
    · next hb => exact C.recordCharge nr (ks _ (sessOk _ (by rw [hb]; rfl) (fun a => Room.folioOk_same ⟨rfl, rfl, rfl, rfl, rfl⟩ (hpost a))
        rfl rfl rfl))
    · next hb => exact closeStock _ _ _ (Nat.zero_le 1) (Room.folioOk_same ⟨rfl, rfl, rfl, rfl, rfl⟩) (by rw [hb]; rfl)
    · next hb => exact C.recordCharge nr (ks _ (sessOk _ (by rw [hb]; rfl) (fun a => Room.folioOk_same ⟨rfl, rfl, rfl, rfl, rfl⟩ (hpost a))
        rfl rfl rfl))
    · exact C.recordCharge nr (C.relockIf (ks _ (Room.keepsFolio_suspension rfl rfl rfl (fun a => Room.folioOk_same ⟨rfl, rfl, rfl, rfl,
        rfl⟩ (hpost a)))))
    · exact C.recordCharge nr (C.relockIf (ks _ (Room.keepsFolio_suspension rfl rfl rfl (fun a => Room.folioOk_same ⟨rfl, rfl, rfl, rfl,
        rfl⟩ (hpost a)))))

theorem Closed.takeTally {d : Device} {k c cs} (h : P d) : P (d.takeTally k c cs).1 := by
  unfold Device.takeTally; split
  · exact C.modifyNode h
  · next hb => exact C.modifyNode (C.settleTally (Device.barRoom_mem hb) h)

set_option linter.unusedSectionVars false in
theorem Closed.withRoom {d : Device} {room n f} (hf : ∀ k r, (k, r) ∈ d.rooms → P (f k r).1) (h : P d) : P (d.withRoom room n f).1 := by
  unfold Device.withRoom; split
  · exact h
  · split
    · exact h
    · next hq => exact hf _ _ (Table.mem_of_find hq)

theorem Closed.setSlots {d : Device} {a b} (h : P d) : P (d.setSlots a b).1 := by
  unfold Device.setSlots; split
  · exact h
  · refine C.withRoom (fun k r hm => ?_) h
    split
    · exact h
    · exact C.roomMap (fun r => Room.keepsFolio_self r) h

theorem Closed.postFolio {d : Device} {a b} (h : P d) : P (d.postFolio a b).1 := by
  unfold Device.postFolio
  refine C.withRoom (fun k r hm => ?_) h
  exact C.roomMap (fun r => Room.keepsFolio_suspension rfl rfl rfl (Room.folioOk_posted _)) h

theorem Closed.setCeiling {d : Device} {a b} (h : P d) : P (d.setCeiling a b).1 := by
  unfold Device.setCeiling
  refine C.withRoom (fun k r hm => ?_) h
  exact C.roomMap (fun r => Room.keepsFolio_suspension rfl rfl rfl (Room.folioOk_withCeiling (clampTop_le _ _))) h

theorem Closed.setTariff {d : Device} {a b c e} (h : P d) : P (d.setTariff a b c e).1 := by
  unfold Device.setTariff; dsimp only
  split_ifs
  · exact h
  · exact C.frame h rfl rfl rfl rfl
  · exact h
  · exact C.frame h rfl rfl rfl rfl
  · exact h

theorem Closed.decideCard {d : Device} {k n i} (h : P d) : P (d.decideCard k n i).1 := by
  unfold Device.decideCard
  split
  · exact h
  · split
    · exact h
    · split
      · dsimp only; split <;> exact C.barGrant h
      · exact h

theorem Closed.takePresent {d : Device} {k n i} (h : P d) : P (d.takePresent k n i).1 := by
  unfold Device.takePresent; split
  · exact C.modifyNode h
  · dsimp only
    have h1 := C.modifyNode (k := k) (f := fun n' => { n' with lastVerdict := some (d.decideCard k n i).2.verdict.signal }) (C.decideCard
        (k := k) (n := n) (i := i) h)
    refine C.plain ?_ (Nat.le_refl 1) ?_
    · unfold Decided.cls; split
      · decide
      · decide
      · split <;> decide
    · split <;> split <;> first | exact C.latch (C.doorEvent h1) | exact C.latch h1 | exact C.doorEvent h1 | exact h1

theorem Closed.defineRoom {d : Device} {a b c e f g i j k} (h : P d) : P (d.defineRoom a b c e f g i j k).1 := by
  unfold Device.defineRoom; dsimp only
  have h1 := clampTop_le Config.moneyCap j.toNat
  have h2 := clampTop_le Config.moneyCap k.toNat
  split
  · exact h
  · split
    · split
      · next hf =>
        refine C.newRoom hf (Room.folioOk_suspension ?_) (Room.suspensionOk_suspension _) ?_ ?_ ?_ h
        · exact ⟨Nat.zero_le _, h2, h2, h1, Nat.zero_le _⟩
        · rw [Room.suspension_inSession]; rfl
        · rw [(Room.suspension_frame _).2.2.2.2.2.2.2.2.2.2.2.2.2.2.2.2.2.1]; rfl
        · rw [(Room.suspension_frame _).2.2.2.2.2.2.2.2.2.2.2.2.2.2.2.2.2.2]; rfl
      · split
        · exact h
        · exact C.roomMap (fun r => Room.keepsFolio_suspension rfl rfl rfl (fun a => ⟨a.1, a.2.1, h2, h1, a.2.2.2.2⟩)) h
    · exact h

theorem Closed.clearLinks {d : Device} {a} (h : P d) : P (d.clearLinks a) := C.roomsMap (fun _ r => Room.keepsFolio_self r) h

theorem Closed.clearLinkOf {d : Device} {a b} (h : P d) : P (d.clearLinkOf a b) := C.roomMap (fun r => Room.keepsFolio_self r) h

theorem Closed.takeButton {d : Device} {a b} (h : P d) : P (d.takeButton a b).1 := by
  unfold Device.takeButton; split
  · exact h
  · split
    · exact C.roomMap (fun r => Room.keepsFolio_self r) h
    · dsimp only; split
      · exact C.roomMap (fun r => Room.keepsFolio_self r) h
      · exact C.notable (Nat.zero_le 1) (C.roomMap (fun r => Room.keepsFolio_self r) h)

theorem Closed.checkIn {d : Device} {a b c} (h : P d) : P (d.checkIn a b c).1 := by
  unfold Device.checkIn; split
  · exact h
  · refine C.withRoom (fun k r hm => ?_) h
    split
    · dsimp only
      unfold Device.recordStay
      refine C.notable (Nat.zero_le 1) ?_
      refine C.roomAt hm ?_ ?_ (Device.modifyRoom_rooms _ _ _) (by simp) (by simp) (Device.modifyRoom_journal _ _ _) h
      · intro hF x hx
        refine ⟨Room.folioOk_suspension ?_, Room.suspensionOk_suspension _⟩
        obtain ⟨a1, a2, a3, a4, a5⟩ := (hF _ hx).1
        refine ⟨Nat.zero_le _, ?_, a3, a4, Nat.zero_le _⟩
        show (if b = 1 then clampTop Config.moneyCap c.toNat else (r.defaultCeiling, false)).1 ≤ _
        split
        · exact clampTop_le _ _
        · exact (hF _ hm).1.2.2.1
      · exact Room.keepsSession_suspension (r := r) (q :=
          { r with balance := 0, unposted := 0, ceiling := _, state := .occupied, stayOpen := true, dnd := false }) rfl rfl rfl
    · exact h

theorem Closed.checkOut {d : Device} {a ctx} (h : P d) : P (Device.checkOut a ctx d).1 := by
  unfold Device.checkOut
  refine C.withRoom (fun k r hm => ?_) h
  split
  · exact h
  · dsimp only
    refine C.plain (by decide) (Nat.zero_le 1) ?_
    have h1 := C.retireAll (e := .revoked) (t := ctx.tag) (d.withdrawn k) h
    obtain ⟨r1, hm1, hb1⟩ := Device.hasBar_retireAll (e := .revoked) (t := ctx.tag) (d.withdrawn k) ⟨r, hm, rfl⟩
    generalize (d.retireAll .revoked ctx.tag (d.withdrawn k)).1 = d1 at *
    have hco : d1.foliosOk → ∀ x, (k, x) ∈ d1.rooms → (Room.checkedOut x).folioOk ∧ (Room.checkedOut x).suspensionOk := by
      intro a x hx
      obtain ⟨a1, a2, a3, a4, a5⟩ := (a _ hx).1
      exact ⟨⟨Nat.zero_le _, a3, a3, a4, Nat.zero_le _⟩, Room.suspensionOk_closeSession _⟩
    unfold Device.orphanBar
    split
    · next hs =>
      refine C.closeGive hm1 (.inl (by rw [hb1]; exact hs)) ⟨hco, fun x => ⟨Room.restState_notInSession _, rfl, rfl⟩⟩ ?_ ?_ ?_ ?_ h1
      all_goals simp [Device.giveBack]
    · next hs =>
      refine C.roomAt hm1 hco ⟨?_, ?_, ?_⟩ rfl rfl rfl rfl h1
      · rw [hb1, Bool.eq_false_iff.mpr hs]; exact Room.restState_notInSession _
      · intro _; exact (Room.restState_notInSession _).symm
      · intro _ hh; exact absurd hh (by simp [Room.checkedOut, Room.closeSession])

theorem Closed.setRoomState {d : Device} {a b} (h : P d) : P (d.setRoomState a b).1 := by
  unfold Device.setRoomState; split
  · exact h
  · refine C.withRoom (fun k r hm => ?_) h
    split
    · exact h
    · split
      · exact C.notable (Nat.zero_le 1) (C.roomMap (fun r => Room.keepsFolio_self r) h)
      · exact h

theorem Closed.readRoom {d : Device} {a} (h : P d) : P (d.readRoom a).1 := C.withRoom (fun _ _ _ => h) h

theorem Closed.ownerTold {d : Device} {k a b} (h : P d) : P (d.ownerTold k a b) := by
  unfold Device.ownerTold; split
  · exact h
  · split
    · exact h
    · split
      · exact C.barNodeChanged h
      · exact C.encoderNodeChanged h
      all_goals exact C.doorNodeChanged h

theorem Closed.commandAnswered {d : Device} {k a} (h : P d) : P (d.commandAnswered k a) := by
  unfold Device.commandAnswered; split
  · exact C.unlatchAnswered h
  · exact C.encodeAnswered h
  · exact C.doorEvent h
  · exact C.doorEvent h
  · exact C.doorEvent h
  · exact h
  · exact h

theorem Closed.commandUndelivered {d : Device} {k a} (h : P d) : P (d.commandUndelivered k a) := by
  unfold Device.commandUndelivered; dsimp only; split
  · exact C.unlatchUndelivered h
  · exact C.encodeUndelivered h
  · exact C.doorEvent h
  · exact C.doorEvent h
  · exact C.doorEvent h
  · exact h
  · exact h

theorem Closed.deliver {d : Device} {rs} (h : P d) : P (d.deliver rs) := C.fold (fun _ _ h => C.commandUndelivered h) _ h

theorem Closed.deliverRound {d : Device} (h : P d) : P d.deliverRound := C.deliver (C.frame h rfl rfl rfl rfl)

theorem Closed.takeReports {d : Device} (h : P d) : P d.takeReports := C.frame (C.deliverRound (C.deliverRound h)) rfl rfl rfl rfl

theorem Closed.handReport {d : Device} {k n b} (h : P d) : P (d.handReport k n b).1 := by
  unfold Device.handReport; split
  · exact C.takePresent h
  · split
    · exact C.doorEvent h
    · exact h
  · split
    · exact C.takeTally h
    · exact h
  · exact C.takeButton h
  · split
    · exact C.takeResult h
    · exact h

theorem Closed.acceptReport {d : Device} {k n s b} (h : P d) : P (d.acceptReport k n s b) := C.modifyNode (C.handReport (C.modifyNode h))

theorem Closed.takeReport {d : Device} {k s b} (h : P d) : P (d.takeReport k s b) := by
  unfold Device.takeReport; split
  · exact h
  · split
    · exact C.acceptReport h
    · split_ifs
      · exact C.modifyNode h
      · exact C.acceptReport h
      · exact C.acceptReport (C.notable (Nat.zero_le 1) h)

theorem Closed.heardFrom {d : Device} {k n} (h : P d) : P (d.heardFrom k n) := by
  unfold Device.heardFrom; dsimp only
  apply C.doorHeard
  have h1 := C.ownerTold (k := k) (a := n.state) (b := .online) (C.modifyNode (k := k) (f := fun n =>
      { n with state := .online, misses := 0, retries := 0, onProbe := false }) h)
  split
  · exact C.notable (Nat.zero_le 1) (C.modifyNode h1)
  · exact h1

theorem Closed.carriedAnswered {d : Device} {k x} (h : P d) : P (d.carriedAnswered k x) := by
  unfold Device.carriedAnswered; split
  · exact h
  · exact C.commandAnswered h

theorem Closed.joinAttention {d : Device} {k} (h : P d) : P (d.joinAttention k) := C.frame h (by simp) (by simp) (by simp) (by simp)

theorem Closed.leaveAttention {d : Device} {k} (h : P d) : P (d.leaveAttention k) := C.frame h (by simp) (by simp) (by simp) (by simp)

theorem Closed.answer {d : Device} {k a r} (h : P d) : P (d.answer k a r) := by
  unfold Device.answer
  cases hx : (d.segment k).exchange with
  | none => exact h
  | some x =>
    simp only
    cases hn : Table.find (nodeKey k x.addr) d.nodes with
    | none => exact h
    | some n =>
      simp only
      have h1 := C.heardFrom (k := nodeKey k x.addr) (n := n) h
      have h2 : P (match r with
        | none => d.heardFrom (nodeKey k x.addr) n
        | some (seq, b) => (d.heardFrom (nodeKey k x.addr) n).takeReport (nodeKey k x.addr) seq b) := by
        split
        · exact h1
        · exact C.takeReport h1
      have h3 := C.carriedAnswered (k := nodeKey k x.addr) (x := x) h2
      split
      · exact C.joinAttention (C.setSegment h3)
      · exact C.leaveAttention (C.setSegment h3)

theorem Closed.recordMiss {d : Device} {k r} (h : P d) : P (d.recordMiss k r) := by
  unfold Device.recordMiss; split
  · exact h
  · dsimp only; refine C.notable (Nat.zero_le 1) ?_; split
    · exact C.latch h
    · exact h

theorem Closed.tellMiss {d : Device} {k a b c u} (h : P d) : P (d.tellMiss k a b c u) := by
  unfold Device.tellMiss; dsimp only; split
  · exact C.ownerTold (C.takeReports (C.deliver h))
  · exact C.takeReports (C.deliver (C.ownerTold h))

theorem Closed.missAt {d : Device} {k x n u} (h : P d) : P (d.missAt k x n u) := by
  unfold Device.missAt; dsimp only
  apply C.recordMiss
  split
  · exact C.tellMiss (C.leaveAttention (C.setSegment (C.modifyNode h)))
  · exact C.tellMiss (C.setSegment (C.modifyNode h))

theorem Closed.miss {d : Device} {k fr u} (h : P d) : P (d.miss k fr u) := by
  unfold Device.miss
  cases hx : (d.segment k).exchange with
  | none => exact h
  | some x =>
    dsimp only
    split
    · exact C.answer h
    · split
      · exact h
      · exact C.missAt h

theorem Closed.retryExpired {d : Device} {k} (h : P d) : P (d.retryExpired k) := by
  unfold Device.retryExpired; split
  · exact h
  · split
    · exact C.ownerTold (C.modifyNode h)
    · exact h

theorem Closed.turn {d : Device} {k} (h : P d) : P (d.turn k) := C.frame h (by simp) (by simp) (by simp) (by simp)

/-! ### Node orders -/
theorem Closed.createEncoder {d : Device} {k a} (h : P d) : P (d.createEncoder k a) := by
  unfold Device.createEncoder; split
  · exact C.frame h rfl rfl rfl rfl
  · exact h

theorem Closed.defineNode {d : Device} {k a} (h : P d) : P (d.defineNode k a).1 := by
  unfold Device.defineNode; split
  · exact h
  · dsimp only; split
    · split
      · exact h
      · exact C.createEncoder (C.frame h rfl rfl rfl rfl)
    · split
      · exact h
      · split
        · exact h
        · apply C.modifyNode
          split
          · exact h
          · exact C.clearLinkOf h

set_option linter.unusedSectionVars false in
theorem Closed.withNode {d : Device} {a b n f} (hf : ∀ k r, P (f k r).1) (h : P d) : P (d.withNode a b n f).1 := by
  unfold Device.withNode; split
  · exact h
  · split
    · exact h
    · exact hf _ _

theorem Closed.dropNode {d : Device} {k} (h : P d) : P (d.dropNode k) := by
  unfold Device.dropNode; dsimp only
  exact C.frame (C.clearLinks (a := k) (C.leaveAttention (k := k) (C.setSegment (k := keySeg k) (f := ((d.segment (keySeg k)).abandon
      (keyAddr k)).dropQueued (keyAddr k)) h))) rfl rfl rfl rfl

theorem Closed.removeNode {d : Device} {k a} (h : P d) : P (d.removeNode k a).1 := by
  refine C.withNode (fun k n => ?_) h
  split
  · exact h
  · exact C.dropNode h

theorem Closed.restoreNode {d : Device} {k a} (h : P d) : P (d.restoreNode k a).1 := by
  refine C.withNode (fun k n => ?_) h
  split
  · exact C.ownerTold (C.modifyNode h)
  · exact h

theorem Closed.readNode {d : Device} {k a} (h : P d) : P (d.readNode k a).1 := C.withNode (fun _ _ => h) h

theorem Closed.clearAlarm {d : Device} {k a} (h : P d) : P (d.clearAlarm k a).1 := by
  unfold Device.clearAlarm; split
  · exact h
  · exact C.applyDoor h

theorem Closed.doorCommand {d : Device} {k a b c} (h : P d) : P (d.doorCommand k a b c).1 := by
  unfold Device.doorCommand; split
  · exact h
  · split_ifs <;> try exact h
    · exact C.applyDoor h
    · split
      · exact h
      · exact C.applyDoor h
    · unfold Device.commandHold; split
      · exact h
      · dsimp only; split
        · exact h
        · exact C.applyDoor h

/-! ### SETUP, pulses and resets -/
theorem Closed.setupReread {d : Device} {k} (h : P d) : P (d.setupReread k) := by
  unfold Device.setupReread; split
  · exact h
  · exact C.latch h
  · exact C.jmove h (by simp) (by simp) (by simp) rfl rfl rfl

theorem Closed.tellDisabled {d : Device} {k} (h : P d) : P (d.tellDisabled k) := by
  unfold Device.tellDisabled; split
  · exact h
  · exact C.ownerTold h

theorem Closed.disableSegment {d : Device} {k} (h : P d) : P (d.disableSegment k) := by
  unfold Device.disableSegment; dsimp only
  refine C.fold (fun _ _ h => C.tellDisabled h) _ ?_
  have := C.takeReports (C.deliver (rs := (d.segment k).stranded k) (C.setSegment (k := k) (f :=
      { d.segment k with exchange := none, queue := [] }) h))
  exact C.frame this rfl rfl rfl rfl

theorem Closed.applySegment {d : Device} {k s} (h : P d) : P (d.applySegment k s) := by
  unfold Device.applySegment; dsimp only
  have h1 := C.setSegment (k := k) (f := { d.segment k with settings := some s }) h
  have h2 : P (if (d.segment k).modeChanges s.mode = true then (d.setSegment k { d.segment k with settings := some s }).clearPassOver k
      else (d.setSegment k { d.segment k with settings := some s })) := by
    split
    · exact C.frame h1 rfl rfl rfl rfl
    · exact h1
  split
  · exact h2
  · exact C.disableSegment h2

theorem Closed.applySegments (l) {d : Device} {k} (h : P d) : P (d.applySegments k l) := by
  induction l generalizing d k with
  | nil => exact h
  | cons x xs ih => exact ih (C.applySegment h)

theorem Closed.acceptSetup {d : Device} {p} (h : P d) : P (d.acceptSetup p) := by
  unfold Device.acceptSetup; dsimp only
  have h1 : P { d with creds := { d.creds with propertyCode := some p.propertyCode } } := C.frame h rfl rfl rfl rfl
  have h2 : P { d with creds := { d.creds with propertyCode := some p.propertyCode }, journal := d.journal.establish p.region p.threshold } := C.jmove h1 (by simp) (by simp) (by simp) rfl rfl rfl
  have h3 := C.applySegments p.segments (k := 0) h2
  have h4 : ∀ X : Device, P X → P
      { (X.houseChanges d.modes .setup) with walker := { (X.houseChanges d.modes .setup).walker with established := true } } := fun X hX =>
      C.frame (C.houseChanges hX) rfl rfl rfl rfl
  exact h4 _ (C.frame h3 rfl rfl rfl rfl)

theorem Closed.setup {d : Device} {p m} (h : P d) : P (Device.setup p m d).1 := by
  unfold Device.setup; split
  · exact h
  · dsimp only; split
    · exact C.setupReread h
    · exact C.acceptSetup (C.setupReread h)

theorem Closed.pulseTimers {d : Device} (h : P d) : P d.pulseTimers := by
  unfold Device.pulseTimers
  have h1 := C.roomsMap (f := fun _ r => { r with session := Timer.tick (60 * d.sessionLimit.getD 10) r.session }) (fun k r => ⟨fun a b =>
      ⟨a, b⟩, rfl, by
    have : (Timer.tick (60 * d.sessionLimit.getD 10) r.session).isSome = r.session.isSome := by
      cases r.session with
      | none => rfl
      | some t => simp only [Timer.tick]; split <;> rfl
    simp only [this]; exact id, id⟩) h
  exact C.jmove h1 (by simp) (by simp) (by simp) rfl rfl rfl

theorem Closed.boardReset {d : Device} (h : P d) : P d.boardReset := by
  refine C.reset (d := d.resetCredentials) ?_ ?_ ?_ ?_ rfl rfl (C.resetCredentials h)
  · rfl
  · show d.resetRunning.journal.boardReset.queue = _; simp [Device.resetRunning]
  · show d.resetRunning.journal.boardReset.reserved = _; simp
  · show d.resetRunning.journal.boardReset.suppressed = _; simp [Device.resetRunning]

theorem Closed.softReset {d : Device} (h : P d) : P d.softReset := by
  refine C.reset (d := d.resetCredentials) ?_ ?_ ?_ ?_ rfl rfl (C.resetCredentials h)
  · rfl
  · show d.resetRunning.journal.softReset.queue = _; simp [Device.resetRunning]
  · show d.resetRunning.journal.softReset.reserved = _; simp
  · show d.resetRunning.journal.softReset.suppressed = _; simp [Device.resetRunning]

theorem Closed.writeControl {s : State} {v p} (h : P s.dev) : P (s.writeControl v p).dev := by
  have h1 : P (s.dev.writeAlertEnable (controlEnable v)) := C.frame h rfl rfl rfl rfl
  unfold State.writeControl; split
  · exact h
  · dsimp only; split
    · exact C.softReset h1
    · exact h1

theorem Closed.releaseReset {d : Device} (h : P d) : P d.releaseReset := by
  unfold Device.releaseReset; split
  · exact h
  · exact C.houseChanges (C.frame h rfl rfl rfl rfl)

/-! ### The walker and the port -/
theorem Closed.runOrder {d : Device} {k n o} (ho : ∀ c d, P d → P (o c d).1) (h : P d) : P (d.runOrder k n o) := by
  unfold Device.runOrder; split
  · split
    · exact C.frame (ho _ _ h) rfl rfl rfl rfl
    · exact h
  · exact h

theorem Closed.portError {s : State} {a n} (h : P s.dev) : P (s.portError a n).dev := by
  unfold State.portError; split
  · unfold State.failRead; split
    · split
      · exact C.frame h rfl rfl rfl rfl
      · exact h
    · exact C.frame h rfl rfl rfl rfl
    · exact h
  · unfold State.failLink; dsimp only; split
    · exact C.frame (State.sameCore_keeps C (State.sameCore_stampBlock s) h) rfl rfl rfl rfl
    · exact h
  · unfold State.failBlock; split
    · split
      · unfold Device.settledIf; split <;> exact C.frame h rfl rfl rfl rfl
      · dsimp only; split
        · unfold Device.settledIf; split <;> exact C.frame h rfl rfl rfl rfl
        · exact h
    · exact h
  · unfold State.failSettlement; split
    · exact h
    · split
      · exact C.frame (State.sameCore_keeps C (State.sameCore_stampBefore s _) h) rfl rfl rfl rfl
      · exact h
  · unfold State.failPage; split
    · exact C.frame h rfl rfl rfl rfl
    · exact h
  · unfold State.failPlacement; split
    · exact C.jmove h rfl rfl rfl rfl rfl rfl
    · exact h
  · unfold State.failMark; split
    · exact C.jmove h rfl rfl rfl rfl rfl rfl
    · exact h

theorem Closed.committed {s : State} {f : State → State} (hi : P s.dev) (hf : P s.dev → P (f s).dev) {t} (h : commit s f = .next t) : P
    t.dev := by
  unfold commit at h
  cases h
  exact C.frame (C.takeReports (hf hi)) (by simp) (by simp) (by simp) (by simp)

end

end Sys2Proof.Machine
end

