-- ==== Sys2Proof/Laws/Credentials.lean ====
section
/-! SUPPORT. Entries, the deny list and the check word: what the shared operations over them answer. -/

namespace Sys2Proof.Machine

open Sys2Proof

/-- An entry put in the table is found, every other as before. -/
theorem Device.entryOf_putEntry (d : Device) (serial other : Word) (e : Entry) : (d.putEntry serial e).entryOf other = if other = serial
    then some e else d.entryOf other := by
  unfold Device.entryOf
  rw [Device.putEntry_creds]
  simp only [Table.find_put]
  by_cases h : other = serial
  · subst h; simp
  · have : other.toNat ≠ serial.toNat := fun q => h (BitVec.eq_of_toNat_eq q)
    simp [h, this]

/-- A NOTABLE record touches only the journal. -/
theorem Device.notable_onlyJournal (d : Device) (b : RecordBody) : d.notable b = { d with journal := (d.notable b).journal } := rfl

/-- A record touches only the journal. -/
theorem Device.record_onlyJournal (d : Device) (b : RecordBody) (f c) : d.record b f c = { d with journal := (d.record b f c).journal } :=
    rfl

/-- NOTABLE records depend only on journal and clock. -/
theorem Device.notables_journal (l : List RecordBody) (d d' : Device) (hj : d.journal = d'.journal) (hc : d.clock = d'.clock) :
   (l.foldl (fun d b => d.notable b) d).journal = (l.foldl (fun d b => d.notable b) d').journal := by
  induction l generalizing d d' with
  | nil => exact hj
  | cons b r ih =>
    simp only [List.foldl_cons]
    apply ih
    · show (d.notable b).journal = (d'.notable b).journal
      simp only [Device.notable, Device.record, hj, hc]
    · simpa using hc

/-- Freeing an entry: it is gone, and its room counts a guest card less. -/
theorem Device.freeEntry_fields (d : Device) (serial : Word) (e : Entry) :
   (d.freeEntry serial e).entryOf serial = none ∧ (∀ o, o ≠ serial → (d.freeEntry serial e).entryOf o = d.entryOf o) ∧
   (∀ room, Table.find room (d.freeEntry serial e).rooms = (Table.find room d.rooms).map (fun r => if e.kind = .guest ∧ room = e.room then
       { r with guestCount := r.guestCount - 1 } else r)) ∧
   d.freeEntry serial e =
       { d with creds := { d.creds with entries := (d.freeEntry serial e).creds.entries }, rooms := (d.freeEntry serial e).rooms } := by
  have hE : (d.freeEntry serial e).creds.entries = Table.erase serial.toNat d.creds.entries := by
    unfold Device.freeEntry; dsimp only; split_ifs <;> rfl
  refine ⟨?_, ?_, ?_, ?_⟩
  · unfold Device.entryOf; rw [hE]; exact Table.find_erase_self _ _
  · intro o ho
    unfold Device.entryOf; rw [hE]; exact Table.find_erase_ne _ (fun q => ho (BitVec.eq_of_toNat_eq q))
  · intro room
    unfold Device.freeEntry; dsimp only
    by_cases hk : e.kind = .guest
    · simp only [hk, if_true, true_and, Device.modifyRoom_rooms, Table.find_modify]
      by_cases hr : room = e.room
      · subst hr; simp
      · simp [hr]
    · simp [hk]
  · unfold Device.freeEntry; dsimp only; split_ifs <;> rfl

/-- Freeing an entry, with all that stays. -/
theorem Device.freeEntry_eq (d : Device) (serial : Word) (e : Entry) :
   (∀ o, (d.freeEntry serial e).entryOf o = if o = serial then none else d.entryOf o) ∧
   (∀ room, Table.find room (d.freeEntry serial e).rooms = (Table.find room d.rooms).map (fun r => if e.kind = .guest ∧ room = e.room then
       { r with guestCount := r.guestCount - 1 } else r)) ∧
   d.freeEntry serial e =
       { d with creds := { d.creds with entries := (d.freeEntry serial e).creds.entries }, rooms := (d.freeEntry serial e).rooms } := by
  have hE : (d.freeEntry serial e).creds.entries = Table.erase serial.toNat d.creds.entries := by
    unfold Device.freeEntry; dsimp only; split_ifs <;> rfl
  refine ⟨?_, ?_, ?_⟩
  · intro o
    by_cases ho : o = serial
    · subst ho; rw [if_pos rfl]
      unfold Device.entryOf; rw [hE]; exact Table.find_erase_self _ _
    · rw [if_neg ho]
      unfold Device.entryOf; rw [hE]; exact Table.find_erase_ne _ (fun q => ho (BitVec.eq_of_toNat_eq q))
  · intro room
    unfold Device.freeEntry; dsimp only
    by_cases hk : e.kind = .guest
    · simp only [hk, if_true, true_and, Device.modifyRoom_rooms, Table.find_modify]
      by_cases hr : room = e.room
      · subst hr; simp
      · simp [hr]
    · simp [hk]
  · unfold Device.freeEntry; dsimp only; split_ifs <;> rfl

/-- Retiring a card that is not being written. -/
theorem Device.retire_written (d : Device) (serial tag : Word) (e : Entry) (he : d.entryOf serial = some e) (hs : e.state ≠ .encoding) :
   d.retire serial .revoked tag = (((d.freeEntry serial e).denySerial serial).recordCard serial .revoked e.room tag, []) := by
  unfold Device.retire; rw [he]
  cases h : e.state with
  | encoding => exact absurd h hs
  | active => simp [h]
  | suspended => simp [h]

/-- What is found is in the table. -/
theorem Table.mem_of_found {α} {k : Nat} {v : α} {t : Table α} (h : Table.find k t = some v) : (k, v) ∈ t := by
  induction t with
  | nil => simp [Table.find] at h
  | cons p r ih =>
    obtain ⟨a, b⟩ := p
    unfold Table.find at h
    split_ifs at h with q
    · cases h; subst q; simp
    · exact List.mem_cons_of_mem _ (ih h)

/-- What is in a well-formed table is found. -/
theorem Table.found_of_mem {α} {k : Nat} {v : α} {t : Table α} (hw : Table.wf t = true) (h : (k, v) ∈ t) : Table.find k t = some v := by
  induction t with
  | nil => simp at h
  | cons p r ih =>
    obtain ⟨a, b⟩ := p
    have hw' : ((a, b) :: r).Pairwise (fun x y => x.1 < y.1) := by simpa [Table.wf] using hw
    have := List.pairwise_cons.mp hw'
    unfold Table.find
    rcases List.mem_cons.mp h with q | q
    · cases q; simp
    · have := this.1 _ q
      simp only at this
      rw [if_neg (by omega)]
      exact ih (by simpa [Table.wf] using ‹_ ∧ _›.2) q

/-- Retiring guest cards that are not being written. -/
theorem Device.retireAll_written (l : List Word) (d : Device) (room : Nat) (tag : Word) (hn : l.Nodup)
   (h : ∀ x ∈ l, ∃ e, d.entryOf x = some e ∧ e.kind = .guest ∧ e.room = room ∧ e.state ≠ .encoding) :
   ∃ d', d.retireAll .revoked tag l = (d', []) ∧ (∀ x, d'.entryOf x = if x ∈ l then none else d.entryOf x) ∧
     d'.creds.deny = l.foldl (fun deny s => denyAppend s deny) d.creds.deny ∧
     (∀ i, Table.find i d'.rooms = (Table.find i d.rooms).map (fun r => if i = room then { r with guestCount := r.guestCount - l.length }
         else r)) ∧
     d'.journal = (l.foldl (fun d s => d.notable (.card s .revoked room tag)) d).journal ∧
     d' = { d with creds := { d.creds with entries := d'.creds.entries, deny := d'.creds.deny }, rooms := d'.rooms, journal := d'.journal } := by
  induction l generalizing d with
  | nil => refine ⟨d, rfl, by simp, rfl, ?_, rfl, rfl⟩; intro i; cases Table.find i d.rooms <;> simp
  | cons a r ih =>
    obtain ⟨e, he, hk, hr, hs⟩ := h a (by simp)
    obtain ⟨f1, f2, f3, f4⟩ := Device.freeEntry_fields d a e
    have h1 := Device.retire_written d a tag e he hs
    generalize hd1 : ((d.freeEntry a e).denySerial a).recordCard a .revoked e.room tag = d1 at h1
    have e1 : ∀ o, d1.entryOf o = if o = a then none else d.entryOf o := by
      intro o; rw [← hd1]
      by_cases ho : o = a
      · subst ho; rw [if_pos rfl]; exact f1
      · rw [if_neg ho]; exact f2 o ho
    have n1 := List.nodup_cons.mp hn
    obtain ⟨d', g1, g2, g3, g4, g5, g6⟩ := ih d1 n1.2 (by
      intro x hx
      obtain ⟨e', q⟩ := h x (List.mem_cons_of_mem _ hx)
      refine ⟨e', ?_, q.2⟩
      rw [e1, if_neg]; exact q.1
      rintro rfl; exact n1.1 hx)
    refine ⟨d', ?_, ?_, ?_, ?_, ?_, ?_⟩
    · unfold Device.retireAll; rw [h1]; simp only [g1]; rfl
    · intro x; rw [g2, e1]
      by_cases hx : x = a
      · subst hx; simp
      · simp [hx]
    · rw [g3, ← hd1]
      simp only [List.foldl_cons]
      have : (((d.freeEntry a e).denySerial a).recordCard a .revoked e.room tag).creds.deny = denyAppend a d.creds.deny := by
        rw [f4]; rfl
      rw [this]
    · intro i; rw [g4]
      have : Table.find i d1.rooms = (Table.find i d.rooms).map (fun r => if i = room then { r with guestCount := r.guestCount - 1 } else
          r) := by
        rw [← hd1]
        have := f3 i
        simp only [hk, hr, true_and] at this
        exact this
      rw [this]
      cases Table.find i d.rooms with
      | none => rfl
      | some q =>
        simp only [Option.map_some]
        by_cases hi : i = room
        · simp only [if_pos hi, List.length_cons, Option.some.injEq]
          congr 1; omega
        · simp [hi]
    · rw [g5]
      simp only [List.foldl_cons]
      have := Device.notables_journal (r.map (fun s => RecordBody.card s .revoked room tag)) d1 (d.notable (.card a .revoked room tag))
          (by rw [← hd1, hr]; rw [f4]; rfl) (by rw [← hd1, f4]; rfl)
      simpa [List.foldl_map] using this
    · rw [g6, ← hd1, f4]; rfl

/-- Rising lists of the same words are equal. -/
theorem Word.sorted_ext (l m : List Word) (hl : l.Pairwise (fun a b => a.toNat < b.toNat)) (hm : m.Pairwise (fun a b => a.toNat < b.toNat))
    (h : ∀ x, x ∈ l ↔ x ∈ m) : l = m := by
  induction l generalizing m with
  | nil => cases m with
    | nil => rfl
    | cons a r => have := (h a).2 (by simp); simp at this
  | cons a r ih =>
    cases m with
    | nil => have := (h a).1 (by simp); simp at this
    | cons b t =>
      have hl' := List.pairwise_cons.mp hl
      have hm' := List.pairwise_cons.mp hm
      have hab : a = b := by
        by_contra hne
        have p1 := (h a).1 (by simp)
        have p2 := (h b).2 (by simp)
        simp [hne] at p1
        have hne' : ¬ b = a := fun q => hne q.symm
        simp [hne'] at p2
        have := hl'.1 b p2; have := hm'.1 a p1; omega
      subst hab
      congr 1
      apply ih t hl'.2 hm'.2
      intro x
      constructor
      · intro hx
        have := (h x).1 (by simp [hx])
        simp at this
        rcases this with rfl | q
        · have := hl'.1 _ hx; omega
        · exact q
      · intro hx
        have := (h x).2 (by simp [hx])
        simp at this
        rcases this with rfl | q
        · have := hm'.1 _ hx; omega
        · exact q

/-- The entries freed at a reset. -/
theorem Device.freeAtReset_all (ps : Table Entry) : ∀ d : Device, (∀ p ∈ ps, Table.find p.1 d.creds.entries = some p.2 ∧ p.1 < 4294967296) →
   ps.Pairwise (fun a b => a.1 ≠ b.1) →
   (∀ serial : Word, ((ps.map (fun p => p.1)).foldl Device.freeAtReset d).entryOf serial = if serial.toNat ∈ ps.map (fun p => p.1) then
       none else d.entryOf serial) ∧
   ((ps.map (fun p => p.1)).foldl Device.freeAtReset d).creds.deny = ((ps.filter (fun p => p.2.deniedBefore)).map (fun p => natWord
       p.1)).foldl (fun deny serial => denyAppend serial deny) d.creds.deny ∧
   (∀ i, Table.find i ((ps.map (fun p => p.1)).foldl Device.freeAtReset d).rooms = (Table.find i d.rooms).map (fun r =>
       { r with guestCount := r.guestCount - (ps.filter (fun p => decide (p.2.kind = .guest) && decide (p.2.room = i))).length })) ∧
   ((ps.map (fun p => p.1)).foldl Device.freeAtReset d) =
       { d with creds := { d.creds with entries := ((ps.map (fun p => p.1)).foldl Device.freeAtReset d).creds.entries, deny := ((ps.map (fun p => p.1)).foldl Device.freeAtReset d).creds.deny }, rooms := ((ps.map (fun p => p.1)).foldl Device.freeAtReset d).rooms } := by
  induction ps with
  | nil => intro d _ _; refine ⟨by simp, rfl, ?_, rfl⟩; intro i; cases h : Table.find i d.rooms <;> simp [h]
  | cons p rest ih =>
    intro d hf hpw
    obtain ⟨k, e⟩ := p
    rw [List.pairwise_cons] at hpw
    obtain ⟨hk, hlt⟩ := hf (k, e) List.mem_cons_self
    simp only at hk hlt
    have hnat : (natWord k).toNat = k := by simp [natWord]; omega
    obtain ⟨f1, f2, f3, f4⟩ := Device.freeEntry_fields d (natWord k) e
    have step : (∀ serial : Word, (d.freeAtReset k).entryOf serial = if serial.toNat = k then none else d.entryOf serial) ∧
      (d.freeAtReset k).creds.deny = (if e.deniedBefore then denyAppend (natWord k) d.creds.deny else d.creds.deny) ∧
      (∀ i, Table.find i (d.freeAtReset k).rooms = (Table.find i d.rooms).map (fun r => if e.kind = .guest ∧ i = e.room then
          { r with guestCount := r.guestCount - 1 } else r)) ∧
      d.freeAtReset k =
          { d with creds := { d.creds with entries := (d.freeAtReset k).creds.entries, deny := (d.freeAtReset k).creds.deny }, rooms := (d.freeAtReset k).rooms } := by
      have e0 : d.freeAtReset k = if e.deniedBefore then (d.freeEntry (natWord k) e).denySerial (natWord k) else d.freeEntry (natWord k)
          e := by
        unfold Device.freeAtReset; rw [hk]
      have hen : (d.freeAtReset k).creds.entries = (d.freeEntry (natWord k) e).creds.entries := by
        rw [e0]; split_ifs <;> rfl
      refine ⟨?_, ?_, ?_, ?_⟩
      · intro serial
        have : (d.freeAtReset k).entryOf serial = (d.freeEntry (natWord k) e).entryOf serial := by unfold Device.entryOf; rw [hen]
        rw [this]
        split_ifs with h
        · have : serial = natWord k := BitVec.eq_of_toNat_eq (by rw [h, hnat])
          rw [this]; exact f1
        · exact f2 serial (fun q => h (by rw [q, hnat]))
      · rw [e0]; split_ifs
        · show denyAppend _ (d.freeEntry (natWord k) e).creds.deny = _; rw [f4]
        · rw [f4]
      · intro i
        rw [← f3 i, e0]; split_ifs <;> rfl
      · rw [e0]; split_ifs
        · unfold Device.denySerial; rw [f4]
        · rw [f4]
    obtain ⟨s1, s2, s3, s4⟩ := step
    have hf' : ∀ p ∈ rest, Table.find p.1 (d.freeAtReset k).creds.entries = some p.2 ∧ p.1 < 4294967296 := by
      intro p hp
      obtain ⟨a, b⟩ := hf p (List.mem_cons_of_mem _ hp)
      refine ⟨?_, b⟩
      have h1 := s1 (natWord p.1)
      have hn : (natWord p.1).toNat = p.1 := by simp [natWord]; omega
      unfold Device.entryOf at h1
      rw [hn, if_neg (fun q => hpw.1 p hp q.symm)] at h1
      rw [h1]; exact a
    obtain ⟨i1, i2, i3, i4⟩ := ih (d.freeAtReset k) hf' hpw.2
    simp only [List.map_cons, List.foldl_cons]
    refine ⟨?_, ?_, ?_, ?_⟩
    · intro serial
      rw [i1, s1]
      simp only [List.mem_cons]
      split_ifs <;> first | rfl | (exfalso; tauto)
    · rw [i2, s2]
      simp only [List.filter_cons]
      split_ifs <;> rfl
    · intro i
      rw [i3, s3]
      cases Table.find i d.rooms with
      | none => rfl
      | some r =>
        simp only [Option.map_some, List.filter_cons]
        congr 1
        by_cases h1 : e.kind = .guest <;> by_cases h2 : i = e.room
        · simp only [h1, h2, decide_true, Bool.and_self, if_true, and_self, List.length_cons, Room.mk.injEq, true_and, and_true]
          omega
        · have h2' : ¬ e.room = i := fun q => h2 q.symm
          simp [h2, h2']
        · simp [h1]
        · simp [h1]
    · rw [i4, s4]

/-- A failed issue: its entry freed, a serial denied before denied again, its record and its settlement. -/
theorem Device.failIssue_eq (d : Device) (i : Issue) (code : ResultCode) (e : Entry) (he : d.entryOf i.serial = some e) :
   ∃ E R, d.failIssue i code = { d with
      creds := { d.creds with entries := E, deny := if e.deniedBefore = true then denyAppend i.serial d.creds.deny else d.creds.deny }
      rooms := R
      journal := (d.notable (.card i.serial .issueFailed e.room e.tag)).journal
      walker := { d.walker with settlements := d.walker.settlements ++ [{ block := i.block, words := [0, 0], code := code }] } } ∧
     (∀ o : Word, Table.find o.toNat E = if o = i.serial then none else d.entryOf o) ∧
     (∀ room, Table.find room R = (Table.find room d.rooms).map (fun r => if e.kind = .guest ∧ room = e.room then
         { r with guestCount := r.guestCount - 1 } else r)) := by
  obtain ⟨f1, f3, f4⟩ := Device.freeEntry_eq d i.serial e
  refine ⟨(d.freeEntry i.serial e).creds.entries, (d.freeEntry i.serial e).rooms, ?_, f1, f3⟩
  unfold Device.failIssue; rw [he]
  simp only
  by_cases hd : e.deniedBefore = true
  · simp only [hd, if_true, Device.denySerial]; rw [f4]; rfl
  · simp only [hd, if_false, Bool.false_eq_true]; rw [f4]; rfl

/-- A written issue that supersedes nothing. -/
theorem Device.issueWritten_eq (d : Device) (i : Issue) (e : Entry) (hsup : i.supersede = false) (he : d.entryOf i.serial = some e) :
   d.issueWritten i = { d with
      creds := { d.creds with entries := (d.putEntry i.serial { e with state := .active, deniedBefore := false }).creds.entries }
      journal := (d.notable (.card i.serial .issued e.room e.tag)).journal
      walker := { d.walker with settlements := d.walker.settlements ++ [{ block := i.block, words := [e.issueMinute, 0], code := .done }] }
          } := by
  unfold Device.issueWritten; rw [he]; simp only [hsup, Bool.false_eq_true, if_false]; rfl

/-- The place of a serial in the deny list, 0 where it is not there. -/
theorem denyPosition_eq (serial : Word) (i : Nat) (l : List Word) :
   (serial ∉ l → denyPosition serial i l = 0) ∧ (∀ a b, l = a ++ serial :: b → serial ∉ a → denyPosition serial i l = a.length + i) := by
  induction l generalizing i with
  | nil => simp [denyPosition]
  | cons x r ih =>
    unfold denyPosition
    constructor
    · intro h
      simp at h
      rw [if_neg (fun q => h.1 q.symm)]
      exact (ih (i+1)).1 h.2
    · intro a b e ha
      cases a with
      | nil => simp at e; simp [e.1]
      | cons y ys =>
        simp at e ha
        obtain ⟨rfl, e⟩ := e
        rw [if_neg (fun q => ha.1 q.symm), (ih (i+1)).2 ys b e ha.2]
        simp; omega

/-- The check word has sixteen bits. -/
theorem checkWord_lt (p : Nat) (i : CardImage) : checkWord p i < 65536 := by
  unfold checkWord; have := Nat.mod_lt (p + weightedSum 1 (imageContent i)) (show 0 < Config.checkModulus by decide); simp only
      [Config.checkModulus] at *; omega

/-- An image that the device built passes its own check. -/
theorem imagePasses_buildImage (p : Nat) (serial kind room minute) : imagePasses p (buildImage p serial kind room minute) = true := by
  unfold imagePasses
  rw [decide_eq_true_iff]
  unfold buildImage
  simp only [BitVec.toNat_ofNat]
  rw [Nat.mod_eq_of_lt (checkWord_lt _ _)]
  rfl

end Sys2Proof.Machine
end

