-- ==== Sys2Proof/Laws/Delivery.lean ====
section
/-! SUPPORT. A command's end hands over the reports of undelivered commands; two rounds empty the list, because a report answers at most with a RELOCK, whose own report answers with nothing. -/

namespace Sys2Proof.Machine

open Sys2Proof

/-- A hand-over adds at most reports of its own command. -/
theorem Device.hand_reports (d : Device) (key : Nat) (c : Command) : ∃ R, (d.hand key c).reports = d.reports ++ R ∧ ∀ r ∈ R, r.command =
    c := by
  rcases d.hand_cases key c with ⟨_, h⟩ | ⟨n, _, _, h⟩ | ⟨n, _, h⟩ <;> rw [h]
  · exact ⟨[], by simp, by simp⟩
  · exact ⟨_, rfl, by simp⟩
  · exact ⟨[], by simp, by simp⟩

/-- RELOCKs handed over add only reports of RELOCK. -/
theorem Device.handAll_relocks (cs : List Command) (hc : ∀ c ∈ cs, c = .relock) (d : Device) (key : Nat) : ∃ R, (d.handAll key cs).reports
    = d.reports ++ R ∧ (∀ r ∈ R, r.command = .relock) ∧ (cs = [] → R = []) := by
  induction cs generalizing d with
  | nil => exact ⟨[], by simp [Device.handAll], by simp, fun _ => rfl⟩
  | cons c cs ih =>
    obtain ⟨R1, h1, h2⟩ := Device.hand_reports d key c
    obtain ⟨R2, h3, h4, _⟩ := ih (fun x hx => hc x (List.mem_cons_of_mem _ hx)) (d.hand key c)
    refine ⟨R1 ++ R2, ?_, ?_, by simp⟩
    · show ((d.hand key c).handAll key cs).reports = _
      rw [h3, h1, List.append_assoc]
    · intro r hr
      rcases List.mem_append.mp hr with hr | hr
      · rw [h2 r hr]; exact hc c List.mem_cons_self
      · exact h4 r hr

/-- A door's outcome whose commands are RELOCKs adds only reports of RELOCK. -/
theorem Device.applyDoor_relocks (d : Device) (key : Nat) (out : Bool) (o : DoorOut) (hc : ∀ c ∈ o.commands, c = .relock) :
   ∃ R, (d.applyDoor key out o).reports = d.reports ++ R ∧ (∀ r ∈ R, r.command = .relock) ∧ (o.commands = [] → R = []) := by
  unfold Device.applyDoor; dsimp only
  rw [foldl_leaves _ Device.reports (fun _ _ => by simp)]
  cases out
  · obtain ⟨R, h1, h2, h3⟩ := Device.handAll_relocks o.commands hc (d.modifyNode key (fun n => { n with door := some o.door })) key
    exact ⟨R, by split <;> simpa using h1, h2, h3⟩
  · exact ⟨[], by split <;> simp, by simp, fun _ => rfl⟩

/-- Coming to rest hands at most a RELOCK. -/
theorem Door.rest_relocks (r : Door) (out : Bool) : ∀ c ∈ (r.rest out).commands, c = .relock := by
  unfold Door.rest
  (repeat' split) <;> simp

/-- A door answers an undelivered command with at most a RELOCK, and an undelivered RELOCK with nothing. -/
theorem Door.undelivered_relocks (r : Door) (c : Command) : (∀ x ∈ (r.undelivered c).commands, x = .relock) ∧ (c = .relock → (r.undelivered
    c).commands = []) := by
  unfold Door.undelivered
  split
  · refine ⟨?_, fun h => by cases h⟩
    exact Door.rest_relocks _ _
  · simp
  · split <;> simp [DoorOut.same]
  all_goals simp [DoorOut.same]

/-- What the door's owner reports of an undelivered command. -/
theorem Device.doorUndelivered_reports (d : Device) (key : Nat) (c : Command) :
   ∃ R, (d.doorEvent key (fun n r => if n.state.isOut then .same r else r.undelivered c)).reports = d.reports ++ R ∧ (∀ r ∈ R, r.command =
       .relock) ∧ (c = .relock → R = []) := by
  unfold Device.doorEvent
  split
  · exact ⟨[], by simp, by simp, fun _ => rfl⟩
  · next n _ =>
    split
    · exact ⟨[], by simp, by simp, fun _ => rfl⟩
    · next r _ =>
      dsimp only
      by_cases ho : n.state.isOut = true
      · rw [if_pos ho]
        obtain ⟨R, a, b, e⟩ := Device.applyDoor_relocks d key n.state.isOut (.same r) (by simp [DoorOut.same])
        exact ⟨R, a, b, fun _ => e rfl⟩
      · rw [if_neg ho]
        obtain ⟨R, a, b, e⟩ := Device.applyDoor_relocks d key n.state.isOut (r.undelivered c) (Door.undelivered_relocks r c).1
        exact ⟨R, a, b, fun h => e ((Door.undelivered_relocks r c).2 h)⟩

/-- What any owner reports of an undelivered command. -/
theorem Device.commandUndelivered_reports (d : Device) (key : Nat) (c : Command) :
   ∃ R, (d.commandUndelivered key c).reports = d.reports ++ R ∧ (∀ r ∈ R, r.command = .relock) ∧ (c = .relock → R = []) := by
  unfold Device.commandUndelivered; dsimp only
  cases c
  case relock => exact Device.doorUndelivered_reports d key _
  case release => exact Device.doorUndelivered_reports d key _
  case hold => exact Device.doorUndelivered_reports d key _
  all_goals exact ⟨[], by simp, by simp, fun _ => rfl⟩

/-- What a delivery of reports adds to the list. -/
theorem Device.deliver_reports (rs : List Report) (d : Device) :
   ∃ R, (d.deliver rs).reports = d.reports ++ R ∧ (∀ r ∈ R, r.command = .relock) ∧ ((∀ r ∈ rs, r.command = .relock) → R = []) := by
  induction rs generalizing d with
  | nil => exact ⟨[], by simp [Device.deliver], by simp, fun _ => rfl⟩
  | cons x rs ih =>
    obtain ⟨R1, a1, b1, c1⟩ := Device.commandUndelivered_reports d x.node x.command
    obtain ⟨R2, a2, b2, c2⟩ := ih (d.commandUndelivered x.node x.command)
    refine ⟨R1 ++ R2, ?_, ?_, ?_⟩
    · show ((d.commandUndelivered x.node x.command).deliver rs).reports = _
      rw [a2, a1, List.append_assoc]
    · intro r hr
      rcases List.mem_append.mp hr with hr | hr
      · exact b1 r hr
      · exact b2 r hr
    · intro h
      rw [c1 (h x List.mem_cons_self), c2 (fun r hr => h r (List.mem_cons_of_mem _ hr))]; rfl

/-- Two rounds leave no report. -/
theorem Device.deliverRound_twice (d : Device) : d.deliverRound.deliverRound.reports = [] := by
  obtain ⟨R1, a1, b1, _⟩ := Device.deliver_reports d.reports { d with reports := [] }
  have e1 : d.deliverRound.reports = R1 := by unfold Device.deliverRound; rw [a1]; rfl
  obtain ⟨R2, a2, _, c2⟩ := Device.deliver_reports d.deliverRound.reports { d.deliverRound with reports := [] }
  have e2 : d.deliverRound.deliverRound.reports = R2 := by
    show (Device.deliver { d.deliverRound with reports := [] } d.deliverRound.reports).reports = _
    rw [a2]; rfl
  rw [e2]
  exact c2 (by rw [e1]; exact b1)
--GEN

/-- Stamping the block leaves the queue of commands. -/
theorem State.stampBlock_pending (s : State) : s.stampBlock.pending = s.pending := by unfold State.stampBlock; split <;> rfl

/-- Stamping before a block leaves the queue of commands. -/
theorem State.stampBefore_pending (s : State) (b) : (s.stampBefore b).pending = s.pending := by
  unfold State.stampBefore; split <;> first | exact State.stampBlock_pending s | rfl

/-- A memory error leaves the queue of commands. -/
theorem State.portError_pending (s : State) (a n) : (s.portError a n).pending = s.pending := by
  unfold State.portError; split
  · unfold State.failRead; (repeat' split) <;> rfl
  · unfold State.failLink; dsimp only; split
    · exact State.stampBlock_pending s
    · rfl
  · unfold State.failBlock; (repeat' split) <;> (try dsimp only) <;> (repeat' split) <;> rfl
  · unfold State.failSettlement; split
    · rfl
    · split
      · exact State.stampBefore_pending s _
      · rfl
  · unfold State.failPage; split <;> rfl
  · unfold State.failPlacement; split <;> rfl
  · unfold State.failMark; split <;> rfl

end Sys2Proof.Machine
end

