-- ==== Sys2Proof/Laws/Rooms.lean ====
section
/-! SUPPORT. Rooms, links, clamps and slots: what the shared operations over them answer. -/

namespace Sys2Proof.Machine

open Sys2Proof

/-- A value clamped at its top, and whether it was. -/
theorem clampTop_eq (t v : Nat) : clampTop t v = (min t v, decide (t < v)) := by
  unfold clampTop; split_ifs with h
  · simp [h]; omega
  · simp [h]; omega

/-- A word is zero when its number is. -/
theorem Word.eq_zero_iff (w : Word) : (w = 0) ↔ w.toNat = 0 :=
  ⟨fun h => by rw [h]; rfl, fun h => BitVec.eq_of_toNat_eq (by simpa using h)⟩

/-- A value that defaults at zero and is clamped at both ends, and whether it was. -/
theorem clampDefault_eq (low top dv v : Nat) (h : low ≤ top) : clampDefault low top dv v = (if v = 0 then dv else max low (min top v),
    decide ((0 < v ∧ v < low) ∨ top < v)) := by
  unfold clampDefault
  by_cases h0 : v = 0
  · subst h0; simp
  · rw [if_neg h0, if_neg h0]
    split_ifs with h1 h2
    · refine Prod.ext ?_ ?_
      · show low = _; omega
      · symm; simp only [decide_eq_true_eq]; omega
    · refine Prod.ext ?_ ?_
      · show top = _; omega
      · symm; simp only [decide_eq_true_eq]; omega
    · refine Prod.ext ?_ ?_
      · show v = _; omega
      · symm; simp only [decide_eq_false_iff_not]; omega

/-- The link that an order's address names. -/
theorem Device.linkOf_named {d : Device} {kind room seg addr link} (h : d.linkNamed kind room seg addr link) : d.linkOf seg addr kind room
    = some link := by
  rcases h with ⟨h, e⟩ | ⟨h1, h2, h3, h4, n, h5, h6, h7⟩
  · subst h; subst e; simp [Device.linkOf]
  · have ha : ¬ addr = 0#32 := by rintro rfl; simp at h2
    have ok : addressOk seg.toNat addr.toNat = true := by simp [addressOk]; omega
    unfold Device.linkOf
    have h5' : Table.find (nodeKey seg.toNat addr.toNat) d.nodes = some n := h5
    simp [ha, ok, h5', h6, h7, h4]
    rfl

/-- An order over a room that the table holds. -/
theorem Device.withRoom_found {d : Device} {room : Word} {n f r} (h : room.toNat < 768) (hf : Table.find room.toNat d.rooms = some r) :
    d.withRoom room n f = f room.toNat r := by
  unfold Device.withRoom
  rw [if_neg (by omega), hf]

/-- The suspension rule over new amounts. -/
theorem Room.suspension_amounts (r : Room) (b u : Nat) (c : Nat) : ({ r with balance := b, unposted := u, ceiling := c } : Room).suspension
    = { r with
          balance := b, unposted := u, ceiling := c
          bar := if r.bar.inSession then r.bar else if c - b < r.openFloor ∨ 0 < u then .suspended else .locked } := by
  unfold Room.suspension Room.restState
  cases r.bar.inSession <;> simp

/-- An order whose owner edits one room. -/
theorem exec_roomOrder {s : State} {k : Nat} {r : Room} {block tag : Word} {abort} {kind params} {c : Instr} (owner : OrderContext → Device
    → Device × Reply) (f : Room → Room) (q : Reply)
   (hw : s.dev.orderInHand kind block tag abort) (hf : Table.find k s.dev.rooms = some r)
   (he : exec c s = commit s (fun t => t.onDevice (fun d => d.runOrder kind params owner)))
   (ho : owner { block := block, tag := tag } s.dev = (s.dev.modifyRoom k f, q)) :
   ∃ t, exec c s = .next t ∧ Table.find k t.dev.rooms = some (f r) ∧ (∀ o, o ≠ k → Table.find o t.dev.rooms = Table.find o s.dev.rooms) ∧
     t.dev.walker = s.dev.walker.replied block abort params q ∧ t =
         { s with dev := { s.dev with walker := t.dev.walker, rooms := t.dev.rooms } } := by
  refine ⟨_, he.trans (commit_order hw.1 ho hw.2), ?_, ?_, rfl, ?_⟩
  · simp only [Device.modifyRoom_rooms, Table.find_modify_self, hf]; rfl
  · intro o h; simp only [Device.modifyRoom_rooms]; exact Table.find_modify_ne _ _ h
  · simp only [Device.modifyRoom_journal, stallStatus_of_load_le _ (Nat.le_refl _)]; rfl

/-- SET_SLOTS' new slots, slot by slot. -/
theorem resetSlots_eq (xs : List Slot) (ps : List (Word × Word)) (h : xs.length = ps.length) (hp : ∀ p ∈ ps, p.1.toNat < 64 ∨ p.1.toNat =
    255) :
   resetSlots xs ps = List.zipWith (fun (x : Slot) (p : Word × Word) =>
          { x with item := if p.1 = 255 then none else some p.1.toNat, capacity := max 1 (min 15 p.2.toNat) }) xs ps := by
  induction xs generalizing ps with
  | nil => cases ps <;> rfl
  | cons x r ih =>
    cases ps with
    | nil => simp at h
    | cons p t =>
      simp only [resetSlots, List.zipWith_cons_cons]
      rw [ih t (by simpa using h) (fun q hq => hp q (List.mem_cons_of_mem _ hq))]
      congr 1
      unfold Slot.reset itemOf
      rcases hp p (by simp) with h' | h'
      · have : ¬ p.1 = 255#32 := by rintro q; rw [q] at h'; simp at h'
        simp [h', this]
      · have : p.1 = 255#32 := BitVec.eq_of_toNat_eq (by rw [h']; rfl)
        rw [this]; simp

/-- The room that a minibar serves is in the table and links it. -/
theorem Device.barRoom_linked {d : Device} {key i r} (h : d.barRoom key = some (i, r)) : (i, r) ∈ d.rooms ∧ r.barLink = some key := by
  unfold Device.barRoom at h
  have := List.find?_some h
  exact ⟨List.mem_of_find?_eq_some h, by simpa using this⟩

/-- The only room that links a minibar is the one it serves. -/
theorem Device.barRoom_only {d : Device} {key : Nat} {p : Nat × Room} (hm : p ∈ d.rooms) (hl : p.2.barLink = some key) (hu : ∀ q ∈ d.rooms,
    q.2.barLink = some key → q = p) : d.barRoom key = some p := by
  unfold Device.barRoom
  cases hfd : d.rooms.find? (fun p => decide (p.2.barLink = some key)) with
  | none => rw [List.find?_eq_none] at hfd; have := hfd _ hm; simp [hl] at this
  | some q =>
    have h1 := List.mem_of_find?_eq_some hfd
    have h2 := List.find?_some hfd
    rw [hu q h1 (by simpa using h2)]

/-- A minibar that no room links serves none. -/
theorem Device.barRoom_none {d : Device} {key : Nat} (h : ∀ p ∈ d.rooms, p.2.barLink ≠ some key) : d.barRoom key = none := by
  unfold Device.barRoom
  rw [List.find?_eq_none]; intro p hp; simpa using h p hp

/-- A tally's readings, slot by slot. -/
theorem readings_eq : ∀ (l : List Slot) (c : List (BitVec 4)), c.length = l.length → readings l c = l.zip (c.map (fun c => c.toNat))
  | [], [], _ => rfl
  | [], _ :: _, h => by simp at h
  | _ :: _, [], h => by simp at h
  | s :: rest, c :: cs, h => by
    simp only [readings, List.map_cons, List.zip_cons_cons]
    rw [readings_eq rest cs (by simpa using h)]

/-- The slots after a tally, slot by slot. -/
theorem rebased_eq : ∀ (l : List Slot) (c : List (BitVec 4)), c.length = l.length → rebased (readings l c) = List.zipWith (fun (x : Slot)
    (c : BitVec 4) => { x with baseline := min c.toNat x.capacity }) l c
  | [], [], _ => rfl
  | [], _ :: _, h => by simp at h
  | _ :: _, [], h => by simp at h
  | s :: rest, c :: cs, h => by
    have := rebased_eq rest cs (by simpa using h)
    simp only [rebased, readings, List.map_cons, List.zipWith_cons_cons] at this ⊢
    rw [this]; rfl

/-- Whether a tally's count was above a capacity. -/
theorem anyClamped_eq : ∀ (l : List Slot) (c : List (BitVec 4)), c.length = l.length → anyClamped (readings l c) = (List.zipWith (fun (x :
    Slot) (c : BitVec 4) => decide (x.capacity < c.toNat)) l c).any id
  | [], [], _ => rfl
  | [], _ :: _, h => by simp at h
  | _ :: _, [], h => by simp at h
  | s :: rest, c :: cs, h => by
    have := anyClamped_eq rest cs (by simpa using h)
    simp only [anyClamped, readings, List.any_cons, List.zipWith_cons_cons, id] at this ⊢
    rw [this]

/-- A RELOCK handed to the minibar after its room is edited. -/
theorem Device.hand_relock {d : Device} {key seg addr : Nat} {n : Node} (hkey : key = seg * 256 + addr) (ha : addr < 256) (h : d.reachable
    key n) (r : Room) (room : Nat) :
    (d.modifyRoom room (fun _ => r)).hand key .relock =
        { d with rooms := Table.modify room (fun _ => r) d.rooms, segments := d.segments.set seg ((d.segment seg).place addr .relock) } :=
        by
  have hre : (d.modifyRoom room (fun _ => r)).reachable key n := h
  rw [Device.hand_reachable _ hre]
  have h1 : keySeg key = seg := by unfold keySeg; omega
  have h2 : keyAddr key = addr := by unfold keyAddr; omega
  rw [h1, h2]; rfl

end Sys2Proof.Machine
end

