-- ==== Sys2Proof/Laws/Houses.lean ====
section
/-! SUPPORT. The house inputs and SETUP: what their shared operations answer. -/

namespace Sys2Proof.Machine

open Sys2Proof

/-- What setting a house input leaves. -/
theorem Device.setHouse_frame' (d : Device) (p : Pin) (h : House) : (d.setHouse p h).house p = h ∧ (d.setHouse p h).resetHeld = d.resetHeld
    ∧ (d.setHouse p h).reports = d.reports ∧ (d.setHouse p h).journal = d.journal ∧ (d.setHouse p h).regs = d.regs ∧ (d.setHouse p
    h).walker = d.walker ∧ (d.setHouse p h).nodes = d.nodes ∧ (d.setHouse p h).segments = d.segments := by
  cases p <;> simp [Device.setHouse, Device.house]

/-- An input that stays as active leaves the modes. -/
theorem Device.modes_setHouse (d : Device) (p : Pin) (h : House) (ha : h.active = (d.house p).active) : (d.setHouse p h).modes = d.modes :=
    by
  cases p <;> simp_all [Device.setHouse, Device.house, Device.modes]

/-- No change of the house, while the modes are the same or the reset is held. -/
theorem Device.houseChanges_same (d : Device) (before : HouseModes) (c : HouseCause) (h : d.resetHeld.isSome = true ∨ d.modes = before) :
    d.houseChanges before c = d := by
  unfold Device.houseChanges
  rcases h with h | h
  · simp [h]
  · simp [h]

/-- An edge of an input, its latch written out. -/
theorem House.edge_eq (h : House) (level : Level) : h.edge level =
    { h with sampled := level, settling := true, latch := h.latch || decide (h.sense = .bothLatch ∨ (h.sense = .riseLatch ∧ level = .high) ∨ (h.sense = .fallLatch ∧ level = .low)) } := by
  unfold House.edge Sense.catches
  cases h.sense <;> cases level <;> rfl

/-- A HOUSE_MODE order that leaves the modes. -/
theorem exec_houseOrder {s : State} {pin : Pin} {w : Word} {after : House} {action block tag : Word} {abort : Bool}
    (hp : pinOf w = some pin) (ho : s.dev.orderInHand .houseMode block tag abort)
    (hac : (action = 1 ∧ after = { s.dev.house pin with order := true })
          ∨ (action = 0 ∧ after = { s.dev.house pin with
              order := false
              latch := (s.dev.house pin).latch && !(s.dev.house pin).sense.latches }))
    (hr : ((s.dev.setHouse pin after).houseChanges s.dev.modes .order).reports = []) :
    exec (.houseMode w action) s = .next
        { s with dev := { (s.dev.setHouse pin after).houseChanges s.dev.modes .order with walker := (s.dev.walker.replied block abort 2
            (.done [flagWord (s.dev.house pin).active, flagWord after.active, flagWord after.inputPart, flagWord after.order])), regs :=
                { ((s.dev.setHouse pin after).houseChanges s.dev.modes .order).regs with status := stallStatus s.dev.journal ((s.dev.setHouse pin after).houseChanges s.dev.modes .order).journal ((s.dev.setHouse pin after).houseChanges s.dev.modes .order).regs.status } } } := by
  have hw : ((s.dev.setHouse pin after).houseChanges s.dev.modes .order).walker = s.dev.walker := by
    simp
  have hown : (fun (_ : OrderContext) (x : Device) => x.houseMode w action) { block := block, tag := tag } s.dev = ((s.dev.setHouse pin
      after).houseChanges s.dev.modes .order, .done [flagWord (s.dev.house pin).active, flagWord after.active, flagWord after.inputPart,
      flagWord after.order]) := by
      simp only [Device.houseMode, hp]
      rcases hac with ⟨rfl, ha⟩ | ⟨rfl, ha⟩
      · have : (s.dev.house pin).ordered true = after := by rw [ha]; rfl
        simp [this]
      · have : (s.dev.house pin).ordered false = after := by
          rw [ha]; unfold House.ordered
          cases (s.dev.house pin).sense.latches <;> simp
        simp [this]
  rw [exec_houseMode, commit_order (owner := fun _ x => x.houseMode w action) ho.1 hown hr]
  rw [hw]

/-- A house event that `houseEvent` states. -/
theorem exec_houseEvent {s : State} {pin : Pin} {c : Instr} {after : House} {cause : HouseCause} {w : Walker} (he : s.houseEvent pin c
    after cause w) :
   s.settled ∧ ((s.dev.setHouse pin after).houseChanges s.dev.modes cause).reports = [] →
   exec c s = .next
       { s with dev := { (s.dev.setHouse pin after).houseChanges s.dev.modes cause with walker := w, regs := { ((s.dev.setHouse pin after).houseChanges s.dev.modes cause).regs with status := stallStatus s.dev.journal ((s.dev.setHouse pin after).houseChanges s.dev.modes cause).journal ((s.dev.setHouse pin after).houseChanges s.dev.modes cause).regs.status } } } := by
  intro ⟨hs, hr⟩
  have hw : ((s.dev.setHouse pin after).houseChanges s.dev.modes cause).walker = s.dev.walker := by
    simp
  rcases he with ⟨level, rfl, _, hne, rfl, rfl, ha⟩ | ⟨rfl, _, hse, rfl, rfl, ha⟩ | ⟨block, tag, abort, action, rfl, ho, rfl, hac, rfl⟩
  · have e : s.dev.inputEdge pin level = (s.dev.setHouse pin after).houseChanges s.dev.modes (.pin pin) := by
      unfold Device.inputEdge; rw [if_neg hne, ha, House.edge_eq]
    rw [exec_inputEdge, commit_of_settled s _ (by simp only [State.onDevice_dev]; rw [e]; exact hr)]
    simp only [State.onDevice, e]
    congr 1
    rw [← hw]
  · have e : s.dev.inputSettled pin = (s.dev.setHouse pin after).houseChanges s.dev.modes (.pin pin) := by
      unfold Device.inputSettled; rw [hse, ha]; rfl
    rw [exec_inputSettled, commit_of_settled s _ (by simp only [State.onDevice_dev]; rw [e]; exact hr)]
    simp only [State.onDevice, e]
    congr 1
    rw [← hw]
  · refine exec_houseOrder (w := _) (by cases pin <;> rfl) ho hac hr

/-- The settings that a segment's words give. -/
theorem segmentOf_eq (q : SegmentParams) :
   ((segmentOf q).isSome = true ↔ q.enabled.toNat ≤ 1 ∧ (SchedMode.ofCode q.mode.toNat).isSome = true) ∧
   ∀ st c, segmentOf q = some (st, c) → (st.enabled = decide (q.enabled = 1) ∧ SchedMode.ofCode q.mode.toNat = some st.mode ∧
        st.timeout = (if q.timeout = 0 then 10 else max 2 (min 50 q.timeout.toNat))) ∧ c = decide (q.timeout.toNat = 1 ∨ 50 <
            q.timeout.toNat) := by
  unfold segmentOf
  cases hm : SchedMode.ofCode q.mode.toNat with
  | none => simp
  | some m =>
    simp only
    by_cases h : 1 < q.enabled.toNat
    · rw [if_pos h]; simp; omega
    · rw [if_neg h]
      refine ⟨by simp; omega, ?_⟩
      intro st c he
      rw [clampDefault_eq 2 50 10 _ (by omega)] at he
      simp only [Option.some.injEq, Prod.mk.injEq] at he
      obtain ⟨rfl, rfl⟩ := he
      refine ⟨⟨rfl, rfl, ?_⟩, ?_⟩
      · show (if q.timeout.toNat = 0 then _ else _) = _
        simp only [Word.eq_zero_iff]
      · show decide _ = decide _
        rw [decide_eq_decide]; omega

/-- The settings that all segments' words give. -/
theorem segmentsOf_eq (qs : List SegmentParams) :
   ((segmentsOf qs).isSome = true ↔ ∀ q ∈ qs, q.enabled.toNat ≤ 1 ∧ (SchedMode.ofCode q.mode.toNat).isSome = true) ∧
   ∀ sts c, segmentsOf qs = some (sts, c) → sts.length = qs.length ∧
     (∀ (i : Nat) (q : SegmentParams) (st : SegmentSettings), qs[i]? = some q → sts[i]? = some st → st.enabled = decide (q.enabled = 1) ∧
         SchedMode.ofCode q.mode.toNat = some st.mode ∧
        st.timeout = (if q.timeout = 0 then 10 else max 2 (min 50 q.timeout.toNat))) ∧
     (c = true ↔ ∃ q ∈ qs, q.timeout.toNat = 1 ∨ 50 < q.timeout.toNat) := by
  induction qs with
  | nil =>
    refine ⟨by simp [segmentsOf], ?_⟩
    intro sts c h
    simp only [segmentsOf, Option.some.injEq, Prod.mk.injEq] at h
    obtain ⟨rfl, rfl⟩ := h
    simp
  | cons q rest ih =>
    obtain ⟨a1, a2⟩ := segmentOf_eq q
    obtain ⟨b1, b2⟩ := ih
    unfold segmentsOf
    cases h1 : segmentOf q with
    | none =>
      rw [h1] at a1
      simp only [Option.isSome_none, Bool.false_eq_true, false_iff] at a1
      refine ⟨?_, by simp⟩
      simp only [Option.isSome_none, Bool.false_eq_true, false_iff, List.forall_mem_cons]
      exact fun h => a1 h.1
    | some x =>
      obtain ⟨st0, c0⟩ := x
      rw [h1] at a1
      simp only [Option.isSome_some, true_iff] at a1
      cases h2 : segmentsOf rest with
      | none =>
        rw [h2] at b1
        simp only [Option.isSome_none, Bool.false_eq_true, false_iff] at b1
        refine ⟨?_, by simp⟩
        simp only [Option.isSome_none, Bool.false_eq_true, false_iff, List.forall_mem_cons]
        exact fun h => b1 h.2
      | some y =>
        obtain ⟨sts0, cs0⟩ := y
        rw [h2] at b1
        simp only [Option.isSome_some, true_iff] at b1
        refine ⟨by simp only [Option.isSome_some, true_iff, List.forall_mem_cons]; exact ⟨a1, b1⟩, ?_⟩
        intro sts c h
        simp only [Option.some.injEq, Prod.mk.injEq] at h
        obtain ⟨rfl, rfl⟩ := h
        obtain ⟨g1, g2⟩ := a2 _ _ h1
        obtain ⟨k1, k2, k3⟩ := b2 _ _ h2
        refine ⟨by simp [k1], ?_, ?_⟩
        · intro i q' st' hq hst
          cases i with
          | zero =>
            simp only [List.getElem?_cons_zero, Option.some.injEq] at hq hst
            subst hq hst; exact g1
          | succ i => exact k2 i q' st' (by simpa using hq) (by simpa using hst)
        · rw [Bool.or_eq_true, k3, g2, decide_eq_true_eq]
          simp

/-- A node after its segment's settings: the pass-over count cleared where the mode changed. -/
def Node.passOverKept (g : Option Segment) (st : Option SegmentSettings) (n : Node) : Node :=
  match g, st with
  | some g, some st => if g.settings.isSome ∧ g.settings.map (fun x => x.mode) ≠ some st.mode then { n with passOver := 0 } else n
  | _, _ => n

/-- Whether a segment's mode changes. -/
theorem Segment.modeChanges_eq (g : Segment) (m : SchedMode) : g.modeChanges m = decide (g.settings.isSome ∧ g.settings.map (fun x =>
    x.mode) ≠ some m) := by
  unfold Segment.modeChanges
  cases g.settings <;> simp

/-- Settings that enable every segment, applied one after another. -/
theorem Device.applySegments_eq (sts : List SegmentSettings) : ∀ (d : Device) (seg : Nat), seg + sts.length = d.segments.length → (∀ st ∈
    sts, st.enabled = true) →
   (∀ i, (d.applySegments seg sts).segments[i]? = if i < seg then d.segments[i]? else (d.segments[i]?).bind (fun g => (sts[i - seg]?).map
       (fun st => { g with settings := some st }))) ∧
   (∀ key, Table.find key (d.applySegments seg sts).nodes = (Table.find key d.nodes).map (fun n => if key / 256 < seg then n else
       Node.passOverKept (d.segments[key / 256]?) (sts[key / 256 - seg]?) n)) ∧
   d.applySegments seg sts = { d with nodes := (d.applySegments seg sts).nodes, segments := (d.applySegments seg sts).segments } := by
  induction sts with
  | nil =>
    intro d seg hl _
    refine ⟨?_, ?_, rfl⟩
    · intro i
      simp only [Device.applySegments]
      split_ifs with h
      · rfl
      · have : d.segments[i]? = none := by rw [List.getElem?_eq_none]; simp at hl; omega
        simp [this]
    · intro key
      simp only [Device.applySegments]
      cases hk : Table.find key d.nodes with
      | none => rfl
      | some n =>
        simp only [Option.map_some]
        split_ifs
        · rfl
        · congr 1
          unfold Node.passOverKept
          cases d.segments[key / 256]? <;> simp
  | cons st rest ih =>
    intro d seg hl hen
    simp only [List.length_cons] at hl
    have hst : st.enabled = true := hen st List.mem_cons_self
    have hlt : seg < d.segments.length := by omega
    have hg : d.segments[seg]? = some (d.segment seg) := by
      unfold Device.segment; rw [List.getD_eq_getElem?_getD, List.getElem?_eq_getElem hlt]; rfl
    have s1 : (d.applySegment seg st).segments = d.segments.set seg { d.segment seg with settings := some st } := by
      unfold Device.applySegment
      simp only [hst, if_true]
      split <;> rfl
    have s2 : ∀ key, Table.find key (d.applySegment seg st).nodes = (Table.find key d.nodes).map (fun n => if key / 256 = seg then
        Node.passOverKept (d.segments[key / 256]?) (some st) n else n) := by
      intro key
      unfold Device.applySegment
      rcases Bool.eq_false_or_eq_true ((d.segment seg).modeChanges st.mode) with h | h
      · simp only [hst, if_true, h]
        simp only [Device.clearPassOver, Device.setSegment_nodes, Table.find_mapVals]
        congr 1
        funext n
        unfold keySeg
        by_cases hk : key / 256 = seg
        · subst hk; rw [hg]; rw [Segment.modeChanges_eq, decide_eq_true_eq] at h
          simp only [Node.passOverKept, if_true]; rw [if_pos h]
        · rw [if_neg hk, if_neg hk]
      · simp only [hst, if_true, h, Bool.false_eq_true, if_false, Device.setSegment_nodes]
        cases hk : Table.find key d.nodes with
        | none => rfl
        | some n =>
          simp only [Option.map_some]
          congr 1
          by_cases hk : key / 256 = seg
          · subst hk; rw [hg]; rw [Segment.modeChanges_eq, decide_eq_false_iff_not] at h
            simp only [Node.passOverKept, if_true]; rw [if_neg h]
          · rw [if_neg hk]
    have s3 : d.applySegment seg st = { d with nodes := (d.applySegment seg st).nodes, segments := (d.applySegment seg st).segments } := by
      unfold Device.applySegment
      simp only [hst, if_true]
      split <;> rfl
    obtain ⟨i1, i2, i3⟩ := ih (d.applySegment seg st) (seg + 1) (by rw [s1]; simp; omega) (fun x hx => hen x (List.mem_cons_of_mem _ hx))
    have e : d.applySegments seg (st :: rest) = (d.applySegment seg st).applySegments (seg + 1) rest := rfl
    rw [e]
    refine ⟨?_, ?_, ?_⟩
    · intro i
      rw [i1, s1]
      rcases Nat.lt_trichotomy i seg with h | h | h
      · rw [if_pos (by omega), if_pos h, List.getElem?_set_ne (by omega)]
      · subst h
        rw [if_pos (by omega), if_neg (by omega), List.getElem?_set_self hlt, hg]
        simp
      · rw [if_neg (by omega), if_neg (by omega), List.getElem?_set_ne (by omega)]
        have : i - seg = (i - (seg + 1)) + 1 := by omega
        rw [this, List.getElem?_cons_succ]
    · intro key
      rw [i2, s2, Option.map_map]
      congr 1
      funext n
      simp only [Function.comp]
      rcases Nat.lt_trichotomy (key / 256) seg with h | h | h
      · rw [if_pos (by omega), if_neg (by omega), if_pos h]
      · rw [if_pos (by omega), if_pos h, if_neg (by omega), h]
        simp
      · rw [if_neg (by omega), if_neg (by omega), if_neg (by omega), s1, List.getElem?_set_ne (by omega)]
        have : key / 256 - seg = (key / 256 - (seg + 1)) + 1 := by omega
        rw [this, List.getElem?_cons_succ]
    · rw [i3, s3]

/-- An input under a new sense. -/
theorem House.withSense_eq (h : House) (x : Sense) : h.withSense x = { h with
      sense := x
      latch := h.latch && (decide (x = h.sense) || (h.sense.latches && x.latches)) } := by
  unfold House.withSense
  split_ifs with e
  · simp [e]
  · simp [e, Bool.and_assoc]

end Sys2Proof.Machine
end

