-- ==== Sys2Proof/Laws/Nodes.lean ====
section
/-! SUPPORT. What a node's state change tells its owner, and what a definition's words give. -/

namespace Sys2Proof.Machine

open Sys2Proof

/-- The door settings that an order's words give. -/
theorem doorSettingsOf_eq {q : DoorParams} {st c} (h : doorWordsGive q st c) : doorSettingsOf q = some (st, c) := by
  obtain ⟨h1, h2, h3, h4, h5, h6, h7, h8, h9, h10, h11⟩ := h
  unfold doorSettingsOf
  rw [h1, h2, h3, h4, h5, h6]
  simp only [clampTop_eq]
  have c1 : clampDefault 1 60 5 q.releaseTime.toNat = (st.releaseTime, decide (60 < q.releaseTime.toNat)) := by
    rw [h9, clampDefault_eq _ _ _ _ (by decide)]
    refine Prod.ext ?_ ?_
    · simp only [Word.eq_zero_iff]; split_ifs <;> omega
    · simp only [decide_eq_decide]; omega
  have c2 : clampDefault 10 600 60 q.heldLimit.toNat = (st.heldLimit, decide ((0 < q.heldLimit.toNat ∧ q.heldLimit.toNat < 10) ∨ 600 <
      q.heldLimit.toNat)) := by
    rw [h10, clampDefault_eq _ _ _ _ (by decide)]
    refine Prod.ext ?_ ?_
    · simp only [Word.eq_zero_iff]
    · rfl
  rw [c1, c2, h11]
  cases st
  simp_all [Bool.or_assoc]

/-- The definition that an order's words give. -/
theorem nodeOrder_eq {p : NodeParams} {q : DoorParams} {k fm fd settings dc params} (h1 : p.seg.toNat < 8) (h2 : 1 ≤ p.addr.toNat) (h3 :
    p.addr.toNat ≤ 120)
    (hr : p.room.toNat < 768 ∨ (p.room.toNat = 65535 ∧ k ≠ .roomDoor ∧ k ≠ .minibar))
    (hk : NodeKind.ofCode p.kind.toNat = some k) (hfm : ResponseMode.ofCode p.faultMode.toNat = some fm)
    (hfd : RetryDelay.ofCode p.faultDelay.toNat = some fd)
    (hd : (k.isDoor = true ∧ params = 18 ∧ ∃ st, settings = some st ∧ doorWordsGive q st dc) ∨
      (k.isDoor = false ∧ params = 8 ∧ settings = none ∧ dc = false)) :
    nodeOrderOf p q = some
        { kind := k, service := min 3 p.service.toNat, room := p.room.toNat, faultMode := fm, faultDelay := fd, deglitch := if p.deglitch = 0 then 3 else min 8 p.deglitch.toNat, door := settings, clamped := decide (3 < p.service.toNat ∨ 8 < p.deglitch.toNat) || dc } ∧ (if doorKindWord p.kind then 18 else 8) = params := by
  have hdp : doorPart k q = some (settings, dc) := by
    rcases hd with ⟨a, _, st, rfl, c⟩ | ⟨a, _, rfl, rfl⟩
    · simp [doorPart, a, doorSettingsOf_eq c]
    · simp [doorPart, a]
  constructor
  · unfold nodeOrderOf
    rw [hk, hfm, hfd]
    simp only [hdp]
    have ok : addressOk p.seg.toNat p.addr.toNat = true := by simp [addressOk]; omega
    have rk : roomWordOk p.room.toNat = true := by simp [roomWordOk, Config.noRoom]; omega
    have nr : ((decide (k = .roomDoor) || decide (k = .minibar)) && decide (p.room.toNat = Config.noRoom)) = false := by
      rcases hr with hr | ⟨_, a, b⟩
      · have : ¬ p.room.toNat = 65535 := by omega
        simp [this]
      · simp [a, b]
    have c1 : clampDefault 1 8 3 p.deglitch.toNat = (if p.deglitch = 0 then 3 else min 8 p.deglitch.toNat, decide (8 <
        p.deglitch.toNat)) := by
      rw [clampDefault_eq _ _ _ _ (by decide)]
      refine Prod.ext ?_ ?_
      · simp only [Word.eq_zero_iff]; split_ifs <;> omega
      · simp only [decide_eq_decide]; omega
    rw [ok, rk, nr, c1]
    simp only [clampTop_eq]
    simp [Bool.or_assoc]
  · unfold doorKindWord; rw [hk]
    rcases hd with ⟨a, rfl, _⟩ | ⟨a, rfl, _⟩ <;> simp [a]

/-- An order over a node that the table holds. -/
theorem Device.withNode_found {d : Device} {seg addr : Word} {w f n key} (h1 : seg.toNat < 8) (h2 : 1 ≤ addr.toNat) (h3 : addr.toNat ≤ 120)
    (hk : key = seg.toNat * 256 + addr.toNat) (hf : Table.find key d.nodes = some n) :
   d.withNode seg addr w f = f key n := by
  have ok : addressOk seg.toNat addr.toNat = true := by simp [addressOk]; omega
  have hf' : Table.find (nodeKey seg.toNat addr.toNat) d.nodes = some n := by rw [hk] at hf; exact hf
  unfold Device.withNode
  simp only [ok, hf']
  rw [hk]; rfl

/-- An owner told that its node, out of service before, is ABSENT. -/
theorem Device.ownerTold_absent {d : Device} {key before} (n : Node) (hf : Table.find key d.nodes = some n) (hb : before = .faulted ∨
    before = .retryWait) :
   ∃ f, f n = n ∧ d.ownerTold key before .absent = d.modifyNode key f := by
  have hid : ∀ d : Device, d.modifyNode key id = d := by intro d; unfold Device.modifyNode Table.modify; simp
  have hne : before ≠ .absent := by rcases hb with h | h <;> simp [h]
  have hsv : before.inService = false := by rcases hb with h | h <;> simp [h, NodeState.inService]
  have hio : before.isOut = true := by rcases hb with h | h <;> simp [h, NodeState.isOut]
  have hdoor : ∃ f, f n = n ∧ d.doorNodeChanged key before .absent = d.modifyNode key f := by
    unfold Device.doorNodeChanged Device.doorEvent
    rw [hf]
    cases hd : n.door with
    | none => exact ⟨id, rfl, by simp only [hd]; exact (hid d).symm⟩
    | some r =>
      refine ⟨fun n => { n with door := some r }, ?_, ?_⟩
      · cases n; simp at hd; simp [hd]
      · simp only [hsv, hd]
        unfold Device.applyDoor DoorOut.same
        cases n.state.isOut <;> simp [Device.handAll]
  unfold Device.ownerTold
  rw [hf]
  simp only [if_neg hne]
  cases hk : n.kind with
  | roomDoor => exact hdoor
  | commonDoor => exact hdoor
  | shoreGate => exact hdoor
  | egressDoor => exact hdoor
  | minibar =>
    refine ⟨id, rfl, ?_⟩
    simp only
    unfold Device.barNodeChanged
    rw [hid]
    (repeat' split) <;> simp_all
  | encoder =>
    refine ⟨id, rfl, ?_⟩
    simp only
    unfold Device.encoderNodeChanged
    rw [hid]; simp [NodeState.isOut]

/-- An owner told that its node, in service before, is ONLINE. -/
theorem Device.ownerTold_online {d : Device} {key : Nat} {n : Node} {before : NodeState} (hre : d.reachable key n)
   (hb : before = .online ∨ before = .suspect ∨ before = .degraded ∨ (before = .absent ∧ n.kind.isDoor = false)) :
   ∃ d', d.ownerTold key before .online = d' ∧ Table.find key d'.nodes = some n ∧ (∀ x, x ≠ key → Table.find x d'.nodes = Table.find x
       d.nodes) ∧ d' = { d with nodes := d'.nodes } := by
  have hf := hre.1
  by_cases hon : before = .online
  · refine ⟨d, ?_, hf, fun _ _ => rfl, rfl⟩
    unfold Device.ownerTold; rw [hf]; simp [hon]
  · unfold Device.ownerTold
    rw [hf]
    simp only [if_neg hon]
    have hdoor : before ≠ .absent → ∃ d', d.doorNodeChanged key before .online = d' ∧ Table.find key d'.nodes = some n ∧ (∀ x, x ≠ key →
        Table.find x d'.nodes = Table.find x d.nodes) ∧ d' = { d with nodes := d'.nodes } := by
      intro hab
      unfold Device.doorNodeChanged Device.doorEvent
      rw [hf]
      cases hd : n.door with
      | none => exact ⟨d, by simp only [hd], hf, fun _ _ => rfl, rfl⟩
      | some r =>
        obtain ⟨e1, e2, e3, e4⟩ := Device.applyDoor_silent hre (.same r) rfl rfl
        simp only [hd, hre.2.1, if_neg hab]
        refine ⟨_, rfl, ?_, e2, ?_⟩
        · rw [e1]; cases n; simp at hd; simp [DoorOut.same, hd]
        · rw [e4, e3]; rfl
    split
    · refine ⟨d, ?_, hf, fun _ _ => rfl, rfl⟩
      unfold Device.barNodeChanged
      (repeat' split) <;> simp_all
    · exact ⟨d, rfl, hf, fun _ _ => rfl, rfl⟩
    all_goals
      next hk =>
        apply hdoor
        rintro rfl
        rcases hb with h | h | h | ⟨_, h⟩
        · cases h
        · cases h
        · cases h
        · rw [hk] at h; cases h

/-- An owner told that its node is still polled. -/
theorem Device.ownerTold_polled {d : Device} {key before after} (n : Node) (hf : Table.find key d.nodes = some n) (ha : before = after ∨
    after = .suspect ∨ after = .degraded)
   (hb : before ≠ after → after = .degraded → n.kind = .minibar → ∀ i r, (i, r) ∈ d.rooms → r.barLink = some key → r.bar.inSession = false)
       :
   ∃ f, f n = n ∧ d.ownerTold key before after = d.modifyNode key f := by
  have hid : ∀ d : Device, d.modifyNode key id = d := by intro d; unfold Device.modifyNode Table.modify; simp
  unfold Device.ownerTold
  rw [hf]
  by_cases hba : before = after
  · exact ⟨id, rfl, by simp only [if_pos hba]; exact (hid d).symm⟩
  have ha' : after = .suspect ∨ after = .degraded := by rcases ha with h | h; exact absurd h hba; exact h
  simp only [if_neg hba]
  have hdoor : ∃ f, f n = n ∧ d.doorNodeChanged key before after = d.modifyNode key f := by
    unfold Device.doorNodeChanged Device.doorEvent
    rw [hf]
    cases hd : n.door with
    | none => exact ⟨id, rfl, by simp only [hd]; exact (hid d).symm⟩
    | some r =>
      refine ⟨fun n => { n with door := some r }, ?_, ?_⟩
      · cases n; simp at hd; simp [hd]
      · rcases ha' with rfl | rfl
        · simp only [hd]
          unfold Device.applyDoor DoorOut.same
          cases n.state.isOut <;> simp [Device.handAll]
        · simp only [hd]
          unfold Device.applyDoor DoorOut.same
          cases n.state.isOut <;> simp [Device.handAll]
  cases hk : n.kind with
  | roomDoor => exact hdoor
  | commonDoor => exact hdoor
  | shoreGate => exact hdoor
  | egressDoor => exact hdoor
  | minibar =>
    refine ⟨id, rfl, ?_⟩
    simp only
    rw [hid]
    unfold Device.barNodeChanged
    cases hbr : d.barRoom key with
    | none => rfl
    | some p =>
      obtain ⟨i, r⟩ := p
      obtain ⟨m1, m2⟩ := Device.barRoom_linked hbr
      simp only
      rcases ha' with rfl | rfl
      · simp
      · rw [hb hba rfl hk i r m1 m2]; rfl
  | encoder =>
    refine ⟨id, rfl, ?_⟩
    simp only
    rw [hid]
    unfold Device.encoderNodeChanged
    rcases ha' with rfl | rfl <;> rfl

/-- An owner told that its node went out of service, with nothing of its own to end. -/
theorem Device.ownerTold_out {d : Device} {key before after} (n : Node) (hf : Table.find key d.nodes = some n) (ha : after = .faulted ∨
    after = .retryWait) (hne : before ≠ after)
   (hk : n.kind.isDoor = true ∨ n.door = none)
   (hb : n.kind = .minibar → ∀ i r, (i, r) ∈ d.rooms → r.barLink = some key → r.bar.inSession = false)
   (hen : ∀ enc, Table.find key d.creds.encoders = some enc → enc.current = none ∧ enc.waiting = []) :
   ∃ f h, f n = { n with door := n.door.map Door.outOfService } ∧ (∀ e : Encoder, e.current = none → e.waiting = [] → h e = e) ∧
       d.ownerTold key before after = (d.modifyNode key f).modifyEncoder key h := by
  have hid : ∀ d : Device, d.modifyNode key id = d := by intro d; unfold Device.modifyNode Table.modify; simp
  have hide : ∀ d : Device, d.modifyEncoder key id = d := by intro d; unfold Device.modifyEncoder Table.modify; simp
  unfold Device.ownerTold
  rw [hf]
  simp only [if_neg hne]
  have hdoor : ∃ f h, f n = { n with door := n.door.map Door.outOfService } ∧ (∀ e : Encoder, e.current = none → e.waiting = [] → h e = e)
      ∧ d.doorNodeChanged key before after = (d.modifyNode key f).modifyEncoder key h := by
    unfold Device.doorNodeChanged Device.doorEvent
    rw [hf]
    cases hd : n.door with
    | none => exact ⟨id, id, by cases n; simp at hd; simp [hd], fun _ _ _ => rfl, by simp only [hd]; rw [hid, hide]⟩
    | some r =>
      refine ⟨fun n => { n with door := some r.outOfService }, id, rfl, fun _ _ _ => rfl, ?_⟩
      rw [hide]
      rcases ha with rfl | rfl
      · simp only [hd]
        unfold Device.applyDoor DoorOut.same
        cases n.state.isOut <;> simp [Device.handAll]
      · simp only [hd]
        unfold Device.applyDoor DoorOut.same
        cases n.state.isOut <;> simp [Device.handAll]
  have hnd : n.kind.isDoor = false → n.door = none := by
    intro h; rcases hk with h2 | h2; rw [h] at h2; cases h2; exact h2
  have hsame : n.kind.isDoor = false → id n = { n with door := n.door.map Door.outOfService } := by
    intro h; have := hnd h; cases n; simp at this; simp [this]
  split
  · next hkd =>
    refine ⟨id, id, hsame (by rw [hkd]; rfl), fun _ _ _ => rfl, ?_⟩
    rw [hid, hide]
    unfold Device.barNodeChanged
    cases hbr : d.barRoom key with
    | none => rfl
    | some p =>
      obtain ⟨i, r⟩ := p
      obtain ⟨m1, m2⟩ := Device.barRoom_linked hbr
      simp only
      rw [hb hkd i r m1 m2]; rfl
  · next hkd =>
    have hio : after.isOut = true := by rcases ha with rfl | rfl <;> rfl
    simp only [Device.encoderNodeChanged, hio, if_true, Device.encoderFault]
    cases hec : Table.find key d.creds.encoders with
    | none => exact ⟨id, id, hsame (by rw [hkd]; rfl), fun _ _ _ => rfl, by rw [hid, hide]⟩
    | some enc =>
      obtain ⟨e1, e2⟩ := hen enc hec
      refine ⟨id, fun e => { e with current := none, waiting := [] }, hsame (by rw [hkd]; rfl), ?_, ?_⟩
      · intro e h1 h2; cases e; simp at h1 h2; simp [h1, h2]
      · rw [hid]; simp [e1, e2]
  all_goals exact hdoor

/-- Reports of SIGNAL and ABANDON, which nobody owns. -/
theorem Device.deliver_silent (d : Device) (key : Nat) (cs : List Command) (h : cs = [] ∨ ∃ c, cs = [c] ∧ (c = .signal ∨ c = .abandon)) :
    d.deliver (cs.map (fun c => ({ node := key, command := c } : Report))) = d := by
  rcases h with rfl | ⟨c, rfl, rfl | rfl⟩ <;> rfl

/-- A miss that has nothing to hand back but SIGNAL or ABANDON. -/
theorem Device.tellMiss_silent {d : Device} {key before after} (cs : List Command) (uf : Bool) (n : Node) (hf : Table.find key d.nodes =
    some n) (ha : before = after ∨ after = .suspect ∨ after = .degraded)
   (hb : before ≠ after → after = .degraded → n.kind = .minibar → ∀ i r, (i, r) ∈ d.rooms → r.barLink = some key → r.bar.inSession = false)
   (hr : d.reports = []) (h : cs = [] ∨ ∃ c, cs = [c] ∧ (c = .signal ∨ c = .abandon)) :
   ∃ f, f n = n ∧ d.tellMiss key before after cs uf = d.modifyNode key f := by
  obtain ⟨f, h1, h2⟩ := Device.ownerTold_polled n hf ha hb
  refine ⟨f, h1, ?_⟩
  unfold Device.tellMiss
  dsimp only
  rw [Device.deliver_silent _ _ _ h, Device.deliver_silent _ _ _ h, Device.takeReports_of_nil hr, h2, Device.takeReports_of_nil (d :=
      d.modifyNode key f) hr]
  split <;> rfl

end Sys2Proof.Machine
end

