-- ==== Sys2Proof/Laws/Retire.lean ====
section
/-! SUPPORT. What retiring a serial and faulting an encoder can do, in the words of Safety. -/

namespace Sys2Proof.Machine

open Sys2Proof

/-- The place of a serial in a wait queue, counted from a number. -/
theorem waitingPlace_spec (serial : Word) : ∀ (l : List Issue) (i : Nat),
    (serial ∉ l.map (fun x => x.serial) → waitingPlace serial i l = none) ∧
    (serial ∈ l.map (fun x => x.serial) → ∃ k x, waitingPlace serial i l = some (i + k) ∧ l[k]? = some x ∧ x.serial = serial)
  | [], i => by simp [waitingPlace]
  | y :: l, i => by
    have ih := waitingPlace_spec serial l (i+1)
    unfold waitingPlace
    constructor
    · intro h
      simp only [List.map_cons, List.mem_cons, not_or] at h
      rw [if_neg (fun q => h.1 q.symm)]; exact ih.1 h.2
    · intro h
      by_cases hy : y.serial = serial
      · rw [if_pos hy]; exact ⟨0, y, rfl, rfl, hy⟩
      · rw [if_neg hy]
        simp only [List.map_cons, List.mem_cons] at h
        obtain ⟨k, x, a, b, c⟩ := ih.2 (h.resolve_left (fun q => hy q.symm))
        exact ⟨k+1, x, by rw [a]; congr 1; omega, by simpa using b, c⟩

/-- The place of a serial at an encoder: 0 in progress, and from 1 in the wait queue. -/
theorem Encoder.place_spec (enc : Encoder) (serial : Word) :
    (serial ∉ enc.serials → enc.place serial = none) ∧
    (serial ∈ enc.serials → (∃ c, enc.current = some c ∧ c.issue.serial = serial ∧ enc.place serial = some 0) ∨
      (∃ k x, enc.place serial = some (k+1) ∧ enc.waiting[k]? = some x ∧ x.serial = serial)) := by
  unfold Encoder.serials Encoder.place
  cases hc : enc.current with
  | none =>
    have := waitingPlace_spec serial enc.waiting 1
    simp only [Option.map_none, Option.toList_none, List.nil_append]
    refine ⟨this.1, fun h => .inr ?_⟩
    obtain ⟨k, x, a, b, c⟩ := this.2 h
    exact ⟨k, x, by rw [a]; congr 1; omega, b, c⟩
  | some c =>
    have := waitingPlace_spec serial enc.waiting 1
    simp only [Option.map_some, Option.toList_some, List.singleton_append, List.mem_cons, not_or]
    constructor
    · rintro ⟨h1, h2⟩
      rw [if_neg (fun q => h1 q.symm)]; exact this.1 h2
    · intro h
      by_cases hs : c.issue.serial = serial
      · exact .inl ⟨c, rfl, hs, by simp [hs]⟩
      · rw [if_neg hs]
        obtain ⟨k, x, a, b, c⟩ := this.2 (h.resolve_left (fun q => hs q.symm))
        exact .inr ⟨k, x, by rw [a]; congr 1; omega, b, c⟩

/-- An issue that stands at one encoder alone is found there. -/
theorem locateIssue_spec (serial : Word) : ∀ (t : Table Encoder) (key : Nat) (enc : Encoder), Table.wf t = true → Table.find key t = some
    enc →
    serial ∈ enc.serials → (∀ other x, other ≠ key → Table.find other t = some x → serial ∉ x.serials) →
    locateIssue serial t = (enc.place serial).map (fun p => (key, p))
  | [], key, enc, _, hf, _, _ => by simp [Table.find] at hf
  | (k, e) :: rest, key, enc, hw, hf, hs, ho => by
    have hw' : ((k, e) :: rest).Pairwise (fun a b => a.1 < b.1) := by simpa [Table.wf] using hw
    have hp := List.pairwise_cons.mp hw'
    unfold locateIssue
    by_cases hk : k = key
    · subst hk
      simp only [Table.find, if_true, Option.some.injEq] at hf
      subst hf
      rcases (e.place_spec serial).2 hs with ⟨_, _, _, h⟩ | ⟨_, _, h, _⟩ <;> simp [h]
    · have h0 : e.place serial = none := (e.place_spec serial).1 (ho k e hk (by simp [Table.find]))
      rw [h0]
      refine locateIssue_spec serial rest key enc (by simpa [Table.wf] using hp.2) (by simpa [Table.find, hk] using hf) hs ?_
      intro other x hne hx
      refine ho other x hne ?_
      have : k ≠ other := by
        rintro rfl
        have := hp.1 _ (Table.mem_of_found hx); simp at this
      simpa [Table.find, this] using hx

/-- A command handed for a node that takes commands is placed. -/
theorem Device.hand_placed {d : Device} {key : Nat} {n : Node} (c : Command) (h : d.reachable key n) :
    d.hand key c = { d with segments := placedFor d.segments key [c] } := by
  rw [Device.hand_reachable c h]; rfl

/-- ABANDON handed for an encoder's node, and the next issue started where one waits (R14, R18). -/
theorem Device.abandon_next {d : Device} {key job : Nat} {n : Node} {enc next : Encoder} {commands : List Command} (hr : d.reachable key n)
    (hk : Table.find key d.creds.encoders = some enc)
    (h : (enc.waiting = [] ∧ next = { enc with current := none } ∧ commands = [.abandon] ∧ job = d.creds.nextJob)
      ∨ ∃ issue rest, enc.waiting = issue :: rest ∧ commands = [.abandon, .encode issue.image d.creds.nextJob]
        ∧ next = { enc with current := some { issue := issue, timer := none, job := d.creds.nextJob }, waiting := rest }
        ∧ job = d.creds.nextJob + 1) :
    ∃ encoders, Table.find key encoders = some next
      ∧ (∀ other, other ≠ key → Table.find other encoders = Table.find other d.creds.encoders)
      ∧ (d.hand key .abandon).nextEncoding key
        = { d with creds := { d.creds with encoders := encoders, nextJob := job }, segments := placedFor d.segments key commands } := by
  rw [Device.hand_placed _ hr]
  rcases h with ⟨hw, rfl, rfl, rfl⟩ | ⟨i, rest, hw, rfl, rfl, rfl⟩
  · refine ⟨Table.modify key (fun e => { e with current := none }) d.creds.encoders, by simp [Table.find_modify, hk],
      fun o ho => by simp [Table.find_modify, ho], ?_⟩
    unfold Device.nextEncoding
    simp only [hk, hw]
    rfl
  · have hb := Device.reachable_hand (key' := key) .abandon hr
    rw [Device.hand_placed _ hr] at hb
    refine ⟨Table.modify key (fun e => { e with current := some { issue := i, timer := none, job := d.creds.nextJob }, waiting := rest })
      d.creds.encoders, by simp [Table.find_modify, hk], fun o ho => by simp [Table.find_modify, ho], ?_⟩
    unfold Device.nextEncoding
    simp only [hk, hw]
    unfold Device.startEncoding
    dsimp only
    rw [Device.hand_placed (n := n)]
    · simp [Device.modifyEncoder, placedFor, Table.modify]
      intro a b' _
      by_cases h : a = key <;> simp [h]
    · exact hb

/-- What retiring a serial does: an entry that is in no encoding, or one whose issue stands at one encoder alone, its node reachable. -/
theorem Device.retire_retired (d : Device) (serial : Word) (event : CardEvent) (tag : Word) (e : Entry) (he : d.entryOf serial = some e)
    (hw : Table.wf d.creds.encoders = true)
    (hs : e.state = .encoding → ∃ key enc n, d.issueAt serial key enc ∧ d.reachable key n) :
    d.retired (d.retire serial event tag).1 serial event tag (d.retire serial event tag).2 := by
  obtain ⟨f1, f2, f3, f4⟩ := Device.freeEntry_fields d serial e
  refine ⟨e, he, ?_⟩
  by_cases hst : e.state = .encoding
  · obtain ⟨key, enc, n, ⟨hk, hin, huniq⟩, hre⟩ := hs hst
    have hloc := locateIssue_spec serial _ key enc hw hk hin huniq
    have hret : d.retire serial event tag = ((d.cancelEncoding serial e).1.recordCard serial event e.room tag, (d.cancelEncoding serial
        e).2) := by
      unfold Device.retire; simp only [he, hst]
    rcases (enc.place_spec serial).2 hin with ⟨c, hc, hcs, hp⟩ | ⟨k, x, hp, hx, hxs⟩
    ·
      rw [hp] at hloc
      have hcan : d.cancelEncoding serial e = ((((d.hand key .abandon).freeEntry serial e).denySerial serial).nextEncoding key,
          [{ block := c.issue.block, words := [0, 0], code := .cancelled }]) := by
        unfold Device.cancelEncoding; simp only [hloc, Option.map_some, hk, if_true, hc]
      generalize hb : ((d.hand key .abandon).freeEntry serial e).denySerial serial = b at hcan
      have hb' : b =
          { d with creds := { d.creds with entries := (d.freeEntry serial e).creds.entries, deny := denyAppend serial d.creds.deny }, rooms := (d.freeEntry serial e).rooms, segments := placedFor d.segments key [.abandon] } := by
        rw [← hb, Device.hand_placed _ hre]
        have : ({ d with segments := placedFor d.segments key [.abandon] } : Device).freeEntry serial e =
            { d.freeEntry serial e with segments := placedFor d.segments key [.abandon] } := by
          unfold Device.freeEntry; dsimp only; split_ifs <;> rfl
        rw [this, f4]; rfl
      have hbre : ∀ c', (b.modifyEncoder key c').reachable key n := by
        intro c'
        have := Device.reachable_hand (key' := key) .abandon hre
        rw [Device.hand_placed _ hre] at this
        rw [hb']; exact this
      cases hwait : enc.waiting with
      | nil =>
        have hn : b.nextEncoding key = b.modifyEncoder key (fun e => { e with current := none }) := by
          unfold Device.nextEncoding; rw [hb']; simp only [hk, hwait]
        rw [hret, hcan, hn]
        refine ⟨?_, ?_, ?_, ?_, ?_, .inr ⟨hst, key, enc, { enc with current := none }, c.issue, [.abandon], ⟨hk, hin, huniq⟩, hcs, rfl, ?_,
            ?_, ?_, .inr ⟨c, hc, rfl, .inl ⟨hwait, rfl, rfl, ?_⟩⟩⟩, ?_⟩ <;> rw [hb']
        · exact f1
        · exact f2
        · rfl
        · exact f3
        · rfl
        · simp [Device.recordCard, Table.find_modify, hk]
        · intro o ho; simp [Device.recordCard, Table.find_modify, ho]
        · rfl
        · rfl
        · rfl
      | cons i rest =>
        have hn : b.nextEncoding key = (b.modifyEncoder key (fun e => { e with current := none, waiting := rest })).startEncoding key i :=
            by
          unfold Device.nextEncoding; rw [hb']; simp only [hk, hwait]
        have hs2 : (b.modifyEncoder key (fun e => { e with current := none, waiting := rest })).startEncoding key i
            = { b with creds := { b.creds with nextJob := d.creds.nextJob + 1, encoders := Table.modify key (fun e => { current := some { issue := i, timer := none, job := d.creds.nextJob }, waiting := rest, lastResult := e.lastResult }) d.creds.encoders }, segments := placedFor d.segments key [.abandon, .encode i.image d.creds.nextJob] } := by
          unfold Device.startEncoding
          dsimp only
          rw [Device.hand_placed (n := n)]
          · rw [hb']
            simp [Device.modifyEncoder, placedFor, Table.modify]
            intro a b' _
            by_cases h : a = key <;> simp [h]
          · have := hbre (fun e => { e with current := none, waiting := rest })
            exact this
        rw [hret, hcan, hn, hs2]
        refine ⟨?_, ?_, ?_, ?_, ?_, .inr ⟨hst, key, enc,
            { enc with current := some { issue := i, timer := none, job := d.creds.nextJob }, waiting := rest }, c.issue, [.abandon,
            .encode i.image d.creds.nextJob], ⟨hk, hin, huniq⟩, hcs, rfl, ?_, ?_, ?_, .inr ⟨c, hc, rfl, .inr ⟨i, rest, hwait, rfl, rfl,
            ?_⟩⟩⟩, ?_⟩ <;> rw [hb']
        · exact f1
        · exact f2
        · rfl
        · exact f3
        · rfl
        · simp [Device.recordCard, Table.find_modify, hk]
        · intro o ho; simp [Device.recordCard, Table.find_modify, ho]
        · rfl
        · rfl
        · rfl
    ·
      rw [hp] at hloc
      have hcan : d.cancelEncoding serial e = (((d.modifyEncoder key (fun x =>
          { x with waiting := x.waiting.filter (fun i => decide (i.serial ≠ serial)) })).freeEntry serial e).denySerial serial,
          [{ block := x.block, words := [0, 0], code := .cancelled }]) := by
        unfold Device.cancelEncoding; simp only [hloc, Option.map_some, hk]
        simp [hx]
      have hmid : (d.modifyEncoder key (fun x => { x with waiting := x.waiting.filter (fun i => decide (i.serial ≠ serial)) })).freeEntry
          serial e
          = { d with creds := { d.creds with entries := (d.freeEntry serial e).creds.entries, encoders := Table.modify key (fun x => { x with waiting := x.waiting.filter (fun i => decide (i.serial ≠ serial)) }) d.creds.encoders }, rooms := (d.freeEntry serial e).rooms } := by
        unfold Device.freeEntry; dsimp only; split_ifs <;> rfl
      rw [hret, hcan, hmid]
      refine ⟨f1, f2, rfl, f3, rfl, .inr ⟨hst, key, enc, { enc with waiting := enc.waiting.filter (fun i => decide (i.serial ≠ serial)) },
          x, [], ⟨hk, hin, huniq⟩, hxs, rfl, ?_, ?_, rfl, .inl ⟨List.mem_of_getElem? hx, rfl, rfl, rfl⟩⟩, rfl⟩
      · simp [Device.recordCard, Device.denySerial, Table.find_modify, hk]
      · intro o ho; simp [Device.recordCard, Device.denySerial, Table.find_modify, ho]
  · have h1 : d.retire serial event tag = (((d.freeEntry serial e).denySerial serial).recordCard serial event e.room tag, []) := by
      unfold Device.retire; rw [he]
      cases h : e.state with
      | encoding => exact absurd h hst
      | active => simp [h]
      | suspended => simp [h]
    rw [h1, f4]
    exact ⟨f1, f2, rfl, f3, rfl, .inl ⟨hst, rfl, rfl, rfl, rfl⟩, rfl⟩

/-- A serial retired leaves the nodes, the reports, the walker, the clock and the registers. -/
theorem Device.retired_frame {d u : Device} {serial ev tag settled} (h : d.retired u serial ev tag settled) :
    u.nodes = d.nodes ∧ u.reports = d.reports ∧ u.walker = d.walker ∧ u.clock = d.clock ∧ u.regs = d.regs := by
  obtain ⟨e, _, _, _, _, _, _, _, h⟩ := h
  rw [h]; exact ⟨rfl, rfl, rfl, rfl, rfl⟩

/-- Commands placed disable no segment and enable none. -/
theorem placedFor_isDisabled (cs : List Command) : ∀ (gs : List Segment) (key seg : Nat),
    ((placedFor gs key cs).getD seg Segment.initial).isDisabled = (gs.getD seg Segment.initial).isDisabled := by
  induction cs with
  | nil => intro gs key seg; rfl
  | cons c r ih =>
    intro gs key seg
    show ((placedFor _ key r).getD seg Segment.initial).isDisabled = _
    rw [ih]
    simp only [List.getD_eq_getElem?_getD, List.getElem?_set]
    by_cases h : key / 256 = seg
    · subst h
      by_cases h2 : key / 256 < gs.length
      · simp [h2]
      · simp [h2]
    · simp [h]

/-- A node that takes commands still does when a serial has been retired. -/
theorem Device.retired_reachable {d u : Device} {serial ev tag settled key n} (h : d.retired u serial ev tag settled) (hr : d.reachable key
    n) :
    u.reachable key n := by
  obtain ⟨a, b, c⟩ := hr
  have hn := (Device.retired_frame h).1
  refine ⟨by rw [hn]; exact a, b, ?_⟩
  obtain ⟨e, _, _, _, _, _, _, hh, _⟩ := h
  rcases hh with ⟨_, _, _, hs, _⟩ | ⟨_, k, enc, after, issue, cmds, _, _, _, _, _, hs, _⟩
  · unfold Device.segment; rw [hs]; exact c
  · unfold Device.segment; rw [hs, placedFor_isDisabled]; exact c

/-- The issues of the other serials still stand when one has been retired. -/
theorem Device.retired_stands {d u : Device} {serial ev tag settled rest} (h : d.retired u serial ev tag settled) (hs : d.issuesStand
    (serial :: rest))
    (hw : Table.wf u.creds.encoders = true) : u.issuesStand rest := by
  obtain ⟨h1, h2, h3⟩ := hs
  have h2' := List.nodup_cons.mp h2
  refine ⟨hw, h2'.2, fun x hx => ?_⟩
  have hxs : x ≠ serial := by rintro rfl; exact h2'.1 hx
  obtain ⟨e, he, hp⟩ := h3 x (List.mem_cons_of_mem _ hx)
  have hh := h
  obtain ⟨e0, _, _, ho, _, _, _, hc, _⟩ := h
  refine ⟨e, by rw [ho x hxs]; exact he, fun hst => ?_⟩
  obtain ⟨key, enc, n, ⟨i1, i2, i3⟩, hre⟩ := hp hst
  have hre' := Device.retired_reachable hh hre
  rcases hc with ⟨_, _, hE, _, _⟩ | ⟨_, k, enc0, after, issue, cmds, ⟨j1, j2, j3⟩, his, _, ja, jo, _, jc⟩
  · exact ⟨key, enc, n, ⟨by rw [hE]; exact i1, i2, by rw [hE]; exact i3⟩, hre'⟩
  · have hsub : ∀ y, y ∈ after.serials → y ∈ enc0.serials := by
      intro y hy
      rcases jc with ⟨_, rfl, _, _⟩ | ⟨c, hcur, hiss, ⟨hwt, rfl, _, _⟩ | ⟨next, r, hwt, _, rfl, _⟩⟩
      · simp only [Encoder.serials, List.mem_append, List.mem_map, List.mem_filter] at hy ⊢
        rcases hy with hy | ⟨z, ⟨hz, _⟩, rfl⟩
        · exact .inl hy
        · exact .inr ⟨z, hz, rfl⟩
      · simp [Encoder.serials, hwt] at hy
      · simp only [Encoder.serials, hwt, Option.map_some, Option.toList_some, List.mem_append, List.mem_map] at hy ⊢
        rcases hy with hy | ⟨z, hz, rfl⟩
        · simp at hy; subst hy; exact .inr ⟨next, by simp, rfl⟩
        · exact .inr ⟨z, by simp [hz], rfl⟩
    have hsup : ∀ y, y ≠ serial → y ∈ enc0.serials → y ∈ after.serials := by
      intro y hys hy
      rcases jc with ⟨_, rfl, _, _⟩ | ⟨c, hcur, hiss, ⟨hwt, rfl, _, _⟩ | ⟨next, r, hwt, _, rfl, _⟩⟩
      · simp only [Encoder.serials, List.mem_append, List.mem_map, List.mem_filter] at hy ⊢
        rcases hy with hy | ⟨z, hz, rfl⟩
        · exact .inl hy
        · exact .inr ⟨z, ⟨hz, by simpa using hys⟩, rfl⟩
      · simp [Encoder.serials, hwt, hcur] at hy
        rw [hiss] at his; exact absurd (hy.trans his) hys
      · simp only [Encoder.serials, hwt, hcur, Option.map_some, Option.toList_some, List.mem_append, List.mem_map] at hy ⊢
        rcases hy with hy | ⟨z, hz, rfl⟩
        · simp at hy; rw [hiss] at his; exact absurd (hy.trans his) hys
        · simp at hz; rcases hz with rfl | hz
          · exact .inl (by simp)
          · exact .inr ⟨z, hz, rfl⟩
    by_cases hkk : key = k
    · subst hkk
      rw [j1] at i1; cases i1
      exact ⟨key, after, n, ⟨ja, hsup x hxs i2, fun o y hoy hy => i3 o y hoy (by rw [← jo o hoy]; exact hy)⟩, hre'⟩
    · refine ⟨key, enc, n, ⟨by rw [jo key hkk]; exact i1, i2, fun o y hoy hy => ?_⟩, hre'⟩
      by_cases hok : o = k
      · subst hok
        rw [ja] at hy; cases hy
        exact fun hc => i3 o enc0 hoy j1 (hsub x hc)
      · exact i3 o y hoy (by rw [← jo o hok]; exact hy)

/-- A command handed leaves the credentials. -/
theorem Device.hand_encoders (d : Device) (k c) : (d.hand k c).creds = d.creds := by simp

/-- An entry freed leaves the encoders. -/
theorem Device.freeEntry_encoders (d : Device) (s e) : (d.freeEntry s e).creds.encoders = d.creds.encoders := by
  unfold Device.freeEntry; dsimp only; split_ifs <;> rfl

/-- An encoder changed keeps the form of the table. -/
theorem Device.modifyEncoder_wf (d : Device) (k f) (h : Table.wf d.creds.encoders = true) : Table.wf (d.modifyEncoder k f).creds.encoders =
    true :=
  Table.wf_modify k f h

/-- An encoding started keeps the form of the table. -/
theorem Device.startEncoding_wf (d : Device) (k i) (h : Table.wf d.creds.encoders = true) : Table.wf (d.startEncoding k i).creds.encoders =
    true := by
  unfold Device.startEncoding; dsimp only
  rw [Device.hand_encoders]
  show Table.wf (d.modifyEncoder k (fun e =>
      { e with current := some { issue := i, timer := none, job := d.creds.nextJob } })).creds.encoders = true
  exact Device.modifyEncoder_wf _ _ _ h

/-- The next encoding keeps the form of the table. -/
theorem Device.nextEncoding_wf (d : Device) (k) (h : Table.wf d.creds.encoders = true) : Table.wf (d.nextEncoding k).creds.encoders =
    true := by
  unfold Device.nextEncoding
  split
  · exact h
  · split
    · exact Device.modifyEncoder_wf _ _ _ h
    · exact Device.startEncoding_wf _ _ _ (Device.modifyEncoder_wf _ _ _ h)

/-- A serial retired keeps the form of the encoder table. -/
theorem Device.retire_wf (d : Device) (serial : Word) (ev tag) (h : Table.wf d.creds.encoders = true) :
    Table.wf (d.retire serial ev tag).1.creds.encoders = true := by
  unfold Device.retire
  split
  · exact h
  · next e _ =>
    have hplain : Table.wf ((((d.freeEntry serial e).denySerial serial).recordCard serial ev e.room tag).creds.encoders) = true := by
      show Table.wf (d.freeEntry serial e).creds.encoders = true
      rw [Device.freeEntry_encoders]; exact h
    split
    · show Table.wf (d.cancelEncoding serial e).1.creds.encoders = true
      unfold Device.cancelEncoding
      split
      · show Table.wf (d.freeEntry serial e).creds.encoders = true
        rw [Device.freeEntry_encoders]; exact h
      · split
        · exact h
        · dsimp only
          split
          · apply Device.nextEncoding_wf
            show Table.wf ((d.hand _ _).freeEntry serial e).creds.encoders = true
            rw [Device.freeEntry_encoders, Device.hand_encoders]; exact h
          · show Table.wf (Device.freeEntry _ serial e).creds.encoders = true
            rw [Device.freeEntry_encoders]; exact Device.modifyEncoder_wf _ _ _ h
    · exact hplain
    · exact hplain

/-- What retiring serials in turn does. -/
theorem Device.retireAll_retiredAll (ev : CardEvent) (tag : Word) : ∀ (l : List Word) (d : Device), d.issuesStand l →
    Device.retiredAll ev tag d (d.retireAll ev tag l).1 l (d.retireAll ev tag l).2
  | [], d, _ => ⟨rfl, rfl⟩
  | s :: r, d, h => by
    have h0 := h
    obtain ⟨hw, _, hh⟩ := h
    obtain ⟨e, he, hp⟩ := hh s (by simp)
    have h1 := Device.retire_retired d s ev tag e he hw hp
    have hw1 := Device.retire_wf d s ev tag hw
    exact ⟨_, _, _, h1, Device.retireAll_retiredAll ev tag r _ (Device.retired_stands h1 h0 hw1), rfl⟩

/-- Serials retired in turn leave what one does; those not named keep their entries; each named had one, and none is named twice. -/
theorem Device.retiredAll_frame (ev : CardEvent) (tag : Word) : ∀ (l : List Word) (d u : Device) (st), Device.retiredAll ev tag d u l st →
    u.nodes = d.nodes ∧ u.reports = d.reports ∧ u.walker = d.walker ∧ u.clock = d.clock ∧ u.regs = d.regs ∧ (∀ key n, d.reachable key n →
        u.reachable key n) ∧
    (∀ x, x ∉ l → u.entryOf x = d.entryOf x) ∧ (∀ x ∈ l, ∃ e, d.entryOf x = some e) ∧ l.Nodup
  | [], d, u, st, h => by obtain ⟨rfl, _⟩ := h; exact ⟨rfl, rfl, rfl, rfl, rfl, fun _ _ h => h, fun _ _ => rfl, by simp, by simp⟩
  | s :: r, d, u, st, h => by
    obtain ⟨m, f, mo, h1, h2, _⟩ := h
    obtain ⟨a1, a2, a3, a4, a5⟩ := Device.retired_frame h1
    obtain ⟨b1, b2, b3, b4, b5, b6, b7, b8, b9⟩ := Device.retiredAll_frame ev tag r m u _ h2
    have h1' := h1
    obtain ⟨e, he, hn, ho, _⟩ := h1
    have hsr : s ∉ r := by
      intro hs; obtain ⟨e', h'⟩ := b8 s hs; rw [hn] at h'; cases h'
    refine ⟨b1.trans a1, b2.trans a2, b3.trans a3, b4.trans a4, b5.trans a5, fun k n h => b6 k n (Device.retired_reachable h1' h), ?_, ?_,
        List.nodup_cons.2 ⟨hsr, b9⟩⟩
    · intro x hx
      simp only [List.mem_cons, not_or] at hx
      rw [b7 x hx.2, ho x hx.1]
    · intro x hx
      rcases List.mem_cons.1 hx with rfl | hx
      · exact ⟨e, he⟩
      · obtain ⟨e', h'⟩ := b8 x hx
        by_cases hxs : x = s
        · subst hxs; exact ⟨e, he⟩
        · exact ⟨e', by rw [← ho x hxs]; exact h'⟩

/-- The guest card counts when GUEST entries of one room have been retired in turn. -/
theorem retiredAll_rooms (ev : CardEvent) (tag : Word) (room : Nat) : ∀ (l : List Word) (d u : Device) (st), Device.retiredAll ev tag d u l
    st →
    (∀ x ∈ l, ∃ e, d.entryOf x = some e ∧ e.kind = .guest ∧ e.room = room) →
    ∀ i, Table.find i u.rooms = (Table.find i d.rooms).map (fun r => if i = room then { r with guestCount := r.guestCount - l.length } else
        r)
  | [], d, u, st, h, _, i => by
    obtain ⟨rfl, _⟩ := h; cases Table.find i u.rooms <;> simp
  | s :: r, d, u, st, h, hg, i => by
    have h9 := (Device.retiredAll_frame ev tag _ _ _ _ h).2.2.2.2.2.2.2.2
    obtain ⟨m, f, mo, h1, h2, _⟩ := h
    obtain ⟨e, he, hn, ho, _, hrm, _⟩ := h1
    obtain ⟨e', he', hk, hr⟩ := hg s (by simp)
    rw [he] at he'; cases he'
    have ih := retiredAll_rooms ev tag room r m u _ h2 (fun x hx => by
      have hxs : x ≠ s := by rintro rfl; exact (List.nodup_cons.1 h9).1 hx
      rw [ho x hxs]; exact hg x (by simp [hx])) i
    rw [ih, hrm]
    simp only [hk, hr, true_and]
    cases Table.find i d.rooms with
    | none => rfl
    | some q =>
      simp only [Option.map_some, List.length_cons]
      by_cases hi : i = room
      · simp only [hi, if_true]; congr 2; omega
      · simp [hi]

/-- Commands placed keep the number of segments. -/
theorem placedFor_length (cs : List Command) : ∀ (gs : List Segment) (key : Nat), (placedFor gs key cs).length = gs.length := by
  induction cs with
  | nil => intro gs key; rfl
  | cons c r ih => intro gs key; show (placedFor _ key r).length = _; rw [ih]; simp

/-- Commands placed leave an exchange that carries none. -/
theorem placedFor_exchange {addr t : Nat} (cs : List Command) : ∀ (gs : List Segment) (key seg : Nat),
    (gs.getD seg Segment.initial).exchange = some { addr := addr, carried := none, next := none, timeout := t } →
    ((placedFor gs key cs).getD seg Segment.initial).exchange = some { addr := addr, carried := none, next := none, timeout := t } := by
  induction cs with
  | nil => intro gs key seg h; exact h
  | cons c r ih =>
    intro gs key seg h
    refine ih _ key seg ?_
    by_cases h1 : key / 256 = seg
    · subst h1
      by_cases h2 : key / 256 < gs.length
      · simp only [List.getD_eq_getElem?_getD, List.getElem?_set_self h2, Option.getD_some] at h ⊢
        exact (Segment.place_exchange c h).trans h
      · simp only [List.getD_eq_getElem?_getD, List.getElem?_set] at h ⊢
        simpa [h2] using h
    · simp only [List.getD_eq_getElem?_getD, List.getElem?_set_ne h1] at h ⊢
      exact h

/-- A serial retired leaves an exchange that carries no command. -/
theorem Device.retired_exchange {d u : Device} {serial ev tag settled seg addr t} (h : d.retired u serial ev tag settled)
    (hx : (d.segment seg).exchange = some { addr := addr, carried := none, next := none, timeout := t }) :
    (u.segment seg).exchange = some { addr := addr, carried := none, next := none, timeout := t } ∧ u.segments.length =
        d.segments.length := by
  obtain ⟨e, _, _, _, _, _, _, hh, _⟩ := h
  rcases hh with ⟨_, _, _, hs, _⟩ | ⟨_, k, enc, after, issue, cmds, _, _, _, _, _, hs, _⟩
  · unfold Device.segment; rw [hs]; exact ⟨hx, rfl⟩
  · unfold Device.segment; rw [hs]; exact ⟨placedFor_exchange _ _ _ _ hx, placedFor_length _ _ _⟩

/-- A serial retired removes no encoder. -/
theorem Device.retired_encoder {d u : Device} {serial ev tag settled key enc} (h : d.retired u serial ev tag settled)
    (he : Table.find key d.creds.encoders = some enc) : ∃ x, Table.find key u.creds.encoders = some x := by
  obtain ⟨e, _, _, _, _, _, _, hh, _⟩ := h
  rcases hh with ⟨_, _, hE, _, _⟩ | ⟨_, k, enc0, after, issue, cmds, _, _, _, ja, jo, _, _⟩
  · exact ⟨enc, by rw [hE]; exact he⟩
  · by_cases hk : key = k
    · subst hk; exact ⟨_, ja⟩
    · exact ⟨enc, by rw [jo key hk]; exact he⟩

/-- Serials retired in turn leave an exchange that carries no command, and remove no encoder. -/
theorem Device.retiredAll_more (ev : CardEvent) (tag : Word) : ∀ (l : List Word) (d u : Device) (st) (seg addr t key : Nat) (enc : Encoder),
    Device.retiredAll ev tag d u l st → (d.segment seg).exchange = some { addr := addr, carried := none, next := none, timeout := t } →
    Table.find key d.creds.encoders = some enc →
    (u.segment seg).exchange = some { addr := addr, carried := none, next := none, timeout := t } ∧ u.segments.length = d.segments.length ∧
    (∃ x, Table.find key u.creds.encoders = some x)
  | [], d, u, st, seg, addr, t, key, enc, h, hx, he => by obtain ⟨rfl, _⟩ := h; exact ⟨hx, rfl, _, he⟩
  | s :: r, d, u, st, seg, addr, t, key, enc, h, hx, he => by
    obtain ⟨m, f, mo, h1, h2, _⟩ := h
    obtain ⟨a, b⟩ := Device.retired_exchange h1 hx
    obtain ⟨x, hx'⟩ := Device.retired_encoder h1 he
    obtain ⟨c1, c2, c3⟩ := Device.retiredAll_more ev tag r m u _ seg addr t key x h2 a hx'
    exact ⟨c1, c2.trans b, c3⟩

/-- Settlements handed in turn join the list in their order. -/
theorem handSettlements (l : List Settlement) : ∀ d : Device, l.foldl Device.handSettlement d =
    { d with walker := { d.walker with settlements := d.walker.settlements ++ l } } := by
  induction l with
  | nil => intro d; simp
  | cons a r ih => intro d; simp only [List.foldl_cons]; rw [ih]; simp [Device.handSettlement]

/-- Issues failed in turn. -/
theorem failAll_eq (failed : List (Issue × Entry)) : ∀ d : Device, (failed.map (fun p => p.1.serial)).Nodup → (∀ p ∈ failed, d.entryOf
    p.1.serial = some p.2) →
   ∃ u, (failed.map (fun p => p.1)).foldl (fun acc i => acc.failIssue i .encoderFault) d = u ∧
    (∀ serial, u.entryOf serial = if serial ∈ failed.map (fun p => p.1.serial) then none else d.entryOf serial) ∧
    u.creds.deny = failed.foldl (fun deny p => if p.2.deniedBefore then denyAppend p.1.serial deny else deny) d.creds.deny ∧
    (∀ room, Table.find room u.rooms = (Table.find room d.rooms).map (fun r => { r with
        guestCount := r.guestCount - (failed.filter (fun p => decide (p.2.kind = .guest) && decide (p.2.room = room))).length })) ∧
    u.journal = (failed.foldl (fun d p => d.notable (.card p.1.serial .issueFailed p.2.room p.2.tag)) d).journal ∧
    u = { d with
        walker := { d.walker with settlements := d.walker.settlements ++ failed.map (fun p =>
          { block := p.1.block, words := [0, 0], code := .encoderFault }) }
        creds := { d.creds with entries := u.creds.entries, deny := u.creds.deny }
        rooms := u.rooms, journal := u.journal } := by
  induction failed with
  | nil =>
    intro d _ _
    refine ⟨d, rfl, fun _ => by simp, rfl, fun room => by simp, rfl, ?_⟩
    simp
  | cons p rest ih =>
    intro d hn he
    simp only [List.map_cons, List.nodup_cons] at hn
    have hp := he p List.mem_cons_self
    obtain ⟨E, R, h1, h2, h3⟩ := Device.failIssue_eq d p.1 .encoderFault p.2 hp
    set d1 := d.failIssue p.1 .encoderFault with hd1
    have hent : ∀ s : Word, d1.entryOf s = if s = p.1.serial then none else d.entryOf s := by
      intro s; rw [h1]; exact h2 s
    obtain ⟨u, a1, a2, a3, a4, a5, a6⟩ := ih d1 hn.2 (by
      intro q hq
      rw [hent, if_neg]
      · exact he q (List.mem_cons_of_mem _ hq)
      · intro h; exact hn.1 (by rw [← h]; exact List.mem_map_of_mem hq))
    refine ⟨u, ?_, ?_, ?_, ?_, ?_, ?_⟩
    · simp only [List.map_cons, List.foldl_cons, ← hd1]; exact a1
    · intro s
      rw [a2, hent]
      simp only [List.map_cons, List.mem_cons]
      by_cases hs : s = p.1.serial
      · simp [hs]
      · rw [if_neg hs]; simp only [hs, false_or]
    · rw [a3, h1]; rfl
    · intro room
      rw [a4]
      have : d1.rooms = R := by rw [h1]
      rw [this, h3, Option.map_map]
      congr 1
      funext r
      simp only [Function.comp, List.filter_cons]
      by_cases hk : p.2.kind = .guest
      · by_cases hr : room = p.2.room
        · subst hr; simp [hk]; omega
        · have : ¬ p.2.room = room := fun h => hr h.symm
          simp [hk, hr, this]
      · simp [hk]
    · rw [a5]
      simp only [List.foldl_cons]
      have := fun (l : List (Issue × Entry)) (x y : Device) (hj : x.journal = y.journal) (hc : x.clock = y.clock) =>
        (show (l.foldl (fun d p => d.notable (.card p.1.serial .issueFailed p.2.room p.2.tag)) x).journal = (l.foldl (fun d p => d.notable
            (.card p.1.serial .issueFailed p.2.room p.2.tag)) y).journal by
          have := Device.notables_journal (l.map (fun p => RecordBody.card p.1.serial .issueFailed p.2.room p.2.tag)) x y hj hc
          simpa [List.foldl_map] using this)
      apply this
      · rw [h1]
      · rw [h1]; rfl
    · rw [a6, h1]
      simp

/-- What an encoder fault does. -/
theorem encoderFault_spec {d : Device} {key : Nat} {enc : Encoder} {failed : List (Issue × Entry)} (hf : Table.find key d.creds.encoders =
    some enc)
    (h : d.issuesOf enc failed) : d.encoderFaulted (d.encoderFault key) key enc failed := by
  obtain ⟨h1, h2, h3⟩ := h
  have hnd : (failed.map (fun p => p.1.serial)).Nodup := by
    have : failed.map (fun p => p.1.serial) = enc.serials := by
      have : failed.map (fun p => p.1.serial) = (failed.map (fun p => p.1)).map (fun i => i.serial) := by simp
      rw [this, h1]; unfold Encoder.serials
      cases enc.current <;> simp
    rw [this]; exact h2
  obtain ⟨u, a1, a2, a3, a4, a5, a6⟩ := failAll_eq failed d hnd h3
  have hu : d.encoderFault key = u.modifyEncoder key (fun e => { e with current := none, waiting := [] }) := by
    unfold Device.encoderFault
    rw [hf]
    simp only
    rw [← a1, h1]
    cases enc.current <;> rfl
  have hen : u.creds.encoders = d.creds.encoders := by rw [a6]
  rw [hu]
  refine ⟨a2, a3, a4, ?_, ?_, a5, ?_⟩
  · unfold Device.modifyEncoder; simp only []
    rw [Table.find_modify_self, hen, hf]; rfl
  · intro o ho
    unfold Device.modifyEncoder; simp only []
    rw [Table.find_modify_ne _ _ ho, hen]
  · unfold Device.modifyEncoder
    rw [a6]

end Sys2Proof.Machine
end

