-- ==== Sys2Proof/Laws/Disable.lean ====
section
/-! SUPPORT. What a SETUP does at the segments, one that it leaves disabled among them. -/

namespace Sys2Proof.Machine

open Sys2Proof

/-- A node whose owner has been told of its state. -/
def toldNode (before : NodeState) (n : Node) : Node :=
  if before ≠ n.state ∧ before.inService = true then { n with door := n.door.map Door.outOfService } else n

/-- The owner of one node told that its segment is disabled. -/
theorem tellDisabled_eq {d : Device} {p : Nat × NodeState} {n : Node} (hf : Table.find p.1 d.nodes = some n) (hs : p.2 = n.state ∨ n.state
    = .absent)
    (hb : ∀ i r, (i, r) ∈ d.rooms → r.barLink = some p.1 → r.bar.inSession = false) (hk : ∀ r, n.door = some r → n.kind.isDoor = true) :
    ∃ f, f n = toldNode p.2 n ∧ d.tellDisabled p = d.modifyNode p.1 f := by
  have hid : ∀ d : Device, d.modifyNode p.1 id = d := by intro d; unfold Device.modifyNode Table.modify; simp
  unfold Device.tellDisabled
  rw [hf]
  simp only
  unfold Device.ownerTold
  rw [hf]
  simp only
  by_cases he : p.2 = n.state
  · rw [if_pos he]
    exact ⟨id, by unfold toldNode; rw [if_neg (by simp [he])]; rfl, (hid d).symm⟩
  · rw [if_neg he]
    have ha := hs.resolve_left he
    have hnd : n.kind.isDoor = false → n.door = none := by
      intro h; cases hd : n.door with
      | none => rfl
      | some r => rw [hk r hd] at h; cases h
    have hnone : n.door = none → id n = toldNode p.2 n := by
      intro h; unfold toldNode; split_ifs
      · rw [h]; cases n; simp at h; simp [h]
      · rfl
    have hdoor : ∃ f, f n = toldNode p.2 n ∧ d.doorNodeChanged p.1 p.2 n.state = d.modifyNode p.1 f := by
      unfold Device.doorNodeChanged Device.doorEvent
      rw [hf, ha]
      cases hd : n.door with
      | none => exact ⟨id, hnone hd, by simp only [hd]; exact (hid d).symm⟩
      | some r =>
        by_cases hsv : p.2.inService = true
        · refine ⟨fun m => { m with door := some r.outOfService }, ?_, ?_⟩
          · unfold toldNode; rw [if_pos ⟨he, hsv⟩, hd]; rfl
          · simp only [hd, hsv, if_true]
            unfold Device.applyDoor DoorOut.same
            cases n.state.isOut <;> simp [Device.handAll]
        · refine ⟨fun m => { m with door := some r }, ?_, ?_⟩
          · unfold toldNode; rw [if_neg (by simp [hsv])]; cases n; simp at hd; simp [hd]
          · simp only [hd, hsv, if_false, Bool.false_eq_true]
            unfold Device.applyDoor DoorOut.same
            cases n.state.isOut <;> simp [Device.handAll]
    split
    · next h =>
      refine ⟨id, hnone (hnd (by rw [h]; rfl)), ?_⟩
      rw [hid]
      unfold Device.barNodeChanged
      cases hbr : d.barRoom p.1 with
      | none => rfl
      | some q =>
        obtain ⟨i, r⟩ := q
        obtain ⟨m1, m2⟩ := Device.barRoom_linked hbr
        simp only [hb i r m1 m2, Bool.false_eq_true, if_false]
    · next h =>
      refine ⟨id, hnone (hnd (by rw [h]; rfl)), ?_⟩
      rw [hid]
      unfold Device.encoderNodeChanged
      rw [ha]; rfl
    all_goals exact hdoor

/-- A change of one row keeps the keys. -/
theorem keys_modify {α} (k : Nat) (f : α → α) (t : Table α) : (Table.modify k f t).map (fun p => p.1) = t.map (fun p => p.1) := by
  unfold Table.modify; rw [List.map_map]; apply List.map_congr_left; intro p _; simp only [Function.comp]; split <;> simp_all

/-- A change of every row keeps the keys. -/
theorem keys_mapVals {α} (f : Nat → α → α) (t : Table α) : (Table.mapVals f t).map (fun p => p.1) = t.map (fun p => p.1) := by
  unfold Table.mapVals; rw [List.map_map]; apply List.map_congr_left; intro p _; rfl

/-- Tables of the same keys are in form together. -/
theorem wf_mapFind {α} {t u : Table α} : Table.wf t = true → t.map (fun p => p.1) = u.map (fun p => p.1) → Table.wf u = true := by
  intro h e
  rw [Table.wf_iff] at *
  have h1 : (t.map (fun p => p.1)).Pairwise (fun a b => a < b) := by rw [List.pairwise_map]; exact h
  rw [e, List.pairwise_map] at h1; exact h1

/-- The owners of several nodes told in turn. -/
theorem tellDisabled_fold (L : List (Nat × NodeState)) : ∀ d : Device, L.Pairwise (fun a b => a.1 ≠ b.1) →
    (∀ p ∈ L, ∃ n, Table.find p.1 d.nodes = some n ∧ (p.2 = n.state ∨ n.state = .absent) ∧ (∀ r, n.door = some r → n.kind.isDoor = true) ∧
        ∀ i r, (i, r) ∈ d.rooms → r.barLink = some p.1 → r.bar.inSession = false) →
    (∀ key, (∀ b, (key, b) ∉ L) → Table.find key (L.foldl Device.tellDisabled d).nodes = Table.find key d.nodes) ∧
    (∀ key b, (key, b) ∈ L → Table.find key (L.foldl Device.tellDisabled d).nodes = (Table.find key d.nodes).map (toldNode b)) ∧
    L.foldl Device.tellDisabled d = { d with nodes := (L.foldl Device.tellDisabled d).nodes } ∧
    (L.foldl Device.tellDisabled d).nodes.map (fun p => p.1) = d.nodes.map (fun p => p.1) := by
  induction L with
  | nil => intro d _ _; exact ⟨fun _ _ => rfl, fun _ _ h => (by cases h), rfl, rfl⟩
  | cons p L ih =>
    intro d hp h
    rw [List.pairwise_cons] at hp
    obtain ⟨n, h1, h2, h3, h4⟩ := h p List.mem_cons_self
    obtain ⟨f, f1, f2⟩ := tellDisabled_eq h1 h2 h4 h3
    simp only [List.foldl_cons]
    have hne : ∀ q ∈ L, q.1 ≠ p.1 := fun q hq e => hp.1 q hq e.symm
    obtain ⟨i1, i2, i3, i4⟩ := ih (d.tellDisabled p) hp.2 (by
      intro q hq
      obtain ⟨m, g1, g2, g3, g4⟩ := h q (List.mem_cons_of_mem _ hq)
      refine ⟨m, ?_, g2, g3, ?_⟩
      · rw [f2, Device.modifyNode_nodes, Table.find_modify_ne _ _ (hne q hq)]; exact g1
      · rw [f2]; exact g4)
    refine ⟨?_, ?_, ?_, by rw [i4, f2]; exact keys_modify _ _ _⟩
    · intro key hk
      rw [i1 key (fun b hb => hk b (List.mem_cons_of_mem _ hb)), f2, Device.modifyNode_nodes, Table.find_modify_ne]
      intro e; exact hk p.2 (by rw [e]; exact List.mem_cons_self)
    · intro key b hb
      rcases List.mem_cons.mp hb with hb | hb
      · rw [i1 key (by
          intro b' hb'
          exact hne _ hb' (by rw [← hb]))]
        have : key = p.1 := by rw [← hb]
        subst this
        rw [f2, Device.modifyNode_nodes, Table.find_modify_self, h1]
        simp only [Option.map_some, f1]
        rw [show p.2 = b by rw [← hb]]
      · rw [i2 key b hb, f2, Device.modifyNode_nodes, Table.find_modify_ne]
        exact hne _ hb
    · rw [i3, f2]; rfl

/-- A node disabled and told is one left disabled. -/
theorem disabled_told (n : Node) : toldNode n.state n.disabled = n.leftDisabled := by
  unfold toldNode Node.disabled Node.leftDisabled
  by_cases hf : n.state = .faulted
  · simp [hf]
  · simp only [hf, if_false]
    cases hs : n.state with
    | faulted => exact absurd hs hf
    | absent => simp [NodeState.inService]
    | retryWait => simp [NodeState.inService]
    | online =>
      simp only [NodeState.inService]; simp
      cases n.door <;> simp [Door.outOfService, Door.stopTimers]
    | suspect =>
      simp only [NodeState.inService]; simp
      cases n.door <;> simp [Door.outOfService, Door.stopTimers]
    | degraded =>
      simp only [NodeState.inService]; simp
      cases n.door <;> simp [Door.outOfService, Door.stopTimers]

/-- The reports of SIGNAL and ABANDON do nothing. -/
theorem deliver_still (d : Device) : ∀ rs : List Report, (∀ r ∈ rs, r.command = .signal ∨ r.command = .abandon) → d.deliver rs = d := by
  intro rs
  induction rs with
  | nil => intro _; rfl
  | cons r rs ih =>
    intro h
    have : d.commandUndelivered r.node r.command = d := by
      rcases h r List.mem_cons_self with e | e <;> rw [e] <;> rfl
    show (d.commandUndelivered r.node r.command).deliver rs = d
    rw [this]; exact ih (fun x hx => h x (List.mem_cons_of_mem _ hx))

/-- What disabling a segment does where nothing stands on it that a submitter minds. -/
theorem disableSegment_eq {d : Device} {seg : Nat} (hw : Table.wf d.nodes = true) (hr : d.reports = []) (hlen : seg < d.segments.length)
    (hq : ∀ e ∈ (d.segment seg).queue, e.command = .signal ∨ e.command = .abandon)
    (hx : ∀ x, (d.segment seg).exchange = some x → (∀ c k, x.carried = some (c, k) → c = .signal ∨ c = .abandon) ∧ (∀ c, x.next = some c →
        c = .signal ∨ c = .abandon))
    (hb : ∀ key room r, key / 256 = seg → (room, r) ∈ d.rooms → r.barLink = some key → r.bar.inSession = false)
    (hk : ∀ key n r, Table.find key d.nodes = some n → n.door = some r → n.kind.isDoor = true) :
    (d.disableSegment seg).segments = d.segments.set seg { d.segment seg with queue := [], exchange := none, attention := [] } ∧
    (∀ key, Table.find key (d.disableSegment seg).nodes = (Table.find key d.nodes).map (fun n => if key / 256 = seg then n.leftDisabled
        else n)) ∧
    d.disableSegment seg = { d with nodes := (d.disableSegment seg).nodes, segments := (d.disableSegment seg).segments } ∧
    (d.disableSegment seg).nodes.map (fun p => p.1) = d.nodes.map (fun p => p.1) := by
  set g := d.segment seg with hg
  set d1 := d.setSegment seg { g with exchange := none, queue := [] } with hd1
  have hdel : d1.deliver (g.stranded seg) = d1 := by
    apply deliver_still
    intro r hr
    unfold Segment.stranded at hr
    rw [List.mem_append] at hr
    rcases hr with hr | hr
    · rw [List.mem_map] at hr
      obtain ⟨e, he, rfl⟩ := hr
      exact hq e he
    · cases hgx : g.exchange with
      | none => rw [hgx] at hr; simp at hr
      | some x =>
        obtain ⟨c1, c2⟩ := hx x hgx
        rw [hgx] at hr
        simp only [List.mem_append] at hr
        rcases hr with hr | hr
        · cases hc : x.carried with
          | none => rw [hc] at hr; simp at hr
          | some q => obtain ⟨c, k⟩ := q; rw [hc] at hr; simp at hr; rw [hr]; exact c1 c k hc
        · cases hc : x.next with
          | none => rw [hc] at hr; simp at hr
          | some c => rw [hc] at hr; simp at hr; rw [hr]; exact c2 c hc
  have hr1 : d1.reports = [] := hr
  have hsg1 : d1.segment seg = { g with exchange := none, queue := [] } := by
    rw [hd1, Device.segment_setSegment, if_pos ⟨rfl, hlen⟩]
  set d2 : Device :=
      { d1.setSegment seg { d1.segment seg with attention := [] } with nodes := Table.mapVals (fun k n => if keySeg k = seg then n.disabled else n) d.nodes } with hd2
  have hdis : d.disableSegment seg = (d.statesOn seg).foldl Device.tellDisabled d2 := by
    unfold Device.disableSegment
    simp only [← hg, ← hd1, hdel, Device.takeReports_of_nil hr1]
    rfl
  have hmem : ∀ key b, (key, b) ∈ d.statesOn seg ↔ key / 256 = seg ∧ ∃ n, Table.find key d.nodes = some n ∧ n.state = b := by
    intro key b
    unfold Device.statesOn
    simp only [List.mem_map, List.mem_filter, decide_eq_true_eq, Prod.mk.injEq]
    constructor
    · rintro ⟨p, ⟨h1, h2⟩, rfl, rfl⟩
      exact ⟨h2, p.2, Table.find_of_mem hw h1, rfl⟩
    · rintro ⟨h1, n, h2, rfl⟩
      exact ⟨(key, n), ⟨Table.mem_of_find h2, h1⟩, rfl, rfl⟩
  have hpw : (d.statesOn seg).Pairwise (fun a b => a.1 ≠ b.1) := by
    unfold Device.statesOn
    rw [List.pairwise_map]
    have := (Table.wf_iff _).mp hw
    exact (this.filter _).imp (fun h => Nat.ne_of_lt h)
  have hfind2 : ∀ key, Table.find key d2.nodes = (Table.find key d.nodes).map (fun n => if key / 256 = seg then n.disabled else n) := by
    intro key; rw [hd2]; simp only [Table.find_mapVals]; rfl
  obtain ⟨f1, f2, f3, f4⟩ := tellDisabled_fold (d.statesOn seg) d2 hpw (by
    rintro ⟨key, b⟩ hp
    obtain ⟨h1, n, h2, h3⟩ := (hmem key b).mp hp
    refine ⟨n.disabled, by rw [hfind2, h2]; simp [h1], ?_, ?_, ?_⟩
    · rw [← h3]; unfold Node.disabled; by_cases hf : n.state = .faulted <;> simp [hf]
    · intro r hr
      have : n.disabled.kind = n.kind ∧ n.disabled.door = n.door := by unfold Node.disabled; split <;> exact ⟨rfl, rfl⟩
      rw [this.1]; rw [this.2] at hr; exact hk key n r h2 hr
    · intro i r h4 h5; exact hb key i r h1 h4 h5)
  rw [hdis]
  refine ⟨?_, ?_, ?_, by rw [f4]; exact keys_mapVals (fun k n => if keySeg k = seg then n.disabled else n) d.nodes⟩
  · rw [f3]
    show d1.segments.set seg { d1.segment seg with attention := [] } = _
    rw [hsg1, hd1, Device.setSegment_segments, List.set_set]
  · intro key
    by_cases hks : key / 256 = seg
    · cases hfk : Table.find key d.nodes with
      | none =>
        rw [f1 key (by intro b hb'; obtain ⟨_, n, h, _⟩ := (hmem key b).mp hb'; rw [hfk] at h; cases h), hfind2, hfk]; rfl
      | some n =>
        rw [f2 key n.state ((hmem key n.state).mpr ⟨hks, n, hfk, rfl⟩), hfind2, hfk]
        simp only [Option.map_some, hks, if_true, disabled_told]
    · rw [f1 key (by intro b hb'; exact hks ((hmem key b).mp hb').1), hfind2]
      simp [hks]
  · rw [f3]
    simp only [hd2, hd1]
    rfl

/-- A segment behind a SETUP. -/
def segAfter (g : Segment) (st : SegmentSettings) : Segment :=
  if st.enabled then { g with settings := some st } else { g with settings := some st, queue := [], exchange := none, attention := [] }

/-- A node behind a SETUP. -/
def nodeAfter (g : Option Segment) (st : Option SegmentSettings) (n : Node) : Node :=
  match g, st with
         | some g, some st =>
           if st.enabled = false then n.leftDisabled
           else if g.settings.isSome ∧ g.settings.map (fun x => x.mode) ≠ some st.mode then { n with passOver := 0 } else n
         | _, _ => n

/-- A node left disabled keeps no pass-over count. -/
theorem leftDisabled_passOver (n : Node) : ({ n with passOver := 0 } : Node).leftDisabled = n.leftDisabled := by
  unfold Node.leftDisabled; by_cases h : n.state = .faulted <;> simp [h]

/-- What a SETUP does at one segment. -/
theorem applySegment_one {d : Device} {seg : Nat} {st : SegmentSettings} (hw : Table.wf d.nodes = true ∨ st.enabled = true) (hr : d.reports
    = []) (hlt : seg < d.segments.length)
    (hq : st.enabled = false → (∀ e ∈ (d.segment seg).queue, e.command = .signal ∨ e.command = .abandon) ∧
      (∀ x, (d.segment seg).exchange = some x → (∀ c k, x.carried = some (c, k) → c = .signal ∨ c = .abandon) ∧ (∀ c, x.next = some c → c =
          .signal ∨ c = .abandon)) ∧
      (∀ key room r, key / 256 = seg → (room, r) ∈ d.rooms → r.barLink = some key → r.bar.inSession = false) ∧
      (∀ key n r, Table.find key d.nodes = some n → n.door = some r → n.kind.isDoor = true)) :
    (d.applySegment seg st).segments = d.segments.set seg (segAfter (d.segment seg) st) ∧
    (∀ key, Table.find key (d.applySegment seg st).nodes = (Table.find key d.nodes).map (fun n => if key / 256 = seg then nodeAfter (some
        (d.segment seg)) (some st) n else n)) ∧
    d.applySegment seg st = { d with nodes := (d.applySegment seg st).nodes, segments := (d.applySegment seg st).segments } ∧
    (d.applySegment seg st).nodes.map (fun p => p.1) = d.nodes.map (fun p => p.1) := by
  set d1 := (if (d.segment seg).modeChanges st.mode then (d.setSegment seg { d.segment seg with settings := some st }).clearPassOver seg
      else d.setSegment seg { d.segment seg with settings := some st }) with hd1
  have e1 : d1.segments = d.segments.set seg { d.segment seg with settings := some st } := by rw [hd1]; split <;> rfl
  have e2 : ∀ key, Table.find key d1.nodes = (Table.find key d.nodes).map (fun n => if key / 256 = seg ∧ (d.segment seg).modeChanges
      st.mode = true then { n with passOver := 0 } else n) := by
    intro key
    rw [hd1]
    split
    · next h =>
      simp only [Device.clearPassOver, Device.setSegment_nodes, Table.find_mapVals, keySeg]
      congr 1; funext n; by_cases hk : key / 256 = seg <;> simp [h, hk]
    · next h => simp [h]
  have e3 : d1 = { d with nodes := d1.nodes, segments := d1.segments } := by rw [hd1]; split <;> rfl
  have hkeys : d1.nodes.map (fun p => p.1) = d.nodes.map (fun p => p.1) := by
    rw [hd1]; split
    · exact keys_mapVals (fun k n => if keySeg k = seg then ({ n with passOver := 0 } : Node) else n) d.nodes
    · rfl
  have hap : d.applySegment seg st = if st.enabled then d1 else d1.disableSegment seg := by unfold Device.applySegment; rfl
  rw [hap]
  cases hst : st.enabled with
  | true =>
    simp only [if_true]
    refine ⟨by rw [e1]; unfold segAfter; rw [hst]; rfl, ?_, e3, hkeys⟩
    intro key
    rw [e2]
    congr 1
    funext n
    unfold nodeAfter
    simp only [hst, Segment.modeChanges_eq, decide_eq_true_eq]
    by_cases h : key / 256 = seg <;> simp [h]
  | false =>
    simp only [Bool.false_eq_true, if_false]
    obtain ⟨q1, q2, q3, q4⟩ := hq hst
    have hsg : d1.segment seg = { d.segment seg with settings := some st } := by
      unfold Device.segment; rw [e1, List.getD_eq_getElem?_getD, List.getElem?_set_self hlt]; rfl
    have hw' := hw.resolve_right (by rw [hst]; simp)
    have hwn : Table.wf d1.nodes = true := by
      refine wf_mapFind hw' ?_
      rw [hd1]; split
      · exact (keys_mapVals (fun k n => if keySeg k = seg then ({ n with passOver := 0 } : Node) else n) d.nodes).symm
      · rfl
    obtain ⟨a1, a2, a3, a4⟩ := disableSegment_eq (d := d1) (seg := seg) hwn (by rw [e3]; exact hr) (by rw [e1]; simpa using hlt)
      (by rw [hsg]; exact q1) (by rw [hsg]; exact q2) (by rw [e3]; exact q3) (by
        intro key n r h1 h2
        rw [e2] at h1
        cases hf : Table.find key d.nodes with
        | none => rw [hf] at h1; cases h1
        | some m =>
          rw [hf] at h1; simp only [Option.map_some, Option.some.injEq] at h1
          rw [← h1] at h2 ⊢
          split_ifs at h2 ⊢ <;> exact q4 key m r hf h2)
    refine ⟨?_, ?_, ?_, a4.trans hkeys⟩
    · rw [a1, hsg, e1, List.set_set]; unfold segAfter; rw [hst]; rfl
    · intro key
      rw [a2, e2, Option.map_map]
      congr 1
      funext n
      simp only [Function.comp, nodeAfter, hst, if_true]
      by_cases h : key / 256 = seg
      · simp only [h, true_and, if_true]
        split_ifs
        · exact leftDisabled_passOver n
        · rfl
      · simp [h]
    · generalize d1.disableSegment seg = D at *
      rw [a3]
      generalize D.nodes = x1 at *
      generalize D.segments = x2 at *
      rw [e3]

/-- A SETUP gives no node a door. -/
theorem nodeAfter_door (g st) (n : Node) (r : Door) (h : (nodeAfter g st n).door = some r) : ∃ r', n.door = some r' := by
  unfold nodeAfter at h
  split at h
  · split_ifs at h
    · unfold Node.leftDisabled at h
      split_ifs at h
      · exact ⟨r, h⟩
      · cases hd : n.door with
        | none => rw [hd] at h; simp at h
        | some r' => exact ⟨r', rfl⟩
      · exact ⟨r, h⟩
    · exact ⟨r, h⟩
    · exact ⟨r, h⟩
  · exact ⟨r, h⟩

/-- A SETUP keeps the kinds of the nodes. -/
theorem nodeAfter_kind (g st) (n : Node) : (nodeAfter g st n).kind = n.kind := by
  unfold nodeAfter
  split
  · split_ifs
    · unfold Node.leftDisabled; split_ifs <;> rfl
    · rfl
    · rfl
  · rfl

/-- What a SETUP does at the segments, one after another. -/
theorem applySegments_all (sts : List SegmentSettings) : ∀ (d : Device) (seg : Nat), seg + sts.length = d.segments.length → d.reports = [] →
    ((∀ st ∈ sts, st.enabled = true) ∨ (Table.wf d.nodes = true ∧ (∀ key n r, Table.find key d.nodes = some n → n.door = some r →
        n.kind.isDoor = true))) →
    (∀ i st g, sts[i]? = some st → d.segments[seg + i]? = some g → st.enabled = false → (∀ e ∈ g.queue, e.command = .signal ∨ e.command =
        .abandon) ∧
      (∀ x, g.exchange = some x → (∀ c k, x.carried = some (c, k) → c = .signal ∨ c = .abandon) ∧ (∀ c, x.next = some c → c = .signal ∨ c =
          .abandon)) ∧
      (∀ key room r, key / 256 = seg + i → (room, r) ∈ d.rooms → r.barLink = some key → r.bar.inSession = false)) →
   (∀ i, (d.applySegments seg sts).segments[i]? = if i < seg then d.segments[i]? else (d.segments[i]?).bind (fun g => (sts[i - seg]?).map
       (fun st => segAfter g st))) ∧
   (∀ key, Table.find key (d.applySegments seg sts).nodes = (Table.find key d.nodes).map (fun n => if key / 256 < seg then n else
       nodeAfter (d.segments[key / 256]?) (sts[key / 256 - seg]?) n)) ∧
   d.applySegments seg sts = { d with nodes := (d.applySegments seg sts).nodes, segments := (d.applySegments seg sts).segments } ∧
   (Table.wf d.nodes = true → (∀ st ∈ sts, st.enabled = true) → Table.wf (d.applySegments seg sts).nodes = true) := by
  induction sts with
  | nil =>
    intro d seg hl _ _ _
    refine ⟨?_, ?_, rfl, fun h _ => h⟩
    · intro i
      simp only [Device.applySegments]
      split_ifs with h
      · rfl
      · have : d.segments[i]? = none := by rw [List.getElem?_eq_none]; simp at hl; omega
        simp [this]
    · intro key
      simp only [Device.applySegments]
      cases hk : Table.find key d.nodes with
      | none => rfl
      | some n =>
        simp only [Option.map_some]
        split_ifs
        · rfl
        · congr 1
          unfold nodeAfter
          cases d.segments[key / 256]? <;> simp
  | cons st rest ih =>
    intro d seg hl hr hen hall
    simp only [List.length_cons] at hl
    have hlt : seg < d.segments.length := by omega
    have hg : d.segments[seg]? = some (d.segment seg) := by
      unfold Device.segment; rw [List.getD_eq_getElem?_getD, List.getElem?_eq_getElem hlt]; rfl
    obtain ⟨s1, s2, s3, s4⟩ := applySegment_one (d := d) (seg := seg) (st := st) (by
        rcases hen with h | h
        · exact .inr (h st List.mem_cons_self)
        · exact .inl h.1) hr hlt (by
        intro hst
        obtain ⟨q1, q2, q3⟩ := hall 0 st (d.segment seg) rfl hg hst
        refine ⟨q1, q2, q3, ?_⟩
        rcases hen with h | h
        · rw [h st List.mem_cons_self] at hst; cases hst
        · exact h.2)
    have hwf1 : Table.wf d.nodes = true → Table.wf (d.applySegment seg st).nodes = true := by
      intro h; exact wf_mapFind h s4.symm
    obtain ⟨i1, i2, i3, i4⟩ := ih (d.applySegment seg st) (seg + 1) (by rw [s1]; simp; omega) (by rw [s3]; exact hr) (by
        rcases hen with h | ⟨h, h2⟩
        · exact .inl (fun x hx => h x (List.mem_cons_of_mem _ hx))
        · refine .inr ⟨hwf1 h, ?_⟩
          intro key n r h3 h4
          rw [s2] at h3
          cases hf : Table.find key d.nodes with
          | none => rw [hf] at h3; cases h3
          | some m =>
            rw [hf] at h3; simp only [Option.map_some, Option.some.injEq] at h3
            split_ifs at h3
            · rw [← h3] at h4 ⊢
              obtain ⟨r', hr'⟩ := nodeAfter_door _ _ _ _ h4
              rw [nodeAfter_kind]; exact h2 key m r' hf hr'
            · rw [← h3] at h4 ⊢; exact h2 key m r hf h4) (by
        intro i x g h1 h2 h3
        rw [s1, List.getElem?_set_ne (by omega)] at h2
        have := hall (i + 1) x g (by simpa using h1) (by rw [← h2]; congr 1; omega) h3
        rw [s3]
        refine ⟨this.1, this.2.1, ?_⟩
        intro key room r hk; exact this.2.2 key room r (by omega))
    have e : d.applySegments seg (st :: rest) = (d.applySegment seg st).applySegments (seg + 1) rest := rfl
    rw [e]
    refine ⟨?_, ?_, ?_, ?_⟩
    · intro i
      rw [i1, s1]
      rcases Nat.lt_trichotomy i seg with h | h | h
      · rw [if_pos (by omega), if_pos h, List.getElem?_set_ne (by omega)]
      · subst h
        rw [if_pos (by omega), if_neg (by omega), List.getElem?_set_self hlt, hg]
        simp
      · rw [if_neg (by omega), if_neg (by omega), List.getElem?_set_ne (by omega)]
        have : i - seg = (i - (seg + 1)) + 1 := by omega
        rw [this, List.getElem?_cons_succ]
    · intro key
      rw [i2, s2, Option.map_map]
      congr 1
      funext n
      simp only [Function.comp]
      rcases Nat.lt_trichotomy (key / 256) seg with h | h | h
      · rw [if_pos (by omega), if_neg (by omega), if_pos h]
      · rw [if_pos (by omega), if_pos h, if_neg (by omega), h]
        simp [hg]
      · rw [if_neg (by omega), if_neg (by omega), if_neg (by omega), s1, List.getElem?_set_ne (by omega)]
        have : key / 256 - seg = (key / 256 - (seg + 1)) + 1 := by omega
        rw [this, List.getElem?_cons_succ]
    · rw [i3, s3]
    · intro h1 h2
      exact i4 (hwf1 h1) (fun x hx => h2 x (List.mem_cons_of_mem _ hx))

end Sys2Proof.Machine
end

