-- ==== Sys2Proof/Laws/HouseDoors.lean ====
section
/-! SUPPORT. What telling every door of a mode or of a minute can do, in the words of Safety. -/

namespace Sys2Proof.Machine

open Sys2Proof

/-- Commands placed for one node, as one change of its segment. -/
theorem placedFor_eq (segs : List Segment) (key : Nat) (cs : List Command) :
    placedFor segs key cs = (if cs = [] then segs else segs.set (key / 256) (cs.foldl (fun g c => g.place (key % 256) c) (segs.getD (key /
        256) Segment.initial))) := by
  induction cs generalizing segs with
  | nil => rfl
  | cons c r ih =>
    show placedFor (segs.set (key/256) _) key r = _
    rw [ih]
    by_cases hr : r = []
    · subst hr; rfl
    · rw [if_neg hr, if_neg (by simp), List.set_set]
      by_cases hl : key / 256 < segs.length
      · simp only [List.getD_eq_getElem?_getD, List.getElem?_set, hl, if_true]; rfl
      · rw [List.set_eq_of_length_le (by omega), List.set_eq_of_length_le (by omega)]

/-- Every door told in turn, from any place in the table. -/
theorem everyDoor_fold (f : Node → Door → DoorOut) (o : Nat → DoorOut) (ps : Table Node) : ∀ (d base : Device),
    (∀ p ∈ ps, Table.find p.1 d.nodes = some p.2) → ps.Pairwise (fun a b => a.1 ≠ b.1) →
    (∀ p ∈ ps, ∀ r, p.2.door = some r → o p.1 = f p.2 r ∧ (o p.1).alarm = false) →
    (∀ p ∈ ps, p.2.door.isSome = true → p.2.state.isOut = false → (d.segment (keySeg p.1)).isDisabled = false) →
    base.journal = d.journal → base.clock = d.clock →
    let e := (ps.map (fun p => p.1)).foldl (fun acc key => acc.doorEvent key f) d
    (∀ key, Table.find key e.nodes = (Table.find key d.nodes).map (fun n => if key ∈ ps.map (fun p => p.1) then
        { n with door := n.door.map (fun _ => (o key).door) } else n)) ∧
    e.segments = ps.foldl (fun gs p => if p.2.door.isSome && !p.2.state.isOut then placedFor gs p.1 (o p.1).commands else gs) d.segments ∧
    e.journal = (ps.foldl (fun (x : Device) p => if p.2.door.isSome then (o p.1).events.foldl (fun (y : Device) e =>
        y.record (.door p.1 e (o p.1).door.state) {} (if e = .holdEnd then .routine else .notable)) x else x) base).journal ∧
    e = { d with nodes := e.nodes, segments := e.segments, journal := e.journal } := by
  induction ps with
  | nil =>
    intro d base _ _ _ _ hj _
    refine ⟨fun key => ?_, rfl, hj.symm, rfl⟩
    show Table.find key d.nodes = _
    cases h : Table.find key d.nodes <;> simp
  | cons p rest ih =>
    intro d base hfind hpw ho hre hj hc
    obtain ⟨k, n⟩ := p
    have hk : Table.find k d.nodes = some n := hfind (k, n) List.mem_cons_self
    rw [List.pairwise_cons] at hpw
    have hnot : k ∉ rest.map (fun p => p.1) := by
      intro hm; obtain ⟨q, hq, hqk⟩ := List.mem_map.mp hm
      exact hpw.1 q hq hqk.symm
    obtain ⟨base1, hb1⟩ : ∃ b : Device, b = (if n.door.isSome then (o k).events.foldl (fun (y : Device) e =>
        y.record (.door k e (o k).door.state) {} (if e = .holdEnd then .routine else .notable)) base else base) := ⟨_, rfl⟩
    have hb1c : base1.clock = d.clock := by
      rw [hb1, ← hc]; split_ifs
      · exact foldl_leaves _ Device.clock (fun _ _ => by simp) _ _
      · rfl
    have step : (∀ key, Table.find key (d.doorEvent k f).nodes = (Table.find key d.nodes).map (fun m => if key = k then
        { m with door := m.door.map (fun _ => (o k).door) } else m)) ∧
        (d.doorEvent k f).segments = (if n.door.isSome && !n.state.isOut then placedFor d.segments k (o k).commands else d.segments) ∧
        (d.doorEvent k f).journal = base1.journal ∧
        d.doorEvent k f =
            { d with nodes := (d.doorEvent k f).nodes, segments := (d.doorEvent k f).segments, journal := (d.doorEvent k f).journal } := by
      cases hdr : n.door with
      | none =>
        have e0 : d.doorEvent k f = d := by unfold Device.doorEvent; rw [hk]; simp only [hdr]
        rw [e0]
        refine ⟨?_, by simp, by rw [hb1, hdr]; exact hj.symm, rfl⟩
        intro key
        by_cases hkk : key = k
        · subst hkk; rw [hk]; cases n; simp_all
        · cases Table.find key d.nodes <;> simp [hkk]
      | some r =>
        have e0 : d.doorEvent k f = d.applyDoor k n.state.isOut (o k) := by
          unfold Device.doorEvent; rw [hk]; simp only [hdr]; rw [(ho (k,n) List.mem_cons_self r hdr).1]
        have hal := (ho (k,n) List.mem_cons_self r hdr).2
        simp only at hal
        have hN : ∀ out, ∀ key, Table.find key (d.applyDoor k out (o k)).nodes = (Table.find key d.nodes).map (fun m => if key = k then
            { m with door := m.door.map (fun _ => (o k).door) } else m) := by
          intro out key
          rw [Device.applyDoor_nodes, Table.find_modify]
          by_cases hkk : key = k
          · subst hkk; rw [hk]; simp [hdr]
          · cases Table.find key d.nodes <;> simp [hkk]
        have hJ : ∀ out, (d.applyDoor k out (o k)).journal = base1.journal := by
          intro out
          rw [hb1, hdr]
          simp only [Option.isSome_some, if_true]
          unfold Device.applyDoor
          dsimp only
          apply Device.doorEvents_journal
          · split_ifs <;> simp [hj]
          · split_ifs <;> simp [hc]
        rw [e0]
        have g := Device.applyDoor_eq d k n.state.isOut (o k)
        have hregs : (d.applyDoor k n.state.isOut (o k)).regs = d.regs := by rw [Device.applyDoor_regs, hal]; rfl
        by_cases hout : n.state.isOut = true
        · obtain ⟨g1, g2⟩ := Device.applyDoor_quiet d k n.state.isOut (o k) (.inl hout)
          refine ⟨hN _, ?_, hJ _, ?_⟩
          · rw [g1, hout]; simp
          · rw [g]; simp only [g2, hregs]
        · have hout' : n.state.isOut = false := by simpa using hout
          have hre' : d.reachable k n := ⟨hk, hout', hre (k,n) List.mem_cons_self (by simp [hdr]) hout'⟩
          rw [hout'] at g hregs ⊢
          obtain ⟨m1, m2, m3, m4, m5, m6⟩ := Device.applyDoor_fields (o k) hre'
          refine ⟨hN _, ?_, hJ _, ?_⟩
          · rw [m4, placedFor_eq]; simp [Device.segment]
          · rw [g]; simp only [m1, hregs]
    obtain ⟨s1, s2, s3, s4⟩ := step
    have hfind' : ∀ p ∈ rest, Table.find p.1 (d.doorEvent k f).nodes = some p.2 := by
      intro p hp
      rw [s1, hfind p (List.mem_cons_of_mem _ hp)]
      have : p.1 ≠ k := fun e => hpw.1 p hp e.symm
      simp [this]
    have hre' : ∀ p ∈ rest, p.2.door.isSome = true → p.2.state.isOut = false → ((d.doorEvent k f).segment (keySeg p.1)).isDisabled =
        false := by
      intro p hp h1 h2
      have c := hre p (List.mem_cons_of_mem _ hp) h1 h2
      unfold Device.segment at c ⊢
      rw [s2]
      split_ifs
      · rw [placedFor_isDisabled]; exact c
      · exact c
    obtain ⟨i1, i2, i3, i4⟩ := ih (d.doorEvent k f) base1 hfind' hpw.2 (fun p hp => ho p (List.mem_cons_of_mem _ hp)) hre' s3.symm
        (by rw [hb1c, s4])
    simp only [List.map_cons, List.foldl_cons]
    refine ⟨?_, ?_, ?_, ?_⟩
    · intro key
      rw [i1, s1]
      cases hkey : Table.find key d.nodes with
      | none => rfl
      | some m =>
        simp only [Option.map_some, List.mem_cons]
        congr 1
        by_cases hkk : key = k
        · subst hkk; simp only [hnot, if_false, if_true, true_or]
        · simp only [hkk, false_or, if_false]
    · rw [i2, s2]
    · rw [i3, hb1]
    · rw [i4]; congr 1
      all_goals rw [s4]

/-- What telling every door does. -/
theorem everyDoor_moved {d : Device} (f : Node → Door → DoorOut) (o : Nat → DoorOut) (base : Device) (hr : d.doorsReachable)
    (ho : ∀ key n r, Table.find key d.nodes = some n → n.door = some r → o key = f n r ∧ (o key).alarm = false)
    (hj : base.journal = d.journal) (hc : base.clock = d.clock) :
    d.doorsMoved (d.everyDoor f) base o ∧ d.everyDoor f =
        { d with nodes := (d.everyDoor f).nodes, segments := (d.everyDoor f).segments, journal := (d.everyDoor f).journal } := by
  obtain ⟨hw, hr⟩ := hr
  have hf : ∀ p ∈ d.nodes, Table.find p.1 d.nodes = some p.2 := fun p hp => Table.find_of_mem hw hp
  obtain ⟨a, b, c, e⟩ := everyDoor_fold f o d.nodes d base hf (by rw [Table.wf_iff] at hw; exact hw.imp (fun h => Nat.ne_of_lt h))
    (fun p hp r h => ho _ _ _ (hf p hp) h) (fun p hp h1 h2 => hr _ _ (hf p hp) h1 h2) hj hc
  refine ⟨⟨?_, b, c⟩, e⟩
  intro key
  show Table.find key (List.foldl _ d _).nodes = _
  rw [a]
  cases hk : Table.find key d.nodes with
  | none => rfl
  | some n =>
    have : key ∈ d.nodes.map (fun p => p.1) := List.mem_map.mpr ⟨(key, n), Table.mem_of_find hk, rfl⟩
    simp [this]

/-- What the change of a mode asks of one door. -/
def modeOutcome (pin : Pin) (active : Bool) (minute : Word) (n : Node) (r : Door) : DoorOut :=
  match pin, active with
  | .fire, true => if n.kind.firesFree && n.state.inService then r.intoEmergency else .same r
  | .fire, false => r.fireEnds n.state.isOut minute
  | .storm, true => if n.kind = .shoreGate then r.stormBegins n.state.isOut else .same r
  | .storm, false => .same r

/-- Coming to rest hands RELOCK alone. -/
theorem rest_commands (r : Door) (out : Bool) : ∀ c ∈ (r.rest out).commands, c = .relock := by
  unfold Door.rest; (repeat' split) <;> simp

/-- Behind a RELOCK, coming to rest hands none. -/
theorem rest_after (r : Door) (out : Bool) : (r.rest out).after [.relock] = { door := (r.rest out).door, commands := [.relock] } := by
  obtain ⟨h1, h2⟩ := Door.rest_silent r out
  have h3 := rest_commands r out
  unfold DoorOut.after
  have : (r.rest out).commands.filter (fun c => !([.relock] : List Command).contains c) = [] := by
    rw [List.filter_eq_nil_iff]; intro c hc; rw [h3 c hc]; decide
  rw [this]
  generalize r.rest out = x at *
  cases x; simp_all

/-- The change of a mode gives what Door.modeGives says, and no alarm. -/
theorem modeOutcome_gives (pin active minute) (n : Node) (r : Door) : r.modeGives n pin active minute (modeOutcome pin active minute n r) ∧ (modeOutcome pin
    active minute n r).alarm = false := by
  cases pin <;> cases active
  · simp only [modeOutcome, Door.modeGives, Door.fireEnds]
    cases hs : r.state <;> simp only [reduceCtorEq, not_false_eq_true, not_true_eq_false, false_and, true_and, false_or, or_false,
        DoorOut.same, ne_eq]
    cases he : r.savedEnd with
    | none =>
      simp only [rest_after, reduceCtorEq, false_and, exists_false, false_or, if_true, and_true, false_implies, implies_true,
          true_and]
      cases r; simp_all
    | some e =>
      simp only [Option.some.injEq, reduceCtorEq, if_false]
      by_cases h : minute.toNat < e.toNat
      · rw [if_pos h]
        exact ⟨.inl ⟨e, rfl, h, rfl⟩, rfl⟩
      · rw [if_neg h, rest_after]
        exact ⟨.inr ⟨fun x hx => by subst hx; omega, rfl⟩, rfl⟩
  · simp only [modeOutcome, Door.modeGives]
    have hk : (n.kind.firesFree && n.state.inService) = decide ((n.kind = .egressDoor ∨ n.kind = .commonDoor) ∧ (n.state = .online ∨
        n.state = .suspect ∨ n.state = .degraded)) := by
      cases n.kind <;> cases n.state <;> rfl
    rw [hk]
    by_cases h : ((n.kind = .egressDoor ∨ n.kind = .commonDoor) ∧ (n.state = .online ∨ n.state = .suspect ∨ n.state = .degraded))
    · rw [if_pos (decide_eq_true h)]
      exact ⟨.inl ⟨h.1, h.2, rfl⟩, rfl⟩
    · rw [if_neg (by simpa using h)]
      exact ⟨.inr ⟨h, rfl⟩, rfl⟩
  · exact ⟨rfl, rfl⟩
  · simp only [modeOutcome, Door.modeGives]
    split_ifs with h
    · simp only [h, true_and, Door.stormBegins]
      cases hs : r.state <;> simp [DoorOut.same, rest_after, DoorOut.withEvent]
      · cases hr : r.releaseTimer <;> simp
      · cases hr : r.releaseTimer <;> simp
    · simp [h, DoorOut.same]

/-- A minute gives what Door.minuteGives says, and no alarm. -/
theorem minute_gives {r : Door} {n : Node} {minute o} (h : r.minuteGives n minute o) : r.minute n.state.isOut minute = o ∧ o.alarm =
    false := by
  rcases h with ⟨hs, ⟨e, he, hd⟩, rfl⟩ | ⟨hs, ⟨e, he, hd⟩, rfl⟩ | ⟨a, b, rfl⟩
  · simp [Door.minute, hs, he, endDue, hd, rest_after, DoorOut.withEvent]
  · simp [Door.minute, hs, he, endDue, hd]
  · exact ⟨Door.minute_before_end a b, rfl⟩

/-- A door for places where there is none. -/
def placeholderDoor : Door := Door.fresh
    { admitSet := 0, hoursOpen := 0, hoursClose := 0, relock := .onClose, releaseTime := 0, heldLimit := 0, forcedMode := .latch, forcedDelay := .short, heldMode := .latch, heldDelay := .short }

/-- An event at a door keeps the places of the nodes. -/
theorem doorEvent_keys (d : Device) (k f) : (d.doorEvent k f).nodes.map (fun p => p.1) = d.nodes.map (fun p => p.1) := by
  unfold Device.doorEvent
  (repeat' split) <;> [rfl; rfl; (rw [Device.applyDoor_nodes]; unfold Table.modify; rw [List.map_map]; apply List.map_congr_left; intro p _; simp only [Function.comp]; split_ifs <;> rfl)]

/-- Every door told keeps the places of the nodes. -/
theorem everyDoor_keys (d : Device) (f) : (d.everyDoor f).nodes.map (fun p => p.1) = d.nodes.map (fun p => p.1) := by
  unfold Device.everyDoor
  exact foldl_leaves _ (fun d => d.nodes.map (fun p => p.1)) (fun _ _ => doorEvent_keys _ _ _) _ _

/-- A change of a mode that every door is told of. -/
theorem told_one {d : Device} (pin : Pin) (before after : HouseModes) (cause : HouseCause) (hr : d.doorsReachable) (u : Device) (w : Walker)
    (hu : u = ((d.latch .houseChange).notable (.house before after cause)).everyDoor (modeOutcome pin (match pin with | .fire => after.fire | .storm => after.storm) d.clock.minute)) :
    Device.modeTold { d with walker := w } { u with walker := w } pin before after cause ∧ u.doorsReachable ∧ u.reports = d.reports ∧
        u.clock = d.clock ∧ u.fire = d.fire ∧ u.storm = d.storm ∧ u.walker = d.walker ∧ u.resetHeld = d.resetHeld := by
  obtain ⟨d1, hd1⟩ : ∃ d1, d1 = (d.latch .houseChange).notable (.house before after cause) := ⟨_, rfl⟩
  rw [← hd1] at hu
  have e1 : d1 =
      { d with regs := { d.regs with status := d.regs.status ||| 512 }, journal := (d.notable (.house before after cause)).journal } := by
    rw [hd1]; simp only [Device.notable, Device.record, Device.latch]; rfl
  have hr1 : d1.doorsReachable := by rw [e1]; exact hr
  let F := modeOutcome pin (match (generalizing := false) pin with | .fire => after.fire | .storm => after.storm) d.clock.minute
  let o : Nat → DoorOut := fun key => match Table.find key d.nodes with
    | some n => match n.door with
      | some r => F n r
      | none => .same placeholderDoor
    | none => .same placeholderDoor
  have ho : ∀ key n r, Table.find key d.nodes = some n → n.door = some r → o key = F n r := by
    intro key n r h1 h2; simp only [o, h1, h2]
  obtain ⟨a, b⟩ := everyDoor_moved (d := d1) F o (Device.notable { d with walker := w } (.house before after cause)) hr1 (by
    intro key n r h1 h2
    rw [e1] at h1
    rw [ho key n r h1 h2]
    exact ⟨rfl, (modeOutcome_gives _ _ _ _ _).2⟩) (by rw [e1]; rfl) (by rw [e1]; rfl)
  rw [show d1.everyDoor F = u from hu.symm] at a b
  refine ⟨⟨o, ?_, ?_, ?_⟩, ?_, ?_, ?_, ?_, ?_, ?_, ?_⟩
  · intro key n r h1 h2
    rw [ho key n r h1 h2]; exact (modeOutcome_gives _ _ _ _ _).1
  · obtain ⟨x, y, z⟩ := a
    rw [e1] at x y z
    exact ⟨x, y, z⟩
  · rw [b, e1]
  · obtain ⟨x, y, z⟩ := a
    refine ⟨?_, ?_⟩
    · have : u.nodes.map (fun p => p.1) = d1.nodes.map (fun p => p.1) := by
        rw [hu]; exact everyDoor_keys d1 F
      rw [Table.wf_iff]
      have hw := hr1.1
      rw [Table.wf_iff] at hw
      have : (u.nodes.map (fun p => p.1)).Pairwise (fun a b => a < b) := by rw [this, List.pairwise_map]; exact hw
      rwa [List.pairwise_map] at this
    · intro key n hf hd ho
      rw [x] at hf
      obtain ⟨m, hm, hn⟩ := Option.map_eq_some_iff.1 hf
      subst hn
      have := hr1.2 key m hm (by simpa using hd) ho
      unfold Device.segment at this ⊢
      rw [y]
      have g : ∀ (ps : Table Node) (gs : List Segment), ((ps.foldl (fun gs p =>
        if p.2.door.isSome && !p.2.state.isOut then placedFor gs p.1 (o p.1).commands else gs) gs).getD (key / 256)
            Segment.initial).isDisabled = (gs.getD (key / 256) Segment.initial).isDisabled := by
        intro ps
        induction ps with
        | nil => intro gs; rfl
        | cons p r ih => intro gs; simp only [List.foldl_cons]; rw [ih]; split_ifs <;> [exact placedFor_isDisabled _ _ _ _; rfl]
      rw [g]; exact this
  all_goals rw [b, e1]

/-- The end of storm, of which no door is told anything. -/
theorem told_plain {d : Device} (pin : Pin) (before after : HouseModes) (cause : HouseCause) (w : Walker)
    (hf : pin = .storm ∧ after.storm = false) (u : Device) (hu : u = ((d.latch .houseChange).notable (.house before after cause))) :
    Device.modeTold { d with walker := w } { u with walker := w } pin before after cause := by
  obtain ⟨rfl, hf⟩ := hf
  let o : Nat → DoorOut := fun key => match Table.find key d.nodes with
    | some n => match n.door with
      | some r => .same r
      | none => .same placeholderDoor
    | none => .same placeholderDoor
  have oc : ∀ k, (o k).commands = [] := by intro k; simp only [o]; (repeat' split) <;> rfl
  have oe : ∀ k, (o k).events = [] := by intro k; simp only [o]; (repeat' split) <;> rfl
  refine ⟨o, ?_, ⟨?_, ?_, ?_⟩, ?_⟩
  · intro key n r h1 h2
    simp only [hf, Door.modeGives]
    simp only [o]; rw [show Table.find key d.nodes = some n from h1]; simp only [h2]; rfl
  · intro key
    rw [hu]
    show Table.find key d.nodes = (Table.find key d.nodes).map _
    cases h : Table.find key d.nodes with
    | none => rfl
    | some n =>
      simp only [Option.map_some, o, h]
      cases hn : n.door with
      | none => cases n; simp_all
      | some r => cases n; simp_all [DoorOut.same]
  · rw [hu]
    show d.segments = List.foldl _ d.segments d.nodes
    have : ∀ (ps : Table Node) gs, ps.foldl (fun gs p => if p.2.door.isSome && !p.2.state.isOut then placedFor gs p.1 (o p.1).commands else
        gs) gs = gs := by
      intro ps; induction ps with
      | nil => intro gs; rfl
      | cons p r ih => intro gs; simp only [List.foldl_cons, oc]; rw [show placedFor gs p.1 [] = gs from rfl, ite_self]; simpa [oc,
          placedFor] using ih gs
    exact (this _ _).symm
  · rw [hu]
    have : ∀ (ps : Table Node) (x : Device), ps.foldl (fun (x : Device) p => if p.2.door.isSome then (o p.1).events.foldl (fun (y : Device)
        e =>
        y.record (.door p.1 e (o p.1).door.state) {} (if e = .holdEnd then .routine else .notable)) x else x) x = x := by
      intro ps; induction ps with
      | nil => intro gs; rfl
      | cons p r ih => intro gs; simp only [List.foldl_cons, oe, List.foldl_nil, ite_self]; simpa [oe] using ih gs
    rw [this]; rfl
  · rw [hu]; rfl

/-- A change of a mode as it is handed on. -/
def modeHandedOn (d : Device) (pin : Pin) (before after : HouseModes) (cause : HouseCause) : Device :=
  match pin with
  | .fire => ((d.latch .houseChange).notable (.house before after cause)).doorsOnFire after.fire
  | .storm => ((d.latch .houseChange).notable (.house before after cause)).doorsOnStorm after.storm

/-- What handing on a change of a mode does. -/
theorem modeHandedOn_told {d : Device} (pin : Pin) (before after : HouseModes) (cause : HouseCause) (w : Walker) (hr : d.doorsReachable) :
    Device.modeTold { d with walker := w } { modeHandedOn d pin before after cause with walker := w } pin before after cause ∧ (modeHandedOn d pin before
        after cause).doorsReachable
    ∧ (modeHandedOn d pin before after cause).reports = d.reports ∧ (modeHandedOn d pin before after cause).clock = d.clock ∧ (modeHandedOn d pin before after
        cause).fire = d.fire
    ∧ (modeHandedOn d pin before after cause).storm = d.storm ∧ (modeHandedOn d pin before after cause).walker = d.walker ∧ (modeHandedOn d pin before after
        cause).resetHeld = d.resetHeld := by
  cases pin with
  | fire =>
    refine told_one .fire before after cause hr _ w ?_
    unfold modeHandedOn Device.doorsOnFire
    cases h : after.fire
    · simp only [Bool.false_eq_true, if_false]; rfl
    · simp only [if_true]; rfl
  | storm =>
    cases h : after.storm with
    | true =>
      refine told_one .storm before after cause hr _ w ?_
      unfold modeHandedOn Device.doorsOnStorm
      simp only [h, if_true]; rfl
    | false =>
      have e : modeHandedOn d .storm before after cause = (d.latch .houseChange).notable (.house before after cause) := by
        unfold modeHandedOn Device.doorsOnStorm; simp [h]
      rw [e]
      exact ⟨told_plain .storm before after cause w ⟨rfl, h⟩ _ rfl, hr, rfl, rfl, rfl, rfl, rfl, rfl⟩

/-- The changes of both modes are handed on, fire first. -/
theorem houseChanges_handedOn (d : Device) (before : HouseModes) (cause : HouseCause) (h : d.resetHeld = none) :
    d.houseChanges before cause =
      let d1 := if before.fire = d.fire.active then d else modeHandedOn d .fire before { before with fire := d.fire.active } cause
      if before.storm = d.storm.active then d1 else modeHandedOn d1 .storm { before with fire := d.fire.active }
          { fire := d.fire.active, storm := d.storm.active } cause := by
  unfold Device.houseChanges
  simp only [h, Option.isSome_none, Bool.false_eq_true, if_false]
  rfl

end Sys2Proof.Machine
end

