-- ==== Sys2Proof/Laws/Ports.lean ====
section
/-! SUPPORT. What the port's writes do: the held reset, the common area's limits, and the words a write run leaves in board memory. -/

namespace Sys2Proof.Machine

open Sys2Proof

/-- A register write while the reset is held changes nothing. -/
theorem Device.writeRegister_held {d : Device} (f) (h : d.resetHeld.isSome = true) : d.writeRegister f = d := by
  simp [Device.writeRegister, h]

/-- A register write outside a held reset is the write's own effect. -/
theorem Device.writeRegister_free {d : Device} (f) (h : d.resetHeld = none) : d.writeRegister f = f d := by simp [Device.writeRegister, h]

/-- A change that leaves the device leaves the state. -/
theorem State.onDevice_self (s : State) (f : Device → Device) (h : f s.dev = s.dev) : s.onDevice f = s := by
  unfold State.onDevice; rw [h]

/-- The outcome of a register write that touches neither reports nor journal. -/
theorem commit_writeRegister (s : State) (f : Device → Device) (h : s.dev.resetHeld = none) (hs : s.settled) (h1 : (f s.dev).reports =
    s.dev.reports) (h2 : (f s.dev).journal = s.dev.journal) :
  commit s (fun t => t.onDevice (fun d => d.writeRegister f)) = .next (s.onDevice f) := by
  rw [commit_of_journal_eq]
  · simp [State.onDevice, Device.writeRegister_free _ h]
  · simp only [State.onDevice_dev, Device.writeRegister_free _ h, h1]; exact hs
  · simp only [State.onDevice_dev, Device.writeRegister_free _ h, h2]

/-- Everything a write to CONTROL can do: nothing while the reset is held, and otherwise ALERT_ENABLE from bit 0, with a soft reset behind it
where bit 1 is 1. -/
theorem State.writeControl_cases (s : State) (value : Word) (p : PortProgress) :
    (s.dev.resetHeld.isSome = true ∧ s.writeControl value p = s)
      ∨ (s.dev.resetHeld = none ∧ value.getLsbD 1 = false
        ∧ s.writeControl value p = s.onDevice (fun d => d.writeAlertEnable (value.getLsbD 0)))
      ∨ (s.dev.resetHeld = none ∧ value.getLsbD 1 = true
        ∧ s.writeControl value p
          = (((s.onDevice (fun d => d.writeAlertEnable (value.getLsbD 0))).acceptUpTo p).onDevice Device.softReset)) := by
  unfold State.writeControl controlReset controlEnable
  cases h : s.dev.resetHeld with
  | some m => exact .inl ⟨rfl, rfl⟩
  | none =>
    cases hb : value.getLsbD 1 with
    | false => exact .inr (.inl ⟨rfl, rfl, rfl⟩)
    | true => exact .inr (.inr ⟨rfl, rfl, rfl⟩)

/-- The reset of credentials, rooms and nodes does not see ALERT_ENABLE. -/
theorem Device.resetRunning_writeAlertEnable (d : Device) (enable : Bool) :
    (d.writeAlertEnable enable).resetRunning = d.resetRunning.writeAlertEnable enable := by
  have one : ∀ (d : Device) (k : Nat), (d.writeAlertEnable enable).freeAtReset k = (d.freeAtReset k).writeAlertEnable enable := by
    intro d k
    unfold Device.freeAtReset
    simp only [Device.writeAlertEnable_creds]
    split
    · rfl
    · unfold Device.freeEntry
      dsimp only
      split_ifs <;> rfl
  have all : ∀ (ks : List Nat) (d : Device),
      ks.foldl Device.freeAtReset (d.writeAlertEnable enable) = (ks.foldl Device.freeAtReset d).writeAlertEnable enable := by
    intro ks
    induction ks with
    | nil => intro d; rfl
    | cons k rest ih => intro d; simp only [List.foldl_cons]; rw [one, ih]
  unfold Device.resetRunning Device.resetCredentials
  dsimp only [Device.writeAlertEnable_creds]
  rw [all]
  rfl
/-- Where a block may stand, in numbers. -/
theorem Registers.placeOk_iff (r : Registers) (b : Word) : r.placeOk b = true ↔ ¬ (b.toNat % 16 ≠ 0 ∨ b.toNat < r.commonBase.toNat + 512 ∨
    r.commonBase.toNat + r.commonSize.toNat * 4096 ≤ b.toNat) := by
  simp [Registers.placeOk, Registers.inside]; omega

/-- How large a block may be, in numbers. -/
theorem Registers.sizeOk_iff (r : Registers) (b w : Word) (h : r.placeOk b = true) : r.sizeOk b w = true ↔ ¬ (w.toNat < 6 ∨ 64 < w.toNat ∨
    r.commonBase.toNat + r.commonSize.toNat * 4096 < b.toNat + 4 * w.toNat) := by
  rw [Registers.placeOk_iff] at h
  simp [Registers.sizeOk, Registers.inside]; omega

/-- A sum that stays in the address space does not wrap. -/
theorem Word.toNat_add_small (a : Word) (k : Nat) (h : a.toNat + k < 4294967296) : (a + BitVec.ofNat 32 k).toNat = a.toNat + k := by
  rw [BitVec.toNat_add, BitVec.toNat_ofNat]; omega

/-- What a byte reads after a word is written below the top of the address space. -/
theorem Memory.read_writeWord_small (mem : Table Byte) (a w : Word) (h : a.toNat + 3 < 4294967296) (x : Nat) :
    Memory.read (Memory.writeWord mem { addr := a, data := w }) x =
     if x = a.toNat + 3 then some (w.extractLsb' 24 8) else if x = a.toNat + 2 then some (w.extractLsb' 16 8)
     else if x = a.toNat + 1 then some (w.extractLsb' 8 8) else if x = a.toNat then some (w.extractLsb' 0 8) else Memory.read mem x := by
  rw [Memory.read_writeWord]
  have h3 := Word.toNat_add_small a 3 (by omega)
  have h2 := Word.toNat_add_small a 2 (by omega)
  have h1 := Word.toNat_add_small a 1 (by omega)
  simp only
  rw [show (a + 3 : Word) = a + BitVec.ofNat 32 3 from rfl, show (a + 2 : Word) = a + BitVec.ofNat 32 2 from rfl, show (a + 1 : Word) = a +
      BitVec.ofNat 32 1 from rfl, h3, h2, h1]

/-- A written word is held, high byte first. -/
theorem Memory.holdsWord_writeWord (mem : Table Byte) (a w : Word) (h : a.toNat + 3 < 4294967296) :
    Memory.holdsWord (Memory.writeWord mem { addr := a, data := w }) a.toNat w := by
  unfold Memory.holdsWord
  simp [Memory.read_writeWord_small mem a w h]

/-- A run of words written from an address: every word is held, every other byte as before. -/
theorem Memory.accept_writesFrom (a : Word) (ws : List Word) (mem : Table Byte) (h : a.toNat + 4 * ws.length ≤ 4294967296) :
   (∀ x, ¬ (a.toNat ≤ x ∧ x < a.toNat + 4 * ws.length) → Memory.read (Memory.accept mem (writesFrom a ws)) x = Memory.read mem x) ∧
   ∀ i, ∀ hi : i < ws.length, Memory.holdsWord (Memory.accept mem (writesFrom a ws)) (a.toNat + 4 * i) (ws[i]'hi) := by
  induction ws generalizing a mem with
  | nil => simp [writesFrom]
  | cons w rest ih =>
    simp only [List.length_cons] at h
    rw [writesFrom, Memory.accept_cons]
    by_cases h4 : a.toNat + 4 = 4294967296
    · have hr : rest = [] := by
        cases rest with
        | nil => rfl
        | cons _ _ => simp at h; omega
      subst hr
      simp only [writesFrom, Memory.accept_nil]
      constructor
      · intro x hx
        simp at hx
        rw [Memory.read_writeWord_small _ _ _ (by omega)]
        rw [if_neg (by omega), if_neg (by omega), if_neg (by omega), if_neg (by omega)]
      · intro i hi
        simp at hi; subst hi
        exact Memory.holdsWord_writeWord _ _ _ (by omega)
    · have ha := Word.toNat_add_small a 4 (by omega)
      have ha' : (a + 4).toNat = a.toNat + 4 := ha
      obtain ⟨i1, i2⟩ := ih (a + 4) (Memory.writeWord mem { addr := a, data := w }) (by rw [ha']; omega)
      rw [ha'] at i1 i2
      constructor
      · intro x hx
        simp only [List.length_cons] at hx
        rw [i1 x (by omega), Memory.read_writeWord_small _ _ _ (by omega)]
        rw [if_neg (by omega), if_neg (by omega), if_neg (by omega), if_neg (by omega)]
      · intro i hi
        cases i with
        | zero =>
          have := Memory.holdsWord_writeWord mem a w (by omega)
          unfold Memory.holdsWord at *
          simp only [Nat.mul_zero, Nat.add_zero, List.getElem_cons_zero]
          rw [i1 _ (by omega), i1 _ (by omega), i1 _ (by omega), i1 _ (by omega)]
          exact this
        | succ j =>
          have := i2 j (by simpa using hi)
          rw [show a.toNat + 4 * (j + 1) = a.toNat + 4 + 4 * j by omega]
          simpa using this

/-- A word is held where its four bytes are the same. -/
theorem Memory.holdsWord_same {m m' : Table Byte} {a : Nat} {w : Word} (h : Memory.holdsWord m a w) (e : ∀ x, a ≤ x → x < a + 4 →
    Memory.read m' x = Memory.read m x) : Memory.holdsWord m' a w := by
  unfold Memory.holdsWord at *
  rw [e _ (by omega) (by omega), e _ (by omega) (by omega), e _ (by omega) (by omega), e _ (by omega) (by omega)]
  exact h

/-- What the completing writes of a block leave in board memory. -/
theorem Memory.accept_doneWrites (mem : Table Byte) (b : Word) (x y : Word) (hb : b.toNat + 256 ≤ 4294967296) :
   let after := Memory.accept mem [{ addr := b + 16, data := x }, { addr := b + 12, data := y }]
   Memory.holdsWord after (b.toNat + 12) y ∧ Memory.holdsWord after (b.toNat + 16) x ∧
   ∀ a, ¬ (b.toNat + 12 ≤ a ∧ a < b.toNat + 20) → Memory.read after a = Memory.read mem a := by
  have h16 : (b + 16).toNat = b.toNat + 16 := Word.toNat_add_small b 16 (by omega)
  have h12 : (b + 12).toNat = b.toNat + 12 := Word.toNat_add_small b 12 (by omega)
  intro after
  have e : after = Memory.writeWord (Memory.writeWord mem { addr := b + 16, data := x }) { addr := b + 12, data := y } := rfl
  rw [e]
  refine ⟨?_, ?_, ?_⟩
  · have := Memory.holdsWord_writeWord (Memory.writeWord mem { addr := b + 16, data := x }) (b+12) y (by omega)
    rwa [h12] at this
  · have := Memory.holdsWord_writeWord mem (b+16) x (by omega)
    rw [h16] at this
    refine Memory.holdsWord_same this ?_
    intro z h1 h2
    rw [Memory.read_writeWord_small _ _ _ (by omega), if_neg (by omega), if_neg (by omega), if_neg (by omega), if_neg (by omega)]
  · intro a ha
    rw [Memory.read_writeWord_small _ _ _ (by omega), if_neg (by omega), if_neg (by omega), if_neg (by omega), if_neg (by omega)]
    rw [Memory.read_writeWord_small _ _ _ (by omega), if_neg (by omega), if_neg (by omega), if_neg (by omega), if_neg (by omega)]

/-- Latching nothing changes nothing. -/
theorem Device.status_or_zero (d : Device) : ({ d with regs := { d.regs with status := d.regs.status ||| 0 } } : Device) = d := by
  simp

end Sys2Proof.Machine
end

