-- ==== Sys2Proof/Laws/Pages.lean ====
section
/-! SUPPORT. What a publication leaves in board memory: each word at its offset, every byte elsewhere as before, and the fields within the
words. -/

namespace Sys2Proof.Machine

open Sys2Proof

/-- A byte of a word that board memory holds. -/
theorem Memory.read_of_holdsWord {mem : Table Byte} {a : Nat} {w : Word} (h : Memory.holdsWord mem a w) (k : Nat) (hk : k < 4) :
    Memory.read mem (a + k) = some (BitVec.ofNat 8 (w.toNat / 256 ^ k)) := by
  obtain ⟨h0, h1, h2, h3⟩ := h
  have key : ∀ i : Nat, w.extractLsb' (8 * i) 8 = BitVec.ofNat 8 (w.toNat / 256 ^ i) := fun i => by
    apply BitVec.eq_of_toNat_eq
    rw [BitVec.extractLsb'_toNat, BitVec.toNat_ofNat, Nat.shiftRight_eq_div_pow, Nat.pow_mul]
  match k, hk with
  | 0, _ => exact h0.trans (congrArg some (key 0))
  | 1, _ => exact h1.trans (congrArg some (key 1))
  | 2, _ => exact h2.trans (congrArg some (key 2))
  | 3, _ => exact h3.trans (congrArg some (key 3))

/-- Words written at offsets from a base, rising and on word boundaries, below the top of the address space. -/
theorem Memory.accept_offsets (a : Word) (f : Nat → Word) (offs : List Nat) (mem : Table Byte) (ha : a.toNat + 256 ≤ 4294967296)
    (ho : offs.Pairwise (fun x y => x < y)) (hm : ∀ o ∈ offs, o % 4 = 0 ∧ o < 256) :
    (∀ o ∈ offs, Memory.holdsWord (Memory.accept mem (offs.map (fun o => { addr := a + natWord o, data := f o }))) (a.toNat + o) (f o)) ∧
    ∀ x, (∀ o ∈ offs, ¬ (a.toNat + o ≤ x ∧ x < a.toNat + o + 4)) →
      Memory.read (Memory.accept mem (offs.map (fun o => { addr := a + natWord o, data := f o }))) x = Memory.read mem x := by
  induction offs generalizing mem with
  | nil => exact ⟨fun o h => (by cases h), fun x _ => rfl⟩
  | cons o rest ih =>
    obtain ⟨hlt, hrest⟩ := List.pairwise_cons.1 ho
    obtain ⟨ho4, ho256⟩ := hm o (List.mem_cons_self ..)
    have hadd : (a + natWord o).toNat = a.toNat + o := Word.toNat_add_small a o (by omega)
    rw [List.map_cons, Memory.accept_cons]
    obtain ⟨i1, i2⟩ := ih (Memory.writeWord mem { addr := a + natWord o, data := f o }) hrest
      (fun q hq => hm q (List.mem_cons_of_mem _ hq))
    refine ⟨fun q hq => ?_, fun x hx => ?_⟩
    · rcases List.mem_cons.1 hq with rfl | hq
      · have := Memory.holdsWord_writeWord mem (a + natWord q) (f q) (by omega)
        rw [hadd] at this
        refine Memory.holdsWord_same this fun z h1 h2 => i2 z fun p hp => ?_
        have := hlt p hp
        have := (hm p (List.mem_cons_of_mem _ hp)).1
        omega
      · exact i1 q hq
    · rw [i2 x (fun p hp => hx p (List.mem_cons_of_mem _ hp))]
      have := hx o (List.mem_cons_self ..)
      rw [Memory.read_writeWord_small _ _ _ (by omega), hadd, if_neg (by omega), if_neg (by omega), if_neg (by omega), if_neg (by omega)]

/-- The offsets of a whole publication. -/
theorem Device.mem_pageOffsets (d : Device) (o : Nat) :
    o ∈ d.pageOffsets ↔ (o % 4 = 0 ∧ o < 256) ∧ (d.journal.region.isSome = true ∨ (o ≠ 0 ∧ o ≠ 4 ∧ o ≠ 24)) := by
  unfold Device.pageOffsets
  simp only [List.mem_filter, List.mem_map, List.mem_range, Bool.or_eq_true, Bool.and_eq_true, decide_eq_true_eq, and_assoc]
  constructor
  · rintro ⟨⟨i, hi, rfl⟩, h⟩
    exact ⟨by omega, by omega, h⟩
  · rintro ⟨h1, h2, h⟩
    exact ⟨⟨o / 4, by omega, by omega⟩, h⟩

/-- The offsets of a whole publication rise. -/
theorem Device.pageOffsets_rise (d : Device) : d.pageOffsets.Pairwise (fun x y => x < y) := by
  unfold Device.pageOffsets
  refine List.Pairwise.filter _ (List.pairwise_map.2 ?_)
  exact List.pairwise_lt_range.imp (fun h => by omega)

/-- A whole publication accepted: each word at its offset, every other byte as before. -/
theorem Device.accept_pageWrites (d : Device) (mem : Table Byte) (ha : d.regs.commonBase.toNat + 256 ≤ 4294967296)
    (hs : d.regs.commonSize ≠ 0) :
    (∀ o ∈ d.pageOffsets, Memory.holdsWord (Memory.accept mem d.pageWrites) (d.regs.commonBase.toNat + o) (d.pageWord o)) ∧
    ∀ x, (∀ o ∈ d.pageOffsets, ¬ (d.regs.commonBase.toNat + o ≤ x ∧ x < d.regs.commonBase.toNat + o + 4)) →
      Memory.read (Memory.accept mem d.pageWrites) x = Memory.read mem x := by
  unfold Device.pageWrites
  rw [if_neg hs]
  exact Memory.accept_offsets _ _ _ _ ha d.pageOffsets_rise (fun o h => ((d.mem_pageOffsets o).1 h).1)

/-- W and the next sequence number published: two words, every other byte as before. -/
theorem Device.accept_markWrites (d : Device) (mem : Table Byte) (ha : d.regs.commonBase.toNat + 256 ≤ 4294967296)
    (hs : d.regs.commonSize ≠ 0) :
    (∀ o, o = 0 ∨ o = 4 →
      Memory.holdsWord (Memory.accept mem d.markWrites) (d.regs.commonBase.toNat + o) (d.pageWord o)) ∧
    ∀ x, x < d.regs.commonBase.toNat ∨ d.regs.commonBase.toNat + 8 ≤ x →
      Memory.read (Memory.accept mem d.markWrites) x = Memory.read mem x := by
  unfold Device.markWrites
  rw [if_neg hs]
  obtain ⟨h1, h2⟩ := Memory.accept_offsets d.regs.commonBase d.pageWord [0, 4] mem ha (by decide) (by decide)
  refine ⟨fun o ho => h1 o (by rcases ho with rfl | rfl <;> simp), fun x hx => h2 x fun o ho => ?_⟩
  simp only [List.mem_cons, List.not_mem_nil, or_false] at ho
  omega

end Sys2Proof.Machine
end

