-- ==== Sys2Proof/WellFormed.lean ====
section
/-! DEFINITION. Which terms of `Instr` are commands of the table: the operand lists have the lengths their rules give, segments,
addresses and rooms of events are in range, and a row that names one value of a word carries a word it covers. The parameter words
of an order are not restricted: a host may place any word, and the order's own rule judges it. -/

namespace Sys2Proof

/-- A node of the field line: segment 0 to 7, address 1 to 120 (R140). -/
def nodeInRange (seg addr : Nat) : Bool :=
  decide (seg < 8) && decide (1 ≤ addr) && decide (addr ≤ 120)

/-- `Instr.wf i`: the term `i` is a command of the table. -/
def Instr.wf : Instr → Bool
  | .powerOn _ _ => true
  | .boardReset _ => true
  | .resetNRelease => true
  | .softReset value _ => value.getLsbD 1
  | .alertEnable value => !value.getLsbD 1
  | .registerWrite _ => true
  | .commonBase _ => true
  | .commonSize _ => true
  | .chainHeadStart value => decide (value ≠ 0)
  | .chainHeadAbort => true
  | .statusClear _ => true
  | .blockCheck _ _ => true
  | .linkReread _ => true
  | .settlementWrite => true
  | .memoryError _ _ => true
  | .setup p _ => decide (p.segments.length = 8)
  | .setClock _ _ => true
  | .houseMode _ _ => true
  | .issueCard _ _ _ _ _ _ _ _ _ => true
  | .revokeCard _ _ => true
  | .extendCard _ _ => true
  | .suspendCard _ => true
  | .resumeCard _ => true
  | .readCard _ => true
  | .defineRoom _ _ _ _ _ _ _ _ _ => true
  | .checkIn _ _ _ => true
  | .checkOut _ => true
  | .setRoomState _ _ => true
  | .readRoom _ => true
  | .doorCommandRelease _ _ action _ => decide (action ≠ 2) && decide (action ≠ 3)
  | .doorCommandRelock _ _ action _ => decide (action = 2)
  | .doorCommandHold _ _ action _ => decide (action = 3)
  | .clearAlarm _ _ => true
  | .setSlots _ slots => decide (slots.length = 12)
  | .postFolio _ _ => true
  | .setCeiling _ _ => true
  | .setTariff _ _ _ _ => true
  | .defineNode _ _ => true
  | .removeNode _ _ => true
  | .restoreNode _ _ => true
  | .readNode _ _ => true
  | .secondPulse => true
  | .minuteTick => true
  | .releaseTimerExpiry seg addr => nodeInRange seg addr
  | .heldTimerExpiry seg addr => nodeInRange seg addr
  | .alarmDelayExpiry seg addr => nodeInRange seg addr
  | .sessionLimit room => decide (room < 768)
  | .encodingTimeout seg addr => nodeInRange seg addr
  | .retryTimerExpiry seg addr => nodeInRange seg addr
  | .inputEdge _ _ => true
  | .inputSettled _ => true
  | .segmentTurn seg => decide (seg < 8)
  | .miss seg _ _ => decide (seg < 8)
  | .strayFrame seg _ => decide (seg < 8)
  | .nothing seg _ => decide (seg < 8)
  | .present seg _ _ _ => decide (seg < 8)
  | .contact seg _ _ _ => decide (seg < 8)
  | .tally seg _ _ _ pairs => decide (seg < 8) && decide (pairs.length = 6)
  | .button seg _ _ _ => decide (seg < 8)
  | .encResult seg _ _ _ => decide (seg < 8)
  | .placementComplete => true
  | .readMarkReread _ => true

end Sys2Proof
end

