-- ==== Sys2Proof/Tests/Slice0.lean ====
section
/-! SUPPORT. Tests: ill-formed terms refused, worked cases with the manual's own figures, and for each statement a concrete state and
operands that meet its hypotheses, clause by clause (`witness_` and the statement's name). -/

namespace Sys2Proof.Tests

open Sys2Proof Sys2Proof.Machine

/-! ## A small property to test on -/

/-- The state that a command answers. -/
def after (o : Host.Outcome State Fault Refusal) : State :=
  match o with
  | .next t => t
  | .fault _ => State.reset
  | .refused _ => State.reset

/-- Room door settings: own room and all rooms admitted, no hours, ON_CLOSE, forced LATCH, held REPORT. -/
def settings : DoorSettings :=
  { admitSet := 0x41, hoursOpen := 0, hoursClose := 0, relock := .onClose, releaseTime := 5, heldLimit := 60, forcedMode := .latch
    forcedDelay := .short, heldMode := .report, heldDelay := .short }

/-- A door at rest, its leaf closed. -/
def lockedDoor : Door :=
  { settings := settings, state := .locked, contact := .closed, releaseTimer := none, heldTimer := none, delayTimer := none
    forcedLatch := false, heldLatch := false, holdEnd := none, savedEnd := none, holdUnsent := false }

/-- The same door in another state. -/
def doorIn (state : DoorState) : Door :=
  { lockedDoor with state := state }

/-- A node ONLINE, bound to room 214, last heard with sequence 4. -/
def nodeOf (kind : NodeKind) (door : Option Door) : Node :=
  { kind := kind, service := 1, room := 214, faultMode := .latch, faultDelay := .short, deglitch := 3, state := .online, misses := 0
    lastSeq := some 4, passOver := 0, retries := 0, retryTimer := none, onProbe := false, faultOpen := false, owedAck := none
    lastVerdict := none, lastTally := none, door := door }

/-- Twelve slots: three of the worked case of section 6.6, the others EMPTY. -/
def slots : List Slot :=
  [{ item := none, capacity := 15, baseline := 0 }, { item := none, capacity := 15, baseline := 0 },
    { item := some 12, capacity := 8, baseline := 6 }, { item := none, capacity := 15, baseline := 0 },
    { item := none, capacity := 15, baseline := 0 }, { item := none, capacity := 15, baseline := 0 },
    { item := some 30, capacity := 8, baseline := 4 }, { item := none, capacity := 15, baseline := 0 },
    { item := some 41, capacity := 8, baseline := 4 }, { item := none, capacity := 15, baseline := 0 },
    { item := none, capacity := 15, baseline := 0 }, { item := none, capacity := 15, baseline := 0 }]

/-- A room without links, its folio at 2,000 of 10,000. -/
def roomIn (state : RoomState) : Room :=
  { code := 214, state := state, stayOpen := decide (state = .occupied), dnd := false, doorLink := none, barLink := none, grace := 120
    guestCount := 1, lastButton := none, defaultCeiling := 10000, openFloor := 1500, balance := 2000, ceiling := 10000, unposted := 0
    slots := slots, bar := .locked, unsettled := false, orphan := false, session := none, unlatchPending := false }

/-- Room 214, linked to its door (2, 14) and its minibar (2, 15). -/
def room214 : Room :=
  { roomIn .occupied with doorLink := some 526, barLink := some 527 }

/-- Room 300 with a guest session open at its minibar (3, 15). -/
def room300 : Room :=
  { roomIn .occupied with barLink := some 783, bar := .guestOpen, session := some { count := 5, due := false }, unlatchPending := true }

/-- A guest's entry for room 214 with OWN_ROOM and MINIBAR. -/
def entry (state : EntryState) : Entry :=
  { kind := .guest, room := 214, issueMinute := 100, validFrom := 100, validUntil := 5000, privileges := 0x3, state := state
    deniedBefore := false, tag := 40 }

/-- The image of the card of serial 7, as the device built it. -/
def image7 : CardImage :=
  buildImage 4217 7 .guest 214 100

/-- An issue of serial 9 at the encoder. -/
def issue9 : Issue :=
  { serial := 9, block := 0x20001100, image := buildImage 4217 9 .guest 214 100, supersede := false }

/-- The encoder writing the card of serial 9. -/
def writing9 : Encoder :=
  { current := some { issue := issue9, timer := some { count := 3, due := false }, job := 0 }, waiting := [], lastResult := none }

/-- The tariff of section 6.6: water, nuts and beer. -/
def tariff : Tariff :=
  { items := List.replicate 12 { price := 0, taxClass := 0 } ++ [{ price := 450, taxClass := 0 }]
      ++ List.replicate 17 { price := 0, taxClass := 0 } ++ [{ price := 725, taxClass := 1 }]
      ++ List.replicate 10 { price := 0, taxClass := 0 } ++ [{ price := 980, taxClass := 1 }]
      ++ List.replicate 22 { price := 0, taxClass := 0 }
    rates := [1000, 1250, 0, 3000] }

/-- A segment set up and quiet. -/
def segment : Segment :=
  { Segment.initial with settings := some { enabled := true, mode := .priority, timeout := 10 } }

/-- A property with two rooms more than room 214, one node of each of four kinds, and three cards. -/
def property : Device :=
  { Device.initial .low .low with
    regs := { commonBase := 0x20000000, commonSize := 256, status := 0, alertMask := 0x3ff, alertEnable := true }
    walker := { (Device.initial .low .low).walker with established := true }
    creds := { entries := [(7, entry .active), (8, { entry .suspended with kind := .staff }), (9, entry .encoding)], deny := [5]
               encoders := [(259, writing9)], propertyCode := some 4217, encodingTimeout := some 30, nextJob := 1 }
    rooms := [(1, roomIn .vacant), (214, room214), (300, room300)]
    nodes := [(8, nodeOf .commonDoor (some lockedDoor)), (259, nodeOf .encoder none), (526, nodeOf .roomDoor (some lockedDoor)),
      (527, nodeOf .minibar none), (783, { nodeOf .minibar none with room := 300 })]
    segments := List.replicate 8 segment
    tariff := tariff
    sessionLimit := some 10
    journal := { Journal.initial with
      region := some { start := 65536, stop := 327680 }, lastRegion := some { start := 65536, stop := 327680 }, drain := .idle
      reserved := 1 }
    clock := { minute := 1000, second := 0, valid := true, tickDue := false }
    fire := { House.initial .low with settled := some .low, settling := false }
    storm := { House.initial .low with settled := some .low, settling := false } }

/-- The property with no command waiting. -/
def atRest : State :=
  { pending := [], dev := property, mem := [] }

/-- The property with one part of the device changed. -/
def onDev (f : Device → Device) : State :=
  { atRest with dev := f property }

/-- The property with a block in hand at a phase. -/
def walking (phase : WalkPhase) (abort : Bool) : State :=
  onDev (fun d => { d with walker := { d.walker with walk := .walking 0x20001000 abort phase } })

/-- A device with an order handed to its owner. -/
def handing (k : OrderKind) (d : Device) : Device :=
  { d with walker := { d.walker with walk := .walking 0x20001000 false (.handed k 77) } }

/-- The property with an order handed to its owner. -/
def handed (k : OrderKind) : State :=
  onDev (handing k)

/-- The property with an order handed over and another node at a key. -/
def handedWith (k : OrderKind) (key : Nat) (n : Node) : State :=
  onDev (fun d => handing k { d with nodes := Table.put key n d.nodes })

/-- The property with another node at a key, and an exchange with it in progress that carries no command. -/
def exchanging (key : Nat) (n : Node) : State :=
  onDev (fun d => { d with
    nodes := Table.put key n d.nodes
    segments := d.segments.set (key / 256)
      { segment with exchange := some { addr := key % 256, carried := none, next := none, timeout := 10 } } })

/-- What holds of every row of a table holds of whatever is found in it. -/
theorem of_rows {α : Type} {t : Table α} {p : Nat → α → Prop} (h : ∀ q ∈ t, p q.1 q.2) (key : Nat) (x : α)
    (hf : Table.find key t = some x) : p key x :=
  h _ (Table.mem_of_find hf)

/-! ## Ill-formed terms are refused -/

/-- The parameters of a SETUP with so many segments. -/
def setupOf (segments : Nat) : SetupParams :=
  { propertyCode := 4217, journalStart := 65536, journalStop := 327680, threshold := 1000
    segments := List.replicate segments { enabled := 1, mode := 0, timeout := 0 }, encodingTimeout := 0, sessionLimit := 0, fireSense := 3
    stormSense := 1 }

theorem test_wf_chain_head : Instr.wf (.chainHeadStart 0) = false ∧ Instr.wf (.chainHeadStart 1) = true := by decide

/-- A CONTROL word goes with the row that its bit 1 picks (R193). -/
theorem test_wf_control (p : PortProgress) :
    Instr.wf (.alertEnable 2) = false ∧ Instr.wf (.alertEnable 0xFFFFFFFD) = true
      ∧ Instr.wf (.softReset 0xFFFFFFFD p) = false ∧ Instr.wf (.softReset 2 p) = true := ⟨rfl, rfl, rfl, rfl⟩

theorem test_wf_setup : Instr.wf (.setup (setupOf 7) none) = false ∧ Instr.wf (.setup (setupOf 8) none) = true := by decide

theorem test_wf_door_action :
    Instr.wf (.doorCommandRelease 0 1 2 0) = false ∧ Instr.wf (.doorCommandRelease 0 1 3 0) = false
      ∧ Instr.wf (.doorCommandRelock 0 1 1 0) = false ∧ Instr.wf (.doorCommandHold 0 1 2 0) = false
      ∧ Instr.wf (.doorCommandRelease 0 1 1 0) = true := by decide

theorem test_wf_slots : Instr.wf (.setSlots 0 (List.replicate 11 (0, 1))) = false ∧ Instr.wf (.setSlots 0 (List.replicate 12 (0, 1))) = true :=
  by decide

theorem test_wf_timers :
    Instr.wf (.releaseTimerExpiry 8 1) = false ∧ Instr.wf (.heldTimerExpiry 0 0) = false ∧ Instr.wf (.alarmDelayExpiry 0 121) = false
      ∧ Instr.wf (.encodingTimeout 8 1) = false ∧ Instr.wf (.retryTimerExpiry 0 121) = false ∧ Instr.wf (.sessionLimit 768) = false
      ∧ Instr.wf (.retryTimerExpiry 7 120) = true := by decide

theorem test_wf_segment :
    Instr.wf (.segmentTurn 8) = false ∧ Instr.wf (.miss 8 none false) = false ∧ Instr.wf (.strayFrame 8 []) = false
      ∧ Instr.wf (.nothing 8 false) = false ∧ Instr.wf (.present 8 false 0 image7) = false ∧ Instr.wf (.contact 8 false 0 1) = false
      ∧ Instr.wf (.button 8 false 0 1) = false ∧ Instr.wf (.encResult 8 false 0 2) = false
      ∧ Instr.wf (.tally 8 false 0 1 (List.replicate 6 0)) = false := by decide

theorem test_wf_tally : Instr.wf (.tally 0 false 0 1 (List.replicate 5 0)) = false
    ∧ Instr.wf (.tally 7 false 0 1 (List.replicate 6 0)) = true := by decide

/-! ## Worked cases of the manual -/

/-- Section 1.3: the check word of the worked card is 10,368, and 5,630 under property code 65,000. -/
theorem test_check_word :
    checkWord 4217 (buildImage 4217 2000001 .guest 214 29000000) = 10368
      ∧ checkWord 65000 (buildImage 65000 2000001 .guest 214 29000000) = 5630 := by decide

/-- R108: 45 at 1,000 bp is taxed 5, 449 at 1,000 bp 45, and 3 at 1,250 bp 0. -/
theorem test_line_tax : lineTax 45 1000 = 5 ∧ lineTax 449 1000 = 45 ∧ lineTax 3 1250 = 0 := by decide

/-- Section 6.6: the three lines of the ordinary guest session, A = 703, posted 400, excess 303. -/
theorem test_ordinary_session :
    let lines := tariff.lines 1 (slots.zip [0, 0, 4, 0, 0, 0, 3, 0, 5, 0, 0, 0])
    lines = [{ slot := 3, item := some 12, delta := 2, amount := 990 }, { slot := 7, item := some 30, delta := 1, amount := 816 },
        { slot := 9, item := some 41, delta := -1, amount := 1103 }]
      ∧ settlementAmount lines = 703
      ∧ post 9600 10000 0 703 = { balance := 10000, unposted := 303, moved := 400, excess := 303, lost := 0, saturated := false } := by
  decide

/-- Section 6.7: saturation, and a credit larger than the folio. -/
theorem test_posting_limits :
    post 10000000 10000000 16000000 11700000
        = { balance := 10000000, unposted := 16777215, moved := 0, excess := 11700000, lost := 0, saturated := true }
      ∧ post 1000 10000 303 (-5000)
        = { balance := 0, unposted := 0, moved := 1303, excess := 0, lost := 3697, saturated := false } := by decide

/-- Section 6.7, lowering the ceiling: 9,000 of 10,000 with 500 unposted comes to 6,000 and 3,500. -/
theorem test_ceiling_lowered :
    let r := Room.withCeiling { roomIn .occupied with balance := 9000, unposted := 500 } 6000
    r.ceiling = 6000 ∧ r.balance = 6000 ∧ r.unposted = 3500 := by decide

/-- Section 7.9: a charge of 52 bytes placed at 4,040 of 4,096, then an ACCESS with a GAP, each need as the manual gives it. -/
theorem test_marks_across_the_end :
    (placementPlan 4096 4040 false 52).need = 52 ∧ (placementPlan 4096 4040 false 52).after = 4092
      ∧ placementPlan 4096 4092 true 28
        = { pad1 := some (4092, 4), gap := some 0, pad2 := none, at_ := 20, need := 52, after := 48 } := by decide

/-- Section 4.12: the grant, the opening, the expiry of the held timer and the close of the propped door. -/
theorem test_propped_door :
    lockedDoor.grant = { door := { doorIn .released with releaseTimer := Timer.started }, commands := [.release 0] }
      ∧ Door.reportOpen (doorIn .released)
        = { door := { doorIn .opened with contact := .opened, heldTimer := Timer.started } }
      ∧ Door.heldExpiry { doorIn .opened with heldTimer := some { count := 60, due := true } }
        = { door := doorIn .held, commands := [.signal], events := [.held], alarm := true }
      ∧ Door.reportClosed (doorIn .held) = { door := lockedDoor, commands := [.relock], events := [.cleared] } := by decide

/-- Section 1.3's card at its room's door: GRANT is owed, RELEASE 0 is queued and the ACCESS record is held. -/
theorem test_present_grants :
    let t := after (exec (.present 2 false 5 image7) (exchanging 526 (nodeOf .roomDoor (some lockedDoor))))
    ((Table.find 526 t.dev.nodes).bind (fun n => n.owedAck)) = some (5, .grant)
      ∧ (t.dev.segment 2).queue = [{ addr := 14, command := .release 0, attempts := 0 }]
      ∧ t.dev.journal.queue.map (fun h => h.body) = [.access 526 7 1 .grant .none 1 214] := by decide

set_option maxRecDepth 8000 in
/-- R139's check word of the nine digits `123456789`, as the published check value of this polynomial and initial value has it. -/
theorem test_frame_check : frameCheck [0x31, 0x32, 0x33, 0x34, 0x35, 0x36, 0x37, 0x38, 0x39] = 0x29B1 := by decide

set_option maxRecDepth 8000 in
/-- R139 and R198: the bytes of a CONTACT, CLOSED, from address 14 with the attention mark and sequence 5 are that node's answer; from
address 13, with another check or with an eighth byte they are none. -/
theorem test_contact_frame :
    let t := after (exec (.miss 2 (some [14, 3, 0x85, 0x82, 1, 0xF8, 0x09]) false)
      (exchanging 526 (nodeOf .roomDoor (some (doorIn .opened)))))
    ((Table.find 526 t.dev.nodes).bind (fun n => n.owedAck)) = some (5, .grant) ∧ (t.dev.segment 2).attention = [14]
      ∧ answerValid 13 [14, 3, 0x85, 0x82, 1, 0xF8, 0x09] = false ∧ answerValid 14 [14, 3, 0x85, 0x82, 1, 0xF8, 0x08] = false
      ∧ answerValid 14 [14, 3, 0x85, 0x82, 1, 0, 0xF8, 0x09] = false := by decide

/-! ## Witnesses: the block as a whole -/

theorem witness_StepTakesTheFrontCommand :
    ({ atRest with pending := [.minuteTick, .secondPulse] } : State).pending = .minuteTick :: [.secondPulse] ∧ atRest.pending = [] := by
  decide

/-! ## Witnesses: registers and the walk -/

/-- The property with RESET_N held. -/
def heldInReset : State :=
  onDev (fun d => { d with resetHeld := some { fire := false, storm := false } })

theorem witness_HeldResetIgnoresWrites : heldInReset.dev.resetHeld.isSome = true ∧ heldInReset.settled := ⟨rfl, rfl⟩

/-- The area may move at reset and not at the property, whose region is in force; a size of 17 fits above base 0, is cut to 16 above
0xFFFF0000 and to 0 above 0xFFFF1000. -/
theorem witness_RegistersTakeTheirWrites :
    (State.reset.dev.resetHeld = none ∧ State.reset.settled ∧ State.reset.dev.walker.walk = .idle ∧ State.reset.dev.journal.region = none)
      ∧ (atRest.dev.resetHeld = none ∧ atRest.settled ∧ ¬ (atRest.dev.walker.walk = .idle ∧ atRest.dev.journal.region = none))
      ∧ (State.reset.dev.regs.commonBase.toNat + 17 * 4096 ≤ 4294967296
        ∧ 17 = max 16 (min 4096 ((17 : Word).toNat % 8192)) ∧ (0x10010 : Word).toNat % 8192 = 16 ∧ (0x2000 : Word).toNat % 8192 = 0)
      ∧ (4294967296 < (0xFFFF0000#32).toNat + 17 * 4096 ∧ (0xFFFF0000#32).toNat + 16 * 4096 ≤ 4294967296
        ∧ 4294967296 < (0xFFFF0000#32).toNat + (16 + 1) * 4096)
      ∧ ((0xFFFF1000#32).toNat + 15 * 4096 ≤ 4294967296 ∧ 4294967296 < (0xFFFF1000#32).toNat + (15 + 1) * 4096)
      ∧ ((0xFFFFFFFD#32).getLsbD 1 = false ∧ (0xFFFFFFFC#32).getLsbD 1 = false) :=
  ⟨⟨rfl, rfl, rfl, rfl⟩, ⟨rfl, rfl, by decide⟩, by decide, by decide, by decide, by decide⟩

theorem witness_ChainHeadWrites :
    (atRest.dev.resetHeld = none ∧ atRest.settled ∧ (0x20001000 : Word) ≠ 0 ∧ atRest.dev.walker.walk = .idle)
      ∧ ((walking .checking true).dev.resetHeld = none ∧ (walking .checking true).settled
        ∧ (walking .checking true).dev.walker.walk = .walking 0x20001000 true .checking) := ⟨⟨rfl, rfl, by decide, rfl⟩, rfl, rfl, rfl⟩

/-- Each cause of the table at a boundary, and a block that passes; then the walker's own answers and an order handed on. -/
theorem witness_BlockCheckFollowsItsTable :
    ((walking .checking false).settled ∧ (walking .checking false).dev.walker.walk = .walking 0x20001000 false .checking)
      ∧ blockFailure 536870912 256 (536870912 + 511) 0 6 = some .badPlace ∧ blockFailure 536870912 256 (536870912 + 496) 0 6 = some .badPlace
      ∧ blockFailure 536870912 256 (536870912 + 1048576) 0 6 = some .badPlace ∧ blockFailure 536870912 256 (536870912 + 512) 0 5 = some .badSize
      ∧ blockFailure 536870912 256 (536870912 + 512) 0 65 = some .badSize ∧ blockFailure 536870912 256 (536870912 + 1048560) 0 6 = some .badSize
      ∧ blockFailure 536870912 256 (536870912 + 512) 1 6 = some .notNew ∧ blockFailure 536870912 256 (536870912 + 512) 0 6 = none
      ∧ blockFailure 536870912 256 (536870912 + 4096) 0 64 = none
      ∧ OrderKind.ofCode 0 = none ∧ OrderKind.ofCode 3 = some .houseMode ∧ OrderKind.houseMode ≠ .setup ∧ OrderKind.houseMode ≠ .setClock
      ∧ State.reset.dev.walker.established = false ∧ atRest.dev.walker.established = true
      ∧ 11 < OrderKind.houseMode.smallest 0 ∧ OrderKind.houseMode.smallest 0 ≤ 12 :=
  ⟨⟨rfl, rfl⟩, by decide⟩

/-- A page in force with its region, one without, and one while COMMON_SIZE is 0. -/
theorem witness_BlockCheckFollowsItsTable_page :
    let bare : Device := { property with journal := { property.journal with region := none } }
    let none_ : Device := { property with regs := { property.regs with commonSize := 0 } }
    (property.regs.commonBase.toNat + 256 ≤ 4294967296 ∧ (∀ f ∈ property.pageFields, f.2.2 < 256 ^ f.2.1)
        ∧ property.regs.commonSize ≠ 0 ∧ property.journal.region.isSome = true)
      ∧ ((∀ f ∈ bare.pageFields, f.2.2 < 256 ^ f.2.1) ∧ bare.regs.commonSize ≠ 0 ∧ bare.journal.region = none)
      ∧ (∀ f ∈ none_.pageFields, f.2.2 < 256 ^ f.2.1) ∧ none_.regs.commonSize = 0 := by decide

/-- Words up to the end of a block of 64, at the last place of the address space. -/
theorem witness_AnswerInBoardMemory :
    6 + 1 + ({ code := .done, words := List.replicate 57 0 } : Reply).words.length ≤ 64 ∧ (0xFFFFFF00 : Word).toNat + 256 ≤ 4294967296
      ∧ ({ code := .done, words := List.replicate 57 0 } : Reply).deferred = false ∧ ({ code := .done, deferred := true } : Reply).deferred = true :=
  by decide

/-- A block whose order cancelled one encoding and has its own writes outstanding. -/
def written : WalkPhase :=
  .writing { cancels := [Settlement.writes { block := 0x20001100, words := [0, 0], code := .cancelled }]
             own := doneWrites 0x20001000 .done false }

theorem witness_LinkRereadMovesOn :
    (walking written false).settled ∧ (walking written true).settled
      ∧ (∃ w, (walking written false).dev.walker.walk = .walking 0x20001000 false (.writing w))
      ∧ ∃ w, (walking written true).dev.walker.walk = .walking 0x20001000 true (.writing w) := ⟨rfl, rfl, ⟨_, rfl⟩, _, rfl⟩

/-- The settlement of an issue, to the last block of the address space. -/
def settlement : Settlement :=
  { block := 0xFFFFFF00, words := [100, 0], code := .done }

/-- The property with a settlement to write and a publication outstanding, and a re-read of the read mark. -/
def portBusy : State :=
  onDev (fun d => { d with
    walker := { d.walker with settlements := [settlement], page := d.markWrites }
    journal := { d.journal with reread := some .second } })

theorem witness_SettlementIsWritten :
    portBusy.settled ∧ portBusy.dev.walker.settlements = settlement :: [] ∧ portBusy.dev.walker.walk.writesTo settlement.block = false
      ∧ settlement.words.length ≤ 49 ∧ settlement.block.toNat + 256 ≤ 4294967296 := ⟨rfl, rfl, rfl, by decide, by decide⟩

/-- A block whose own two writes alone are outstanding. -/
def ownWritten : WalkPhase :=
  .writing { cancels := [], own := doneWrites 0x20001000 .done false }

/-- A held record. -/
def recordOf (body : RecordBody) (cls : RecordClass) (gap : Nat) : HeldRecord :=
  { body := body, flags := {}, cls := cls, minute := 1000, second := 0, clockValid := true, gap := gap }

/-- The property with records held, the first being placed. -/
def placing (queue : List HeldRecord) (writeMark : Nat) : State :=
  onDev (fun d => { d with journal := { d.journal with queue := queue, writeMark := writeMark, drain := .placing } })

theorem witness_MemoryErrorsLeaveTheRestUnmade :
    ((walking .checking false).dev.walker.walk = .walking 0x20001000 false .checking
        ∧ (handed .readRoom).dev.walker.walk = .walking 0x20001000 false (.handed .readRoom 77)
        ∧ (walking ownWritten false).dev.walker.walk = .walking 0x20001000 false ownWritten
        ∧ 1 < (doneWrites 0x20001000 .done false).length ∧ 0 < (doneWrites 0x20001000 .done false).length)
      ∧ (portBusy.settled ∧ portBusy.dev.walker.settlements = settlement :: [] ∧ 3 < settlement.writes.length
        ∧ portBusy.dev.walker.walk.writesTo settlement.block = false ∧ 1 < portBusy.dev.walker.page.length
        ∧ portBusy.dev.journal.reread.isSome = true)
      ∧ ((placing [recordOf (.clock 1 2) .notable 0] 0).settled
        ∧ 5 < (placing [recordOf (.clock 1 2) .notable 0] 0).dev.placementWrites.length) :=
  ⟨⟨rfl, rfl, rfl, by decide, by decide⟩, ⟨rfl, rfl, by decide, rfl, by decide, rfl⟩, rfl, by decide⟩

/-- The places at which a header is read; a block with one cancellation ahead of its own writes, at both ends of the own writes; and an error
on the first write of that cancellation. -/
theorem witness_MemoryErrorsLeaveTheRestUnmade_walk :
    ((0x20001000 : Word).toNat % 16 = 0
        ∧ (walking .checking false).dev.regs.commonBase.toNat + 512 ≤ (0x20001000 : Word).toNat
        ∧ (0x20001000 : Word).toNat
          < (walking .checking false).dev.regs.commonBase.toNat + (walking .checking false).dev.regs.commonSize.toNat * 4096)
      ∧ (∃ w, written = .writing w ∧ w.cancels ≠ [] ∧ w.cancels.flatten.length = 4 ∧ (w.cancels.flatten ++ w.own).length = 6)
      ∧ ((walking written true).settled ∧ ∃ failed own, (walking written true).dev.walker.walk
          = .walking 0x20001000 true (.writing { cancels := [] ++ failed :: [], own := own }) ∧ 0 < failed.length ∧ 3 < failed.length) :=
  ⟨by decide, ⟨_, rfl, by decide, by decide, by decide⟩, rfl, _, _, rfl, by decide, by decide⟩

/-! ## Witnesses: the journal, the clock and the cards -/

theorem witness_RecordsAndPlacementsHaveTheirShape :
    4092 < 4096 ∧ 16 ≤ 96 ∧ 96 ≤ 96 ∧ 4096 ≤ 4096 ∧ 4096 % 4 = 0 ∧ 4092 % 4 = 0 ∧ 96 % 4 = 0
      ∧ (placementPlan 4096 4092 true 96).pad1 = some (4092, 4) ∧ (placementPlan 4096 4076 true 96).pad2 = none
      ∧ (placementPlan 4096 4068 true 96).pad2 = some (4088, 8) := by decide

/-- The last record held, the next one that fits, and the next one that does not. -/
theorem witness_PlacementCompletes :
    let one := placing [recordOf (.clock 1 2) .notable 0] 0
    let two := placing [recordOf (.clock 1 2) .notable 3, recordOf (.house { fire := false, storm := false } { fire := true, storm := false }
      .order) .notable 0] 0
    let full := placing [recordOf (.clock 1 2) .notable 0, recordOf (.clock 2 3) .notable 0] 262112
    (one.settled ∧ one.dev.journal.region = some { start := 65536, stop := 327680 } ∧ one.dev.journal.drain = .placing
        ∧ ∃ h, one.dev.journal.queue = h :: [])
      ∧ (∃ h next, two.dev.journal.queue = h :: next :: []
        ∧ (placementPlan 262144 44 false next.body.length).need ≤ Journal.freeIn { two.dev.journal with writeMark := 44 } 262144)
      ∧ ∃ h next, full.dev.journal.queue = h :: next :: []
        ∧ ¬ (placementPlan 262144 262136 false next.body.length).need ≤ Journal.freeIn { full.dev.journal with writeMark := 262136 } 262144 :=
  ⟨⟨rfl, rfl, rfl, _, rfl⟩, ⟨_, _, rfl, by decide⟩, _, _, rfl, by decide⟩

/-- A value inside the unread span, one just past it, and a drain that does not wait. -/
theorem witness_ReadMarkIsTested :
    let s := onDev (fun d => { d with journal := { d.journal with writeMark := 100, reread := some .second } })
    s.settled ∧ s.dev.journal.region = some { start := 65536, stop := 327680 } ∧ s.dev.journal.reread.isSome = true
      ∧ s.dev.journal.drain ≠ .waitingRoom ∧ s.dev.journal.drain ≠ .waitingRetry
      ∧ (100 % 4 = 0 ∧ (100 + 262144 - 0) % 262144 ≤ (100 + 262144 - 0) % 262144)
      ∧ ¬ (104 + 262144 - 0) % 262144 ≤ (100 + 262144 - 0) % 262144 := ⟨rfl, rfl, rfl, by decide⟩

/-- A head that needs 56 bytes with 28 free: a mark that moves far enough, one that moves too little, and one that is not taken. -/
theorem witness_ReadMarkIsTested_waiting :
    let s := fun drain reread => onDev (fun d => { d with
      journal := { d.journal with
        queue := [recordOf (.clock 1 2) .notable 3], writeMark := 262112, drain := drain, reread := some reread } })
    let drainAt := fun drain reread value => (after (exec (.readMarkReread value) (s drain reread))).dev.journal.drain
    ((s .waitingRetry .second).settled ∧ (s .waitingRetry .second).dev.journal.region = some { start := 65536, stop := 327680 }
        ∧ (s .waitingRetry .second).dev.journal.queue = recordOf (.clock 1 2) .notable 3 :: [])
      ∧ (placementPlan 262144 262112 true 24).need = 56
      ∧ drainAt .waitingRetry .second 100 = .placing ∧ drainAt .waitingRetry .second 4 = .waitingRoom
      ∧ drainAt .waitingRetry .second 1 = .waitingRetry ∧ drainAt .waitingRoom .second 100 = .placing
      ∧ drainAt .waitingRoom .attempt 100 = .placing ∧ drainAt .waitingRoom .attempt 4 = .waitingRoom := ⟨⟨rfl, rfl, rfl⟩, by decide⟩

/-- The head being placed is passed over, and the first routine record behind a notable one is displaced. -/
theorem witness_OldestRoutineIsDisplaced :
    let r := recordOf (.clock 1 2) .routine 0
    let n := recordOf (.clock 3 4) .notable 0
    takeRoutine true [r, n, r, n] = some (r, [r, n, n]) ∧ takeRoutine false [n, r] = some (r, [n]) ∧ takeRoutine true [r] = none := by decide

/-- A refused card at the spa, presented again: a merge at count 254 and none at 255; a reservation, a free place, and a full queue with and
without a ROUTINE record to displace. -/
theorem witness_OldestRoutineIsDisplaced_admission :
    let bad := fun count => RecordBody.access 8 7 1 .refuse .badRead count 214
    let held := fun queue => { property.journal with queue := queue }
    let full := fun cls => { property.journal with queue := List.replicate 64 (recordOf (.clock 1 2) cls 2) }
    (property.journal.region ≠ none
        ∧ (held [recordOf (bad 254) .routine 0]).merges .routine (bad 1) [recordOf (bad 255) .routine 0]
        ∧ mergeNewest false (recordOf (bad 1) .routine 0) [recordOf (bad 255) .routine 0] = none)
      ∧ 0 < property.journal.reserved ∧ property.journal.queue.length + property.journal.reserved < 64
      ∧ 64 ≤ (full .notable).queue.length + (full .notable).reserved ∧ takeRoutine false (full .notable).queue = none
      ∧ takeRoutine false (full .routine).queue
        = some (recordOf (.clock 1 2) .routine 2, List.replicate 63 (recordOf (.clock 1 2) .routine 2)) :=
  ⟨⟨by decide, ⟨[], _, _, _, _, _, _, _, _, _, _, _, rfl, rfl, rfl, rfl, by decide, fun h => (by cases h), rfl⟩, by decide⟩, by decide,
    by decide, by decide, rfl, rfl⟩

theorem witness_PulseAndTickMoveTheClock :
    let due := onDev (fun d => { d with
      nodes := [(8, nodeOf .commonDoor (some { doorIn .holdOpen with holdEnd := some 1002 }))]
      clock := { minute := 1000, second := 59, valid := true, tickDue := true } })
    (atRest.settled ∧ atRest.dev.clock.tickDue = false ∧ atRest.dev.clock.second < 59) ∧ due.settled ∧ due.dev.clock.tickDue = true
      ∧ ∀ key n r, Table.find key due.dev.nodes = some n → n.door = some r →
        (r.state = .holdOpen → ∀ e, r.holdEnd = some e → (due.dev.clock.minute + 1).toNat < e.toNat)
          ∧ (r.state = .emergency → ∀ e, r.savedEnd = some e → (due.dev.clock.minute + 1).toNat < e.toNat) := by
  refine ⟨⟨rfl, rfl, by decide⟩, rfl, rfl, fun key n r hf hr => ?_⟩
  have hm := Table.mem_of_find hf
  simp [onDev, nodeOf] at hm
  obtain ⟨-, rfl⟩ := hm
  simp at hr
  subst hr
  exact ⟨fun _ e he => by cases he; decide, fun h => by cases h⟩

theorem witness_ExtendAndSuspendAndResume :
    ((7 : Word) ≠ 0 ∧ atRest.dev.entryOf 7 = some (entry .active) ∧ (entry .active).state ≠ .encoding
        ∧ (entry .active).validFrom.toNat < (101 : Word).toNat ∧ (handed .extendCard).dev.orderInHand .extendCard 0x20001000 77 false)
      ∧ (atRest.dev.entryOf 8 = some { entry .suspended with kind := .staff }
        ∧ (handed .suspendCard).dev.orderInHand .suspendCard 0x20001000 77 false
        ∧ (handed .resumeCard).dev.orderInHand .resumeCard 0x20001000 77 false) :=
  ⟨⟨by decide, rfl, by decide, by decide, rfl, rfl⟩, rfl, ⟨rfl, rfl⟩, rfl, rfl⟩

/-- A listed serial, an unlisted one, and a full list. -/
theorem witness_DenyListAppend :
    ([5, 6] : List Word).Nodup ∧ ([5, 6] : List Word).length < 512 ∧ (5 : Word) ∈ ([5, 6] : List Word) ∧ (7 : Word) ∉ ([5, 6] : List Word) := by
  decide

theorem witness_DenyListAppend_full :
    ((List.range 512).map natWord).Nodup ∧ ((List.range 512).map natWord).length = 512 ∧ natWord 600 ∉ (List.range 512).map natWord := by
  refine ⟨(List.nodup_map_iff_inj_on List.nodup_range).2 fun a ha b hb h => ?_, by simp, fun h => ?_⟩
  · have := congrArg BitVec.toNat h
    simp only [natWord, BitVec.toNat_ofNat, List.mem_range] at this ha hb
    omega
  · obtain ⟨a, ha, h⟩ := List.mem_map.1 h
    have := congrArg BitVec.toNat h
    simp only [natWord, BitVec.toNat_ofNat, List.mem_range] at this ha
    omega

theorem witness_RevokeFreesAndDenies :
    (7 : Word) ≠ 0 ∧ (handed .revokeCard).dev.orderInHand .revokeCard 0x20001000 77 false ∧ (1 : Word).toNat ≤ 1
      ∧ (handed .revokeCard).dev.entryOf 7 = some (entry .active) ∧ (entry .active).state ≠ .encoding
      ∧ (handed .revokeCard).dev.entryOf 6 = none := ⟨by decide, ⟨rfl, rfl⟩, by decide, rfl, by decide, rfl⟩

/-- The issue of serial 9 stands at the encoder of the property alone. -/
theorem issue9_stands (d : Device) (serials : List Word) (he : d.creds.encoders = [(259, writing9)])
    (hn : Table.find 259 d.nodes = some (nodeOf .encoder none)) (hs : (d.segment 1).isDisabled = false) (hu : serials.Nodup)
    (hf : ∀ serial ∈ serials, ∃ e, d.entryOf serial = some e ∧ (e.state = .encoding → serial = 9)) : d.issuesStand serials := by
  refine ⟨by rw [he]; decide, hu, fun serial h => ?_⟩
  obtain ⟨e, h1, h2⟩ := hf serial h
  refine ⟨e, h1, fun h3 => ⟨259, writing9, _, ⟨by rw [he]; rfl, by rw [h2 h3]; decide, fun other x ho hx => ?_⟩, hn, rfl, hs⟩⟩
  rw [he] at hx
  have := of_rows (p := fun k _ => k = 259) (by decide) _ _ hx
  exact absurd this ho

/-- The card being written, cancelled; and DENY_UNKNOWN at 0 and 1. -/
theorem witness_RevokeFreesAndDenies_encoding :
    (9 : Word) ≠ 0 ∧ (handed .revokeCard).dev.entryOf 9 = some (entry .encoding) ∧ (entry .encoding).state = .encoding
      ∧ (handed .revokeCard).dev.issuesStand [9] ∧ (1 : Word).toNat ≤ 1 ∧ (0 : Word).toNat ≤ 1 :=
  ⟨by decide, rfl, rfl, issue9_stands _ _ rfl rfl rfl (by decide) fun _ h => (by
    cases List.mem_singleton.1 h; exact ⟨_, rfl, fun _ => rfl⟩), by decide, by decide⟩

theorem witness_ReadCardReports :
    (5 : Word) ≠ 0 ∧ (handed .readCard).dev.orderInHand .readCard 0x20001000 77 false
      ∧ (handed .readCard).dev.creds.deny = [] ++ 5 :: [] ∧ (5 : Word) ∉ ([] : List Word) ∧ (handed .readCard).dev.entryOf 5 = none
      ∧ (7 : Word) ∉ (handed .readCard).dev.creds.deny ∧ (handed .readCard).dev.entryOf 7 = some (entry .active) :=
  ⟨by decide, ⟨rfl, rfl⟩, rfl, by decide, rfl, by decide, rfl⟩

/-- The card being written at node (1, 3), and one that waits second there. -/
theorem witness_ReadCardReports_encoding :
    let waits : Encoder := { writing9 with waiting := [{ issue9 with serial := 10 }, { issue9 with serial := 11 }] }
    let s := onDev (fun d => handing .readCard { d with
      creds := { d.creds with
        entries := [(9, entry .encoding), (10, entry .encoding), (11, entry .encoding)], encoders := [(259, waits)] } })
    s.dev.orderInHand .readCard 0x20001000 77 false ∧ Table.wf s.dev.creds.encoders = true
      ∧ (s.dev.entryOf 9 = some (entry .encoding) ∧ s.dev.entryOf 11 = some (entry .encoding) ∧ (entry .encoding).state = .encoding)
      ∧ (∀ serial ∈ [9, 11], s.dev.issueAt serial 259 waits)
      ∧ (∃ c, waits.current = some c ∧ c.issue.serial = 9 ∧ c.issue.serial ≠ 11)
      ∧ waits.waiting = [{ issue9 with serial := 10 }] ++ { issue9 with serial := 11 } :: []
      ∧ ∀ x ∈ [{ issue9 with serial := 10 }], x.serial ≠ 11 := by
  refine ⟨⟨rfl, rfl⟩, by decide, ⟨rfl, rfl, rfl⟩, fun serial h => ⟨rfl, ?_, fun other x hne hx => ?_⟩, ⟨_, rfl, rfl, by decide⟩, rfl, by decide⟩
  · simp only [List.mem_cons, List.not_mem_nil, or_false] at h
    rcases h with rfl | rfl <;> decide
  · have := of_rows (p := fun k _ => k = 259) (by decide) _ _ hx
    exact absurd this hne

/-- At an encoder that is busy with three issues waiting, and at an idle one. -/
theorem witness_IssueTakesAnEntry :
    let s := onDev (fun d => handing .issueCard { d with
      creds := { d.creds with encoders := [(259, { writing9 with waiting := [issue9, issue9, issue9] })] } })
    let idle := onDev (fun d => handing .issueCard { d with
      creds := { d.creds with encoders := [(259, { current := none, waiting := [], lastResult := none })] } })
    (s.dev.orderInHand .issueCard 0x20001000 77 false ∧ CardKind.ofCode (1 : Word).toNat = some .guest ∧ privilegesOf 3 = some 3
        ∧ (11 : Word) ≠ 0 ∧ (214 : Word).toNat < 768 ∧ (100 : Word).toNat < (101 : Word).toNat ∧ (1 : Word).toNat ≤ 1
        ∧ (1 : Word).toNat < 8 ∧ 1 ≤ (3 : Word).toNat ∧ (3 : Word).toNat ≤ 120 ∧ 259 = (1 : Word).toNat * 256 + (3 : Word).toNat)
      ∧ (s.dev.reachable 259 (nodeOf .encoder none) ∧ (nodeOf .encoder none).kind = .encoder
        ∧ Table.find 259 s.dev.creds.encoders = some { writing9 with waiting := [issue9, issue9, issue9] }
        ∧ [issue9, issue9, issue9].length < 4 ∧ s.dev.entryOf 11 = none
        ∧ (∃ r, Table.find (214 : Word).toNat s.dev.rooms = some r ∧ r.state = .occupied) ∧ s.dev.creds.entries.length < 3072
        ∧ s.dev.encodingCount + s.dev.walker.settlements.length < 20)
      ∧ idle.dev.orderInHand .issueCard 0x20001000 77 false
      ∧ Table.find 259 idle.dev.creds.encoders = some { current := none, waiting := [], lastResult := none } :=
  ⟨⟨⟨rfl, rfl⟩, by decide⟩, ⟨⟨rfl, rfl, rfl⟩, rfl, rfl, by decide, rfl, ⟨_, rfl, rfl⟩, by decide, by decide⟩, ⟨rfl, rfl⟩, rfl⟩

/-- A full table of cards a day past their valid-until: the purge takes serial 1. -/
theorem witness_IssueTakesAnEntry_purge :
    let s := onDev (fun d => handing .issueCard { d with
      creds := { d.creds with entries := (List.range' 1 3072).map (fun i => (i, entry .active)) }
      clock := { d.clock with minute := 6440 } })
    3072 ≤ s.dev.creds.entries.length ∧ Table.wf s.dev.creds.entries = true ∧ (∀ q ∈ s.dev.creds.entries, q.1 < 4294967296)
      ∧ s.dev.clock.valid = true ∧ s.dev.entryOf 1 = some (entry .active) ∧ (entry .active).state ≠ .encoding
      ∧ (entry .active).validUntil.toNat + 1440 ≤ s.dev.clock.minute.toNat ∧ s.dev.entryOf 4000 = none
      ∧ ∀ other x, s.dev.entryOf other = some x → (entry .active).validUntil = x.validUntil ∧ (1 : Word).toNat ≤ other.toNat := by
  refine ⟨by simp [onDev, handing], ?_, fun q hq => ?_, rfl, rfl, by decide, by decide, ?_, fun other x h => ?_⟩
  · exact (Table.wf_iff _).2 (List.pairwise_map.2 List.pairwise_lt_range')
  · obtain ⟨i, hi, rfl⟩ := List.mem_map.1 hq
    have := List.mem_range'_1.1 hi
    show i < 4294967296
    omega
  · refine Option.eq_none_iff_forall_ne_some.2 fun x h => ?_
    obtain ⟨i, hi, h⟩ := List.mem_map.1 (Table.mem_of_find h)
    have := List.mem_range'_1.1 hi
    have : i = 4000 := congrArg Prod.fst h
    omega
  · obtain ⟨i, hi, h⟩ := List.mem_map.1 (Table.mem_of_find h)
    have := List.mem_range'_1.1 hi
    cases h
    exact ⟨rfl, by show 1 ≤ other.toNat; omega⟩

theorem witness_EncodingTimeoutFails :
    let enc : Encoder := { writing9 with current := some { issue := issue9, timer := some { count := 30, due := true }, job := 0 } }
    let s := onDev (fun d => { d with creds := { d.creds with encoders := [(259, enc)] } })
    259 = 1 * 256 + 3 ∧ 3 < 256 ∧ s.settled ∧ s.dev.reachable 259 (nodeOf .encoder none)
      ∧ Table.find 259 s.dev.creds.encoders = some enc
      ∧ (∃ c count, enc.current = some c ∧ c.timer = some { count := count, due := true } ∧ s.dev.entryOf c.issue.serial = some (entry .encoding))
      ∧ enc.waiting = [] := ⟨rfl, by decide, rfl, ⟨rfl, rfl, rfl⟩, rfl, ⟨_, _, rfl, rfl, rfl⟩, rfl⟩

/-- The same with an issue waiting. -/
theorem witness_EncodingTimeoutFails_waiting :
    let enc : Encoder := { writing9 with
      current := some { issue := issue9, timer := some { count := 30, due := true }, job := 0 }, waiting := [{ issue9 with serial := 10 }] }
    let s := onDev (fun d => { d with creds := { d.creds with encoders := [(259, enc)] } })
    s.settled ∧ s.dev.reachable 259 (nodeOf .encoder none) ∧ Table.find 259 s.dev.creds.encoders = some enc
      ∧ ∃ issue rest, enc.waiting = issue :: rest := ⟨rfl, ⟨rfl, rfl, rfl⟩, rfl, _, _, rfl⟩

/-- The worked case of section 1.3: byte 7 read as 215 instead of 214. -/
theorem witness_CheckWordCatchesAByte :
    let i := buildImage 4217 2000001 .guest 214 29000000
    let j : CardImage := { i with room := 215 }
    4217 ≤ 65535 ∧ imagePasses 4217 i = true ∧ j.check = i.check ∧ 6 < 11 ∧ (imageContent j)[6]? ≠ (imageContent i)[6]?
      ∧ (imageContent j).length = 11 ∧ (∀ m < 11, m ≠ 6 → (imageContent j)[m]? = (imageContent i)[m]?) ∧ imagePasses 4217 j = false := by
  decide

/-! ## Witnesses: rooms, doors and folios -/

set_option maxRecDepth 4000 in
/-- A new room, and room 300 redefined in session with its links kept; the nodes of room 214 are the ones to link. -/
theorem witness_DefineRoomCreatesOrRedefines :
    let s := handed .defineRoom
    (s.dev.orderInHand .defineRoom 0x20001000 77 false ∧ (2 : Word).toNat < 768 ∧ (9999 : Word).toNat ≤ 9999
        ∧ s.dev.linkNamed .roomDoor 2 0 0 none ∧ s.dev.linkNamed .minibar 2 7 0 none ∧ Table.find 2 s.dev.rooms = none)
      ∧ (s.dev.linkNamed .roomDoor 214 2 14 (some 526) ∧ s.dev.linkNamed .minibar 214 2 15 (some 527)
        ∧ Table.find 214 s.dev.rooms = some room214 ∧ room214.bar.inSession = false)
      ∧ (s.dev.linkNamed .roomDoor 300 0 0 none ∧ s.dev.linkNamed .minibar 300 3 15 (some 783)
        ∧ Table.find 300 s.dev.rooms = some room300 ∧ room300.bar.inSession = true ∧ none = room300.doorLink ∧ some 783 = room300.barLink)
      ∧ 240 = min 240 (241 : Word).toNat ∧ 10000000 = min 10000000 (10000001 : Word).toNat :=
  ⟨⟨⟨rfl, rfl⟩, by decide, by decide, .inl ⟨rfl, rfl⟩, .inl ⟨rfl, rfl⟩, rfl⟩,
    ⟨.inr ⟨by decide, by decide, by decide, rfl, _, rfl, rfl, rfl⟩, .inr ⟨by decide, by decide, by decide, rfl, _, rfl, rfl, rfl⟩, rfl, rfl⟩,
    ⟨.inl ⟨rfl, rfl⟩, .inr ⟨by decide, by decide, by decide, rfl, _, rfl, rfl, rfl⟩, rfl, rfl, rfl, rfl⟩, by decide, by decide⟩

theorem witness_CheckInOpensTheStay :
    (handed .checkIn).dev.orderInHand .checkIn 0x20001000 77 false ∧ (1 : Word).toNat < 768 ∧ (1 : Word).toNat ≤ 1
      ∧ Table.find (1 : Word).toNat (handed .checkIn).dev.rooms = some (roomIn .vacant) ∧ (roomIn .vacant).state = .vacant :=
  ⟨⟨rfl, rfl⟩, by decide, by decide, rfl, rfl⟩

/-- Room 214 with one guest card ACTIVE and no card in ENCODING; room 300 in session, its node reachable. -/
theorem witness_CheckOutClosesTheStay :
    let s := onDev (fun d => handing .checkOut { d with creds := { d.creds with entries := [(7, entry .active), (8, entry .suspended)] } })
    (s.dev.orderInHand .checkOut 0x20001000 77 false ∧ (214 : Word).toNat < 768 ∧ Table.find (214 : Word).toNat s.dev.rooms = some room214
        ∧ room214.state ≠ .vacant ∧ Table.wf s.dev.creds.entries = true ∧ (∀ p ∈ s.dev.creds.entries, p.1 < 4294967296))
      ∧ (∀ serial e, s.dev.entryOf serial = some e → e.kind = .guest → e.room = 214 → e.state ≠ .encoding)
      ∧ (∀ serial, serial ∈ ([7, 8] : List Word) ↔ ∃ e, s.dev.entryOf serial = some e ∧ e.kind = .guest ∧ e.room = 214)
      ∧ ([7, 8] : List Word).Pairwise (fun a b => a.toNat < b.toNat)
      ∧ (Table.find 300 s.dev.rooms = some room300 ∧ room300.bar.inSession = true
        ∧ ∀ key, room300.barLink = some key → ∃ n, s.dev.reachable key n) := by
  refine ⟨⟨⟨rfl, rfl⟩, by decide, rfl, by decide, by decide, by decide⟩,
    fun serial e h _ _ => of_rows (p := fun _ e => e.state ≠ .encoding) (by decide) _ _ h, fun serial => ⟨fun h => ?_, ?_⟩, by decide,
    rfl, rfl, fun key h => ?_⟩
  · simp only [List.mem_cons, List.not_mem_nil, or_false] at h
    rcases h with rfl | rfl
    · exact ⟨_, rfl, rfl, rfl⟩
    · exact ⟨_, rfl, rfl, rfl⟩
  · rintro ⟨e, h, -⟩
    have hk := of_rows (p := fun k _ => k = 7 ∨ k = 8) (by decide) _ _ h
    simp only [List.mem_cons, List.not_mem_nil, or_false]
    exact hk.imp (fun x => BitVec.eq_of_toNat_eq x) fun x => BitVec.eq_of_toNat_eq x
  · cases h
    exact ⟨_, rfl, rfl, rfl⟩

/-- Room 214 with serial 9 being written and serial 7 held. -/
theorem witness_CheckOutClosesTheStay_encoding :
    let s := handed .checkOut
    (s.dev.orderInHand .checkOut 0x20001000 77 false ∧ Table.find (214 : Word).toNat s.dev.rooms = some room214
        ∧ Table.wf s.dev.creds.entries = true ∧ (∀ p ∈ s.dev.creds.entries, p.1 < 4294967296) ∧ room214.bar.inSession = false)
      ∧ (∀ serial, serial ∈ ([9] : List Word) ↔ ∃ e, s.dev.entryOf serial = some e ∧ e.kind = .guest ∧ e.room = 214 ∧ e.state = .encoding)
      ∧ (∀ serial, serial ∈ ([7] : List Word) ↔ ∃ e, s.dev.entryOf serial = some e ∧ e.kind = .guest ∧ e.room = 214 ∧ e.state ≠ .encoding)
      ∧ s.dev.issuesStand ([9] ++ [7]) := by
  refine ⟨⟨⟨rfl, rfl⟩, rfl, by decide, by decide, rfl⟩, fun serial => ⟨fun h => ?_, ?_⟩, fun serial => ⟨fun h => ?_, ?_⟩,
    issue9_stands _ _ rfl rfl rfl (by decide) fun serial h => ?_⟩
  · rw [List.mem_singleton.1 h]; exact ⟨_, rfl, rfl, rfl, rfl⟩
  · rintro ⟨e, h, -, -, he⟩
    have := of_rows (p := fun k (e : Entry) => e.state = .encoding → k = 9) (by decide) _ _ h he
    exact List.mem_singleton.2 (BitVec.eq_of_toNat_eq this)
  · rw [List.mem_singleton.1 h]; exact ⟨_, rfl, rfl, rfl, by decide⟩
  · rintro ⟨e, h, hk, -, he⟩
    have := of_rows (p := fun k (e : Entry) => e.kind = .guest → e.state ≠ .encoding → k = 7) (by decide) _ _ h hk he
    exact List.mem_singleton.2 (BitVec.eq_of_toNat_eq this)
  · simp only [List.cons_append, List.nil_append, List.mem_cons, List.not_mem_nil, or_false] at h
    rcases h with rfl | rfl
    · exact ⟨_, rfl, fun _ => rfl⟩
    · exact ⟨_, rfl, fun h => (by cases h)⟩

/-- Each move that a room may make, and one that it may not. -/
theorem witness_SetRoomStateMovesTheRoom :
    let s := handed .setRoomState
    (s.dev.orderInHand .setRoomState 0x20001000 77 false ∧ Table.find (214 : Word).toNat s.dev.rooms = some room214
        ∧ Table.find (1 : Word).toNat s.dev.rooms = some (roomIn .vacant) ∧ room214.state = .occupied ∧ (roomIn .vacant).state = .vacant)
      ∧ let out := onDev (fun d => handing .setRoomState { d with rooms := [(1, roomIn .outOfOrder), (214, { room214 with state := .outOfOrder })] })
        out.dev.orderInHand .setRoomState 0x20001000 77 false
          ∧ (∃ r, Table.find (1 : Word).toNat out.dev.rooms = some r ∧ r.state = .outOfOrder ∧ r.stayOpen = false)
          ∧ ∃ r, Table.find (214 : Word).toNat out.dev.rooms = some r ∧ r.state = .outOfOrder ∧ r.stayOpen = true :=
  ⟨⟨⟨rfl, rfl⟩, rfl, rfl, rfl, rfl⟩, ⟨rfl, rfl⟩, ⟨_, rfl, rfl, rfl⟩, _, rfl, rfl, rfl⟩

/-- The node with a queued command, the one with an attempt in progress and a quiet one. -/
theorem witness_ReadsShowTheRecords :
    let s := onDev (fun d => handing .readNode { d with segments :=
      [{ segment with queue := [{ addr := 8, command := .relock, attempts := 1 }] }, segment,
        { segment with exchange := some { addr := 14, carried := some (.relock, 0), next := none, timeout := 10 } }] })
    ((handed .readRoom).dev.orderInHand .readRoom 0x20001000 77 false ∧ (300 : Word).toNat < 768
        ∧ Table.find (300 : Word).toNat (handed .readRoom).dev.rooms = some room300)
      ∧ (s.dev.orderInHand .readNode 0x20001000 77 false ∧ (0 : Word).toNat < 8 ∧ 1 ≤ (8 : Word).toNat ∧ (8 : Word).toNat ≤ 120
        ∧ 8 = (0 : Word).toNat * 256 + (8 : Word).toNat ∧ Table.find 8 s.dev.nodes = some (nodeOf .commonDoor (some lockedDoor))
        ∧ ∃ e, (s.dev.segment 0).queue = e :: [] ∧ e.addr = 8)
      ∧ (Table.find 526 s.dev.nodes = some (nodeOf .roomDoor (some lockedDoor)) ∧ (s.dev.segment 2).queue = []
        ∧ ∃ x c, (s.dev.segment 2).exchange = some x ∧ x.addr = 14 ∧ x.carried = some (c, 0))
      ∧ (Table.find 259 s.dev.nodes = some (nodeOf .encoder none) ∧ (nodeOf .encoder none).door = none ∧ (s.dev.segment 1).queue = []
        ∧ (s.dev.segment 1).exchange = none) :=
  ⟨⟨⟨rfl, rfl⟩, by decide, rfl⟩, ⟨⟨rfl, rfl⟩, by decide, by decide, by decide, rfl, rfl, _, rfl, rfl⟩, ⟨rfl, rfl, _, _, rfl, rfl, rfl⟩,
    rfl, rfl, rfl, rfl⟩

/-- A door for each case of coming to rest. -/
theorem witness_DoorRestsByTheFirstCase :
    ({ lockedDoor with forcedLatch := true } : Door).forcedLatch = true
      ∧ (({ lockedDoor with heldLatch := true } : Door).forcedLatch = false ∧ ({ lockedDoor with heldLatch := true } : Door).heldLatch = true)
      ∧ (lockedDoor.forcedLatch = false ∧ lockedDoor.heldLatch = false ∧ lockedDoor.contact = .closed
        ∧ ¬ (lockedDoor.releaseTimer ≠ none ∧ lockedDoor.settings.relock = .onTimer)) := by decide

/-- The door order's operands name a door that is reachable, in each state that a clause speaks of. -/
theorem witness_DoorReleaseAndRelock (state : DoorState) :
    let n := nodeOf .roomDoor (some (doorIn state))
    let s := handedWith .doorCommand 526 n
    s.dev.orderInHand .doorCommand 0x20001000 77 false ∧ (2 : Word).toNat < 8 ∧ 1 ≤ (14 : Word).toNat ∧ (14 : Word).toNat ≤ 120
      ∧ 526 = (2 : Word).toNat * 256 + (14 : Word).toNat ∧ s.dev.reachable 526 n ∧ n.door = some (doorIn state)
      ∧ (doorIn state).state = state ∧ (doorIn state).forcedLatch = false ∧ (doorIn state).heldLatch = false :=
  ⟨⟨rfl, rfl⟩, by decide, by decide, by decide, rfl, ⟨rfl, rfl, rfl⟩, rfl, rfl, rfl, rfl⟩

/-- The same for HOLD and CLEAR_ALARM, with an end minute at the present one and one past it. -/
theorem witness_DoorHoldAndClearAlarm (state : DoorState) :
    let n := nodeOf .shoreGate (some (doorIn state))
    let s := handedWith .doorCommand 526 n
    let c := handedWith .clearAlarm 526 n
    (s.dev.orderInHand .doorCommand 0x20001000 77 false ∧ c.dev.orderInHand .clearAlarm 0x20001000 77 false ∧ (2 : Word).toNat < 8
        ∧ 1 ≤ (14 : Word).toNat ∧ (14 : Word).toNat ≤ 120 ∧ 526 = (2 : Word).toNat * 256 + (14 : Word).toNat)
      ∧ (s.dev.reachable 526 n ∧ c.dev.reachable 526 n ∧ n.door = some (doorIn state) ∧ (doorIn state).state = state)
      ∧ (s.dev.clock.valid = true ∧ s.dev.storm.active = false ∧ decide ((1000 : Word).toNat ≤ s.dev.clock.minute.toNat) = true
        ∧ decide ((1001 : Word).toNat ≤ s.dev.clock.minute.toNat) = false) :=
  ⟨⟨⟨rfl, rfl⟩, ⟨rfl, rfl⟩, by decide, by decide, by decide, rfl⟩, ⟨⟨rfl, rfl, rfl⟩, ⟨rfl, rfl, rfl⟩, rfl, rfl⟩, rfl, rfl, rfl, rfl⟩

/-- A door in a state with all three timers due, and the same door with none running. -/
theorem witness_DoorTimersExpire (state : DoorState) (mode : ResponseMode) :
    let due : Option Timer := some { count := 60, due := true }
    let r : Door := { doorIn state with
      settings := { settings with heldMode := mode }, releaseTimer := due, heldTimer := due, delayTimer := due }
    let n := nodeOf .roomDoor (some r)
    let s := onDev (fun d => { d with nodes := Table.put 526 n d.nodes })
    s.settled ∧ 526 = 2 * 256 + 14 ∧ s.dev.reachable 526 n ∧ n.door = some r ∧ r.state = state ∧ r.releaseTimer = due ∧ r.heldTimer = due
      ∧ r.delayTimer = due ∧ r.settings.heldMode = mode ∧ Timer.isDue (doorIn state).releaseTimer = false
      ∧ Timer.isDue (doorIn state).heldTimer = false ∧ Timer.isDue (doorIn state).delayTimer = false :=
  ⟨rfl, rfl, ⟨rfl, rfl, rfl⟩, rfl, rfl, rfl, rfl, rfl, rfl, rfl, rfl, rfl⟩

/-- A posting past the ceiling, a credit past the folio, and a ceiling below the balance; amounts at the ends of their range. -/
theorem witness_FolioOrders :
    (handed .postFolio).dev.orderInHand .postFolio 0x20001000 77 false ∧ (handed .setCeiling).dev.orderInHand .setCeiling 0x20001000 77 false
      ∧ (214 : Word).toNat < 768 ∧ Table.find (214 : Word).toNat (handed .postFolio).dev.rooms = some room214
      ∧ Table.find (214 : Word).toNat (handed .setCeiling).dev.rooms = some room214
      ∧ max (-10000000) (min 10000000 (10000001 : Word).toInt) = 10000000
      ∧ max (-10000000) (min 10000000 (BitVec.ofInt 32 (-10000001)).toInt) = -10000000
      ∧ max (-10000000) (min 10000000 (0 : Word).toInt) = 0 ∧ min 10000000 (1999 : Word).toNat < room214.balance :=
  ⟨⟨rfl, rfl⟩, ⟨rfl, rfl⟩, by decide, rfl, rfl, by decide, by decide, by decide, by decide⟩

set_option maxRecDepth 4000 in
theorem witness_SlotsAndTariff :
    let words : List (Word × Word) := (63, 0) :: (255, 16) :: List.replicate 10 (0, 15)
    ((handed .setSlots).dev.orderInHand .setSlots 0x20001000 77 false
        ∧ Table.find (214 : Word).toNat (handed .setSlots).dev.rooms = some room214 ∧ room214.bar.inSession = false
        ∧ Table.find (300 : Word).toNat (handed .setSlots).dev.rooms = some room300 ∧ room300.bar.inSession = true)
      ∧ (words.length = 12 ∧ room214.slots.length = 12 ∧ ∀ p ∈ words, p.1.toNat < 64 ∨ p.1.toNat = 255)
      ∧ ((handed .setTariff).dev.orderInHand .setTariff 0x20001000 77 false ∧ (63 : Word).toNat < 64 ∧ (3 : Word).toNat < 4
        ∧ (handed .setTariff).dev.tariff.items[(63 : Word).toNat]? = some { price := 0, taxClass := 0 }
        ∧ (handed .setTariff).dev.tariff.rates[(3 : Word).toNat]? = some 3000) :=
  ⟨⟨⟨rfl, rfl⟩, rfl, rfl, rfl, rfl⟩, ⟨rfl, rfl, by simp⟩, ⟨rfl, rfl⟩, by decide, by decide, rfl, rfl⟩

theorem witness_SessionLimitEndsTheSession :
    let r : Room := { room300 with session := some { count := 600, due := true } }
    let s := onDev (fun d => { d with rooms := [(300, r)] })
    s.settled ∧ Table.find 300 s.dev.rooms = some r ∧ r.barLink = some 783 ∧ r.bar.inSession = true
      ∧ r.session = some { count := 600, due := true } ∧ s.dev.reachable 783 { nodeOf .minibar none with room := 300 }
      ∧ 0 < s.dev.journal.reserved := ⟨rfl, rfl, rfl, rfl, rfl, ⟨rfl, rfl, rfl⟩, by decide⟩

/-- The tariff of section 6.6 over the twelve slots of room 214; the largest line. -/
theorem witness_LinesArePricedByTheTariff :
    (∀ p ∈ slots.zip [0, 0, 4, 0, 0, 0, 3, 0, 5, 0, 0, 0], ∀ i ∈ p.1.item, ∃ item, tariff.items[i]? = some item
        ∧ (tariff.rates[item.taxClass]?).isSome = true)
      ∧ 750000 ≤ 750000 ∧ 3000 ≤ 3000 := by
  refine ⟨fun p hp i hi => ?_, le_rfl, le_rfl⟩
  simp only [slots, List.zip, List.zipWith, List.mem_cons, List.not_mem_nil, or_false] at hp
  rcases hp with rfl | rfl | rfl | rfl | rfl | rfl | rfl | rfl | rfl | rfl | rfl | rfl <;> cases hi <;> exact ⟨_, rfl, rfl⟩

/-! ## Witnesses: nodes, the clock, the house and the resets -/

/-- The words of a node at (4, 120). -/
def nodeWords (kind : Word) : NodeParams :=
  { seg := 4, addr := 120, kind := kind, service := 4, room := 1, faultMode := 0, faultDelay := 1, deglitch := 9 }

/-- Ten door words, at and past the ends of their ranges. -/
def doorWords : DoorParams :=
  { admitSet := 0x7ff, hoursOpen := 1439, hoursClose := 1440, relockMode := 1, releaseTime := 0, heldLimit := 9, forcedMode := 0
    forcedDelay := 0, heldMode := 3, heldDelay := 1 }

/-- A new door, a new encoder beside three others, and room 214's minibar redefined for room 1. -/
theorem witness_DefineNodeCreatesOrUpdates :
    let s := handed .defineNode
    (s.dev.orderInHand .defineNode 0x20001000 77 false ∧ (4 : Word).toNat < 8 ∧ 1 ≤ (120 : Word).toNat ∧ (120 : Word).toNat ≤ 120
        ∧ 1144 = (4 : Word).toNat * 256 + (120 : Word).toNat ∧ Table.find 1144 s.dev.nodes = none)
      ∧ (NodeKind.ofCode (nodeWords 3).kind.toNat = some .shoreGate ∧ ResponseMode.ofCode (nodeWords 3).faultMode.toNat = some .latch
        ∧ RetryDelay.ofCode (nodeWords 3).faultDelay.toNat = some .long ∧ (nodeWords 3).room.toNat < 768
        ∧ NodeKind.shoreGate.isDoor = true ∧ NodeKind.encoder.isDoor = false ∧ s.dev.creds.encoders.length < 4)
      ∧ doorWordsGive doorWords
        { admitSet := 0x7ff, hoursOpen := 1439, hoursClose := 1439, relock := .onTimer, releaseTime := 5, heldLimit := 10
          forcedMode := .latch, forcedDelay := .short, heldMode := .ignore, heldDelay := .long } true
      ∧ (Table.find 527 s.dev.nodes = some (nodeOf .minibar none) ∧ (nodeOf .minibar none).room ≠ (nodeWords 5).room.toNat
        ∧ ∀ p ∈ s.dev.rooms, p.2.barLink = some 527 → p.2.bar.inSession = false) := by
  refine ⟨⟨⟨rfl, rfl⟩, by decide, by decide, by decide, rfl, rfl⟩, ⟨rfl, rfl, rfl, by decide, rfl, rfl, by decide⟩, ?_, rfl, by decide, by decide⟩
  exact ⟨rfl, rfl, rfl, rfl, rfl, rfl, by decide, by decide, by decide, by decide, by decide⟩

/-- The encoder, idle, and room 214's minibar. -/
theorem witness_RemoveNodeClearsThePlace :
    let s := onDev (fun d => handing .removeNode { d with
      creds := { d.creds with encoders := [(259, { current := none, waiting := [], lastResult := none })] } })
    (s.dev.orderInHand .removeNode 0x20001000 77 false ∧ (1 : Word).toNat < 8 ∧ 1 ≤ (3 : Word).toNat ∧ (3 : Word).toNat ≤ 120
        ∧ 259 = (1 : Word).toNat * 256 + (3 : Word).toNat ∧ Table.find 259 s.dev.nodes = some (nodeOf .encoder none)
        ∧ s.dev.segments[(1 : Word).toNat]? = some segment)
      ∧ (∀ enc, Table.find 259 s.dev.creds.encoders = some enc → enc.current = none ∧ enc.waiting = [])
      ∧ (Table.find 527 s.dev.nodes = some (nodeOf .minibar none) ∧ Table.find 527 s.dev.creds.encoders = none
        ∧ ∀ p ∈ s.dev.rooms, p.2.barLink = some 527 → p.2.bar.inSession = false) :=
  ⟨⟨⟨rfl, rfl⟩, by decide, by decide, by decide, rfl, rfl, rfl⟩, fun _ h => (by cases h; exact ⟨rfl, rfl⟩), rfl, rfl, by decide⟩

/-- A node FAULTED, and one in RETRY_WAIT with its timer due. -/
theorem witness_NodesReturnToPolling :
    let out : Node := { nodeOf .minibar none with state := .faulted, misses := 3 }
    let waits : Node := { nodeOf .minibar none with state := .retryWait, retryTimer := some { count := 2, due := true } }
    let s := handedWith .restoreNode 527 out
    let u := onDev (fun d => { d with nodes := Table.put 527 waits d.nodes })
    (s.dev.orderInHand .restoreNode 0x20001000 77 false ∧ Table.find 527 s.dev.nodes = some out ∧ out.state = .faulted
        ∧ (2 : Word).toNat < 8 ∧ 1 ≤ (15 : Word).toNat ∧ (15 : Word).toNat ≤ 120 ∧ 527 = (2 : Word).toNat * 256 + (15 : Word).toNat)
      ∧ (u.settled ∧ Table.find 527 u.dev.nodes = some waits ∧ 527 = 2 * 256 + 15 ∧ waits.state = .retryWait
        ∧ waits.retryTimer = some { count := 2, due := true }) :=
  ⟨⟨⟨rfl, rfl⟩, rfl, rfl, by decide, by decide, by decide, rfl⟩, rfl, rfl, rfl, rfl, rfl⟩

/-- A door held open beyond the new minute. -/
theorem witness_SetClockTakesTheTime :
    let s := onDev (fun d => handing .setClock { d with
      nodes := [(8, nodeOf .commonDoor (some { doorIn .holdOpen with holdEnd := some 2001 }))] })
    s.dev.orderInHand .setClock 0x20001000 77 false ∧ s.dev.clock.valid = true
      ∧ ∀ key n r, Table.find key s.dev.nodes = some n → n.door = some r →
        (r.state = .holdOpen → ∀ e, r.holdEnd = some e → (2000 : Word).toNat < e.toNat)
          ∧ (r.state = .emergency → ∀ e, r.savedEnd = some e → (2000 : Word).toNat < e.toNat) := by
  refine ⟨⟨rfl, rfl⟩, rfl, fun key n r hf hr => ?_⟩
  have hm := Table.mem_of_find hf
  simp [onDev, handing, nodeOf] at hm
  obtain ⟨-, rfl⟩ := hm
  simp at hr
  subst hr
  exact ⟨fun _ e he => by cases he; decide, fun h => by cases h⟩

/-- An edge with the sense OFF, a level that settles, an order that finds the mode active, and a release with nothing changed. -/
theorem witness_HousePartsAlone :
    (∃ after, atRest.houseEvent .fire (.inputEdge .fire .high) after (.pin .fire) atRest.dev.walker
        ∧ after.active = (atRest.dev.house .fire).active)
      ∧ (∃ after, (onDev (fun d => { d with storm := { d.storm with sampled := .high, settling := true } })).houseEvent .storm
          (.inputSettled .storm) after (.pin .storm) atRest.dev.walker ∧ after.active = false)
      ∧ (∃ after w, (onDev (fun d => handing .houseMode { d with fire := { d.fire with order := true } })).houseEvent .fire
          (.houseMode 0 1) after .order w ∧ after.active = true)
      ∧ (atRest.settled ∧ (atRest.dev.house .fire).sampled = .low ∧ (atRest.dev.house .storm).settling = false
        ∧ atRest.dev.resetHeld = none ∧ heldInReset.dev.resetHeld = some heldInReset.dev.modes) :=
  ⟨⟨_, .inl ⟨.high, rfl, rfl, by decide, rfl, rfl, rfl⟩, rfl⟩, ⟨_, .inr (.inl ⟨rfl, rfl, rfl, rfl, rfl, rfl⟩), rfl⟩,
    ⟨_, _, .inr (.inr ⟨0x20001000, 77, false, 1, rfl, ⟨rfl, rfl⟩, rfl, .inl ⟨rfl, rfl⟩, rfl⟩), rfl⟩, rfl, rfl, rfl, rfl, rfl⟩

/-- The fire panel's edge under RISE_LATCH, with the spa door in service and held open. -/
theorem witness_FireFreesTheDoors :
    let s := onDev (fun d => { d with
      fire := { d.fire with sense := .riseLatch }
      nodes := Table.put 8 (nodeOf .commonDoor (some { doorIn .holdOpen with holdEnd := some 1200 })) d.nodes })
    (∃ after, s.houseEvent .fire (.inputEdge .fire .high) after (.pin .fire) s.dev.walker ∧ s.dev.fire.active = false ∧ after.active = true)
      ∧ s.dev.resetHeld = none ∧ Table.wf s.dev.nodes = true
      ∧ (∀ key n, Table.find key s.dev.nodes = some n → n.state.inService = true → (s.dev.segment (key / 256)).isDisabled = false)
      ∧ Table.keysWhere (fun _ n => n.kind.firesFree && n.state.inService && n.door.isSome) s.dev.nodes = [8] :=
  ⟨⟨_, .inl ⟨.high, rfl, rfl, by decide, rfl, rfl, rfl⟩, rfl, rfl⟩, rfl, by decide,
    of_rows (p := fun key (n : Node) => n.state.inService = true → (((onDev (fun d => { d with
      fire := { d.fire with sense := .riseLatch }
      nodes := Table.put 8 (nodeOf .commonDoor (some { doorIn .holdOpen with holdEnd := some 1200 })) d.nodes })).dev.segment
        (key / 256)).isDisabled = false)) (by decide), by decide⟩

/-- The property with the spa door in a state, its hold ending at one minute and its fire-saved hold at another. -/
def heldDoor (state : DoorState) (holdEnd savedEnd : Option Word) (d : Device) : Device :=
  { d with nodes := [(8, nodeOf .commonDoor (some { doorIn state with holdEnd := holdEnd, savedEnd := savedEnd }))] }

/-- The spa door's commands are taken. -/
theorem heldDoor_reachable (state : DoorState) (holdEnd savedEnd : Option Word) (d : Device) (h : (d.segment 0).isDisabled = false) :
    (heldDoor state holdEnd savedEnd d).doorsReachable := by
  refine ⟨rfl, fun key n hn _ _ => ?_⟩
  have := Table.mem_of_find hn
  simp only [heldDoor, List.mem_singleton, Prod.mk.injEq] at this
  rw [this.1]
  exact h

/-- The end of fire by order, the start of storm by order, and the release of RESET_N with a mode changed since it was taken. -/
theorem witness_FireFreesTheDoors_modes :
    let ends := onDev (fun d => heldDoor .emergency none (some 1200) (handing .houseMode { d with fire := { d.fire with order := true } }))
    let storms := onDev (fun d => heldDoor .holdOpen (some 1200) none (handing .houseMode d))
    let released := onDev (fun d => heldDoor .locked none none { d with resetHeld := some { fire := true, storm := false } })
    (ends.dev.doorsReachable ∧ ends.dev.resetHeld = none ∧ ∃ after w, ends.houseEvent .fire (.houseMode 0 0) after .order w
        ∧ (after.active = true ↔ (ends.dev.house .fire).active = false))
      ∧ (storms.dev.doorsReachable ∧ storms.dev.resetHeld = none ∧ ∃ after w, storms.houseEvent .storm (.houseMode 1 1) after .order w
        ∧ (after.active = true ↔ (storms.dev.house .storm).active = false))
      ∧ released.settled ∧ released.dev.resetHeld = some { fire := true, storm := false } ∧ released.dev.doorsReachable
      ∧ released.dev.fire.active = false :=
  ⟨⟨heldDoor_reachable _ _ _ _ rfl, rfl, _, _, .inr (.inr ⟨0x20001000, 77, false, 0, rfl, ⟨rfl, rfl⟩, rfl, .inr ⟨rfl, rfl⟩, rfl⟩), by decide⟩,
    ⟨heldDoor_reachable _ _ _ _ rfl, rfl, _, _, .inr (.inr ⟨0x20001000, 77, false, 1, rfl, ⟨rfl, rfl⟩, rfl, .inl ⟨rfl, rfl⟩, rfl⟩), by decide⟩,
    rfl, rfl, heldDoor_reachable _ _ _ _ rfl, rfl⟩

/-- A hold, and a fire-saved hold, at the last minute before its end, at its end and past it: the minute gives each an outcome. -/
theorem witness_FireFreesTheDoors_minute (state : DoorState) (holdEnd savedEnd : Option Word) :
    let ticks := onDev (fun d => heldDoor state holdEnd savedEnd { d with clock := { d.clock with second := 59, tickDue := true } })
    let sets := onDev (fun d => heldDoor state holdEnd savedEnd (handing .setClock d))
    (ticks.dev.doorsReachable ∧ ticks.settled ∧ ticks.dev.clock.tickDue = true)
      ∧ (sets.dev.doorsReachable ∧ sets.dev.orderInHand .setClock 0x20001000 77 false ∧ sets.dev.clock.valid = true)
      ∧ ∀ (n : Node) (r : Door) (minute : Word), ∃ o, r.minuteGives n minute o := by
  refine ⟨⟨heldDoor_reachable _ _ _ _ rfl, rfl, rfl⟩, ⟨heldDoor_reachable _ _ _ _ rfl, ⟨rfl, rfl⟩, rfl⟩, fun n r minute => ?_⟩
  by_cases h1 : r.state = .holdOpen ∧ ∃ e, r.holdEnd = some e ∧ e.toNat ≤ minute.toNat
  · exact ⟨_, .inl ⟨h1.1, h1.2, rfl⟩⟩
  by_cases h2 : r.state = .emergency ∧ ∃ e, r.savedEnd = some e ∧ e.toNat ≤ minute.toNat
  · exact ⟨_, .inr (.inl ⟨h2.1, h2.2, rfl⟩)⟩
  · exact ⟨_, .inr (.inr ⟨fun h e he => Nat.lt_of_not_le fun hl => h1 ⟨h, e, he, hl⟩,
      fun h e he => Nat.lt_of_not_le fun hl => h2 ⟨h, e, he, hl⟩, rfl⟩)⟩

/-- The SETUP of section 12.1 at the property, with the read mark read as 0, and at a device whose drain has no region yet. -/
theorem witness_SetupIsTestedAndEstablishes :
    let s := handed .setup
    let first := onDev (fun d => handing .setup { d with journal := Journal.initial })
    (s.dev.orderInHand .setup 0x20001000 77 false ∧ first.dev.orderInHand .setup 0x20001000 77 false ∧ s.dev.segments.length = 8)
      ∧ (∃ plan, setupPlanOf s.dev.regs.commonSize.toNat (setupOf 8) = some plan ∧ plan.segments.length = 8
        ∧ (∀ st ∈ plan.segments, st.enabled = true) ∧ (s.dev.journal.takeMark 0).lastRegion = some plan.region
        ∧ (House.withSense s.dev.fire plan.fireSense).active = s.dev.fire.active
        ∧ (House.withSense s.dev.storm plan.stormSense).active = s.dev.storm.active)
      ∧ (s.dev.journal.region = some { start := 65536, stop := 327680 }
        ∧ first.dev.journal.region = none ∧ first.dev.journal.queue = [] ∧ first.dev.journal.lastRegion = none) :=
  ⟨⟨⟨rfl, rfl⟩, ⟨rfl, rfl⟩, rfl⟩, ⟨_, rfl, rfl, by decide, rfl, rfl, rfl⟩, rfl, rfl, rfl, rfl⟩

/-- A SETUP that leaves segment 0 disabled, with a SIGNAL standing on it; and one whose storm sense makes storm active. -/
theorem witness_SetupIsTestedAndEstablishes_changes :
    let off : SetupParams := { setupOf 8 with segments := { enabled := 0, mode := 0, timeout := 0 } :: (setupOf 7).segments }
    let s := onDev (fun d => handing .setup { d with segments :=
      { segment with queue := [{ addr := 8, command := .signal, attempts := 0 }] } :: List.replicate 7 segment })
    let mode := onDev (fun d => handing .setup { d with storm := { d.storm with settled := some .high } })
    (s.dev.orderInHand .setup 0x20001000 77 false ∧ s.dev.segments.length = 8
        ∧ ∃ plan, setupPlanOf s.dev.regs.commonSize.toNat off = some plan ∧ plan.segments.length = 8
          ∧ (∃ st rest, plan.segments = st :: rest ∧ st.enabled = false ∧ ∀ x ∈ rest, x.enabled = true)
          ∧ (House.withSense s.dev.fire plan.fireSense).active = s.dev.fire.active
          ∧ (House.withSense s.dev.storm plan.stormSense).active = s.dev.storm.active)
      ∧ ((∀ e ∈ (s.dev.segment 0).queue, e.command = .signal ∨ e.command = .abandon) ∧ (s.dev.segment 0).exchange = none
        ∧ (∀ p ∈ s.dev.rooms, ∀ key, p.2.barLink = some key → key / 256 = 0 → p.2.bar.inSession = false)
        ∧ Table.wf s.dev.nodes = true
        ∧ ∀ key n r, Table.find key s.dev.nodes = some n → n.door = some r → n.kind.isDoor = true)
      ∧ ∃ plan, setupPlanOf mode.dev.regs.commonSize.toNat (setupOf 8) = some plan ∧ (∀ st ∈ plan.segments, st.enabled = true)
        ∧ (House.withSense mode.dev.storm plan.stormSense).active = true ∧ mode.dev.storm.active = false := by
  refine ⟨⟨⟨rfl, rfl⟩, rfl, _, rfl, rfl, ⟨_, _, rfl, rfl, by decide⟩, rfl, rfl⟩, ⟨by decide, rfl, ?_, by decide, fun key n r hn hr => ?_⟩,
    _, rfl, by decide, rfl, rfl⟩
  · intro p hp key hk h0
    simp only [onDev, handing, atRest, property, List.mem_cons, List.not_mem_nil, or_false] at hp
    rcases hp with rfl | rfl | rfl <;> cases hk <;> first | rfl | cases h0
  · exact of_rows (p := fun _ (n : Node) => n.door.isSome = true → n.kind.isDoor = true) (by decide) _ _ hn (by rw [hr]; rfl)

/-- A walk with writes outstanding, a walk without, and none. -/
theorem witness_ResetsKeepAndClear :
    ((walking ownWritten false).dev.resetHeld = none ∧ (walking ownWritten false).settled
        ∧ Table.wf (walking ownWritten false).dev.creds.entries = true
        ∧ (∀ q ∈ (walking ownWritten false).dev.creds.entries, q.1 < 4294967296)
        ∧ (walking ownWritten false).dev.walker.walk
          = .walking 0x20001000 false (.writing { cancels := [], own := doneWrites 0x20001000 .done false }))
      ∧ (walking .checking false).dev.walker.walk = .walking 0x20001000 false .checking
      ∧ (∀ block abort w, (walking .checking false).dev.walker.walk ≠ .walking block abort (.writing w)) ∧ atRest.dev.walker.walk = .idle
      ∧ (2#32).getLsbD 1 = true ∧ (0xFFFFFFFF#32).getLsbD 1 = true :=
  ⟨⟨rfl, rfl, by decide, by decide, rfl⟩, rfl, fun _ _ _ h => (by cases h), rfl, by decide, by decide⟩

/-! ## Witnesses: the segments and what nodes answer -/

/-- The property with one segment's state and its own nodes. -/
def turning (g : Segment) (nodes : Table Node) : State :=
  onDev (fun d => { d with nodes := nodes, segments := g :: List.replicate 7 segment })

/-- A node with a pass-over count. -/
def passed (service passOver : Nat) : Node :=
  { nodeOf .shoreGate none with service := service, passOver := passOver }

/-- An owed ACK at the lowest address; the worked case of section 8.4 at its turn 9, in PRIORITY and in ROTATING; a probe, the presence
pointer below and above every node, and a segment without nodes. -/
theorem witness_TurnServesTheFirstCandidate :
    let owed := turning segment [(8, { nodeOf .commonDoor none with owedAck := some (4, .grant) }), (9, nodeOf .commonDoor none)]
    let busy := turning { segment with attention := [40, 61], lastServed := 40 } [(40, passed 3 0), (61, passed 0 8)]
    let probe := turning { segment with presence := 41 } [(40, { passed 3 0 with state := .absent, onProbe := true }), (61, passed 0 0)]
    let polled := turning { segment with presence := 62 } [(40, passed 3 0), (61, passed 0 0)]
    ((atRest.settled ∧ Table.wf atRest.dev.nodes = true) ∧ ((turning Segment.initial []).dev.segment 0).settings = none
        ∧ ((exchanging 8 (nodeOf .commonDoor none)).dev.segment 0).exchange ≠ none)
      ∧ (owed.dev.atTurn 0 segment { enabled := true, mode := .priority, timeout := 10 } ∧ Table.wf owed.dev.nodes = true
        ∧ (∃ n, Table.find (0 * 256 + 8) owed.dev.nodes = some n ∧ n.owedAck.isSome = true)
        ∧ ∀ b n, Table.find (0 * 256 + b) owed.dev.nodes = some n → n.owedAck.isSome = true → 8 ≤ b)
      ∧ (busy.dev.atTurn 0 { segment with attention := [40, 61], lastServed := 40 } { enabled := true, mode := .priority, timeout := 10 }
        ∧ [40, 61].Pairwise (fun a b => a < b) ∧ (∀ a ∈ [40, 61], a < 256 ∧ (Table.find (0 * 256 + a) busy.dev.nodes).isSome = true)
        ∧ (∀ b n, Table.find (0 * 256 + b) busy.dev.nodes = some n → n.owedAck.isSome = false)
        ∧ (∀ b ∈ [40, 61], b ≠ 61 → busy.dev.ahead 0 61 b) ∧ (40 < 61 ∧ ∀ b ∈ [40, 61], 40 < b → 61 ≤ b))
      ∧ ((∃ n, Table.find (0 * 256 + 40) probe.dev.nodes = some n ∧ n.onProbe = true ∧ n.state ≠ .faulted ∧ n.state ≠ .retryWait)
        ∧ ∀ b m, Table.find (0 * 256 + b) probe.dev.nodes = some m → m.onProbe = true → 40 ≤ b)
      ∧ ((∃ n, Table.find (0 * 256 + 40) polled.dev.nodes = some n ∧ n.state ≠ .faulted ∧ n.state ≠ .retryWait)
        ∧ (∀ b m, Table.find (0 * 256 + b) polled.dev.nodes = some m → m.onProbe = false)
        ∧ ∀ b m, Table.find (0 * 256 + b) polled.dev.nodes = some m → b < 62 ∧ 40 ≤ b)
      ∧ ∀ a n, Table.find (0 * 256 + a) (turning segment []).dev.nodes = some n → False := by
  refine ⟨⟨⟨rfl, by decide⟩, rfl, by decide⟩, ⟨⟨rfl, by decide, rfl, rfl, rfl⟩, by decide, ⟨_, rfl, rfl⟩, fun b n h ho => ?_⟩,
    ⟨⟨rfl, by decide, rfl, rfl, rfl⟩, by decide, by decide, fun b n h => ?_, fun b hb hne => ?_, by decide, by decide⟩,
    ⟨⟨_, rfl, rfl, by decide, by decide⟩, fun b m h hp => ?_⟩,
    ⟨⟨_, rfl, by decide, by decide⟩, fun b m h => ?_, fun b m h => ?_⟩, fun a n h => (by cases h)⟩
  · have := of_rows (p := fun k n => n.owedAck.isSome = true → 8 ≤ k) (by decide) _ _ h ho
    omega
  · exact of_rows (p := fun _ n => n.owedAck.isSome = false) (by decide) _ _ h
  · simp only [List.mem_cons, List.not_mem_nil, or_false] at hb
    rcases hb with rfl | rfl
    · exact ⟨_, _, rfl, rfl, .inl ⟨rfl, by decide⟩⟩
    · exact absurd rfl hne
  · have := of_rows (p := fun k n => n.onProbe = true → 40 ≤ k) (by decide) _ _ h hp
    omega
  · exact of_rows (p := fun _ n => n.onProbe = false) (by decide) _ _ h
  · have := of_rows (p := fun k _ => k < 62 ∧ 40 ≤ k) (by decide) _ _ h
    omega

/-- A command handed for a node in service and for one that is FAULTED; a SIGNAL behind a queued command, a command replaced in its place, one
held behind an attempt, and one at the tail. -/
theorem witness_TurnServesTheFirstCandidate_handed :
    let e : Nat → QueueEntry := fun addr => { addr := addr, command := .relock, attempts := 1 }
    let x : Exchange := { addr := 8, carried := some (.relock, 0), next := none, timeout := 10 }
    let g := { segment with queue := [e 7, e 8, e 9] }
    let tried := { segment with queue := [e 7], exchange := some x }
    (property.reachable 8 (nodeOf .commonDoor (some lockedDoor)) ∧ Table.find 8 property.nodes = some (nodeOf .commonDoor (some lockedDoor)))
      ∧ (∀ n, n.state = .faulted → ¬ property.reachable 8 n)
      ∧ (g.queue = [e 7] ++ e 8 :: [e 9] ∧ (e 8).addr = 8 ∧ (∀ y ∈ [e 7] ++ [e 9], y.addr ≠ 8) ∧ ∃ y ∈ g.queue, y.addr = 8)
      ∧ ((∀ y ∈ tried.queue, y.addr ≠ 8) ∧ tried.exchange = some x ∧ x.addr = 8 ∧ x.carried ≠ none)
      ∧ (∀ y ∈ segment.queue, y.addr ≠ 8) ∧ segment.exchange = none := by
  refine ⟨⟨⟨rfl, rfl, rfl⟩, rfl⟩, fun n h hr => ?_, ⟨rfl, rfl, by decide, by decide⟩, ⟨by decide, rfl, rfl, by decide⟩, by decide, rfl⟩
  have := hr.2.1
  rw [h] at this
  cases this

/-- An exchange with the node at a key whose frame carried a command, with another held behind it or not. -/
def carrying (key : Nat) (c : Command) (attempts : Nat) (next : Option Command) (n : Node) : State :=
  onDev (fun d => { d with
    nodes := Table.put key n d.nodes
    segments := d.segments.set (key / 256)
      { segment with exchange := some { addr := key % 256, carried := some (c, attempts), next := next, timeout := 10 } } })

/-- A node in a state with a miss count, of a fault mode. -/
def missing (state : NodeState) (misses : Nat) (mode : ResponseMode) : Node :=
  { nodeOf .minibar none with state := state, misses := misses, faultMode := mode, faultOpen := true }

/-- Each case of a miss: below and at the deglitch count of 3, in every fault mode, and a probe; a command at its first, last and no
attempt. -/
theorem witness_MissesCountAndTakeTheNodeOut (state : NodeState) (misses : Nat) (mode : ResponseMode) (c : Command) (k : Nat)
    (next : Option Command) :
    let n := missing state misses mode
    let quiet := exchanging 527 n
    let busy := carrying 527 c k next n
    (quiet.settled ∧ (∃ x, (quiet.dev.segment 2).exchange = some x ∧ x.addr = 15 ∧ x.carried = none ∧ x.next = none)
        ∧ Table.find 527 quiet.dev.nodes = some n ∧ 527 = 2 * 256 + 15 ∧ n.state = state ∧ n.faultMode = mode ∧ n.misses = misses)
      ∧ (n.door = none ∧ (∀ p ∈ quiet.dev.rooms, p.2.barLink = some 527 → p.2.bar.inSession = false)
        ∧ (∀ e ∈ (quiet.dev.segment 2).queue, e.addr ≠ 15) ∧ Table.find 527 quiet.dev.creds.encoders = none)
      ∧ (busy.settled ∧ Table.find 527 busy.dev.nodes = some n
        ∧ ∃ x, (busy.dev.segment 2).exchange = some x ∧ x.carried = some (c, k) ∧ x.next = next)
      ∧ (min 255 (1 + 1) < 3 ∧ 3 ≤ min 255 (2 + 1)) ∧ (exchanging 526 n).dev.segment 3 = segment := by
  refine ⟨⟨rfl, ⟨_, rfl, rfl, rfl, rfl⟩, rfl, rfl, rfl, rfl, rfl⟩, ⟨rfl, ?_, ?_, rfl⟩, ⟨rfl, rfl, _, rfl, rfl, rfl⟩, by decide, rfl⟩
  · show ∀ p ∈ property.rooms, p.2.barLink = some 527 → p.2.bar.inSession = false
    decide
  · show ∀ e ∈ ([] : List QueueEntry), e.addr ≠ 15
    decide

/-- A frame of address 15 with the attention mark and sequence 5; no frame and an empty one, neither an answer. -/
theorem witness_MissesCountAndTakeTheNodeOut_frame :
    let s := exchanging 527 (nodeOf .minibar none)
    s.settled ∧ (∃ x, (s.dev.segment 2).exchange = some x ∧ x.addr = (15 : Byte).toNat)
      ∧ true = (0x85 : Byte).getLsbD 7 ∧ (5 : BitVec 4).toNat = (0x85 : Byte).toNat % 16
      ∧ (∀ bytes, none = some bytes → answerValid 15 bytes = false) ∧ (∀ bytes, some [] = some bytes → answerValid 15 bytes = false) :=
  ⟨rfl, ⟨_, rfl, rfl⟩, by decide, by decide, fun _ h => (by cases h), fun _ h => (by cases h; rfl)⟩

/-- Every case of a miss at the deglitch count of 3: one that is not counted, counted on, below the count, at it in each fault mode, and a
probe; and every case of the command. -/
theorem witness_MissesCountAndTakeTheNodeOut_cases (k : Nat) (c c' : Command) :
    let g := segment
    let bare : Exchange := { addr := 15, carried := none, next := none, timeout := 10 }
    let x : Exchange := { bare with carried := some (c, k) }
    ((∃ a, (missing .absent 0 .latch).missPolled a false) ∧ (∃ a, (missing .degraded 255 .report).missPolled a false)
        ∧ (∃ a, (missing .online 0 .latch).missPolled a false) ∧ (∃ a, (missing .suspect 1 .retry).missPolled a false)
        ∧ (∃ a, (missing .suspect 2 .report).missPolled a true ∧ a.state = .degraded)
        ∧ ∃ a, (missing .suspect 2 .ignore).missPolled a false ∧ a.state = .degraded)
      ∧ ((∃ a n, (missing .suspect 2 .latch).missOut a .fault n) ∧ (∃ a n, (missing .online 2 .retry).missOut a .fault n)
        ∧ ∃ a n, { missing .absent 0 .latch with onProbe := true }.missOut a .retry n)
      ∧ (g.missQueue bare false [] ∧ (∃ q, g.missQueue { x with next := some c' } false q) ∧ (k < 2 → ∃ q, g.missQueue x false q)
        ∧ (c = .signal → 2 ≤ k → g.missQueue x false [])) :=
  ⟨⟨⟨_, .inl ⟨rfl, rfl, rfl, rfl⟩⟩, ⟨_, .inr (.inl ⟨rfl, rfl, rfl⟩)⟩,
      ⟨_, .inr (.inr (.inl ⟨.inl rfl, by decide, rfl, rfl⟩))⟩, ⟨_, .inr (.inr (.inl ⟨.inr rfl, by decide, rfl, rfl⟩))⟩,
      ⟨_, .inr (.inr (.inr ⟨.inr rfl, by decide, .inl ⟨rfl, rfl, rfl⟩⟩)), rfl⟩,
      ⟨_, .inr (.inr (.inr ⟨.inr rfl, by decide, .inr ⟨rfl, rfl, rfl⟩⟩)), rfl⟩⟩,
    ⟨⟨_, _, .inl ⟨.inr rfl, by decide, rfl, rfl, .inl ⟨rfl, rfl⟩⟩⟩, ⟨_, _, .inl ⟨.inl rfl, by decide, rfl, rfl, .inr ⟨rfl, rfl⟩⟩⟩,
      ⟨_, _, .inr ⟨rfl, rfl, rfl, rfl, rfl⟩⟩⟩,
    .inl ⟨rfl, rfl⟩, ⟨_, .inr (.inl ⟨_, _, _, rfl, rfl, rfl⟩)⟩, fun h => ⟨_, .inr (.inr ⟨_, _, rfl, rfl, .inl ⟨h, rfl⟩⟩)⟩,
    fun h hk => .inr (.inr ⟨_, _, rfl, rfl, .inr ⟨hk, .inl h, rfl⟩⟩)⟩

/-- Room 214's minibar in a guest session, its UNLATCH pending, carried for the third time or standing in the queue. -/
theorem witness_MissesCountAndTakeTheNodeOut_session (pending : Bool) (n : Node) :
    let r : Room := { room214 with bar := .guestOpen, session := some { count := 5, due := false }, unlatchPending := pending }
    let s : State := { carrying 527 .unlatch 2 none n with dev := { (carrying 527 .unlatch 2 none n).dev with rooms := [(214, r)] } }
    (s.settled ∧ (∃ x, (s.dev.segment 2).exchange = some x ∧ x.carried = some (.unlatch, 2) ∧ x.next = none ∧ x.addr = 15
          ∧ (s.dev.segment 2).standing x .unlatch ∧ ∀ c, (s.dev.segment 2).standing x c → c = .unlatch)
        ∧ (s.dev.segment 2).isDisabled = false ∧ Table.find 527 s.dev.nodes = some n)
      ∧ ((214, r) ∈ s.dev.rooms ∧ Table.find 214 s.dev.rooms = some r ∧ r.barLink = some 527 ∧ r.bar.inSession = true
        ∧ (∀ q ∈ s.dev.rooms, q.2.barLink = some 527 → q = (214, r)) ∧ r.unlatchPending = pending) := by
  refine ⟨⟨rfl, ⟨_, rfl, rfl, rfl, rfl, .inr (.inl ⟨_, rfl⟩), fun c h => ?_⟩, rfl, Table.find_put_self _ _ _⟩,
    .head _, rfl, rfl, rfl, fun q hq _ => List.mem_singleton.1 hq, rfl⟩
  rcases h with ⟨e, he, -⟩ | ⟨k, h⟩ | h
  · exact nomatch (he : e ∈ ([] : List QueueEntry))
  · cases h; rfl
  · cases h

/-- A door for which each of its commands is undelivered, and the encoder whose ENCODE is, its job the encoding's or an earlier one. -/
theorem witness_MissesCountAndTakeTheNodeOut_undelivered (state : DoorState) (seconds : Nat) :
    let s := carrying 259 (.encode issue9.image 0) 2 none (nodeOf .encoder none)
    ((∃ o, (doorIn state).undeliveredGives (.release seconds) o) ∧ (∃ o, (doorIn state).undeliveredGives .relock o)
        ∧ ∃ o, (doorIn state).undeliveredGives .hold o)
      ∧ (s.settled ∧ (∃ x, (s.dev.segment 1).exchange = some x ∧ x.carried = some (.encode issue9.image 0, 2) ∧ x.next = none
          ∧ ∀ c, (s.dev.segment 1).standing x c → c = .encode issue9.image 0)
        ∧ (s.dev.segment 1).isDisabled = false ∧ Table.find 259 s.dev.creds.encoders = some writing9
        ∧ ∃ e, writing9.current = some e ∧ e.job = 0 ∧ e.job ≠ 1)
      ∧ s.dev.issuesOf writing9 [(issue9, entry .encoding)] := by
  refine ⟨⟨⟨_, .inl ⟨_, rfl, rfl⟩⟩, ⟨_, .inr (.inl ⟨rfl, rfl⟩)⟩, ?_⟩, ⟨rfl, ⟨_, rfl, rfl, rfl, fun c h => ?_⟩, rfl, rfl, _, rfl, rfl, by decide⟩,
    rfl, by decide, fun p hp => ?_⟩
  · by_cases h : (doorIn state).state = .holdOpen ∨ (doorIn state).state = .emergency
    · exact ⟨_, .inr (.inr (.inl ⟨rfl, h, rfl⟩))⟩
    · exact ⟨_, .inr (.inr (.inr ⟨rfl, fun x => h (.inl x), fun x => h (.inr x), rfl⟩))⟩
  · rcases h with ⟨e, he, -⟩ | ⟨k, h⟩ | h
    · exact nomatch (he : e ∈ ([] : List QueueEntry))
    · cases h; rfl
    · cases h
  · cases List.mem_singleton.1 hp; rfl

/-- A DEGRADED node with its fault open and a HOLD unsent, and an ABSENT door that comes into service. -/
theorem witness_NothingKeepsTheNodeOnline :
    let mended : Node := { nodeOf .commonDoor (some { doorIn .holdOpen with holdUnsent := true }) with
      state := .degraded, misses := 5, faultOpen := true }
    let back : Node := { nodeOf .roomDoor (some { doorIn .unknown with holdUnsent := true }) with state := .absent, onProbe := true, retries := 2, faultOpen := true }
    ((exchanging 8 mended).settled ∧ (exchanging 8 mended).dev.exchangeWith 0 8 mended ∧ mended.state = .degraded)
      ∧ ((exchanging 526 back).settled ∧ (exchanging 526 back).dev.exchangeWith 2 14 back ∧ back.state = .absent
        ∧ back.kind.isDoor = true ∧ (exchanging 526 back).dev.fire.active = false
        ∧ ∃ r, back.door = some r ∧ r.state = .unknown ∧ r.holdUnsent = true) :=
  ⟨⟨rfl, ⟨by decide, ⟨_, rfl⟩, rfl, rfl⟩, rfl⟩, rfl, ⟨by decide, ⟨_, rfl⟩, rfl, rfl⟩, rfl, rfl, rfl, _, rfl, rfl, rfl⟩

/-- An exchange with a door in each state, in which every report is fresh; the door is sound. -/
theorem doorHeard (state : DoorState) :
    (exchanging 526 (nodeOf .roomDoor (some (doorIn state)))).settled
      ∧ (exchanging 526 (nodeOf .roomDoor (some (doorIn state)))).dev.exchangeWith 2 14 (nodeOf .roomDoor (some (doorIn state)))
      ∧ (nodeOf .roomDoor (some (doorIn state))).sound ∧ (nodeOf .roomDoor (some (doorIn state))).lastSeq = some 4
      ∧ (nodeOf .roomDoor (some (doorIn state))).lastSeq ≠ some 5 ∧ 526 = 2 * 256 + 14 :=
  ⟨rfl, ⟨by decide, ⟨_, rfl⟩, rfl, rfl⟩, ⟨rfl, rfl, rfl, rfl, rfl, fun _ h => (by cases h; rfl)⟩, rfl,
    fun h => absurd (congrArg (fun q => q.getD 0) h) (show ¬ (4 : BitVec 4) = 5 by decide), rfl⟩

/-- A door carried a RELOCK, RELEASE or HOLD that is answered, with another command held next or not. -/
theorem witness_NothingKeepsTheNodeOnline_command (state : DoorState) (seconds : Nat) (next : Option Command) (c : Command) :
    let n := nodeOf .roomDoor (some (doorIn state))
    let s := carrying 526 c 0 next n
    (s.settled ∧ (∃ x, (s.dev.segment 2).exchange = some x ∧ x.addr = 14 ∧ x.carried = some (c, 0) ∧ x.next = next)
        ∧ (s.dev.segment 2).isDisabled = false ∧ Table.find 526 s.dev.nodes = some n ∧ n.sound ∧ n.door = some (doorIn state))
      ∧ ((∃ o, (doorIn state).answeredGives .relock o) ∧ (∃ o, (doorIn state).answeredGives .hold o)
        ∧ (∃ o, (doorIn state).answeredGives (.release seconds) o) ∧ ∃ o, (doorIn state).answeredGives .signal o)
      ∧ (Table.wf s.dev.rooms = true ∧ ∀ key i r, (i, r) ∈ s.dev.rooms → r.barLink = some key →
        ∀ i' r', (i', r') ∈ s.dev.rooms → r'.barLink = some key → i' = i) := by
  refine ⟨⟨rfl, ⟨_, rfl, rfl, rfl, rfl⟩, rfl, rfl, (doorHeard state).2.2.1, rfl⟩,
    ⟨?_, ⟨_, .inr (.inr (.inl ⟨.inl rfl, rfl⟩))⟩, ⟨_, .inr (.inr (.inl ⟨.inr ⟨_, rfl⟩, rfl⟩))⟩, _, .inr (.inr (.inr ⟨rfl, rfl⟩))⟩,
    (show Table.wf property.rooms = true by decide), fun key i r h hk i' r' h' hk' => ?_⟩
  · by_cases h : (doorIn state).state = .unknown
    · exact ⟨_, .inl ⟨rfl, h, _, rfl, rfl⟩⟩
    · exact ⟨_, .inr (.inl ⟨rfl, h, rfl⟩)⟩
  · have key_of : ∀ p ∈ property.rooms, p.2.barLink = some key → (p.1 = 214 ∧ key = 527) ∨ (p.1 = 300 ∧ key = 783) := by
      intro p hp hk
      simp only [property, List.mem_cons, List.not_mem_nil, or_false] at hp
      rcases hp with rfl | rfl | rfl <;> cases hk
      · exact .inl ⟨rfl, rfl⟩
      · exact .inr ⟨rfl, rfl⟩
    have h1 := key_of _ h hk
    have h2 := key_of _ h' hk'
    show i' = i
    simp only at h1 h2
    omega

/-- A door of each state that comes into service, freed by fire or not. -/
theorem witness_NothingKeepsTheNodeOnline_service (state : DoorState) (freed : Bool) : ∃ after commands,
    (doorIn state).serviceGives freed after commands := by
  cases state <;> cases freed <;>
    first
    | exact ⟨_, _, .inl ⟨.inl rfl, rfl, rfl⟩⟩
    | exact ⟨_, _, .inl ⟨.inr ⟨rfl, rfl⟩, rfl, rfl⟩⟩
    | exact ⟨_, _, .inr (.inl ⟨by decide, rfl, rfl, rfl⟩)⟩
    | exact ⟨_, _, .inr (.inr (.inl ⟨rfl, rfl, rfl, rfl⟩))⟩
    | exact ⟨_, _, .inr (.inr (.inr ⟨rfl, by decide, by decide, by decide, rfl, rfl⟩))⟩

/-- The bytes of section 11 that reports carry, named and not: every byte means one thing. -/
theorem witness_bytes_of_reports (code position value : Byte) :
    positionMeans 0x82 0 true ∧ positionMeans 0x82 1 false ∧ buttonMeans 0 false ∧ buttonMeans 1 true
      ∧ resultMeans 1 .written ∧ resultMeans 2 .failed ∧ resultMeans 3 .noCard
      ∧ pairsMean [0x6F, 0x04] [6, 15, 0, 4] ∧ pairsMean (List.replicate 6 0) (List.replicate 12 0)
      ∧ (∃ isOpen, positionMeans code position isOpen) ∧ (∃ on, buttonMeans value on) ∧ ∃ result, resultMeans value result := by
  refine ⟨.inl ⟨rfl, rfl⟩, .inr (.inl ⟨rfl, rfl⟩), .inl ⟨rfl, rfl⟩, .inr (.inl ⟨rfl, rfl⟩), .inl ⟨rfl, rfl⟩, .inr (.inl ⟨rfl, rfl⟩),
    .inr (.inr (.inl ⟨rfl, rfl⟩)), ⟨rfl, fun i b h => ?_⟩, ⟨rfl, fun i b h => ?_⟩, ?_, ?_, ?_⟩
  · match i, h with
    | 0, h => cases h; exact ⟨⟨_, rfl, by decide⟩, _, rfl, by decide⟩
    | 1, h => cases h; exact ⟨⟨_, rfl, by decide⟩, _, rfl, by decide⟩
  · obtain ⟨hi, hb⟩ := List.getElem?_eq_some_iff.1 h
    rw [List.length_replicate] at hi
    rw [List.getElem_replicate] at hb
    subst hb
    have h1 : 2 * i < 12 := by omega
    have h2 : 2 * i + 1 < 12 := by omega
    exact ⟨⟨0, by rw [List.getElem?_replicate, if_pos h1], rfl⟩, 0, by rw [List.getElem?_replicate, if_pos h2], rfl⟩
  · by_cases h0 : position = 0
    · exact ⟨_, .inl ⟨h0, rfl⟩⟩
    by_cases h1 : position = 1
    · exact ⟨_, .inr (.inl ⟨h1, rfl⟩)⟩
    exact ⟨_, .inr (.inr ⟨h0, h1, rfl⟩)⟩
  · by_cases h0 : value = 0
    · exact ⟨_, .inl ⟨h0, rfl⟩⟩
    by_cases h1 : value = 1
    · exact ⟨_, .inr (.inl ⟨h1, rfl⟩)⟩
    exact ⟨_, .inr (.inr ⟨h0, h1, rfl⟩)⟩
  · by_cases h1 : value = 1
    · exact ⟨_, .inl ⟨h1, rfl⟩⟩
    by_cases h2 : value = 2
    · exact ⟨_, .inr (.inl ⟨h2, rfl⟩)⟩
    by_cases h3 : value = 3
    · exact ⟨_, .inr (.inr (.inl ⟨h3, rfl⟩))⟩
    exact ⟨_, .inr (.inr (.inr ⟨h1, h2, h3, rfl⟩))⟩

/-- An exchange with room 214's minibar or with the encoder, in which every report is fresh; the node is sound. -/
theorem plainHeard :
    ((exchanging 527 (nodeOf .minibar none)).settled
        ∧ (exchanging 527 (nodeOf .minibar none)).dev.exchangeWith 2 15 (nodeOf .minibar none) ∧ (nodeOf .minibar none).sound
        ∧ (nodeOf .minibar none).lastSeq ≠ some 5 ∧ 527 = 2 * 256 + 15)
      ∧ ((exchanging 259 (nodeOf .encoder none)).settled
        ∧ (exchanging 259 (nodeOf .encoder none)).dev.exchangeWith 1 3 (nodeOf .encoder none) ∧ (nodeOf .encoder none).sound
        ∧ (nodeOf .encoder none).lastSeq ≠ some 5 ∧ 259 = 1 * 256 + 3) :=
  ⟨⟨rfl, ⟨by decide, ⟨_, rfl⟩, rfl, rfl⟩, ⟨rfl, rfl, rfl, rfl, rfl, fun _ h => (by cases h)⟩, by decide, rfl⟩,
    rfl, ⟨by decide, ⟨_, rfl⟩, rfl, rfl⟩, ⟨rfl, rfl, rfl, rfl, rfl, fun _ h => (by cases h)⟩, by decide, rfl⟩

/-- Every state of the door gives an outcome to an opening and to a close. -/
theorem witness_ContactMovesTheDoor (state : DoorState) (isOpen : Bool) :
    (exchanging 526 (nodeOf .roomDoor (some (doorIn state)))).dev.exchangeWith 2 14 (nodeOf .roomDoor (some (doorIn state)))
      ∧ (nodeOf .roomDoor (some (doorIn state))).sound ∧ (∃ o, (doorIn state).contactGives isOpen o)
      ∧ (nodeOf .minibar none).kind.isDoor = false := by
  refine ⟨(doorHeard state).2.1, (doorHeard state).2.2.1, ⟨if isOpen then (doorIn state).reportOpen else (doorIn state).reportClosed, ?_⟩, rfl⟩
  refine ⟨_, _, _, rfl, rfl, rfl, ?_⟩
  cases state <;> cases isOpen <;>
    simp [doorIn, lockedDoor, settings, Door.reportOpen, Door.reportClosed, Door.rest, DoorOut.after, DoorOut.same, DoorOut.withEvent,
      Door.raiseForced, Door.closeInAlarm, Door.timedRelease, startIfStopped, Timer.started]

/-- Room 214's door, its room OCCUPIED, and a door that no room links. -/
theorem witness_ButtonSetsDoNotDisturb :
    let s := exchanging 526 (nodeOf .roomDoor (some lockedDoor))
    (s.dev.exchangeWith 2 14 (nodeOf .roomDoor (some lockedDoor)) ∧ (nodeOf .roomDoor (some lockedDoor)).sound
        ∧ (214, room214) ∈ s.dev.rooms ∧ Table.find 214 s.dev.rooms = some room214 ∧ room214.doorLink = some 526
        ∧ (∀ p ∈ s.dev.rooms, p.2.doorLink = some 526 → p = (214, room214)) ∧ room214.state ≠ .vacant)
      ∧ ∀ p ∈ s.dev.rooms, p.2.doorLink ≠ some 8 :=
  ⟨⟨(doorHeard .locked).2.1, (doorHeard .locked).2.2.1, Table.mem_of_find rfl, rfl, rfl, by decide, by decide⟩, by decide⟩

/-- A node of each kind whose last accepted sequence is the report's. -/
theorem witness_DuplicatesAreAnsweredAlike :
    ((exchanging 526 (nodeOf .roomDoor (some lockedDoor))).dev.exchangeWith 2 14 (nodeOf .roomDoor (some lockedDoor))
        ∧ (nodeOf .roomDoor (some lockedDoor)).sound ∧ (nodeOf .roomDoor (some lockedDoor)).lastSeq = some 4
        ∧ ∃ p ∈ (exchanging 526 (nodeOf .roomDoor (some lockedDoor))).dev.rooms, p.2.doorLink = some 526
          ∧ ∀ q ∈ (exchanging 526 (nodeOf .roomDoor (some lockedDoor))).dev.rooms, q.2.doorLink = some 526 → q = p)
      ∧ ((nodeOf .minibar none).lastSeq = some 4 ∧ (nodeOf .minibar none).kind = .minibar)
      ∧ ((nodeOf .encoder none).lastSeq = some 4 ∧ (nodeOf .encoder none).kind = .encoder
        ∧ Table.find 259 (exchanging 259 (nodeOf .encoder none)).dev.creds.encoders = some writing9) :=
  ⟨⟨(doorHeard .locked).2.1, (doorHeard .locked).2.2.1, rfl, (214, room214), Table.mem_of_find rfl, rfl, by decide⟩, ⟨rfl, rfl⟩, rfl, rfl, rfl⟩

/-- The first test that fails: a byte misread, a denied serial, an unknown one, a suspended card. -/
theorem witness_PresentIsRefusedByTheFirstFailure :
    let n := nodeOf .roomDoor (some lockedDoor)
    let d := (exchanging 526 n).dev
    (d.exchangeWith 2 14 n ∧ n.sound ∧ n.kind ≠ .encoder ∧ ∀ r, n.door = some r → r.state ≠ .emergency ∧ r.state ≠ .holdOpen)
      ∧ firstFailure (d.cardTests n { image7 with room := 215 } (entry .active)) .badRead
      ∧ firstFailure (d.cardTests n (buildImage 4217 5 .guest 214 100) (entry .active)) .revoked
      ∧ firstFailure (d.cardTests n (buildImage 4217 6 .guest 214 100) (entry .active)) .unknown
      ∧ firstFailure (d.cardTests n (buildImage 4217 8 .staff 214 100) { entry .suspended with kind := .staff }) .suspended
      ∧ (d.entryOf 7 = some (entry .active) ∧ d.entryOf 5 = none ∧ d.entryOf 6 = none
        ∧ d.entryOf 8 = some { entry .suspended with kind := .staff })
      ∧ ((nodeOf .encoder none).kind = .encoder ∧ (doorIn .emergency).state = .emergency ∧ (doorIn .holdOpen).state = .holdOpen) := by
  refine ⟨⟨(doorHeard .locked).2.1, (doorHeard .locked).2.2.1, by decide, fun r h => (by cases h; decide)⟩, .inl ⟨by decide, rfl⟩,
    .inr ⟨by decide, .inl ⟨by decide, rfl⟩⟩, .inr ⟨by decide, .inr ⟨by decide, .inl ⟨by decide, rfl⟩⟩⟩,
    .inr ⟨by decide, .inr ⟨by decide, .inr ⟨rfl, .inr ⟨by decide, .inr ⟨by decide, .inl ⟨by decide, rfl⟩⟩⟩⟩⟩⟩, ⟨rfl, rfl, rfl, rfl⟩,
    rfl, rfl, rfl⟩

/-- Room 214's card at its door and at its minibar passes every test; the minibar may open. -/
theorem witness_PresentThatPassesIsGranted :
    let n := nodeOf .roomDoor (some lockedDoor)
    let m := nodeOf .minibar none
    ((∀ p ∈ (exchanging 526 n).dev.cardTests n image7 (entry .active), p.2) ∧ n.kind.isDoor = true ∧ n.door = some lockedDoor
        ∧ ∃ o, lockedDoor.grantGives o)
      ∧ ((∀ p ∈ (exchanging 527 m).dev.cardTests m image7 (entry .active), p.2) ∧ m.kind = .minibar ∧ m.door = none)
      ∧ ((214, room214) ∈ (exchanging 527 m).dev.rooms ∧ room214.barLink = some 527
        ∧ (∀ q ∈ (exchanging 527 m).dev.rooms, q.2.barLink = some 527 → q = (214, room214)) ∧ room214.bar.inSession = false
        ∧ ((exchanging 527 m).dev.beforeReport 527 m 5).journal.load < 64 ∧ ((exchanging 527 m).dev.beforeReport 527 m 5).journal.reserved < 24
        ∧ ¬ (entry .active).may 7 ∧ (exchanging 527 m).dev.clock.valid = true ∧ room214.state = .occupied ∧ room214.bar ≠ .suspended) := by
  refine ⟨⟨?_, rfl, rfl, ⟨_, _, _, rfl, rfl, .inl ⟨.inr rfl, rfl⟩⟩⟩, ⟨?_, rfl, rfl⟩, Table.mem_of_find rfl, rfl, by decide, rfl, by decide,
    by decide, (show ¬ (BitVec.getLsbD (3 : BitVec 11) 7 = true) by decide), rfl, rfl, by decide⟩
  · simp only [Device.cardTests, List.forall_mem_cons, List.not_mem_nil, false_imp_iff, implies_true, and_true]
    refine ⟨by decide, by decide, rfl, by decide, by decide, by decide, fun _ => by decide,
      fun _ => ⟨120, .inl ⟨rfl, ⟨rfl, rfl⟩, rfl⟩, by decide⟩, fun h => (by cases h),
      .inl ⟨_, rfl, 0, by decide, rfl, by decide, by decide⟩, fun _ => ⟨_, rfl, rfl⟩, fun _ _ => .inl ⟨rfl, rfl⟩,
      fun r h ho => ?_, fun r h ho => ?_, fun h => (by cases h)⟩
    · cases h; exact absurd rfl ho
    · cases h; exact absurd rfl ho
  · simp only [Device.cardTests, List.forall_mem_cons, List.not_mem_nil, false_imp_iff, implies_true, and_true]
    exact ⟨by decide, by decide, rfl, by decide, by decide, by decide, fun _ => by decide,
      fun _ => ⟨0, .inr ⟨fun h => (by cases h.2.1), rfl⟩, by decide⟩, fun h => (by cases h), .inr ⟨rfl, .inl ⟨rfl, rfl⟩⟩,
      fun _ => ⟨_, rfl, rfl⟩, fun h => (by cases h), fun r h => (by cases h), fun r h => (by cases h), fun h => (by cases h)⟩

/-- Room 214's minibar in a guest session, out of session, and orphaned; twelve counts reported. -/
theorem witness_TallySettlesTheSlots (bar : BarState) (orphan : Bool) :
    let m := nodeOf .minibar none
    let r : Room := { room214 with bar := bar, orphan := orphan }
    let s : State := { exchanging 527 m with dev := { (exchanging 527 m).dev with rooms := [(214, r)] } }
    (s.settled ∧ s.dev.exchangeWith 2 15 m ∧ m.sound ∧ m.lastSeq ≠ some 5 ∧ m.kind = .minibar)
      ∧ ((214, r) ∈ s.dev.rooms ∧ Table.find 214 s.dev.rooms = some r ∧ r.barLink = some 527
        ∧ (∀ q ∈ s.dev.rooms, q.2.barLink = some 527 → q = (214, r)) ∧ r.bar = bar ∧ r.orphan = orphan
        ∧ (List.replicate 12 (0 : BitVec 4)).length = r.slots.length)
      ∧ ((nodeOf .encoder none).kind ≠ .minibar ∧ ∀ p ∈ (exchanging 783 m).dev.rooms, p.2.barLink ≠ some 784) :=
  ⟨⟨rfl, ⟨by decide, ⟨_, rfl⟩, rfl, rfl⟩, plainHeard.1.2.2.1, plainHeard.1.2.2.2.1, rfl⟩,
    ⟨.head _, rfl, rfl, fun q hq _ => List.mem_singleton.1 hq, rfl, rfl, rfl⟩, by decide, by decide⟩

/-- The encoder writing, and the same encoder idle; a card denied before. -/
theorem witness_EncodingResultSettles :
    let s := exchanging 259 (nodeOf .encoder none)
    (s.dev.exchangeWith 1 3 (nodeOf .encoder none) ∧ (nodeOf .encoder none).sound ∧ Table.find 259 s.dev.creds.encoders = some writing9
        ∧ (∃ c timer, writing9.current = some c ∧ c.timer = some timer ∧ s.dev.entryOf c.issue.serial = some (entry .encoding)
          ∧ c.issue.supersede = false) ∧ writing9.waiting = [])
      ∧ ((({ current := none, waiting := [], lastResult := none } : Encoder).current = none) ∧ (nodeOf .minibar none).kind ≠ .encoder) :=
  ⟨⟨plainHeard.2.2.1, plainHeard.2.2.2.1, rfl, ⟨_, _, rfl, rfl, rfl, rfl⟩, rfl⟩, rfl, by decide⟩

/-- The encoder writing serial 9 with SUPERSEDE set, and serial 7 the other guest card of the room. -/
theorem witness_EncodingResultSettles_supersede :
    let enc : Encoder := { writing9 with
      current := some { issue := { issue9 with supersede := true }, timer := some { count := 3, due := false }, job := 0 } }
    let s : State := { exchanging 259 (nodeOf .encoder none) with dev := { (exchanging 259 (nodeOf .encoder none)).dev with
      creds := { property.creds with encoders := [(259, enc)] } } }
    (s.settled ∧ s.dev.exchangeWith 1 3 (nodeOf .encoder none) ∧ Table.find 259 s.dev.creds.encoders = some enc
        ∧ (∃ c timer, enc.current = some c ∧ c.timer = some timer ∧ c.issue.supersede = true ∧ c.issue.serial = 9)
        ∧ s.dev.entryOf 9 = some (entry .encoding) ∧ Table.wf s.dev.creds.entries = true
        ∧ ∀ p ∈ s.dev.creds.entries, p.1 < 4294967296)
      ∧ (∀ serial, serial ∈ ([7] : List Word) ↔ serial ≠ 9 ∧ ∃ x, s.dev.entryOf serial = some x ∧ x.kind = .guest ∧ x.room = 214)
      ∧ ([7] : List Word).Pairwise (fun a b => a.toNat < b.toNat) ∧ s.dev.issuesStand [7] := by
  refine ⟨⟨rfl, plainHeard.2.2.1, rfl, ⟨_, _, rfl, rfl, rfl, rfl⟩, rfl, by decide, by decide⟩, fun serial => ⟨fun h => ?_, ?_⟩, by decide,
    by decide, by decide, fun serial h => ?_⟩
  · cases List.mem_singleton.1 h; exact ⟨by decide, _, rfl, rfl, rfl⟩
  · rintro ⟨hne, e, h, hk, -⟩
    have := of_rows (p := fun k (e : Entry) => e.kind = .guest → k = 7 ∨ k = 9) (by decide) _ _ h hk
    rcases this with h7 | h9
    · exact List.mem_singleton.2 (BitVec.eq_of_toNat_eq h7)
    · exact absurd (BitVec.eq_of_toNat_eq h9) hne
  · cases List.mem_singleton.1 h; exact ⟨_, rfl, fun h => (by cases h)⟩

/-! ## Witnesses: the invariants, at the property with commands waiting, where a step answers a next state -/

/-- The property about to take a second. -/
def ticking : State :=
  { atRest with pending := [.secondPulse] }

theorem witness_MemoryClockAndInputsKeepTheirForm :
    ticking.memoryCanonical ∧ ticking.dev.clock.shapeOk ∧ ticking.dev.fire.shapeOk ∧ ticking.dev.storm.shapeOk
      ∧ ∃ t, step ticking = .next t := ⟨rfl, ⟨by decide, by decide⟩, ⟨by decide, by decide⟩, ⟨by decide, by decide⟩, _, rfl⟩

theorem witness_JournalStaysBounded : ticking.dev.journal.bounded ∧ ∃ t, step ticking = .next t :=
  ⟨⟨by decide, by decide, by decide, by decide⟩, _, rfl⟩

theorem witness_FoliosKeepTheSuspensionRule : ticking.dev.foliosOk ∧ ∃ t, step ticking = .next t := by
  refine ⟨fun p hp => ?_, _, rfl⟩
  simp only [ticking, atRest, property, List.mem_cons, List.not_mem_nil, or_false] at hp
  rcases hp with rfl | rfl | rfl
  · exact ⟨⟨by decide, by decide, by decide, by decide, by decide⟩, .inr (.inr ⟨rfl, by decide⟩)⟩
  · exact ⟨⟨by decide, by decide, by decide, by decide, by decide⟩, .inr (.inr ⟨rfl, by decide⟩)⟩
  · exact ⟨⟨by decide, by decide, by decide, by decide, by decide⟩, .inl rfl⟩

theorem witness_SessionsHoldTheirReservations : ticking.dev.sessionsReserved ∧ ∃ t, step ticking = .next t :=
  ⟨⟨by decide, by decide, by decide⟩, _, rfl⟩

theorem witness_NoSerialIsHeldAndDenied : ticking.dev.serialsOk ∧ ∃ t, step ticking = .next t :=
  ⟨⟨by decide, by decide, by decide, by decide, by decide⟩, _, rfl⟩

end Sys2Proof.Tests
end

section
/-! The lines of a settlement and their amount (sections 6.1 and 6.2): what the recursion over the slots gives, slot by slot. -/

namespace Sys2Proof.Machine

/-! ## The tax and the amount of one line -/

/-- The tax lies within half a cent of the exact tax, an exact half cent upward (R108). -/
theorem lineTax_rounds (net rate : Nat) :
    10000 * lineTax net rate ≤ net * rate + 5000 ∧ net * rate < 10000 * lineTax net rate + 5000 := by
  unfold lineTax
  omega

/-- The largest tax is that of the largest net at the largest rate (R108). -/
theorem lineTax_le {net rate : Nat} (hn : net ≤ 750000) (hr : rate ≤ 3000) : lineTax net rate ≤ 225000 := by
  have hp : net * rate ≤ 750000 * 3000 := Nat.mul_le_mul hn hr
  unfold lineTax
  omega

/-- The amount of an item's line, where the tariff holds the item and the rate of its class (R107 to R109). -/
theorem Tariff.amount_item {t : Tariff} {i rate : Nat} {item : TariffItem} (hi : t.items[i]? = some item)
    (hr : t.rates[item.taxClass]? = some rate) (count : Nat) :
    t.amount (some i) count = count * item.price + lineTax (count * item.price) rate := by
  simp [Tariff.amount, Tariff.priceAndRate, pricedAmount, List.getD_eq_getElem?_getD, hi, hr]

/-! ## From slots to lines -/

/-- The line of the slot at a place, which a settlement keeps where the slot's delta is not 0 (R107, R109). -/
def Tariff.lineAt (t : Tariff) (q : (Slot × Nat) × Nat) : ChargeLine :=
  { slot := q.2, item := q.1.1.item, delta := q.1.1.delta q.1.2, amount := t.amount q.1.1.item (q.1.1.delta q.1.2).natAbs }

@[simp] theorem Tariff.lines_nil (t : Tariff) (k : Nat) : t.lines k [] = [] := rfl

/-- A slot that has not moved makes no line. -/
theorem Tariff.lines_cons_unmoved (t : Tariff) (k : Nat) {p : Slot × Nat} (rest : List (Slot × Nat)) (h : p.1.delta p.2 = 0) :
    t.lines k (p :: rest) = t.lines (k + 1) rest := by
  simp only [Tariff.lines, if_pos h]

/-- A slot that has moved makes its line, ahead of those of the slots after it. -/
theorem Tariff.lines_cons_moved (t : Tariff) (k : Nat) {p : Slot × Nat} (rest : List (Slot × Nat)) (h : p.1.delta p.2 ≠ 0) :
    t.lines k (p :: rest) = t.lineAt (p, k) :: t.lines (k + 1) rest := by
  simp only [Tariff.lines, if_neg h, Tariff.lineAt]

/-- The lines are those of the moved slots, in ascending order (R107). -/
theorem Tariff.lines_eq_filter_map (t : Tariff) (k : Nat) (reports : List (Slot × Nat)) :
    t.lines k reports = ((reports.zipIdx k).filter (fun q => decide (q.1.1.delta q.1.2 ≠ 0))).map t.lineAt := by
  induction reports generalizing k with
  | nil => rfl
  | cons p rest ih =>
    by_cases h : p.1.delta p.2 = 0
    · simp [t.lines_cons_unmoved k rest h, ih, h]
    · simp [t.lines_cons_moved k rest h, ih, h]

/-! ## From lines to the settlement amount -/

/-- What a slot adds to the settlement amount: its amount where goods were taken, less its amount where they were returned (R109). -/
def Tariff.signedAmount (t : Tariff) (p : Slot × Nat) : Int :=
  if 0 < p.1.delta p.2 then (t.amount p.1.item (p.1.delta p.2).natAbs : Int)
  else if p.1.delta p.2 < 0 then -(t.amount p.1.item (p.1.delta p.2).natAbs : Int)
  else 0

/-- A slot that has not moved adds nothing. -/
theorem Tariff.signedAmount_unmoved (t : Tariff) {p : Slot × Nat} (h : p.1.delta p.2 = 0) : t.signedAmount p = 0 := by
  simp [Tariff.signedAmount, h]

/-- A slot that has moved adds its line's signed amount. -/
theorem Tariff.signed_lineAt (t : Tariff) {p : Slot × Nat} (k : Nat) (h : p.1.delta p.2 ≠ 0) :
    (t.lineAt (p, k)).signed = t.signedAmount p := by
  rcases lt_or_gt_of_ne h with hneg | hpos
  · simp [ChargeLine.signed, Tariff.lineAt, Tariff.signedAmount, hneg, hneg.not_gt]
  · simp [ChargeLine.signed, Tariff.lineAt, Tariff.signedAmount, hpos]

/-- The settlement amount is the sum over all the slots, the unmoved ones adding nothing (R109). -/
theorem settlementAmount_lines (t : Tariff) (k : Nat) (reports : List (Slot × Nat)) :
    settlementAmount (t.lines k reports) = (reports.map t.signedAmount).sum := by
  induction reports generalizing k with
  | nil => rfl
  | cons p rest ih =>
    by_cases h : p.1.delta p.2 = 0
    · rw [t.lines_cons_unmoved k rest h, ih, List.map_cons, List.sum_cons, t.signedAmount_unmoved h, zero_add]
    · rw [t.lines_cons_moved k rest h, settlementAmount, ih, List.map_cons, List.sum_cons, t.signed_lineAt k h]

/-! ## The obligation -/

/-- Settles O36. The deltas and amounts that the statement describes are the model's own on every reported slot; what is left is the
recursion over the slots, settled by `Tariff.lines_eq_filter_map` and `settlementAmount_lines`. -/
theorem linesArePricedByTheTariff : Obligations.LinesArePricedByTheTariff := by
  refine ⟨?_, ?_⟩
  · rintro net rate _ rfl
    exact ⟨(lineTax_rounds net rate).1, (lineTax_rounds net rate).2, lineTax_le⟩
  intro tariff reports delta amount hdelta hempty hitem hpriced
  obtain rfl : delta = fun p => p.1.delta p.2 := funext hdelta
  have hamount : ∀ p ∈ reports, amount p = tariff.amount p.1.item (p.1.delta p.2).natAbs := by
    intro p hp
    cases hi : p.1.item with
    | none => exact hempty p hi
    | some i =>
      obtain ⟨item, rate, hit, hrt⟩ := hpriced p hp i hi
      rw [Tariff.amount_item hit hrt]
      exact hitem p i item rate _ hi hit hrt rfl
  constructor
  · rw [Tariff.lines_eq_filter_map]
    refine List.map_congr_left fun q hq => ?_
    have hmem : q.1 ∈ reports := List.fst_mem_of_mem_zipIdx (List.mem_of_mem_filter hq)
    simp only [Tariff.lineAt, hamount q.1 hmem]
  · rw [settlementAmount_lines]
    refine congrArg List.sum (List.map_congr_left fun p hp => ?_)
    simp only [Tariff.signedAmount, hamount p hp]

end Sys2Proof.Machine
end

section
/-! POST_FOLIO and SET_CEILING (sections 5.6 and 6.5): what their owner's step does at a room that the table holds. -/

namespace Sys2Proof.Machine

/-! ## Stage five on a room -/

/-- Stage five for an amount of 0 or more (R111). -/
theorem post_of_nonneg (balance ceiling unposted : Nat) {a : Int} (h : 0 ≤ a) :
    post balance ceiling unposted a = postCharge balance ceiling unposted a.toNat := by
  rw [post, if_pos h, show a.natAbs = a.toNat by omega]

/-- Stage five for a credit (R112). -/
theorem post_of_neg (balance ceiling unposted : Nat) {a : Int} (h : a < 0) :
    post balance ceiling unposted a = postCredit balance unposted (-a).toNat := by
  rw [post, if_neg (by omega), show a.natAbs = (-a).toNat by omega]

/-- A room after stage five and the suspension rule: the posting's balance and unposted sum, and the minibar by them (R88). -/
theorem Room.suspension_posted {r : Room} {a : Int} {balance unposted moved excess lost : Nat} {saturated : Bool}
    (h : post r.balance r.ceiling r.unposted a = { balance, unposted, moved, excess, lost, saturated }) :
    (r.posted a).suspension = { r with
      balance := balance, unposted := unposted
      bar := if r.bar.inSession then r.bar else if r.ceiling - balance < r.openFloor ∨ 0 < unposted then .suspended else .locked } := by
  rw [Room.posted, h]
  exact Room.suspension_amounts r balance unposted r.ceiling

/-- A room after a new ceiling and the suspension rule: the balance above the ceiling moved to the unposted sum, and the minibar by what
they come to (R88, R115). -/
theorem Room.suspension_withCeiling {r : Room} {ceiling balance unposted : Nat} (hb : (r.withCeiling ceiling).balance = balance)
    (hu : (r.withCeiling ceiling).unposted = unposted) :
    (r.withCeiling ceiling).suspension = { r with
      ceiling := ceiling, balance := balance, unposted := unposted
      bar := if r.bar.inSession then r.bar else if ceiling - balance < r.openFloor ∨ 0 < unposted then .suspended else .locked } := by
  subst hb hu
  exact Room.suspension_amounts r _ _ ceiling

/-! ## The owner's step -/

/-- POST_FOLIO at a room that the table holds (R102, R115). -/
theorem Device.postFolio_found {d : Device} {room : Word} {r : Room} {balance unposted moved excess lost : Nat} {saturated : Bool}
    (amount : Word) (hroom : room.toNat < 768) (hf : Table.find room.toNat d.rooms = some r)
    (hp : post r.balance r.ceiling r.unposted (clampAmount amount.toInt)
      = { balance, unposted, moved, excess, lost, saturated }) :
    d.postFolio room amount
      = (d.modifyRoom room.toNat (fun x => (x.posted (clampAmount amount.toInt)).suspension),
        { code := .done
          clamped := decide (clampAmount amount.toInt ≠ amount.toInt)
          words := [natWord balance, natWord unposted, natWord excess, natWord lost, flagWord saturated] }) := by
  rw [Device.postFolio, Device.withRoom_found hroom hf]
  simp only [hp]

/-- SET_CEILING at a room that the table holds (R103, R115). -/
theorem Device.setCeiling_found {d : Device} {room : Word} {r : Room} {balance unposted : Nat} (ceiling : Word) (hroom : room.toNat < 768)
    (hf : Table.find room.toNat d.rooms = some r) (hb : (r.withCeiling (min Config.moneyCap ceiling.toNat)).balance = balance)
    (hu : (r.withCeiling (min Config.moneyCap ceiling.toNat)).unposted = unposted) :
    d.setCeiling room ceiling
      = (d.modifyRoom room.toNat (fun x => (x.withCeiling (min Config.moneyCap ceiling.toNat)).suspension),
        { code := .done
          clamped := decide (Config.moneyCap < ceiling.toNat)
          words := [natWord r.ceiling, natWord balance, natWord unposted] }) := by
  subst hb hu
  rw [Device.setCeiling, Device.withRoom_found hroom hf, clampTop_eq]

/-! ## The obligation -/

/-- Settles O33. The figures that the statement gives are those of stage five in either branch, and of the new ceiling; each order then
edits one room, to `Room.suspension_posted` and to `Room.suspension_withCeiling`. -/
theorem folioOrders : Obligations.FolioOrders := by
  intro s room block tag abort r hroom hf
  refine ⟨?_, ?_⟩
  · rintro amount a balance unposted excess lost saturated hw rfl hcase
    obtain ⟨moved, hp⟩ : ∃ moved, post r.balance r.ceiling r.unposted (clampAmount amount.toInt)
        = { balance, unposted, moved, excess, lost, saturated } := by
      rcases hcase with ⟨hnonneg, posted, rfl, rfl, rfl, rfl, rfl, rfl⟩ | ⟨hneg, first, second, rfl, rfl, rfl, rfl, rfl, rfl, rfl⟩
      · exact ⟨_, post_of_nonneg _ _ _ hnonneg⟩
      · exact ⟨_, post_of_neg _ _ _ hneg⟩
    rw [← Room.suspension_posted hp]
    exact exec_roomOrder (fun _ x => x.postFolio room amount) (fun x => (x.posted (clampAmount amount.toInt)).suspension) _ hw hf
      (exec_postFolio room amount s) (Device.postFolio_found amount hroom hf hp)
  · rintro ceiling _ balance unposted hw rfl hb hu
    rw [← Room.suspension_withCeiling hb.symm hu.symm]
    exact exec_roomOrder (fun _ x => x.setCeiling room ceiling)
      (fun x => (x.withCeiling (min Config.moneyCap ceiling.toNat)).suspension) _ hw hf (exec_setCeiling room ceiling s)
      (Device.setCeiling_found ceiling hroom hf hb.symm hu.symm)

end Sys2Proof.Machine
end

section
/-! Every command completes (R155): it answers a next state, keeps the commands that wait, and leaves no report undelivered. -/

namespace Sys2Proof.Machine

/-- What a command does to the state, which `commit` carries out. -/
def effect : Instr → State → State
  | .powerOn fire storm => fun t => t.powerOn fire storm
  | .boardReset progress => fun t => t.boardReset progress
  | .resetNRelease => fun t => t.onDevice Device.releaseReset
  | .softReset value progress => fun t => t.writeControl value progress
  | .alertEnable value => fun t => t.writeControl value { block := 0, page := 0, placement := 0 }
  | .registerWrite value => fun t => t.onDevice (fun d => d.writeRegister (fun x => x.writeMask value))
  | .commonBase value => fun t => t.onDevice (fun d => d.writeRegister (fun x => x.writeBase value))
  | .commonSize value => fun t => t.onDevice (fun d => d.writeRegister (fun x => x.writeSize value))
  | .chainHeadStart value => fun t => t.onDevice (fun d => d.writeRegister (fun x => x.writeChainHead value))
  | .chainHeadAbort => fun t => t.onDevice (fun d => d.writeRegister (fun x => x.writeChainHead 0))
  | .statusClear value => fun t => t.onDevice (fun d => d.writeRegister (fun x => x.clearStatus value))
  | .blockCheck header kindParam => fun t => t.checkBlock header kindParam
  | .linkReread link => fun t => t.rereadLink link
  | .settlementWrite => State.writeSettlement
  | .memoryError access accepted => fun t => t.portError access accepted
  | .setup p mark => fun t => t.onDevice (fun d => d.runOrder .setup 32 (fun _ x => x.setup p mark))
  | .setClock minute second => fun t => t.onDevice (fun d => d.runOrder .setClock 2 (fun _ x => x.setClock minute second))
  | .houseMode mode action => fun t => t.onDevice (fun d => d.runOrder .houseMode 2 (fun _ x => x.houseMode mode action))
  | .issueCard encSeg encAddr serial kind room validFrom validUntil privileges supersede => fun t => t.onDevice (fun d =>
    d.runOrder .issueCard 9 (Device.issueCard encSeg encAddr serial kind room validFrom validUntil privileges supersede))
  | .revokeCard serial denyUnknown => fun t => t.onDevice (fun d => d.runOrder .revokeCard 2 (Device.revokeCard serial denyUnknown))
  | .extendCard serial validUntil => fun t => t.onDevice (fun d => d.runOrder .extendCard 2 (Device.extendCard serial validUntil))
  | .suspendCard serial => fun t => t.onDevice (fun d => d.runOrder .suspendCard 1 (Device.moveCard .active .suspended .suspended serial))
  | .resumeCard serial => fun t => t.onDevice (fun d => d.runOrder .resumeCard 1 (Device.moveCard .suspended .active .resumed serial))
  | .readCard serial => fun t => t.onDevice (fun d => d.runOrder .readCard 1 (Device.readCard serial))
  | .defineRoom room code doorSeg doorAddr barSeg barAddr grace openFloor defaultCeiling => fun t => t.onDevice (fun d =>
    d.runOrder .defineRoom 9 (fun _ x => x.defineRoom room code doorSeg doorAddr barSeg barAddr grace openFloor defaultCeiling))
  | .checkIn room source ceiling => fun t => t.onDevice (fun d => d.runOrder .checkIn 3 (fun _ x => x.checkIn room source ceiling))
  | .checkOut room => fun t => t.onDevice (fun d => d.runOrder .checkOut 1 (Device.checkOut room))
  | .setRoomState room newState => fun t => t.onDevice (fun d => d.runOrder .setRoomState 2 (fun _ x => x.setRoomState room newState))
  | .readRoom room => fun t => t.onDevice (fun d => d.runOrder .readRoom 1 (fun _ x => x.readRoom room))
  | .doorCommandRelease seg addr action endMinute =>
    fun t => t.onDevice (fun d => d.runOrder .doorCommand 4 (fun _ x => x.doorCommand seg addr action endMinute))
  | .doorCommandRelock seg addr action endMinute =>
    fun t => t.onDevice (fun d => d.runOrder .doorCommand 4 (fun _ x => x.doorCommand seg addr action endMinute))
  | .doorCommandHold seg addr action endMinute =>
    fun t => t.onDevice (fun d => d.runOrder .doorCommand 4 (fun _ x => x.doorCommand seg addr action endMinute))
  | .clearAlarm seg addr => fun t => t.onDevice (fun d => d.runOrder .clearAlarm 2 (fun _ x => x.clearAlarm seg addr))
  | .setSlots room slots => fun t => t.onDevice (fun d => d.runOrder .setSlots 25 (fun _ x => x.setSlots room slots))
  | .postFolio room amount => fun t => t.onDevice (fun d => d.runOrder .postFolio 2 (fun _ x => x.postFolio room amount))
  | .setCeiling room ceiling => fun t => t.onDevice (fun d => d.runOrder .setCeiling 2 (fun _ x => x.setCeiling room ceiling))
  | .setTariff target index value taxClass =>
    fun t => t.onDevice (fun d => d.runOrder .setTariff 4 (fun _ x => x.setTariff target index value taxClass))
  | .defineNode p door =>
    fun t => t.onDevice (fun d => d.runOrder .defineNode (if doorKindWord p.kind then 18 else 8) (fun _ x => x.defineNode p door))
  | .removeNode seg addr => fun t => t.onDevice (fun d => d.runOrder .removeNode 2 (fun _ x => x.removeNode seg addr))
  | .restoreNode seg addr => fun t => t.onDevice (fun d => d.runOrder .restoreNode 2 (fun _ x => x.restoreNode seg addr))
  | .readNode seg addr => fun t => t.onDevice (fun d => d.runOrder .readNode 2 (fun _ x => x.readNode seg addr))
  | .secondPulse => State.secondPulse
  | .minuteTick => fun t => t.onDevice (fun d => d.tickIfDue)
  | .releaseTimerExpiry seg addr => fun t => t.onDevice (fun d =>
    d.doorEvent (nodeKey seg addr) (fun _ r => if Timer.isDue r.releaseTimer then r.releaseExpiry else .same r))
  | .heldTimerExpiry seg addr => fun t => t.onDevice (fun d =>
    d.doorEvent (nodeKey seg addr) (fun _ r => if Timer.isDue r.heldTimer then r.heldExpiry else .same r))
  | .alarmDelayExpiry seg addr => fun t => t.onDevice (fun d =>
    d.doorEvent (nodeKey seg addr) (fun n r => if Timer.isDue r.delayTimer then r.delayExpiry n.state.isOut else .same r))
  | .sessionLimit room => fun t => t.onDevice (fun d => d.sessionExpired room)
  | .encodingTimeout seg addr => fun t => t.onDevice (fun d => d.encodingExpired (nodeKey seg addr))
  | .retryTimerExpiry seg addr => fun t => t.onDevice (fun d => d.retryExpired (nodeKey seg addr))
  | .inputEdge pin level => fun t => t.onDevice (fun d => d.inputEdge pin level)
  | .inputSettled pin => fun t => t.onDevice (fun d => d.inputSettled pin)
  | .segmentTurn seg => fun t => t.onDevice (fun d => d.turn seg)
  | .miss seg frame undeliveredFirst => fun t => t.onDevice (fun d => d.miss seg frame undeliveredFirst)
  | .strayFrame _ _ => id
  | .nothing seg attention => fun t => t.onDevice (fun d => d.answer seg attention none)
  | .present seg attention seq image => fun t => t.onDevice (fun d => d.answer seg attention (some (seq, .present image)))
  | .contact seg attention seq position => fun t => t.onDevice (fun d => d.answer seg attention (some (seq, contactBody position)))
  | .tally seg attention seq position pairs =>
    fun t => t.onDevice (fun d => d.answer seg attention (some (seq, tallyBody position pairs)))
  | .button seg attention seq value => fun t => t.onDevice (fun d => d.answer seg attention (some (seq, buttonBody value)))
  | .encResult seg attention seq code => fun t => t.onDevice (fun d => d.answer seg attention (some (seq, resultBody code)))
  | .placementComplete => State.completePlacement
  | .readMarkReread value => fun t => t.onDevice (fun d => d.rereadMark value)

/-- Every command is its effect on the state, carried out. -/
theorem exec_eq_commit (c : Instr) (s : State) : exec c s = commit s (effect c) := by
  cases c <;> rfl

/-- A board reset leaves the queue of commands. -/
theorem State.boardReset_pending (s : State) (p : PortProgress) : (s.boardReset p).pending = s.pending := by
  unfold State.boardReset
  split <;> rfl

/-- A write to CONTROL leaves the queue of commands. -/
theorem State.writeControl_pending (s : State) (value : Word) (p : PortProgress) : (s.writeControl value p).pending = s.pending := by
  unfold State.writeControl
  split
  · rfl
  · dsimp only
    split <;> rfl

/-- BLOCK_CHECK leaves the queue of commands. -/
theorem State.checkBlock_pending (s : State) (h : Header) (kindParam : Word) : (s.checkBlock h kindParam).pending = s.pending := by
  unfold State.checkBlock
  split
  · split_ifs <;> rfl
  · rfl

/-- LINK_REREAD leaves the queue of commands. -/
theorem State.rereadLink_pending (s : State) (link : Word) : (s.rereadLink link).pending = s.pending := by
  unfold State.rereadLink State.follow
  split
  · split_ifs <;> exact s.stampBlock_pending
  · exact s.stampBlock_pending

/-- SETTLEMENT_WRITE leaves the queue of commands. -/
theorem State.writeSettlement_pending (s : State) : s.writeSettlement.pending = s.pending := by
  unfold State.writeSettlement
  split
  · rfl
  · exact s.stampBefore_pending _

/-- PLACEMENT_COMPLETE leaves the queue of commands. -/
theorem State.completePlacement_pending (s : State) : s.completePlacement.pending = s.pending := by
  unfold State.completePlacement
  split <;> rfl

/-- No command's effect touches the queue of commands. -/
theorem effect_pending (c : Instr) (s : State) : (effect c s).pending = s.pending := by
  cases c
  case boardReset p => exact s.boardReset_pending p
  case softReset value p => exact s.writeControl_pending value p
  case alertEnable value => exact s.writeControl_pending value _
  case blockCheck h k => exact s.checkBlock_pending h k
  case linkReread link => exact s.rereadLink_pending link
  case settlementWrite => exact s.writeSettlement_pending
  case memoryError access n => exact s.portError_pending access n
  case placementComplete => exact s.completePlacement_pending
  -- every other command edits the device alone, or replaces it
  all_goals rfl

/-- Settles O2. Every command is its effect carried out, after which no report waits; two rounds of delivery empty the list by
`Device.deliverRound_twice`. -/
theorem everyCommandCompletesAndSettles : Obligations.EveryCommandCompletesAndSettles := by
  refine ⟨fun c s => ?_, Device.deliverRound_twice⟩
  obtain ⟨t, hnext, hpending, -, hdev⟩ := commit_next s (effect c)
  refine ⟨t, (exec_eq_commit c s).trans hnext, hpending.trans (effect_pending c s), ?_⟩
  show t.dev.reports = []
  rw [hdev, Device.latchStall_eq]
  rfl

end Sys2Proof.Machine
end

section
/-! What every operation keeps, every step keeps: the operations of `Closed`, carried through the 62 commands. -/

namespace Sys2Proof.Machine

section
variable {P : Device → Prop} (C : Closed P)
include C

omit C in
theorem Device.writeRegister_keeps {f : Device → Device} (hf : ∀ d, P d → P (f d)) {d : Device} (h : P d) : P (d.writeRegister f) := by
  unfold Device.writeRegister
  split
  · exact h
  · exact hf d h

theorem Closed.writeMask {d : Device} {v} (h : P d) : P (d.writeMask v) := C.frame h rfl rfl rfl rfl

theorem Closed.clearStatus {d : Device} {v} (h : P d) : P (d.clearStatus v) := C.frame h rfl rfl rfl rfl

theorem Closed.writeBase {d : Device} {v} (h : P d) : P (d.writeBase v) := by
  unfold Device.writeBase
  split
  · exact C.frame h rfl rfl rfl rfl
  · exact h

theorem Closed.writeSize {d : Device} {v} (h : P d) : P (d.writeSize v) := by
  unfold Device.writeSize
  split
  · exact C.frame h rfl rfl rfl rfl
  · exact h

theorem Closed.writeChainHead {d : Device} {v} (h : P d) : P (d.writeChainHead v) := by
  unfold Device.writeChainHead
  split
  · split_ifs
    · exact h
    · exact C.frame h rfl rfl rfl rfl
  · split_ifs
    · exact C.frame h rfl rfl rfl rfl
    · exact C.latch h

theorem Closed.takeBlock {d : Device} {b a h k} (hp : P d) : P (d.takeBlock b a h k) := by
  unfold Device.takeBlock
  split <;> exact C.frame hp rfl rfl rfl rfl

theorem Closed.checkBlock {s : State} {h k} (hp : P s.dev) : P (s.checkBlock h k).dev := by
  unfold State.checkBlock
  split
  · split_ifs
    · exact C.frame hp rfl rfl rfl rfl
    · exact C.frame hp rfl rfl rfl rfl
    · exact C.frame hp rfl rfl rfl rfl
    · exact C.takeBlock hp
  · exact hp

theorem Closed.rereadLink {s : State} {link} (h : P s.dev) : P (s.rereadLink link).dev := by
  have hs : P s.stampBlock.dev := State.sameCore_keeps C s.sameCore_stampBlock h
  unfold State.rereadLink State.follow
  split
  · split_ifs <;> exact C.frame hs rfl rfl rfl rfl
  · exact hs

theorem Closed.writeSettlement {s : State} (h : P s.dev) : P s.writeSettlement.dev := by
  unfold State.writeSettlement
  split
  · exact h
  · next x _ _ => exact C.frame (State.sameCore_keeps C (s.sameCore_stampBefore x.block) h) rfl rfl rfl rfl

theorem Closed.completePlacement {s : State} (h : P s.dev) : P s.completePlacement.dev := by
  unfold State.completePlacement
  split
  · exact C.frame (C.complete h) rfl rfl rfl rfl
  · exact h

theorem Closed.rereadMark {d : Device} {v} (h : P d) : P (d.rereadMark v) :=
  C.jmove h (by simp) (by simp) (by simp) rfl rfl rfl

theorem Closed.secondPulse {s : State} (h : P s.dev) : P s.secondPulse.dev :=
  C.frame (C.pulseTimers (C.tickIfDue h)) rfl rfl rfl rfl

theorem Closed.boardResetState {s : State} {p} (h : P s.dev) : P (s.boardReset p).dev := by
  unfold State.boardReset
  split
  · exact h
  · exact C.boardReset h

/-- What every operation keeps, and the device at power-on has, every command's effect keeps. -/
theorem Closed.of_effect (hinit : ∀ fire storm, P (Device.initial fire storm)) (c : Instr) {s : State} (h : P s.dev) :
    P (effect c s).dev := by
  cases c
  all_goals simp only [effect, State.onDevice_dev]
  case powerOn fire storm => exact hinit fire storm
  case boardReset => exact C.boardResetState h
  case resetNRelease => exact C.releaseReset h
  case softReset => exact C.writeControl h
  case alertEnable => exact C.writeControl h
  case registerWrite => exact Device.writeRegister_keeps (fun _ => C.writeMask) h
  case commonBase => exact Device.writeRegister_keeps (fun _ => C.writeBase) h
  case commonSize => exact Device.writeRegister_keeps (fun _ => C.writeSize) h
  case chainHeadStart => exact Device.writeRegister_keeps (fun _ => C.writeChainHead) h
  case chainHeadAbort => exact Device.writeRegister_keeps (fun _ => C.writeChainHead) h
  case statusClear => exact Device.writeRegister_keeps (fun _ => C.clearStatus) h
  case blockCheck => exact C.checkBlock h
  case linkReread => exact C.rereadLink h
  case settlementWrite => exact C.writeSettlement h
  case memoryError => exact C.portError h
  case setup => exact C.runOrder (fun _ _ => C.setup) h
  case setClock => exact C.runOrder (fun _ _ => C.setClock) h
  case houseMode => exact C.runOrder (fun _ _ => C.houseMode) h
  case issueCard => exact C.runOrder (fun _ _ => C.issueCard) h
  case revokeCard => exact C.runOrder (fun _ _ => C.revokeCard) h
  case extendCard => exact C.runOrder (fun _ _ => C.extendCard) h
  case suspendCard => exact C.runOrder (fun _ _ => C.moveCard) h
  case resumeCard => exact C.runOrder (fun _ _ => C.moveCard) h
  case readCard => exact C.runOrder (fun _ _ => C.readCard) h
  case defineRoom => exact C.runOrder (fun _ _ => C.defineRoom) h
  case checkIn => exact C.runOrder (fun _ _ => C.checkIn) h
  case checkOut => exact C.runOrder (fun _ _ => C.checkOut) h
  case setRoomState => exact C.runOrder (fun _ _ => C.setRoomState) h
  case readRoom => exact C.runOrder (fun _ _ => C.readRoom) h
  case doorCommandRelease => exact C.runOrder (fun _ _ => C.doorCommand) h
  case doorCommandRelock => exact C.runOrder (fun _ _ => C.doorCommand) h
  case doorCommandHold => exact C.runOrder (fun _ _ => C.doorCommand) h
  case clearAlarm => exact C.runOrder (fun _ _ => C.clearAlarm) h
  case setSlots => exact C.runOrder (fun _ _ => C.setSlots) h
  case postFolio => exact C.runOrder (fun _ _ => C.postFolio) h
  case setCeiling => exact C.runOrder (fun _ _ => C.setCeiling) h
  case setTariff => exact C.runOrder (fun _ _ => C.setTariff) h
  case defineNode => exact C.runOrder (fun _ _ => C.defineNode) h
  case removeNode => exact C.runOrder (fun _ _ => C.removeNode) h
  case restoreNode => exact C.runOrder (fun _ _ => C.restoreNode) h
  case readNode => exact C.runOrder (fun _ _ => C.readNode) h
  case secondPulse => exact C.secondPulse h
  case minuteTick => exact C.tickIfDue h
  case releaseTimerExpiry => exact C.doorEvent h
  case heldTimerExpiry => exact C.doorEvent h
  case alarmDelayExpiry => exact C.doorEvent h
  case sessionLimit => exact C.sessionExpired h
  case encodingTimeout => exact C.encodingExpired h
  case retryTimerExpiry => exact C.retryExpired h
  case inputEdge => exact C.inputEdge h
  case inputSettled => exact C.inputSettled h
  case segmentTurn => exact C.turn h
  case miss => exact C.miss h
  case strayFrame => exact h
  case nothing => exact C.answer h
  case present => exact C.answer h
  case contact => exact C.answer h
  case tally => exact C.answer h
  case button => exact C.answer h
  case encResult => exact C.answer h
  case placementComplete => exact C.completePlacement h
  case readMarkReread => exact C.rereadMark h

/-- What every operation keeps, and the device at power-on has, every step keeps. -/
theorem Closed.of_step (hinit : ∀ fire storm, P (Device.initial fire storm)) {s t : State} (h : P s.dev) (hstep : step s = .next t) :
    P t.dev := by
  unfold step at hstep
  split at hstep
  · cases hstep
    exact h
  · next c rest _ =>
    rw [exec_eq_commit] at hstep
    exact C.committed (s := { s with pending := rest }) h (C.of_effect hinit c) hstep

end

end Sys2Proof.Machine
end

section
/-! The invariants of the journal and of the folios: what each of the ways of `Closed` leaves of them. -/

namespace Sys2Proof.Machine

/-! ## Freeing and purging -/

/-- Freeing an entry changes the rooms by a guest card count alone. -/
theorem Device.freeEntry_rooms_cases (d : Device) (s : Word) (e : Entry) :
    (d.freeEntry s e).rooms = d.rooms
      ∨ (d.freeEntry s e).rooms = Table.modify e.room (fun r => { r with guestCount := r.guestCount - 1 }) d.rooms := by
  unfold Device.freeEntry
  dsimp only
  split_ifs
  · exact .inr rfl
  · exact .inl rfl

/-- A purge frees at most one entry and writes its record: what both keep, it keeps. -/
theorem Device.purge_keeps {P : Device → Prop} (hfree : ∀ {d s e}, P d → P (Device.freeEntry d s e))
    (hrecord : ∀ {d : Device} {b}, b.repeatCount ≤ 1 → P d → P (d.notable b)) {d : Device} (t : Word) (h : P d) :
    P (d.purge t) := by
  unfold Device.purge
  split
  · split
    · exact h
    · exact hrecord (Nat.zero_le 1) (hfree h)
  · exact h

/-! ## The journal -/

/-- A record of a single reading, or of a kind without repeats, keeps the counts in their ranges. -/
theorem Device.journal_bounded_record {d : Device} {b : RecordBody} {f : RecordFlags} {c : RecordClass} (hb : b.repeatCount ≤ 1)
    (h : d.journal.bounded) : (d.record b f c).journal.bounded :=
  Journal.bounded_admit h (Nat.le_trans hb (by decide))

/-- A reservation that may be taken keeps the counts in their ranges (R132). -/
theorem Journal.bounded_reserve {j : Journal} (h : j.bounded) (hm : j.mayReserve = true) :
    Journal.bounded { j with reserved := j.reserved + 1 } := by
  obtain ⟨hload, hres, hsup, hq⟩ := h
  simp only [Journal.mayReserve, Bool.and_eq_true, decide_eq_true_eq] at hm
  obtain ⟨hroom, hfree⟩ := hm
  exact ⟨hroom, hfree, hsup, hq⟩

/-- Every operation keeps the journal's counts in their ranges. -/
theorem closed_journal_bounded : Closed (fun d => d.journal.bounded) where
  frame h hj _ _ _ := by rw [hj]; exact h
  free h := by simpa using h
  denyNew h _ := h
  put h _ := h
  purgePut h _ _ := Device.purge_keeps (P := fun d => d.journal.bounded) (fun h => by simpa using h) Device.journal_bounded_record _ h
  plain _ hb h := Device.journal_bounded_record hb h
  jmove h hq hr hs _ _ _ := Journal.bounded_of_eq h hq (Nat.le_of_eq hr) hs
  complete h := Journal.bounded_complete h
  roomsMap _ h := h
  roomMap _ h := h
  roomAt _ _ _ _ _ _ hj h := by rw [hj]; exact h
  closeGive _ _ _ _ hj _ _ h := by rw [hj]; exact Journal.bounded_of_eq h rfl (Nat.sub_le _ _) rfl
  closeRecord _ _ _ hb _ hj _ _ h := Device.journal_bounded_record hb (by rw [hj]; exact h)
  opens _ _ _ hm _ hj _ _ h := by rw [hj]; exact Journal.bounded_reserve h hm
  newRoom _ _ _ _ _ _ h := h
  reset _ hq hr hs _ _ h := Journal.bounded_of_eq h hq (hr ▸ Nat.zero_le _) hs

/-- Settles O56, by `closed_journal_bounded`. -/
theorem journalStaysBounded : Obligations.JournalStaysBounded :=
  fun _ _ => closed_journal_bounded.of_step (fun _ _ => Journal.bounded_initial)

/-! ## The folios -/

/-- Folios in range under the suspension rule, at each room of a table. -/
def foliosIn (rooms : Table Room) : Prop :=
  ∀ p ∈ rooms, p.2.folioOk ∧ p.2.suspensionOk

/-- A guest card count is no part of a folio. -/
theorem foliosIn_modify {rooms : Table Room} {k : Nat} {f : Room → Room}
    (hf : ∀ x, (k, x) ∈ rooms → (f x).folioOk ∧ (f x).suspensionOk) (h : foliosIn rooms) : foliosIn (Table.modify k f rooms) := by
  intro p hp
  obtain ⟨⟨i, x⟩, hx, rfl⟩ := List.mem_map.mp hp
  by_cases hk : i = k
  · subst hk
    simpa using hf x hx
  · simpa [hk] using h _ hx

theorem foliosIn_mapVals {rooms : Table Room} {f : Nat → Room → Room}
    (hf : ∀ k x, x.folioOk ∧ x.suspensionOk → (f k x).folioOk ∧ (f k x).suspensionOk) (h : foliosIn rooms) :
    foliosIn (Table.mapVals f rooms) := by
  intro p hp
  obtain ⟨⟨i, x⟩, hx, rfl⟩ := List.mem_map.mp hp
  exact hf i x (h _ hx)

theorem foliosIn_put {rooms : Table Room} {k : Nat} {r : Room} (hf : r.folioOk) (hs : r.suspensionOk) (h : foliosIn rooms) :
    foliosIn (Table.put k r rooms) := by
  intro p hp
  rcases Table.mem_put hp with rfl | hp
  · exact ⟨hf, hs⟩
  · exact h p hp

/-- A reset keeps a room's folio, and puts its minibar under the suspension rule where a session was open (R104). -/
theorem Room.reset_folio {r : Room} (h : r.folioOk ∧ r.suspensionOk) : r.reset.folioOk ∧ r.reset.suspensionOk := by
  obtain ⟨hf, hs⟩ := h
  unfold Room.reset
  dsimp only
  split_ifs
  · exact ⟨hf, Room.suspensionOk_rest _ rfl⟩
  · exact ⟨hf, hs⟩

/-- A minibar in session stands outside the suspension rule, and its folio is as before. -/
theorem Room.opened_folio {r : Room} {b : BarState} {t : Option Timer} (hb : b.inSession = true) (h : r.folioOk) :
    Room.folioOk { r with unlatchPending := true, session := t, bar := b }
      ∧ Room.suspensionOk { r with unlatchPending := true, session := t, bar := b } :=
  ⟨h, .inl hb⟩

theorem Device.foliosOk_freeEntry {d : Device} {s : Word} {e : Entry} (h : d.foliosOk) : (d.freeEntry s e).foliosOk := by
  unfold Device.foliosOk
  rcases d.freeEntry_rooms_cases s e with hr | hr <;> rw [hr]
  · exact h
  · exact foliosIn_modify (fun x hx => h _ hx) h

/-- Every operation keeps the folios in range and the minibars under the suspension rule. -/
theorem closed_foliosOk : Closed Device.foliosOk where
  frame h _ hr _ _ := by unfold Device.foliosOk; rw [hr]; exact h
  free h := Device.foliosOk_freeEntry h
  denyNew h _ := h
  put h _ := h
  purgePut h _ _ := Device.purge_keeps Device.foliosOk_freeEntry (fun _ h => h) _ h
  plain _ _ h := h
  jmove h _ _ _ hr _ _ := by unfold Device.foliosOk; rw [hr]; exact h
  complete h := h
  roomsMap hf h := foliosIn_mapVals (fun k x hx => (hf k x).1 hx.1 hx.2) h
  roomMap hf h := foliosIn_modify (fun x hx => (hf x).1 (h _ hx).1 (h _ hx).2) h
  roomAt _ hf _ hr _ _ _ h := by unfold Device.foliosOk; rw [hr]; exact foliosIn_modify (hf h) h
  closeGive _ _ he hr _ _ _ h := by unfold Device.foliosOk; rw [hr]; exact foliosIn_modify (he.1 h) h
  closeRecord _ _ he _ hr _ _ _ h := by
    unfold Device.foliosOk
    rw [Device.record_rooms, hr]
    exact foliosIn_modify (he.1 h) h
  opens _ _ hb _ hr _ _ _ h := by
    unfold Device.foliosOk
    rw [hr]
    exact foliosIn_modify (fun x hx => Room.opened_folio hb (h _ hx).1) h
  newRoom _ hf hs _ _ _ h := foliosIn_put hf hs h
  reset hr _ _ _ _ _ h := by
    unfold Device.foliosOk
    rw [hr]
    exact foliosIn_mapVals (fun _ _ => Room.reset_folio) h

/-- Settles O57, by `closed_foliosOk`. -/
theorem foliosKeepTheSuspensionRule : Obligations.FoliosKeepTheSuspensionRule :=
  fun _ _ => closed_foliosOk.of_step (fun _ _ _ hp => absurd hp List.not_mem_nil)

end Sys2Proof.Machine
end

section
/-! The invariant of the sessions: one reservation for each open session. -/

namespace Sys2Proof.Machine

/-! ## The sessions of a table of rooms -/

/-- The rooms of a table whose minibars are in session. -/
def sessionsIn (rooms : Table Room) : Nat :=
  (rooms.filter (fun p => p.2.bar.inSession)).length

/-- At each room of a table a session timer runs exactly while its session is open, and an UNLATCH is pending only in a session. -/
def sessionsTimed (rooms : Table Room) : Prop :=
  ∀ p ∈ rooms, (p.2.session.isSome = p.2.bar.inSession) ∧ (p.2.unlatchPending = true → p.2.bar.inSession = true)

theorem sessionsIn_cons (p : Nat × Room) (rooms : Table Room) :
    sessionsIn (p :: rooms) = (if p.2.bar.inSession then 1 else 0) + sessionsIn rooms := by
  unfold sessionsIn
  cases h : p.2.bar.inSession <;> simp [h, Nat.add_comm]

/-- A change of every room that opens and ends no session leaves their number. -/
theorem sessionsIn_mapVals {f : Nat → Room → Room} (hf : ∀ k x, (f k x).bar.inSession = x.bar.inSession) (rooms : Table Room) :
    sessionsIn (Table.mapVals f rooms) = sessionsIn rooms := by
  induction rooms with
  | nil => rfl
  | cons p rest ih =>
    show sessionsIn ((p.1, f p.1 p.2) :: Table.mapVals f rest) = _
    rw [sessionsIn_cons, sessionsIn_cons, ih, hf]

/-- A change of rooms that ends every session leaves none. -/
theorem sessionsIn_mapVals_closed {f : Nat → Room → Room} (hf : ∀ k x, (f k x).bar.inSession = false) (rooms : Table Room) :
    sessionsIn (Table.mapVals f rooms) = 0 := by
  induction rooms with
  | nil => rfl
  | cons p rest ih =>
    show sessionsIn ((p.1, f p.1 p.2) :: Table.mapVals f rest) = _
    rw [sessionsIn_cons, ih, hf]
    rfl

/-- A change at a key that the table does not hold changes nothing. -/
theorem Table.modify_absent {α : Type} {k : Nat} {f : α → α} {t : Table α} (h : ∀ p ∈ t, p.1 ≠ k) : Table.modify k f t = t := by
  unfold Table.modify
  conv_rhs => rw [← List.map_id t]
  exact List.map_congr_left (fun p hp => if_neg (h p hp))

/-- In a table of the one form, a change of the room at a key exchanges its own session for the room's as it was. -/
theorem sessionsIn_modify {k : Nat} {r : Room} {f : Room → Room} {rooms : Table Room} (hw : Table.wf rooms = true)
    (hm : (k, r) ∈ rooms) :
    sessionsIn (Table.modify k f rooms) + (if r.bar.inSession then 1 else 0)
      = sessionsIn rooms + (if (f r).bar.inSession then 1 else 0) := by
  rw [Table.wf_iff] at hw
  induction rooms with
  | nil => simp at hm
  | cons p rest ih =>
    obtain ⟨i, x⟩ := p
    obtain ⟨hlt, hrest⟩ := List.pairwise_cons.mp hw
    rcases List.mem_cons.mp hm with heq | hm
    · cases heq
      have hsame : Table.modify k f rest = rest := Table.modify_absent (fun q hq => Nat.ne_of_gt (hlt q hq))
      show sessionsIn ((if k = k then (k, f r) else (k, r)) :: Table.modify k f rest) + _ = _
      rw [if_pos rfl, hsame, sessionsIn_cons, sessionsIn_cons]
      dsimp only
      omega
    · have hne : i ≠ k := Nat.ne_of_lt (hlt _ hm)
      show sessionsIn ((if i = k then (i, f x) else (i, x)) :: Table.modify k f rest) + _ = _
      rw [if_neg hne, sessionsIn_cons, sessionsIn_cons]
      have := ih hrest hm
      omega

/-- A new room out of session adds no session. -/
theorem sessionsIn_put {k : Nat} {r : Room} {rooms : Table Room} (hf : Table.find k rooms = none) (hr : r.bar.inSession = false) :
    sessionsIn (Table.put k r rooms) = sessionsIn rooms := by
  induction rooms with
  | nil => simp [Table.put, sessionsIn, hr]
  | cons p rest ih =>
    obtain ⟨i, x⟩ := p
    unfold Table.find at hf
    split_ifs at hf with hik
    unfold Table.put
    split_ifs with h1 h2
    · rw [sessionsIn_cons, hr]
      simp
    · exact absurd h2.symm hik
    · rw [sessionsIn_cons, sessionsIn_cons, ih hf]

theorem sessionsTimed_modify {k : Nat} {f : Room → Room} {rooms : Table Room}
    (hf : ∀ x, (k, x) ∈ rooms →
      ((f x).session.isSome = (f x).bar.inSession) ∧ ((f x).unlatchPending = true → (f x).bar.inSession = true))
    (h : sessionsTimed rooms) : sessionsTimed (Table.modify k f rooms) := by
  intro p hp
  obtain ⟨⟨i, x⟩, hx, rfl⟩ := List.mem_map.mp hp
  by_cases hk : i = k
  · subst hk
    simpa using hf x hx
  · simpa [hk] using h _ hx

theorem sessionsTimed_mapVals {f : Nat → Room → Room} {rooms : Table Room}
    (hf : ∀ k x, (k, x) ∈ rooms →
      ((f k x).session.isSome = (f k x).bar.inSession) ∧ ((f k x).unlatchPending = true → (f k x).bar.inSession = true)) :
    sessionsTimed (Table.mapVals f rooms) := by
  intro p hp
  obtain ⟨⟨i, x⟩, hx, rfl⟩ := List.mem_map.mp hp
  exact hf i x hx

/-! ## Room edits -/

/-- An edit that keeps the session keeps the room's timer and UNLATCH with it. -/
theorem Room.keepsSession.timed {r r' : Room} (hk : r.keepsSession r')
    (h : r.session.isSome = r.bar.inSession ∧ (r.unlatchPending = true → r.bar.inSession = true)) :
    r'.session.isSome = r'.bar.inSession ∧ (r'.unlatchPending = true → r'.bar.inSession = true) :=
  ⟨hk.2.1 h.1, hk.2.2 h.2⟩

/-- A reset leaves no session (R104). -/
theorem Room.reset_session (r : Room) :
    r.reset.bar.inSession = false ∧ r.reset.session = none ∧ r.reset.unlatchPending = false := by
  unfold Room.reset
  dsimp only
  split_ifs with h
  · exact ⟨r.restState_notInSession, rfl, rfl⟩
  · exact ⟨Bool.eq_false_iff.mpr h, rfl, rfl⟩

/-! ## The invariant under the ways of `Closed` -/

/-- An edit of one room that keeps its session keeps the invariant. -/
theorem Device.sessionsReserved_edit {d d' : Device} {k : Nat} {f : Room → Room} (hf : ∀ x, (k, x) ∈ d.rooms → x.keepsSession (f x))
    (hr : d'.rooms = Table.modify k f d.rooms) (hj : d'.journal.reserved = d.journal.reserved) (h : d.sessionsReserved) :
    d'.sessionsReserved := by
  obtain ⟨hw, hres, ht⟩ := h
  refine ⟨hr ▸ Table.wf_modify _ _ hw, ?_, ?_⟩
  · show d'.journal.reserved = sessionsIn d'.rooms
    rw [hj, hres, hr]
    by_cases hk : ∃ x, (k, x) ∈ d.rooms
    · obtain ⟨x, hx⟩ := hk
      have := sessionsIn_modify (f := f) hw hx
      rw [(hf x hx).1] at this
      exact (Nat.add_right_cancel this).symm
    · rw [Table.modify_absent (fun p hp (he : p.1 = k) => hk ⟨p.2, he ▸ hp⟩)]
      rfl
  · rw [hr]
    exact sessionsTimed_modify (fun x hx => (hf x hx).timed (ht _ hx)) ht

/-- An edit of every room that keeps its session keeps the invariant. -/
theorem Device.sessionsReserved_editAll {d d' : Device} {f : Nat → Room → Room} (hf : ∀ k x, Room.keepsSession x (f k x))
    (hr : d'.rooms = Table.mapVals f d.rooms) (hj : d'.journal.reserved = d.journal.reserved) (h : d.sessionsReserved) :
    d'.sessionsReserved := by
  obtain ⟨hw, hres, ht⟩ := h
  refine ⟨hr ▸ Table.wf_mapVals _ hw, ?_, ?_⟩
  · show d'.journal.reserved = sessionsIn d'.rooms
    rw [hj, hres, hr, sessionsIn_mapVals (fun k x => (hf k x).1)]
    rfl
  · rw [hr]
    exact sessionsTimed_mapVals (fun k x hx => (hf k x).timed (ht _ hx))

/-- A session that ends with its reservation keeps the invariant. -/
theorem Device.sessionsReserved_close {d d' : Device} {k : Nat} {r : Room} {f : Room → Room} (hm : (k, r) ∈ d.rooms)
    (hs : r.bar.inSession = true) (hf : d.endsSession k f) (hr : d'.rooms = Table.modify k f d.rooms)
    (hj : d'.journal.reserved = d.journal.reserved - 1) (h : d.sessionsReserved) : d'.sessionsReserved := by
  obtain ⟨hw, hres, ht⟩ := h
  refine ⟨hr ▸ Table.wf_modify _ _ hw, ?_, ?_⟩
  · have hsum := sessionsIn_modify (f := f) hw hm
    rw [hs, (hf.2 r).1] at hsum
    change d.journal.reserved = sessionsIn d.rooms at hres
    show d'.journal.reserved = sessionsIn d'.rooms
    rw [hj, hres, hr]
    simp only [if_true, Bool.false_eq_true, if_false] at hsum
    omega
  · rw [hr]
    refine sessionsTimed_modify (fun x _ => ?_) ht
    obtain ⟨hbar, hsession, hunlatch⟩ := hf.2 x
    simp [hbar, hsession, hunlatch]

/-- A session that opens with a reservation keeps the invariant (R90, R132). -/
theorem Device.sessionsReserved_open {d d' : Device} {k : Nat} {r : Room} {b : BarState} (hm : (k, r) ∈ d.rooms)
    (hs : r.bar.inSession = false) (hb : b.inSession = true)
    (hr : d'.rooms = Table.modify k (fun r => { r with unlatchPending := true, session := Timer.started, bar := b }) d.rooms)
    (hj : d'.journal.reserved = d.journal.reserved + 1) (h : d.sessionsReserved) : d'.sessionsReserved := by
  obtain ⟨hw, hres, ht⟩ := h
  refine ⟨hr ▸ Table.wf_modify _ _ hw, ?_, ?_⟩
  · have hsum := sessionsIn_modify
      (f := fun r => { r with unlatchPending := true, session := Timer.started, bar := b }) hw hm
    simp only [hs, hb] at hsum
    change d.journal.reserved = sessionsIn d.rooms at hres
    show d'.journal.reserved = sessionsIn d'.rooms
    rw [hj, hres, hr]
    simp only [if_true, Bool.false_eq_true, if_false] at hsum
    omega
  · rw [hr]
    exact sessionsTimed_modify (fun x _ => ⟨by simp [Timer.started, hb], fun _ => hb⟩) ht

/-- What changes neither the rooms nor the number of reservations keeps the invariant. -/
theorem Device.sessionsReserved_same {d d' : Device} (hr : d'.rooms = d.rooms) (hj : d'.journal.reserved = d.journal.reserved)
    (h : d.sessionsReserved) : d'.sessionsReserved := by
  unfold Device.sessionsReserved Device.sessionsOpen at *
  rw [hr, hj]
  exact h

theorem Device.sessionsReserved_freeEntry {d : Device} {s : Word} {e : Entry} (h : d.sessionsReserved) :
    (d.freeEntry s e).sessionsReserved := by
  rcases d.freeEntry_rooms_cases s e with hr | hr
  · exact Device.sessionsReserved_same hr (by simp) h
  · refine Device.sessionsReserved_edit (fun x _ => ?_) hr (by simp) h
    exact ⟨rfl, id, id⟩

/-- A record that takes no reservation leaves their number (R132). -/
theorem Device.sessionsReserved_record {d : Device} {b : RecordBody} {f : RecordFlags} {c : RecordClass} (hc : c ≠ .reserved)
    (h : d.sessionsReserved) : (d.record b f c).sessionsReserved :=
  Device.sessionsReserved_same (d := d) rfl ((Journal.admit_reserved _ _).trans (if_neg hc)) h

/-- A completed placement leaves the reservations. -/
theorem Journal.complete_reserved (j : Journal) : j.complete.reserved = j.reserved := by
  unfold Journal.complete
  split <;> simp

/-- Every operation keeps one reservation for each open session. -/
theorem closed_sessionsReserved : Closed Device.sessionsReserved where
  frame h hj hr _ _ := Device.sessionsReserved_same hr (by rw [hj]) h
  free h := Device.sessionsReserved_freeEntry h
  denyNew h _ := h
  put h _ := h
  purgePut h _ _ := Device.purge_keeps Device.sessionsReserved_freeEntry (fun _ => Device.sessionsReserved_record (by decide)) _ h
  plain hc _ h := Device.sessionsReserved_record hc h
  jmove h _ hres _ hr _ _ := Device.sessionsReserved_same hr hres h
  complete {d} h := Device.sessionsReserved_same (d := d) rfl (Journal.complete_reserved _) h
  roomsMap hf h := Device.sessionsReserved_editAll (fun k x => (hf k x).2) rfl rfl h
  roomMap hf h := Device.sessionsReserved_edit (fun x _ => (hf x).2) rfl rfl h
  roomAt {d d' k r f} hm _ hk hr _ _ hj h := by
    refine Device.sessionsReserved_edit (fun x hx => ?_) hr (by rw [hj]) h
    have hx' := Table.find_of_mem h.1 hx
    rw [Table.find_of_mem h.1 hm] at hx'
    cases hx'
    exact hk
  closeGive {d d' k r f} hm hs he hr hj _ _ h := by
    refine Device.sessionsReserved_close hm ?_ he hr (by rw [hj]) h
    exact hs.elim id (fun hu => (h.2.2 _ hm).2 hu)
  closeRecord {d x k r f b fl} hm hs he _ hr hj _ _ h := by
    refine Device.sessionsReserved_close hm hs he ((Device.record_rooms _ _ _ _).trans hr) ?_ h
    exact ((Journal.admit_reserved _ _).trans (if_pos rfl)).trans (by rw [hj])
  opens hm hs hb _ hr hj _ _ h := Device.sessionsReserved_open hm hs hb hr (by rw [hj]) h
  newRoom {d k r} hf _ _ hb hs hu h := by
    obtain ⟨hw, hres, ht⟩ := h
    refine ⟨Table.wf_put _ _ hw, hres.trans (sessionsIn_put hf hb).symm, fun p hp => ?_⟩
    rcases Table.mem_put hp with rfl | hp
    · simp [hb, hs, hu]
    · exact ht p hp
  reset {d d'} hr _ hres _ _ _ h := by
    refine ⟨hr ▸ Table.wf_mapVals _ h.1, ?_, ?_⟩
    · show d'.journal.reserved = sessionsIn d'.rooms
      rw [hr, hres, sessionsIn_mapVals_closed (fun _ x => x.reset_session.1)]
    · rw [hr]
      refine sessionsTimed_mapVals (fun _ x _ => ?_)
      obtain ⟨hbar, hsession, hunlatch⟩ := x.reset_session
      simp [hbar, hsession, hunlatch]

/-- Settles O58, by `closed_sessionsReserved`. -/
theorem sessionsHoldTheirReservations : Obligations.SessionsHoldTheirReservations :=
  fun _ _ => closed_sessionsReserved.of_step (fun _ _ => ⟨rfl, rfl, fun _ hp => absurd hp List.not_mem_nil⟩)

end Sys2Proof.Machine
end

section
/-! The deny list (R7) and the invariant that no serial is both held and denied (R1, R7). -/

namespace Sys2Proof.Machine

/-! ## The deny list -/

/-- A serial that is listed moves to the newest end. -/
theorem denyAppend_listed {serial : Word} {deny : List Word} (h : serial ∈ deny) :
    denyAppend serial deny = deny.filter (fun x => decide (x ≠ serial)) ++ [serial] := by
  unfold denyAppend
  rw [if_pos (List.contains_iff_mem.mpr h)]

/-- A new serial takes the newest end of a list that has room. -/
theorem denyAppend_room {serial : Word} {deny : List Word} (h : serial ∉ deny) (hlen : deny.length < 512) :
    denyAppend serial deny = deny ++ [serial] := by
  unfold denyAppend
  rw [if_neg (fun hc => h (List.contains_iff_mem.mp hc)), if_pos hlen]

/-- A new serial takes the newest end of a full list, whose oldest is dropped. -/
theorem denyAppend_full {serial : Word} {deny : List Word} (h : serial ∉ deny) (hlen : 512 ≤ deny.length) :
    denyAppend serial deny = deny.tail ++ [serial] := by
  unfold denyAppend
  rw [if_neg (fun hc => h (List.contains_iff_mem.mp hc)), if_neg (Nat.not_lt.mpr hlen), List.drop_one]

/-- The three cases of an append. -/
theorem denyAppend_cases (serial : Word) (deny : List Word) :
    ∃ rest, denyAppend serial deny = rest ++ [serial] ∧ serial ∉ rest ∧ rest.Sublist deny
      ∧ (deny.length ≤ 512 → rest.length < 512) := by
  by_cases h : serial ∈ deny
  · refine ⟨_, denyAppend_listed h, by simp, List.filter_sublist, fun hlen => Nat.lt_of_lt_of_le ?_ hlen⟩
    exact List.length_filter_lt_length_iff_exists.mpr ⟨serial, h, by simp⟩
  · rcases Nat.lt_or_ge deny.length 512 with hlen | hlen
    · exact ⟨_, denyAppend_room h hlen, h, List.Sublist.refl _, fun _ => hlen⟩
    · refine ⟨_, denyAppend_full h hlen, fun hm => h (List.mem_of_mem_tail hm), List.tail_sublist _, fun hle => ?_⟩
      rw [List.length_tail]
      omega

/-- An appended list has no duplicates where the list had none. -/
theorem denyAppend_nodup {serial : Word} {deny : List Word} (h : deny.Nodup) : (denyAppend serial deny).Nodup := by
  obtain ⟨rest, heq, hnot, hsub, -⟩ := denyAppend_cases serial deny
  rw [heq]
  exact (List.nodup_append_comm.mp (List.nodup_cons.mpr ⟨hnot, h.sublist hsub⟩))

/-- An appended list holds at most 512 serials where the list did. -/
theorem denyAppend_length {serial : Word} {deny : List Word} (h : deny.length ≤ 512) : (denyAppend serial deny).length ≤ 512 := by
  obtain ⟨rest, heq, -, -, hlen⟩ := denyAppend_cases serial deny
  rw [heq, List.length_append]
  exact hlen h

/-- An append denies its own serial alone besides. -/
theorem mem_of_mem_denyAppend {serial x : Word} {deny : List Word} (h : x ∈ denyAppend serial deny) : x = serial ∨ x ∈ deny := by
  obtain ⟨rest, heq, -, hsub, -⟩ := denyAppend_cases serial deny
  rw [heq, List.mem_append, List.mem_singleton] at h
  exact h.symm.imp_right (fun hr => hsub.subset hr)

/-- Settles O18, by the three cases of an append. -/
theorem denyListAppend : Obligations.DenyListAppend := by
  intro deny serial hnodup hlen
  refine ⟨denyAppend_nodup hnodup, denyAppend_length hlen, ?_, fun h => ?_, fun h hlt => ?_, fun h hfull => ?_⟩
  · obtain ⟨rest, heq, -⟩ := denyAppend_cases serial deny
    rw [heq, List.getLast?_append]
    rfl
  · rw [denyAppend_listed h, List.dropLast_concat]
  · rw [denyAppend_room h hlt, List.dropLast_concat]
  · rw [denyAppend_full h hfull.ge, List.dropLast_concat]

/-! ## The purge's candidate -/

/-- The earliest entry of a list is one of it. -/
theorem earliest_mem {l : List (Nat × Entry)} {p : Nat × Entry} (h : earliest l = some p) : p ∈ l := by
  induction l generalizing p with
  | nil => cases h
  | cons q rest ih =>
    unfold earliest at h
    split at h
    · cases h
      exact List.mem_cons_self
    · next hr =>
      split_ifs at h
      · cases h
        exact List.mem_cons_of_mem _ (ih hr)
      · cases h
        exact List.mem_cons_self

/-- A purge's candidate is an entry of the table that may be purged. -/
theorem Device.purgeCandidate_mem {d : Device} {k : Nat} {e : Entry} (h : d.purgeCandidate = some (k, e)) :
    (k, e) ∈ d.creds.entries ∧ d.purgeable e = true := by
  have := List.mem_filter.mp (earliest_mem h)
  exact ⟨this.1, this.2⟩

/-! ## Held and denied serials -/

/-- A credential table and a deny list in their bounds, with no serial in both. -/
def heldApart (entries : Table Entry) (deny : List Word) : Prop :=
  Table.wf entries = true ∧ entries.length ≤ Config.credentialSlots ∧ deny.Nodup ∧ deny.length ≤ Config.denyCapacity
    ∧ ∀ p ∈ entries, p.1 < 4294967296 ∧ natWord p.1 ∉ deny

theorem natWord_toNat (s : Word) : natWord s.toNat = s := by
  simp [natWord]

theorem toNat_natWord {k : Nat} (h : k < 4294967296) : (natWord k).toNat = k := by
  simpa [natWord] using h

/-- An entry freed. -/
theorem heldApart_erase {entries : Table Entry} {deny : List Word} (k : Nat) (h : heldApart entries deny) :
    heldApart (Table.erase k entries) deny := by
  obtain ⟨hw, hlen, hnodup, hdeny, hapart⟩ := h
  exact ⟨Table.wf_erase _ hw, (List.length_filter_le _ _).trans hlen, hnodup, hdeny, fun p hp => hapart p (List.mem_filter.mp hp).1⟩

/-- A serial without an entry denied. -/
theorem heldApart_deny {entries : Table Entry} {deny : List Word} {s : Word} (hs : Table.find s.toNat entries = none)
    (h : heldApart entries deny) : heldApart entries (denyAppend s deny) := by
  obtain ⟨hw, hlen, hnodup, hdeny, hapart⟩ := h
  refine ⟨hw, hlen, denyAppend_nodup hnodup, denyAppend_length hdeny, fun p hp => ⟨(hapart p hp).1, fun hm => ?_⟩⟩
  rcases mem_of_mem_denyAppend hm with he | hm
  · have hfound := Table.find_of_mem hw hp
    rw [← toNat_natWord (hapart p hp).1, he, hs] at hfound
    cases hfound
  · exact (hapart p hp).2 hm

/-- An entry put at a serial that is not denied, in a table that holds it already or has a place. -/
theorem heldApart_put {entries : Table Entry} {deny : List Word} {s : Word} {e : Entry} (hs : s ∉ deny)
    (hroom : (Table.put s.toNat e entries).length ≤ Config.credentialSlots) (h : heldApart entries deny) :
    heldApart (Table.put s.toNat e entries) deny := by
  obtain ⟨hw, hlen, hnodup, hdeny, hapart⟩ := h
  refine ⟨Table.wf_put _ _ hw, hroom, hnodup, hdeny, fun p hp => ?_⟩
  rcases Table.mem_put hp with rfl | hp
  · exact ⟨s.isLt, by rwa [natWord_toNat]⟩
  · exact hapart p hp

/-- A serial taken off the deny list. -/
theorem heldApart_undeny {entries : Table Entry} {deny : List Word} (f : Word → Bool) (h : heldApart entries deny) :
    heldApart entries (deny.filter f) := by
  obtain ⟨hw, hlen, hnodup, hdeny, hapart⟩ := h
  exact ⟨hw, hlen, hnodup.filter _, (List.length_filter_le _ _).trans hdeny,
    fun p hp => ⟨(hapart p hp).1, fun hm => (hapart p hp).2 (List.mem_filter.mp hm).1⟩⟩

/-- A put at a key that the table holds keeps its size. -/
theorem Table.length_put_held {α : Type} {k : Nat} {x y : α} {t : Table α} (hw : Table.wf t = true) (h : Table.find k t = some y) :
    (Table.put k x t).length = t.length := by
  rw [Table.wf_iff] at hw
  induction t with
  | nil => cases h
  | cons p rest ih =>
    obtain ⟨i, v⟩ := p
    obtain ⟨hlt, hrest⟩ := List.pairwise_cons.mp hw
    unfold Table.find at h
    unfold Table.put
    split_ifs with h1 h2
    · split_ifs at h with hk
      · omega
      · have := hlt _ (Table.mem_of_find h)
        simp only at this
        omega
    · rfl
    · rw [if_neg (Ne.symm h2)] at h
      simp [ih hrest h]

/-- An erase at a key that the table holds makes it smaller. -/
theorem Table.length_erase_held {α : Type} {k : Nat} {x : α} {t : Table α} (h : (k, x) ∈ t) : (Table.erase k t).length < t.length :=
  List.length_filter_lt_length_iff_exists.mpr ⟨_, h, by simp⟩

theorem Device.freeEntry_creds (d : Device) (s : Word) (e : Entry) :
    (d.freeEntry s e).creds = { d.creds with entries := Table.erase s.toNat d.creds.entries } := by
  unfold Device.freeEntry
  dsimp only
  split_ifs <;> rfl

/-- What a purge does to the entries: nothing, or it frees its candidate. -/
theorem Device.purge_creds_cases (d : Device) (tag : Word) :
    ((d.tableFull = false ∨ d.purgeCandidate = none) ∧ (d.purge tag).creds = d.creds)
      ∨ ∃ k e, d.purgeCandidate = some (k, e)
        ∧ (d.purge tag).creds = { d.creds with entries := Table.erase (natWord k).toNat d.creds.entries } := by
  unfold Device.purge
  by_cases hfull : d.tableFull = true
  · rw [if_pos hfull]
    split
    · next hc => exact .inl ⟨.inr hc, rfl⟩
    · next k e hc => exact .inr ⟨k, e, hc, d.freeEntry_creds _ e⟩
  · rw [if_neg hfull]
    exact .inl ⟨.inl (Bool.eq_false_iff.mpr hfull), rfl⟩

/-- Where an issue is accepted its purge leaves a place for the entry (R11, R13). -/
theorem Device.heldApart_purge {d : Device} (tag : Word) (hroom : (d.tableFull && d.purgeCandidate.isNone) = false)
    (h : heldApart d.creds.entries d.creds.deny) :
    heldApart (d.purge tag).creds.entries (d.purge tag).creds.deny
      ∧ (d.purge tag).creds.entries.length < Config.credentialSlots := by
  rcases d.purge_creds_cases tag with ⟨hc, heq⟩ | ⟨k, e, hc, heq⟩ <;> rw [heq]
  · refine ⟨h, ?_⟩
    have hfull : d.tableFull = false := by
      rcases hc with hc | hc
      · exact hc
      · simpa [hc] using hroom
    simpa [Device.tableFull] using hfull
  · obtain ⟨hmem, -⟩ := Device.purgeCandidate_mem hc
    refine ⟨heldApart_erase _ h, ?_⟩
    rw [toNat_natWord (h.2.2.2.2 _ hmem).1]
    exact Nat.lt_of_lt_of_le (Table.length_erase_held hmem) h.2.1

theorem Device.serialsOk_same {d d' : Device} (he : d'.creds.entries = d.creds.entries) (hd : d'.creds.deny = d.creds.deny)
    (h : d.serialsOk) : d'.serialsOk := by
  unfold Device.serialsOk
  rw [he, hd]
  exact h

/-- Every operation keeps the held and the denied serials apart. -/
theorem closed_serialsOk : Closed Device.serialsOk where
  frame h _ _ he hd := Device.serialsOk_same he hd h
  free {d s e} h := by
    unfold Device.serialsOk
    rw [Device.freeEntry_creds]
    exact heldApart_erase _ h
  denyNew h hs := heldApart_deny hs h
  put {d s e e'} h hs := by
    refine heldApart_put (fun hm => ?_) ((Table.length_put_held h.1 hs).trans_le h.2.1) h
    have hheld := (h.2.2.2.2 _ (Table.mem_of_find hs)).2
    rw [natWord_toNat] at hheld
    exact hheld hm
  purgePut {d s t e} h _ hroom := by
    obtain ⟨hp, hplace⟩ := Device.heldApart_purge t hroom h
    exact heldApart_put (by simp) ((Table.length_put_le _ _ _).trans hplace) (heldApart_undeny _ hp)
  plain _ _ h := h
  jmove h _ _ _ _ he hd := Device.serialsOk_same he hd h
  complete h := h
  roomsMap _ h := h
  roomMap _ h := h
  roomAt _ _ _ _ he hd _ h := Device.serialsOk_same he hd h
  closeGive _ _ _ _ _ he hd h := Device.serialsOk_same he hd h
  closeRecord _ _ _ _ _ _ he hd h := Device.serialsOk_same (d' := Device.record _ _ _ _) he hd h
  opens _ _ _ _ _ _ he hd h := Device.serialsOk_same he hd h
  newRoom _ _ _ _ _ _ h := h
  reset _ _ _ _ he hd h := Device.serialsOk_same he hd h

/-- Settles O59, by `closed_serialsOk`. -/
theorem noSerialIsHeldAndDenied : Obligations.NoSerialIsHeldAndDenied :=
  fun _ _ => closed_serialsOk.of_step
    (fun _ _ => ⟨rfl, Nat.zero_le _, List.nodup_nil, Nat.zero_le _, fun _ hp => absurd hp List.not_mem_nil⟩)

end Sys2Proof.Machine
end

section
/-! The invariants of board memory (every write keeps its one form), of the clock and of the contact inputs. -/

namespace Sys2Proof.Machine

/-! ## Board memory -/

theorem State.stampBlock_wf {s : State} (h : Memory.wf s.mem = true) : Memory.wf s.stampBlock.mem = true := by
  unfold State.stampBlock
  split
  · exact Memory.wf_accept _ h
  · exact h

theorem State.stampBefore_wf {s : State} (block : Word) (h : Memory.wf s.mem = true) : Memory.wf (s.stampBefore block).mem = true := by
  unfold State.stampBefore
  split
  · exact State.stampBlock_wf h
  · exact h

theorem State.acceptUpTo_wf {s : State} (p : PortProgress) (h : Memory.wf s.mem = true) : Memory.wf (s.acceptUpTo p).mem = true :=
  Memory.wf_accept _ h

theorem State.boardReset_wf {s : State} (p : PortProgress) (h : Memory.wf s.mem = true) : Memory.wf (s.boardReset p).mem = true := by
  unfold State.boardReset
  split
  · exact h
  · exact State.acceptUpTo_wf p h

theorem State.writeControl_wf {s : State} (value : Word) (p : PortProgress) (h : Memory.wf s.mem = true) :
    Memory.wf (s.writeControl value p).mem = true := by
  unfold State.writeControl
  split
  · exact h
  · dsimp only
    split
    · exact Memory.wf_accept _ h
    · exact h

theorem State.checkBlock_wf {s : State} (hd : Header) (k : Word) (h : Memory.wf s.mem = true) :
    Memory.wf (s.checkBlock hd k).mem = true := by
  unfold State.checkBlock
  split
  · split_ifs
    · exact Memory.wf_accept _ h
    · exact Memory.wf_accept _ h
    · exact Memory.wf_accept _ h
    · exact h
  · exact h

theorem State.rereadLink_wf {s : State} (link : Word) (h : Memory.wf s.mem = true) : Memory.wf (s.rereadLink link).mem = true := by
  have hs := State.stampBlock_wf h
  unfold State.rereadLink State.follow
  split
  · split_ifs
    · exact Memory.wf_accept _ hs
    · exact Memory.wf_accept _ hs
    · exact hs
  · exact hs

theorem State.writeSettlement_wf {s : State} (h : Memory.wf s.mem = true) : Memory.wf s.writeSettlement.mem = true := by
  unfold State.writeSettlement
  split
  · exact h
  · exact Memory.wf_accept _ (State.stampBefore_wf _ h)

theorem State.completePlacement_wf {s : State} (h : Memory.wf s.mem = true) : Memory.wf s.completePlacement.mem = true := by
  unfold State.completePlacement
  split
  · exact Memory.wf_accept _ (Memory.wf_accept _ h)
  · exact h

theorem State.portError_wf {s : State} (access : PortAccess) (n : Nat) (h : Memory.wf s.mem = true) :
    Memory.wf (s.portError access n).mem = true := by
  cases access
  case blockRead =>
    show Memory.wf s.failRead.mem = true
    unfold State.failRead
    (repeat' split)
    · exact Memory.wf_accept _ h
    · exact h
    · exact Memory.wf_accept _ h
    · exact h
  case linkRead =>
    show Memory.wf s.failLink.mem = true
    unfold State.failLink
    dsimp only
    split
    · exact Memory.wf_accept _ (State.stampBlock_wf h)
    · exact h
  case blockWrite =>
    show Memory.wf (s.failBlock n).mem = true
    unfold State.failBlock
    split
    · split
      · exact Memory.wf_accept _ h
      · dsimp only
        split
        · exact Memory.wf_accept _ (Memory.wf_accept _ h)
        · exact h
    · exact h
  case settlement =>
    show Memory.wf (s.failSettlement n).mem = true
    unfold State.failSettlement
    (repeat' split)
    · exact h
    · exact Memory.wf_accept _ (State.stampBefore_wf _ h)
    · exact h
  case publication =>
    show Memory.wf (s.failPage n).mem = true
    unfold State.failPage
    split
    · exact Memory.wf_accept _ h
    · exact h
  case placement =>
    show Memory.wf (s.failPlacement n).mem = true
    unfold State.failPlacement
    split
    · exact Memory.wf_accept _ h
    · exact h
  case markRead =>
    show Memory.wf s.failMark.mem = true
    unfold State.failMark
    split <;> exact h

/-- Every command's effect keeps board memory in its one form. -/
theorem effect_wf (c : Instr) {s : State} (h : Memory.wf s.mem = true) : Memory.wf (effect c s).mem = true := by
  cases c
  case powerOn => rfl
  case boardReset p => exact State.boardReset_wf p h
  case softReset value p => exact State.writeControl_wf value p h
  case alertEnable value => exact State.writeControl_wf value _ h
  case blockCheck hd k => exact State.checkBlock_wf hd k h
  case linkReread link => exact State.rereadLink_wf link h
  case settlementWrite => exact State.writeSettlement_wf h
  case memoryError access n => exact State.portError_wf access n h
  case secondPulse => exact Memory.wf_accept (mem := s.mem) _ h
  case placementComplete => exact State.completePlacement_wf h
  -- every other command edits the device alone
  all_goals exact h

/-! ## The clock and the inputs -/

/-- The clock and the two inputs keep their shape (R163, R168, R169). -/
structure Device.houseOk (d : Device) : Prop where
  clock : d.clock.shapeOk
  fire : d.fire.shapeOk
  storm : d.storm.shapeOk

/-- What touches neither the clock nor an input keeps their shape. -/
theorem Device.houseOk.same {d d' : Device} (h : d.houseOk)
    (heq : d'.clock = d.clock ∧ d'.fire = d.fire ∧ d'.storm = d.storm) : d'.houseOk := by
  obtain ⟨hc, hf, hs⟩ := heq
  exact ⟨hc ▸ h.clock, hf ▸ h.fire, hs ▸ h.storm⟩

theorem Device.houseOk.pin {d : Device} (h : d.houseOk) (p : Pin) : (d.house p).shapeOk := by
  cases p
  · exact h.fire
  · exact h.storm

/-- An input set to one of the right shape. -/
theorem Device.houseOk.setHouse {d : Device} (h : d.houseOk) {p : Pin} {x : House} (hx : x.shapeOk) : (d.setHouse p x).houseOk := by
  cases p
  · exact ⟨h.clock, hx, h.storm⟩
  · exact ⟨h.clock, h.fire, hx⟩

theorem Device.houseOk.houseChanges {d : Device} (h : d.houseOk) (b : HouseModes) (c : HouseCause) : (d.houseChanges b c).houseOk :=
  h.same (by simp)

/-- Only a latching sense catches an edge. -/
theorem Sense.latches_of_catches {x : Sense} {level : Level} (h : x.catches level = true) : x.latches = true := by
  cases x <;> cases level <;> first | rfl | cases h

theorem House.shapeOk_edge {x : House} (level : Level) (h : x.shapeOk) : (x.edge level).shapeOk := by
  refine ⟨fun hl => ?_, fun _ => rfl⟩
  rcases Bool.or_eq_true_iff.mp hl with hl | hl
  · exact h.1 hl
  · exact Sense.latches_of_catches hl

theorem House.shapeOk_settle {x : House} (h : x.shapeOk) : x.settle.shapeOk :=
  ⟨h.1, fun hs => by cases hs⟩

theorem House.shapeOk_withSense {x : House} (sense : Sense) (h : x.shapeOk) : (x.withSense sense).shapeOk := by
  refine ⟨fun hl => ?_, h.2⟩
  unfold House.withSense at hl ⊢
  dsimp only at hl ⊢
  split_ifs at hl with heq
  · exact heq ▸ h.1 hl
  · simp only [Bool.and_eq_true] at hl
    exact hl.2

theorem House.shapeOk_ordered {x : House} (set : Bool) (h : x.shapeOk) : (x.ordered set).shapeOk := by
  unfold House.ordered
  split
  · exact h
  · refine ⟨fun hl => ?_, h.2⟩
    dsimp only at hl
    split_ifs at hl with hlatch
    exact absurd (h.1 hl) hlatch

theorem Device.houseOk.inputEdge {d : Device} (h : d.houseOk) (p : Pin) (level : Level) : (d.inputEdge p level).houseOk := by
  unfold Device.inputEdge
  split
  · exact h
  · exact (h.setHouse (House.shapeOk_edge level (h.pin p))).houseChanges _ _

theorem Device.houseOk.inputSettled {d : Device} (h : d.houseOk) (p : Pin) : (d.inputSettled p).houseOk := by
  unfold Device.inputSettled
  split
  · exact (h.setHouse (House.shapeOk_settle (h.pin p))).houseChanges _ _
  · exact h

theorem Device.houseOk.houseMode {d : Device} (h : d.houseOk) (mode action : Word) : (d.houseMode mode action).1.houseOk := by
  unfold Device.houseMode
  split
  · exact h
  · next p _ =>
    split
    · exact h
    · exact (h.setHouse (House.shapeOk_ordered _ (h.pin p))).houseChanges _ _

theorem Device.houseOk.setClock {d : Device} (h : d.houseOk) (minute second : Word) : (d.setClock minute second).1.houseOk := by
  have hset : Device.houseOk { d with
      clock := { minute := minute, second := (clampTop 59 second.toNat).1, valid := true, tickDue := false } } :=
    ⟨⟨clampTop_le 59 _, fun ht => by cases ht⟩, h.fire, h.storm⟩
  exact hset.same (by simp [Device.setClock])

theorem Device.houseOk.tickIfDue {d : Device} (h : d.houseOk) : d.tickIfDue.houseOk := by
  unfold Device.tickIfDue
  split
  · have htick : Device.houseOk { d with clock := { d.clock with minute := d.clock.minute + 1, second := 0, tickDue := false } } :=
      ⟨⟨Nat.zero_le _, fun ht => by cases ht⟩, h.fire, h.storm⟩
    exact htick.same (by simp [Device.minuteTick])
  · exact h

/-- A pulse raises the second count, or leaves it at 59 with the tick due. -/
theorem Clock.shapeOk_pulse {c : Clock} (h : c.shapeOk) (hdue : c.tickDue = false) : c.pulse.shapeOk := by
  unfold Clock.pulse
  split
  · next hlt => exact ⟨hlt, fun ht => absurd ht (by simp [hdue])⟩
  · next hge => exact ⟨h.1, fun _ => Nat.le_antisymm h.1 (Nat.le_of_not_lt hge)⟩

/-- A tick taken where it was due is due no more. -/
theorem Device.tickIfDue_tickDue (d : Device) : d.tickIfDue.clock.tickDue = false := by
  unfold Device.tickIfDue
  split
  · simp [Device.minuteTick]
  · next h => simpa using h

theorem Device.houseOk.secondPulse {s : State} (h : s.dev.houseOk) : s.secondPulse.dev.houseOk := by
  have ht := h.tickIfDue
  refine ⟨?_, ?_, ?_⟩
  · show (s.dev.tickIfDue.pulseTimers.clock).pulse.shapeOk
    rw [(Device.pulseTimers_frame _).2.2.2.2.2.2.1]
    exact Clock.shapeOk_pulse ht.clock s.dev.tickIfDue_tickDue
  · simpa [State.secondPulse] using ht.fire
  · simpa [State.secondPulse] using ht.storm

theorem Device.houseOk.acceptSetup {d : Device} (h : d.houseOk) (p : SetupPlan) : (d.acceptSetup p).houseOk := by
  refine ⟨?_, ?_, ?_⟩
  · simpa [Device.acceptSetup] using h.clock
  · simpa [Device.acceptSetup] using House.shapeOk_withSense p.fireSense h.fire
  · simpa [Device.acceptSetup] using House.shapeOk_withSense p.stormSense h.storm

theorem Device.houseOk.setup {d : Device} (h : d.houseOk) (p : SetupParams) (mark : Option Word) : (Device.setup p mark d).1.houseOk := by
  unfold Device.setup
  split
  · exact h
  · have hr : (d.setupReread mark).houseOk := h.same (by simp)
    dsimp only
    split
    · exact hr
    · exact hr.acceptSetup _

end Sys2Proof.Machine
end

section
/-! The invariant of the clock and the inputs, command by command. -/

namespace Sys2Proof.Machine

/-- A change that touches neither the clock nor an input. -/
def Device.sameHouse (d d' : Device) : Prop :=
  d'.clock = d.clock ∧ d'.fire = d.fire ∧ d'.storm = d.storm

theorem Device.sameHouse_self (d : Device) : d.sameHouse d := ⟨rfl, rfl, rfl⟩

/-! ## Orders -/

theorem Device.sameHouse_withRoom {d : Device} {room : Word} {n : Nat} {f : Nat → Room → Device × Reply}
    (hf : ∀ k r, d.sameHouse (f k r).1) : d.sameHouse (d.withRoom room n f).1 := by
  unfold Device.withRoom
  split
  · exact d.sameHouse_self
  · split
    · exact d.sameHouse_self
    · exact hf _ _

theorem Device.sameHouse_withNode {d : Device} {seg addr : Word} {n : Nat} {f : Nat → Node → Device × Reply}
    (hf : ∀ k x, d.sameHouse (f k x).1) : d.sameHouse (d.withNode seg addr n f).1 := by
  unfold Device.withNode
  split
  · exact d.sameHouse_self
  · split
    · exact d.sameHouse_self
    · exact hf _ _

theorem Device.sameHouse_acceptIssue (d : Device) (x : OrderContext) (key : Nat) (serial : Word) (e : Entry) (supersede : Bool) :
    d.sameHouse (d.acceptIssue x key serial e supersede) := by
  unfold Device.acceptIssue Device.joinEncoder
  dsimp only
  (repeat' split) <;> simp [Device.sameHouse]

theorem Device.sameHouse_issueCard (d : Device) (encSeg encAddr serial kind room validFrom validUntil privileges supersede : Word)
    (x : OrderContext) :
    d.sameHouse (Device.issueCard encSeg encAddr serial kind room validFrom validUntil privileges supersede x d).1 := by
  unfold Device.issueCard
  split
  · exact d.sameHouse_self
  · split
    · exact d.sameHouse_self
    · exact d.sameHouse_acceptIssue _ _ _ _ _

theorem Device.sameHouse_revokeCard (d : Device) (serial deny : Word) (x : OrderContext) :
    d.sameHouse (Device.revokeCard serial deny x d).1 := by
  unfold Device.revokeCard
  (repeat' split) <;> simp [Device.sameHouse]

theorem Device.sameHouse_extendCard (d : Device) (serial validUntil : Word) (x : OrderContext) :
    d.sameHouse (Device.extendCard serial validUntil x d).1 := by
  unfold Device.extendCard
  (repeat' split) <;> simp [Device.sameHouse]

theorem Device.sameHouse_moveCard (d : Device) (a b : EntryState) (event : CardEvent) (serial : Word) (x : OrderContext) :
    d.sameHouse (Device.moveCard a b event serial x d).1 := by
  unfold Device.moveCard
  (repeat' split) <;> simp [Device.sameHouse]

theorem Device.sameHouse_readCard (d : Device) (serial : Word) (x : OrderContext) : d.sameHouse (Device.readCard serial x d).1 := by
  unfold Device.readCard
  (repeat' split) <;> simp [Device.sameHouse]

theorem Device.sameHouse_defineRoom (d : Device) (a b c e f g i j k : Word) : d.sameHouse (d.defineRoom a b c e f g i j k).1 := by
  unfold Device.defineRoom
  dsimp only
  (repeat' split) <;> exact ⟨rfl, rfl, rfl⟩

theorem Device.sameHouse_checkIn (d : Device) (room source ceiling : Word) : d.sameHouse (d.checkIn room source ceiling).1 := by
  unfold Device.checkIn
  split
  · exact d.sameHouse_self
  · refine Device.sameHouse_withRoom (fun k r => ?_)
    split
    · simp [Device.sameHouse]
    · exact d.sameHouse_self

theorem Device.sameHouse_checkOut (d : Device) (room : Word) (x : OrderContext) : d.sameHouse (Device.checkOut room x d).1 := by
  unfold Device.checkOut
  refine Device.sameHouse_withRoom (fun k r => ?_)
  split
  · exact d.sameHouse_self
  · simp [Device.sameHouse]

theorem Device.sameHouse_setRoomState (d : Device) (room state : Word) : d.sameHouse (d.setRoomState room state).1 := by
  unfold Device.setRoomState
  split
  · exact d.sameHouse_self
  · refine Device.sameHouse_withRoom (fun k r => ?_)
    (repeat' split) <;> exact ⟨rfl, rfl, rfl⟩

theorem Device.sameHouse_readRoom (d : Device) (room : Word) : d.sameHouse (d.readRoom room).1 :=
  Device.sameHouse_withRoom (fun _ _ => d.sameHouse_self)

theorem Device.sameHouse_doorCommand (d : Device) (seg addr action endMinute : Word) :
    d.sameHouse (d.doorCommand seg addr action endMinute).1 := by
  unfold Device.doorCommand Device.commandHold
  dsimp only
  (repeat' split) <;> simp [Device.sameHouse, Device.doneAtDoor]

theorem Device.sameHouse_clearAlarm (d : Device) (seg addr : Word) : d.sameHouse (d.clearAlarm seg addr).1 := by
  unfold Device.clearAlarm
  split
  · exact d.sameHouse_self
  · simp [Device.sameHouse, Device.doneAtDoor]

theorem Device.sameHouse_setSlots (d : Device) (room : Word) (slots : List (Word × Word)) : d.sameHouse (d.setSlots room slots).1 := by
  unfold Device.setSlots
  split
  · exact d.sameHouse_self
  · refine Device.sameHouse_withRoom (fun k r => ?_)
    split <;> exact ⟨rfl, rfl, rfl⟩

theorem Device.sameHouse_postFolio (d : Device) (room amount : Word) : d.sameHouse (d.postFolio room amount).1 :=
  Device.sameHouse_withRoom (fun _ _ => ⟨rfl, rfl, rfl⟩)

theorem Device.sameHouse_setCeiling (d : Device) (room ceiling : Word) : d.sameHouse (d.setCeiling room ceiling).1 :=
  Device.sameHouse_withRoom (fun _ _ => ⟨rfl, rfl, rfl⟩)

theorem Device.sameHouse_setTariff (d : Device) (target index value taxClass : Word) :
    d.sameHouse (d.setTariff target index value taxClass).1 := by
  unfold Device.setTariff
  dsimp only
  (repeat' split) <;> exact ⟨rfl, rfl, rfl⟩

theorem Device.sameHouse_defineNode (d : Device) (p : NodeParams) (door : DoorParams) : d.sameHouse (d.defineNode p door).1 := by
  unfold Device.defineNode
  dsimp only
  (repeat' split) <;> simp [Device.sameHouse]

theorem Device.sameHouse_removeNode (d : Device) (seg addr : Word) : d.sameHouse (d.removeNode seg addr).1 := by
  refine Device.sameHouse_withNode (fun k n => ?_)
  split
  · exact d.sameHouse_self
  · simp [Device.sameHouse]

theorem Device.sameHouse_restoreNode (d : Device) (seg addr : Word) : d.sameHouse (d.restoreNode seg addr).1 := by
  refine Device.sameHouse_withNode (fun k n => ?_)
  split
  · simp [Device.sameHouse]
  · exact d.sameHouse_self

theorem Device.sameHouse_readNode (d : Device) (seg addr : Word) : d.sameHouse (d.readNode seg addr).1 :=
  Device.sameHouse_withNode (fun _ _ => d.sameHouse_self)

/-! ## The other commands -/

theorem Device.houseOk.runOrder {d : Device} {kind : OrderKind} {n : Nat} {owner : OrderContext → Device → Device × Reply}
    (ho : ∀ x d, Device.houseOk d → (owner x d).1.houseOk) (h : d.houseOk) : (d.runOrder kind n owner).houseOk := by
  unfold Device.runOrder
  split
  · split
    · exact (ho _ _ h).same ⟨rfl, rfl, rfl⟩
    · exact h
  · exact h

theorem Device.houseOk.writeRegister {d : Device} {f : Device → Device} (hf : ∀ d, Device.sameHouse d (f d)) (h : d.houseOk) :
    (d.writeRegister f).houseOk := by
  unfold Device.writeRegister
  split
  · exact h
  · exact h.same (hf d)

theorem Device.sameHouse_writeBase (d : Device) (value : Word) : d.sameHouse (d.writeBase value) := by
  unfold Device.writeBase
  split <;> exact ⟨rfl, rfl, rfl⟩

theorem Device.sameHouse_writeSize (d : Device) (value : Word) : d.sameHouse (d.writeSize value) := by
  unfold Device.writeSize
  split <;> exact ⟨rfl, rfl, rfl⟩

theorem Device.sameHouse_writeChainHead (d : Device) (value : Word) : d.sameHouse (d.writeChainHead value) := by
  unfold Device.writeChainHead
  (repeat' split) <;> exact ⟨rfl, rfl, rfl⟩

theorem Device.sameHouse_softReset (d : Device) : d.sameHouse d.softReset := by
  simp [Device.sameHouse, Device.softReset, Device.resetRunning]

theorem Device.sameHouse_boardReset (d : Device) : d.sameHouse d.boardReset := by
  simp [Device.sameHouse, Device.boardReset, Device.resetRunning]

theorem State.sameHouse_writeControl (s : State) (value : Word) (p : PortProgress) : s.dev.sameHouse (s.writeControl value p).dev := by
  unfold State.writeControl
  split
  · exact s.dev.sameHouse_self
  · dsimp only
    split
    · exact Device.sameHouse_softReset (s.dev.writeAlertEnable (controlEnable value))
    · exact ⟨rfl, rfl, rfl⟩

theorem State.sameHouse_boardReset (s : State) (p : PortProgress) : s.dev.sameHouse (s.boardReset p).dev := by
  unfold State.boardReset
  split
  · exact s.dev.sameHouse_self
  · exact s.dev.sameHouse_boardReset

theorem Device.houseOk.releaseReset {d : Device} (h : d.houseOk) : d.releaseReset.houseOk := by
  unfold Device.releaseReset
  split
  · exact h
  · exact (h.same (d' := { d with resetHeld := none }) ⟨rfl, rfl, rfl⟩).houseChanges _ _

theorem State.sameHouse_checkBlock (s : State) (hd : Header) (k : Word) : s.dev.sameHouse (s.checkBlock hd k).dev := by
  unfold State.checkBlock Device.takeBlock
  (repeat' split) <;> first | exact ⟨rfl, rfl, rfl⟩ | (simp only [State.onDevice_dev]; split <;> exact ⟨rfl, rfl, rfl⟩)

theorem State.sameHouse_stampBlock (s : State) : s.dev.sameHouse s.stampBlock.dev := by
  unfold State.stampBlock
  split <;> simp [Device.sameHouse, Device.setPhase]

theorem State.sameHouse_stampBefore (s : State) (block : Word) : s.dev.sameHouse (s.stampBefore block).dev := by
  unfold State.stampBefore
  split
  · exact s.sameHouse_stampBlock
  · exact s.dev.sameHouse_self

theorem State.sameHouse_rereadLink (s : State) (link : Word) : s.dev.sameHouse (s.rereadLink link).dev := by
  unfold State.rereadLink State.follow
  (repeat' split) <;> exact s.sameHouse_stampBlock

theorem State.sameHouse_writeSettlement (s : State) : s.dev.sameHouse s.writeSettlement.dev := by
  unfold State.writeSettlement
  split
  · exact s.dev.sameHouse_self
  · exact s.sameHouse_stampBefore _

theorem State.sameHouse_completePlacement (s : State) : s.dev.sameHouse s.completePlacement.dev := by
  unfold State.completePlacement
  split <;> exact ⟨rfl, rfl, rfl⟩

theorem State.sameHouse_portError (s : State) (access : PortAccess) (n : Nat) : s.dev.sameHouse (s.portError access n).dev := by
  unfold State.portError
  cases access <;> dsimp only
  case blockRead =>
    unfold State.failRead
    (repeat' split) <;> exact ⟨rfl, rfl, rfl⟩
  case linkRead =>
    unfold State.failLink
    dsimp only
    split
    · exact s.sameHouse_stampBlock
    · exact s.dev.sameHouse_self
  case blockWrite =>
    unfold State.failBlock
    split
    · split
      · simp [Device.sameHouse, Device.setPhase]
      · dsimp only
        split
        · simp [Device.sameHouse, State.endWalk]
        · exact s.dev.sameHouse_self
    · exact s.dev.sameHouse_self
  case settlement =>
    unfold State.failSettlement
    (repeat' split)
    · exact s.dev.sameHouse_self
    · exact s.sameHouse_stampBefore _
    · exact s.dev.sameHouse_self
  case publication =>
    unfold State.failPage
    split <;> exact ⟨rfl, rfl, rfl⟩
  case placement =>
    unfold State.failPlacement
    split <;> exact ⟨rfl, rfl, rfl⟩
  case markRead =>
    unfold State.failMark
    split <;> exact ⟨rfl, rfl, rfl⟩

/-- An order whose owner touches neither the clock nor an input. -/
theorem Device.houseOk.quietOrder {d : Device} {kind : OrderKind} {n : Nat} {owner : OrderContext → Device → Device × Reply}
    (ho : ∀ x d, Device.sameHouse d (owner x d).1) (h : d.houseOk) : (d.runOrder kind n owner).houseOk :=
  h.runOrder (fun x d hd => hd.same (ho x d))

/-- The clock and the inputs at power-on are in their shape (R163, R168, R173). -/
theorem Device.houseOk_initial (fire storm : Level) : (Device.initial fire storm).houseOk where
  clock := ⟨Nat.zero_le _, fun h => by cases h⟩
  fire := ⟨fun h => (by cases h), fun _ => rfl⟩
  storm := ⟨fun h => (by cases h), fun _ => rfl⟩

/-- Every command's effect keeps the clock and the inputs in their shape. -/
theorem effect_houseOk (c : Instr) {s : State} (h : s.dev.houseOk) : (effect c s).dev.houseOk := by
  cases c
  all_goals simp only [effect, State.onDevice_dev]
  case powerOn fire storm => exact Device.houseOk_initial fire storm
  case boardReset p => exact h.same (s.sameHouse_boardReset p)
  case resetNRelease => exact h.releaseReset
  case softReset value p => exact h.same (s.sameHouse_writeControl value p)
  case alertEnable value => exact h.same (s.sameHouse_writeControl value _)
  case registerWrite => exact h.writeRegister (fun _ => ⟨rfl, rfl, rfl⟩)
  case commonBase value => exact h.writeRegister (fun d => d.sameHouse_writeBase value)
  case commonSize value => exact h.writeRegister (fun d => d.sameHouse_writeSize value)
  case chainHeadStart value => exact h.writeRegister (fun d => d.sameHouse_writeChainHead value)
  case chainHeadAbort => exact h.writeRegister (fun d => d.sameHouse_writeChainHead 0)
  case statusClear => exact h.writeRegister (fun _ => ⟨rfl, rfl, rfl⟩)
  case blockCheck hd k => exact h.same (s.sameHouse_checkBlock hd k)
  case linkReread link => exact h.same (s.sameHouse_rereadLink link)
  case settlementWrite => exact h.same s.sameHouse_writeSettlement
  case memoryError access n => exact h.same (s.sameHouse_portError access n)
  case setup p mark => exact h.runOrder (fun _ _ hd => hd.setup p mark)
  case setClock minute second => exact h.runOrder (fun _ _ hd => hd.setClock minute second)
  case houseMode mode action => exact h.runOrder (fun _ _ hd => hd.houseMode mode action)
  case issueCard => exact h.quietOrder (fun x d => d.sameHouse_issueCard _ _ _ _ _ _ _ _ _ x)
  case revokeCard => exact h.quietOrder (fun x d => d.sameHouse_revokeCard _ _ x)
  case extendCard => exact h.quietOrder (fun x d => d.sameHouse_extendCard _ _ x)
  case suspendCard => exact h.quietOrder (fun x d => d.sameHouse_moveCard _ _ _ _ x)
  case resumeCard => exact h.quietOrder (fun x d => d.sameHouse_moveCard _ _ _ _ x)
  case readCard => exact h.quietOrder (fun x d => d.sameHouse_readCard _ x)
  case defineRoom => exact h.quietOrder (fun _ d => d.sameHouse_defineRoom _ _ _ _ _ _ _ _ _)
  case checkIn => exact h.quietOrder (fun _ d => d.sameHouse_checkIn _ _ _)
  case checkOut => exact h.quietOrder (fun x d => d.sameHouse_checkOut _ x)
  case setRoomState => exact h.quietOrder (fun _ d => d.sameHouse_setRoomState _ _)
  case readRoom => exact h.quietOrder (fun _ d => d.sameHouse_readRoom _)
  case doorCommandRelease => exact h.quietOrder (fun _ d => d.sameHouse_doorCommand _ _ _ _)
  case doorCommandRelock => exact h.quietOrder (fun _ d => d.sameHouse_doorCommand _ _ _ _)
  case doorCommandHold => exact h.quietOrder (fun _ d => d.sameHouse_doorCommand _ _ _ _)
  case clearAlarm => exact h.quietOrder (fun _ d => d.sameHouse_clearAlarm _ _)
  case setSlots => exact h.quietOrder (fun _ d => d.sameHouse_setSlots _ _)
  case postFolio => exact h.quietOrder (fun _ d => d.sameHouse_postFolio _ _)
  case setCeiling => exact h.quietOrder (fun _ d => d.sameHouse_setCeiling _ _)
  case setTariff => exact h.quietOrder (fun _ d => d.sameHouse_setTariff _ _ _ _)
  case defineNode => exact h.quietOrder (fun _ d => d.sameHouse_defineNode _ _)
  case removeNode => exact h.quietOrder (fun _ d => d.sameHouse_removeNode _ _)
  case restoreNode => exact h.quietOrder (fun _ d => d.sameHouse_restoreNode _ _)
  case readNode => exact h.quietOrder (fun _ d => d.sameHouse_readNode _ _)
  case secondPulse => exact h.secondPulse
  case minuteTick => exact h.tickIfDue
  case inputEdge pin level => exact h.inputEdge pin level
  case inputSettled pin => exact h.inputSettled pin
  case strayFrame => exact h
  case placementComplete => exact h.same s.sameHouse_completePlacement
  case readMarkReread => exact h.same ⟨rfl, rfl, rfl⟩
  -- a timer's expiry, a turn and what a node answers: the frames of their operations
  all_goals exact h.same (by simp)

/-- Settles O55, by `effect_wf` and `effect_houseOk`. -/
theorem memoryClockAndInputsKeepTheirForm : Obligations.MemoryClockAndInputsKeepTheirForm := by
  intro s t hmem hclock hfire hstorm hstep
  unfold step at hstep
  split at hstep
  · cases hstep
    exact ⟨hmem, hclock, hfire, hstorm⟩
  · next c rest _ =>
    have hwf := effect_wf c (s := { s with pending := rest }) hmem
    have hhouse := effect_houseOk c (s := { s with pending := rest }) ⟨hclock, hfire, hstorm⟩
    rw [exec_eq_commit] at hstep
    obtain ⟨_, hnext, -, hm, hdev⟩ := commit_next { s with pending := rest } (effect c)
    rw [hnext] at hstep
    cases hstep
    have hkept := hhouse.same (d' := t.dev) (by simp [hdev])
    exact ⟨show Memory.wf t.mem = true from hm ▸ hwf, hkept.clock, hkept.fire, hkept.storm⟩

end Sys2Proof.Machine
end

section
/-! Steps, power-on and the register writes (sections 10.1 and 10.6). -/

namespace Sys2Proof.Machine

/-! ## Steps and power-on -/

/-- Settles O1, by the two cases of `step`. -/
theorem stepTakesTheFrontCommand : Obligations.StepTakesTheFrontCommand := by
  refine ⟨fun s c rest h => ?_, fun s h => ?_⟩
  · unfold step
    rw [h]
  · unfold step
    rw [h]

/-- POWER_ON answers the initial device with the levels it names, board memory unknown. -/
theorem exec_powerOn_next (fire storm : Level) (s : State) :
    exec (.powerOn fire storm) s = .next { s with dev := Device.initial fire storm, mem := [] } := by
  rw [exec_powerOn, commit_of_settled _ _ rfl, State.powerOn_dev, stallStatus, if_neg (fun h => by cases h.2)]
  rfl

/-- Settles O3: every field is read off the initial device. -/
theorem powerOnState : Obligations.PowerOnState := by
  refine ⟨rfl, rfl, fun s fire storm => ⟨_, exec_powerOn_next fire storm s, rfl, rfl, rfl, rfl, rfl, rfl, rfl, rfl, rfl, rfl, rfl, rfl,
    rfl, rfl, rfl, rfl, rfl, ?_, ?_, rfl, ?_, rfl, rfl, rfl, rfl, rfl, rfl, rfl, rfl, rfl, rfl, rfl, rfl, ?_, rfl, rfl, rfl⟩⟩
  · exact fun item h => List.getElem?_replicate_of_lt h
  · exact fun cls h => List.getElem?_replicate_of_lt h
  · intro g hg
    rw [List.eq_of_mem_replicate hg]
    exact ⟨rfl, rfl, rfl, rfl, rfl, rfl⟩
  · intro pin
    cases pin <;> exact ⟨rfl, rfl, rfl, rfl, rfl⟩

/-- Settles O60: the tables of the reset device are empty, its journal is that of `Journal.bounded_initial`. -/
theorem resetMeetsTheInvariants : Obligations.ResetMeetsTheInvariants := by
  have hhouse : State.reset.dev.houseOk := Device.houseOk_initial .high .high
  refine ⟨Memory.wf_reset, hhouse.clock, hhouse.fire, hhouse.storm, Journal.bounded_initial, ?_, ⟨rfl, rfl, ?_⟩,
    ⟨rfl, Nat.zero_le _, List.nodup_nil, Nat.zero_le _, ?_⟩, rfl⟩
  all_goals exact fun _ hp => absurd hp List.not_mem_nil

/-! ## Register writes -/

/-- A register write while RESET_N is held changes nothing (R174). -/
theorem commit_heldWrite {s : State} (f : Device → Device) (hheld : s.dev.resetHeld.isSome = true) (h : s.settled) :
    commit s (fun t => t.onDevice (fun d => d.writeRegister f)) = .next s :=
  commit_unchanged s _ (State.onDevice_self s _ (Device.writeRegister_held f hheld)) h

/-- A write to CONTROL while RESET_N is held changes nothing (R174). -/
theorem commit_heldControl {s : State} (value : Word) (p : PortProgress) (hheld : s.dev.resetHeld.isSome = true) (h : s.settled) :
    commit s (fun t => t.writeControl value p) = .next s := by
  refine commit_unchanged s _ ?_ h
  unfold State.writeControl
  rw [if_pos hheld]

/-- Settles O4. -/
theorem heldResetIgnoresWrites : Obligations.HeldResetIgnoresWrites := by
  intro s value progress hheld h
  refine ⟨?_, ?_, ?_, ?_, ?_, ?_, ?_, ?_, fun r => ?_, ?_⟩
  · exact commit_heldControl value _ hheld h
  · exact commit_heldWrite _ hheld h
  · exact commit_heldWrite _ hheld h
  · exact commit_heldWrite _ hheld h
  · exact commit_heldWrite _ hheld h
  · exact commit_heldWrite _ hheld h
  · exact commit_heldWrite _ hheld h
  · exact commit_heldControl value progress hheld h
  · unfold Device.readRegister
    rw [if_pos hheld]
  · obtain ⟨modes, hm⟩ := Option.isSome_iff_exists.mp hheld
    simp [Device.alertAsserted, hm]

/-- A register write outside a held reset answers its own effect. -/
theorem commit_freeWrite {s : State} (f : Device → Device) (d' : Device) (hfree : s.dev.resetHeld = none) (h : s.settled)
    (hf : f s.dev = d') (hr : d'.reports = s.dev.reports) (hj : d'.journal = s.dev.journal) :
    commit s (fun t => t.onDevice (fun d => d.writeRegister f)) = .next { s with dev := d' } := by
  subst hf
  exact commit_writeRegister s f hfree h hr hj

/-- Settles O6, by the cases of a write to CHAIN_HEAD. -/
theorem chainHeadWrites : Obligations.ChainHeadWrites := by
  intro s value hfree h hvalue
  refine ⟨fun hidle => ⟨?_, ?_⟩, fun block abort phase hwalk => ⟨?_, ?_⟩⟩
  · exact commit_freeWrite _ _ hfree h (by rw [Device.writeChainHead, hidle]; exact if_neg hvalue) rfl rfl
  · exact commit_freeWrite _ _ hfree h (by rw [Device.writeChainHead, hidle]; rfl) rfl rfl
  · exact commit_freeWrite _ _ hfree h (by rw [Device.writeChainHead, hwalk]; exact if_neg hvalue) rfl rfl
  · exact commit_freeWrite _ _ hfree h (by rw [Device.writeChainHead, hwalk]; rfl) rfl rfl

/-! ### The bits of a written word -/

theorem mem_statusBits (i : Nat) : statusBits.getLsbD i = decide (i < 10) := by
  by_cases h : i < 32
  · revert i
    decide
  · rw [BitVec.getLsbD_of_ge _ _ (by omega)]
    simp
    omega

/-- Bit 5 is the one of the ten that is not latched (R176). -/
theorem mem_latchedBits (i : Nat) (h : i < 10) : latchedBits.getLsbD i = decide (i ≠ 5) := by
  revert i
  decide

/-- JOURNAL_LEVEL as STATUS reads follows the journal alone (R123, R176). -/
theorem Device.statusNow_level (d : Device) : d.statusNow.getLsbD 5 = d.journal.level := by
  have hlatched : latchedBits.getLsbD 5 = false := mem_latchedBits 5 (by decide)
  unfold Device.statusNow
  rw [BitVec.getLsbD_or, BitVec.getLsbD_and, hlatched, Bool.and_false, Bool.false_or]
  cases d.journal.level <;> rfl

/-- A base loses its low twelve bits. -/
theorem toNat_pageBase (value : Word) : (value &&& 0xfffff000#32).toNat = value.toNat / 4096 * 4096 := by
  have hbits : ∀ i : Nat, i < 32 → (0xfffff000#32).getLsbD i = decide (12 ≤ i) := by decide
  have hmask : value &&& 0xfffff000#32 = (value >>> 12) <<< 12 := by
    refine BitVec.eq_of_getLsbD_eq (fun i hi => ?_)
    rw [BitVec.getLsbD_and, hbits i hi, BitVec.getLsbD_shiftLeft, BitVec.getLsbD_ushiftRight]
    by_cases h : 12 ≤ i
    · simp [h, hi, Nat.not_lt.mpr h]
    · simp [h, Nat.lt_of_not_le h]
  rw [hmask, BitVec.toNat_shiftLeft, BitVec.toNat_ushiftRight, Nat.shiftRight_eq_div_pow, Nat.shiftLeft_eq]
  have := value.isLt
  omega

/-- A size is in the low thirteen bits (R193). -/
theorem toNat_sizeBits (value : Word) : (value.extractLsb' 0 13).toNat = value.toNat % 8192 := by
  rw [BitVec.extractLsb'_toNat, Nat.shiftRight_zero]

/-- COMMON_BASE and COMMON_SIZE take a write while the walk is IDLE and no region is in force (R175). -/
theorem Device.areaMayMove_iff (d : Device) : d.areaMayMove = true ↔ d.walker.walk = .idle ∧ d.journal.region = none := by
  unfold Device.areaMayMove
  cases d.walker.walk <;> simp [Walk.isIdle]

/-- A write to COMMON_BASE or COMMON_SIZE, as the area may move or not. -/
theorem Device.writeArea_cases (d : Device) (value : Word) :
    (¬ (d.walker.walk = .idle ∧ d.journal.region = none) ∧ d.writeBase value = d ∧ d.writeSize value = d)
      ∨ ((d.walker.walk = .idle ∧ d.journal.region = none)
        ∧ d.writeBase value = { d with regs := { d.regs with commonBase := value &&& 0xfffff000#32 } }
        ∧ d.writeSize value = { d with regs := { d.regs with
            commonSize := natWord (sizeTaken d.regs.commonBase (value.extractLsb' 0 13).toNat) } }) := by
  rw [← d.areaMayMove_iff]
  unfold Device.writeBase Device.writeSize
  by_cases h : d.areaMayMove = true
  · exact .inr ⟨h, if_pos h, if_pos h⟩
  · exact .inl ⟨h, if_neg h, if_neg h⟩

/-- A size that is wanted fits, or the largest that does is taken, or none (R175). -/
theorem sizeThatFits_spec (base : Word) (want : Nat) (hw : 16 ≤ want) (hw' : want ≤ 4096) :
    sizeThatFits base want < 4294967296
      ∧ (base.toNat + want * 4096 ≤ 4294967296 → sizeThatFits base want = want)
      ∧ (4294967296 < base.toNat + want * 4096 → ∀ fits, base.toNat + fits * 4096 ≤ 4294967296 →
          4294967296 < base.toNat + (fits + 1) * 4096 → sizeThatFits base want = if fits < 16 then 0 else fits) := by
  have hbase := base.isLt
  unfold sizeThatFits
  dsimp only
  refine ⟨?_, fun h => ?_, fun h fits h1 h2 => ?_⟩
  · split_ifs <;> omega
  · exact if_pos (by omega)
  · have hfits : (4294967296 - base.toNat) / 4096 = fits := by omega
    rw [hfits, if_neg (by omega)]

/-- Settles O5: each write is its own effect (`commit_writeRegister`), and the rest is what its bits and its clamp are. -/
theorem registersTakeTheirWrites : Obligations.RegistersTakeTheirWrites := by
  refine ⟨fun s value progress hfree h => ⟨fun hsoft t ht => ?_, value &&& statusBits, ?_, fun i => ?_⟩,
    fun s value hfree h => ⟨s.dev.regs.status &&& ~~~(value &&& latchedBits), ?_, fun i hi hne => ?_, fun t ht => ?_⟩,
    fun s value hfree h => ⟨fun hmove => ⟨?_, ?_⟩, fun hidle hregion => ⟨⟨value &&& 0xfffff000#32, ?_, toNat_pageBase value⟩,
      natWord (sizeTaken s.dev.regs.commonBase (value.extractLsb' 0 13).toNat), ?_, fun h0 => ?_, fun h0 want hwant => ?_⟩⟩⟩
  · have control : ∀ p, commit s (fun t => t.writeControl value p) = .next t := by
      intro p
      rcases s.writeControl_cases value p with ⟨hheld, -⟩ | ⟨-, -, heq⟩ | ⟨-, hset, -⟩
      · rw [hfree] at hheld
        cases hheld
      · rw [commit_of_journal_eq s _ (by rw [heq]; exact h) (by rw [heq]; rfl), heq, ht]
        rfl
      · rw [hsoft] at hset
        cases hset
    refine ⟨control _, control progress, ?_⟩
    subst ht
    unfold Device.readRegister
    rw [if_neg (by simp [hfree])]
    rfl
  · exact commit_writeRegister s (fun d => d.writeMask value) hfree h rfl rfl
  · rw [BitVec.getLsbD_and, mem_statusBits]
  · exact commit_writeRegister s (fun d => d.clearStatus value) hfree h rfl rfl
  · rw [BitVec.getLsbD_and, BitVec.getLsbD_not, BitVec.getLsbD_and, mem_latchedBits i hi]
    simp [hne, show i < 32 by omega]
  · have hnext := commit_writeRegister s (fun d => d.clearStatus value) hfree h rfl rfl
    rw [exec_statusClear, hnext] at ht
    cases ht
    exact ⟨Device.statusNow_level _, Device.statusNow_level _⟩
  · obtain ⟨-, hbase, -⟩ := (s.dev.writeArea_cases value).resolve_right (fun hc => hmove hc.1)
    exact commit_freeWrite _ _ hfree h hbase rfl rfl
  · obtain ⟨-, -, hsize⟩ := (s.dev.writeArea_cases value).resolve_right (fun hc => hmove hc.1)
    exact commit_freeWrite _ _ hfree h hsize rfl rfl
  · obtain ⟨-, hbase, -⟩ := (s.dev.writeArea_cases value).resolve_left (fun hc => hc.1 ⟨hidle, hregion⟩)
    exact commit_freeWrite _ _ hfree h hbase rfl rfl
  · obtain ⟨-, -, hsize⟩ := (s.dev.writeArea_cases value).resolve_left (fun hc => hc.1 ⟨hidle, hregion⟩)
    exact commit_freeWrite _ _ hfree h hsize rfl rfl
  · rw [toNat_sizeBits, h0]
    rfl
  · obtain ⟨hlt, hfits, hlarge⟩ := sizeThatFits_spec s.dev.regs.commonBase want (by omega) (by omega)
    rw [toNat_sizeBits, sizeTaken, if_neg h0, ← hwant, toNat_natWord hlt]
    exact ⟨hfits, hlarge⟩

end Sys2Proof.Machine
end

section
/-! Answers and settlements in board memory, and the end of a walk (section 10.3). -/

namespace Sys2Proof.Machine

/-! ## What an answer leaves in board memory -/

/-- RESULT with its code in its low half and CLAMPED in bit 16 (R195). -/
theorem resultWord_eq (code : ResultCode) (clamped : Bool) :
    resultWord code clamped = natWord (code.code + if clamped then 65536 else 0) := rfl

/-- Result words behind the parameters, then RESULT and STAMP: each stands at its place, and every other byte is as before (R183). -/
theorem Memory.accept_answer (mem : Table Byte) (block : Word) (params : Nat) (words : List Word) (code : ResultCode) (clamped : Bool)
    (hfit : 6 + params + words.length ≤ 64) (hblock : block.toNat + 256 ≤ 4294967296) :
    ∀ after, after = Memory.accept mem (writesFrom (block + natWord (24 + 4 * params)) words ++ doneWrites block code clamped) →
      Memory.holdsWord after (block.toNat + 12) 2 ∧ Memory.holdsWord after (block.toNat + 16) (resultWord code clamped)
        ∧ (∀ i, ∀ hi : i < words.length, Memory.holdsWord after (block.toNat + 24 + 4 * (params + i)) (words[i]'hi))
        ∧ ∀ a, ¬ (block.toNat + 12 ≤ a ∧ a < block.toNat + 20) →
          ¬ (block.toNat + 24 + 4 * params ≤ a ∧ a < block.toNat + 24 + 4 * (params + words.length)) →
          Memory.read after a = Memory.read mem a := by
  rintro after rfl
  rw [Memory.accept_append]
  have hstart : (block + natWord (24 + 4 * params)).toNat = block.toNat + (24 + 4 * params) ∨ words = [] := by
    rcases List.eq_nil_or_concat words with rfl | ⟨ws, w, rfl⟩
    · exact .inr rfl
    · rw [List.concat_eq_append, List.length_append, List.length_singleton] at hfit
      exact .inl (Word.toNat_add_small block _ (by omega))
  obtain ⟨hstamp, hresult, hrest⟩ := Memory.accept_doneWrites
    (Memory.accept mem (writesFrom (block + natWord (24 + 4 * params)) words)) block (resultWord code clamped) 2 hblock
  rcases hstart with hstart | rfl
  · obtain ⟨hkept, hwords⟩ := Memory.accept_writesFrom (block + natWord (24 + 4 * params)) words mem (by omega)
    rw [hstart] at hkept hwords
    refine ⟨hstamp, hresult, fun i hi => ?_, fun a ha ha' => ?_⟩
    · have hword := hwords i hi
      rw [show block.toNat + (24 + 4 * params) + 4 * i = block.toNat + 24 + 4 * (params + i) by omega] at hword
      exact Memory.holdsWord_same hword (fun x h1 h2 => hrest x (by omega))
    · rw [← hkept a (by omega)]
      exact hrest a ha
  · exact ⟨hstamp, hresult, fun i hi => absurd hi (Nat.not_lt_zero i), fun a ha _ => hrest a ha⟩

/-- Settles O8, by `Memory.accept_answer` for an order that is answered and `Memory.accept_doneWrites` for the stamp TAKEN. -/
theorem answerInBoardMemory : Obligations.AnswerInBoardMemory := by
  rintro mem block params r hfit hblock after rfl
  refine ⟨fun hd => ?_, fun hd => ?_⟩
  · have hown : (replyWrites block params r).own
        = writesFrom (block + natWord (24 + 4 * params)) r.words ++ doneWrites block r.code r.clamped := by
      simp [replyWrites, hd]
    exact Memory.accept_answer mem block params r.words r.code r.clamped hfit hblock _ (by rw [hown])
  · have hown : (replyWrites block params r).own = takenWrites block := by
      simp [replyWrites, hd]
    rw [hown]
    exact Memory.accept_doneWrites mem block 0 1 hblock

/-! ## Settlements -/

/-- A settlement into a block that the walker has nothing outstanding for is written as it stands. -/
theorem State.writeSettlement_free {s : State} {x : Settlement} {rest : List Settlement} (hs : s.dev.walker.settlements = x :: rest)
    (hfree : s.dev.walker.walk.writesTo x.block = false) :
    s.writeSettlement = { s with
      mem := Memory.accept s.mem x.writes
      dev := Device.latch { s.dev with walker := { s.dev.walker with settlements := rest } } .orderSettled } := by
  unfold State.writeSettlement
  rw [hs]
  dsimp only
  unfold State.stampBefore
  rw [if_neg (by simp [hfree])]

/-- Settles O10, by `State.writeSettlement_free` and `Memory.accept_answer`. -/
theorem settlementIsWritten : Obligations.SettlementIsWritten := by
  intro s x rest h hs hfree hlen hblock
  have heq := State.writeSettlement_free hs hfree
  have hnext := commit_of_journal_eq s State.writeSettlement (by rw [heq]; exact h) (by rw [heq]; rfl)
  obtain ⟨hstamp, hresult, hwords, hrest⟩ := Memory.accept_answer s.mem x.block 9 x.words x.code false (by omega) hblock _ rfl
  refine ⟨_, hnext, ?_⟩
  rw [heq]
  refine ⟨hstamp, hresult, fun i hi => ?_, fun a ha ha' => hrest a ha (by omega), rfl⟩
  rw [show x.block.toNat + 60 + 4 * i = x.block.toNat + 24 + 4 * (9 + i) by omega]
  exact hwords i hi

/-! ## The re-read of a LINK -/

/-- The block in hand stamped, its outstanding writes accepted. -/
theorem State.stampBlock_writing {s : State} {block : Word} {abort : Bool} {w : BlockWrites}
    (hwalk : s.dev.walker.walk = .walking block abort (.writing w)) :
    s.stampBlock = { s with
      mem := Memory.accept s.mem (w.cancels.flatten ++ w.own)
      dev := (s.dev.setPhase block abort .stamped).settledIf (decide (w.cancels ≠ [])) } := by
  unfold State.stampBlock
  rw [hwalk]

/-- ORDER_SETTLED latched where there are settlements changes STATUS alone (R184). -/
theorem Device.settledIf_eq (d : Device) (groups : List (List PortWrite)) :
    d.settledIf (decide (groups ≠ []))
      = { d with regs := { d.regs with status := d.regs.status ||| (if groups = [] then 0 else 2) } } := by
  unfold Device.settledIf
  by_cases h : groups = []
  · simp [h]
  · rw [if_pos (by simpa using h), if_neg h]
    rfl

/-- A walk's end, the page published behind it. -/
theorem State.endWalk_eq (s : State) (block : Word) (cause : WalkEnd) :
    s.endWalk block cause = { s with
      mem := Memory.accept s.mem s.dev.walker.page
      dev := { s.dev with walker := { s.dev.walker with
        walk := .idle, lastBlock := block, lastEnd := cause, page := (s.dev.endWalk block cause).pageWrites } } } := rfl

/-- The state once the writes of the block in hand have been accepted, cancellation settlements first. -/
def State.stamped (s : State) (block : Word) (abort : Bool) (w : BlockWrites) : State :=
  { s with
    mem := Memory.accept s.mem (w.cancels.flatten ++ w.own)
    dev := { s.dev with
      regs := { s.dev.regs with status := s.dev.regs.status ||| (if w.cancels = [] then 0 else 2) }
      walker := { s.dev.walker with walk := .walking block abort .stamped } } }

theorem State.stampBlock_eq_stamped {s : State} {block : Word} {abort : Bool} {w : BlockWrites}
    (hwalk : s.dev.walker.walk = .walking block abort (.writing w)) : s.stampBlock = s.stamped block abort w := by
  rw [State.stampBlock_writing hwalk, Device.settledIf_eq]
  rfl

/-- The walk after the re-read of the LINK of a block whose writes were outstanding (R185). -/
theorem State.rereadLink_writing {s : State} {block : Word} {abort : Bool} {w : BlockWrites} (link : Word)
    (hwalk : s.dev.walker.walk = .walking block abort (.writing w)) :
    s.rereadLink link
      = if abort then (s.stamped block abort w).endWalk block .aborted
        else if link = 0 then ((s.stamped block abort w).onDevice (fun d => d.latch .chainWalked)).endWalk block .walked
        else (s.stamped block abort w).onDevice (fun d => d.setPhase link false .checking) := by
  unfold State.rereadLink State.follow
  rw [State.stampBlock_eq_stamped hwalk]
  rfl

/-- Settles O9, by the three ways of `State.rereadLink_writing`. -/
theorem linkRereadMovesOn : Obligations.LinkRereadMovesOn := by
  intro s block abort w link h hwalk
  have heq := State.rereadLink_writing link hwalk
  have hnext : exec (.linkReread link) s = .next (s.rereadLink link) := by
    rw [exec_linkReread]
    refine commit_of_journal_eq s _ ?_ ?_
    · rw [heq]
      split_ifs <;> exact h
    · rw [heq]
      split_ifs <;> rfl
  refine ⟨_, hnext, ?_⟩
  rw [heq]
  cases abort with
  | true => exact ⟨fun _ => ⟨rfl, rfl, rfl, rfl, rfl⟩, fun hab => (by cases hab), by simp [State.stamped, State.endWalk_eq], rfl⟩
  | false =>
    by_cases hlink : link = 0
    · subst hlink
      exact ⟨fun _ => ⟨rfl, rfl, rfl, rfl, rfl⟩, fun _ hne => absurd rfl hne, rfl, rfl⟩
    · simp only [Bool.false_eq_true, if_false, if_neg hlink]
      refine ⟨fun hor => ?_, fun _ _ => ⟨rfl, rfl⟩, ?_, rfl⟩
      · rcases hor with hor | hor
        · cases hor
        · exact absurd hor hlink
      · simp only [hlink, and_false, if_false]
        exact (BitVec.or_zero).symm

end Sys2Proof.Machine
end

section
/-! The status page in board memory and BLOCK_CHECK (sections 10.2 and 10.3). -/

namespace Sys2Proof.Machine

/-! ## The fields of the page within its words -/

/-- A field stands in a word at a byte: each of the field's bytes is the word's. -/
def fieldInWord (w : Word) (k : Nat) (bytes value : Nat) : Prop :=
  k + bytes ≤ 4 ∧ ∀ i < bytes, w.toNat / 256 ^ (k + i) % 256 = value / 256 ^ i % 256

/-- A word that is one field. -/
theorem fieldInWord_whole {w : Word} {value : Nat} (h : w.toNat = value) : fieldInWord w 0 4 value :=
  ⟨Nat.le_refl _, fun i _ => by rw [h, Nat.zero_add]⟩

/-- Two halves of a word. -/
theorem fieldInWord_halves {a b : Nat} (ha : a < 65536) (hb : b < 65536) :
    fieldInWord (natWord (a + 65536 * b)) 0 2 a ∧ fieldInWord (natWord (a + 65536 * b)) 2 2 b := by
  have hw : (natWord (a + 65536 * b)).toNat = a + 65536 * b := toNat_natWord (by omega)
  refine ⟨⟨by decide, fun i hi => ?_⟩, ⟨by decide, fun i hi => ?_⟩⟩ <;> rw [hw] <;> interval_cases i <;> omega

/-- Four bytes of a word. -/
theorem fieldInWord_bytes {a b c e : Nat} (ha : a < 256) (hb : b < 256) (hc : c < 256) (he : e < 256) {w : Word}
    (hw : w = natWord (a + 256 * b + 65536 * c + 16777216 * e)) :
    fieldInWord w 0 1 a ∧ fieldInWord w 1 1 b ∧ fieldInWord w 2 1 c ∧ fieldInWord w 3 1 e := by
  have hn : w.toNat = a + 256 * b + 65536 * c + 16777216 * e := by rw [hw]; exact toNat_natWord (by omega)
  refine ⟨⟨by decide, fun i hi => ?_⟩, ⟨by decide, fun i hi => ?_⟩, ⟨by decide, fun i hi => ?_⟩, ⟨by decide, fun i hi => ?_⟩⟩ <;>
    rw [hn] <;> interval_cases i <;> omega

/-- Two bytes and a half of a word. -/
theorem fieldInWord_bytesHalf {a b c : Nat} (ha : a < 256) (hb : b < 256) (hc : c < 65536) {w : Word}
    (hw : w = natWord (a + 256 * b + 65536 * c)) :
    fieldInWord w 0 1 a ∧ fieldInWord w 1 1 b ∧ fieldInWord w 2 2 c := by
  have hn : w.toNat = a + 256 * b + 65536 * c := by rw [hw]; exact toNat_natWord (by omega)
  refine ⟨⟨by decide, fun i hi => ?_⟩, ⟨by decide, fun i hi => ?_⟩, ⟨by decide, fun i hi => ?_⟩⟩ <;>
    rw [hn] <;> interval_cases i <;> omega

theorem House.pageByte_lt (h : House) : h.pageByte < 256 := by
  unfold House.pageByte
  split_ifs <;> omega

theorem WalkEnd.code_lt (e : WalkEnd) : e.code < 256 := by
  cases e <;> decide

theorem nodesWhere_inService (nodes : Table Node) :
    nodes.filter (fun p => p.2.state.inService)
      = nodes.filter (fun p => decide (p.2.state = .online ∨ p.2.state = .suspect ∨ p.2.state = .degraded)) := by
  refine List.filter_congr (fun p _ => ?_)
  cases p.2.state <;> rfl

theorem nodesWhere_isOut (nodes : Table Node) :
    nodes.filter (fun p => p.2.state.isOut)
      = nodes.filter (fun p => decide (p.2.state = .faulted ∨ p.2.state = .retryWait)) := by
  refine List.filter_congr (fun p _ => ?_)
  cases p.2.state <;> rfl

/-- Every field of the page stands in the word of its offset, at its byte (R194). -/
theorem Device.pageField_inWord {d : Device} (hv : ∀ f ∈ d.pageFields, f.2.2 < 256 ^ f.2.1) :
    ∀ f ∈ d.pageFields, f.1 < 36 ∧ fieldInWord (d.pageWord (f.1 - f.1 % 4)) (f.1 % 4) f.2.1 f.2.2 := by
  have hend := d.walker.lastEnd.code_lt
  have hvalid : (if d.clock.valid = true then 1 else 0) < 256 := by split_ifs <;> decide
  have hzero : 0 < 256 := by decide
  unfold Device.pageFields at hv ⊢
  simp only [List.forall_mem_cons, List.not_mem_nil, false_implies, implies_true, and_true, ← nodesWhere_inService,
    ← nodesWhere_isOut] at hv ⊢
  obtain ⟨hmark, -, -, hsec, -, -, -, hcards, hdeny, hon, hout, hqueue, hres, hsup, -, -⟩ := hv
  obtain ⟨f12, f13, f14, f15⟩ := fieldInWord_bytes hsec hvalid d.fire.pageByte_lt d.storm.pageByte_lt (w := d.pageWord 12) rfl
  obtain ⟨f16, f18⟩ := fieldInWord_halves hcards hdeny
  obtain ⟨f20, f22⟩ := fieldInWord_halves hon hout
  obtain ⟨f24, f25, f26⟩ := fieldInWord_bytesHalf hqueue hres hsup (w := d.pageWord 24) rfl
  obtain ⟨f32, -⟩ := fieldInWord_bytes hend hzero hzero hzero (w := d.pageWord 32) rfl
  exact ⟨⟨by decide, fieldInWord_whole (toNat_natWord hmark)⟩, ⟨by decide, fieldInWord_whole rfl⟩, ⟨by decide, fieldInWord_whole rfl⟩,
    ⟨by decide, f12⟩, ⟨by decide, f13⟩, ⟨by decide, f14⟩, ⟨by decide, f15⟩, ⟨by decide, f16⟩, ⟨by decide, f18⟩, ⟨by decide, f20⟩,
    ⟨by decide, f22⟩, ⟨by decide, f24⟩, ⟨by decide, f25⟩, ⟨by decide, f26⟩, ⟨by decide, fieldInWord_whole rfl⟩, ⟨by decide, f32⟩⟩

/-- A field of a word that board memory holds, byte by byte. -/
theorem Memory.read_fieldInWord {mem : Table Byte} {a k bytes value : Nat} {w : Word} (hw : Memory.holdsWord mem a w)
    (hf : fieldInWord w k bytes value) : ∀ i < bytes, Memory.read mem (a + k + i) = some (BitVec.ofNat 8 (value / 256 ^ i)) := by
  intro i hi
  obtain ⟨hfit, hbyte⟩ := hf
  rw [Nat.add_assoc, Memory.read_of_holdsWord hw (k + i) (by omega)]
  refine congrArg some (BitVec.eq_of_toNat_eq ?_)
  rw [BitVec.toNat_ofNat, BitVec.toNat_ofNat]
  exact hbyte i hi

/-- A word of the page behind the fields is 0. -/
theorem Device.pageWord_unnamed (d : Device) {o : Nat} (h : 33 ≤ o) : d.pageWord o = 0 := by
  unfold Device.pageWord
  split <;> first | omega | rfl

/-! ## The page that a publication leaves -/

section
variable {d : Device} (mem : Table Byte) (ha : d.regs.commonBase.toNat + 256 ≤ 4294967296) (hs : d.regs.commonSize ≠ 0)
  (hv : ∀ f ∈ d.pageFields, f.2.2 < 256 ^ f.2.1)
include ha hs

include hv in
/-- Every field that a publication writes stands at its offset (R192, R194). -/
theorem Device.pageFields_published :
    Memory.holdsFields (Memory.accept mem d.pageWrites) d.regs.commonBase.toNat (d.pageFields.filter (fun f =>
      d.journal.region.isSome || decide (7 < f.1 ∧ f.1 < 24 ∨ 27 < f.1))) := by
  intro f hf
  obtain ⟨hmem, hnamed⟩ := List.mem_filter.1 hf
  simp only [Bool.or_eq_true, decide_eq_true_eq] at hnamed
  obtain ⟨hlt, hword⟩ := Device.pageField_inWord hv f hmem
  have hoff : f.1 - f.1 % 4 ∈ d.pageOffsets := (d.mem_pageOffsets _).2 ⟨by omega, hnamed.imp_right fun h => by omega⟩
  have hread := Memory.read_fieldInWord ((d.accept_pageWrites mem ha hs).1 _ hoff) hword
  rwa [Nat.add_assoc, Nat.sub_add_cancel (Nat.mod_le _ _)] at hread

/-- Every byte behind the fields reads 0 (R194). -/
theorem Device.page_unnamed (i : Nat) (h33 : 33 ≤ i) (h256 : i < 256) :
    Memory.read (Memory.accept mem d.pageWrites) (d.regs.commonBase.toNat + i) = some 0 := by
  have hoff : i - i % 4 ∈ d.pageOffsets := (d.mem_pageOffsets _).2 ⟨by omega, by omega⟩
  have hread := Memory.read_of_holdsWord ((d.accept_pageWrites mem ha hs).1 _ hoff) (i % 4) (Nat.mod_lt _ (by decide))
  rw [Nat.add_assoc, Nat.sub_add_cancel (Nat.mod_le _ _)] at hread
  refine hread.trans (congrArg some ?_)
  by_cases h36 : 36 ≤ i
  · rw [d.pageWord_unnamed (by omega)]
    exact BitVec.eq_of_toNat_eq (by simp)
  · have h32 : i - i % 4 = 32 := by omega
    have hcode := d.walker.lastEnd.code_lt
    refine BitVec.eq_of_toNat_eq ?_
    rw [h32, show d.pageWord 32 = natWord d.walker.lastEnd.code from rfl, toNat_natWord (by omega), BitVec.toNat_ofNat]
    have hk : i % 4 = 1 ∨ i % 4 = 2 ∨ i % 4 = 3 := by omega
    rcases hk with hk | hk | hk <;> rw [hk] <;> simp <;> omega

/-- With no region in force the Journal Writer's words are as memory held them (R192). -/
theorem Device.page_noRegion (hr : d.journal.region = none) (i : Nat) (hi : i < 8 ∨ (24 ≤ i ∧ i < 28)) :
    Memory.read (Memory.accept mem d.pageWrites) (d.regs.commonBase.toNat + i) = Memory.read mem (d.regs.commonBase.toNat + i) := by
  refine (d.accept_pageWrites mem ha hs).2 _ (fun o ho => ?_)
  obtain ⟨⟨ho4, -⟩, hor⟩ := (d.mem_pageOffsets o).1 ho
  rw [hr] at hor
  simp only [Option.isSome_none, Bool.false_eq_true, false_or] at hor
  omega

/-- A publication touches the page alone. -/
theorem Device.page_outside (a : Nat) (h : a < d.regs.commonBase.toNat ∨ d.regs.commonBase.toNat + 256 ≤ a) :
    Memory.read (Memory.accept mem d.pageWrites) a = Memory.read mem a := by
  refine (d.accept_pageWrites mem ha hs).2 _ (fun o ho => ?_)
  obtain ⟨⟨ho4, ho256⟩, -⟩ := (d.mem_pageOffsets o).1 ho
  omega

include hv in
/-- W and the next sequence number as the Journal Writer publishes them (R119). -/
theorem Device.marks_published :
    Memory.holdsFields (Memory.accept mem d.markWrites) d.regs.commonBase.toNat
      [(0, 4, d.journal.writeMark), (4, 4, d.journal.nextSeq.toNat)] := by
  have hfields := Device.pageField_inWord hv
  have hwrites := (d.accept_markWrites mem ha hs).1
  unfold Device.pageFields at hfields
  simp only [List.forall_mem_cons] at hfields
  obtain ⟨⟨-, hmark⟩, ⟨-, hseq⟩, -⟩ := hfields
  intro f hf
  rcases List.mem_pair.1 hf with rfl | rfl
  · exact Memory.read_fieldInWord (hwrites 0 (.inl rfl)) hmark
  · exact Memory.read_fieldInWord (a := d.regs.commonBase.toNat + 4) (k := 0) (hwrites 4 (.inr rfl)) hseq

end

/-! ## The check of a block -/

/-- The first failed check ends the walk with its cause; a block that passes is taken (R181). -/
theorem State.checkBlock_checking {s : State} {block : Word} {abort : Bool} (hw : s.dev.walker.walk = .walking block abort .checking)
    (h : Header) (kindParam : Word) :
    s.checkBlock h kindParam
      = match blockFailure s.dev.regs.commonBase.toNat s.dev.regs.commonSize.toNat block.toNat h.stamp.toNat h.size.toNat with
        | some cause => s.chainFault block cause
        | none => s.onDevice (fun d => d.takeBlock block abort h kindParam) := by
  have hplace := s.dev.regs.placeOk_iff block
  have hsize := s.dev.regs.sizeOk_iff block h.size
  have hstamp : h.stamp.toNat ≠ 0 ↔ h.stamp ≠ 0 := not_congr (BitVec.toNat_inj (y := 0#32))
  unfold State.checkBlock blockFailure
  rw [hw]
  dsimp only
  by_cases hp : s.dev.regs.placeOk block = true
  · rw [if_neg (by simpa using hp), if_neg (hplace.1 hp)]
    by_cases hz : s.dev.regs.sizeOk block h.size = true
    · rw [if_neg (by simpa using hz), if_neg ((hsize hp).1 hz)]
      by_cases ht : h.stamp = 0
      · rw [if_neg (not_not.2 ht), if_neg (by rw [hstamp]; exact not_not.2 ht)]
      · rw [if_pos ht, if_pos (hstamp.2 ht)]
    · rw [if_pos (by simpa using hz), if_pos (by by_contra hn; exact hz ((hsize hp).2 hn))]
  · rw [if_pos (by simpa using hp), if_pos (by by_contra hn; exact hp (hplace.2 hn))]

/-- A walk ended with CHAIN_FAULT. -/
theorem State.chainFault_eq (s : State) (block : Word) (cause : WalkEnd) :
    s.chainFault block cause = { s with
      mem := Memory.accept s.mem s.dev.walker.page
      dev := { s.dev with
        regs := { s.dev.regs with status := s.dev.regs.status ||| 4 }
        walker := { s.dev.walker with
          walk := .idle, lastBlock := block, lastEnd := cause, page := ((s.dev.latch .chainFault).endWalk block cause).pageWrites } } } :=
  rfl

/-- A block that passes its checks is given one phase, and nothing else changes (R182). -/
theorem Device.takeBlock_eq (d : Device) (block : Word) (abort : Bool) (h : Header) (kindParam : Word) :
    ∃ phase, d.takeBlock block abort h kindParam = d.setPhase block abort phase
      ∧ ((∃ code, d.settleKind h kindParam = .inl code ∧ phase = .writing { cancels := [], own := doneWrites block code false })
        ∨ ∃ k, d.settleKind h kindParam = .inr k ∧ phase = .handed k h.tag) := by
  unfold Device.takeBlock
  cases hk : d.settleKind h kindParam with
  | inl code => exact ⟨_, rfl, .inl ⟨code, rfl, rfl⟩⟩
  | inr k => exact ⟨_, rfl, .inr ⟨k, rfl, rfl⟩⟩

/-- The walker answers an order of no kind with BAD_KIND, a known one before the first SETUP with NOT_SET_UP, one too short for its
parameters with BAD_PARAM, and hands on every other (R182). -/
theorem Device.settleKind_eq (d : Device) (h : Header) (kindParam : Word) :
    d.settleKind h kindParam = match OrderKind.ofCode h.kind.toNat with
      | none => .inl .badKind
      | some k =>
        if d.walker.established = false ∧ k ≠ .setup ∧ k ≠ .setClock then .inl .notSetUp
        else if h.size.toNat < k.smallest kindParam then .inl .badParam else .inr k := by
  unfold Device.settleKind
  cases OrderKind.ofCode h.kind.toNat with
  | none => rfl
  | some k => simp [and_assoc]

/-- Settles O7, by the lemmas on a published page and `State.checkBlock_checking`. -/
theorem blockCheckFollowsItsTable : Obligations.BlockCheckFollowsItsTable := by
  refine ⟨?_, ?_⟩
  · rintro d mem page marks base rfl hbase rfl rfl hv
    refine ⟨fun h0 => ?_, fun hs => ?_⟩
    · simp [Device.pageWrites, Device.markWrites, h0, Memory.accept_nil]
    · exact ⟨Device.pageFields_published mem hbase hs hv, Device.page_unnamed mem hbase hs, Device.page_noRegion mem hbase hs,
        Device.page_outside mem hbase hs, Device.marks_published mem hbase hs hv, (d.accept_markWrites mem hbase hs).2⟩
  · intro s block abort h kindParam hs hw
    have hcheck := State.checkBlock_checking hw h kindParam
    refine ⟨fun cause hc => ?_, fun hc => ?_⟩
    · rw [hc] at hcheck
      replace hcheck : s.checkBlock h kindParam = s.chainFault block cause := hcheck
      refine ⟨s.chainFault block cause, ?_, rfl, rfl, rfl, rfl, rfl, rfl, rfl⟩
      rw [exec_blockCheck, commit_of_journal_eq s _ (by rw [hcheck]; exact hs) (by rw [hcheck]; rfl), hcheck]
    · rw [hc] at hcheck
      obtain ⟨phase, htake, hphase⟩ := s.dev.takeBlock_eq block abort h kindParam
      have hnext : s.checkBlock h kindParam = s.onDevice (fun d => d.setPhase block abort phase) := by
        rw [hcheck]
        exact congrArg (fun d => ({ s with dev := d } : State)) htake
      refine ⟨phase, ?_, ?_⟩
      · rw [exec_blockCheck, commit_of_journal_eq s _ (by rw [hnext]; exact hs) (by rw [hnext]; rfl), hnext]
        rfl
      · rw [s.dev.settleKind_eq] at hphase
        refine ⟨fun hk => ?_, fun kind hk => ⟨fun hn => ?_, fun hn => ⟨fun hlt => ?_, fun hge => ?_⟩⟩⟩ <;> rw [hk] at hphase
        · simpa using hphase
        · simpa [hn] using hphase
        · simpa [hn, hlt] using hphase
        · simpa [hn, Nat.not_lt.2 hge] using hphase

end Sys2Proof.Machine
end

section
/-! Errors on the manager port (section 10.4). -/

namespace Sys2Proof.Machine

/-- A command that leaves no report and brings no load to the journal answers its own effect. -/
theorem commit_of_load_le (s : State) (f : State → State) (h : (f s).dev.reports = []) (hl : (f s).dev.journal.load ≤ s.dev.journal.load) :
    commit s f = .next (f s) := by
  rw [commit_of_settled s f h, stallStatus_of_load_le _ hl]

/-! ## Errors on an access of the walk -/

/-- A walk that an error has ended at a block, a part of its block's writes made and STATUS bits latched (R186). -/
def State.walkFailed (s : State) (block : Word) (written : List PortWrite) (status : Word) (cause : WalkEnd) : State :=
  State.endWalk { s with
    mem := Memory.accept s.mem written
    dev := { s.dev with regs := { s.dev.regs with status := s.dev.regs.status ||| status } } } block cause

/-- Bits latched in turn are latched together. -/
theorem Word.or_bits {x a b c : Word} (h : a ||| b = c) : x ||| a ||| b = x ||| c := by
  rw [BitVec.or_assoc, h]

theorem State.failRead_eq {s : State} {block : Word} {abort : Bool} {phase : WalkPhase}
    (hw : s.dev.walker.walk = .walking block abort phase)
    (h : (phase = .checking ∧ s.dev.regs.placeOk block = true) ∨ ∃ kind tag, phase = .handed kind tag) :
    s.failRead = s.walkFailed block [] 20 .readError := by
  have hfault : s.memoryFault.chainFault block .readError = s.walkFailed block [] 20 .readError := by
    rw [State.chainFault_eq, State.walkFailed, State.endWalk_eq, ← Word.or_bits (show (16 : Word) ||| 4 = 20 by decide)]
    rfl
  unfold State.failRead
  rw [hw]
  rcases h with ⟨rfl, hp⟩ | ⟨kind, tag, rfl⟩
  · exact (if_pos hp).trans hfault
  · exact hfault

theorem State.failLink_eq {s : State} {block : Word} {w : BlockWrites} (hw : s.dev.walker.walk = .walking block false (.writing w)) :
    s.failLink = s.walkFailed block (w.cancels.flatten ++ w.own) (if w.cancels = [] then 20 else 22) .readError := by
  have hbits : (16 : Word) ||| 4 = 20 := by decide
  have hlast : (if w.cancels = [] then (0 : Word) else 2) ||| 20 = if w.cancels = [] then 20 else 22 := by
    split_ifs <;> decide
  unfold State.failLink
  rw [State.stampBlock_eq_stamped hw, State.walkFailed, State.endWalk_eq, ← Word.or_bits hlast, ← Word.or_bits hbits]
  rfl

/-- Every cancellation settlement was accepted where the failed write lies behind them. -/
theorem failCancel_none {n : Nat} {groups : List (List PortWrite)} (h : groups.flatten.length ≤ n) : failCancel n groups = none := by
  induction groups generalizing n with
  | nil => rfl
  | cons g rest ih =>
    rw [List.flatten_cons, List.length_append] at h
    unfold failCancel
    rw [if_neg (by omega), ih (by omega)]

/-- The failed write lies in one settlement: those before it were accepted whole. -/
theorem failCancel_within {n : Nat} (done left : List (List PortWrite)) (failed : List PortWrite) (h : n < failed.length) :
    failCancel (done.flatten.length + n) (done ++ failed :: left) = some (done.flatten ++ failed.take n, done.length, left) := by
  induction done with
  | nil => simp [failCancel, h]
  | cons g rest ih =>
    rw [List.flatten_cons, List.length_append, List.cons_append]
    unfold failCancel
    rw [if_neg (by omega), show g.length + rest.flatten.length + n - g.length = rest.flatten.length + n by omega, ih]
    simp

theorem State.failBlock_own {s : State} {block : Word} {abort : Bool} {w : BlockWrites} {n : Nat}
    (hw : s.dev.walker.walk = .walking block abort (.writing w)) (hbehind : w.cancels.flatten.length ≤ n)
    (hn : n < (w.cancels.flatten ++ w.own).length) :
    s.failBlock n
      = s.walkFailed block ((w.cancels.flatten ++ w.own).take n) (if w.cancels = [] then 16 else 18) .writeError := by
  have hlast : (if w.cancels = [] then (0 : Word) else 2) ||| 16 = if w.cancels = [] then 16 else 18 := by
    split_ifs <;> decide
  unfold State.failBlock
  rw [hw]
  dsimp only
  rw [failCancel_none hbehind]
  dsimp only
  rw [if_pos hn, Device.settledIf_eq, State.walkFailed, State.endWalk_eq, ← Word.or_bits hlast]
  rfl

theorem State.failBlock_cancel {s : State} {block : Word} {abort : Bool} {own : List PortWrite} {done left : List (List PortWrite)}
    {failed : List PortWrite} {n : Nat}
    (hw : s.dev.walker.walk = .walking block abort (.writing { cancels := done ++ failed :: left, own := own })) (hn : n < failed.length) :
    s.failBlock (done.flatten.length + n) = { s with
      mem := Memory.accept s.mem (done.flatten ++ failed.take n)
      dev := { s.dev with
        regs := { s.dev.regs with status := s.dev.regs.status ||| (if done = [] then 16 else 18) }
        walker := { s.dev.walker with walk := .walking block abort (.writing { cancels := left, own := own }) } } } := by
  have hlast : (if done = [] then (0 : Word) else 2) ||| 16 = if done = [] then 16 else 18 := by
    split_ifs <;> decide
  have hany : decide (0 < done.length) = decide (done ≠ []) := decide_eq_decide.2 List.length_pos_iff
  unfold State.failBlock
  rw [hw]
  dsimp only
  rw [failCancel_within _ _ _ hn]
  dsimp only
  rw [hany, Device.settledIf_eq, ← Word.or_bits hlast]
  rfl

/-! ## The obligation -/

/-- Settles O11, by the lemmas above for the accesses of the walk and by the definitions for the others. -/
theorem memoryErrorsLeaveTheRestUnmade : Obligations.MemoryErrorsLeaveTheRestUnmade := by
  refine ⟨?_, ?_, ?_⟩
  · intro s block abort phase accepted hs hw access status written cause hcase
    have heq : s.portError access accepted = s.walkFailed block written status cause := by
      rcases hcase with ⟨rfl, hphase, rfl, rfl, rfl⟩ | ⟨rfl, rfl, ⟨w, rfl, rfl, rfl⟩, rfl⟩ | ⟨rfl, ⟨w, rfl, hb, hn, rfl, rfl⟩, rfl⟩
      · refine State.failRead_eq hw (hphase.imp_left ?_)
        rintro ⟨hchecking, h16, hlow, hhigh⟩
        exact ⟨hchecking, (Registers.placeOk_iff _ _).2 (by omega)⟩
      · exact State.failLink_eq hw
      · exact State.failBlock_own hw hb hn
    refine ⟨s.walkFailed block written status cause, ?_, rfl, rfl, rfl, rfl, rfl, rfl, rfl⟩
    rw [exec_memoryError, commit_of_journal_eq s _ (by rw [heq]; exact hs) (by rw [heq]; rfl), heq]
  · intro s block abort own done left failed n hs hw hn
    have heq := State.failBlock_cancel hw hn
    have hport : s.portError .blockWrite (done.flatten.length + n) = _ := heq
    rw [exec_memoryError, commit_of_journal_eq s _ (by rw [hport]; exact hs) (by rw [hport]), hport]
  · intro s accepted hs
    refine ⟨fun x rest hx hn hfree => ?_, fun hn => ?_, fun hn => ?_, fun hr => ?_⟩
    · have hport : s.portError .settlement accepted = State.memoryFault { s with
          mem := Memory.accept s.mem (x.writes.take accepted)
          dev := { s.dev with walker := { s.dev.walker with settlements := rest } } } := by
        show s.failSettlement accepted = _
        unfold State.failSettlement State.stampBefore
        rw [hx]
        dsimp only
        rw [if_pos hn, if_neg (by simp [hfree])]
      rw [exec_memoryError, commit_of_journal_eq s _ (by rw [hport]; exact hs) (by rw [hport]; rfl), hport]
      rfl
    · have hport : s.portError .publication accepted = _ := if_pos hn
      rw [exec_memoryError, commit_of_journal_eq s _ (by rw [hport]; exact hs) (by rw [hport]; rfl), hport]
      rfl
    · have hport : s.portError .placement accepted = _ := if_pos hn
      rw [exec_memoryError, commit_of_load_le s _ (by rw [hport]; exact hs) (by rw [hport]; exact Nat.le_refl _), hport]
      rfl
    · have hport : s.portError .markRead accepted = _ := if_pos hr
      rw [exec_memoryError, commit_of_load_le s _ (by rw [hport]; exact hs) (by rw [hport]; exact Nat.le_refl _), hport]
      rfl

end Sys2Proof.Machine
end

section
/-! The journal: the shape of records and placements, the drain, the read mark and admission (sections 7.2 to 7.5). -/

namespace Sys2Proof.Machine

/-! ## The shape of records -/

theorem wordBytes_length (w : Word) : (wordBytes w).length = 4 := rfl

theorem halfBytes_length (n : Nat) : (halfBytes n).length = 2 := rfl

theorem nodeBytes_length (key : Nat) : (nodeBytes key).length = 2 := rfl

theorem ChargeLine.bytes_length (l : ChargeLine) : l.bytes.length = 5 := rfl

theorem padWords_length (bytes : List Byte) : (padWords bytes).length = (bytes.length + 3) / 4 * 4 := by
  unfold padWords
  rw [List.length_append, List.length_replicate]
  omega

theorem chargeLines_length (lines : List ChargeLine) : (lines.flatMap ChargeLine.bytes).length = 5 * lines.length := by
  induction lines with
  | nil => rfl
  | cons l rest ih =>
    rw [List.flatMap_cons, List.length_append, ih, ChargeLine.bytes_length, List.length_cons]
    omega

theorem headerBytes_length (kind : Nat) (flags : Byte) (length : Nat) (seq minute : Word) (second : Nat) (valid : Bool) :
    (headerBytes kind flags length seq minute second valid).length = 16 := rfl

/-- A record's body is as long as its kind says, behind the header of 16 bytes (R118, R199). -/
theorem RecordBody.bytes_length (b : RecordBody) : 16 + b.bytes.length = b.length := by
  cases b
  case charge room n kind lines amount posted excess =>
    simp only [RecordBody.bytes, RecordBody.length, List.length_append, padWords_length, chargeLines_length, wordBytes_length,
      halfBytes_length, nodeBytes_length, List.length_cons, List.length_nil]
    omega
  case lateCharge room n lines amount =>
    simp only [RecordBody.bytes, RecordBody.length, List.length_append, padWords_length, chargeLines_length, wordBytes_length,
      halfBytes_length, nodeBytes_length, List.length_cons, List.length_nil]
    omega
  all_goals rfl

theorem RecordBody.length_words (b : RecordBody) : b.length % 4 = 0 := by
  cases b
  case charge => exact Nat.mul_mod_left _ _
  case lateCharge => exact Nat.mul_mod_left _ _
  all_goals simp [RecordBody.length]

theorem HeldRecord.bytes_length (r : HeldRecord) (seq : Word) : (r.bytes seq).length = r.body.length := by
  rw [← r.body.bytes_length]
  exact List.length_append

/-! ## Where a placement ends -/

/-- A record that ends at the region's end or inside it, counted from a mark once round or not at all. -/
theorem mod_region {x e size : Nat} (h : x = e ∨ x = size + e) (he : e ≤ size) :
    (if e = size then 0 else e) = x % size := by
  have hx : x % size = e % size := by
    rcases h with rfl | rfl
    · rfl
    · exact Nat.add_mod_left _ _
  rw [hx]
  split_ifs with hs
  · rw [hs, Nat.mod_self]
  · exact (Nat.mod_eq_of_lt (by omega)).symm

/-- A placement's record ends inside the region, a need past the write mark, once round or not at all (R119). -/
theorem placementPlan_ends {size mark length : Nat} (gap : Bool) (hm : mark < size) (hl : length ≤ 96) (hs : 4096 ≤ size) :
    (placementPlan size mark gap length).at_ + length ≤ size ∧
    (mark + (placementPlan size mark gap length).need = (placementPlan size mark gap length).at_ + length ∨
      mark + (placementPlan size mark gap length).need = size + ((placementPlan size mark gap length).at_ + length)) := by
  cases gap with
  | false =>
    simp only [placementPlan, Bool.false_and, Bool.false_eq_true, if_false, Bool.and_eq_true, Bool.or_eq_true, decide_eq_true_eq]
    split_ifs <;> omega
  | true =>
    simp only [placementPlan, Bool.true_and, if_true, Bool.and_eq_true, Bool.or_eq_true, decide_eq_true_eq]
    split_ifs <;> omega

/-- A PAD reaches to the end of the region and is shorter than what would not fit (R119). -/
theorem placementPlan_pads {size mark length : Nat} {gap : Bool} (hm : mark < size) (hl : length ≤ 96) (hs : 4096 ≤ size)
    (hs4 : size % 4 = 0) (hm4 : mark % 4 = 0) (hl4 : length % 4 = 0) (o n : Nat)
    (h : (placementPlan size mark gap length).pad1 = some (o, n) ∨ (placementPlan size mark gap length).pad2 = some (o, n)) :
    0 < n ∧ n ≤ 92 ∧ o + n = size := by
  have hcase : (20 > size - mark ∧ o = mark ∧ n = size - mark)
      ∨ (∃ pos, pos ≤ size ∧ pos % 4 = 0 ∧ size - pos ≠ 0 ∧ size - pos < length ∧ o = pos ∧ n = size - pos) := by
    rcases h with h | h
    · simp only [placementPlan, Bool.and_eq_true, decide_eq_true_eq] at h
      split_ifs at h with hc
      cases h
      exact .inl ⟨hc.2, rfl, rfl⟩
    · simp only [placementPlan, Bool.and_eq_true, decide_eq_true_eq] at h
      split_ifs at h with hc hg <;> cases h
      all_goals exact .inr ⟨_, by omega, by omega, by omega, by omega, rfl, rfl⟩
  rcases hcase with ⟨_, rfl, rfl⟩ | ⟨pos, _, _, _, _, rfl, rfl⟩ <;> omega

/-- Settles O12. -/
theorem recordsAndPlacementsHaveTheirShape : Obligations.RecordsAndPlacementsHaveTheirShape := by
  refine ⟨fun size mark length gap hm h16 h96 hs hs4 hm4 hl4 => ?_, fun r seq => ?_⟩
  · obtain ⟨hin, hround⟩ := placementPlan_ends gap hm h96 hs
    have hafter : (placementPlan size mark gap length).after
        = if (placementPlan size mark gap length).at_ + length = size then 0 else (placementPlan size mark gap length).at_ + length := rfl
    refine ⟨hin, ?_, ?_, placementPlan_pads hm h96 hs hs4 hm4 hl4⟩
    · rw [hafter]
      split_ifs <;> omega
    · rw [hafter, mod_region hround hin]
  · exact ⟨r.bytes_length seq, r.body.length_words, rfl, rfl, rfl, rfl⟩

/-! ## Completion of a placement -/

/-- The journal once the head of its queue has been placed, before the drain goes on (R119). -/
def Journal.placed (j : Journal) (r : Region) (h : HeldRecord) (rest : List HeldRecord) : Journal :=
  { j with
    writeMark := (placementPlan r.size j.writeMark (decide (h.gap ≠ 0)) h.body.length).after
    queue := rest
    nextSeq := j.nextSeq + (if h.gap = 0 then 1 else 2) }

theorem Journal.recordSeq_next (j : Journal) (h : HeldRecord) : j.recordSeq h + 1 = j.nextSeq + (if h.gap = 0 then 1 else 2) := by
  unfold Journal.recordSeq
  by_cases hg : h.gap = 0
  · simp [hg]
  · rw [if_pos hg, if_neg hg, BitVec.add_assoc]
    rfl

theorem Journal.complete_placed {j : Journal} {r : Region} {h : HeldRecord} {rest : List HeldRecord} (hr : j.region = some r)
    (hq : j.queue = h :: rest) : j.complete = (j.placed r h rest).attempt := by
  unfold Journal.complete
  rw [hr, hq]
  dsimp only
  rw [j.recordSeq_next]
  unfold Journal.placed Journal.headPlan
  rw [hr]

/-- An attempt changes the drain and the re-read alone. -/
theorem Journal.attempt_eq (j : Journal) : j.attempt = { j with drain := j.attempt.drain, reread := j.attempt.reread } := by
  unfold Journal.attempt
  (repeat' split) <;> rfl

/-- An attempt with a record at the head, by whether its need is at most free. -/
theorem Journal.tries_head {j : Journal} {r : Region} {h : HeldRecord} {rest : List HeldRecord} {drain : Drain} {reread : Option Reread}
    (hr : j.region = some r) (hq : j.queue = h :: rest) (ht : j.tries drain reread) :
    if (placementPlan r.size j.writeMark (decide (h.gap ≠ 0)) h.body.length).need ≤ j.freeIn r.size
    then drain = .placing ∧ reread = j.reread else drain = .waitingRoom ∧ reread = some .attempt := by
  obtain ⟨r', h', rest', hr', hq', hfits⟩ := ht
  cases hr'.symm.trans hr
  cases hq'.symm.trans hq
  rcases hfits with ⟨hle, hd, hw⟩ | ⟨hlt, hd, hw⟩
  · rw [if_pos hle]
    exact ⟨hd, hw⟩
  · rw [if_neg (Nat.not_le.2 hlt)]
    exact ⟨hd, hw⟩

/-- Settles O13: a completed placement is an attempt of the drain on `Journal.placed`. -/
theorem placementCompletes : Obligations.PlacementCompletes := by
  intro s r h rest hs hr hq hd
  have hcomplete := Journal.complete_placed hr hq
  have hattempt := (s.dev.journal.placed r h rest).attempt_eq
  have heq : s.completePlacement = State.publishMarks (State.onDevice { s with mem := Memory.accept s.mem s.dev.placementWrites }
      (fun d => { d with journal := (s.dev.journal.placed r h rest).attempt })) := by
    unfold State.completePlacement
    rw [if_pos (show s.dev.journal.isPlacing = true from decide_eq_true hd), ← hcomplete]
    rfl
  have hload : (s.completePlacement).dev.journal.load ≤ s.dev.journal.load := by
    rw [heq]
    show ((s.dev.journal.placed r h rest).attempt).load ≤ _
    simp only [Journal.load, Journal.attempt_frame, Journal.placed, hq, List.length_cons]
    omega
  refine ⟨_, commit_of_load_le s _ (by rw [heq]; exact hs) hload, ?_⟩
  rw [heq]
  refine ⟨rfl, ?_, ?_, ?_, fun hrest => ?_, fun next more hrest => ?_, rfl, ?_⟩
  · exact (Journal.attempt_frame _).2.2.1
  · exact (Journal.attempt_frame _).2.2.2.2.2.2.2.2
  · exact (Journal.attempt_frame _).2.2.2.2.2.1
  · subst hrest
    show ((s.dev.journal.placed r h []).attempt).drain = _ ∧ ((s.dev.journal.placed r h []).attempt).reread = _
    unfold Journal.attempt Journal.placed
    rw [hr]
    exact ⟨rfl, rfl⟩
  · subst hrest
    obtain ⟨drain, reread, hnew, htries⟩ := (s.dev.journal.placed r h (next :: more)).attempt_tries hr rfl
    have hhead := Journal.tries_head (j := s.dev.journal.placed r h (next :: more)) hr rfl htries
    simp only [State.publishMarks, State.onDevice, hnew]
    exact hhead
  · simp only [State.publishMarks, State.onDevice]
    rw [hattempt]
    rfl

/-! ## The read mark -/

/-- A re-read changes the read mark, the drain and the re-read alone. -/
theorem Journal.rereadDone_eq (j : Journal) (value : Nat) :
    j.rereadDone value = { j with
      readMark := (j.rereadDone value).readMark, drain := (j.rereadDone value).drain, reread := (j.rereadDone value).reread } := by
  obtain ⟨h1, h2, h3, h4, h5, h6, h7, h8⟩ := j.rereadDone_frame value
  generalize j.rereadDone value = k at h1 h2 h3 h4 h5 h6 h7 h8 ⊢
  cases k
  subst h1 h2 h3 h4 h5 h6 h7 h8
  rfl

theorem Journal.markOk_iff (j : Journal) (size value : Nat) :
    j.markOk size value = true ↔ value % 4 = 0 ∧ value < size ∧
      (value + size - j.readMark) % size ≤ (j.writeMark + size - j.readMark) % size := by
  unfold Journal.markOk
  rw [Bool.and_eq_true, Bool.and_eq_true, decide_eq_true_iff, decide_eq_true_iff, decide_eq_true_iff, and_assoc]
  rfl

/-- The mark is the value where it passes, whether or not it moves. -/
theorem ite_and_ne {b : Bool} {x y : Nat} : (if b && decide (x ≠ y) then x else y) = if b then x else y := by
  by_cases hxy : x = y <;> simp [hxy]

/-- The read mark after a re-read (R122). -/
theorem Journal.rereadDone_readMark {j : Journal} {r : Region} {why : Reread} (hr : j.region = some r) (hw : j.reread = some why)
    (value : Nat) : (j.rereadDone value).readMark = if j.markOk r.size value then value else j.readMark := by
  rw [← ite_and_ne]
  unfold Journal.rereadDone
  rw [hw]
  cases why with
  | second =>
    dsimp only
    unfold Journal.takeMark
    dsimp only
    rw [hr]
    dsimp only
    show (ite ((j.markOk r.size value && decide (value ≠ j.readMark)) = true) _ _ : Journal).readMark = _
    split_ifs <;> simp
  | attempt =>
    dsimp only
    rw [hr]
    dsimp only
    cases j.markOk r.size value && decide (value ≠ j.readMark) <;> simp
    split_ifs <;> simp

/-- A drain that does not wait stays as it is at a re-read (R126). -/
theorem Journal.rereadDone_unwaiting {j : Journal} {why : Reread} (hw : j.reread = some why) (h1 : j.drain ≠ .waitingRoom)
    (h2 : j.drain ≠ .waitingRetry) (value : Nat) :
    (j.rereadDone value).drain = j.drain ∧ (j.rereadDone value).reread = none := by
  have hagain : ∀ k : Journal, k.drain = j.drain → k.reread = none → k.compareAgain.drain = j.drain ∧ k.compareAgain.reread = none := by
    intro k hk hn
    unfold Journal.compareAgain
    split
    · next hroom => exact absurd (hk.symm.trans hroom) h1
    · exact ⟨hk, hn⟩
  have hwake : ∀ k : Journal, k.drain = j.drain → k.reread = none → k.wakeOnMark.drain = j.drain ∧ k.wakeOnMark.reread = none := by
    intro k hk hn
    unfold Journal.wakeOnMark
    split
    · next hroom => exact absurd (hk.symm.trans hroom) h1
    · next hretry => exact absurd (hk.symm.trans hretry) h2
    all_goals exact ⟨hk, hn⟩
  unfold Journal.rereadDone
  rw [hw]
  cases why with
  | second =>
    dsimp only
    unfold Journal.takeMark
    split
    · exact ⟨rfl, rfl⟩
    · split_ifs
      · exact hwake _ rfl rfl
      · exact ⟨rfl, rfl⟩
  | attempt =>
    dsimp only
    split
    · exact ⟨rfl, rfl⟩
    · rw [if_neg (by simp [h2])]
      exact hagain _ rfl rfl

/-- Settles O14, by the lemmas on `Journal.rereadDone`. -/
theorem readMarkIsTested : Obligations.ReadMarkIsTested := by
  intro s r value hs hr hw
  obtain ⟨why, hwhy⟩ := Option.isSome_iff_exists.1 hw
  have hnext : exec (.readMarkReread value) s = .next (s.onDevice (fun d => d.rereadMark value)) := by
    rw [exec_readMarkReread]
    refine commit_of_load_le s _ hs ?_
    obtain ⟨-, -, -, -, hqueue, hreserved, -, -⟩ := s.dev.journal.rereadDone_frame value.toNat
    show (s.dev.journal.rereadDone value.toNat).load ≤ _
    rw [Journal.load, hqueue, hreserved]
    exact Nat.le_refl _
  refine ⟨_, hnext, ?_, fun h1 h2 => Journal.rereadDone_unwaiting hwhy h1 h2 _, fun h rest hq => ?_, ?_⟩
  · refine (Journal.rereadDone_readMark hr hwhy value.toNat).trans ?_
    simp only [s.dev.journal.markOk_iff]
  · obtain ⟨hsecond, hattempt⟩ := s.dev.journal.rereadDone_waits value.toNat hr hq hwhy
    have hinj : ∀ {x}, s.dev.journal.reread = some x → why = x := fun hx => Option.some.inj (hwhy.symm.trans hx)
    exact ⟨fun hd => hsecond (hd.imp_right fun ⟨hroom, hse⟩ => ⟨hroom, hinj hse⟩), fun hd ha => hattempt hd (hinj ha)⟩
  · refine congrArg (fun j => ({ s with dev := { s.dev with journal := j } } : State)) ?_
    exact s.dev.journal.rereadDone_eq value.toNat

/-! ## Admission -/

/-- The record displaced is the oldest ROUTINE record that is not being placed, and the records around it keep their order (R130). -/
theorem takeRoutine_iff (placing : Bool) (queue rest : List HeldRecord) (old : HeldRecord) :
    takeRoutine placing queue = some (old, rest) ↔
      ∃ before after, queue = before ++ old :: after ∧ rest = before ++ after ∧ old.cls = .routine ∧
        (placing = true → before ≠ []) ∧
        ∀ i, ∀ hi : i < before.length, (before[i]'hi).cls = .routine → placing = true ∧ i = 0 := by
  induction queue generalizing placing rest with
  | nil => simp [takeRoutine]
  | cons head tail ih =>
    unfold takeRoutine
    by_cases hc : placing = false ∧ head.cls = .routine
    · -- the head is the one displaced
      rw [if_pos (by simp [hc])]
      obtain ⟨rfl, hcls⟩ := hc
      constructor
      · rintro ⟨⟩
        exact ⟨[], tail, rfl, rfl, hcls, (by simp), fun i hi => absurd hi (Nat.not_lt_zero i)⟩
      · rintro ⟨before, after, hq, rfl, -, -, hbefore⟩
        cases before with
        | nil => cases hq; rfl
        | cons b bs =>
          cases hq
          exact absurd (hbefore 0 (Nat.succ_pos _) hcls).1 Bool.false_ne_true
    · rw [if_neg (by simpa using hc)]
      constructor
      · intro h
        split at h
        · cases h
        · next r rest' htail =>
          cases h
          obtain ⟨before, after, rfl, rfl, hcls, -, hbefore⟩ := (ih false rest').1 htail
          refine ⟨head :: before, after, rfl, rfl, hcls, fun _ => List.cons_ne_nil _ _, fun i hi hi' => ?_⟩
          cases i with
          | zero =>
            refine ⟨?_, rfl⟩
            by_contra hp
            exact hc ⟨Bool.eq_false_iff.2 hp, hi'⟩
          | succ i => exact absurd (hbefore i (Nat.lt_of_succ_lt_succ hi) hi').1 Bool.false_ne_true
      · rintro ⟨before, after, hq, rfl, hcls, hplacing, hbefore⟩
        cases before with
        | nil =>
          cases hq
          by_cases hp : placing = true
          · exact absurd rfl (hplacing hp)
          · exact absurd ⟨Bool.eq_false_iff.2 hp, hcls⟩ hc
        | cons b bs =>
          cases hq
          have htail := (ih false (bs ++ after)).2 ⟨bs, after, rfl, rfl, hcls, (by simp), fun i hi hi' => by
            have := (hbefore (i + 1) (Nat.succ_lt_succ hi) hi').2
            omega⟩
          rw [htail]
          rfl

/-- Settles O15, by the cases of `Journal.admit_cases`, `mergeNewest_iff` and `takeRoutine_iff`. -/
theorem oldestRoutineIsDisplaced : Obligations.OldestRoutineIsDisplaced := by
  refine ⟨?_, takeRoutine_iff⟩
  rintro d body flags cls r placing hregion rfl hr
  have hrecord : d.record body flags cls = { d with journal := d.journal.admitRecord r } := by rw [hr]; rfl
  have hmerge := mergeNewest_iff d.journal r
  have hcls : r.cls = cls := by rw [hr]
  have hbody : r.body = body := by rw [hr]
  rw [hcls, hbody] at hmerge
  have henter : ∀ k : Journal, k.region = d.journal.region → k.drain = d.journal.drain → k.entered (k.enter r) r := by
    intro k hkr hkd
    exact k.enter_entered r (by rw [hkr, hkd]; exact hregion)
  rw [hrecord]
  refine ⟨fun merged hm => ?_, fun hno => ⟨_, rfl, ?_⟩⟩
  · rcases d.journal.admit_cases r with ⟨q, hq, h⟩ | ⟨hn, -⟩ | ⟨hn, -⟩ | ⟨_, _, hn, -⟩ | ⟨hn, -⟩
    · rw [h, Option.some.inj (((hmerge merged).2 hm).symm.trans hq)]
    all_goals exact absurd (((hmerge merged).2 hm).symm.trans hn) (by simp)
  · rcases d.journal.admit_cases r with
      ⟨q, hq, -⟩ | ⟨-, hres, hpos, h⟩ | ⟨-, hres, hload, h⟩ | ⟨old, rest, -, hres, hload, hnr, ht, h⟩ | ⟨-, hres, hload, hor, h⟩
    · exact absurd ((hmerge q).1 hq) (hno q)
    all_goals rw [hcls] at hres
    · rw [h]
      refine ⟨fun _ _ => henter _ rfl rfl, fun hc => absurd hres hc, fun hfull => ⟨fun hor => ?_, fun old rest hc => ?_⟩⟩
      · rcases hor with rfl | ⟨rfl, -⟩ <;> cases hres
      · cases hres.symm.trans hc
    · rw [h]
      refine ⟨fun hc hpos => absurd ⟨hc, hpos⟩ hres, fun _ _ => henter _ rfl rfl, fun hfull => absurd hload (Nat.not_lt.2 hfull)⟩
    · rw [h]
      refine ⟨fun hc hpos => absurd ⟨hc, hpos⟩ hres, fun _ hlt => absurd hlt (Nat.not_lt.2 hload), fun _ => ⟨fun hor => ?_, ?_⟩⟩
      · rcases hor with hor | ⟨-, hor⟩
        · exact absurd (hcls.trans hor) hnr
        · exact absurd (ht.symm.trans hor) (by simp)
      · intro old' rest' _ ht'
        cases ht.symm.trans ht'
        have hadd : raiseSuppressed d.journal.suppressed (1 + old.gap) = min 65535 (d.journal.suppressed + 1 + old.gap) := by
          rw [Nat.add_assoc]
          rfl
        rw [← hadd]
        exact henter _ rfl rfl
    · rw [h]
      refine ⟨fun hc hpos => absurd ⟨hc, hpos⟩ hres, fun _ hlt => absurd hlt (Nat.not_lt.2 hload), fun _ => ⟨fun _ => rfl, ?_⟩⟩
      intro old rest hc ht
      rcases hor with hor | hor
      · cases (hcls.symm.trans hor).symm.trans hc
      · exact absurd (hor.symm.trans ht) (by simp)

end Sys2Proof.Machine
end

section
/-! The second pulse and the minute tick (sections 9.1 and 10.2). -/

namespace Sys2Proof.Machine

/-- The delay that a door's alarm timer counts against: the held alarm's while that one stands, the forced alarm's otherwise. -/
theorem Door.alarmDelay_seconds (r : Door) :
    r.alarmDelay.seconds = match (if r.state = .held then r.settings.heldDelay else r.settings.forcedDelay) with
      | .short => 2
      | .long => 30 := by
  unfold Door.alarmDelay RetryDelay.seconds
  cases r.state <;> rfl

/-- The re-read of a second's pulse (R121). -/
theorem Journal.secondReread_eq (j : Journal) :
    j.secondReread = { j with
      reread := if j.region.isSome = true ∧ 0 < j.unread ∧ j.reread = none then some .second else j.reread } := by
  unfold Journal.secondReread
  have hiff : (j.region.isSome && decide (0 < j.unread) && j.reread.isNone) = true
      ↔ j.region.isSome = true ∧ 0 < j.unread ∧ j.reread = none := by
    simp [and_assoc]
  by_cases h : j.region.isSome = true ∧ 0 < j.unread ∧ j.reread = none
  · rw [if_pos (hiff.2 h), if_pos h]
  · rw [if_neg (fun hc => h (hiff.1 hc)), if_neg h]

/-- A pulse with no tick due: the timers count, the page is published, and the second count rises (R163). -/
theorem State.secondPulse_eq {s : State} (h : s.dev.clock.tickDue = false) :
    s.secondPulse = { s with
      mem := Memory.accept s.mem s.dev.walker.page
      dev := { s.dev.pulseTimers with
        walker := { s.dev.walker with page := s.dev.pulseTimers.pageWrites }
        clock := s.dev.clock.pulse } } := by
  unfold State.secondPulse State.onDevice Device.tickIfDue
  rw [h]
  rfl

/-- A node's timers at a pulse, in the words of the statement. -/
theorem Node.pulse_eq (n : Node) : n.pulse = { n with
    retryTimer := Timer.tick (match n.faultDelay with | .short => 2 | .long => 30) n.retryTimer
    door := n.door.map (fun r => { r with
      releaseTimer := Timer.tick r.settings.releaseTime r.releaseTimer
      heldTimer := Timer.tick r.settings.heldLimit r.heldTimer
      delayTimer := Timer.tick
        (match (if r.state = .held then r.settings.heldDelay else r.settings.forcedDelay) with | .short => 2 | .long => 30)
        r.delayTimer }) } := by
  unfold Node.pulse
  have hdoor : Door.pulse = fun r : Door => { r with
      releaseTimer := Timer.tick r.settings.releaseTime r.releaseTimer
      heldTimer := Timer.tick r.settings.heldLimit r.heldTimer
      delayTimer := Timer.tick
        (match (if r.state = .held then r.settings.heldDelay else r.settings.forcedDelay) with | .short => 2 | .long => 30)
        r.delayTimer } := by
    funext r
    unfold Door.pulse
    rw [Door.alarmDelay_seconds]
  rw [hdoor]
  rfl

/-- A minute tick with no hold at its end moves the clock alone (R163). -/
theorem Device.minuteTick_quiet {d : Device}
    (h : ∀ key n r, Table.find key d.nodes = some n → n.door = some r →
      (r.state = .holdOpen → ∀ e, r.holdEnd = some e → (d.clock.minute + 1).toNat < e.toNat) ∧
      (r.state = .emergency → ∀ e, r.savedEnd = some e → (d.clock.minute + 1).toNat < e.toNat)) :
    (∀ key, Table.find key d.minuteTick.nodes = Table.find key d.nodes) ∧
    d.minuteTick = { d with
      clock := { d.clock with minute := d.clock.minute + 1, second := 0, tickDue := false }, nodes := d.minuteTick.nodes } :=
  Device.everyDoor_same { d with clock := { d.clock with minute := d.clock.minute + 1, second := 0, tickDue := false } } _ _
    (fun key n r hn hr => Door.minute_before_end (h key n r hn hr).1 (h key n r hn hr).2)

/-- Settles O16, by `State.secondPulse_eq` and `Device.minuteTick_quiet`. -/
theorem pulseAndTickMoveTheClock : Obligations.PulseAndTickMoveTheClock := by
  refine ⟨fun s hs hdue => ?_, fun limit count => ⟨rfl, rfl, rfl⟩, fun s hs => ⟨fun hdue => ?_, fun hdue hends => ?_⟩⟩
  · have heq := State.secondPulse_eq hdue
    have hload : s.secondPulse.dev.journal.load = s.dev.journal.load := by
      rw [heq]
      show s.dev.journal.secondReread.load = _
      rw [s.dev.journal.secondReread_eq]
      rfl
    refine ⟨_, commit_of_load_le s _ (by rw [heq]; exact hs) (Nat.le_of_eq hload), ?_⟩
    rw [heq]
    refine ⟨rfl, fun key => ?_, fun room => ?_, fun key => ?_, ?_, rfl, rfl, ?_⟩
    · have hnodes := Table.find_mapVals key (fun _ n => Node.pulse n) s.dev.nodes
      simp only [Node.pulse_eq] at hnodes
      exact hnodes
    · exact Table.find_mapVals room (fun _ r => { r with session := Timer.tick (60 * s.dev.sessionLimit.getD 10) r.session }) s.dev.rooms
    · exact Table.find_mapVals key (fun _ e => Encoder.pulse (s.dev.creds.encodingTimeout.getD 30) e) s.dev.creds.encoders
    · exact congrArg Journal.reread s.dev.journal.secondReread_eq
    · simp only [Device.pulseTimers]
      rw [s.dev.journal.secondReread_eq]
  · rw [exec_minuteTick]
    refine commit_unchanged s _ (State.onDevice_self s _ ?_) hs
    exact if_neg (by simp [hdue])
  · obtain ⟨hnodes, hquiet⟩ := Device.minuteTick_quiet hends
    have htick : s.dev.tickIfDue = s.dev.minuteTick := if_pos hdue
    rw [exec_minuteTick]
    refine ⟨_, commit_of_journal_eq s _ ?_ ?_, ?_, ?_, ?_⟩
    · show s.dev.tickIfDue.reports = []
      rw [htick, hquiet]
      exact hs
    · show s.dev.tickIfDue.journal = _
      rw [htick, hquiet]
    · show s.dev.tickIfDue.clock = _
      rw [htick, hquiet]
    · show ∀ key, Table.find key s.dev.tickIfDue.nodes = _
      rw [htick]
      exact hnodes
    · simp only [State.onDevice, htick]
      rw [hquiet]

end Sys2Proof.Machine
end

section
/-! Card orders: EXTEND_CARD, SUSPEND_CARD, RESUME_CARD, REVOKE_CARD and READ_CARD (sections 1.7 and 1.8), and the check word (1.3). -/

namespace Sys2Proof.Machine

/-! ## EXTEND_CARD, SUSPEND_CARD and RESUME_CARD -/

theorem Device.extendCard_found {d : Device} {serial validUntil : Word} {e : Entry} (ctx : OrderContext) (h0 : serial ≠ 0)
    (he : d.entryOf serial = some e) (hs : e.state ≠ .encoding) (hv : e.validFrom.toNat < validUntil.toNat) :
    d.extendCard serial validUntil ctx
      = ((d.putEntry serial { e with validUntil := validUntil }).recordCard serial .extended e.room ctx.tag, .done [e.validUntil]) := by
  unfold Device.extendCard
  rw [if_neg h0, he]
  dsimp only
  rw [if_neg hs, if_neg (Nat.not_le.2 hv)]

theorem Device.moveCard_found {d : Device} {serial : Word} {e : Entry} (fromState toState : EntryState) (event : CardEvent)
    (ctx : OrderContext) (h0 : serial ≠ 0) (he : d.entryOf serial = some e) (hs : e.state = fromState) :
    d.moveCard fromState toState event serial ctx
      = ((d.putEntry serial { e with state := toState }).recordCard serial event e.room ctx.tag, .done []) := by
  unfold Device.moveCard
  rw [if_neg h0, he]
  dsimp only
  rw [if_pos hs]

/-- An order whose owner replaces one entry of the table and writes its CARD record. -/
theorem exec_entryOrder {s : State} {c : Instr} {kind : OrderKind} {block tag : Word} {abort : Bool} {params : Nat}
    {owner : OrderContext → Device → Device × Reply} (serial : Word) (e : Entry) (event : CardEvent) (room : Nat) (r : Reply)
    (hw : s.dev.orderInHand kind block tag abort)
    (he : exec c s = commit s (fun t => t.onDevice (fun d => d.runOrder kind params owner)))
    (ho : owner { block := block, tag := tag } s.dev = ((s.dev.putEntry serial e).recordCard serial event room tag, r)) :
    ∃ t, exec c s = .next t ∧
      t.dev.entryOf serial = some e ∧
      (∀ other, other ≠ serial → t.dev.entryOf other = s.dev.entryOf other) ∧
      t.dev.journal = (s.dev.notable (.card serial event room tag)).journal ∧
      t.dev.walker = s.dev.walker.replied block abort params r ∧
      t = { s with dev := { s.dev with
        regs := { s.dev.regs with status := stallStatus s.dev.journal t.dev.journal s.dev.regs.status }
        walker := t.dev.walker
        creds := { s.dev.creds with entries := t.dev.creds.entries }
        journal := t.dev.journal } } := by
  refine ⟨_, he.trans (commit_order hw.1 ho hw.2), ?_, fun other hne => ?_, rfl, rfl, rfl⟩
  · exact (s.dev.entryOf_putEntry serial serial e).trans (if_pos rfl)
  · exact (s.dev.entryOf_putEntry serial other e).trans (if_neg hne)

/-- Settles O17, by `exec_entryOrder` for the three orders. -/
theorem extendAndSuspendAndResume : Obligations.ExtendAndSuspendAndResume := by
  refine ⟨?_, ?_⟩
  · intro s serial validUntil block tag abort e h0 he hs hv hw
    exact exec_entryOrder serial _ .extended e.room _ hw (exec_extendCard serial validUntil s) (Device.extendCard_found _ h0 he hs hv)
  · rintro s serial block tag abort e h0 he cmd kind after event (⟨rfl, rfl, hs, rfl, rfl⟩ | ⟨rfl, rfl, hs, rfl, rfl⟩) hw
    · exact exec_entryOrder serial _ .suspended e.room _ hw (exec_suspendCard serial s) (Device.moveCard_found _ _ _ _ h0 he hs)
    · exact exec_entryOrder serial _ .resumed e.room _ hw (exec_resumeCard serial s) (Device.moveCard_found _ _ _ _ h0 he hs)

/-! ## REVOKE_CARD -/

theorem Device.revokeCard_found {d : Device} {serial denyUnknown : Word} {e : Entry} (ctx : OrderContext) (h0 : serial ≠ 0)
    (hu : denyUnknown.toNat ≤ 1) (he : d.entryOf serial = some e) :
    d.revokeCard serial denyUnknown ctx
      = ((d.retire serial .revoked ctx.tag).1,
        { code := .done, words := [natWord e.state.code], cancels := (d.retire serial .revoked ctx.tag).2 }) := by
  unfold Device.revokeCard
  rw [if_neg (by simpa [Nat.not_lt.2 hu] using h0), he]

theorem Device.revokeCard_absent {d : Device} {serial denyUnknown : Word} (ctx : OrderContext) (h0 : serial ≠ 0)
    (hu : denyUnknown.toNat ≤ 1) (he : d.entryOf serial = none) :
    d.revokeCard serial denyUnknown ctx = (if denyUnknown = 1 then d.denySerial serial else d, .refusal .notFound 1) := by
  unfold Device.revokeCard
  rw [if_neg (by simpa [Nat.not_lt.2 hu] using h0), he]

/-- A retired entry that was in no encoding, its journal and cards after (R5, R7). -/
theorem Device.retired_written {d u : Device} {serial : Word} {event : CardEvent} {tag : Word} {settled : List Settlement} {e : Entry}
    (h : d.retired u serial event tag settled) (he : d.entryOf serial = some e) (hs : e.state ≠ .encoding) :
    u.entryOf serial = none ∧ (∀ other, other ≠ serial → u.entryOf other = d.entryOf other) ∧
    u.creds.deny = denyAppend serial d.creds.deny ∧
    (∀ room, Table.find room u.rooms = (Table.find room d.rooms).map (fun r =>
      if e.kind = .guest ∧ room = e.room then { r with guestCount := r.guestCount - 1 } else r)) ∧
    u.journal = (d.notable (.card serial event e.room tag)).journal ∧ settled = [] ∧
    u = { d with
      creds := { d.creds with entries := u.creds.entries, deny := u.creds.deny }, rooms := u.rooms, journal := u.journal } := by
  obtain ⟨e', he', hfree, hother, hdeny, hrooms, hjournal, hor, hframe⟩ := h
  cases he'.symm.trans he
  rcases hor with ⟨-, hsettled, henc, hseg, hjob⟩ | ⟨henc, -⟩
  · refine ⟨hfree, hother, hdeny, hrooms, hjournal, hsettled, ?_⟩
    rw [henc, hseg, hjob] at hframe
    exact hframe
  · exact absurd henc hs

/-- Settles O19, by `Device.retire_retired` and the three ways of the order. -/
theorem revokeFreesAndDenies : Obligations.RevokeFreesAndDenies := by
  intro s serial denyUnknown block tag abort h0 hw
  refine ⟨fun e hu he hs => ?_, fun e hu he hs hstand => ?_, fun he => ⟨?_, ?_⟩⟩
  · have hretired : s.dev.retired (s.dev.retire serial .revoked tag).1 serial .revoked tag (s.dev.retire serial .revoked tag).2 := by
      rw [Device.retire_written s.dev serial tag e he hs]
      obtain ⟨f1, f2, f3, f4⟩ := Device.freeEntry_fields s.dev serial e
      refine ⟨e, he, f1, f2, ?_, f3, ?_, .inl ⟨hs, rfl, ?_, ?_, ?_⟩, ?_⟩ <;> rw [f4] <;> rfl
    obtain ⟨hfree, hother, hdeny, hrooms, hjournal, hsettled, hframe⟩ := Device.retired_written hretired he hs
    have howner := Device.revokeCard_found { block := block, tag := tag } h0 hu he
    rw [hsettled] at howner
    have hreports : (s.dev.retire serial .revoked tag).1.reports = [] := by
      rw [(Device.retired_frame hretired).2.1]
      exact hw.2
    have hcode : natWord e.state.code = if e.state = .active then 2 else 3 := by
      cases hst : e.state with
      | encoding => exact absurd hst hs
      | active => rfl
      | suspended => rfl
    refine ⟨_, (exec_revokeCard serial denyUnknown s).trans (commit_order hw.1 howner hreports), hfree, hother, hdeny, hrooms, hjournal,
      ?_, ?_⟩
    · rw [← hcode]
      exact congrArg (fun w : Walker => w.replied block abort 2 _) (Device.retired_frame hretired).2.2.1
    · dsimp only
      rw [hframe]
  · have hretired := s.dev.retire_retired serial .revoked tag e he hstand.1
      (fun hs => (hstand.2.2 serial (List.mem_singleton_self _)).elim fun e' h => by
        cases h.1.symm.trans he
        exact h.2 hs)
    have howner := Device.revokeCard_found { block := block, tag := tag } h0 hu he
    obtain ⟨-, hreports, hwalker, -, hregs⟩ := Device.retired_frame hretired
    refine ⟨_, _, _, (exec_revokeCard serial denyUnknown s).trans (commit_order hw.1 howner (hreports.trans hw.2)), hretired, ?_⟩
    rw [hs, hwalker, hregs]
    rfl
  · rintro rfl
    have howner := Device.revokeCard_absent (denyUnknown := 1) { block := block, tag := tag } h0 (by decide) he
    rw [if_pos rfl] at howner
    rw [exec_revokeCard, commit_order (d' := s.dev.denySerial serial) hw.1 howner hw.2]
    simp only [Device.denySerial, stallStatus_of_load_le _ (Nat.le_refl _)]
    rfl
  · rintro rfl
    have howner := Device.revokeCard_absent (denyUnknown := 0) { block := block, tag := tag } h0 (by decide) he
    rw [if_neg (by decide)] at howner
    rw [exec_revokeCard, commit_order hw.1 howner hw.2]
    simp only [stallStatus_of_load_le _ (Nat.le_refl _)]
    rfl

/-! ## READ_CARD -/

/-- The place of an issue that waits behind others of other serials. -/
theorem waitingPlace_append {serial : Word} {i : Issue} (hi : i.serial = serial) (behind : List Issue) :
    ∀ (ahead : List Issue) (k : Nat), (∀ x ∈ ahead, x.serial ≠ serial) →
      waitingPlace serial k (ahead ++ i :: behind) = some (ahead.length + k)
  | [], k, _ => by simp [waitingPlace, hi]
  | x :: rest, k, h => by
    rw [List.cons_append, waitingPlace, if_neg (h x (List.mem_cons_self ..)),
      waitingPlace_append hi behind rest (k + 1) (fun y hy => h y (List.mem_cons_of_mem _ hy)), List.length_cons]
    exact congrArg some (by omega)

/-- An issue's place at its encoder: 0 in progress, and counted from the head of the queue otherwise (R26). -/
theorem Encoder.place_eq {enc : Encoder} {serial : Word} {place : Nat}
    (h : (place = 0 ∧ ∃ c, enc.current = some c ∧ c.issue.serial = serial)
      ∨ ((∀ c, enc.current = some c → c.issue.serial ≠ serial) ∧ ∃ ahead i behind, enc.waiting = ahead ++ i :: behind
        ∧ i.serial = serial ∧ (∀ x ∈ ahead, x.serial ≠ serial) ∧ place = ahead.length + 1)) :
    enc.place serial = some place := by
  unfold Encoder.place
  rcases h with ⟨rfl, c, hc, hs⟩ | ⟨hcur, ahead, i, behind, hw, hi, hahead, rfl⟩
  · rw [hc]
    exact if_pos hs
  · have hwait := waitingPlace_append hi behind ahead 1 hahead
    rw [← hw] at hwait
    cases hc : enc.current with
    | none => exact hwait
    | some c => exact (if_neg (hcur c hc)).trans hwait

theorem Device.readCard_absent {d : Device} {serial : Word} (ctx : OrderContext) (h0 : serial ≠ 0) (he : d.entryOf serial = none) :
    d.readCard serial ctx
      = (d, { code := .notFound, words := [0, 0, 0, 0, 0, 0, 0, 0, 0, 0, 0, natWord (denyPosition serial 1 d.creds.deny)] }) := by
  unfold Device.readCard
  rw [if_neg h0, he]
  rfl

theorem Device.readCard_found {d : Device} {serial : Word} {e : Entry} {encoder place : Nat} (ctx : OrderContext) (h0 : serial ≠ 0)
    (he : d.entryOf serial = some e)
    (hat : (e.state ≠ .encoding ∧ encoder = 0 ∧ place = 0)
      ∨ (e.state = .encoding ∧ locateIssue serial d.creds.encoders = some (encoder, place))) :
    d.readCard serial ctx
      = (d, .done [natWord e.kind.code, natWord e.room, e.issueMinute, e.validFrom, e.validUntil, e.privileges.zeroExtend 32,
        natWord e.state.code, if e.deniedBefore then 1 else 0, e.tag, natWord encoder, natWord place,
        natWord (denyPosition serial 1 d.creds.deny)]) := by
  unfold Device.readCard
  rw [if_neg h0, he]
  dsimp only
  rcases hat with ⟨hs, rfl, rfl⟩ | ⟨hs, hl⟩
  · rw [if_neg hs]
    rfl
  · rw [if_pos hs, hl]
    rfl

/-- Settles O20, by `Device.readCard_absent` and `Device.readCard_found`. -/
theorem readCardReports : Obligations.ReadCardReports := by
  intro s serial block tag abort h0 hw
  obtain ⟨hnot, hat⟩ := denyPosition_eq serial 1 s.dev.creds.deny
  have hnext : ∀ r, s.dev.readCard serial { block := block, tag := tag } = (s.dev, r) →
      exec (.readCard serial) s = .next { s with dev := { s.dev with walker := s.dev.walker.replied block abort 1 r } } := by
    intro r howner
    rw [exec_readCard, commit_order hw.1 howner hw.2]
    simp only [stallStatus_of_load_le _ (Nat.le_refl _)]
  refine ⟨natWord (denyPosition serial 1 s.dev.creds.deny), fun hn => ?_, fun older newer hd ho => ?_, fun he => ?_, ?_⟩
  · rw [hnot hn]
    rfl
  · rw [hat older newer hd ho]
  · exact hnext _ (Device.readCard_absent _ h0 he)
  · intro e encoder place he hplace
    have hat : (e.state ≠ .encoding ∧ encoder = 0 ∧ place = 0)
        ∨ (e.state = .encoding ∧ locateIssue serial s.dev.creds.encoders = some (encoder, place)) := by
      refine hplace.imp_right ?_
      rintro ⟨hs, hwf, enc, ⟨hk, hin, hone⟩, hp⟩
      refine ⟨hs, ?_⟩
      rw [locateIssue_spec serial _ encoder enc hwf hk hin hone, Encoder.place_eq hp]
      rfl
    refine (hnext _ (Device.readCard_found _ h0 he hat)).trans ?_
    cases e.state <;> rfl

/-! ## The check word -/

/-- The sum of the bytes weighted by their places. -/
theorem weightedSum_foldl (l : List Byte) (k acc : Nat) :
    (l.zipIdx k).foldl (fun sum b => sum + b.2 * b.1.toNat) acc = acc + weightedSum k l := by
  induction l generalizing k acc with
  | nil => rfl
  | cons b rest ih =>
    rw [List.zipIdx_cons, List.foldl_cons, ih]
    simp only [weightedSum]
    omega

/-- A byte changed changes the sum by its weight times the change. -/
theorem weightedSum_set (l : List Byte) (k s : Nat) (b : Byte) (hk : k < l.length) :
    weightedSum s (l.set k b) + (s + k) * (l[k]'hk).toNat = weightedSum s l + (s + k) * b.toNat := by
  induction l generalizing k s with
  | nil => exact absurd hk (Nat.not_lt_zero k)
  | cons a rest ih =>
    cases k with
    | zero =>
      simp only [List.set_cons_zero, weightedSum, List.getElem_cons_zero, Nat.add_zero]
      omega
    | succ k =>
      have hrest := ih k (s + 1) (Nat.lt_of_succ_lt_succ hk)
      simp only [List.set_cons_succ, weightedSum, List.getElem_cons_succ]
      rw [show s + (k + 1) = s + 1 + k by omega]
      omega

/-- Lists of one length that differ at one place at most. -/
theorem eq_set_of_differ {l m : List Byte} {k : Nat} (hlen : m.length = l.length) (hk : k < m.length)
    (h : ∀ i, i ≠ k → m[i]? = l[i]?) : m = l.set k (m[k]'hk) := by
  refine List.ext_getElem? (fun i => ?_)
  rw [List.getElem?_set]
  by_cases hi : k = i
  · subst hi
    rw [if_pos rfl, if_pos (hlen ▸ hk)]
    exact List.getElem?_eq_getElem hk
  · rw [if_neg hi]
    exact h i (Ne.symm hi)

/-- Numbers less than the modulus apart have different remainders unless they are equal. -/
theorem eq_of_mod_check {x y : Nat} (h : x % 65521 = y % 65521) (hxy : x < y + 65521) (hyx : y < x + 65521) : x = y := by
  omega

/-- Settles O23: the weighted sums of images that differ in one byte are at most 11 times 255 apart. -/
theorem checkWordCatchesAByte : Obligations.CheckWordCatchesAByte := by
  intro property i _
  refine ⟨?_, fun serial kind room minute => imagePasses_buildImage property serial kind room minute, ?_⟩
  · rw [weightedSum_foldl, Nat.zero_add]
    rfl
  · rintro j hi hcheck ⟨k, hk, hdiffer, hsame⟩
    have hlen : (imageContent j).length = (imageContent i).length := rfl
    have hset := eq_set_of_differ hlen hk hsame
    have hsum := weightedSum_set (imageContent i) k 1 ((imageContent j)[k]'hk) hk
    rw [← hset] at hsum
    have hbytes : ((imageContent j)[k]'hk).toNat ≠ ((imageContent i)[k]'hk).toNat := by
      intro heq
      refine hdiffer ?_
      rw [List.getElem?_eq_getElem hk, List.getElem?_eq_getElem (show k < (imageContent i).length from hk)]
      exact congrArg some (BitVec.eq_of_toNat_eq heq)
    have hj : ((imageContent j)[k]'hk).toNat < 256 := ((imageContent j)[k]'hk).isLt
    have hl : ((imageContent i)[k]'hk).toNat < 256 := ((imageContent i)[k]'hk).isLt
    unfold imagePasses at hi ⊢
    rw [decide_eq_true_eq, ← hcheck] at hi
    rw [← hi, decide_eq_false_iff_not]
    intro heq
    have hpos : 0 < 1 + k := by omega
    have hmul : (1 + k) * ((imageContent j)[k]'hk).toNat ≠ (1 + k) * ((imageContent i)[k]'hk).toNat :=
      fun h => hbytes (Nat.eq_of_mul_eq_mul_left hpos h)
    have hjmul : (1 + k) * ((imageContent j)[k]'hk).toNat ≤ 11 * 255 := Nat.mul_le_mul (by omega) (by omega)
    have himul : (1 + k) * ((imageContent i)[k]'hk).toNat ≤ 11 * 255 := Nat.mul_le_mul (by omega) (by omega)
    have hequal := eq_of_mod_check heq (by omega) (by omega)
    omega

end Sys2Proof.Machine
end

section
/-! ISSUE_CARD accepted, and the encoding timeout (sections 1.5 and 1.6). -/

namespace Sys2Proof.Machine

/-! ## The tests of an issue -/

theorem issueIdentity_some {serial kind room validFrom validUntil privileges supersede : Word} {k : CardKind} {p : BitVec 11}
    (hk : CardKind.ofCode kind.toNat = some k) (hp : privilegesOf privileges = some p) (h0 : serial ≠ 0)
    (hroom : room.toNat < 768 ∨ room.toNat = 65535) (hguest : k = .guest → room.toNat < 768) (hv : validFrom.toNat < validUntil.toNat)
    (hs : supersede.toNat ≤ 1) (hsup : supersede = 1 → k = .guest) :
    issueIdentity serial kind room validFrom validUntil privileges supersede = some (k, p) := by
  have hok : roomWordOk room.toNat = true := by
    simpa [roomWordOk] using hroom
  have hown : (decide (k = .guest) && decide (room.toNat = 65535)) = false := by
    rw [Bool.and_eq_false_iff, decide_eq_false_iff_not, decide_eq_false_iff_not]
    by_cases hg : k = .guest
    · exact .inr (by have := hguest hg; omega)
    · exact .inl hg
  have hkind : (decide (supersede = 1) && decide (k ≠ .guest)) = false := by
    rw [Bool.and_eq_false_iff, decide_eq_false_iff_not, decide_eq_false_iff_not]
    by_cases h1 : supersede = 1
    · exact .inr (not_not.2 (hsup h1))
    · exact .inl h1
  unfold issueIdentity
  rw [hk, hp]
  dsimp only
  rw [if_neg]
  rw [hok, hown, hkind, decide_eq_false (Nat.not_le.2 hv), decide_eq_false (Nat.not_lt.2 hs)]
  simpa using h0

/-- The earliest of a rising table: no entry ends before it, and one that ends with it has a greater key. -/
theorem earliest_eq {l : List (Nat × Entry)} {x : Nat × Entry} (hl : l.Pairwise (fun a b => a.1 < b.1)) (hx : x ∈ l)
    (hmin : ∀ y ∈ l, x.2.validUntil.toNat < y.2.validUntil.toNat ∨ (x.2.validUntil = y.2.validUntil ∧ x.1 ≤ y.1)) :
    earliest l = some x := by
  induction l with
  | nil => cases hx
  | cons p rest ih =>
    obtain ⟨hp, hrest⟩ := List.pairwise_cons.1 hl
    unfold earliest
    rcases List.mem_cons.1 hx with rfl | hx
    · cases he : earliest rest with
      | none => rfl
      | some q =>
        dsimp only
        rw [if_neg]
        rcases hmin q (List.mem_cons_of_mem _ (earliest_mem he)) with h | ⟨h, -⟩
        · exact Nat.not_lt.2 (Nat.le_of_lt h)
        · rw [h]
          exact Nat.lt_irrefl _
    · rw [ih hrest hx (fun y hy => hmin y (List.mem_cons_of_mem _ hy))]
      dsimp only
      rw [if_pos]
      rcases hmin p (List.mem_cons_self ..) with h | ⟨-, h⟩
      · exact h
      · exact absurd (hp x hx) (Nat.not_lt.2 h)

/-- The tests of R11 from step 2 on, all passed. -/
theorem Device.issueRefused_none {d : Device} {seg addr serial : Word} {kind : CardKind} {room key : Nat} {n : Node} {enc : Encoder}
    (h8 : seg.toNat < 8) (h1 : 1 ≤ addr.toNat) (h120 : addr.toNat ≤ 120) (hkey : key = seg.toNat * 256 + addr.toNat)
    (hre : d.reachable key n) (hn : n.kind = .encoder) (henc : Table.find key d.creds.encoders = some enc)
    (hfree : d.entryOf serial = none)
    (hocc : kind = .guest → ∃ r, Table.find room d.rooms = some r ∧ r.state = .occupied)
    (hpurge : d.tableFull = true → d.purgeCandidate.isSome = true) (hroom : enc.current = none ∨ enc.waiting.length < 4)
    (hcount : d.encodingCount + d.walker.settlements.length < 20) :
    d.issueRefused seg addr serial kind room = none := by
  obtain ⟨hf, hout, -⟩ := hre
  have hok : addressOk seg.toNat addr.toNat = true := by
    simp only [addressOk, Bool.and_eq_true, decide_eq_true_eq]
    exact ⟨⟨h8, h1⟩, h120⟩
  have hkey' : nodeKey seg.toNat addr.toNat = key := hkey.symm
  have hwrong : (decide (kind = .guest) && !d.roomOccupied room) = false := by
    rw [Bool.and_eq_false_iff, decide_eq_false_iff_not]
    by_cases hg : kind = .guest
    · obtain ⟨r, hr, hst⟩ := hocc hg
      exact .inr (by simp [Device.roomOccupied, hr, hst])
    · exact .inl hg
  have hfull : (d.tableFull && d.purgeCandidate.isNone) = false := by
    rw [Bool.and_eq_false_iff]
    by_cases hf : d.tableFull = true
    · exact .inr (by simpa using hpurge hf)
    · exact .inl (by simpa using hf)
  have hbusy : d.encoderFull key = false := by
    unfold Device.encoderFull
    rw [henc, Bool.or_eq_false_iff]
    refine ⟨?_, decide_eq_false (Nat.not_le.2 hcount)⟩
    rw [Bool.and_eq_false_iff, decide_eq_false_iff_not]
    exact hroom.imp (fun h => by rw [h]; rfl) Nat.not_le.2
  unfold Device.issueRefused
  rw [hok, hkey', hf, hfree, hbusy, hfull, hwrong]
  simp [hn, hout]

/-! ## The purge -/

/-- What an accepted issue purges: nothing while an entry is free; of a full table the candidate of R13. -/
def Device.purges (d : Device) (purged : Option (Word × Entry)) : Prop :=
  (d.tableFull = false ∧ purged = none)
    ∨ ∃ old q, d.tableFull = true ∧ purged = some (old, q) ∧ d.purgeCandidate = some (old.toNat, q)

/-- The statement's candidate is the one that the purge takes. -/
theorem Device.purges_of_statement {d : Device} {purged : Option (Word × Entry)}
    (h : (d.creds.entries.length < 3072 ∧ purged = none)
      ∨ (3072 ≤ d.creds.entries.length ∧ Table.wf d.creds.entries = true ∧ (∀ q ∈ d.creds.entries, q.1 < 4294967296)
        ∧ d.clock.valid = true ∧ ∃ old q, purged = some (old, q) ∧ d.entryOf old = some q ∧ q.state ≠ .encoding
        ∧ q.validUntil.toNat + 1440 ≤ d.clock.minute.toNat
        ∧ ∀ other x, d.entryOf other = some x → x.state ≠ .encoding → x.validUntil.toNat + 1440 ≤ d.clock.minute.toNat →
          q.validUntil.toNat < x.validUntil.toNat ∨ (q.validUntil = x.validUntil ∧ old.toNat ≤ other.toNat))) :
    d.purges purged := by
  rcases h with ⟨hlt, rfl⟩ | ⟨hge, hwf, hword, hvalid, old, q, rfl, hq, hqs, hqu, hmin⟩
  · exact .inl ⟨decide_eq_false (Nat.not_le.2 hlt), rfl⟩
  · have hpurgeable : ∀ e : Entry, d.purgeable e = true ↔ e.state ≠ .encoding ∧ e.validUntil.toNat + 1440 ≤ d.clock.minute.toNat := by
      intro e
      unfold Device.purgeable
      rw [hvalid, Bool.true_and, Bool.and_eq_true, decide_eq_true_iff, decide_eq_true_iff]
    refine .inr ⟨old, q, decide_eq_true hge, rfl, earliest_eq (((Table.wf_iff _).1 hwf).filter _) ?_ ?_⟩
    · exact List.mem_filter.2 ⟨Table.mem_of_find hq, (hpurgeable q).2 ⟨hqs, hqu⟩⟩
    · intro y hy
      obtain ⟨hmem, hp⟩ := List.mem_filter.1 hy
      obtain ⟨hys, hyu⟩ := (hpurgeable y.2).1 hp
      have hnat : (natWord y.1).toNat = y.1 := toNat_natWord (hword y hmem)
      have hfound : d.entryOf (natWord y.1) = some y.2 := by
        unfold Device.entryOf
        rw [hnat]
        exact Table.find_of_mem hwf hmem
      have := hmin (natWord y.1) y.2 hfound hys hyu
      rwa [hnat] at this

/-- The journal behind a purge: CARD PURGED written for the entry taken, where there is one (R13). -/
def Device.purgedJournal (d : Device) (tag : Word) : Option (Word × Entry) → Journal
  | none => d.journal
  | some (old, q) => (d.notable (.card old .purged q.room tag)).journal

/-- What the purge leaves: the candidate's entry gone, its room's guest card count the less, CARD PURGED written. -/
theorem Device.purge_eq {d : Device} {purged : Option (Word × Entry)} (h : d.purges purged) (tag : Word) :
    (∀ other, (d.purge tag).entryOf other = if purged.map (fun q => q.1) = some other then none else d.entryOf other) ∧
    (∀ i, Table.find i (d.purge tag).rooms = (Table.find i d.rooms).map (fun r => { r with
      guestCount := r.guestCount - (if purged.any (fun q => decide (q.2.kind = .guest) && decide (q.2.room = i)) then 1 else 0) })) ∧
    (d.purge tag).journal = d.purgedJournal tag purged ∧
    d.purge tag = { d with
      creds := { d.creds with entries := (d.purge tag).creds.entries }, rooms := (d.purge tag).rooms
      journal := (d.purge tag).journal } := by
  rcases h with ⟨hfull, rfl⟩ | ⟨old, q, hfull, rfl, hcand⟩
  · have heq : d.purge tag = d := if_neg (by simp [hfull])
    rw [heq]
    refine ⟨fun other => rfl, fun i => ?_, rfl, rfl⟩
    cases Table.find i d.rooms <;> rfl
  · have heq : d.purge tag = (d.freeEntry old q).recordCard old .purged q.room tag := by
      unfold Device.purge
      rw [if_pos hfull, hcand]
      dsimp only
      rw [natWord_toNat]
    obtain ⟨hentry, hrooms, hframe⟩ := Device.freeEntry_eq d old q
    rw [heq]
    refine ⟨fun other => ?_, fun i => ?_, ?_, ?_⟩
    · refine (hentry other).trans ?_
      by_cases ho : other = old
      · subst ho
        exact (if_pos rfl).trans (if_pos rfl).symm
      · rw [if_neg ho, if_neg]
        exact fun h => ho (Option.some.inj h).symm
    · refine (hrooms i).trans ?_
      congr 1
      funext r
      by_cases hg : q.kind = .guest ∧ i = q.room
      · rw [if_pos hg, if_pos]
        simp [hg.1, hg.2]
      · rw [if_neg hg, if_neg, Nat.sub_zero]
        simp only [Option.any_some, Bool.and_eq_true, decide_eq_true_eq]
        exact fun h => hg ⟨h.1, h.2.symm⟩
    · rw [hframe]
      rfl
    · rw [hframe]
      rfl

/-! ## The entry taken -/

theorem Device.countGuest_eq (d : Device) (e : Entry) :
    (∀ i, Table.find i (d.countGuest e).rooms = (Table.find i d.rooms).map (fun r => { r with
      guestCount := r.guestCount + (if e.kind = .guest ∧ i = e.room then 1 else 0) })) ∧
    d.countGuest e = { d with rooms := (d.countGuest e).rooms } := by
  unfold Device.countGuest
  by_cases hg : e.kind = .guest
  · simp only [hg, if_true, true_and, Device.modifyRoom_rooms, Table.find_modify]
    refine ⟨fun i => ?_, rfl⟩
    by_cases hi : i = e.room
    · subst hi
      simp
    · simp only [if_neg hi, Nat.add_zero]
      cases Table.find i d.rooms <;> rfl
  · rw [if_neg hg]
    refine ⟨fun i => ?_, rfl⟩
    cases Table.find i d.rooms with
    | none => rfl
    | some r => simp [hg]

/-- An encoding starts at a node that takes commands: ENCODE takes its place under the next job (R14). -/
theorem Device.startEncoding_eq {d : Device} {key : Nat} {n : Node} (i : Issue) (hre : d.reachable key n) :
    d.startEncoding key i = { d with
      creds := { d.creds with
        encoders := Table.modify key (fun e => { e with current := some { issue := i, timer := none, job := d.creds.nextJob } })
          d.creds.encoders
        nextJob := d.creds.nextJob + 1 }
      segments := placedFor d.segments key [.encode i.image d.creds.nextJob] } :=
  Device.hand_placed (n := n) _ hre

/-- An issue at an idle encoder starts, and waits at a busy one (R12, R14). -/
theorem Device.joinEncoder_eq {d : Device} {key : Nat} {n : Node} {enc : Encoder} (i : Issue) (hre : d.reachable key n)
    (henc : Table.find key d.creds.encoders = some enc) :
    ∃ encoders segments job, d.joinEncoder key i
        = { d with creds := { d.creds with encoders := encoders, nextJob := job }, segments := segments } ∧
      (∀ other, other ≠ key → Table.find other encoders = Table.find other d.creds.encoders) ∧
      (enc.current = none →
        Table.find key encoders = some { enc with current := some { issue := i, timer := none, job := d.creds.nextJob } } ∧
        segments = placedFor d.segments key [.encode i.image d.creds.nextJob] ∧ job = d.creds.nextJob + 1) ∧
      (enc.current ≠ none →
        Table.find key encoders = some { enc with waiting := enc.waiting ++ [i] } ∧ segments = d.segments ∧
        job = d.creds.nextJob) := by
  unfold Device.joinEncoder
  rw [henc]
  dsimp only
  by_cases hc : enc.current = none
  · rw [if_pos (by rw [hc]; rfl)]
    rw [Device.startEncoding_eq i hre]
    refine ⟨_, _, _, rfl, fun other ho => Table.find_modify_ne _ _ ho, fun _ => ⟨?_, rfl, rfl⟩, fun h => absurd hc h⟩
    rw [Table.find_modify_self, henc]
    rfl
  · rw [if_neg (by simpa using hc)]
    refine ⟨_, _, _, rfl, fun other ho => Table.find_modify_ne _ _ ho, fun h => absurd h hc, fun _ => ⟨?_, rfl, rfl⟩⟩
    rw [Table.find_modify_self, henc]
    rfl

/-- An issue's entry put in the table behind the purge, its serial out of the deny list, and its room's count raised (R12). -/
def Device.issueTaken (d : Device) (tag serial : Word) (e : Entry) : Device :=
  let p := (d.purge tag).putEntry serial e
  Device.countGuest { p with creds := { p.creds with deny := p.creds.deny.filter (fun s => decide (s ≠ serial)) } } e

theorem Device.acceptIssue_eq (d : Device) (ctx : OrderContext) (key : Nat) (serial : Word) (e : Entry) (supersede : Bool) :
    d.acceptIssue ctx key serial e supersede = (d.issueTaken ctx.tag serial e).joinEncoder key
      { serial := serial, block := ctx.block
        image := buildImage (d.issueTaken ctx.tag serial e).propertyCode serial e.kind e.room e.issueMinute, supersede := supersede } := rfl

theorem Device.issueTaken_eq {d : Device} {purged : Option (Word × Entry)} (h : d.purges purged) (tag serial : Word) (e : Entry) :
    (d.issueTaken tag serial e).entryOf serial = some e ∧
    (∀ other, other ≠ serial → (d.issueTaken tag serial e).entryOf other
      = if purged.map (fun q => q.1) = some other then none else d.entryOf other) ∧
    (∀ i, Table.find i (d.issueTaken tag serial e).rooms = (Table.find i d.rooms).map (fun r => { r with
      guestCount := r.guestCount - (if purged.any (fun q => decide (q.2.kind = .guest) && decide (q.2.room = i)) then 1 else 0)
        + (if e.kind = .guest ∧ i = e.room then 1 else 0) })) ∧
    (d.issueTaken tag serial e).journal = d.purgedJournal tag purged ∧
    d.issueTaken tag serial e = { d with
      creds := { d.creds with
        entries := (d.issueTaken tag serial e).creds.entries, deny := d.creds.deny.filter (fun s => decide (s ≠ serial)) }
      rooms := (d.issueTaken tag serial e).rooms
      journal := (d.issueTaken tag serial e).journal } := by
  obtain ⟨hentry, hrooms, hjournal, hframe⟩ := Device.purge_eq h tag
  have hput := (d.purge tag).entryOf_putEntry serial
  have hcount := Device.countGuest_eq { (d.purge tag).putEntry serial e with
    creds := { ((d.purge tag).putEntry serial e).creds with
      deny := ((d.purge tag).putEntry serial e).creds.deny.filter (fun s => decide (s ≠ serial)) } } e
  obtain ⟨hrooms', hframe'⟩ := hcount
  have hdef : d.issueTaken tag serial e = _ := hframe'
  have hcreds : (d.issueTaken tag serial e).creds = { ((d.purge tag).putEntry serial e).creds with
      deny := ((d.purge tag).putEntry serial e).creds.deny.filter (fun s => decide (s ≠ serial)) } := by rw [hdef]
  have hentryOf : ∀ other, (d.issueTaken tag serial e).entryOf other = ((d.purge tag).putEntry serial e).entryOf other := by
    intro other
    unfold Device.entryOf
    rw [hcreds]
  refine ⟨?_, fun other ho => ?_, fun i => ?_, ?_, ?_⟩
  · rw [hentryOf, hput serial e, if_pos rfl]
  · rw [hentryOf, hput other e, if_neg ho, hentry]
  · refine (hrooms' i).trans ?_
    show Option.map _ (Table.find i (d.purge tag).rooms) = _
    rw [hrooms i, Option.map_map]
    rfl
  · rw [← hjournal, hdef]
    rfl
  · have hdeny : (d.issueTaken tag serial e).creds.deny = d.creds.deny.filter (fun s => decide (s ≠ serial)) := by
      have hkept : (d.purge tag).creds.deny = d.creds.deny := by rw [hframe]
      rw [hcreds, ← hkept]
      rfl
    rw [← hdeny, hdef]
    unfold Device.putEntry
    rw [hframe]

/-- What ISSUE_CARD answers where every test passes (R12). -/
theorem Device.issueCard_accepted {d : Device} {encSeg encAddr serial kind room validFrom validUntil privileges supersede : Word}
    {k : CardKind} {p : BitVec 11} (ctx : OrderContext)
    (hid : issueIdentity serial kind room validFrom validUntil privileges supersede = some (k, p))
    (hok : d.issueRefused encSeg encAddr serial k room.toNat = none) :
    d.issueCard encSeg encAddr serial kind room validFrom validUntil privileges supersede ctx
      = (d.acceptIssue ctx (nodeKey encSeg.toNat encAddr.toNat) serial
          (d.newEntry serial k p room.toNat validFrom validUntil ctx.tag) (decide (supersede = 1)),
        { code := .done, deferred := true }) := by
  unfold Device.issueCard
  rw [hid]
  dsimp only
  rw [hok]

/-- Settles O21, by `Device.issueTaken_eq` and `Device.joinEncoder_eq`. -/
theorem issueTakesAnEntry : Obligations.IssueTakesAnEntry := by
  intro s encSeg encAddr serial kind room validFrom validUntil privileges supersede block tag abort k p n enc key purged hw hk hp h0
    hroom hguest hv hsup hsupk h8 h1 h120 hkey hre hn henc hfree hocc hpurge hwait hcount
  have hpurges := Device.purges_of_statement hpurge
  have hid := issueIdentity_some hk hp h0 hroom hguest hv hsup hsupk
  have hcand : s.dev.tableFull = true → s.dev.purgeCandidate.isSome = true := by
    intro hfull
    rcases hpurges with ⟨hno, -⟩ | ⟨old, q, -, -, hc⟩
    · rw [hno] at hfull
      cases hfull
    · rw [hc]
      rfl
  have hok := Device.issueRefused_none h8 h1 h120 hkey hre hn henc hfree hocc hcand hwait hcount
  have howner := Device.issueCard_accepted { block := block, tag := tag } hid hok
  obtain ⟨e, he⟩ : ∃ e, e = s.dev.newEntry serial k p room.toNat validFrom validUntil tag := ⟨_, rfl⟩
  obtain ⟨hentry, hother, hrooms, hjournal, hframe⟩ := Device.issueTaken_eq hpurges tag serial e
  have hre' : (s.dev.issueTaken tag serial e).reachable key n := by rw [hframe]; exact hre
  have henc' : Table.find key (s.dev.issueTaken tag serial e).creds.encoders = some enc := by rw [hframe]; exact henc
  obtain ⟨image, himage⟩ : ∃ image, image = buildImage s.dev.propertyCode serial e.kind e.room e.issueMinute := ⟨_, rfl⟩
  obtain ⟨encoders, segments, job, hjoin, hothers, hidle, hbusy⟩ := Device.joinEncoder_eq
    { serial := serial, block := block, image := image, supersede := decide (supersede = 1) } hre' henc'
  have hcode : (s.dev.issueTaken tag serial e).propertyCode = s.dev.propertyCode := by rw [hframe]; rfl
  have haccept := s.dev.acceptIssue_eq { block := block, tag := tag } key serial e (decide (supersede = 1))
  rw [hcode, ← himage, hjoin] at haccept
  have hkey' : nodeKey encSeg.toNat encAddr.toNat = key := hkey.symm
  rw [hkey', ← he, haccept] at howner
  have hjob : (s.dev.issueTaken tag serial e).creds.nextJob = s.dev.creds.nextJob := by rw [hframe]
  have hsegs : (s.dev.issueTaken tag serial e).segments = s.dev.segments := by rw [hframe]
  have hencs : (s.dev.issueTaken tag serial e).creds.encoders = s.dev.creds.encoders := by rw [hframe]
  have hdeny : (s.dev.issueTaken tag serial e).creds.deny = _ := congrArg (fun x : Device => x.creds.deny) hframe
  have hwalker : (s.dev.issueTaken tag serial e).walker = s.dev.walker := by rw [hframe]
  have hreports : (s.dev.issueTaken tag serial e).reports = [] := by rw [hframe]; exact hw.2
  have hseg : key / 256 = encSeg.toNat ∧ key % 256 = encAddr.toNat := by omega
  rw [hjob, hsegs] at hidle
  rw [hsegs, hjob] at hbusy
  rw [hencs] at hothers
  refine ⟨_, e, image, (exec_issueCard ..).trans (commit_order hw.1 howner hreports), he, hentry, hother, hdeny,
    ?_, hjournal.trans (by rcases purged with _ | ⟨_, _⟩ <;> rfl), (by rw [himage]; rfl), ?_, ?_, (by rw [himage]; rfl),
    (by rw [himage]; exact imagePasses_buildImage ..), fun hc => ?_,
    fun hc => ⟨(hbusy hc).1, (hbusy hc).2.1⟩, hothers, congrArg (fun w : Walker => w.replied block abort 9 _) hwalker, ?_, ?_⟩
  · have hek : e.kind = k := by rw [he]; rfl
    have her : e.room = room.toNat := by rw [he]; rfl
    rw [hek, her] at hrooms
    exact hrooms
  · rw [himage, he]
    cases k <;> rfl
  · rw [himage, he]
    show (BitVec.ofNat 16 room.toNat).toNat = room.toNat
    rw [BitVec.toNat_ofNat]
    omega
  · obtain ⟨hcur, hplaced, -⟩ := hidle hc
    refine ⟨hcur, hplaced.trans ?_⟩
    unfold placedFor
    rw [List.foldl_cons, List.foldl_nil, hseg.1, hseg.2]
    rfl
  · by_cases hc : enc.current = none
    · rw [if_pos hc]
      exact (hidle hc).2.2
    · rw [if_neg hc]
      exact (hbusy hc).2.2
  · dsimp only
    rw [hframe]

/-! ## The encoding timeout -/

/-- Settles O22, by `Device.failIssue_eq` and `Device.abandon_next`. -/
theorem encodingTimeoutFails : Obligations.EncodingTimeoutFails := by
  rintro s seg addr n enc next c e key job commands rfl - hs hre henc hcur hnext ⟨count, hdue⟩ he
  obtain ⟨entries, rooms, hfail, hentries, hrooms⟩ := s.dev.failIssue_eq c.issue .timeout e he
  have hre' : (s.dev.failIssue c.issue .timeout).reachable (seg * 256 + addr) n := by rw [hfail]; exact hre
  have henc' : Table.find (seg * 256 + addr) (s.dev.failIssue c.issue .timeout).creds.encoders = some enc := by rw [hfail]; exact henc
  have hjob : (s.dev.failIssue c.issue .timeout).creds.nextJob = s.dev.creds.nextJob := by rw [hfail]
  obtain ⟨encoders, hfound, hothers, hafter⟩ := Device.abandon_next hre' henc' (by rw [hjob]; exact hnext)
  have hexpired : s.dev.encodingExpired (nodeKey seg addr)
      = ((s.dev.failIssue c.issue .timeout).hand (seg * 256 + addr) .abandon).nextEncoding (seg * 256 + addr) := by
    unfold Device.encodingExpired
    have hkey : nodeKey seg addr = seg * 256 + addr := rfl
    rw [hkey, henc]
    dsimp only
    rw [hcur]
    dsimp only
    rw [if_pos (by rw [hdue]; rfl)]
  rw [hafter, hfail] at hexpired
  rw [hfail] at hothers
  rw [exec_encodingTimeout]
  refine ⟨_, commit_of_settled s _ ?_, ?_⟩
  · rw [State.onDevice_dev, hexpired]
    exact hs
  · rw [State.onDevice]
    dsimp only
    rw [hexpired]
    refine ⟨(hentries _).trans (if_pos rfl), fun other ho => (hentries other).trans (if_neg ho), rfl, hrooms, rfl, rfl, hfound, hothers,
      rfl, rfl⟩

end Sys2Proof.Machine
end

section
/-! Room orders: DEFINE_ROOM, CHECK_IN and SET_ROOM_STATE, and the readings of rooms and nodes (chapter 2, sections 2.7 and 8.2). -/

namespace Sys2Proof.Machine

/-! ## DEFINE_ROOM -/

/-- The minibar by the suspension rule (R88). -/
theorem Room.suspension_eq (r : Room) : r.suspension = { r with
    bar := if r.bar.inSession then r.bar else if r.ceiling - r.balance < r.openFloor ∨ 0 < r.unposted then .suspended else .locked } :=
  r.suspension_amounts r.balance r.unposted r.ceiling

theorem Room.new_suspension (code : Nat) (doorLink barLink : Option Nat) (grace openFloor ceiling : Nat) :
    (Room.new code doorLink barLink grace openFloor ceiling).suspension
      = { Room.new code doorLink barLink grace openFloor ceiling with
          bar := if ceiling < openFloor then .suspended else .locked } := by
  have hiff : (ceiling - 0 < openFloor ∨ 0 < 0) ↔ ceiling < openFloor := by omega
  have hbar : (if ceiling - 0 < openFloor ∨ 0 < 0 then BarState.suspended else .locked)
      = if ceiling < openFloor then .suspended else .locked := if_congr hiff rfl rfl
  rw [Room.suspension_eq, ← hbar]
  rfl

/-- An order with no record and no report, whose owner edits the rooms alone. -/
theorem exec_roomsOrder {s : State} {c : Instr} {kind : OrderKind} {block tag : Word} {abort : Bool} {params : Nat}
    {owner : OrderContext → Device → Device × Reply} {rooms : Table Room} {r : Reply} (hw : s.dev.orderInHand kind block tag abort)
    (he : exec c s = commit s (fun t => t.onDevice (fun d => d.runOrder kind params owner)))
    (ho : owner { block := block, tag := tag } s.dev = ({ s.dev with rooms := rooms }, r)) :
    exec c s = .next { s with dev := { s.dev with walker := s.dev.walker.replied block abort params r, rooms := rooms } } := by
  rw [he, commit_order hw.1 ho hw.2]
  simp only [stallStatus_of_load_le _ (Nat.le_refl _)]

/-- What DEFINE_ROOM does where every test passes (R32, R33). -/
theorem Device.defineRoom_eq {d : Device} {room code doorSeg doorAddr barSeg barAddr grace openFloor ceiling : Word}
    {door bar : Option Nat} {clamped : Bool} (hroom : room.toNat < 768) (hcode : code.toNat ≤ 9999)
    (hdoor : d.linkNamed .roomDoor room.toNat doorSeg doorAddr door) (hbar : d.linkNamed .minibar room.toNat barSeg barAddr bar)
    (hclamped : clamped = decide (240 < grace.toNat ∨ 10000000 < openFloor.toNat ∨ 10000000 < ceiling.toNat))
    (hsession : ∀ r, Table.find room.toNat d.rooms = some r → r.bar.inSession = true → door = r.doorLink ∧ bar = r.barLink) :
    d.defineRoom room code doorSeg doorAddr barSeg barAddr grace openFloor ceiling
      = match Table.find room.toNat d.rooms with
        | none => ({ d with rooms := Table.put room.toNat (Room.new code.toNat door bar (min 240 grace.toNat)
            (min 10000000 openFloor.toNat) (min 10000000 ceiling.toNat)).suspension d.rooms },
          { code := .done, clamped := clamped, words := [1] })
        | some _ => ({ d with rooms := Table.modify room.toNat (fun r => r.redefined code.toNat door bar (min 240 grace.toNat)
            (min 10000000 openFloor.toNat) (min 10000000 ceiling.toNat)) d.rooms },
          { code := .done, clamped := clamped, words := [0] }) := by
  unfold Device.defineRoom
  dsimp only
  rw [if_neg (by simp [hcode, hroom]), Device.linkOf_named hdoor, Device.linkOf_named hbar]
  simp only [clampTop_eq]
  have hany : (decide (240 < grace.toNat) || decide (Config.moneyCap < openFloor.toNat) || decide (Config.moneyCap < ceiling.toNat))
      = clamped := by
    rw [hclamped, ← Bool.decide_or, ← Bool.decide_or]
    exact decide_eq_decide.2 or_assoc
  rw [hany]
  cases hf : Table.find room.toNat d.rooms with
  | none => rfl
  | some r =>
    dsimp only
    rw [if_neg]
    · rfl
    · simp only [Bool.and_eq_true, Bool.or_eq_true, decide_eq_true_eq, not_and, Bool.not_eq_true]
      intro hne
      by_contra hin
      obtain ⟨hd, hb⟩ := hsession r hf (by simpa using hin)
      exact hne.elim (fun h => h hd) (fun h => h hb)

/-- Settles O24, by `Device.defineRoom_eq`. -/
theorem defineRoomCreatesOrRedefines : Obligations.DefineRoomCreatesOrRedefines := by
  rintro s room code doorSeg doorAddr barSeg barAddr grace openFloor ceiling block tag abort door bar g o c hw hroom hcode hdoor hbar
    rfl rfl rfl hsession
  have howner := Device.defineRoom_eq (grace := grace) (openFloor := openFloor) (ceiling := ceiling) hroom hcode hdoor hbar rfl hsession
  cases hf : Table.find room.toNat s.dev.rooms with
  | none =>
    rw [hf] at howner
    refine ⟨_, _, exec_roomsOrder hw (exec_defineRoom ..) howner, Table.find_put_self .., fun other ho => Table.find_put_ne _ _ ho,
      fun _ => ?_, fun r hr => (by cases hr), rfl, rfl⟩
    rw [Room.new_suspension]
    rfl
  | some r =>
    rw [hf] at howner
    refine ⟨_, r.redefined code.toNat door bar (min 240 grace.toNat) (min 10000000 openFloor.toNat) (min 10000000 ceiling.toNat),
      exec_roomsOrder hw (exec_defineRoom ..) howner, ?_, fun other ho => ?_, fun hn => (by cases hn),
      fun r' hr' => ?_, rfl, rfl⟩
    · rw [Table.find_modify_self, hf]
      rfl
    · dsimp only
      exact Table.find_modify_ne _ _ ho
    · cases hr'
      unfold Room.redefined
      rw [Room.suspension_eq]

/-! ## CHECK_IN and SET_ROOM_STATE -/

/-- An order whose owner edits one room and writes a record. -/
theorem exec_roomRecordOrder {s : State} {c : Instr} {kind : OrderKind} {block tag : Word} {abort : Bool} {params k : Nat} {r : Room}
    {owner : OrderContext → Device → Device × Reply} (f : Room → Room) (body : RecordBody) (q : Reply)
    (hw : s.dev.orderInHand kind block tag abort) (hf : Table.find k s.dev.rooms = some r)
    (he : exec c s = commit s (fun t => t.onDevice (fun d => d.runOrder kind params owner)))
    (ho : owner { block := block, tag := tag } s.dev = ((s.dev.modifyRoom k f).notable body, q)) :
    ∃ t, exec c s = .next t ∧ Table.find k t.dev.rooms = some (f r) ∧
      (∀ other, other ≠ k → Table.find other t.dev.rooms = Table.find other s.dev.rooms) ∧
      t.dev.journal = (s.dev.notable body).journal ∧ t.dev.walker = s.dev.walker.replied block abort params q ∧
      t = { s with dev := { s.dev with
        regs := { s.dev.regs with status := stallStatus s.dev.journal t.dev.journal s.dev.regs.status }
        walker := t.dev.walker
        rooms := t.dev.rooms
        journal := t.dev.journal } } := by
  refine ⟨_, he.trans (commit_order hw.1 ho hw.2), ?_, fun other hne => Table.find_modify_ne _ _ hne, rfl, rfl, rfl⟩
  exact (Table.find_modify_self ..).trans (congrArg (Option.map f) hf)

/-- The ceiling that CHECK_IN takes, and whether it was clamped (R37). -/
theorem checkIn_ceiling (r : Room) (source ceiling : Word) :
    (if source = 1 then clampTop Config.moneyCap ceiling.toNat else (r.defaultCeiling, false))
      = (if source = 1 then min 10000000 ceiling.toNat else r.defaultCeiling, decide (source = 1 ∧ 10000000 < ceiling.toNat)) := by
  by_cases h1 : source = 1
  · rw [if_pos h1, if_pos h1, clampTop_eq]
    exact congrArg (fun b => (_, b)) (decide_eq_decide.2 ⟨fun h => ⟨h1, h⟩, fun h => h.2⟩)
  · rw [if_neg h1, if_neg h1, decide_eq_false (fun h => h1 h.1)]

theorem Device.checkIn_eq {d : Device} {room source ceiling : Word} {r : Room} (hroom : room.toNat < 768) (hs : source.toNat ≤ 1)
    (hf : Table.find room.toNat d.rooms = some r) (hv : r.state = .vacant) :
    d.checkIn room source ceiling
      = ((d.modifyRoom room.toNat (fun x => Room.suspension { x with
          balance := 0, unposted := 0, ceiling := if source = 1 then min 10000000 ceiling.toNat else r.defaultCeiling
          state := .occupied, stayOpen := true, dnd := false })).notable (.stay room.toNat .checkIn 0 0),
        { code := .done, clamped := decide (source = 1 ∧ 10000000 < ceiling.toNat)
          words := [natWord r.balance, natWord r.unposted, flagWord r.orphan] }) := by
  unfold Device.checkIn
  rw [if_neg (by simp [hs, hroom]), Device.withRoom_found hroom hf, if_pos hv, checkIn_ceiling]
  rfl

/-- Settles O25, by `Device.checkIn_eq`. -/
theorem checkInOpensTheStay : Obligations.CheckInOpensTheStay := by
  rintro s room source ceiling block tag abort r c hw hroom hs hf hv rfl
  obtain ⟨t, hnext, hroom', hrest⟩ := exec_roomRecordOrder _ _ _ hw hf (exec_checkIn room source ceiling s)
    (Device.checkIn_eq (ceiling := ceiling) hroom hs hf hv)
  refine ⟨t, hnext, hroom'.trans (congrArg some ?_), hrest⟩
  rw [Room.suspension_eq]
  simp

/-- The listed moves (R29, R41). -/
theorem stateMove_iff (before after : RoomState) (stayOpen : Bool) (hne : after ≠ before) :
    stateMove before stayOpen after = true ↔
      (after = .outOfOrder ∧ before ≠ .outOfOrder) ∨ (before = .outOfOrder ∧ after = .occupied ∧ stayOpen = true) ∨
        (before = .outOfOrder ∧ after = .vacant ∧ stayOpen = false) := by
  cases before <;> cases after <;> simp_all [stateMove]

theorem Device.setRoomState_eq {d : Device} {room newState : Word} {after : RoomState} {r : Room}
    (hc : RoomState.ofCode newState.toNat = some after) (hroom : room.toNat < 768) (hf : Table.find room.toNat d.rooms = some r) :
    d.setRoomState room newState
      = if after = r.state then (d, .done [natWord r.state.code])
        else if stateMove r.state r.stayOpen after then
          ((d.modifyRoom room.toNat (fun x => { x with state := after })).notable (.stay room.toNat (.state r.state after) 0 0),
            .done [natWord r.state.code])
        else (d, .refusal .wrongState 1) := by
  unfold Device.setRoomState
  rw [hc]
  dsimp only
  rw [Device.withRoom_found hroom hf]
  rfl

/-- Settles O27, by `Device.setRoomState_eq` and `stateMove_iff`. -/
theorem setRoomStateMovesTheRoom : Obligations.SetRoomStateMovesTheRoom := by
  rintro s room newState block tag abort r after may hw hroom hf hstate rfl
  have hc : RoomState.ofCode newState.toNat = some after := by
    rcases hstate with ⟨rfl, rfl⟩ | ⟨rfl, rfl⟩ | ⟨rfl, rfl⟩ <;> rfl
  have howner := Device.setRoomState_eq hc hroom hf
  refine ⟨fun hmay => ?_, fun hmay => ?_⟩
  · have hne : after ≠ r.state := by
      rintro rfl
      rcases hmay with ⟨h1, h2⟩ | ⟨h1, h2, -⟩ | ⟨h1, h2, -⟩
      · exact h2 h1
      all_goals cases h1.symm.trans h2
    rw [if_neg hne, if_pos ((stateMove_iff _ _ _ hne).2 hmay)] at howner
    exact exec_roomRecordOrder _ _ _ hw hf (exec_setRoomState room newState s) howner
  · refine exec_roomsOrder (rooms := s.dev.rooms) hw (exec_setRoomState room newState s) (howner.trans ?_)
    by_cases heq : after = r.state
    · rw [if_pos heq, if_pos heq]
    · rw [if_neg heq, if_neg heq, if_neg (fun h => hmay ((stateMove_iff _ _ _ heq).1 h))]
      rfl

/-! ## READ_ROOM and READ_NODE -/

theorem Device.readRoom_found {d : Device} {room : Word} {r : Room} (hroom : room.toNat < 768)
    (hf : Table.find room.toNat d.rooms = some r) :
    d.readRoom room = (d, .done (
      [natWord r.code, natWord r.state.code, flagWord r.stayOpen, flagWord r.dnd, natWord (r.doorLink.getD 0),
        natWord (r.barLink.getD 0), natWord r.grace, natWord r.guestCount, natWord r.balance, natWord r.ceiling, natWord r.unposted,
        natWord r.openFloor, natWord r.defaultCeiling, natWord r.bar.code, flagWord r.unsettled, flagWord r.orphan,
        natWord ((r.session.map (fun t => t.count)).getD 0)]
      ++ r.slots.map (fun x => natWord (x.item.getD 255 + 256 * x.capacity + 65536 * x.baseline)))) := by
  have hlink : ∀ x : Option Nat, linkWord x = natWord (x.getD 0) := by
    intro x
    cases x <;> rfl
  have htimer : Timer.seconds r.session = (r.session.map (fun t => t.count)).getD 0 := by
    cases r.session <;> rfl
  have hslot : Slot.word = fun x : Slot => natWord (x.item.getD 255 + 256 * x.capacity + 65536 * x.baseline) := by
    funext x
    unfold Slot.word itemCode
    cases x.item <;> rfl
  unfold Device.readRoom
  rw [Device.withRoom_found hroom hf, hlink, hlink, htimer, hslot]

/-- The pending command that READ_NODE shows, where its queue holds no command, and where it is at the head (R145). -/
theorem Segment.shownCommand_empty {g : Segment} (addr : Nat) (hq : g.queue = []) :
    g.shownCommand addr = match g.exchange with
      | none => none
      | some x => if x.addr = addr then x.carried else none := by
  unfold Segment.shownCommand
  rw [hq]
  cases g.exchange <;> rfl

theorem Segment.shownCommand_head {g : Segment} {e : QueueEntry} {rest : List QueueEntry} (hq : g.queue = e :: rest) :
    g.shownCommand e.addr = some (e.command, e.attempts) := by
  unfold Segment.shownCommand
  rw [hq, List.find?_cons_of_pos (by simp)]

/-- The door words in the terms of the statement (R196). -/
theorem doorWords_some (r : Door) :
    doorWords (some r) = [r.settings.admitSet.zeroExtend 32, natWord r.settings.hoursOpen, natWord r.settings.hoursClose,
      natWord r.settings.relock.code, natWord r.settings.releaseTime, natWord r.settings.heldLimit, natWord r.settings.forcedMode.code,
      natWord r.settings.forcedDelay.code, natWord r.settings.heldMode.code, natWord r.settings.heldDelay.code, natWord r.state.code,
      natWord (r.contact.code + (if r.forcedLatch then 256 else 0) + (if r.heldLatch then 512 else 0)
        + (if r.holdUnsent then 1024 else 0)),
      timerWord r.releaseTimer, timerWord r.heldTimer, timerWord r.delayTimer, r.holdEnd.getD 0, r.savedEnd.getD 0] := rfl

/-- The first sixteen words of READ_NODE, and the door words behind them. -/
theorem Device.nodeWords_eq {d : Device} {key seg addr : Nat} (n : Node) (hseg : keySeg key = seg) (haddr : keyAddr key = addr) :
    ∃ head, d.nodeWords key n = head ++ doorWords n.door ∧ head.length = 16 ∧
      head.take 13 = [natWord n.kind.code, natWord n.service, natWord n.room, natWord n.faultMode.code, natWord n.faultDelay.code,
        natWord n.deglitch, natWord n.state.code, natWord n.misses, natWord ((n.lastSeq.map (fun q => q.toNat)).getD 16),
        natWord n.passOver, natWord n.retries, natWord ((n.retryTimer.map (fun t => t.count)).getD 0),
        natWord ((if n.onProbe then 1 else 0) + (if n.faultOpen then 2 else 0)
          + (if addr ∈ (d.segment seg).attention then 4 else 0))] ∧
      head[13]? = some (natWord ((((d.segment seg).shownCommand addr).map (fun x => x.1.code)).getD 0)) ∧
      head[14]? = some (natWord ((((d.segment seg).shownCommand addr).map (fun x => x.2)).getD 0)) ∧
      head[15]? = some (natWord (signalCode n.lastVerdict + 256 * signalCode n.lastTally
        + 65536 * signalCode ((Table.find key d.creds.encoders).bind (fun e => e.lastResult)))) := by
  subst hseg haddr
  refine ⟨_, rfl, rfl, ?_, ?_, ?_, ?_⟩
  · have hseq : (match n.lastSeq with
        | none => (16 : Word)
        | some q => q.zeroExtend 32) = natWord ((n.lastSeq.map (fun q => q.toNat)).getD 16) := by
      cases n.lastSeq with
      | none => rfl
      | some q => exact BitVec.eq_of_toNat_eq (by simp [natWord])
    have htimer : Timer.seconds n.retryTimer = (n.retryTimer.map (fun t => t.count)).getD 0 := by
      cases n.retryTimer <;> rfl
    have hatt : (if (d.segment (keySeg key)).attention.contains (keyAddr key) then 4 else 0)
        = if keyAddr key ∈ (d.segment (keySeg key)).attention then 4 else 0 := by
      simp
    rw [← hseq, ← htimer, ← hatt]
    rfl
  · cases hs : (d.segment (keySeg key)).shownCommand (keyAddr key) with
    | none => rfl
    | some x => rfl
  · cases hs : (d.segment (keySeg key)).shownCommand (keyAddr key) with
    | none => rfl
    | some x => rfl
  · cases Table.find key d.creds.encoders <;> rfl

/-- An order with no effect but its answer. -/
theorem exec_readOrder {s : State} {c : Instr} {kind : OrderKind} {block tag : Word} {abort : Bool} {params : Nat}
    {owner : OrderContext → Device → Device × Reply} {r : Reply} (hw : s.dev.orderInHand kind block tag abort)
    (he : exec c s = commit s (fun t => t.onDevice (fun d => d.runOrder kind params owner)))
    (ho : owner { block := block, tag := tag } s.dev = (s.dev, r)) :
    exec c s = .next { s with dev := { s.dev with walker := s.dev.walker.replied block abort params r } } :=
  exec_roomsOrder (rooms := s.dev.rooms) hw he ho

/-- Settles O28, by `Device.readRoom_found` and `Device.nodeWords_eq`. -/
theorem readsShowTheRecords : Obligations.ReadsShowTheRecords := by
  intro s block tag abort
  refine ⟨fun room r hw hroom hf => exec_readOrder hw (exec_readRoom room s) (Device.readRoom_found hroom hf), ?_⟩
  intro seg addr n key hw h8 h1 h120 hkey hf
  have hseg : keySeg key = seg.toNat := by unfold keySeg; omega
  have haddr : keyAddr key = addr.toNat := by unfold keyAddr; omega
  obtain ⟨head, hwords, hlen, hfields, hcommand, hattempts, hsignals⟩ := s.dev.nodeWords_eq n hseg haddr
  have hhead : ∀ i, i < 16 → (head ++ doorWords n.door)[i]? = head[i]? := fun i hi => List.getElem?_append_left (hlen ▸ hi)
  have hdoor : (head ++ doorWords n.door).drop 16 = doorWords n.door := by rw [← hlen]; exact List.drop_left
  have hback : ∀ i, (head ++ doorWords n.door)[16 + i]? = (doorWords n.door)[i]? := by
    intro i
    rw [← List.getElem?_drop, hdoor]
  refine ⟨s.dev.nodeWords key n, ?_, ?_, ?_, fun hq => ⟨fun x hx hxa c attempts hc => ?_, fun hx => ?_⟩, fun e rest hq he => ?_,
    fun code h0 hg hr => ?_, fun hd => ?_, fun r hd => ?_⟩
  · rw [hwords, List.length_append, hlen]
    cases n.door <;> rfl
  · exact exec_readOrder hw (exec_readNode seg addr s) (Device.withNode_found h8 h1 h120 hkey hf)
  · rw [hwords, List.take_append_of_le_length (by omega), hfields]
  · have hshown : (s.dev.segment seg.toNat).shownCommand addr.toNat = some (c, attempts) := by
      rw [Segment.shownCommand_empty _ hq, hx]
      exact (if_pos hxa).trans hc
    rw [hshown] at hcommand hattempts
    rw [hwords, hhead 13 (by omega), hhead 14 (by omega)]
    exact ⟨hcommand, hattempts⟩
  · have hshown : (s.dev.segment seg.toNat).shownCommand addr.toNat = none := by
      rw [Segment.shownCommand_empty _ hq, hx]
    rw [hshown] at hcommand hattempts
    rw [hwords, hhead 13 (by omega), hhead 14 (by omega)]
    exact ⟨hcommand, hattempts⟩
  · have hshown := Segment.shownCommand_head hq
    rw [he] at hshown
    rw [hshown] at hcommand hattempts
    rw [hwords, hhead 13 (by omega), hhead 14 (by omega)]
    exact ⟨hcommand, hattempts⟩
  · have hcode : code = signalCode := by
      funext x
      match x with
      | none => exact h0
      | some .grant => exact hg
      | some .refuse => exact hr
    rw [hwords, hhead 15 (by omega), hcode]
    exact hsignals
  · rw [hwords, hdoor, hd]
    rfl
  · rw [hd] at hwords hdoor hback
    rw [hwords, hdoor]
    refine ⟨rfl, hback 10, hback 11, ?_, hback 15, hback 16⟩
    have hdrop : (head ++ doorWords (some r)).drop 28 = (doorWords (some r)).drop 12 :=
      List.drop_drop.symm.trans (congrArg (List.drop 12) hdoor)
    rw [hdrop]
    show [r.releaseTimer, r.heldTimer, r.delayTimer].map timerWord = _
    refine List.map_congr_left (fun t _ => ?_)
    cases t <;> rfl

end Sys2Proof.Machine
end

section
/-! CHECK_OUT (section 2.5) and the room withdrawal (1.7). -/

namespace Sys2Proof.Machine

/-! ## The serials withdrawn -/

/-- The GUEST serials of a room that pass a test, in a table of 32-bit serials. -/
theorem Device.mem_guestSerials {d : Device} (hwf : Table.wf d.creds.entries = true) (hword : ∀ p ∈ d.creds.entries, p.1 < 4294967296)
    (room : Nat) (f : Nat → Entry → Bool) (serial : Word) :
    serial ∈ d.guestSerials room f ↔
      ∃ e, d.entryOf serial = some e ∧ e.kind = .guest ∧ e.room = room ∧ f serial.toNat e = true := by
  unfold Device.guestSerials Table.keysWhere
  simp only [List.mem_map, List.mem_filter, Bool.and_eq_true, decide_eq_true_eq]
  constructor
  · rintro ⟨k, ⟨p, ⟨hmem, ⟨hk, hr⟩, hf⟩, rfl⟩, rfl⟩
    have hnat : (natWord p.1).toNat = p.1 := toNat_natWord (hword p hmem)
    refine ⟨p.2, ?_, hk, hr, by rw [hnat]; exact hf⟩
    unfold Device.entryOf
    rw [hnat]
    exact Table.find_of_mem hwf hmem
  · rintro ⟨e, he, hk, hr, hf⟩
    exact ⟨serial.toNat, ⟨(serial.toNat, e), ⟨Table.mem_of_find he, ⟨hk, hr⟩, hf⟩, rfl⟩, natWord_toNat serial⟩

/-- They rise. -/
theorem Device.guestSerials_rise {d : Device} (hwf : Table.wf d.creds.entries = true) (hword : ∀ p ∈ d.creds.entries, p.1 < 4294967296)
    (room : Nat) (f : Nat → Entry → Bool) : (d.guestSerials room f).Pairwise (fun a b => a.toNat < b.toNat) := by
  unfold Device.guestSerials Table.keysWhere
  rw [List.map_map, List.pairwise_map]
  refine List.Pairwise.imp_of_mem ?_ (((Table.wf_iff _).1 hwf).filter _)
  intro p q hp hq hlt
  simp only [Function.comp]
  rw [toNat_natWord (hword p (List.mem_filter.1 hp).1), toNat_natWord (hword q (List.mem_filter.1 hq).1)]
  exact hlt

/-- Rising serials with the right members are the GUEST serials of a room that pass a test. -/
theorem Device.guestSerials_eq {d : Device} (hwf : Table.wf d.creds.entries = true) (hword : ∀ p ∈ d.creds.entries, p.1 < 4294967296)
    {room : Nat} {f : Nat → Entry → Bool} {serials : List Word} (hrise : serials.Pairwise (fun a b => a.toNat < b.toNat))
    (hmem : ∀ serial, serial ∈ serials ↔
      ∃ e, d.entryOf serial = some e ∧ e.kind = .guest ∧ e.room = room ∧ f serial.toNat e = true) :
    d.guestSerials room f = serials :=
  Word.sorted_ext _ _ (d.guestSerials_rise hwf hword room f) hrise
    (fun serial => (d.mem_guestSerials hwf hword room f serial).trans (hmem serial).symm)

/-- The withdrawal retires the cards in ENCODING first (R23). -/
theorem Device.withdrawn_eq {d : Device} (hwf : Table.wf d.creds.entries = true) (hword : ∀ p ∈ d.creds.entries, p.1 < 4294967296)
    {room : Nat} {cancelled held : List Word}
    (hc : ∀ serial, serial ∈ cancelled ↔ ∃ e, d.entryOf serial = some e ∧ e.kind = .guest ∧ e.room = room ∧ e.state = .encoding)
    (hh : ∀ serial, serial ∈ held ↔ ∃ e, d.entryOf serial = some e ∧ e.kind = .guest ∧ e.room = room ∧ e.state ≠ .encoding)
    (hcr : cancelled.Pairwise (fun a b => a.toNat < b.toNat)) (hhr : held.Pairwise (fun a b => a.toNat < b.toNat)) :
    d.withdrawn room = cancelled ++ held := by
  unfold Device.withdrawn
  rw [Device.guestSerials_eq hwf hword hcr (by simpa only [decide_eq_true_eq] using hc),
    Device.guestSerials_eq hwf hword hhr (by simpa only [decide_eq_true_eq] using hh)]

/-! ## The room closed -/

/-- A room closed at check-out, the minibar by the suspension rule over an empty folio (R38, R39). -/
theorem Room.checkedOut_eq {r : Room} {barWord : Nat} (h : barWord = if r.bar.inSession then 1 else if r.unsettled then 2 else 0) :
    r.checkedOut = { r with
      state := .vacant, stayOpen := false, dnd := false, balance := 0, unposted := 0, ceiling := r.defaultCeiling
      bar := if r.defaultCeiling < r.openFloor then .suspended else .locked
      unsettled := false, orphan := r.orphan || decide (barWord ≠ 0), session := none, unlatchPending := false } := by
  have hiff : (r.defaultCeiling - 0 < r.openFloor ∨ 0 < 0) ↔ r.defaultCeiling < r.openFloor := by omega
  have hbar : (if r.defaultCeiling < r.openFloor then BarState.suspended else .locked)
      = if r.defaultCeiling - 0 < r.openFloor ∨ 0 < 0 then .suspended else .locked := if_congr hiff.symm rfl rfl
  have hrest : ∀ x : Room, x.restState = if x.ceiling - x.balance < x.openFloor ∨ 0 < x.unposted then .suspended else .locked := by
    intro x
    unfold Room.restState
    simp
  have hword : barWord = r.minibarWord := h
  unfold Room.checkedOut Room.closeSession
  rw [hrest, hbar, hword]

/-- The segments once the minibar of a room in session is handed RELOCK (R39). -/
def orphanSegments (r : Room) (segments : List Segment) : List Segment :=
  match r.barLink with
  | some key => if r.bar.inSession then placedFor segments key [.relock] else segments
  | none => segments

/-- A minibar orphaned: RELOCK placed and the reservation given back where it is in session (R39). -/
theorem Device.orphanBar_eq {d : Device} {r : Room}
    (h : r.bar.inSession = true → ∀ key, r.barLink = some key → ∃ n, d.reachable key n) :
    d.orphanBar r = { d with
      segments := orphanSegments r d.segments, journal := (if r.bar.inSession then d.giveBack else d).journal } := by
  unfold Device.orphanBar orphanSegments Device.handBar
  cases hin : r.bar.inSession with
  | false =>
    cases r.barLink <;> rfl
  | true =>
    cases hl : r.barLink with
    | none => rfl
    | some key =>
      obtain ⟨n, hre⟩ := h hin key hl
      dsimp only
      rw [Device.hand_placed _ hre]
      rfl

/-- A record's journal depends on the journal and the clock alone. -/
theorem Device.record_journal_congr {d d' : Device} (hj : d.journal = d'.journal) (hc : d.clock = d'.clock) (body : RecordBody)
    (flags : RecordFlags) (cls : RecordClass) : (d.record body flags cls).journal = (d'.record body flags cls).journal := by
  unfold Device.record
  rw [hj, hc]

theorem Device.checkOut_eq {d u : Device} {room : Word} {r : Room} {serials : List Word} {settled : List Settlement} (ctx : OrderContext)
    (hroom : room.toNat < 768) (hf : Table.find room.toNat d.rooms = some r) (hv : r.state ≠ .vacant)
    (hserials : d.withdrawn room.toNat = serials) (hu : d.retireAll .revoked ctx.tag serials = (u, settled)) :
    d.checkOut room ctx
      = (((u.orphanBar r).modifyRoom room.toNat Room.checkedOut).record (.stay room.toNat .checkOut r.balance r.unposted)
          { barWord1 := decide (r.minibarWord = 1), barWord2 := decide (r.minibarWord = 2) } .notable,
        { code := .done
          words := [natWord r.balance, natWord r.unposted, natWord serials.length, natWord r.minibarWord], cancels := settled }) := by
  unfold Device.checkOut
  rw [Device.withRoom_found hroom hf, if_neg hv]
  dsimp only
  rw [hserials, hu]

/-! ## The obligation -/

/-- NOTABLE records leave the clock alone. -/
theorem Device.foldl_notable_clock {α : Type} (f : α → RecordBody) (l : List α) (d : Device) :
    (l.foldl (fun d x => d.notable (f x)) d).clock = d.clock := by
  induction l generalizing d with
  | nil => rfl
  | cons x rest ih => exact (ih _).trans rfl

/-- What CHECK_OUT leaves behind the withdrawal `u` (R38, R39). -/
theorem checkOut_leaves {s : State} {u : Device} {room block tag : Word} {abort : Bool} {r : Room} {serials : List Word}
    {settled : List Settlement} {barWord : Nat} (hw : s.dev.orderInHand .checkOut block tag abort) (hroom : room.toNat < 768)
    (hf : Table.find room.toNat s.dev.rooms = some r) (hv : r.state ≠ .vacant) (hserials : s.dev.withdrawn room.toNat = serials)
    (hu : s.dev.retireAll .revoked tag serials = (u, settled)) (hreports : u.reports = []) (hwalker : u.walker = s.dev.walker)
    (hregs : u.regs = s.dev.regs)
    (hrooms : ∀ i, Table.find i u.rooms = (Table.find i s.dev.rooms).map (fun r =>
      if i = room.toNat then { r with guestCount := r.guestCount - serials.length } else r))
    (hbar : r.bar.inSession = true → ∀ key, r.barLink = some key → ∃ n, u.reachable key n)
    (hword : barWord = if r.bar.inSession then 1 else if r.unsettled then 2 else 0) :
    ∃ t, exec (.checkOut room) s = .next t ∧
      (∀ other, other ≠ room.toNat → Table.find other t.dev.rooms = Table.find other u.rooms) ∧
      Table.find room.toNat t.dev.rooms = some { r with
        state := .vacant, stayOpen := false, dnd := false, guestCount := r.guestCount - serials.length
        balance := 0, unposted := 0, ceiling := r.defaultCeiling
        bar := if r.defaultCeiling < r.openFloor then .suspended else .locked
        unsettled := false, orphan := r.orphan || decide (barWord ≠ 0), session := none, unlatchPending := false } ∧
      t.dev.segments = orphanSegments r u.segments ∧
      t.dev.journal = ((if r.bar.inSession then u.giveBack else u).record (.stay room.toNat .checkOut r.balance r.unposted)
        { barWord1 := decide (barWord = 1), barWord2 := decide (barWord = 2) } .notable).journal ∧
      t = { s with dev := { u with
        regs := { s.dev.regs with status := stallStatus s.dev.journal t.dev.journal s.dev.regs.status }
        walker := s.dev.walker.replied block abort 1
          { code := .done, words := [natWord r.balance, natWord r.unposted, natWord serials.length, natWord barWord]
            cancels := settled }
        rooms := t.dev.rooms
        segments := t.dev.segments
        journal := t.dev.journal } } := by
  have howner := Device.checkOut_eq { block := block, tag := tag } hroom hf hv hserials hu
  rw [Device.orphanBar_eq hbar] at howner
  have hminibar : r.minibarWord = barWord := hword.symm
  rw [hminibar] at howner
  refine ⟨_, (exec_checkOut room s).trans (commit_order hw.1 howner hreports), fun other ho => ?_, ?_, rfl, ?_, ?_⟩
  · dsimp only
    exact Table.find_modify_ne _ _ ho
  · refine (Table.find_modify_self room.toNat Room.checkedOut u.rooms).trans ?_
    rw [hrooms, hf, Option.map_some, if_pos rfl]
    exact congrArg some (Room.checkedOut_eq (r := { r with guestCount := r.guestCount - serials.length }) hword)
  · have hclock : u.clock = (if r.bar.inSession then u.giveBack else u).clock := by
      cases r.bar.inSession <;> rfl
    refine Device.record_journal_congr ?_ ?_ _ _ _
    · rfl
    · exact hclock
  · rw [← hregs, ← hwalker]
    rfl

/-- Settles O26, by `checkOut_leaves` behind the withdrawal of cards that are written, and of any. -/
theorem checkOutClosesTheStay : Obligations.CheckOutClosesTheStay := by
  refine ⟨?_, ?_⟩
  · intro s room block tag abort r serials barWord hw hroom hf hv hwf hword hnone hmem hrise hbar hbw
    have hserials : s.dev.withdrawn room.toNat = serials := by
      refine (Device.withdrawn_eq hwf hword (cancelled := []) (held := serials) ?_ ?_ List.Pairwise.nil hrise).trans rfl
      · intro serial
        refine ⟨fun h => (by cases h), ?_⟩
        rintro ⟨e, he, hk, hr, hst⟩
        exact absurd hst (hnone serial e he hk hr)
      · intro serial
        refine (hmem serial).trans ⟨?_, ?_⟩
        · rintro ⟨e, he, hk, hr⟩
          exact ⟨e, he, hk, hr, hnone serial e he hk hr⟩
        · rintro ⟨e, he, hk, hr, -⟩
          exact ⟨e, he, hk, hr⟩
    have hnodup : serials.Nodup := hrise.imp (fun {a b} h hab => by rw [hab] at h; exact Nat.lt_irrefl _ h)
    obtain ⟨u, hu, hentry, hdeny, hrooms, hjournal, hframe⟩ := Device.retireAll_written serials s.dev room.toNat tag hnodup
      (fun x hx => by
        obtain ⟨e, he, hk, hr⟩ := (hmem x).1 hx
        exact ⟨e, he, hk, hr, hnone x e he hk hr⟩)
    have hframe' : u.reports = s.dev.reports ∧ u.walker = s.dev.walker ∧ u.regs = s.dev.regs ∧ u.clock = s.dev.clock
        ∧ u.segments = s.dev.segments ∧ u.nodes = s.dev.nodes := by
      rw [hframe]
      exact ⟨rfl, rfl, rfl, rfl, rfl, rfl⟩
    obtain ⟨hreports, hwalker, hregs, hclock, hsegments, hnodes⟩ := hframe'
    have hreach : r.bar.inSession = true → ∀ key, r.barLink = some key → ∃ n, u.reachable key n := by
      intro hin key hl
      obtain ⟨n, hre⟩ := hbar hin key hl
      refine ⟨n, ?_⟩
      unfold Device.reachable Device.segment
      rw [hnodes, hsegments]
      exact hre
    obtain ⟨t, hnext, hother, hroom', hsegs, hjour, ht⟩ := checkOut_leaves hw hroom hf hv hserials hu (hreports.trans hw.2) hwalker
      hregs hrooms hreach hbw
    have hcreds : t.dev.creds = u.creds := by rw [ht]
    refine ⟨t, hnext, fun serial => ?_, ?_, fun other ho => ?_, hroom', ?_, ?_, ?_, ?_⟩
    · rw [← hentry]
      unfold Device.entryOf
      rw [hcreds]
    · rw [hcreds, hdeny]
    · rw [hother other ho, hrooms]
      cases Table.find other s.dev.rooms with
      | none => rfl
      | some q => exact congrArg some (if_neg ho)
    · rw [hsegs, hsegments]
      unfold orphanSegments
      cases r.barLink <;> rfl
    · rintro revoked closed rfl rfl
      rw [hjour]
      refine Device.record_journal_congr ?_ ?_ _ _ _
      · cases r.bar.inSession
        · exact hjournal
        · exact congrArg (fun j : Journal => { j with reserved := j.reserved - 1 }) hjournal
      · have hfold := Device.foldl_notable_clock (fun serial => RecordBody.card serial .revoked room.toNat tag) serials s.dev
        cases r.bar.inSession
        · exact hclock.trans hfold.symm
        · exact hclock.trans hfold.symm
    · rw [ht]
      rfl
    · have hentries : u.creds = { s.dev.creds with entries := t.dev.creds.entries, deny := t.dev.creds.deny } := by
        rw [hcreds]
        exact congrArg Device.creds hframe
      have hwalk : t.dev.walker = s.dev.walker.replied block abort 1
          (.done [natWord r.balance, natWord r.unposted, natWord serials.length, natWord barWord]) := by
        rw [ht]
        rfl
      rw [hwalk]
      refine ht.trans ?_
      rw [← hentries, hframe]
      rfl
  · intro s room block tag abort r cancelled held barWord hw hroom hf hv hwf hword hc hh hcr hhr hstand hbar hbw
    have hserials := Device.withdrawn_eq hwf hword hc hh hcr hhr
    have hretired := Device.retireAll_retiredAll .revoked tag (cancelled ++ held) s.dev hstand
    obtain ⟨-, hreports, hwalker, -, hregs, hreach, -, -, -⟩ := Device.retiredAll_frame _ _ _ _ _ _ hretired
    have hrooms := retiredAll_rooms .revoked tag room.toNat _ _ _ _ hretired (fun x hx => by
      rcases List.mem_append.1 hx with hx | hx
      · obtain ⟨e, he, hk, hr, -⟩ := (hc x).1 hx
        exact ⟨e, he, hk, hr⟩
      · obtain ⟨e, he, hk, hr, -⟩ := (hh x).1 hx
        exact ⟨e, he, hk, hr⟩)
    obtain ⟨t, hnext, hother, hroom', hsegs, hjour, ht⟩ := checkOut_leaves hw hroom hf hv hserials rfl (hreports.trans hw.2) hwalker hregs
      hrooms (fun hin key hl => (hbar hin key hl).imp fun n hre => hreach key n hre) hbw
    refine ⟨t, _, _, hnext, hretired, hother, hroom', hsegs.trans ?_, hjour, ht⟩
    unfold orphanSegments
    cases r.barLink <;> rfl

end Sys2Proof.Machine
end

section
/-! The doors: coming to rest, the orders of chapter 4 and the expiry of the door timers (O29 to O32). -/

namespace Sys2Proof.Machine

open Sys2Proof

/-! ## Coming to rest -/

/-- A held timer started where it is stopped, as a case on the timer. -/
theorem startIfStopped_eq (t : Option Timer) : startIfStopped t = if t = none then Timer.started else t := by
  cases t <;> rfl

/-- A release runs that the node itself ends. -/
theorem Door.timedRelease_iff (r : Door) : r.timedRelease = true ↔ r.releaseTimer ≠ none ∧ r.settings.relock = .onTimer := by
  unfold Door.timedRelease
  cases r.releaseTimer <;> simp

/-- Coming to rest at a node that takes commands, no latch set. -/
theorem Door.rest_unlatched {r : Door} (hf : r.forcedLatch = false) (hh : r.heldLatch = false) :
    r.rest false = match r.contact with
      | .opened => { door := { r with state := .opened, heldTimer := startIfStopped r.heldTimer } }
      | .closed =>
        if r.timedRelease then { door := { r with state := .released, heldTimer := none } }
        else { door := { r with state := .locked, releaseTimer := none, heldTimer := none }, commands := [.relock] }
      | .unseen => { door := { r with state := .unknown, releaseTimer := none, heldTimer := none }, commands := [.relock] } := by
  unfold Door.rest
  rw [hf, hh]
  rfl

/-- Settles O29, one case of R66 at a time. -/
theorem doorRestsByTheFirstCase : Obligations.DoorRestsByTheFirstCase := by
  intro r
  refine ⟨rfl, fun hf => ?_, fun hf hh => ?_, fun hf hh => ⟨fun hc running hr => ?_, fun hc ht hm => ?_, fun hc hn => ?_, fun hc => ?_⟩⟩
  · simp [Door.rest, hf]
  · simp [Door.rest, hf, hh]
  · rw [Door.rest_unlatched hf hh, hc, hr, ← startIfStopped_eq]
  · rw [Door.rest_unlatched hf hh, hc]
    exact if_pos ((Door.timedRelease_iff r).2 ⟨ht, hm⟩)
  · rw [Door.rest_unlatched hf hh, hc]
    exact if_neg (fun ht => hn ((Door.timedRelease_iff r).1 ht))
  · rw [Door.rest_unlatched hf hh, hc]

/-! ## Orders to a door -/

/-- What the order of a door command does at the door its address names, the action being one of the three. -/
theorem Device.doorCommand_found {d : Device} {seg addr endMinute : Word} {key : Nat} {n : Node} {r : Door}
    (hdoor : d.doorOf seg addr = some (key, n, r)) (hout : n.state.isOut = false) :
    d.doorCommand seg addr 1 endMinute = (if r.state = .holdOpen ∨ r.state = .emergency then (d, .refusal .wrongState 2)
      else d.doneAtDoor key n r r.grant false) ∧
    d.doorCommand seg addr 2 endMinute = (match r.orderRelock false with
      | none => (d, .refusal .wrongState 2)
      | some o => d.doneAtDoor key n r o false) ∧
    d.doorCommand seg addr 3 endMinute = d.commandHold key n r endMinute := by
  unfold Device.doorCommand
  simp only [hdoor, hout]
  refine ⟨by simp, ?_, by simp⟩
  cases r.orderRelock false <;> simp

/-- An outcome carried out by an order at a node that takes commands. -/
theorem Device.doneAtDoor_eq {d : Device} {key : Nat} {n : Node} (r : Door) (o : DoorOut) (clamped : Bool) (hout : n.state.isOut = false) :
    d.doneAtDoor key n r o clamped = (d.applyDoor key false o,
      { code := .done, clamped := clamped, words := [natWord r.state.code, natWord o.door.state.code] }) := by
  unfold Device.doneAtDoor
  rw [hout]

/-- Settles O30: the grant of R67 and the relock of R75, carried out at the door. -/
theorem doorReleaseAndRelock : Obligations.DoorReleaseAndRelock := by
  intro s seg addr endMinute block tag abort key n r hw h8 h1 h120 hkey hre hd
  have hout := hre.2.1
  obtain ⟨hrelease, hrelock, -⟩ := Device.doorCommand_found (endMinute := endMinute) (Device.doorOf_reachable h8 h1 h120 hkey hre hd) hout
  refine ⟨fun freed after events duration hduration hfreed hcase => ?_, fun hst => ?_, fun after events hcase => ?_, fun hst => ?_⟩
  · have hgives : r.grantGives { door := after, commands := [.release duration], events := events } := by
      have hfreed' : freed = { r with
          state := if r.contact = .opened then .opened else .released
          releaseTimer := some { count := 0, due := false }
          heldTimer := if r.contact = .opened then some { count := 0, due := false } else r.heldTimer } := by
        rw [hfreed]
        split <;> rfl
      refine ⟨freed, duration, hduration, hfreed', ?_⟩
      rcases hcase with ⟨hst, rfl, rfl⟩ | ⟨hst, rfl, rfl⟩ | ⟨hst, rfl, rfl⟩
      · exact .inl ⟨hst, rfl⟩
      · exact .inr (.inl ⟨hst, rfl⟩)
      · exact .inr (.inr ⟨hst, rfl⟩)
    obtain ⟨hgrant, -, -, hnh, hne⟩ := Door.grant_gives hgives
    refine exec_orderMovesDoor { door := after, commands := [.release duration], events := events } _ _ hw hre
      (exec_doorCommandRelease seg addr 1 endMinute s) ?_
    refine hrelease.trans ?_
    rw [if_neg (by simp [hnh, hne]), hgrant, Device.doneAtDoor_eq _ _ _ hout]
    rfl
  · exact exec_readOrder hw (exec_doorCommandRelease seg addr 1 endMinute s) (hrelease.trans (if_pos hst))
  · have horder : r.orderRelock false = some { door := after, commands := [.relock], events := events } := by
      rcases hcase with ⟨hst, rfl, rfl⟩ | ⟨hst, rfl, rfl⟩ | ⟨hst, rfl, rfl⟩ | ⟨hst | hst | hst | hst, rfl, rfl⟩
      case inr.inr.inl =>
        unfold Door.orderRelock
        rw [hst, rest_after]
        rfl
      all_goals
        unfold Door.orderRelock
        rw [hst]
    refine exec_orderMovesDoor { door := after, commands := [.relock], events := events } _ _ hw hre
      (exec_doorCommandRelock seg addr 2 endMinute s) ?_
    refine hrelock.trans ?_
    rw [horder]
    exact Device.doneAtDoor_eq _ _ _ hout
  · refine exec_readOrder hw (exec_doorCommandRelock seg addr 2 endMinute s) (hrelock.trans ?_)
    have hnone : r.orderRelock false = none := by
      unfold Door.orderRelock
      rw [hst]
    rw [hnone]
    rfl

/-- What a HOLD does at a door, the clock valid and no storm at a shore gate. -/
theorem Device.commandHold_eq {d : Device} {key : Nat} {n : Node} {r : Door} {endMinute hold : Word} {early : Bool}
    (hvalid : d.clock.valid = true) (hstorm : n.kind = .shoreGate → d.storm.active = false)
    (hearly : early = decide (endMinute.toNat ≤ d.clock.minute.toNat))
    (hhold : hold = (if early then d.clock.minute + 1 else endMinute)) :
    d.commandHold key n r endMinute = match r.orderHold hold with
      | none => (d, .refusal .wrongState 2)
      | some o => d.doneAtDoor key n r o early := by
  have hopen : (!d.clock.valid || (decide (n.kind = .shoreGate) && d.storm.active)) = false := by
    by_cases hk : n.kind = .shoreGate
    · simp [hvalid, hstorm hk]
    · simp [hvalid, hk]
  have hend : holdEndMinute d.clock.minute endMinute = (hold, early) := by
    unfold holdEndMinute
    rw [hhold, hearly]
    by_cases h : endMinute.toNat ≤ d.clock.minute.toNat
    · rw [if_pos h, decide_eq_true h]; rfl
    · rw [if_neg h, decide_eq_false h]; rfl
  unfold Device.commandHold
  rw [hopen, hend]
  rfl

/-- Settles O31: a HOLD by the state of the door, and CLEAR_ALARM's way to rest. -/
theorem doorHoldAndClearAlarm : Obligations.DoorHoldAndClearAlarm := by
  intro s seg addr endMinute block tag abort key n r h8 h1 h120 hkey hre hd
  have hout := hre.2.1
  have hdoor := Device.doorOf_reachable h8 h1 h120 hkey hre hd
  refine ⟨fun hw hvalid hstorm => ?_, fun hw cleared o events hcleared hcase => ?_⟩
  · have hcommand := (Device.doorCommand_found (endMinute := endMinute) hdoor hout).2.2
    refine ⟨fun after commands hold early hearly hhold hcase => ?_, fun hst => ?_⟩
    · have horder : r.orderHold hold = some { door := after, commands := commands, events := [.holdStart] } := by
        rcases hcase with ⟨hst | hst | hst | hst, rfl, rfl⟩ | ⟨hst, rfl, rfl⟩ | ⟨hst, rfl, rfl⟩ <;>
          simp [Door.orderHold, hst, Door.stopTimers]
      refine exec_orderMovesDoor { door := after, commands := commands, events := [.holdStart] } _ _ hw hre
        (exec_doorCommandHold seg addr 3 endMinute s) ?_
      refine (hcommand.trans (Device.commandHold_eq hvalid hstorm hearly hhold)).trans ?_
      rw [horder]
      exact Device.doneAtDoor_eq _ _ _ hout
    · refine exec_readOrder hw (exec_doorCommandHold seg addr 3 endMinute s) ?_
      refine (hcommand.trans (Device.commandHold_eq hvalid hstorm rfl rfl)).trans ?_
      have hnone : ∀ hold, r.orderHold hold = none := by
        intro hold
        rcases hst with hst | hst <;> (unfold Door.orderHold; rw [hst])
      rw [hnone]
      rfl
  · subst hcleared
    have hclear : r.clearAlarm false = { door := o.door, commands := o.commands, events := events } := by
      unfold Door.clearAlarm
      dsimp only
      rcases hcase with ⟨hst, rfl, rfl⟩ | ⟨hnf, hnh, rfl, rfl⟩
      · obtain ⟨hevents, halarm⟩ := Door.rest_silent
          { r with forcedLatch := false, heldLatch := false, delayTimer := none, heldTimer := none } false
        rw [if_pos (by simpa using hst), DoorOut.withEvent_silent _ _ hevents halarm]
      · rw [if_neg (by simp [hnf, hnh])]
        rfl
    refine exec_orderMovesDoor { door := o.door, commands := o.commands, events := events } _ _ hw hre (exec_clearAlarm seg addr s) ?_
    unfold Device.clearAlarm
    rw [hdoor]
    dsimp only
    rw [hout, hclear]
    exact Device.doneAtDoor_eq _ _ _ hout

/-! ## The timers of a door -/

/-- A timer that is due at its expiry. -/
theorem Timer.isDue_of_some {t : Option Timer} {count : Nat} (h : t = some { count := count, due := true }) : Timer.isDue t = true := by
  rw [h]; rfl

/-- Settles O32, one timer at a time. -/
theorem doorTimersExpire : Obligations.DoorTimersExpire := by
  rintro s seg addr key n r hs rfl hre hd
  refine ⟨fun count after commands htimer hcase => ?_, fun count after htimer hst => ⟨fun hmode hafter => ?_, fun hmode hafter => ?_⟩,
    fun count o htimer hst ho => ?_, fun hdue => ?_, fun hdue => ?_, fun hdue => ?_⟩
  · have hexpiry : r.releaseExpiry = { door := after, commands := commands } := by
      unfold Door.releaseExpiry
      rcases hcase with ⟨hst, rfl, rfl⟩ | ⟨hst, rfl, rfl⟩ | ⟨hst | hst, rfl, rfl⟩
      · rw [hst]
      · rw [hst]
      all_goals
        rw [hst]
        cases r.settings.relock <;> simp
    have h := exec_eventMovesDoor _ hs hre hd (exec_releaseTimerExpiry seg addr s)
    rwa [if_pos (Timer.isDue_of_some htimer), hexpiry] at h
  · have hraise : r.heldExpiry = { door := after, commands := [.signal], events := [.held], alarm := true } := by
      unfold Door.heldExpiry Door.raiseHeld
      rw [if_pos hst, hafter]
      dsimp only
      cases hm : r.settings.heldMode with
      | ignore => exact absurd hm hmode
      | _ => simp
    have h := exec_eventMovesDoor _ hs hre hd (exec_heldTimerExpiry seg addr s)
    rwa [if_pos (Timer.isDue_of_some htimer), hraise] at h
  · have hraise : r.heldExpiry = { door := after } := by
      unfold Door.heldExpiry Door.raiseHeld
      rw [if_pos hst, hafter]
      dsimp only
      rw [hmode]
      rfl
    have h := exec_eventMovesDoor _ hs hre hd (exec_heldTimerExpiry seg addr s)
    rwa [if_pos (Timer.isDue_of_some htimer), hraise] at h
  · have hclear : r.delayExpiry n.state.isOut = { door := o.door, commands := o.commands, events := [.cleared] } := by
      obtain ⟨hevents, halarm⟩ := Door.rest_silent { r with delayTimer := none } false
      unfold Door.delayExpiry
      rw [hre.2.1, if_pos (by simpa using hst), DoorOut.withEvent_silent _ _ hevents halarm, ho]
    have h := exec_eventMovesDoor _ hs hre hd (exec_alarmDelayExpiry seg addr s)
    rwa [if_pos (Timer.isDue_of_some htimer), hclear] at h
  · exact exec_eventLeavesDoor _ hs hre hd (if_neg (by simp [hdue])) (exec_releaseTimerExpiry seg addr s)
  · exact exec_eventLeavesDoor _ hs hre hd (if_neg (by simp [hdue])) (exec_heldTimerExpiry seg addr s)
  · exact exec_eventLeavesDoor _ hs hre hd (if_neg (by simp [hdue])) (exec_alarmDelayExpiry seg addr s)

end Sys2Proof.Machine
end

section
/-! The minibars: slots and tariff, and the limit of a session (O34, O35). -/

namespace Sys2Proof.Machine

open Sys2Proof

/-! ## SET_SLOTS and SET_TARIFF -/

/-- Item codes below 64 and the code 255 of no item pass the test of SET_SLOTS. -/
theorem slotsOk_of_codes {slots : List (Word × Word)} (h : ∀ p ∈ slots, p.1.toNat < 64 ∨ p.1.toNat = 255) : slotsOk slots = true := by
  refine List.all_eq_true.2 fun p hp => ?_
  unfold itemOf
  rcases h p hp with h' | h' <;> simp [h']

/-- A slot's capacity is clamped where it is 0 or above 15. -/
theorem capacityClamped_eq (slots : List (Word × Word)) : slots.any (fun p => decide (p.2.toNat < 1 ∨ 15 < p.2.toNat)) =
    slots.any (fun p => p.2.toNat = 0 || decide (15 < p.2.toNat)) := by
  refine congrArg (List.any slots) (funext fun p => ?_)
  simp

/-- The state after an order whose owner sets the tariff alone. -/
theorem exec_tariffOrder {s : State} {c : Instr} {kind : OrderKind} {block tag : Word} {abort : Bool} {params : Nat}
    {owner : OrderContext → Device → Device × Reply} {tariff : Tariff} {r : Reply} (hw : s.dev.orderInHand kind block tag abort)
    (he : exec c s = commit s (fun t => t.onDevice (fun d => d.runOrder kind params owner)))
    (ho : owner { block := block, tag := tag } s.dev = ({ s.dev with tariff := tariff }, r)) :
    exec c s = .next { s with dev := { s.dev with tariff := tariff, walker := s.dev.walker.replied block abort params r } } := by
  rw [he, commit_order hw.1 ho hw.2]
  simp only [stallStatus_of_load_le _ (Nat.le_refl _)]

/-- Settles O34: the slots one by one, and the tariff entry that the index names. -/
theorem slotsAndTariff : Obligations.SlotsAndTariff := by
  intro s block tag abort
  refine ⟨fun room slots r hw hroom hf hlen hlen' hcodes => ?_, fun index value taxClass hw =>
    ⟨fun old hi hc ho => ?_, fun old hi ho => ?_⟩⟩
  · have hset : s.dev.setSlots room slots = (if r.bar.inSession then (s.dev, .refusal .wrongState 0) else
        (s.dev.modifyRoom room.toNat (fun r => { r with slots := resetSlots r.slots slots }),
          { code := .done, clamped := slots.any (fun p => p.2.toNat = 0 || decide (15 < p.2.toNat)) })) := by
      unfold Device.setSlots
      rw [if_neg (by simp [slotsOk_of_codes hcodes, hroom]), Device.withRoom_found hroom hf, capacityClamped_eq]
    refine ⟨fun hbar => ?_, fun hbar => ?_⟩
    · obtain ⟨t, ht, hroomAfter, hrest⟩ := exec_roomOrder (fun _ x => x.setSlots room slots) _ _ hw hf (exec_setSlots room slots s)
        (hset.trans (if_neg (by simp [hbar])))
      refine ⟨t, ht, ?_, hrest⟩
      rw [hroomAfter, resetSlots_eq _ _ (hlen'.trans hlen.symm) hcodes]
    · exact exec_readOrder hw (exec_setSlots room slots s) (hset.trans (if_pos hbar))
  · refine exec_tariffOrder hw (exec_setTariff 0 index value taxClass s) ?_
    show s.dev.setTariff 0 index value taxClass = _
    unfold Device.setTariff
    rw [if_pos rfl, if_neg (by simp; omega), clampTop_eq, List.getD_eq_getElem?_getD, ho]
    rfl
  · refine exec_tariffOrder hw (exec_setTariff 1 index value taxClass s) ?_
    show s.dev.setTariff 1 index value taxClass = _
    unfold Device.setTariff
    rw [if_neg (by decide), if_pos rfl, if_neg (by omega), clampTop_eq, List.getD_eq_getElem?_getD, ho]
    rfl

/-! ## The limit of a session -/

/-- A record admitted on a reservation leaves the load as it was: what was reserved is held (R132). -/
theorem Journal.admit_reserved_load {j : Journal} {r : HeldRecord} (hc : r.cls = .reserved) (h0 : 0 < j.reserved) :
    (j.admitRecord r).load = j.load := by
  rcases j.admit_cases r with ⟨q, hm, -⟩ | ⟨-, -, -, h⟩ | ⟨-, hn, -, -⟩ | ⟨-, -, -, hn, -, -, -, -⟩ | ⟨-, hn, -, -, -⟩
  · exact absurd (mergeNewest_routine hm) (by simp [hc])
  · rw [h]
    simp only [Journal.load, Journal.enter_frame, List.length_append, List.length_singleton]
    omega
  all_goals exact absurd ⟨hc, h0⟩ hn

/-- A session's end (R91): no session, no UNLATCH pending, and the minibar as the suspension rule sets it. -/
theorem Room.closeSession_eq (r : Room) : r.closeSession = { r with
    session := none, unlatchPending := false
    bar := if r.ceiling - r.balance < r.openFloor ∨ 0 < r.unposted then .suspended else .locked } := by
  unfold Room.closeSession Room.restState
  simp

/-- A session that ends unsettled with RELOCK handed at a node that takes commands. -/
theorem Device.endUnsettled_eq {d : Device} {key : Nat} {n : Node} (hre : d.reachable key n) (room : Nat) (cause : UnsettledCause) :
    d.endUnsettled key room cause true = { d with
      segments := d.segments.set (key / 256) ((d.segment (key / 256)).place (key % 256) .relock)
      rooms := Table.modify room (fun r => { r.closeSession with unsettled := true }) d.rooms
      journal := (d.record (.unsettled room key cause) {} .reserved).journal } := by
  unfold Device.endUnsettled
  rw [if_pos rfl, Device.hand_placed _ hre]
  rfl

/-- Settles O35: the RELOCK, the room and the record against the session's reservation. -/
theorem sessionLimitEndsTheSession : Obligations.SessionLimitEndsTheSession := by
  intro s room key count r n hs hf hlink hbar htimer hre hreserved
  have hexpired : s.dev.sessionExpired room = s.dev.endUnsettled key room .sessionLimit true := by
    unfold Device.sessionExpired
    simp only [hf, hlink, hbar, htimer]
    rfl
  have hload : (s.dev.record (.unsettled room key .sessionLimit) {} .reserved).journal.load = s.dev.journal.load :=
    Journal.admit_reserved_load rfl hreserved
  have hdev : (s.onDevice (fun d => d.sessionExpired room)).dev = _ := hexpired.trans (Device.endUnsettled_eq hre room .sessionLimit)
  refine ⟨s.onDevice (fun d => d.sessionExpired room), ?_, ?_⟩
  · rw [exec_sessionLimit]
    refine commit_of_load_le s _ ?_ ?_
    · rw [hdev]; exact hs
    · rw [hdev]; exact Nat.le_of_eq hload
  · have hstate : s.onDevice (fun d => d.sessionExpired room) =
        { s with dev := (s.onDevice (fun d => d.sessionExpired room)).dev } := rfl
    rw [hstate, hdev]
    refine ⟨?_, fun other ho => ?_, rfl, rfl, hload, rfl⟩
    · dsimp only
      rw [Table.find_modify_self, hf, Option.map_some, Room.closeSession_eq]
    · dsimp only
      exact Table.find_modify_ne _ _ ho

end Sys2Proof.Machine
end

section
/-! The node orders and the retry timer (O37 to O39). -/

namespace Sys2Proof.Machine

open Sys2Proof

/-- An order whose owner leaves the journal and the reports. -/
theorem exec_quietOrder {s : State} {c : Instr} {kind : OrderKind} {block tag : Word} {abort : Bool} {params : Nat}
    {owner : OrderContext → Device → Device × Reply} {d : Device} {r : Reply} (hw : s.dev.orderInHand kind block tag abort)
    (he : exec c s = commit s (fun t => t.onDevice (fun d => d.runOrder kind params owner)))
    (ho : owner { block := block, tag := tag } s.dev = (d, r)) (hr : d.reports = s.dev.reports) (hj : d.journal = s.dev.journal) :
    exec c s = .next { s with dev := { d with walker := d.walker.replied block abort params r } } := by
  rw [he, commit_order hw.1 ho (hr.trans hw.2), hj]
  simp only [stallStatus_of_load_le _ (Nat.le_refl _)]

/-! ## DEFINE_NODE -/

/-- A minibar is in no session where no room that links it is. -/
theorem Device.barInSession_eq_false {d : Device} {key : Nat} {n : Node}
    (h : n.kind = .minibar → ∀ i r, (i, r) ∈ d.rooms → r.barLink = some key → r.bar.inSession = false) : d.barInSession key n = false := by
  unfold Device.barInSession
  by_cases hk : n.kind = .minibar
  · cases hb : d.barRoom key with
    | none => simp
    | some p =>
      obtain ⟨hm, hl⟩ := Device.barRoom_linked (i := p.1) (r := p.2) hb
      simp [h hk p.1 p.2 hm hl]
  · simp [hk]

/-- A room without a node's links: the last button signal goes with the door link (R33). -/
theorem Room.withoutNode_eq (r : Room) (key : Nat) : r.withoutNode key = { r with
    doorLink := if r.doorLink = some key then none else r.doorLink
    lastButton := if r.doorLink = some key then none else r.lastButton
    barLink := if r.barLink = some key then none else r.barLink } := by
  unfold Room.withoutNode
  split_ifs <;> rfl

/-- The encoders after a node is created: one more where it is an ENCODER. -/
theorem Device.createEncoder_eq (d : Device) (key : Nat) (k : NodeKind) : d.createEncoder key k = { d with creds := { d.creds with
    encoders := if k = .encoder then Table.put key { current := none, waiting := [], lastResult := none } d.creds.encoders
      else d.creds.encoders } } := by
  unfold Device.createEncoder
  split_ifs <;> rfl

/-- Settles O37: the node created, or the settings taken by the node that stands at the place. -/
theorem defineNodeCreatesOrUpdates : Obligations.DefineNodeCreatesOrUpdates := by
  intro s p q block tag abort k fm fd settings doorClamped key params reply hw h8 h1 h120 hkey hroom hk hfm hfd hdoor hreply
  obtain ⟨horder, hparams⟩ := nodeOrder_eq h8 h1 h120 hroom hk hfm hfd hdoor
  have hnode : nodeKey p.seg.toNat p.addr.toNat = key := hkey.symm
  have hexec := hparams ▸ exec_defineNode p q s
  generalize ho : NodeOrder.mk _ _ _ _ _ _ _ _ = o at horder
  have hreply' : ∀ created, ({ code := .done, clamped := o.clamped, words := [natWord created] } : Reply) = reply created := by
    intro created
    rw [hreply, ← ho]
  have hokind : o.kind = k := ho ▸ rfl
  have horoom : o.room = p.room.toNat := ho ▸ rfl
  refine ⟨fun hf hroomLeft => ?_, fun n hf hkind hbar => ?_⟩
  · have hcreate : s.dev.defineNode p q = (Device.createEncoder { s.dev with
          nodes := Table.put key o.created s.dev.nodes } key k, reply 1) := by
      unfold Device.defineNode
      simp only [horder, hnode, hf]
      rw [if_neg, hokind, ← hreply']
      · rfl
      · rw [hokind]
        simp only [Bool.and_eq_true, decide_eq_true_eq, not_and, Nat.not_le]
        exact hroomLeft
    rw [Device.createEncoder_eq] at hcreate
    refine ⟨_, exec_quietOrder hw hexec hcreate rfl rfl, ?_, fun other hother => ?_, fun he => ?_, fun other hother => ?_, rfl, rfl⟩
    · exact ho ▸ Table.find_put_self _ _ _
    · exact Table.find_put_ne _ _ hother
    · dsimp only
      rw [if_pos he]
      exact Table.find_put_self _ _ _
    · dsimp only
      by_cases he : k = .encoder
      · rw [if_pos he]
        exact Table.find_put_ne _ _ (hother.resolve_right (fun h => h he))
      · rw [if_neg he]
  · have hupdate : s.dev.defineNode p q = ({ s.dev with
          rooms := if n.room = p.room.toNat then s.dev.rooms else Table.modify n.room (fun r => r.withoutNode key) s.dev.rooms
          nodes := Table.modify key o.updated s.dev.nodes }, reply 0) := by
      unfold Device.defineNode
      simp only [horder, hnode, hf]
      rw [if_neg (by simp [hkind, hokind]), horoom, if_neg, ← hreply']
      · split_ifs <;> rfl
      · by_cases hr : n.room = p.room.toNat
        · simp [hr]
        · simp [Device.barInSession_eq_false (fun hm => hbar hr (hkind ▸ hm))]
    refine ⟨_, exec_quietOrder hw hexec hupdate rfl rfl, ?_, fun other hother => ?_, fun i => ?_, rfl, rfl⟩
    · dsimp only
      rw [Table.find_modify_self, hf, ← ho]
      rfl
    · exact Table.find_modify_ne _ _ hother
    · dsimp only
      by_cases hr : n.room = p.room.toNat
      · rw [if_pos hr]
        simp [hr]
      · rw [if_neg hr, Table.find_modify]
        by_cases hi : i = n.room
        · simp [hi, hr, Room.withoutNode_eq]
        · simp [hi, hr]

/-! ## REMOVE_NODE -/

/-- A segment without an address: no exchange with it, no command for it, and no attention of it (R143). -/
def Segment.without (g : Segment) (addr : Nat) : Segment :=
  { g with
    queue := g.queue.filter (fun e => decide (e.addr ≠ addr))
    exchange := match g.exchange with
      | none => none
      | some x => if x.addr = addr then none else some x
    attention := g.attention.filter (fun a => decide (a ≠ addr)) }

/-- The exchange and the command of an address dropped, as fields. -/
theorem Segment.abandon_dropQueued (g : Segment) (addr : Nat) : (g.abandon addr).dropQueued addr = { g.without addr with
    attention := g.attention } := by
  unfold Segment.abandon Segment.dropQueued Segment.without
  cases hx : g.exchange with
  | none => simp only [← hx]
  | some x => by_cases ha : x.addr = addr <;> simp [ha, hx]

/-- A node's place made undefined, its running fields apart. -/
theorem Device.dropNode_eq {d : Device} {key : Nat} {g : Segment} (hg : d.segments[keySeg key]? = some g) :
    ∃ f : Node → Node, d.dropNode key = { d with
      segments := d.segments.set (keySeg key) (g.without (keyAddr key))
      nodes := Table.erase key (Table.modify key f d.nodes)
      rooms := Table.mapVals (fun _ r => r.withoutNode key) d.rooms
      creds := { d.creds with encoders := Table.erase key d.creds.encoders } } := by
  have hlt : keySeg key < d.segments.length := (List.getElem?_eq_some_iff.1 hg).1
  have hseg : d.segment (keySeg key) = g := by
    unfold Device.segment
    rw [List.getD_eq_getElem?_getD, hg]
    rfl
  have hset : (d.setSegment (keySeg key) ((g.abandon (keyAddr key)).dropQueued (keyAddr key))).segment (keySeg key) =
      { g.without (keyAddr key) with attention := g.attention } := by
    rw [Device.segment_setSegment, if_pos ⟨rfl, hlt⟩, Segment.abandon_dropQueued]
  unfold Device.dropNode Device.leaveAttention
  simp only [hseg, hset]
  split_ifs with ha
  · refine ⟨fun n => { n with passOver := 0 }, ?_⟩
    simp only [Device.clearLinks, Device.modifyNode, Device.setSegment, List.set_set]
    rfl
  · refine ⟨id, ?_⟩
    have hkeep : g.attention.filter (fun a => decide (a ≠ keyAddr key)) = g.attention := by
      refine List.filter_eq_self.2 fun a hm => ?_
      rw [decide_eq_true_eq]
      rintro rfl
      exact ha (List.contains_iff_mem.2 hm)
    have hid : Table.modify key id d.nodes = d.nodes := by
      unfold Table.modify
      simp
    have hsame : ({ g.without (keyAddr key) with attention := g.attention } : Segment) = g.without (keyAddr key) := by
      unfold Segment.without
      rw [hkeep]
    simp only [Device.clearLinks, Device.setSegment, Segment.abandon_dropQueued, hsame, hid]

/-- Settles O38: the place, the links and the segment without the node. -/
theorem removeNodeClearsThePlace : Obligations.RemoveNodeClearsThePlace := by
  intro s seg addr block tag abort key n g hw h8 h1 h120 hkey hf hg hbar hencoder
  have hseg : keySeg key = seg.toNat := by unfold keySeg; omega
  have haddr : keyAddr key = addr.toNat := by unfold keyAddr; omega
  have hbusy : s.dev.encoderBusy key = false := by
    unfold Device.encoderBusy
    cases he : Table.find key s.dev.creds.encoders with
    | none => rfl
    | some enc =>
      obtain ⟨hcurrent, hwaiting⟩ := hencoder enc he
      simp [hcurrent, hwaiting]
  obtain ⟨f, hdrop⟩ := Device.dropNode_eq (key := key) (hseg ▸ hg)
  have hremove : s.dev.removeNode seg addr = (s.dev.dropNode key, .done [natWord n.state.code]) := by
    unfold Device.removeNode
    rw [Device.withNode_found h8 h1 h120 hkey hf, if_neg (by simp [hbusy, Device.barInSession_eq_false hbar])]
  rw [hdrop, hseg, haddr] at hremove
  refine ⟨_, exec_quietOrder hw (exec_removeNode seg addr s) hremove rfl rfl, ?_, fun other ho => ?_, ?_, fun other ho => ?_, fun i => ?_,
    ?_, rfl, rfl⟩
  · exact Table.find_erase_self _ _
  · exact (Table.find_erase_ne _ ho).trans (Table.find_modify_ne _ _ ho)
  · exact Table.find_erase_self _ _
  · exact Table.find_erase_ne _ ho
  · refine (Table.find_mapVals i (fun _ r => r.withoutNode key) s.dev.rooms).trans ?_
    simp only [Room.withoutNode_eq]
  · dsimp only
    unfold Segment.without
    cases g.exchange <;> rfl

/-! ## RESTORE_NODE and the retry timer -/

/-- A node made ABSENT from FAULTED or RETRY_WAIT, its owner told. -/
theorem Device.absent_told {d : Device} {key : Nat} {n : Node} {before : NodeState} (f : Node → Node) (hf : Table.find key d.nodes = some n)
    (hb : before = .faulted ∨ before = .retryWait) :
    ∃ nodes, (d.modifyNode key f).ownerTold key before .absent = { d with nodes := nodes } ∧ Table.find key nodes = some (f n) ∧
      ∀ other, other ≠ key → Table.find other nodes = Table.find other d.nodes := by
  have hfind : Table.find key (d.modifyNode key f).nodes = some (f n) := by
    rw [Device.modifyNode_nodes, Table.find_modify_self, hf]
    rfl
  obtain ⟨g, hg, htold⟩ := Device.ownerTold_absent (f n) hfind hb
  refine ⟨_, htold, ?_, fun other ho => ?_⟩
  · rw [Table.find_modify_self, hfind]
    exact congrArg some hg
  · rw [Table.find_modify_ne _ _ ho, Device.modifyNode_nodes, Table.find_modify_ne _ _ ho]

/-- Settles O39: the order first, then the timer. -/
theorem nodesReturnToPolling : Obligations.NodesReturnToPolling := by
  intro s key n hf
  refine ⟨fun seg addr block tag abort hw h8 h1 h120 hkey => ⟨fun hst => ?_, fun hst => ?_⟩, fun seg addr hs hkey =>
    ⟨fun count hst htimer => ?_, fun hnot => ?_⟩⟩
  · obtain ⟨nodes, htold, hself, hrest⟩ := Device.absent_told (fun n => { n with state := .absent, misses := 0 }) hf (.inl rfl)
    have hrestore : s.dev.restoreNode seg addr = ({ s.dev with nodes := nodes }, .done [natWord n.state.code]) := by
      refine (Device.withNode_found h8 h1 h120 hkey hf).trans ?_
      rw [if_pos hst, htold]
    exact ⟨_, exec_quietOrder hw (exec_restoreNode seg addr s) hrestore rfl rfl, hself, hrest, rfl, rfl⟩
  · exact exec_readOrder hw (exec_restoreNode seg addr s) ((Device.withNode_found h8 h1 h120 hkey hf).trans (if_neg hst))
  · obtain ⟨nodes, htold, hself, hrest⟩ :=
      Device.absent_told (fun n => { n with state := .absent, onProbe := true, retryTimer := none }) hf (.inr rfl)
    have hdev : s.dev.retryExpired key = { s.dev with nodes := nodes } := by
      unfold Device.retryExpired
      simp only [hf, hst, Timer.isDue_of_some htimer]
      exact htold
    refine ⟨{ s with dev := { s.dev with nodes := nodes } }, ?_, hself, hrest, rfl⟩
    have hstate : s.onDevice (fun d => d.retryExpired key) = { s with dev := { s.dev with nodes := nodes } } :=
      congrArg (fun d => { s with dev := d }) hdev
    rw [exec_retryTimerExpiry, show nodeKey seg addr = key from hkey.symm]
    refine (commit_of_journal_eq s _ ?_ ?_).trans (congrArg _ hstate) <;> rw [hstate]
    exact hs
  · have hdev : s.dev.retryExpired key = s.dev := by
      unfold Device.retryExpired
      simp only [hf]
      exact if_neg (by rcases hnot with h | h <;> simp [h])
    have hstate : s.onDevice (fun d => d.retryExpired key) = s := congrArg (fun d => { s with dev := d }) hdev
    rw [exec_retryTimerExpiry, show nodeKey seg addr = key from hkey.symm]
    refine (commit_of_journal_eq s _ ?_ ?_).trans (congrArg _ hstate) <;> rw [hstate]
    exact hs

end Sys2Proof.Machine
end

section
/-! The clock order, and the house inputs that leave their mode as it stands (O40, O41). -/

namespace Sys2Proof.Machine

open Sys2Proof

/-! ## SET_CLOCK -/

/-- The device under a new time, its CLOCK record written where the clock was valid already (R165). -/
def Device.clockSet (d : Device) (clock : Clock) : Device :=
  if d.clock.valid then Device.notable { d with clock := clock } (.clock d.clock.minute clock.minute) else { d with clock := clock }

/-- The new time and its record leave all else. -/
theorem Device.clockSet_eq (d : Device) (clock : Clock) :
    d.clockSet clock = { d with clock := clock, journal := (d.clockSet clock).journal } := by
  unfold Device.clockSet
  split <;> rfl

/-- SET_CLOCK hands the new time to the doors, where the holds that are due end. -/
theorem exec_setClock_handed {s : State} {minute second block tag : Word} {abort : Bool} {clock : Clock}
    (hw : s.dev.orderInHand .setClock block tag abort)
    (hclock : clock = { minute := minute, second := min 59 second.toNat, valid := true, tickDue := false })
    (hr : (s.dev.clockSet clock).endHolds.reports = []) :
    exec (.setClock minute second) s = .next { s with dev := { (s.dev.clockSet clock).endHolds with
      walker := (s.dev.clockSet clock).endHolds.walker.replied block abort 2
        { code := .done, clamped := decide (59 < second.toNat)
          words := [s.dev.clock.minute, natWord s.dev.clock.second, if s.dev.clock.valid then 1 else 0] }
      regs := { (s.dev.clockSet clock).endHolds.regs with
        status := stallStatus s.dev.journal (s.dev.clockSet clock).endHolds.journal (s.dev.clockSet clock).endHolds.regs.status } } } := by
  refine (exec_setClock minute second s).trans (commit_order hw.1 ?_ hr)
  show s.dev.setClock minute second = _
  rw [hclock]
  unfold Device.setClock
  rw [clampTop_eq]
  rfl

/-- Settles O40: where no hold is due, the doors stay. -/
theorem setClockTakesTheTime : Obligations.SetClockTakesTheTime := by
  intro s minute second block tag abort clock hw hclock hholds
  have hbase := s.dev.clockSet_eq clock
  have hminute : (s.dev.clockSet clock).clock.minute = minute := by rw [hbase, hclock]
  obtain ⟨hnodes, hsame⟩ : (∀ key, Table.find key (s.dev.clockSet clock).endHolds.nodes = Table.find key s.dev.nodes) ∧
      (s.dev.clockSet clock).endHolds = { s.dev.clockSet clock with nodes := (s.dev.clockSet clock).endHolds.nodes } := by
    have hkeep := Device.everyDoor_same (s.dev.clockSet clock) (fun n r => r.minute n.state.isOut (s.dev.clockSet clock).clock.minute)
      ((s.dev.clockSet clock).nodes.map (fun p => p.1)) (fun key n r hn hd => by
        rw [hbase] at hn
        rw [hminute]
        exact Door.minute_before_end (hholds key n r hn hd).1 (hholds key n r hn hd).2)
    have hfind : (s.dev.clockSet clock).nodes = s.dev.nodes := by rw [hbase]
    exact ⟨fun key => (hkeep.1 key).trans (by rw [hfind]), hkeep.2⟩
  have hreports : (s.dev.clockSet clock).endHolds.reports = [] := by
    rw [hsame, hbase]
    exact hw.2
  have hjournal : (s.dev.clockSet clock).journal = (if s.dev.clock.valid then
      (Device.notable { s.dev with clock := clock } (.clock s.dev.clock.minute minute)).journal else s.dev.journal) := by
    rw [hclock]
    unfold Device.clockSet
    split <;> rfl
  refine ⟨_, exec_setClock_handed hw hclock hreports, ?_, hnodes, ?_, ?_, ?_⟩
  · dsimp only
    rw [hsame, hbase]
  · dsimp only
    rw [hsame, ← hjournal]
  · dsimp only
    rw [hsame, hbase]
  · rw [hsame, hbase]

/-! ## Inputs and orders that leave their mode -/

/-- A house event is taken at a settled device. -/
theorem State.houseEvent.isSettled {s : State} {pin : Pin} {c : Instr} {after : House} {cause : HouseCause} {w : Walker}
    (h : s.houseEvent pin c after cause w) : s.settled := by
  rcases h with ⟨_, -, hs, -⟩ | ⟨-, hs, -⟩ | ⟨_, _, _, _, -, ho, -⟩
  · exact hs
  · exact hs
  · exact ho.2

/-- Settles O41: no mode changes, so nothing is handed on. -/
theorem housePartsAlone : Obligations.HousePartsAlone := by
  intro s
  refine ⟨fun pin c after cause w he hkeep => ?_, fun hs => ⟨fun pin level hl => ?_, fun pin hl => ?_, fun hh => ?_, fun hh => ?_⟩⟩
  · obtain ⟨-, hheld, hreports, hjournal, hregs, -, -, -⟩ := s.dev.setHouse_frame' pin after
    have hsame : (s.dev.setHouse pin after).houseChanges s.dev.modes cause = s.dev.setHouse pin after :=
      Device.houseChanges_same _ _ _ (hkeep.symm.imp (fun h => by rw [hheld]; exact h) (fun h => s.dev.modes_setHouse pin after h))
    have hexec := exec_houseEvent he ⟨he.isSettled, by rw [hsame, hreports]; exact he.isSettled⟩
    rw [hsame, hjournal, stallStatus_of_load_le _ (Nat.le_refl _)] at hexec
    exact hexec
  · exact (exec_inputEdge pin level s).trans (commit_unchanged s _ (State.onDevice_self s _ (if_pos hl)) hs)
  · exact (exec_inputSettled pin s).trans (commit_unchanged s _ (State.onDevice_self s _ (if_neg (by simp [hl]))) hs)
  · refine (exec_resetNRelease s).trans (commit_unchanged s _ (State.onDevice_self s _ ?_) hs)
    unfold Device.releaseReset
    rw [hh]
  · have hrelease : s.dev.releaseReset = { s.dev with resetHeld := none } := by
      unfold Device.releaseReset
      rw [hh]
      exact Device.houseChanges_same _ _ _ (.inr rfl)
    have hstate : s.onDevice Device.releaseReset = { s with dev := { s.dev with resetHeld := none } } :=
      congrArg (fun d => { s with dev := d }) hrelease
    refine (exec_resetNRelease s).trans ((commit_of_journal_eq s _ ?_ ?_).trans (congrArg _ hstate)) <;> rw [hstate]
    exact hs

end Sys2Proof.Machine
end

section
/-! A change of mode told to every door, and the minute that ends the holds (O42). -/

namespace Sys2Proof.Machine

open Sys2Proof

/-! ## Fire frees the doors -/

/-- A door as fire leaves it (R80). -/
def Node.inEmergency (n : Node) : Node :=
  { n with door := n.door.map (fun r => r.intoEmergency.door) }

/-- Whether fire frees a node's door (R80). -/
def Node.isFreed (n : Node) : Bool :=
  n.kind.firesFree && n.state.inService && n.door.isSome

/-- A node in service is not out of service. -/
theorem NodeState.isOut_of_inService {st : NodeState} (h : st.inService = true) : st.isOut = false := by
  cases st <;> first | rfl | cases h

/-- An outcome that keeps the door changes nothing that is read of the nodes. -/
theorem Device.doorEvent_same {d : Device} {key : Nat} {f : Node → Door → DoorOut} {n : Node} (hn : Table.find key d.nodes = some n)
    (h : ∀ r, n.door = some r → f n r = .same r) :
    (∀ x, Table.find x (d.doorEvent key f).nodes = Table.find x d.nodes) ∧
    d.doorEvent key f = { d with nodes := (d.doorEvent key f).nodes } := by
  unfold Device.doorEvent
  rw [hn]
  cases hd : n.door with
  | none =>
    simp only [hd]
    exact ⟨fun _ => trivial, trivial⟩
  | some r =>
    have hkeep : d.applyDoor key n.state.isOut (.same r) = d.modifyNode key (fun n => { n with door := some r }) := by
      unfold Device.applyDoor DoorOut.same
      cases n.state.isOut <;> simp [Device.handAll]
    simp only [hd, h r hd, hkeep]
    refine ⟨fun x => ?_, rfl⟩
    rw [Device.modifyNode_nodes, Table.find_modify]
    split_ifs with hx
    · rw [hx, hn, Option.map_some, ← hd]
    · rfl

/-- What fire does at one door: the freed go into EMERGENCY with HOLD placed, the others stay. -/
theorem Device.doorEvent_fire {d : Device} {key : Nat} {n : Node} {f : Node → Door → DoorOut}
    (hf : f = fun n r => if n.kind.firesFree && n.state.inService then r.intoEmergency else .same r)
    (hn : Table.find key d.nodes = some n) (hre : n.state.inService = true → (d.segment (keySeg key)).isDisabled = false) :
    (∀ x, Table.find x (d.doorEvent key f).nodes = (Table.find x d.nodes).map (fun n =>
      if x = key ∧ n.isFreed then n.inEmergency else n)) ∧
    d.doorEvent key f = { d with
      nodes := (d.doorEvent key f).nodes
      segments := if n.isFreed then placedFor d.segments key [.hold] else d.segments } := by
  by_cases hfreed : n.isFreed = true
  · rw [if_pos hfreed]
    unfold Node.isFreed at hfreed
    obtain ⟨hserved, hdoor⟩ := Bool.and_eq_true_iff.1 hfreed
    obtain ⟨r, hr⟩ := Option.isSome_iff_exists.1 hdoor
    have hin : n.state.inService = true := (Bool.and_eq_true_iff.1 hserved).2
    have hreach : d.reachable key n := ⟨hn, NodeState.isOut_of_inService hin, hre hin⟩
    have hevent : d.doorEvent key f = d.applyDoor key false r.intoEmergency := by
      unfold Device.doorEvent
      simp only [hn, hr, hreach.2.1, hf]
      rw [if_pos hserved]
    obtain ⟨hself, hrest, hsegments, hall⟩ := Device.applyDoor_silent hreach r.intoEmergency rfl rfl
    rw [hevent]
    refine ⟨fun x => ?_, ?_⟩
    · by_cases hx : x = key
      · subst hx
        have hn' : n.isFreed = true := by unfold Node.isFreed; simp [hserved, hr]
        rw [hself, hn, Option.map_some, if_pos ⟨rfl, hn'⟩]
        unfold Node.inEmergency
        rw [hr]
        rfl
      · rw [hrest x hx]
        simp [hx]
    · rw [hall, hsegments]
      rfl
  · rw [if_neg hfreed]
    obtain ⟨hnodes, hall⟩ := Device.doorEvent_same (f := f) hn (fun r hr => by
      rw [hf]
      refine if_neg fun hserved => hfreed ?_
      unfold Node.isFreed
      simp only [hserved, hr]
      rfl)
    refine ⟨fun x => ?_, hall⟩
    rw [hnodes]
    by_cases hx : x = key
    · subst hx
      rw [hn]
      simp [hfreed]
    · simp [hx]

/-- What fire does at the doors of a list of nodes. -/
theorem Device.fireFold {f : Node → Door → DoorOut}
    (hf : f = fun n r => if n.kind.firesFree && n.state.inService then r.intoEmergency else .same r)
    (ps : Table Node) : ∀ d : Device, (∀ p ∈ ps, Table.find p.1 d.nodes = some p.2) → ps.Pairwise (fun a b => a.1 ≠ b.1) →
    (∀ p ∈ ps, p.2.state.inService = true → (d.segment (keySeg p.1)).isDisabled = false) →
    ∀ e : Device, e = (ps.map (fun p => p.1)).foldl (fun acc key => acc.doorEvent key f) d →
    (∀ x, Table.find x e.nodes = (Table.find x d.nodes).map (fun n =>
      if x ∈ ps.map (fun p => p.1) ∧ n.isFreed then n.inEmergency else n)) ∧
    e = { d with
      nodes := e.nodes
      segments := ((ps.filter (fun p => p.2.isFreed)).map (fun p => p.1)).foldl (fun gs key => placedFor gs key [.hold]) d.segments } := by
  induction ps with
  | nil =>
    rintro d - - - e rfl
    exact ⟨fun x => by simp, rfl⟩
  | cons p rest ih =>
    intro d hfind hne hre e he
    obtain ⟨hnodes, hall⟩ := Device.doorEvent_fire hf (hfind p List.mem_cons_self) (hre p List.mem_cons_self)
    rw [List.pairwise_cons] at hne
    have hseg : ∀ seg, ((d.doorEvent p.1 f).segment seg).isDisabled = (d.segment seg).isDisabled := by
      intro seg
      rw [hall]
      unfold Device.segment
      dsimp only
      split
      · exact placedFor_isDisabled _ _ _ _
      · rfl
    obtain ⟨inodes, iall⟩ := ih (d.doorEvent p.1 f)
      (fun q hq => by
        rw [hnodes, hfind q (List.mem_cons_of_mem _ hq)]
        simp [(hne.1 q hq).symm])
      hne.2 (fun q hq hin => (hseg _).trans (hre q (List.mem_cons_of_mem _ hq) hin)) e he
    refine ⟨fun x => ?_, ?_⟩
    · rw [inodes, hnodes, Option.map_map]
      refine congrArg (fun g => (Table.find x d.nodes).map g) (funext fun n => ?_)
      have hkeep : n.inEmergency.isFreed = n.isFreed := by
        unfold Node.isFreed Node.inEmergency
        cases n.door <;> rfl
      have hnot : x = p.1 → x ∉ rest.map (fun p => p.1) := by
        rintro rfl hm
        obtain ⟨q, hq, hqk⟩ := List.mem_map.1 hm
        exact hne.1 q hq hqk.symm
      simp only [Function.comp_apply, List.map_cons, List.mem_cons]
      by_cases hx : x = p.1
      · by_cases hn : n.isFreed = true
        · simp only [hx, hn, and_self, if_true, true_or, hkeep, and_true]
          rw [if_neg (hx ▸ hnot hx)]
        · simp [hx, hn]
      · simp only [hx, false_and, if_false, false_or]
    · rw [iall, hall]
      dsimp only
      by_cases hp : p.2.isFreed = true
      · rw [if_pos hp, List.filter_cons_of_pos (by exact hp)]
        rfl
      · rw [if_neg hp, List.filter_cons_of_neg (by exact hp)]

/-- Fire told to every door. -/
theorem Device.doorsOnFire_eq {d : Device} (hw : Table.wf d.nodes = true)
    (hre : ∀ key n, Table.find key d.nodes = some n → n.state.inService = true → (d.segment (key / 256)).isDisabled = false) :
    (∀ x, Table.find x (d.doorsOnFire true).nodes = (Table.find x d.nodes).map (fun n => if n.isFreed then n.inEmergency else n)) ∧
    d.doorsOnFire true = { d with
      nodes := (d.doorsOnFire true).nodes
      segments := (Table.keysWhere (fun _ n => n.isFreed) d.nodes).foldl (fun gs key => placedFor gs key [.hold]) d.segments } := by
  have hfind : ∀ p ∈ d.nodes, Table.find p.1 d.nodes = some p.2 := fun p hp => Table.find_of_mem hw hp
  obtain ⟨hnodes, hall⟩ := Device.fireFold rfl d.nodes d hfind (((Table.wf_iff _).1 hw).imp (fun h => Nat.ne_of_lt h))
    (fun p hp => hre p.1 p.2 (hfind p hp)) (d.doorsOnFire true) rfl
  refine ⟨fun x => ?_, hall⟩
  rw [hnodes]
  cases hx : Table.find x d.nodes with
  | none => rfl
  | some n =>
    have hm : x ∈ d.nodes.map (fun p => p.1) := List.mem_map.2 ⟨(x, n), Table.mem_of_find hx, rfl⟩
    simp [hm]

/-! ## The modes handed on -/

/-- The changes of both modes as they are handed on, with a walker of their own (R171). -/
theorem Device.houseChanges_told {d : Device} (before : HouseModes) (cause : HouseCause) (w : Walker) (hr : d.doorsReachable)
    (hheld : d.resetHeld = none) :
    Device.modesTold { d with walker := w } { d.houseChanges before cause with walker := w } before cause ∧
    (d.houseChanges before cause).reports = d.reports := by
  rw [houseChanges_handedOn d before cause hheld]
  dsimp only
  by_cases hfire : before.fire = d.fire.active
  · rw [if_pos hfire]
    by_cases hstorm : before.storm = d.storm.active
    · rw [if_pos hstorm]
      refine ⟨⟨{ d with walker := w }, _, rfl, ?_, ?_⟩, rfl⟩
      · rw [if_pos hfire]
      · rw [if_pos hstorm]
    · rw [if_neg hstorm]
      obtain ⟨htold, -, hreports, -⟩ := modeHandedOn_told (d := d) .storm { before with fire := d.fire.active }
        { fire := d.fire.active, storm := d.storm.active } cause w hr
      refine ⟨⟨{ d with walker := w }, _, rfl, ?_, ?_⟩, hreports⟩
      · rw [if_pos hfire]
      · rw [if_neg hstorm]
        exact htold
  · rw [if_neg hfire]
    obtain ⟨htold, hreach, hreports, -⟩ := modeHandedOn_told (d := d) .fire before { before with fire := d.fire.active } cause w hr
    by_cases hstorm : before.storm = d.storm.active
    · rw [if_pos hstorm]
      refine ⟨⟨{ modeHandedOn d .fire before { before with fire := d.fire.active } cause with walker := w }, _, rfl, ?_, ?_⟩, hreports⟩
      · rw [if_neg hfire]
        exact htold
      · rw [if_pos hstorm]
    · rw [if_neg hstorm]
      obtain ⟨htold', -, hreports', -⟩ := modeHandedOn_told (d := modeHandedOn d .fire before { before with fire := d.fire.active } cause)
        .storm { before with fire := d.fire.active } { fire := d.fire.active, storm := d.storm.active } cause w hreach
      refine ⟨⟨{ modeHandedOn d .fire before { before with fire := d.fire.active } cause with walker := w }, _, rfl, ?_, ?_⟩,
        hreports'.trans hreports⟩
      · rw [if_neg hfire]
        exact htold
      · rw [if_neg hstorm]
        exact htold'

/-- A change of one mode alone, told to the doors. -/
theorem Device.houseChanges_toldOne {d : Device} (pin : Pin) (before : HouseModes) (cause : HouseCause) (w : Walker)
    (hr : d.doorsReachable) (hheld : d.resetHeld = none)
    (hchange : match pin with
      | .fire => before.fire ≠ d.fire.active ∧ before.storm = d.storm.active
      | .storm => before.fire = d.fire.active ∧ before.storm ≠ d.storm.active) :
    Device.modeTold { d with walker := w } { d.houseChanges before cause with walker := w } pin before
      { fire := d.fire.active, storm := d.storm.active } cause := by
  obtain ⟨mid, after, rfl, hfire, hstorm⟩ := (Device.houseChanges_told before cause w hr hheld).1
  cases pin with
  | fire =>
    obtain ⟨hne, heq⟩ := hchange
    rw [if_neg hne] at hfire
    rw [if_pos heq] at hstorm
    rw [← hstorm, heq] at hfire
    exact hfire
  | storm =>
    obtain ⟨heq, hne⟩ := hchange
    rw [if_pos heq] at hfire
    rw [if_neg hne, hfire] at hstorm
    have hbefore : ({ before with fire := d.fire.active } : HouseModes) = before := by rw [← heq]
    exact hbefore ▸ hstorm

/-- The start of fire, handed on to the doors that it frees. -/
theorem State.fireStarts {s : State} {c : Instr} {after : House} {cause : HouseCause} {w : Walker} (he : s.houseEvent .fire c after cause w)
    (hbefore : s.dev.fire.active = false) (hafter : after.active = true) (hheld : s.dev.resetHeld = none)
    (hw : Table.wf s.dev.nodes = true)
    (hre : ∀ key n, Table.find key s.dev.nodes = some n → n.state.inService = true → (s.dev.segment (key / 256)).isDisabled = false) :
    ∃ t, exec c s = .next t ∧
      (∀ key, Table.find key t.dev.nodes = (Table.find key s.dev.nodes).map (fun n => if n.isFreed then n.inEmergency else n)) ∧
      t.dev.segments = (Table.keysWhere (fun _ n => n.isFreed) s.dev.nodes).foldl (fun gs key => placedFor gs key [.hold]) s.dev.segments ∧
      t.dev.journal = (s.dev.notable (.house { fire := false, storm := s.dev.storm.active }
        { fire := true, storm := s.dev.storm.active } cause)).journal ∧
      t = { s with dev := { s.dev with
        regs := { s.dev.regs with status := stallStatus s.dev.journal t.dev.journal (s.dev.regs.status ||| 512) }
        walker := w, fire := after, nodes := t.dev.nodes, segments := t.dev.segments, journal := t.dev.journal } } := by
  generalize hd : ((s.dev.setHouse .fire after).latch .houseChange).notable (.house { fire := false, storm := s.dev.storm.active }
    { fire := true, storm := s.dev.storm.active } cause) = d
  have hfields : d = { s.dev with
      fire := after
      regs := { s.dev.regs with status := s.dev.regs.status ||| 512 }
      journal := (s.dev.notable (.house { fire := false, storm := s.dev.storm.active }
        { fire := true, storm := s.dev.storm.active } cause)).journal } := by
    rw [← hd]
    rfl
  have hchanges : (s.dev.setHouse .fire after).houseChanges s.dev.modes cause = d.doorsOnFire true := by
    rw [houseChanges_handedOn (s.dev.setHouse .fire after) _ _ hheld, ← hd]
    have hmodes : s.dev.modes = { fire := false, storm := s.dev.storm.active } := by
      unfold Device.modes
      rw [hbefore]
    have hnew : (s.dev.setHouse .fire after).fire.active = true := hafter
    have hstorm : (s.dev.setHouse .fire after).storm.active = s.dev.storm.active := rfl
    rw [hmodes, hnew, hstorm]
    simp only [Bool.false_eq_true, if_false, if_true]
    rfl
  obtain ⟨hnodes, hall⟩ := Device.doorsOnFire_eq (d := d) (by rw [hfields]; exact hw)
    (by rw [hfields]; exact hre)
  have hreports : (d.doorsOnFire true).reports = [] := by
    rw [hall, hfields]
    exact he.isSettled
  refine ⟨_, exec_houseEvent he ⟨he.isSettled, by rw [hchanges]; exact hreports⟩, ?_⟩
  rw [hchanges]
  refine ⟨fun key => ?_, ?_, ?_, ?_⟩
  · dsimp only
    rw [hnodes, hfields]
  · dsimp only
    rw [hall, hfields]
  · dsimp only
    rw [hall, hfields]
  · rw [hall, hfields]

/-- What a minute does at every door, from a device under a new time. -/
theorem Device.endHolds_moved {d base : Device} {clock : Clock} {o : Nat → DoorOut} (hre : d.doorsReachable)
    (hbase : base = { d with clock := clock, journal := base.journal })
    (ho : ∀ key n r, Table.find key d.nodes = some n → n.door = some r → r.minuteGives n clock.minute (o key)) :
    d.doorsMoved base.endHolds base o ∧
    base.endHolds = { d with
      clock := clock, nodes := base.endHolds.nodes, segments := base.endHolds.segments, journal := base.endHolds.journal } := by
  have hnodes : base.nodes = d.nodes := by rw [hbase]
  have hsegments : base.segments = d.segments := by rw [hbase]
  have hclock : base.clock = clock := by rw [hbase]
  have hreach : base.doorsReachable := by rw [hbase]; exact hre
  obtain ⟨hmoved, hall⟩ := everyDoor_moved (d := base) (fun n r => r.minute n.state.isOut base.clock.minute) o base hreach
    (fun key n r hn hd => by
      rw [hnodes] at hn
      obtain ⟨hout, halarm⟩ := minute_gives (ho key n r hn hd)
      exact ⟨by rw [hclock]; exact hout.symm, halarm⟩) rfl rfl
  have hends : base.everyDoor (fun n r => r.minute n.state.isOut base.clock.minute) = base.endHolds := rfl
  rw [hends] at hmoved hall
  refine ⟨?_, ?_⟩
  · unfold Device.doorsMoved at hmoved ⊢
    rw [hnodes, hsegments] at hmoved
    exact hmoved
  · rw [hall, hbase]

/-- Settles O42: the start of fire, a change of one mode, the changes found at a release, and the minute. -/
theorem fireFreesTheDoors : Obligations.FireFreesTheDoors := by
  refine ⟨fun s c after cause w freed he hbefore hafter hheld hw hre hfreed => ?_,
    fun s pin c after cause w told he hchange hheld hre htold => ?_, fun s before hs hheld hre => ?_,
    fun s c clock base w o hre hcase ho => ?_⟩
  · obtain rfl : freed = fun _ n => n.isFreed := funext fun key => funext fun n => hfreed key n
    exact State.fireStarts he hbefore hafter hheld hw hre
  · subst htold
    have hreach : (s.dev.setHouse pin after).doorsReachable := by cases pin <;> exact hre
    have hheld' : (s.dev.setHouse pin after).resetHeld = none := by cases pin <;> exact hheld
    have hreports := (Device.houseChanges_told s.dev.modes cause w hreach hheld').2
    have hne : (s.dev.house pin).active ≠ after.active := by
      intro h
      rw [h] at hchange
      cases ha : after.active <;> simp [ha] at hchange
    have hone := Device.houseChanges_toldOne pin s.dev.modes cause w hreach hheld' (by
      cases pin
      · exact ⟨hne, rfl⟩
      · exact ⟨rfl, hne⟩)
    refine ⟨_, _, exec_houseEvent he ⟨he.isSettled, hreports.trans ?_⟩, hone, rfl⟩
    cases pin <;> exact he.isSettled
  · obtain ⟨htold, hreports⟩ := Device.houseChanges_told (d := { s.dev with resetHeld := none }) before .reset s.dev.walker hre rfl
    have hrelease : (s.onDevice Device.releaseReset).dev = Device.houseChanges { s.dev with resetHeld := none } before .reset := by
      show s.dev.releaseReset = _
      unfold Device.releaseReset
      rw [hheld]
    have hwalker : (Device.houseChanges { s.dev with resetHeld := none } before .reset).walker = s.dev.walker := by simp
    have hkeep : ({ Device.houseChanges { s.dev with resetHeld := none } before .reset with walker := s.dev.walker } : Device) =
        Device.houseChanges { s.dev with resetHeld := none } before .reset := by
      rw [← hwalker]
    rw [hkeep] at htold
    refine ⟨_, _, (exec_resetNRelease s).trans (commit_of_settled s _ ?_), htold, ?_⟩
    · rw [hrelease]
      exact hreports.trans hs
    · rw [hrelease]
      rfl
  · rcases hcase with ⟨rfl, hs, hdue, rfl, hclock, hbase⟩ | ⟨minute, second, block, tag, abort, rfl, hw, hclock, hbase, rfl⟩
    · obtain ⟨hmoved, hall⟩ := Device.endHolds_moved hre (base := base) (by rw [hbase]) ho
      have htick : (s.onDevice (fun d => d.tickIfDue)).dev = base.endHolds := by
        rw [hbase, hclock]
        exact if_pos hdue
      refine ⟨_, _, (exec_minuteTick s).trans (commit_of_settled s _ ?_), hmoved, ?_⟩
      · rw [htick, hall]
        exact hs
      · rw [htick, hall]
        rfl
    · have hset : base = s.dev.clockSet clock := by
        rw [hbase, hclock]
        rfl
      subst hset
      obtain ⟨hmoved, hall⟩ := Device.endHolds_moved hre (s.dev.clockSet_eq clock) ho
      refine ⟨_, _, exec_setClock_handed hw hclock (by rw [hall]; exact hw.2), hmoved, ?_⟩
      rw [hall]

end Sys2Proof.Machine
end

section
/-! SETUP: what its words give, and what it establishes (O43). -/

namespace Sys2Proof.Machine

open Sys2Proof

/-! ## The plan -/

/-- The tests on the journal region (R187). -/
theorem regionOk_iff (commonSize start stop : Nat) : regionOk commonSize start stop = true ↔
    start % 4 = 0 ∧ stop % 4 = 0 ∧ 512 ≤ start ∧ start < stop ∧ stop ≤ commonSize * 4096 ∧ 4096 ≤ stop - start ∧
      stop - start ≤ 8388608 := by
  unfold regionOk
  simp only [Bool.and_eq_true, decide_eq_true_eq, and_assoc]

/-- A plan is made of the segments' settings and the two senses, where the property code and the region pass. -/
theorem setupPlanOf_some {commonSize : Nat} {p : SetupParams} {plan : SetupPlan} : setupPlanOf commonSize p = some plan ↔
    ∃ sts sc fs ss, segmentsOf p.segments = some (sts, sc) ∧ Sense.ofCode p.fireSense.toNat = some fs ∧
      Sense.ofCode p.stormSense.toNat = some ss ∧ p.propertyCode.toNat ≤ 65535 ∧
      regionOk commonSize p.journalStart.toNat p.journalStop.toNat = true ∧
      plan = { propertyCode := p.propertyCode.toNat, region := { start := p.journalStart.toNat, stop := p.journalStop.toNat }
               threshold := (clampTop 8388604 p.threshold.toNat).1, segments := sts
               encodingTimeout := (clampDefault 5 120 30 p.encodingTimeout.toNat).1
               sessionLimit := (clampDefault 2 30 10 p.sessionLimit.toNat).1, fireSense := fs, stormSense := ss
               clamped := sc || (clampTop 8388604 p.threshold.toNat).2 || (clampDefault 5 120 30 p.encodingTimeout.toNat).2
                 || (clampDefault 2 30 10 p.sessionLimit.toNat).2 } := by
  unfold setupPlanOf
  cases hsegments : segmentsOf p.segments with
  | none => simp
  | some x =>
    cases hfire : Sense.ofCode p.fireSense.toNat with
    | none => simp
    | some fs =>
      cases hstorm : Sense.ofCode p.stormSense.toNat with
      | none => simp
      | some ss =>
        obtain ⟨sts, sc⟩ := x
        by_cases htests : p.propertyCode.toNat ≤ 65535 ∧ regionOk commonSize p.journalStart.toNat p.journalStop.toNat = true
        · obtain ⟨hcode, hregion⟩ := htests
          have hpass : (decide (65535 < p.propertyCode.toNat) ||
              !regionOk commonSize p.journalStart.toNat p.journalStop.toNat) = false := by
            simp [hcode, hregion]
          simp only [hpass, Bool.false_eq_true, if_false, Option.some.injEq, Prod.mk.injEq]
          constructor
          · rintro rfl
            exact ⟨sts, sc, fs, ss, ⟨rfl, rfl⟩, rfl, rfl, hcode, hregion, rfl⟩
          · rintro ⟨_, _, _, _, ⟨rfl, rfl⟩, rfl, rfl, -, -, rfl⟩
            rfl
        · have hfail : (decide (65535 < p.propertyCode.toNat) ||
              !regionOk commonSize p.journalStart.toNat p.journalStop.toNat) = true := by
            by_cases hcode : p.propertyCode.toNat ≤ 65535
            · have hregion := Bool.eq_false_iff.2 (fun h => htests ⟨hcode, h⟩)
              simp [hregion]
            · simp [Nat.lt_of_not_le hcode]
          simp only [hfail, if_true, reduceCtorEq, false_iff]
          rintro ⟨_, _, _, _, -, -, -, hcode, hregion, -⟩
          exact htests ⟨hcode, hregion⟩

/-- A plan exists exactly where every test passes (R187). -/
theorem setupPlanOf_isSome (commonSize : Nat) (p : SetupParams) : (setupPlanOf commonSize p).isSome = true ↔
    p.propertyCode.toNat ≤ 65535 ∧ (Sense.ofCode p.fireSense.toNat).isSome = true ∧ (Sense.ofCode p.stormSense.toNat).isSome = true ∧
    (∀ q ∈ p.segments, q.enabled.toNat ≤ 1 ∧ (SchedMode.ofCode q.mode.toNat).isSome = true) ∧
    p.journalStart.toNat % 4 = 0 ∧ p.journalStop.toNat % 4 = 0 ∧ 512 ≤ p.journalStart.toNat ∧
    p.journalStart.toNat < p.journalStop.toNat ∧ p.journalStop.toNat ≤ commonSize * 4096 ∧
    4096 ≤ p.journalStop.toNat - p.journalStart.toNat ∧ p.journalStop.toNat - p.journalStart.toNat ≤ 8388608 := by
  rw [← regionOk_iff, ← (segmentsOf_eq p.segments).1, Option.isSome_iff_exists]
  constructor
  · rintro ⟨plan, hplan⟩
    obtain ⟨sts, sc, fs, ss, hsegments, hfire, hstorm, hcode, hregion, -⟩ := setupPlanOf_some.1 hplan
    rw [hsegments, hfire, hstorm]
    exact ⟨hcode, rfl, rfl, rfl, hregion⟩
  · rintro ⟨hcode, hfire, hstorm, hsegments, hregion⟩
    obtain ⟨fs, hfire⟩ := Option.isSome_iff_exists.1 hfire
    obtain ⟨ss, hstorm⟩ := Option.isSome_iff_exists.1 hstorm
    obtain ⟨⟨sts, sc⟩, hsegments⟩ := Option.isSome_iff_exists.1 hsegments
    exact ⟨_, setupPlanOf_some.2 ⟨sts, sc, fs, ss, hsegments, hfire, hstorm, hcode, hregion, rfl⟩⟩

/-- The settings of a plan, clamped (R187). -/
theorem setupPlanOf_fields {commonSize : Nat} {p : SetupParams} {plan : SetupPlan} (h : setupPlanOf commonSize p = some plan) :
    plan.propertyCode = p.propertyCode.toNat ∧ plan.region = { start := p.journalStart.toNat, stop := p.journalStop.toNat } ∧
    plan.threshold = min 8388604 p.threshold.toNat ∧
    plan.encodingTimeout = (if p.encodingTimeout = 0 then 30 else max 5 (min 120 p.encodingTimeout.toNat)) ∧
    plan.sessionLimit = (if p.sessionLimit = 0 then 10 else max 2 (min 30 p.sessionLimit.toNat)) ∧
    Sense.ofCode p.fireSense.toNat = some plan.fireSense ∧ Sense.ofCode p.stormSense.toNat = some plan.stormSense ∧
    plan.segments.length = p.segments.length ∧
    (∀ (i : Nat) (q : SegmentParams) (st : SegmentSettings), p.segments[i]? = some q → plan.segments[i]? = some st →
      st.enabled = decide (q.enabled = 1) ∧ SchedMode.ofCode q.mode.toNat = some st.mode ∧
      st.timeout = (if q.timeout = 0 then 10 else max 2 (min 50 q.timeout.toNat))) ∧
    (plan.clamped = true ↔ 8388604 < p.threshold.toNat ∨
      (0 < p.encodingTimeout.toNat ∧ p.encodingTimeout.toNat < 5) ∨ 120 < p.encodingTimeout.toNat ∨
      p.sessionLimit.toNat = 1 ∨ 30 < p.sessionLimit.toNat ∨
      ∃ q ∈ p.segments, q.timeout.toNat = 1 ∨ 50 < q.timeout.toNat) := by
  obtain ⟨sts, sc, fs, ss, hsegments, hfire, hstorm, -, -, rfl⟩ := setupPlanOf_some.1 h
  obtain ⟨hlength, heach, hclamped⟩ := (segmentsOf_eq p.segments).2 sts sc hsegments
  simp only [clampTop_eq, clampDefault_eq 5 120 30 _ (by decide), clampDefault_eq 2 30 10 _ (by decide), Word.eq_zero_iff] at heach ⊢
  refine ⟨trivial, trivial, trivial, trivial, trivial, hfire, hstorm, hlength, heach, ?_⟩
  simp only [Bool.or_eq_true, decide_eq_true_eq, hclamped]
  constructor
  · rintro (((hq | hth) | het) | hsl)
    · exact .inr (.inr (.inr (.inr (.inr hq))))
    · exact .inl hth
    · omega
    · omega
  · rintro (hth | het | het | hsl | hsl | hq)
    · exact .inl (.inl (.inr hth))
    · exact .inl (.inr (.inl het))
    · exact .inl (.inr (.inr het))
    · exact .inr (.inl (by omega))
    · exact .inr (.inr hsl)
    · exact .inl (.inl (.inl hq))

/-! ## What an accepted SETUP establishes -/

/-- The journal behind a SETUP (R135). -/
theorem Journal.establish_eq (j : Journal) (region : Region) (threshold : Nat) : j.establish region threshold =
    if j.lastRegion = some region then
      (if j.drain = .inactive then Journal.attempt { j with region := some region, threshold := threshold }
        else { j with region := some region, threshold := threshold })
    else { j with
      region := some region, lastRegion := some region, writeMark := 0, readMark := 0, threshold := threshold
      drain := .idle, reread := none } := by
  unfold Journal.establish Journal.sameRegion
  by_cases h : j.lastRegion = some region <;> simp [h]

/-- A region that holds nothing unread may move, and the same region need not. -/
theorem Journal.mayMove {j : Journal} {region : Region} (h : j.lastRegion = some region ∨
    (j.queue = [] ∧ ∀ r, j.lastRegion = some r → (j.writeMark + r.size - j.readMark) % r.size = 0)) :
    (!j.sameRegion region && j.mayNotMove) = false := by
  rcases h with h | ⟨hqueue, hread⟩
  · simp [Journal.sameRegion, h]
  · unfold Journal.mayNotMove Journal.unreadOfLast
    cases hl : j.lastRegion with
    | none => simp [hqueue]
    | some r => simp [hqueue, Journal.unreadIn, hread r hl]

/-- The segments behind a SETUP, one by one. -/
theorem segments_zipWith {gs after : List Segment} {sts : List SegmentSettings}
    (h : ∀ i : Nat, after[i]? = (gs[i]?).bind (fun g => (sts[i]?).map (fun st => segAfter g st))) :
    after = List.zipWith (fun (g : Segment) st =>
      if st.enabled then { g with settings := some st }
      else { g with settings := some st, queue := [], exchange := none, attention := [] }) gs sts := by
  refine List.ext_getElem? fun i => ?_
  rw [h, List.getElem?_zipWith]
  cases hg : gs[i]? with
  | none => rfl
  | some g =>
    cases hs : sts[i]? with
    | none => rfl
    | some st => rfl

/-- The device as SETUP has set it, before the changes of the modes are handed on. -/
def Device.setUp (d : Device) (plan : SetupPlan) : Device :=
  let before : Device := { d with
    creds := { d.creds with propertyCode := some plan.propertyCode }, journal := d.journal.establish plan.region plan.threshold }
  let segments := before.applySegments 0 plan.segments
  { segments with
    creds := { segments.creds with encodingTimeout := some plan.encodingTimeout }
    sessionLimit := some plan.sessionLimit
    fire := segments.fire.withSense plan.fireSense
    storm := segments.storm.withSense plan.stormSense }

/-- An accepted SETUP hands on the changes of the modes, and is established. -/
theorem Device.acceptSetup_eq (d : Device) (plan : SetupPlan) : d.acceptSetup plan =
    { (d.setUp plan).houseChanges d.modes .setup with
      walker := { ((d.setUp plan).houseChanges d.modes .setup).walker with established := true } } := rfl

/-- A SETUP that passes its tests. -/
theorem Device.setup_accepted {d heard : Device} {p : SetupParams} {mark : Option Word} {plan : SetupPlan}
    (hplan : setupPlanOf d.regs.commonSize.toNat p = some plan) (hheard : d.setupReread mark = heard)
    (hmay : heard.journal.lastRegion = some plan.region ∨
      (heard.journal.queue = [] ∧ ∀ r, heard.journal.lastRegion = some r →
        (heard.journal.writeMark + r.size - heard.journal.readMark) % r.size = 0)) :
    d.setup p mark = (heard.acceptSetup plan,
      { code := .done, clamped := plan.clamped, words := [if heard.journal.lastRegion = some plan.region then 0 else 1] }) := by
  unfold Device.setup
  simp only [hplan, hheard, Journal.mayMove hmay]
  rw [if_neg (by decide)]
  unfold Journal.sameRegion
  by_cases h : heard.journal.lastRegion = some plan.region <;> simp [h]

/-- The re-read of the read mark as a SETUP is taken, answered (R121). -/
theorem Device.setupReread_answered {d : Device} {mark : Option Word} {j : Journal}
    (h : (d.journal.region = none ∧ j = d.journal) ∨ ∃ r v, d.journal.region = some r ∧ mark = some v ∧ j = d.journal.takeMark v.toNat) :
    d.setupReread mark = { d with journal := j } := by
  unfold Device.setupReread
  rcases h with ⟨hregion, rfl⟩ | ⟨r, v, hregion, rfl, rfl⟩
  · rw [hregion]
  · rw [hregion]

/-- Whether a SETUP may leave a segment disabled with nothing lost: no command on it that a submitter minds, and no session open on it. -/
def Device.mayDisable (d : Device) (seg : Nat) (g : Segment) : Prop :=
  (∀ e ∈ g.queue, e.command = .signal ∨ e.command = .abandon) ∧
  (∀ x, g.exchange = some x → (∀ c k, x.carried = some (c, k) → c = .signal ∨ c = .abandon) ∧
    (∀ c, x.next = some c → c = .signal ∨ c = .abandon)) ∧
  ∀ key room r, key / 256 = seg → (room, r) ∈ d.rooms → r.barLink = some key → r.bar.inSession = false

/-- Every field of the device as SETUP has set it. -/
theorem Device.setUp_eq {d : Device} {plan : SetupPlan} (hlength : plan.segments.length = d.segments.length) (hreports : d.reports = [])
    (hform : (∀ st ∈ plan.segments, st.enabled = true) ∨ (Table.wf d.nodes = true ∧
      ∀ key n r, Table.find key d.nodes = some n → n.door = some r → n.kind.isDoor = true))
    (hmay : ∀ (i : Nat) (st : SegmentSettings) (g : Segment), plan.segments[i]? = some st → d.segments[i]? = some g → st.enabled = false →
      d.mayDisable i g) :
    (∀ key, Table.find key (d.setUp plan).nodes = (Table.find key d.nodes).map (nodeAfter d.segments[key / 256]?
      plan.segments[key / 256]?)) ∧
    (d.setUp plan).segments = List.zipWith (fun (g : Segment) st =>
      if st.enabled then { g with settings := some st }
      else { g with settings := some st, queue := [], exchange := none, attention := [] }) d.segments plan.segments ∧
    d.setUp plan = { d with
      creds := { d.creds with propertyCode := some plan.propertyCode, encodingTimeout := some plan.encodingTimeout }
      sessionLimit := some plan.sessionLimit
      nodes := (d.setUp plan).nodes, segments := (d.setUp plan).segments
      journal := d.journal.establish plan.region plan.threshold
      fire := d.fire.withSense plan.fireSense, storm := d.storm.withSense plan.stormSense } ∧
    (Table.wf d.nodes = true → (∀ st ∈ plan.segments, st.enabled = true) → Table.wf (d.setUp plan).nodes = true) := by
  obtain ⟨hsegments, hnodes, hall, hwf⟩ := applySegments_all plan.segments
    { d with
      creds := { d.creds with propertyCode := some plan.propertyCode }, journal := d.journal.establish plan.region plan.threshold }
    0 (by simpa using hlength) hreports hform (fun i st g hs hg hen => by
      rw [Nat.zero_add] at hg
      rw [Nat.zero_add]
      exact hmay i st g hs hg hen)
  refine ⟨fun key => ?_, ?_, ?_, hwf⟩
  · refine (hnodes key).trans ?_
    simp only [Nat.not_lt_zero, if_false, Nat.sub_zero]
  · refine segments_zipWith fun i => ?_
    exact (hsegments i).trans (by simp only [Nat.not_lt_zero, if_false, Nat.sub_zero])
  · unfold Device.setUp
    dsimp only
    rw [hall]

/-- With every segment enabled, every door that takes commands is reached. -/
theorem Device.setUp_reachable {d : Device} {plan : SetupPlan} (hwf : Table.wf (d.setUp plan).nodes = true)
    (hsegments : (d.setUp plan).segments = List.zipWith (fun (g : Segment) st =>
      if st.enabled then { g with settings := some st }
      else { g with settings := some st, queue := [], exchange := none, attention := [] }) d.segments plan.segments)
    (hen : ∀ st ∈ plan.segments, st.enabled = true) : (d.setUp plan).doorsReachable := by
  refine ⟨hwf, fun key n _ _ _ => ?_⟩
  unfold Device.segment
  rw [hsegments, List.getD_eq_getElem?_getD, List.getElem?_zipWith]
  cases hg : d.segments[key / 256]? with
  | none => rfl
  | some g =>
    cases hs : plan.segments[key / 256]? with
    | none => rfl
    | some st =>
      have henabled := hen st (List.mem_of_getElem? hs)
      simp [henabled, Segment.isDisabled]

/-- No change of a mode leaves nothing to tell. -/
theorem Device.setupTold_same {d : Device} {before : HouseModes} (hfire : d.fire.active = before.fire)
    (hstorm : d.storm.active = before.storm) : d.setupTold d before ∧ d.houseChanges before .setup = d := by
  refine ⟨?_, Device.houseChanges_same d before .setup (.inr ?_)⟩
  · unfold Device.setupTold
    split_ifs
    · rfl
    · refine ⟨d, _, rfl, ?_, ?_⟩
      · rw [if_pos hfire.symm]
      · rw [if_pos hstorm.symm]
  · unfold Device.modes
    rw [hfire, hstorm]

/-- The changes of the modes that a SETUP makes are told to reachable doors. -/
theorem Device.setupTold_reachable {d : Device} (before : HouseModes) (hre : d.doorsReachable) :
    d.setupTold (d.houseChanges before .setup) before ∧ (d.houseChanges before .setup).reports = d.reports := by
  unfold Device.setupTold
  cases hheld : d.resetHeld with
  | some modes =>
    have hsame := Device.houseChanges_same d before .setup (.inl (by rw [hheld]; rfl))
    rw [hsame]
    exact ⟨rfl, rfl⟩
  | none =>
    obtain ⟨htold, hreports⟩ := Device.houseChanges_told before .setup d.walker hre hheld
    have hwalker : (d.houseChanges before .setup).walker = d.walker := by simp
    have hkeep : ({ d.houseChanges before .setup with walker := d.walker } : Device) = d.houseChanges before .setup := by rw [← hwalker]
    rw [hkeep] at htold
    exact ⟨htold, hreports⟩

/-- Settles O43: the plan, and a SETUP that passes its tests. -/
theorem setupIsTestedAndEstablishes : Obligations.SetupIsTestedAndEstablishes := by
  refine ⟨fun commonSize p => ⟨setupPlanOf_isSome commonSize p, fun plan hplan => setupPlanOf_fields hplan⟩, ?_⟩
  intro s p mark block tag abort plan j fire storm hw hplan hlen hlen' hmay hj hmove hfire hstorm hmodes
  have hheard := Device.setupReread_answered hj
  generalize hd : ({ s.dev with journal := j } : Device) = heard at hheard
  have hfields : heard = { s.dev with journal := j } := hd.symm
  have hsetup := Device.setup_accepted (p := p) (mark := mark) hplan hheard (by rw [hfields]; exact hmove)
  rw [heard.acceptSetup_eq] at hsetup
  have hfire' : heard.fire.withSense plan.fireSense = fire := by rw [hfields, hfire, House.withSense_eq]
  have hstorm' : heard.storm.withSense plan.stormSense = storm := by rw [hfields, hstorm, House.withSense_eq]
  obtain ⟨hnodes, hsegments, hall, hwf⟩ := Device.setUp_eq (d := heard) (plan := plan) (by rw [hfields]; exact hlen.trans hlen'.symm)
    (by rw [hfields]; exact hw.2)
    (by rw [hfields]; exact hmodes.imp (fun h => h.1) (fun h => ⟨h.1, h.2.1⟩))
    (fun i st g hs hg hen => by rw [hfields] at hg ⊢; exact hmay i st g hs hg hen)
  rw [hfire', hstorm'] at hall
  have hsetFire : (heard.setUp plan).fire = fire := by rw [hall]
  have hsetStorm : (heard.setUp plan).storm = storm := by rw [hall]
  generalize hbefore : ({ fire := s.dev.fire.active, storm := s.dev.storm.active } : HouseModes) = before
  have hheardModes : heard.modes = before := by rw [hfields, ← hbefore]; rfl
  rw [hheardModes] at hsetup
  obtain ⟨htold, hreports⟩ : (heard.setUp plan).setupTold ((heard.setUp plan).houseChanges before .setup) before ∧
      ((heard.setUp plan).houseChanges before .setup).reports = [] := by
    have hquiet : (heard.setUp plan).reports = [] := by rw [hall, hfields]; exact hw.2
    have hsame : fire.active = s.dev.fire.active ∧ storm.active = s.dev.storm.active → _ := fun h =>
      Device.setupTold_same (d := heard.setUp plan) (before := before)
        (by rw [hsetFire, ← hbefore]; exact h.1) (by rw [hsetStorm, ← hbefore]; exact h.2)
    rcases hmodes with ⟨-, h⟩ | ⟨hform, -, hen | h⟩
    · rw [(hsame h).2]
      exact ⟨(hsame h).1, hquiet⟩
    · have hreach := Device.setUp_reachable (hwf (by rw [hfields]; exact hform) hen) hsegments hen
      obtain ⟨htold, hreports⟩ := Device.setupTold_reachable (d := heard.setUp plan) before hreach
      exact ⟨htold, hreports.trans hquiet⟩
    · rw [(hsame h).2]
      exact ⟨(hsame h).1, hquiet⟩
  have hwalker : ((heard.setUp plan).houseChanges before .setup).walker = s.dev.walker := by
    have h : (heard.setUp plan).walker = s.dev.walker := by rw [hall, hfields]
    simpa using h
  refine ⟨_, heard.setUp plan, _, (exec_setup p mark s).trans (commit_order hw.1 hsetup hreports), ?_, fun key => ?_, ?_, ?_, htold,
    ?_, ?_⟩
  · rw [hall, hfields]
    exact j.establish_eq plan.region plan.threshold
  · rw [hnodes, hfields]
    rfl
  · rw [hsegments, hfields]
  · rw [hall, hfields]
  · dsimp only
    rw [hwalker, hfields]
    rfl
  · rfl

end Sys2Proof.Machine
end

section
/-! The board reset and the soft reset (O44). -/

namespace Sys2Proof.Machine

open Sys2Proof

/-! ## The running state -/

/-- A room behind a board or soft reset, its guest card count apart. -/
theorem Room.reset_eq (r : Room) : r.reset = { r with
    lastButton := none, session := none, unlatchPending := false
    unsettled := r.unsettled || r.bar.inSession
    bar := if r.bar.inSession then r.restState else r.bar } := by
  unfold Room.reset
  cases r.bar.inSession <;> simp

/-- The state after the entries in ENCODING are FREE and the encoders empty (R27). -/
theorem Device.resetCredentials_eq {d : Device} (hw : Table.wf d.creds.entries = true) (hk : ∀ q ∈ d.creds.entries, q.1 < 4294967296) :
    (∀ serial, d.resetCredentials.entryOf serial = (d.entryOf serial).filter (fun e => decide (e.state ≠ .encoding))) ∧
    d.resetCredentials.creds.deny = (((d.creds.entries.filter (fun p => decide (p.2.state = .encoding) && p.2.deniedBefore)).map
      (fun p => natWord p.1)).foldl (fun deny serial => denyAppend serial deny) d.creds.deny) ∧
    (∀ i, Table.find i d.resetCredentials.rooms = (Table.find i d.rooms).map (fun r => { r with
      guestCount := r.guestCount - (d.creds.entries.filter (fun p =>
        decide (p.2.state = .encoding) && decide (p.2.kind = .guest) && decide (p.2.room = i))).length })) ∧
    d.resetCredentials = { d with
      creds := { d.creds with
        entries := d.resetCredentials.creds.entries, deny := d.resetCredentials.creds.deny
        encoders := Table.mapVals (fun _ _ => ({ current := none, waiting := [], lastResult := none } : Encoder)) d.creds.encoders }
      rooms := d.resetCredentials.rooms } := by
  obtain ⟨hentries, hdeny, hrooms, hall⟩ := Device.freeAtReset_all (d.creds.entries.filter (fun p => decide (p.2.state = .encoding))) d
    (fun p hp => ⟨Table.find_of_mem hw (List.mem_filter.1 hp).1, hk p (List.mem_filter.1 hp).1⟩)
    ((((Table.wf_iff _).1 hw).imp (fun h => Nat.ne_of_lt h)).filter _)
  refine ⟨fun serial => ?_, ?_, fun i => ?_, ?_⟩
  · refine (hentries serial).trans ?_
    cases he : d.entryOf serial with
    | none => simp
    | some e =>
      have hmem : serial.toNat ∈ (d.creds.entries.filter (fun p => decide (p.2.state = .encoding))).map (fun p => p.1) ↔
          e.state = .encoding := by
        constructor
        · intro h
          obtain ⟨q, hq, hqk⟩ := List.mem_map.1 h
          obtain ⟨hq, hst⟩ := List.mem_filter.1 hq
          have hfind := Table.find_of_mem hw hq
          rw [hqk] at hfind
          have : q.2 = e := Option.some.inj (hfind.symm.trans he)
          rw [← this]
          exact of_decide_eq_true hst
        · intro h
          exact List.mem_map.2 ⟨(serial.toNat, e), List.mem_filter.2 ⟨Table.mem_of_find he, decide_eq_true h⟩, rfl⟩
      by_cases hst : e.state = .encoding
      · rw [if_pos (hmem.2 hst)]
        exact (Option.filter_some_neg (by simp [hst])).symm
      · rw [if_neg (fun h => hst (hmem.1 h))]
        exact (Option.filter_some_pos (by simp [hst])).symm
  · refine hdeny.trans ?_
    rw [List.filter_filter]
    simp only [Bool.and_comm]
  · refine (hrooms i).trans ?_
    simp only [List.filter_filter]
    have hkeys : ∀ p : Nat × Entry, (decide (p.2.kind = .guest) && decide (p.2.room = i) && decide (p.2.state = .encoding)) =
        (decide (p.2.state = .encoding) && decide (p.2.kind = .guest) && decide (p.2.room = i)) := fun p => by
      rw [Bool.and_comm, Bool.and_assoc]
    simp only [hkeys]
  · unfold Device.resetCredentials Table.keysWhere
    dsimp only
    generalize hx : List.foldl Device.freeAtReset d _ = x at hall ⊢
    rw [hall]

/-- The device behind a board or soft reset: entries, encoders, rooms and nodes (R27, R43, R62, R84, R104, R162). -/
theorem Device.resetRunning_eq {d : Device} (hw : Table.wf d.creds.entries = true) (hk : ∀ q ∈ d.creds.entries, q.1 < 4294967296) :
    d.runningReset d.resetRunning ∧
    d.resetRunning = { d with
      creds := { d.creds with
        entries := d.resetRunning.creds.entries, deny := d.resetRunning.creds.deny, encoders := d.resetRunning.creds.encoders }
      rooms := d.resetRunning.rooms, nodes := d.resetRunning.nodes, reports := [] } := by
  obtain ⟨hentries, hdeny, hrooms, hall⟩ := Device.resetCredentials_eq hw hk
  refine ⟨⟨hentries, hdeny, fun key => ?_, fun i => ?_, fun key => ?_⟩, ?_⟩
  · have hencoders : d.resetRunning.creds.encoders = Table.mapVals (fun _ _ => ({ current := none, waiting := [], lastResult := none } :
        Encoder)) d.creds.encoders := by
      show d.resetCredentials.creds.encoders = _
      rw [hall]
    rw [hencoders]
    exact Table.find_mapVals key (fun _ _ => ({ current := none, waiting := [], lastResult := none } : Encoder)) d.creds.encoders
  · refine (Table.find_mapVals i (fun _ r => Room.reset r) d.resetCredentials.rooms).trans ?_
    rw [hrooms, Option.map_map]
    refine congrArg (fun f => (Table.find i d.rooms).map f) (funext fun r => ?_)
    rw [Function.comp_apply, Room.reset_eq]
    rfl
  · have hnodes : d.resetCredentials.nodes = d.nodes := by rw [hall]
    refine (Table.find_mapVals key (fun _ n => Node.reset n) d.resetCredentials.nodes).trans ?_
    rw [hnodes]
    rfl
  · unfold Device.resetRunning
    dsimp only
    generalize hx : d.resetCredentials = x at hall
    rw [hall]

/-! ## The writes accepted, the walker and the journal -/

/-- Board memory at a reset: of each sequence of writes what had been accepted. -/
theorem State.acceptUpTo_eq {s : State} {p : PortProgress} {ws : List PortWrite}
    (hwriting : ∀ block abort w, s.dev.walker.walk = .walking block abort (.writing w) → ws = (w.cancels.flatten ++ w.own).dropLast)
    (hother : (∀ block abort w, s.dev.walker.walk ≠ .walking block abort (.writing w)) → ws = []) :
    s.acceptUpTo p = { s with
      mem := Memory.accept s.mem
        (ws.take p.block ++ s.dev.walker.page.take p.page ++ s.dev.placementWrites.take p.placement) } := by
  unfold State.acceptUpTo
  split
  · next block abort w h => rw [hwriting block abort w h]
  · next h => rw [hother fun block abort w hw => h block abort w hw]

/-- A walk stops at its block with cause RESET. -/
theorem Walker.reset_eq {w stopped : Walker} (established : Bool)
    (hidle : w.walk = .idle → stopped = { w with settlements := [], page := [] })
    (hwalking : ∀ block abort phase, w.walk = .walking block abort phase →
      stopped = { w with walk := .idle, lastBlock := block, lastEnd := .reset, settlements := [], page := [] }) :
    w.reset established = { stopped with established := established } := by
  unfold Walker.reset
  cases h : w.walk with
  | idle => rw [hidle h, h]
  | walking block abort phase => rw [hwalking block abort phase h]

/-- The journal behind a reset has no more load than before. -/
theorem Journal.softReset_load (j : Journal) : j.softReset.load ≤ j.load ∧ j.boardReset.load ≤ j.load := by
  unfold Journal.load
  refine ⟨?_, ?_⟩ <;> simp

/-- Settles O44: the soft reset behind a CONTROL write, and the board reset. -/
theorem resetsKeepAndClear : Obligations.ResetsKeepAndClear := by
  intro s value p ws stopped mem hheld hs hw hk hwriting hother hidle hwalking hmem
  have haccept : ∀ enable : Bool, ((s.onDevice (fun d => d.writeAlertEnable enable)).acceptUpTo p) =
      { s with mem := mem, dev := s.dev.writeAlertEnable enable } := by
    intro enable
    rw [State.acceptUpTo_eq (s := s.onDevice (fun d => d.writeAlertEnable enable)) hwriting hother, hmem]
    rfl
  obtain ⟨hrunning, hall⟩ := Device.resetRunning_eq hw hk
  rw [← show s.dev.reports = [] from hs] at hall
  refine ⟨fun hset => ?_, ?_⟩
  · have hwrite : s.writeControl value p = { s with mem := mem, dev := (s.dev.writeAlertEnable (value.getLsbD 0)).softReset } := by
      rcases s.writeControl_cases value p with ⟨h, -⟩ | ⟨-, h, -⟩ | ⟨-, -, h⟩
      · rw [hheld] at h
        cases h
      · rw [hset] at h
        cases h
      · rw [h, haccept]
        rfl
    have hfields : (s.dev.writeAlertEnable (value.getLsbD 0)).softReset = { s.dev with
        regs := { s.dev.regs with status := 0, alertEnable := value.getLsbD 0 }
        walker := stopped
        creds := { s.dev.creds with
          entries := s.dev.resetRunning.creds.entries, deny := s.dev.resetRunning.creds.deny
          encoders := s.dev.resetRunning.creds.encoders }
        rooms := s.dev.resetRunning.rooms, nodes := s.dev.resetRunning.nodes
        segments := s.dev.segments.map (fun g =>
          { g with queue := [], exchange := none, attention := [], presence := 1, lastServed := 0 })
        journal := Journal.attempt { s.dev.journal with reserved := 0, reread := none } } := by
      unfold Device.softReset
      rw [Device.resetRunning_writeAlertEnable]
      generalize s.dev.resetRunning = x at hall
      rw [hall]
      dsimp only [Device.writeAlertEnable]
      rw [Walker.reset_eq s.dev.walker.established hidle hwalking]
      have hestablished : ({ stopped with established := s.dev.walker.established } : Walker) = stopped := by
        cases hwalk : s.dev.walker.walk with
        | idle => rw [hidle hwalk]
        | walking block abort phase => rw [hwalking block abort phase hwalk]
      rw [hestablished]
      rfl
    have hnext : exec (.softReset value p) s = .next (s.writeControl value p) := by
      rw [exec_softReset]
      refine commit_of_load_le s _ ?_ ?_
      · rw [hwrite, hfields]
        exact hs
      · rw [hwrite, hfields]
        exact s.dev.journal.softReset_load.1
    refine ⟨s.writeControl value p, hnext, fun hp => ?_, ?_, ?_, ?_⟩
    · subst hp
      exact hnext
    · rw [hwrite, hfields]
      exact hrunning
    · rw [hwrite, hfields]
    · rw [hwrite, hfields]
  · have hboard : s.boardReset p = { s with mem := mem, dev := s.dev.boardReset } := by
      unfold State.boardReset
      rw [if_neg (by simp [hheld]), State.acceptUpTo_eq hwriting hother, hmem]
      rfl
    have hfields : s.dev.boardReset = { s.dev with
        regs := { commonBase := 0, commonSize := 0, status := 0, alertMask := 0, alertEnable := false }
        resetHeld := some { fire := s.dev.fire.active, storm := s.dev.storm.active }
        walker := { stopped with established := false }
        creds := { s.dev.creds with
          entries := s.dev.resetRunning.creds.entries, deny := s.dev.resetRunning.creds.deny
          encoders := s.dev.resetRunning.creds.encoders }
        rooms := s.dev.resetRunning.rooms, nodes := s.dev.resetRunning.nodes
        segments := s.dev.segments.map (fun g =>
          { g with settings := none, queue := [], exchange := none, attention := [], presence := 1, lastServed := 0 })
        journal := { s.dev.journal with region := none, reserved := 0, drain := .inactive, reread := none } } := by
      unfold Device.boardReset
      generalize s.dev.resetRunning = x at hall
      rw [hall]
      dsimp only
      rw [Walker.reset_eq false hidle hwalking]
      rfl
    refine ⟨s.boardReset p, ?_, ?_, ?_⟩
    · rw [exec_boardReset]
      refine commit_of_load_le s _ ?_ ?_
      · rw [hboard, hfields]
        exact hs
      · rw [hboard, hfields]
        exact s.dev.journal.softReset_load.2
    · rw [hboard, hfields]
      exact hrunning
    · rw [hboard, hfields]

end Sys2Proof.Machine
end

section
/-! The command queue and the turns of a segment (O45). -/

namespace Sys2Proof.Machine

open Sys2Proof

/-! ## A command handed, and its place -/

/-- An attempt in progress of a command for the address. -/
theorem Segment.hasAttempt_iff (g : Segment) (addr : Nat) :
    g.hasAttempt addr = true ↔ ∃ x, g.exchange = some x ∧ x.addr = addr ∧ x.carried ≠ none := by
  unfold Segment.hasAttempt
  cases g.exchange <;> simp [Option.isSome_iff_ne_none]

/-- A command for the address that is queued. -/
theorem Segment.hasQueued_iff (g : Segment) (addr : Nat) : g.hasQueued addr = true ↔ ∃ e ∈ g.queue, e.addr = addr := by
  unfold Segment.hasQueued
  simp

/-- A SIGNAL behind a pending command is dropped (R155). -/
theorem Segment.place_signal {g : Segment} {addr : Nat} (h : g.hasAttempt addr = true ∨ g.hasQueued addr = true) :
    g.place addr .signal = g := by
  unfold Segment.place
  exact if_pos (by simpa using h.symm)

/-- A command other than SIGNAL replaces one that is queued, in its place (R155). -/
theorem Segment.place_queued {g : Segment} {addr : Nat} {c : Command} (hc : c ≠ .signal) (h : g.hasQueued addr = true) :
    g.place addr c = { g with
      queue := g.queue.map (fun e => if e.addr = addr then { addr := addr, command := c, attempts := 0 } else e) } := by
  unfold Segment.place
  rw [if_neg (by simp [hc]), if_pos h]

/-- A command other than SIGNAL is held next behind an attempt in progress (R155). -/
theorem Segment.place_held {g : Segment} {addr : Nat} {c : Command} (hc : c ≠ .signal) (hq : g.hasQueued addr = false)
    (h : g.hasAttempt addr = true) : g.place addr c = { g with exchange := g.exchange.map (fun x => { x with next := some c }) } := by
  unfold Segment.place
  rw [if_neg (by simp [hc]), if_neg (by simp [hq]), if_pos h]

/-- With nothing pending for the address a command enters at the tail (R155). -/
theorem Segment.place_tail {g : Segment} {addr : Nat} (c : Command) (hq : g.hasQueued addr = false) (h : g.hasAttempt addr = false) :
    g.place addr c = { g with queue := g.queue ++ [{ addr := addr, command := c, attempts := 0 }] } := by
  unfold Segment.place
  rw [if_neg (by simp [hq, h]), if_neg (by simp [hq]), if_neg (by simp [h])]

/-- One entry of a queue replaced, the others being for other addresses. -/
theorem queue_replaced {before after : List QueueEntry} {e new : QueueEntry} {addr : Nat} (he : e.addr = addr)
    (h : ∀ x ∈ before ++ after, x.addr ≠ addr) :
    (before ++ e :: after).map (fun e => if e.addr = addr then new else e) = before ++ new :: after := by
  have hkeep : ∀ l : List QueueEntry, (∀ x ∈ l, x.addr ≠ addr) → l.map (fun e => if e.addr = addr then new else e) = l :=
    fun l hl => (List.map_congr_left (fun x hx => if_neg (hl x hx))).trans (List.map_id l)
  rw [List.map_append, List.map_cons, if_pos he, hkeep before (fun x hx => h x (List.mem_append_left _ hx)),
    hkeep after (fun x hx => h x (List.mem_append_right _ hx))]

/-! ## A turn -/

/-- A polled state is neither FAULTED nor RETRY_WAIT. -/
theorem NodeState.isOut_eq_false_iff (st : NodeState) : (!st.isOut) = true ↔ st ≠ .faulted ∧ st ≠ .retryWait := by
  cases st <;> simp [NodeState.isOut]

/-- The turn of a segment that may take one (R150). -/
theorem Device.turn_eq {d : Device} {seg : Nat} {g : Segment} {st : SegmentSettings} (h : d.atTurn seg g st) : d.turn seg =
    match d.addressesWhere seg (fun n => n.owedAck.isSome) with
    | a :: _ => d.sendFrame seg a (g.ackMessage a)
    | [] =>
      match g.queue with
      | e :: _ => d.sendFrame seg e.addr (.command e.command e.attempts)
      | [] => (d.attentionTurn seg st.mode g.attention).getD (d.presenceTurn seg) := by
  obtain ⟨hseg, -, hsettings, henabled, hexchange⟩ := h
  unfold Device.turn
  simp only [hseg, hsettings, hexchange]
  rw [if_pos henabled]
  cases d.addressesWhere seg (fun n => n.owedAck.isSome) with
  | cons a rest => rfl
  | nil =>
    cases g.queue with
    | cons e rest => rfl
    | nil => cases d.attentionTurn seg st.mode g.attention <;> rfl

/-- A segment that is not set up, is disabled or has an exchange takes no turn (R150). -/
theorem Device.turn_none {d : Device} {seg : Nat}
    (h : (d.segment seg).settings = none ∨ (d.segment seg).isDisabled = true ∨ (d.segment seg).exchange ≠ none) : d.turn seg = d := by
  unfold Device.turn
  dsimp only
  unfold Segment.isDisabled at h
  cases hs : (d.segment seg).settings with
  | none => rfl
  | some st =>
    cases hx : (d.segment seg).exchange with
    | some x => rfl
    | none =>
      simp only [hs, hx, reduceCtorEq, false_or, ne_eq, not_true_eq_false, or_false] at h ⊢
      rw [if_neg (by simpa using h)]

/-- A turn that sends a frame from the device as it stands. -/
theorem exec_turn {s : State} {seg addr : Nat} {g g' : Segment} {st : SegmentSettings} (m : Send) (dx : Device) (passed : Nat → Node → Node)
    (hs : s.settled) (h : s.dev.atTurn seg g st) (hset : g'.settings = g.settings)
    (hnodes : ∀ key, Table.find key dx.nodes = (Table.find key s.dev.nodes).map (passed key))
    (hack : ∀ key n, (passed key n).owedAck = n.owedAck)
    (hdx : dx = { s.dev with nodes := dx.nodes, segments := s.dev.segments.set seg g' })
    (hf : s.dev.turn seg = dx.sendFrame seg addr m) :
    ∃ t, exec (.segmentTurn seg) s = .next t ∧ s.frameSent t seg addr g' st.timeout passed m.code m.body m.carried := by
  obtain ⟨-, hlen, hsettings, -⟩ := h
  exact exec_sendFrame m dx passed (fun d => d.turn seg) _ hs (hset.trans hsettings) hlen hnodes hack hdx (exec_segmentTurn seg s) hf

/-- A turn that leaves the nodes and the segment's own fields. -/
theorem exec_turn_plain {s : State} {seg addr : Nat} {g : Segment} {st : SegmentSettings} (m : Send) (hs : s.settled)
    (h : s.dev.atTurn seg g st) (hf : s.dev.turn seg = s.dev.sendFrame seg addr m) :
    ∃ t, exec (.segmentTurn seg) s = .next t ∧ s.frameSent t seg addr g st.timeout (fun _ n => n) m.code m.body m.carried := by
  refine exec_turn m s.dev (fun _ n => n) hs h rfl (fun key => by simp) (fun _ _ => rfl) ?_ hf
  obtain ⟨hseg, hlen, -⟩ := h
  rw [← hseg, Device.set_segment_self hlen]

/-- With no ACK owed and no command queued, a turn is an attention turn or a presence turn. -/
theorem Device.turn_quiet {d : Device} {seg : Nat} {g : Segment} {st : SegmentSettings} (h : d.atTurn seg g st)
    (hack : d.addressesWhere seg (fun n => n.owedAck.isSome) = []) (hqueue : g.queue = []) :
    d.turn seg = (d.attentionTurn seg st.mode g.attention).getD (d.presenceTurn seg) := by
  rw [Device.turn_eq h, hack, hqueue]

/-- Without a member of the attention set there is no attention turn. -/
theorem Device.attentionTurn_nil (d : Device) (seg : Nat) (mode : SchedMode) : d.attentionTurn seg mode [] = none := by
  cases mode <;> rfl

/-- The first polled node from the presence pointer on (R154). -/
theorem polled_choice {l : List Nat} {a pointer : Nat} (ha : a ∈ l) (hs : l.Pairwise (fun a b => a < b))
    (h : (pointer ≤ a ∧ ∀ b ∈ l, pointer ≤ b → a ≤ b) ∨ ∀ b ∈ l, b < pointer ∧ a ≤ b) :
    l.find? (fun a => decide (pointer ≤ a)) = some a ∨ (l.find? (fun a => decide (pointer ≤ a)) = none ∧ l.head? = some a) := by
  rcases h with ⟨hle, hleast⟩ | hbelow
  · exact .inl (rising_find hs ha (by simpa using hle) (fun b hb hp => hleast b hb (by simpa using hp)))
  · have hnone : l.find? (fun a => decide (pointer ≤ a)) = none := by
      rw [List.find?_eq_none]
      intro b hb
      have := (hbelow b hb).1
      simp
      omega
    obtain ⟨rest, hrest⟩ := rising_head hs ha (fun b hb => (hbelow b hb).2)
    exact .inr ⟨hnone, by rw [hrest]; rfl⟩

/-- The presence turn where an address is chosen. -/
theorem Device.presenceTurn_some {d : Device} {seg a pointer : Nat} {g : Segment} (hg : d.segment seg = g)
    (h : d.presenceChoice seg g.presence = some (a, pointer)) :
    d.presenceTurn seg = (d.setSegment seg { g with presence := pointer }).sendFrame seg a .fetch := by
  subst hg
  unfold Device.presenceTurn
  dsimp only
  rw [h]

/-- The presence turn where no address is polled. -/
theorem Device.presenceTurn_none {d : Device} {seg : Nat} {g : Segment} (hg : d.segment seg = g)
    (h : d.presenceChoice seg g.presence = none) : d.presenceTurn seg = d := by
  subst hg
  unfold Device.presenceTurn
  dsimp only
  rw [h]

/-- Settles O45: the place of a command, then the candidates of a turn one after another. -/
theorem turnServesTheFirstCandidate : Obligations.TurnServesTheFirstCandidate := by
  refine ⟨fun d key n c hf => ⟨fun hre => ?_, fun hre => Device.hand_reachable c hre⟩, fun g addr c attempt hattempt => ?_,
    fun s seg hs hwf => ⟨fun hnone => ?_, ?_⟩⟩
  · rcases d.hand_cases key c with ⟨hn, -⟩ | ⟨-, -, -, h⟩ | ⟨m, hm, -⟩
    · rw [hf] at hn
      cases hn
    · exact h
    · have hmn : m = n := Option.some.inj (hm.1.symm.trans hf)
      exact absurd (hmn ▸ hm) hre
  · rw [← Segment.hasAttempt_iff] at hattempt
    rw [hattempt]
    refine ⟨fun hc h => ?_, fun before e after hc hqueue he hothers => ?_, fun hq => ⟨fun x hc ha hx => ?_, fun ha => ?_⟩⟩
    · subst hc
      exact Segment.place_signal (h.imp_right (Segment.hasQueued_iff g addr).2)
    · rw [Segment.place_queued hc ((Segment.hasQueued_iff g addr).2 ⟨e, by rw [hqueue]; simp, he⟩), hqueue, queue_replaced he hothers]
    · have hnone : g.hasQueued addr = false := Bool.eq_false_iff.2 fun h =>
        have ⟨e, hm, he⟩ := (Segment.hasQueued_iff g addr).1 h
        hq e hm he
      rw [Segment.place_held hc hnone ha, hx]
      rfl
    · have hnone : g.hasQueued addr = false := Bool.eq_false_iff.2 fun h =>
        have ⟨e, hm, he⟩ := (Segment.hasQueued_iff g addr).1 h
        hq e hm he
      exact Segment.place_tail c hnone (Bool.eq_false_iff.2 ha)
  · exact (exec_segmentTurn seg s).trans (commit_unchanged s _ (State.onDevice_self s _ (Device.turn_none hnone)) hs)
  · intro g st owing polled h hrising hdefined howing hpolled
    have hmemOwing : ∀ a, a ∈ s.dev.addressesWhere seg (fun n => n.owedAck.isSome) ↔ owing a := fun a =>
      (Device.mem_addressesWhere hwf).trans (howing a).symm
    refine ⟨fun a ha hleast => ?_, fun hnoOwing => ⟨fun e rest hqueue => ?_, fun hqueue => ?_⟩⟩
    · obtain ⟨rest, hrest⟩ := rising_head (Device.addressesWhere_rising hwf) ((hmemOwing a).2 ha)
        (fun b hb => hleast b ((hmemOwing b).1 hb))
      obtain ⟨t, ht, hsent⟩ := exec_turn_plain (addr := a) (g.ackMessage a) hs h (by rw [Device.turn_eq h, hrest])
      refine ⟨t, ht, ?_⟩
      unfold Segment.ackMessage at hsent
      cases he : g.queue.find? (fun e => decide (e.addr = a)) with
      | none => rw [he] at hsent; exact hsent
      | some e => rw [he] at hsent; exact hsent
    · have hnil : s.dev.addressesWhere seg (fun n => n.owedAck.isSome) = [] :=
        List.eq_nil_iff_forall_not_mem.2 fun a ha => hnoOwing a ((hmemOwing a).1 ha)
      exact exec_turn_plain (.command e.command e.attempts) hs h (by rw [Device.turn_eq h, hnil, hqueue])
    · have hnil : s.dev.addressesWhere seg (fun n => n.owedAck.isSome) = [] :=
        List.eq_nil_iff_forall_not_mem.2 fun a ha => hnoOwing a ((hmemOwing a).1 ha)
      have hquiet := Device.turn_quiet h hnil hqueue
      refine ⟨fun hmode a ha hahead => ?_, fun hmode a ha hnext => ?_, fun hattention => ?_⟩
      · refine exec_turn (g' := g) .fetch (s.dev.countPassOver seg a g.attention) (fun key n =>
          if key / 256 = seg ∧ key % 256 ∈ g.attention then { n with passOver := if key % 256 = a then 0 else min 8 (n.passOver + 1) }
          else n)
          hs h rfl (fun key => ?_) (fun key n => by split <;> rfl) ?_ ?_
        · refine (Table.find_mapVals key (fun key n => if keySeg key = seg && g.attention.contains (keyAddr key) then
            { n with passOver := if keyAddr key = a then 0 else min Config.passOverLimit (n.passOver + 1) } else n) s.dev.nodes).trans ?_
          simp only [Bool.and_eq_true, decide_eq_true_eq, List.contains_iff_mem]
          rfl
        · rw [← h.1, Device.set_segment_self h.2.1]
          rfl
        · rw [hquiet, hmode]
          unfold Device.attentionTurn
          rw [Device.priorityChoice_eq ha hrising (hdefined a ha).2 hahead]
          rfl
      · refine exec_turn (g' := { g with lastServed := a }) .fetch (s.dev.setSegment seg { g with lastServed := a }) (fun _ n => n)
          hs h rfl (fun key => by simp) (fun _ _ => rfl) rfl ?_
        rw [hquiet, hmode]
        unfold Device.attentionTurn
        rw [h.1, rotatingChoice_eq ha hrising hnext]
        rfl
      · rw [hattention, Device.attentionTurn_nil, Option.getD_none] at hquiet
        have hmemPolled : ∀ a, a ∈ s.dev.addressesWhere seg (fun n => !n.state.isOut) ↔ polled a := fun a => by
          rw [Device.mem_addressesWhere hwf, hpolled]
          simp only [NodeState.isOut_eq_false_iff]
        have hmemProbe : ∀ a, a ∈ s.dev.addressesWhere seg (fun n => n.onProbe && !n.state.isOut) ↔
            polled a ∧ ∃ n, Table.find (seg * 256 + a) s.dev.nodes = some n ∧ n.onProbe = true := fun a => by
          rw [Device.mem_addressesWhere hwf, hpolled]
          constructor
          · rintro ⟨hlt, n, hn, ht⟩
            obtain ⟨hprobe, hin⟩ := Bool.and_eq_true_iff.1 ht
            exact ⟨⟨hlt, n, hn, (NodeState.isOut_eq_false_iff _).1 hin⟩, n, hn, hprobe⟩
          · rintro ⟨⟨hlt, n, hn, hin⟩, m, hm, hprobe⟩
            have hmn : m = n := Option.some.inj (hm.symm.trans hn)
            exact ⟨hlt, n, hn, Bool.and_eq_true_iff.2 ⟨hmn ▸ hprobe, (NodeState.isOut_eq_false_iff _).2 hin⟩⟩
        refine ⟨fun a n ha hn hprobe hleast => ?_, fun a ha hnoProbe hnext => ?_, fun hnoPolled => ?_⟩
        · obtain ⟨rest, hrest⟩ := rising_head (Device.addressesWhere_rising hwf) ((hmemProbe a).2 ⟨ha, n, hn, hprobe⟩)
            (fun b hb => by
              obtain ⟨hb, m, hm, hprobe⟩ := (hmemProbe b).1 hb
              exact hleast b m hb hm hprobe)
          have hchoice : s.dev.presenceChoice seg g.presence = some (a, g.presence) := by
            unfold Device.presenceChoice
            rw [hrest]
          refine exec_turn (g' := g) .fetch (s.dev.setSegment seg g) (fun _ n => n) hs h rfl (fun key => by simp) (fun _ _ => rfl) rfl ?_
          rw [hquiet, Device.presenceTurn_some h.1 hchoice]
        · have hprobes : s.dev.addressesWhere seg (fun n => n.onProbe && !n.state.isOut) = [] :=
            List.eq_nil_iff_forall_not_mem.2 fun b hb => by
              obtain ⟨hb, m, hm, hprobe⟩ := (hmemProbe b).1 hb
              rw [hnoProbe b m hb hm] at hprobe
              cases hprobe
          have hpick := polled_choice (pointer := g.presence) ((hmemPolled a).2 ha) (Device.addressesWhere_rising hwf)
            (hnext.imp (fun h => ⟨h.1, fun b hb => h.2 b ((hmemPolled b).1 hb)⟩) (fun h b hb => h b ((hmemPolled b).1 hb)))
          have hchoice : s.dev.presenceChoice seg g.presence = some (a, if 120 ≤ a then 1 else a + 1) := by
            unfold Device.presenceChoice
            rw [hprobes]
            dsimp only
            rcases hpick with hfind | ⟨hfind, hhead⟩
            · rw [hfind]
            · rw [hfind, hhead]
          refine exec_turn (g' := { g with presence := if 120 ≤ a then 1 else a + 1 }) .fetch
            (s.dev.setSegment seg { g with presence := if 120 ≤ a then 1 else a + 1 }) (fun _ n => n) hs h rfl (fun key => by simp)
            (fun _ _ => rfl) rfl ?_
          rw [hquiet, Device.presenceTurn_some h.1 hchoice]
        · have hprobes : s.dev.addressesWhere seg (fun n => n.onProbe && !n.state.isOut) = [] :=
            List.eq_nil_iff_forall_not_mem.2 fun b hb => hnoPolled b ((hmemProbe b).1 hb).1
          have hpolls : s.dev.addressesWhere seg (fun n => !n.state.isOut) = [] :=
            List.eq_nil_iff_forall_not_mem.2 fun b hb => hnoPolled b ((hmemPolled b).1 hb)
          have hchoice : s.dev.presenceChoice seg g.presence = none := by
            unfold Device.presenceChoice
            rw [hprobes, hpolls]
            rfl
          rw [Device.presenceTurn_none h.1 hchoice] at hquiet
          exact (exec_segmentTurn seg s).trans (commit_unchanged s _ (State.onDevice_self s _ hquiet) hs)

end Sys2Proof.Machine
end

section
/-! A report taken by its owner: the step rules of the owner's part. -/

namespace Sys2Proof.Machine

open Sys2Proof

/-- The device `d2` is `e` in all but its nodes and segments, which are those of `d`, the node at the address standing as `m` and the
commands `cs` placed for it. -/
structure Device.Served (d d2 : Device) (seg addr : Nat) (m : Node) (cs : List Command) (e : Device) : Prop where
  node : Table.find (seg * 256 + addr) d2.nodes = some m
  others : ∀ other, other ≠ seg * 256 + addr → Table.find other d2.nodes = Table.find other d.nodes
  segments : d2.segments = d.segments.set seg (cs.foldl (fun g c => g.place addr c) (d.segment seg))
  frame : d2 = { e with nodes := d2.nodes, segments := d2.segments }

/-- A segment that exists and that SETUP has not left disabled, and an address of its nodes. -/
def Device.lineOpen (d : Device) (seg addr : Nat) : Prop :=
  addr < 256 ∧ seg < d.segments.length ∧ (d.segment seg).isDisabled = false

/-- The segment of an exchange is open. -/
theorem Device.exchangeWith.lineOpen {d : Device} {seg addr : Nat} {n : Node} (h : d.exchangeWith seg addr n) : d.lineOpen seg addr :=
  ⟨h.1, State.exchangeWith_length (s := { State.reset with dev := d }) h, h.2.2.1⟩

/-- Commands placed keep a segment enabled or disabled. -/
theorem Segment.places_isDisabled (addr : Nat) (cs : List Command) (g : Segment) :
    (cs.foldl (fun g c => g.place addr c) g).isDisabled = g.isDisabled := by
  induction cs generalizing g with
  | nil => rfl
  | cons c cs ih =>
    rw [List.foldl_cons, ih]
    unfold Segment.isDisabled
    rw [(Segment.place_frame g addr c).1]

/-- Hearing of a report changes the journal alone before its owner takes it. -/
theorem Device.beforeReport_eq (d : Device) (key : Nat) (n : Node) (seq : BitVec 4) :
    d.beforeReport key n seq = { d with journal := (d.beforeReport key n seq).journal } := by
  unfold Device.beforeReport
  cases n.lastSeq with
  | none => rfl
  | some last =>
    dsimp only
    split_ifs <;> rfl

namespace Device.Served

variable {d d2 e : Device} {seg addr : Nat} {m : Node} {cs : List Command}

/-- The node's own record changed. -/
theorem modifyNode (h : d.Served d2 seg addr m cs e) (f : Node → Node) :
    d.Served (d2.modifyNode (seg * 256 + addr) f) seg addr (f m) cs e where
  node := by rw [Device.modifyNode_nodes, Table.find_modify_self, h.node]; rfl
  others other ho := by rw [Device.modifyNode_nodes, Table.find_modify_ne _ _ ho]; exact h.others other ho
  segments := h.segments
  frame := congrArg (fun x => x.modifyNode (seg * 256 + addr) f) h.frame

/-- A record written. -/
theorem record (h : d.Served d2 seg addr m cs e) (body : RecordBody) (flags : RecordFlags) (cls : RecordClass) :
    d.Served (d2.record body flags cls) seg addr m cs (e.record body flags cls) where
  node := h.node
  others := h.others
  segments := h.segments
  frame := congrArg (fun x => x.record body flags cls) h.frame

/-- Records written one after another. -/
theorem records {α : Type} (body : α → RecordBody) (cls : α → RecordClass) (events : List α) (h : d.Served d2 seg addr m cs e) :
    d.Served (events.foldl (fun acc x => acc.record (body x) {} (cls x)) d2) seg addr m cs
      (events.foldl (fun acc x => acc.record (body x) {} (cls x)) e) := by
  induction events generalizing d2 e with
  | nil => exact h
  | cons x rest ih => exact ih (h.record (body x) {} (cls x))

/-- A status bit latched. -/
theorem latch (h : d.Served d2 seg addr m cs e) (b : StatusBit) : d.Served (d2.latch b) seg addr m cs (e.latch b) where
  node := h.node
  others := h.others
  segments := h.segments
  frame := congrArg (fun x => x.latch b) h.frame

/-- A room changed. -/
theorem modifyRoom (h : d.Served d2 seg addr m cs e) (room : Nat) (f : Room → Room) :
    d.Served (d2.modifyRoom room f) seg addr m cs (e.modifyRoom room f) where
  node := h.node
  others := h.others
  segments := h.segments
  frame := congrArg (fun x => x.modifyRoom room f) h.frame

/-- A reservation taken. -/
theorem reserve (h : d.Served d2 seg addr m cs e) : d.Served d2.reserve seg addr m cs e.reserve where
  node := h.node
  others := h.others
  segments := h.segments
  frame := congrArg Device.reserve h.frame

/-- A reservation given back. -/
theorem giveBack (h : d.Served d2 seg addr m cs e) : d.Served d2.giveBack seg addr m cs e.giveBack where
  node := h.node
  others := h.others
  segments := h.segments
  frame := congrArg Device.giveBack h.frame

/-- The node served takes commands where it stands in service on an enabled segment. -/
theorem reachable (h : d.Served d2 seg addr m cs e) (hx : d.lineOpen seg addr)
    (hm : m.state.isOut = false) : d2.reachable (seg * 256 + addr) m := by
  obtain ⟨haddr, hlen, hdis⟩ := hx
  have hseg : keySeg (seg * 256 + addr) = seg := by unfold keySeg; omega
  refine ⟨h.node, hm, ?_⟩
  rw [hseg, Device.segment, h.segments, List.getD_eq_getElem?_getD, List.getElem?_set_self hlen, Option.getD_some,
    Segment.places_isDisabled]
  exact hdis

/-- A command handed for the node. -/
theorem hand (h : d.Served d2 seg addr m cs e) (hx : d.lineOpen seg addr)
    (hm : m.state.isOut = false) (c : Command) : d.Served (d2.hand (seg * 256 + addr) c) seg addr m (cs ++ [c]) e := by
  obtain ⟨haddr, hlen, hdis⟩ := hx
  have hseg : keySeg (seg * 256 + addr) = seg := by unfold keySeg; omega
  have had : keyAddr (seg * 256 + addr) = addr := by unfold keyAddr; omega
  have hat : d2.segment seg = cs.foldl (fun g c => g.place addr c) (d.segment seg) := by
    rw [Device.segment, h.segments, List.getD_eq_getElem?_getD, List.getElem?_set_self hlen, Option.getD_some]
  rw [Device.hand_reachable c (h.reachable ⟨haddr, hlen, hdis⟩ hm), hseg, had, hat]
  refine ⟨h.node, h.others, ?_,
    congrArg (fun x => x.setSegment seg ((cs.foldl (fun g c => g.place addr c) (d.segment seg)).place addr c)) h.frame⟩
  rw [Device.setSegment_segments, h.segments, List.set_set, List.foldl_append, List.foldl_cons, List.foldl_nil]

/-- Commands handed for the node one after another. -/
theorem handAll (hx : d.lineOpen seg addr) (hm : m.state.isOut = false) (more : List Command)
    (h : d.Served d2 seg addr m cs e) : d.Served (d2.handAll (seg * 256 + addr) more) seg addr m (cs ++ more) e := by
  induction more generalizing d2 cs with
  | nil =>
    rw [List.append_nil]
    exact h
  | cons c rest ih =>
    have := ih (h.hand hx hm c)
    rwa [List.append_assoc] at this

/-- A door's outcome carried out at the node. -/
theorem applyDoor (h : d.Served d2 seg addr m cs e) (hx : d.lineOpen seg addr)
    (hm : m.state.isOut = false) (o : DoorOut) :
    d.Served (d2.applyDoor (seg * 256 + addr) false o) seg addr { m with door := some o.door } (cs ++ o.commands)
      (o.events.foldl (fun acc x => acc.record (.door (seg * 256 + addr) x o.door.state) {} x.cls)
        (if o.alarm then e.latch .doorAlarm else e)) := by
  have handed := handAll hx (m := { m with door := some o.door }) hm o.commands (h.modifyNode fun n => { n with door := some o.door })
  have latched : d.Served
      (if o.alarm then ((d2.modifyNode (seg * 256 + addr) fun n => { n with door := some o.door }).handAll (seg * 256 + addr)
        o.commands).latch .doorAlarm
      else (d2.modifyNode (seg * 256 + addr) fun n => { n with door := some o.door }).handAll (seg * 256 + addr) o.commands)
      seg addr { m with door := some o.door } (cs ++ o.commands) (if o.alarm then e.latch .doorAlarm else e) := by
    cases o.alarm with
    | true => exact handed.latch .doorAlarm
    | false => exact handed
  exact latched.records (fun x => .door (seg * 256 + addr) x o.door.state) DoorEvent.cls o.events

/-- An event at the node's door. -/
theorem doorEvent (h : d.Served d2 seg addr m cs e) (hx : d.lineOpen seg addr)
    (hm : m.state.isOut = false) {r : Door} (hd : m.door = some r) (f : Node → Door → DoorOut) {o : DoorOut} (ho : f m r = o) :
    d.Served (d2.doorEvent (seg * 256 + addr) f) seg addr { m with door := some o.door } (cs ++ o.commands)
      (o.events.foldl (fun acc x => acc.record (.door (seg * 256 + addr) x o.door.state) {} x.cls)
        (if o.alarm then e.latch .doorAlarm else e)) := by
  have hevent : d2.doorEvent (seg * 256 + addr) f = d2.applyDoor (seg * 256 + addr) false o := by
    unfold Device.doorEvent
    rw [h.node]
    simp only [hd, hm, ho]
  rw [hevent]
  exact h.applyDoor hx hm o

end Device.Served

/-- NOTABLE records of a door written behind a latched alarm or none: the status and the journal are all that changes. -/
theorem Device.doorRecords_eq {key : Nat} {st : DoorState} {events : List DoorEvent} (hev : ∀ x ∈ events, x.cls = .notable) (d : Device) :
    events.foldl (fun acc x => acc.record (.door key x st) {} x.cls) d =
      { d with journal := (events.foldl (fun d x => d.record (.door key x st) {} .notable) d).journal } := by
  induction events generalizing d with
  | nil => rfl
  | cons x rest ih =>
    simp only [List.foldl_cons, hev x List.mem_cons_self]
    rw [ih (fun y hy => hev y (List.mem_cons_of_mem _ hy))]
    rfl

/-- A fresh report: the device `dR` that its owner meets, and the step once the owner has left the node as `m`, handed the commands `cs` for
it and made of the rest `e`. -/
theorem exec_reportHeard {s : State} {seg addr : Nat} {n : Node} {seq : BitVec 4} {b : ReportBody} {c : Instr} {key : Nat} (att : Bool)
    (hs : s.settled) (hx : s.dev.exchangeWith seg addr n) (hn : n.sound) (hl : n.lastSeq ≠ some seq) (hkey : key = seg * 256 + addr)
    (he : exec c s = commit s (fun t => t.onDevice (fun d => d.answer seg att (some (seq, b))))) :
    ∃ dR, s.dev.Served dR seg addr { n with lastSeq := some seq } [] (s.dev.beforeReport key n seq) ∧
      ∀ (d2 e : Device) (sig : Signal) (m : Node) (cs : List Command), dR.handReport key n b = (d2, sig) →
        s.dev.Served d2 seg addr m cs e → e.reports = [] →
        ∃ t, exec c s = .next t ∧ s.answered t seg addr att { m with owedAck := some (seq, sig) } cs ∧ t.dev.journal = e.journal ∧
          t = { s with dev := { e with
            regs := { e.regs with status := stallStatus s.dev.journal e.journal e.regs.status }
            nodes := t.dev.nodes, segments := t.dev.segments } } := by
  subst hkey
  obtain ⟨dR, hR, hfR, hoR, hgo⟩ := exec_report att hs hx hn hl he
  obtain ⟨-, hsegR, -⟩ := Device.beforeReport_frame (t := s) (d2 := dR) hR
  refine ⟨dR, ⟨hfR, hoR, hsegR.trans (State.segments_self hx), hR.trans ?_⟩, fun d2 e sig m cs hrep hserved hreports => ?_⟩
  · rw [Device.beforeReport_eq, hsegR]
  · have hframe := hserved.frame
    obtain ⟨t, hexec, hans, hj, ht⟩ := hgo d2 sig m cs hrep (by rw [hframe]; exact hreports) hserved.node hserved.others hserved.segments
    have hje : d2.journal = e.journal := by rw [hframe]
    refine ⟨t, hexec, hans, hj.trans hje, ht.trans ?_⟩
    rw [hje, hframe]

/-- A fresh report whose owner leaves the node as `m`, hands the commands `cs` for it and makes of the rest `e`. -/
theorem exec_reportServed {s : State} {seg addr : Nat} {n m : Node} {seq : BitVec 4} {b : ReportBody} {c : Instr} {key : Nat}
    {sig : Signal} {cs : List Command} {e : Device} (att : Bool)
    (hs : s.settled) (hx : s.dev.exchangeWith seg addr n) (hn : n.sound) (hl : n.lastSeq ≠ some seq) (hkey : key = seg * 256 + addr)
    (he : exec c s = commit s (fun t => t.onDevice (fun d => d.answer seg att (some (seq, b)))))
    (howner : ∀ dR, s.dev.Served dR seg addr { n with lastSeq := some seq } [] (s.dev.beforeReport key n seq) →
      ∃ d2, dR.handReport key n b = (d2, sig) ∧ s.dev.Served d2 seg addr m cs e)
    (hreports : e.reports = []) :
    ∃ t, exec c s = .next t ∧ s.answered t seg addr att { m with owedAck := some (seq, sig) } cs ∧ t.dev.journal = e.journal ∧
      t = { s with dev := { e with
        regs := { e.regs with status := stallStatus s.dev.journal e.journal e.regs.status }
        nodes := t.dev.nodes, segments := t.dev.segments } } := by
  obtain ⟨dR, hserved, hgo⟩ := exec_reportHeard att hs hx hn hl hkey he
  obtain ⟨d2, hrep, hserved2⟩ := howner dR hserved
  exact hgo d2 e sig m cs hrep hserved2 hreports

end Sys2Proof.Machine
end

section
/-! Reports of contacts and buttons, and duplicates (O48, O49, O50). -/

namespace Sys2Proof.Machine

open Sys2Proof

/-! ## A contact at a door -/

/-- The journal that NOTABLE records of a door leave follows from the journal and the clock before them. -/
theorem Device.doorRecords_journal_congr {key : Nat} {st : DoorState} (events : List DoorEvent) {d d' : Device}
    (hj : d.journal = d'.journal) (hc : d.clock = d'.clock) :
    (events.foldl (fun d x => d.record (.door key x st) {} .notable) d).journal =
      (events.foldl (fun d x => d.record (.door key x st) {} .notable) d').journal := by
  induction events generalizing d d' with
  | nil => exact hj
  | cons x rest ih => exact ih (Device.record_journal_congr hj hc _ _ _) hc

/-- NOTABLE records of a door leave the clock. -/
theorem Device.doorRecords_clock {key : Nat} {st : DoorState} (events : List DoorEvent) (d : Device) :
    (events.foldl (fun d x => d.record (.door key x st) {} .notable) d).clock = d.clock := by
  induction events generalizing d with
  | nil => rfl
  | cons x rest ih => exact ih _

/-- A door's outcome behind a report: the journal, and DOOR_ALARM where it raises an alarm. -/
theorem Device.doorOutcome_eq {d : Device} {key : Nat} {n : Node} {seq : BitVec 4} {o : DoorOut} (hev : ∀ x ∈ o.events, x.cls = .notable) :
    o.events.foldl (fun acc x => acc.record (.door key x o.door.state) {} x.cls)
        (if o.alarm then (d.beforeReport key n seq).latch .doorAlarm else d.beforeReport key n seq) =
      { d with
        regs := { d.regs with status := if o.alarm then d.regs.status ||| 128 else d.regs.status }
        journal :=
          (o.events.foldl (fun d x => d.record (.door key x o.door.state) {} .notable) (d.beforeReport key n seq)).journal } := by
  rw [Device.doorRecords_eq hev]
  cases o.alarm with
  | false =>
    simp only [Bool.false_eq_true, if_false]
    generalize (o.events.foldl _ (d.beforeReport key n seq)).journal = j
    rw [Device.beforeReport_eq]
  | true =>
    have hj : (o.events.foldl (fun d x => d.record (.door key x o.door.state) {} .notable)
        ((d.beforeReport key n seq).latch .doorAlarm)).journal =
        (o.events.foldl (fun d x => d.record (.door key x o.door.state) {} .notable) (d.beforeReport key n seq)).journal :=
      Device.doorRecords_journal_congr o.events rfl rfl
    simp only [if_true]
    rw [hj]
    generalize (o.events.foldl _ (d.beforeReport key n seq)).journal = j
    rw [Device.beforeReport_eq]
    rfl

/-- Settles O48: the door's outcome is the one that `contactGives` states, carried out behind the accepted sequence. -/
theorem contactMovesTheDoor : Obligations.ContactMovesTheDoor := by
  intro s seg addr attention isOpen seq position n key hs hx hn hl hkey hpos
  have he : exec (.contact seg attention seq position) s =
      commit s (fun t => t.onDevice (fun d => d.answer seg attention (some (seq, .contact isOpen)))) := by
    rw [exec_contact, contact_means hpos]
  refine ⟨fun r o hkind hdoor hgives => ?_, fun hkind => ?_⟩
  · obtain ⟨hout, hev⟩ := Door.contact_gives hgives
    obtain ⟨t, hexec, hans, hj, ht⟩ := exec_reportServed (sig := .grant) (cs := o.commands)
      (m := { n with lastSeq := some seq, door := some o.door })
      (e := o.events.foldl (fun acc x => acc.record (.door key x o.door.state) {} x.cls)
        (if o.alarm then (s.dev.beforeReport key n seq).latch .doorAlarm else s.dev.beforeReport key n seq))
      attention hs hx hn hl hkey he (fun dR hdR => by
        subst hkey
        refine ⟨_, if_pos hkind, ?_⟩
        have honline : n.state.isOut = false := by rw [hn.1]; rfl
        exact hdR.doorEvent hx.lineOpen honline hdoor _ hout)
      (by rw [Device.doorOutcome_eq hev]; exact hs)
    rw [Device.doorOutcome_eq hev] at hj ht
    refine ⟨t, hexec, hans, hj, ?_⟩
    rw [hj]
    exact ht
  · exact exec_reportRefused attention hs hx hn hl hkey he fun dR _ => if_neg (by rw [hkind]; exact Bool.false_ne_true)

/-! ## A button -/

/-- A fresh report whose owner, besides the node's own change and its commands, changes one room and the journal. -/
theorem exec_reportRoom {s : State} {seg addr : Nat} {n m : Node} {seq : BitVec 4} {b : ReportBody} {c : Instr} {key : Nat}
    {sig : Signal} {cs : List Command} {e : Device} {room : Nat} {r : Room} {f : Room → Room} {j : Journal} (att : Bool)
    (hs : s.settled) (hx : s.dev.exchangeWith seg addr n) (hn : n.sound) (hl : n.lastSeq ≠ some seq) (hkey : key = seg * 256 + addr)
    (he : exec c s = commit s (fun t => t.onDevice (fun d => d.answer seg att (some (seq, b)))))
    (hfind : Table.find room s.dev.rooms = some r)
    (howner : ∀ dR, s.dev.Served dR seg addr { n with lastSeq := some seq } [] (s.dev.beforeReport key n seq) →
      ∃ d2, dR.handReport key n b = (d2, sig) ∧ s.dev.Served d2 seg addr m cs e)
    (hmade : e = { s.dev with rooms := Table.modify room f s.dev.rooms, journal := j }) :
    ∃ t, exec c s = .next t ∧ s.answered t seg addr att { m with owedAck := some (seq, sig) } cs ∧
      Table.find room t.dev.rooms = some (f r) ∧
      (∀ other, other ≠ room → Table.find other t.dev.rooms = Table.find other s.dev.rooms) ∧
      t.dev.journal = j ∧
      t = { s with dev := { s.dev with
        regs := { s.dev.regs with status := stallStatus s.dev.journal t.dev.journal s.dev.regs.status }
        rooms := t.dev.rooms, nodes := t.dev.nodes, segments := t.dev.segments, journal := t.dev.journal } } := by
  obtain ⟨t, hexec, hans, hj, ht⟩ := exec_reportServed att hs hx hn hl hkey he howner (by rw [hmade]; exact hs)
  rw [hmade] at hj ht
  have hrooms : t.dev.rooms = Table.modify room f s.dev.rooms := by rw [ht]
  refine ⟨t, hexec, hans, ?_, ?_, hj, ?_⟩
  · rw [hrooms, Table.find_modify_self, hfind]
    rfl
  · intro other ho
    rw [hrooms, Table.find_modify_ne _ _ ho]
  · rw [hrooms, hj]
    exact ht

/-- The only room that links a door is the one whose button it is. -/
theorem Device.doorRoom_only {d : Device} {key : Nat} {p : Nat × Room} (hm : p ∈ d.rooms) (hl : p.2.doorLink = some key)
    (hu : ∀ q ∈ d.rooms, q.2.doorLink = some key → q = p) : d.doorRoom key = some p := by
  unfold Device.doorRoom
  cases hfind : d.rooms.find? (fun p => decide (p.2.doorLink = some key)) with
  | none => exact absurd (List.find?_eq_none.1 hfind p hm) (by simpa using hl)
  | some q => rw [hu q (List.mem_of_find?_eq_some hfind) (by simpa using List.find?_some hfind)]

/-- A door that no room links is no room's. -/
theorem Device.doorRoom_none {d : Device} {key : Nat} (h : ∀ p ∈ d.rooms, p.2.doorLink ≠ some key) : d.doorRoom key = none :=
  List.find?_eq_none.2 fun p hp => by simpa using h p hp

/-- A button at a door that no room links is refused. -/
theorem Device.takeButton_none {d : Device} {key : Nat} (on : Bool) (h : d.doorRoom key = none) : d.takeButton key on = (d, .refuse) := by
  unfold Device.takeButton
  rw [h]

/-- A button at a vacant room is refused, and the refusal kept. -/
theorem Device.takeButton_vacant {d : Device} {key room : Nat} {r : Room} (on : Bool) (h : d.doorRoom key = some (room, r))
    (hv : r.state = .vacant) : d.takeButton key on = (d.modifyRoom room (fun r => { r with lastButton := some .refuse }), .refuse) := by
  unfold Device.takeButton
  rw [h]
  exact if_pos hv

/-- A button at a room that is not vacant sets its flag. -/
theorem Device.takeButton_occupied {d : Device} {key room : Nat} {r : Room} (on : Bool) (h : d.doorRoom key = some (room, r))
    (hv : r.state ≠ .vacant) : d.takeButton key on =
      (if on = r.dnd then d.modifyRoom room (fun r => { r with dnd := on, lastButton := some .grant })
       else (d.modifyRoom room (fun r => { r with dnd := on, lastButton := some .grant })).notable
         (.stay room (if on then .dndOn else .dndOff) 0 0), .grant) := by
  unfold Device.takeButton
  rw [h]
  exact if_neg hv

/-- Settles O49: by the room that links the node as its door, and by its state. -/
theorem buttonSetsDoNotDisturb : Obligations.ButtonSetsDoNotDisturb := by
  intro s seg addr attention on seq value n key hs hx hn hl hkey hmeans
  have he : exec (.button seg attention seq value) s =
      commit s (fun t => t.onDevice (fun d => d.answer seg attention (some (seq, .button on)))) := by
    rw [exec_button, button_means hmeans]
  refine ⟨fun hnone => ?_, fun room r after signal hmem hfind hlink honly hcase => ?_⟩
  · refine exec_reportRefused attention hs hx hn hl hkey he fun dR hR => Device.takeButton_none on (Device.doorRoom_none ?_)
    rw [hR]
    exact hnone
  · have hroom : ∀ dR, s.dev.Served dR seg addr { n with lastSeq := some seq } [] (s.dev.beforeReport key n seq) →
        dR.doorRoom key = some (room, r) := fun dR hdR => by
      have hrooms : dR.rooms = s.dev.rooms := by rw [hdR.frame, Device.beforeReport_eq]
      refine Device.doorRoom_only ?_ hlink ?_ <;> rw [hrooms]
      · exact hmem
      · exact honly
    rcases hcase with ⟨hv, rfl, rfl⟩ | ⟨hv, rfl, rfl⟩
    · rw [if_neg (fun h => h.1 hv)]
      refine exec_reportRoom (f := fun r => { r with lastButton := some .refuse }) attention hs hx hn hl hkey he hfind
        (fun dR hdR => ⟨_, Device.takeButton_vacant on (hroom dR hdR) hv, hdR.modifyRoom room _⟩) ?_
      rw [Device.beforeReport_eq]
      rfl
    · refine exec_reportRoom (f := fun r => { r with dnd := on, lastButton := some .grant }) (cs := [])
        (m := { n with lastSeq := some seq })
        (e := if on = r.dnd then (s.dev.beforeReport key n seq).modifyRoom room (fun r => { r with dnd := on, lastButton := some .grant })
          else ((s.dev.beforeReport key n seq).modifyRoom room (fun r => { r with dnd := on, lastButton := some .grant })).notable
            (.stay room (if on then .dndOn else .dndOff) 0 0))
        attention hs hx hn hl hkey he hfind (fun dR hdR => ⟨_, Device.takeButton_occupied on (hroom dR hdR) hv, ?_⟩) ?_
      · split
        · exact hdR.modifyRoom room _
        · exact (hdR.modifyRoom room _).record _ {} .notable
      · by_cases hsame : on = r.dnd
        · rw [if_pos hsame, if_neg (fun h => h.2 hsame), Device.beforeReport_eq]
          rfl
        · rw [if_neg hsame, if_pos (show r.state ≠ .vacant ∧ on ≠ r.dnd from ⟨hv, hsame⟩), Device.beforeReport_eq]
          rfl

/-! ## Duplicates -/

/-- A report with the last accepted sequence owes its node the kept signal, and does nothing else. -/
theorem exec_duplicate {s : State} {seg addr : Nat} {n : Node} {seq : BitVec 4} {b : ReportBody} {c : Instr} {key : Nat} {sig : Signal}
    (att : Bool) (hs : s.settled) (hx : s.dev.exchangeWith seg addr n) (hn : n.sound) (hl : n.lastSeq = some seq)
    (hkey : key = seg * 256 + addr)
    (he : exec c s = commit s (fun t => t.onDevice (fun d => d.answer seg att (some (seq, b)))))
    (hsig : ∀ nodes, Device.duplicateSignal { s.dev with nodes := nodes } key n b = sig) :
    ∃ t, exec c s = .next t ∧ s.answered t seg addr att { n with owedAck := some (seq, sig) } [] ∧
      t = { s with dev := { s.dev with nodes := t.dev.nodes, segments := t.dev.segments } } := by
  subst hkey
  have hlen := State.exchangeWith_length hx
  obtain ⟨haddr, ⟨timeout, hex⟩, -, hf⟩ := hx
  obtain ⟨f, hfn, hheard⟩ := Device.heardFrom_sound hf hn
  have hf1 : Table.find (seg * 256 + addr) (s.dev.modifyNode (seg * 256 + addr) f).nodes = some n := by
    rw [Device.modifyNode_nodes, Table.find_modify_self, hf, Option.map_some, hfn]
  have htake : (s.dev.modifyNode (seg * 256 + addr) f).takeReport (seg * 256 + addr) seq b =
      (s.dev.modifyNode (seg * 256 + addr) f).oweAck (seg * 256 + addr) seq sig := by
    unfold Device.takeReport
    rw [hf1]
    dsimp only
    rw [hl]
    dsimp only
    rw [if_pos rfl]
    exact congrArg _ (hsig _)
  generalize hd : (s.dev.modifyNode (seg * 256 + addr) f).oweAck (seg * 256 + addr) seq sig = d at htake
  have hframe : d = { s.dev with nodes := d.nodes } := by rw [← hd]; rfl
  have hnode : Table.find (seg * 256 + addr) d.nodes = some { n with owedAck := some (seq, sig) } := by
    rw [← hd, Device.oweAck, Device.modifyNode_nodes, Table.find_modify_self, hf1]
    rfl
  have hothers : ∀ other, other ≠ seg * 256 + addr → Table.find other d.nodes = Table.find other s.dev.nodes := fun other ho => by
    rw [← hd, Device.oweAck, Device.modifyNode_nodes, Table.find_modify_ne _ _ ho, Device.modifyNode_nodes, Table.find_modify_ne _ _ ho]
  have hsegments : d.segments = s.dev.segments := by rw [hframe]
  have hseg : d.segment seg = s.dev.segment seg := by rw [Device.segment, hsegments]; rfl
  have hans : s.dev.answer seg att (some (seq, b)) = (let d := d.setSegment seg (d.segment seg).closed
      if att then d.joinAttention (nodeKey seg addr) else d.leaveAttention (nodeKey seg addr)) := by
    unfold Device.answer
    rw [hex]
    simp only [show nodeKey seg addr = seg * 256 + addr from rfl, hf, hheard, htake, Device.carriedAnswered]
  obtain ⟨tnode, tothers, tsegments, tframe⟩ := Device.answer_end att haddr (by rw [hsegments]; exact hlen) hseg hex rfl hnode _ hans
  generalize hdT : s.dev.answer seg att (some (seq, b)) = dT at hans tnode tothers tsegments tframe
  rw [hframe] at tframe
  have hcommit := commit_of_journal_eq s (fun t => t.onDevice (fun d => d.answer seg att (some (seq, b))))
    (by rw [State.onDevice_dev, hdT, tframe]; exact hs) (by rw [State.onDevice_dev, hdT, tframe])
  have hstate : s.onDevice (fun d => d.answer seg att (some (seq, b))) = { s with dev := dT } :=
    congrArg (fun d => { s with dev := d }) hdT
  rw [hstate] at hcommit
  refine ⟨_, he.trans hcommit, ⟨tnode, fun other ho => (tothers other ho).trans (hothers other ho), ?_⟩, ?_⟩
  · rw [hsegments] at tsegments
    exact tsegments
  · exact congrArg (fun d => { s with dev := d }) tframe

/-- Settles O50: the kept signal of each message and kind, and then the one path of a duplicate. -/
theorem duplicatesAreAnsweredAlike : Obligations.DuplicatesAreAnsweredAlike := by
  intro s seg addr attention seq n key c signal hs hx hn hl hkey hcase
  rcases hcase with ⟨⟨image, rfl⟩, rfl⟩ | ⟨⟨position, rfl⟩, rfl⟩ | ⟨⟨position, pairs, rfl⟩, hkind, rfl⟩ | ⟨⟨value, rfl⟩, hsignal⟩ |
    ⟨⟨code, rfl⟩, hkind, enc, henc, rfl⟩
  · exact exec_duplicate attention hs hx hn hl hkey (exec_present seg attention seq image s) fun _ => rfl
  · exact exec_duplicate attention hs hx hn hl hkey (exec_contact seg attention seq position s) fun _ => rfl
  · exact exec_duplicate attention hs hx hn hl hkey (exec_tally seg attention seq position pairs s) fun _ => if_pos hkind
  · obtain ⟨on, hbody⟩ : ∃ on, buttonBody value = .button on := ⟨_, rfl⟩
    refine exec_duplicate attention hs hx hn hl hkey (exec_button seg attention seq value s) fun nodes => ?_
    rw [hbody]
    rcases hsignal with ⟨hnone, rfl⟩ | ⟨⟨room, r⟩, hmem, hlink, honly, rfl⟩
    · have hroom : Device.doorRoom { s.dev with nodes := nodes } key = none := Device.doorRoom_none hnone
      unfold Device.duplicateSignal Device.buttonSignal
      rw [hroom]
    · have hroom : Device.doorRoom { s.dev with nodes := nodes } key = some (room, r) := Device.doorRoom_only hmem hlink honly
      unfold Device.duplicateSignal Device.buttonSignal
      rw [hroom]
  · refine exec_duplicate attention hs hx hn hl hkey (exec_encResult seg attention seq code s) fun nodes => ?_
    have hresult : Device.resultSignal { s.dev with nodes := nodes } key = enc.lastResult := by
      unfold Device.resultSignal
      dsimp only
      rw [henc]
    exact (if_pos hkind).trans (by rw [hresult])

end Sys2Proof.Machine
end

section
/-! Presentations that are refused or go unread (O51). -/

namespace Sys2Proof.Machine

open Sys2Proof

/-! ## A presentation by what its decision says -/

/-- A presentation at a door in EMERGENCY or HOLD_OPEN goes unread. -/
theorem Device.decideCard_free {d : Device} {key : Nat} {n : Node} {i : CardImage} {r : Door} (hd : n.door = some r)
    (hr : r.state = .emergency ∨ r.state = .holdOpen) : d.decideCard key n i = (d, { verdict := .grantFree, reason := .none }) := by
  unfold Device.decideCard freeDoor
  rw [hd]
  exact if_pos (by simpa using hr)

/-- A door that does not stand free, and a node without a door, has its cards read. -/
theorem freeDoor_eq_false {n : Node} (h : ∀ r, n.door = some r → r.state ≠ .emergency ∧ r.state ≠ .holdOpen) : freeDoor n = false := by
  unfold freeDoor
  cases hd : n.door with
  | none => rfl
  | some r =>
    obtain ⟨he, hh⟩ := h r hd
    simp [he, hh]

/-- A card that fails a test is refused with its reason. -/
theorem Device.decideCard_error {d : Device} {key : Nat} {n : Node} {i : CardImage} {reason : Reason} (hfree : freeDoor n = false)
    (h : d.checkCard n i = .error reason) : d.decideCard key n i = (d, { verdict := .refuse, reason := reason }) := by
  unfold Device.decideCard
  rw [hfree, h]
  rfl

/-- The check of a card reads neither the nodes, nor the segments, nor the journal. -/
theorem Device.Served.checkCard {d dR : Device} {seg addr key : Nat} {n m : Node} {cs : List Command} {seq : BitVec 4}
    (h : d.Served dR seg addr m cs (d.beforeReport key n seq)) (n' : Node) (i : CardImage) : dR.checkCard n' i = d.checkCard n' i := by
  rw [h.frame, Device.beforeReport_eq]
  rfl

/-- A presentation that is decided, and that opens no door: the verdict kept, DOOR_ALARM where it alarms, and the ACCESS record. -/
theorem Device.Served.takePresent {d dR d1 e : Device} {seg addr key : Nat} {n m : Node} {cs : List Command} {i : CardImage} {o : Decided}
    (hkey : key = seg * 256 + addr) (hkind : n.kind ≠ .encoder) (hdecide : dR.decideCard key n i = (d1, o))
    (h : d.Served d1 seg addr m cs e) (hquiet : o.verdict ≠ .grant ∨ m.door = none) :
    ∃ d2, dR.takePresent key n i = (d2, o.verdict.signal) ∧
      d.Served d2 seg addr { m with lastVerdict := some o.verdict.signal } cs
        ((if o.alarms then e.latch .doorAlarm else e).record (.access key i.serial i.kind o.verdict o.reason 1 i.room) {} o.cls) := by
  subst hkey
  have hkept := h.modifyNode fun n => { n with lastVerdict := some o.verdict.signal }
  unfold Device.takePresent
  rw [if_neg hkind, hdecide]
  refine ⟨_, rfl, Device.Served.record ?_ _ _ _⟩
  have hdoor : (if o.verdict = .grant then
      (d1.modifyNode (seg * 256 + addr) fun n => { n with lastVerdict := some o.verdict.signal }).doorEvent (seg * 256 + addr)
        (fun _ r => r.grant)
      else d1.modifyNode (seg * 256 + addr) fun n => { n with lastVerdict := some o.verdict.signal }) =
      d1.modifyNode (seg * 256 + addr) fun n => { n with lastVerdict := some o.verdict.signal } := by
    rcases hquiet with hv | hnone
    · exact if_neg hv
    · refine ite_eq_right_iff.2 fun _ => ?_
      unfold Device.doorEvent
      rw [hkept.node]
      dsimp only
      rw [hnone]
  dsimp only
  rw [hdoor]
  cases o.alarms with
  | true => exact hkept.latch .doorAlarm
  | false => exact hkept

/-- An ACCESS record behind a latched alarm or none: the status and the journal are all that changes. -/
theorem Device.accessRecord_eq (d : Device) (key : Nat) (n : Node) (seq : BitVec 4) (alarm : Bool) (body : RecordBody) (cls : RecordClass) :
    (if alarm then (d.beforeReport key n seq).latch .doorAlarm else d.beforeReport key n seq).record body {} cls =
      { d with
        regs := { d.regs with status := if alarm then d.regs.status ||| 128 else d.regs.status }
        journal := ((d.beforeReport key n seq).record body {} cls).journal } := by
  rw [Device.beforeReport_eq]
  cases alarm <;> rfl

/-- A fresh presentation that is decided without a grant, with the device after it. -/
theorem exec_presentUngranted {s : State} {seg addr : Nat} {n : Node} {seq : BitVec 4} {i : CardImage} {key : Nat} {o : Decided}
    (att : Bool) (hs : s.settled) (hx : s.dev.exchangeWith seg addr n) (hn : n.sound) (hl : n.lastSeq ≠ some seq)
    (hkey : key = seg * 256 + addr) (hkind : n.kind ≠ .encoder) (hverdict : o.verdict ≠ .grant ∨ n.door = none)
    (hdecide : ∀ dR, s.dev.Served dR seg addr { n with lastSeq := some seq } [] (s.dev.beforeReport key n seq) →
      dR.decideCard key n i = (dR, o)) :
    ∃ t, exec (.present seg att seq i) s = .next t ∧
      s.answered t seg addr att
        { n with lastSeq := some seq, owedAck := some (seq, o.verdict.signal), lastVerdict := some o.verdict.signal } [] ∧
      t.dev.journal = ((s.dev.beforeReport key n seq).record
        (.access key i.serial i.kind o.verdict o.reason 1 i.room) {} o.cls).journal ∧
      t = { s with dev := { s.dev with
        regs := { s.dev.regs with
          status := stallStatus s.dev.journal t.dev.journal (if o.alarms then s.dev.regs.status ||| 128 else s.dev.regs.status) }
        nodes := t.dev.nodes, segments := t.dev.segments, journal := t.dev.journal } } := by
  obtain ⟨t, hexec, hans, hj, ht⟩ := exec_reportServed att hs hx hn hl hkey (exec_present seg att seq i s)
    (fun dR hdR => hdR.takePresent hkey hkind (hdecide dR hdR) hverdict)
    (by rw [Device.accessRecord_eq]; exact hs)
  rw [Device.accessRecord_eq] at hj ht
  refine ⟨t, hexec, hans, hj, ?_⟩
  rw [hj]
  exact ht

/-- A fresh report whose owner changes its node's record alone. -/
theorem exec_reportKept {s : State} {seg addr : Nat} {n m : Node} {seq : BitVec 4} {b : ReportBody} {c : Instr} {key : Nat} {sig : Signal}
    (att : Bool) (hs : s.settled) (hx : s.dev.exchangeWith seg addr n) (hn : n.sound) (hl : n.lastSeq ≠ some seq)
    (hkey : key = seg * 256 + addr)
    (he : exec c s = commit s (fun t => t.onDevice (fun d => d.answer seg att (some (seq, b)))))
    (howner : ∀ dR, s.dev.Served dR seg addr { n with lastSeq := some seq } [] (s.dev.beforeReport key n seq) →
      ∃ d2, dR.handReport key n b = (d2, sig) ∧ s.dev.Served d2 seg addr m [] (s.dev.beforeReport key n seq)) :
    ∃ t, exec c s = .next t ∧ s.answered t seg addr att { m with owedAck := some (seq, sig) } [] ∧
      t.dev.journal = (s.dev.beforeReport key n seq).journal ∧
      t = { s with dev := { s.dev with
        regs := { s.dev.regs with status := stallStatus s.dev.journal t.dev.journal s.dev.regs.status }
        nodes := t.dev.nodes, segments := t.dev.segments, journal := t.dev.journal } } := by
  obtain ⟨t, hexec, hans, hj, ht⟩ := exec_reportServed att hs hx hn hl hkey he howner (by rw [Device.beforeReport_eq]; exact hs)
  refine ⟨t, hexec, hans, hj, ?_⟩
  rw [hj]
  have hframe := Device.beforeReport_eq s.dev key n seq
  generalize s.dev.beforeReport key n seq = base at ht hframe
  rw [hframe] at ht
  exact ht

/-- Settles O51: the encoder, the door that stands free, and the first test that fails. -/
theorem presentIsRefusedByTheFirstFailure : Obligations.PresentIsRefusedByTheFirstFailure := by
  intro s seg addr attention seq i n key hs hx hn hl hkey
  refine ⟨fun hkind => ?_, fun r hkind hd hr => ?_, fun e reason hkind hdoors honly hfails => ?_⟩
  · exact exec_reportKept (m := { n with lastSeq := some seq, lastVerdict := some .refuse }) attention hs hx hn hl hkey
      (exec_present seg attention seq i s)
      fun dR hdR => ⟨_, if_pos hkind, by subst hkey; exact hdR.modifyNode fun n => { n with lastVerdict := some .refuse }⟩
  · exact exec_presentUngranted (o := { verdict := .grantFree, reason := .none }) attention hs hx hn hl hkey hkind (.inl (by decide))
      fun dR _ => Device.decideCard_free hd hr
  · obtain ⟨t, hexec, hans, hj, ht⟩ := exec_presentUngranted (o := { verdict := .refuse, reason := reason }) attention hs hx hn hl hkey
      hkind (.inl (fun h => by cases h)) fun dR hdR => Device.decideCard_error (freeDoor_eq_false hdoors)
        ((hdR.checkCard n i).trans (Device.checkCard_error honly hfails))
    refine ⟨t, hexec, hans, hj, ht.trans ?_⟩
    have halarm : (({ verdict := .refuse, reason := reason } : Decided).alarms = true) = (reason = .revoked ∨ reason = .mismatch) := by
      simp [Decided.alarms]
    simp only [halarm]

end Sys2Proof.Machine
end

section
/-! Presentations that pass: the grant at a door and the session at a minibar (O52). -/

namespace Sys2Proof.Machine

open Sys2Proof

/-! ## A grant at a door -/

/-- A card that passes is granted at a door. -/
theorem Device.decideCard_door {d : Device} {key : Nat} {n : Node} {i : CardImage} {e : Entry} (hfree : freeDoor n = false)
    (h : d.checkCard n i = .ok e) (hkind : n.kind ≠ .minibar) : d.decideCard key n i = (d, { verdict := .grant, reason := .none }) := by
  unfold Device.decideCard
  rw [hfree, h]
  exact if_neg hkind

/-- A presentation granted at a door: the verdict kept, the door's outcome, and the ACCESS record. -/
theorem Device.Served.takePresent_granted {d dR e : Device} {seg addr key : Nat} {n m : Node} {cs : List Command} {i : CardImage}
    {r : Door} {o : DoorOut} (hkey : key = seg * 256 + addr) (hx : d.lineOpen seg addr) (hkind : n.kind ≠ .encoder)
    (hdecide : dR.decideCard key n i = (dR, { verdict := .grant, reason := .none })) (h : d.Served dR seg addr m cs e)
    (hm : m.state.isOut = false) (hdoor : m.door = some r) (hout : r.grant = o) :
    ∃ d2, dR.takePresent key n i = (d2, .grant) ∧
      d.Served d2 seg addr { m with lastVerdict := some .grant, door := some o.door } (cs ++ o.commands)
        ((o.events.foldl (fun acc x => acc.record (.door key x o.door.state) {} x.cls)
          (if o.alarm then e.latch .doorAlarm else e)).record (.access key i.serial i.kind .grant .none 1 i.room) {} .routine) := by
  subst hkey
  unfold Device.takePresent
  rw [if_neg hkind, hdecide]
  exact ⟨_, rfl, ((h.modifyNode fun n => { n with lastVerdict := some .grant }).doorEvent hx hm hdoor (fun _ r => r.grant)
    hout).record _ _ _⟩

/-! ## Step 13 at a minibar -/

/-- What a card asks for at a minibar (R89). -/
theorem restockRequest_iff (n : Node) (e : Entry) :
    restockRequest e.kind (minibarQualifies n e) (hasPrivilege e.privileges .restock) = true ↔
      e.may 7 ∧ ¬ (e.kind = .guest ∧ e.may 1 ∧ e.room = n.room) := by
  have hrestock := hasPrivilege_iff e .restock
  have hminibar := hasPrivilege_iff e .minibar
  change _ ↔ e.may 7 at hrestock
  change _ ↔ e.may 1 at hminibar
  unfold restockRequest minibarQualifies
  simp only [Bool.and_eq_true, Bool.not_eq_true', Bool.and_eq_false_iff, decide_eq_false_iff_not, hrestock, ← hminibar]
  cases hasPrivilege e.privileges .minibar <;> simp [imp_iff_not_or]

/-- A card that passes at a minibar is decided by step 13. -/
theorem Device.decideCard_bar {d d' : Device} {key : Nat} {n : Node} {i : CardImage} {e : Entry} {x : Option Reason}
    (hfree : freeDoor n = false) (h : d.checkCard n i = .ok e) (hkind : n.kind = .minibar)
    (hbar : d.barGrant key e.kind (minibarQualifies n e) (hasPrivilege e.privileges .restock) = (d', x)) :
    d.decideCard key n i = (d', match x with
      | none => { verdict := .grant, reason := .none }
      | some reason => { verdict := .refuse, reason := reason }) := by
  unfold Device.decideCard
  rw [hfree, h]
  simp only [Bool.false_eq_true, if_false, hkind, if_true, hbar]
  cases x <;> rfl

section
variable {d : Device} {key room : Nat} {r : Room} {kind : CardKind} {minibar restock : Bool} {asks : Prop}

/-- A minibar that no room links is busy. -/
theorem Device.barGrant_unlinked (h : d.barRoom key = none) : d.barGrant key kind minibar restock = (d, some .minibarBusy) := by
  unfold Device.barGrant
  rw [h]

/-- A minibar in session grants and goes on. -/
theorem Device.barGrant_inSession (h : d.barRoom key = some (room, r)) (hs : r.bar.inSession = true) :
    d.barGrant key kind minibar restock = (d, none) := by
  unfold Device.barGrant
  rw [h]
  exact if_pos hs

/-- The checks of step 13 refuse by the first that fails. -/
theorem Device.barGrant_refused {reason : Reason} (hasks : restockRequest kind minibar restock = true ↔ asks)
    (h : d.barRoom key = some (room, r)) (hs : r.bar.inSession = false)
    (hfails : firstFailure [
      (.clockUnset, asks ∨ d.clock.valid = true), (.minibarBusy, asks ∨ r.state = .occupied), (.ceiling, asks ∨ r.bar ≠ .suspended),
      (.noRecordRoom, d.journal.load < 64 ∧ d.journal.reserved < 24)] reason) :
    d.barGrant key kind minibar restock = (d, some reason) := by
  simp only [firstFailure, ← hasks] at hfails
  unfold Device.barGrant
  rw [h]
  dsimp only
  rw [if_neg (by rw [hs]; exact Bool.false_ne_true)]
  generalize restockRequest kind minibar restock = a at hfails
  rcases hfails with ⟨hf, rfl⟩ | ⟨hclock, hfails⟩
  · exact if_pos (by simpa using hf)
  rw [if_neg (by simpa [or_iff_not_imp_left] using hclock)]
  rcases hfails with ⟨hf, rfl⟩ | ⟨hstate, hfails⟩
  · exact if_pos (by simpa using hf)
  rw [if_neg (by simpa [or_iff_not_imp_left] using hstate)]
  rcases hfails with ⟨hf, rfl⟩ | ⟨hbar, hfails⟩
  · exact if_pos (by simpa using hf)
  rw [if_neg (by simpa [or_iff_not_imp_left] using hbar)]
  rcases hfails with ⟨hf, rfl⟩ | ⟨-, hfails⟩
  · exact if_pos (by simpa [Journal.mayReserve, Config.holdCapacity, Config.reservationsMax, or_iff_not_imp_left] using hf)
  · exact absurd hfails id

/-- A minibar that passes step 13 opens a session. -/
theorem Device.barGrant_opens (h : d.barRoom key = some (room, r)) (hs : r.bar.inSession = false)
    (hguest : restockRequest kind minibar restock = true ∨ (d.clock.valid = true ∧ r.state = .occupied ∧ r.bar ≠ .suspended))
    (hload : d.journal.load < 64) (hreserved : d.journal.reserved < 24) :
    d.barGrant key kind minibar restock = (d.openSession key room (restockRequest kind minibar restock), none) := by
  have hmay : d.journal.mayReserve = true := by
    simp [Journal.mayReserve, Config.holdCapacity, Config.reservationsMax, hload, hreserved]
  unfold Device.barGrant
  rw [h]
  dsimp only
  rw [if_neg (by rw [hs]; exact Bool.false_ne_true), hmay]
  generalize restockRequest kind minibar restock = a at hguest
  rcases hguest with rfl | ⟨hclock, hstate, hbar⟩
  · rfl
  · cases a <;> simp [hclock, hstate, hbar]
end

/-- The first failure of step 13 names one of its four reasons. -/
theorem firstFailure_bar {p q u v : Prop} {reason : Reason}
    (h : firstFailure [(.clockUnset, p), (.minibarBusy, q), (.ceiling, u), (.noRecordRoom, v)] reason) :
    reason = .clockUnset ∨ reason = .minibarBusy ∨ reason = .ceiling ∨ reason = .noRecordRoom := by
  rcases h with ⟨-, h⟩ | ⟨-, h | h⟩
  · exact .inl h
  · exact .inr (.inl h.2)
  · rcases h.2 with h | h
    · exact .inr (.inr (.inl h.2))
    · rcases h.2 with h | h
      · exact .inr (.inr (.inr h.2))
      · exact absurd h.2 id

/-- A refusal of step 13 is NOTABLE and raises no alarm. -/
theorem Decided.refused_bar {reason : Reason}
    (h : reason = .clockUnset ∨ reason = .minibarBusy ∨ reason = .ceiling ∨ reason = .noRecordRoom) :
    ({ verdict := .refuse, reason := reason } : Decided).alarms = false ∧
      ({ verdict := .refuse, reason := reason } : Decided).cls = .notable := by
  rcases h with rfl | rfl | rfl | rfl <;> exact ⟨rfl, rfl⟩

/-- A session opened at the minibar served. -/
theorem Device.Served.openSession {d dR e : Device} {seg addr key : Nat} {m : Node} (hkey : key = seg * 256 + addr)
    (hx : d.lineOpen seg addr) (h : d.Served dR seg addr m [] e) (hm : m.state.isOut = false) (room : Nat) (restock : Bool) :
    d.Served (dR.openSession key room restock) seg addr m [.unlatch]
      (e.reserve.modifyRoom room fun r =>
        { r with unlatchPending := true, session := Timer.started, bar := if restock then .restockOpen else .guestOpen }) := by
  subst hkey
  exact (h.reserve.hand hx hm .unlatch).modifyRoom room _

section
variable {d dR : Device} {seg addr key : Nat} {n m : Node} {cs : List Command} {seq : BitVec 4}

/-- The rooms stand before the owner's part. -/
theorem Device.Served.rooms_eq (h : d.Served dR seg addr m cs (d.beforeReport key n seq)) : dR.rooms = d.rooms := by
  rw [h.frame, Device.beforeReport_eq]

/-- The clock stands before the owner's part. -/
theorem Device.Served.clock_eq (h : d.Served dR seg addr m cs (d.beforeReport key n seq)) : dR.clock = d.clock := by
  rw [h.frame, Device.beforeReport_eq]

/-- The journal holds the gap record alone before the owner's part. -/
theorem Device.Served.journal_eq (h : d.Served dR seg addr m cs (d.beforeReport key n seq)) :
    dR.journal = (d.beforeReport key n seq).journal := by
  rw [h.frame]

/-- The room of the minibar, found before the owner's part. -/
theorem Device.Served.barRoom_eq {room : Nat} {r : Room} (h : d.Served dR seg addr m cs (d.beforeReport key n seq))
    (hmem : (room, r) ∈ d.rooms) (hlink : r.barLink = some key) (honly : ∀ q ∈ d.rooms, q.2.barLink = some key → q = (room, r)) :
    dR.barRoom key = some (room, r) := by
  refine Device.barRoom_only ?_ hlink ?_ <;> rw [h.rooms_eq]
  · exact hmem
  · exact honly
end

/-- A table with nothing changed. -/
theorem Table.modify_id {α : Type} (key : Nat) (t : Table α) : Table.modify key id t = t :=
  (List.map_congr_left fun p _ => by split_ifs <;> rfl).trans (List.map_id t)

/-- Settles O52: the grant at a door, and step 13 at a minibar: its refusals, a session that goes on, and one that opens. -/
theorem presentThatPassesIsGranted : Obligations.PresentThatPassesIsGranted := by
  intro s seg addr attention seq i n key e hs hx hn hl hkey htests
  have honline : n.state.isOut = false := by rw [hn.1]; rfl
  have hcheck : ∀ dR, s.dev.Served dR seg addr { n with lastSeq := some seq } [] (s.dev.beforeReport key n seq) →
      dR.checkCard n i = .ok e := fun dR hdR => (hdR.checkCard n i).trans (Device.checkCard_ok htests)
  refine ⟨fun r o hkind hdoor hgives => ?_, fun hkind hdoor =>
    have hfree : freeDoor n = false := freeDoor_eq_false fun r hr => absurd (hdoor.symm.trans hr) (by simp)
    ⟨fun reason hreason => ?_, fun room r after commands kept hmem hfind hlink honly hcase => ?_⟩⟩
  · obtain ⟨hout, hev, halarm, hhold, hemergency⟩ := Door.grant_gives hgives
    have hfree : freeDoor n = false := freeDoor_eq_false fun r' hr' => by
      obtain rfl : r = r' := Option.some.inj (hdoor.symm.trans hr')
      exact ⟨hemergency, hhold⟩
    have hbar : n.kind ≠ .minibar := fun h => by rw [h] at hkind; cases hkind
    have hencoder : n.kind ≠ .encoder := fun h => by rw [h] at hkind; cases hkind
    obtain ⟨t, hexec, hans, hj, ht⟩ := exec_reportServed attention hs hx hn hl hkey (exec_present seg attention seq i s)
      (fun dR hdR => hdR.takePresent_granted hkey hx.lineOpen hencoder (Device.decideCard_door hfree (hcheck dR hdR) hbar) honline
        hdoor hout)
      (by rw [Device.doorOutcome_eq hev]; exact hs)
    rw [Device.doorOutcome_eq hev, halarm] at hj ht
    have hclock : (o.events.foldl (fun d x => d.record (.door key x o.door.state) {} .notable)
        (s.dev.beforeReport key n seq)).clock = s.dev.clock :=
      (Device.doorRecords_clock o.events _).trans (Device.beforeReport_clock _ _ _ _)
    refine ⟨t, hexec, hans, hj.trans (Device.record_journal_congr ?_ ?_ _ _ _), ?_⟩
    · rfl
    · exact hclock.symm
    · rw [hj]
      exact ht
  · obtain ⟨hreasons, hdecide⟩ : (reason = .clockUnset ∨ reason = .minibarBusy ∨ reason = .ceiling ∨ reason = .noRecordRoom) ∧
        ∀ dR, s.dev.Served dR seg addr { n with lastSeq := some seq } [] (s.dev.beforeReport key n seq) →
          dR.barGrant key e.kind (minibarQualifies n e) (hasPrivilege e.privileges .restock) = (dR, some reason) := by
      rcases hreason with ⟨rfl, hnone⟩ | ⟨⟨room, r⟩, hmem, hlink, honly, hsession, hfails⟩
      · refine ⟨.inr (.inl rfl), fun dR hdR => Device.barGrant_unlinked (Device.barRoom_none ?_)⟩
        rw [hdR.rooms_eq]
        exact hnone
      · refine ⟨firstFailure_bar hfails, fun dR hdR => ?_⟩
        refine Device.barGrant_refused (restockRequest_iff n e) (hdR.barRoom_eq hmem hlink honly) hsession ?_
        rw [hdR.clock_eq, hdR.journal_eq]
        exact hfails
    obtain ⟨halarms, hcls⟩ := Decided.refused_bar hreasons
    obtain ⟨t, hexec, hans, hj, ht⟩ := exec_presentUngranted (o := { verdict := .refuse, reason := reason }) attention hs hx hn hl hkey
      (by rw [hkind]; decide) (.inr hdoor) fun dR hdR => Device.decideCard_bar hfree (hcheck dR hdR) hkind (hdecide dR hdR)
    rw [hcls] at hj
    rw [halarms] at ht
    exact ⟨t, hexec, hans, hj, ht⟩
  · have hdecided : ∀ dR d', s.dev.Served dR seg addr { n with lastSeq := some seq } [] (s.dev.beforeReport key n seq) →
        dR.barGrant key e.kind (minibarQualifies n e) (hasPrivilege e.privileges .restock) = (d', none) →
        dR.decideCard key n i = (d', { verdict := .grant, reason := .none }) :=
      fun dR d' hdR h => Device.decideCard_bar hfree (hcheck dR hdR) hkind h
    have hencoder : n.kind ≠ .encoder := by rw [hkind]; decide
    rcases hcase with ⟨hsession, rfl, rfl, rfl⟩ | ⟨hsession, hload, hreserved, rfl, rfl, hkindCase⟩
    · refine exec_reportRoom (f := id) attention hs hx hn hl hkey (exec_present seg attention seq i s) hfind
        (fun dR hdR => hdR.takePresent hkey hencoder
          (hdecided dR dR hdR (Device.barGrant_inSession (hdR.barRoom_eq hmem hlink honly) hsession)) (.inr hdoor)) ?_
      rw [Table.modify_id, Device.beforeReport_eq]
      rfl
    · obtain ⟨restock, rfl, hopens⟩ : ∃ restock : Bool,
          after = { r with bar := if restock then .restockOpen else .guestOpen, unlatchPending := true, session := Timer.started } ∧
          ∀ dR, s.dev.Served dR seg addr { n with lastSeq := some seq } [] (s.dev.beforeReport key n seq) →
            dR.barGrant key e.kind (minibarQualifies n e) (hasPrivilege e.privileges .restock) =
              (dR.openSession key room restock, none) := by
        refine ⟨restockRequest e.kind (minibarQualifies n e) (hasPrivilege e.privileges .restock), ?_, fun dR hdR => ?_⟩
        · rcases hkindCase with ⟨hasks, rfl⟩ | ⟨hasks, -, -, -, rfl⟩
          · rw [(restockRequest_iff n e).2 hasks]
            rfl
          · rw [Bool.eq_false_iff.2 fun h => hasks ((restockRequest_iff n e).1 h)]
            rfl
        · refine Device.barGrant_opens (hdR.barRoom_eq hmem hlink honly) hsession ?_ (by rw [hdR.journal_eq]; exact hload)
            (by rw [hdR.journal_eq]; exact hreserved)
          rw [hdR.clock_eq]
          exact hkindCase.imp (fun h => (restockRequest_iff n e).2 h.1) fun h => ⟨h.2.1, h.2.2.1, h.2.2.2.1⟩
      refine exec_reportRoom
        (f := fun r => { r with bar := if restock then .restockOpen else .guestOpen, unlatchPending := true, session := Timer.started })
        attention hs hx hn hl hkey (exec_present seg attention seq i s) hfind
        (fun dR hdR => (hdR.openSession hkey hx.lineOpen honline room restock).takePresent hkey hencoder
          (hdecided dR _ hdR (hopens dR hdR)) (.inr hdoor)) ?_
      rw [Device.beforeReport_eq]
      rfl

end Sys2Proof.Machine
end

section
/-! A tally and its settlement (O53). -/

namespace Sys2Proof.Machine

open Sys2Proof

/-! ## What a settlement does to the device, by the state of the minibar -/

section
variable {d : Device} {room key : Nat} {r : Room} {closed : Bool} {counts : List (BitVec 4)} {lines : List ChargeLine} {clamped : Bool}
  {slots : List Slot} {p : Posting}
  (hlines : d.tariff.lines 1 (readings r.slots counts) = lines) (hclamped : anyClamped (readings r.slots counts) = clamped)
  (hslots : rebased (readings r.slots counts) = slots)
  (hp : post r.balance r.ceiling r.unposted (settlementAmount lines) = p)

include hlines hclamped hslots hp in
/-- A CLOSED tally in a GUEST session. -/
theorem Device.settleTally_guest (ho : r.orphan = false) (hb : r.bar = .guestOpen) :
    d.settleTally room r key true counts =
      ((((d.modifyRoom room (fun _ =>
        Room.closeSession { r with slots := slots, unsettled := false, balance := p.balance, unposted := p.unposted })).hand key
          .relock).giveBackIf lines).recordCharge room key .guest lines clamped p .reserved) := by
  unfold Device.settleTally
  simp only [hlines, hclamped, hslots, hp, ho, hb, Bool.false_eq_true, if_false]

include hclamped hslots in
/-- A CLOSED tally in a RESTOCK session. -/
theorem Device.settleTally_restock (ho : r.orphan = false) (hb : r.bar = .restockOpen) :
    d.settleTally room r key true counts =
      ((d.modifyRoom room (fun _ => Room.closeSession { r with slots := slots, unsettled := false })).hand key .relock).record
        (.restock room key (slots.map (fun x => x.baseline))) { clampedReading := clamped, givenUp := r.unsettled } .reserved := by
  unfold Device.settleTally
  simp only [hclamped, hslots, ho, hb, Bool.false_eq_true, if_false]

include hlines hclamped hslots hp in
/-- A tally that ends no session of a minibar with a room's stay. -/
theorem Device.settleTally_unattended (ho : r.orphan = false) (h : ¬ (r.bar.inSession = true ∧ closed = true)) :
    d.settleTally room r key closed counts =
      ((d.modifyRoom room (fun _ =>
        Room.suspension { r with slots := slots, unsettled := false, balance := p.balance, unposted := p.unposted })).relockIf key
          closed).recordCharge room key .unattended lines clamped p .notable := by
  unfold Device.settleTally
  cases hb : r.bar <;> cases closed <;> simp_all [BarState.inSession, Room.suspension, Device.relockIf]

include hlines hclamped hslots in
/-- A tally out of session at an orphaned minibar. -/
theorem Device.settleTally_orphan (ho : r.orphan = true) (hb : r.bar.inSession = false) :
    d.settleTally room r key closed counts =
      ((d.modifyRoom room (fun _ =>
        Room.suspension { r with slots := slots, unsettled := false, orphan := false })).relockIf key closed).recordLate room key lines
          clamped .notable := by
  unfold Device.settleTally
  simp only [hlines, hclamped, hslots, ho, hb, Bool.false_eq_true, if_false, if_true]

include hlines hclamped hslots in
/-- A CLOSED tally in a session of an orphaned minibar. -/
theorem Device.settleTally_orphanClosed (ho : r.orphan = true) (hb : r.bar.inSession = true) :
    d.settleTally room r key true counts =
      (((d.modifyRoom room (fun _ =>
        Room.closeSession { r with slots := slots, unsettled := false, orphan := false })).hand key .relock).giveBackIf lines).recordLate
          room key lines clamped .reserved := by
  unfold Device.settleTally
  simp only [hlines, hclamped, hslots, ho, hb, if_true]

include hlines hclamped hslots in
/-- An OPEN tally in a session of an orphaned minibar. -/
theorem Device.settleTally_orphanOpen (ho : r.orphan = true) (hb : r.bar.inSession = true) :
    d.settleTally room r key false counts =
      (d.modifyRoom room (fun _ => { r with slots := slots, unsettled := false, orphan := false })).recordLate room key lines clamped
        .notable := by
  unfold Device.settleTally
  simp only [hlines, hclamped, hslots, ho, hb, Bool.false_eq_true, if_false, if_true]
end

/-! ## The step rules of a settlement -/

namespace Device.Served

variable {d d2 e : Device} {seg addr key : Nat} {m : Node} {cs : List Command}

/-- A reservation given back where nothing moved. -/
theorem giveBackIf (h : d.Served d2 seg addr m cs e) (lines : List ChargeLine) :
    d.Served (d2.giveBackIf lines) seg addr m cs (e.giveBackIf lines) := by
  unfold Device.giveBackIf
  split
  · exact h.giveBack
  · exact h

/-- The CHARGE record of a settlement. -/
theorem recordCharge (h : d.Served d2 seg addr m cs e) (room key : Nat) (kind : ChargeKind) (lines : List ChargeLine) (clamped : Bool)
    (p : Posting) (cls : RecordClass) :
    d.Served (d2.recordCharge room key kind lines clamped p cls) seg addr m cs (e.recordCharge room key kind lines clamped p cls) := by
  unfold Device.recordCharge
  split
  · exact h
  · exact h.record _ _ _

/-- The LATE_CHARGE record of a settlement. -/
theorem recordLate (h : d.Served d2 seg addr m cs e) (room key : Nat) (lines : List ChargeLine) (clamped : Bool) (cls : RecordClass) :
    d.Served (d2.recordLate room key lines clamped cls) seg addr m cs (e.recordLate room key lines clamped cls) := by
  unfold Device.recordLate
  split
  · exact h
  · exact h.record _ _ _

/-- RELOCK handed to the minibar served. -/
theorem relock (h : d.Served d2 seg addr m [] e) (hkey : key = seg * 256 + addr) (hx : d.lineOpen seg addr)
    (hm : m.state.isOut = false) : d.Served (d2.hand key .relock) seg addr m [.relock] e := by
  subst hkey
  exact h.hand hx hm .relock

/-- RELOCK handed to the minibar served for a CLOSED reading. -/
theorem relockIf (h : d.Served d2 seg addr m [] e) (hkey : key = seg * 256 + addr) (hx : d.lineOpen seg addr)
    (hm : m.state.isOut = false) (closed : Bool) :
    d.Served (d2.relockIf key closed) seg addr m (if closed then [.relock] else []) e := by
  cases closed with
  | true => exact h.relock hkey hx hm
  | false => exact h

end Device.Served

/-- A fresh tally at the minibar that a room links, by what its settlement does. -/
theorem exec_tallySettled {s : State} {seg addr key room : Nat} {n : Node} {seq : BitVec 4} {c : Instr} {closed : Bool}
    {counts : List (BitVec 4)} {r after : Room} {commands : List Command} {e made : Device} (att : Bool)
    (hs : s.settled) (hx : s.dev.exchangeWith seg addr n) (hn : n.sound) (hl : n.lastSeq ≠ some seq) (hkey : key = seg * 256 + addr)
    (he : exec c s = commit s (fun t => t.onDevice (fun d => d.answer seg att (some (seq, .tally closed counts)))))
    (hkind : n.kind = .minibar) (hmem : (room, r) ∈ s.dev.rooms) (hfind : Table.find room s.dev.rooms = some r)
    (hlink : r.barLink = some key) (honly : ∀ q ∈ s.dev.rooms, q.2.barLink = some key → q = (room, r))
    (hsettle : ∀ dR, s.dev.Served dR seg addr { n with lastSeq := some seq } [] (s.dev.beforeReport key n seq) →
      s.dev.Served (dR.settleTally room r key closed counts) seg addr { n with lastSeq := some seq } commands e)
    (hmade : e = { s.dev with rooms := Table.modify room (fun _ => after) s.dev.rooms, journal := made.journal }) :
    ∃ t, exec c s = .next t ∧
      s.answered t seg addr att { n with lastSeq := some seq, owedAck := some (seq, .grant), lastTally := some .grant } commands ∧
      Table.find room t.dev.rooms = some after ∧
      (∀ other, other ≠ room → Table.find other t.dev.rooms = Table.find other s.dev.rooms) ∧
      t.dev.journal = made.journal ∧
      t = { s with dev := { s.dev with
        regs := { s.dev.regs with status := stallStatus s.dev.journal t.dev.journal s.dev.regs.status }
        rooms := t.dev.rooms, nodes := t.dev.nodes, segments := t.dev.segments, journal := t.dev.journal } } := by
  refine exec_reportRoom (m := { n with lastSeq := some seq, lastTally := some .grant }) (f := fun _ => after)
    att hs hx hn hl hkey he hfind (fun dR hdR => ?_) hmade
  refine ⟨(dR.settleTally room r key closed counts).modifyNode key (fun n => { n with lastTally := some .grant }), ?_, ?_⟩
  · refine (if_pos hkind).trans ?_
    unfold Device.takeTally
    rw [hdR.barRoom_eq hmem hlink honly]
  · subst hkey
    exact (hsettle dR hdR).modifyNode _

section
variable {d : Device} {key room k : Nat} {n : Node} {seq : BitVec 4} {f : Room → Room} {lines : List ChargeLine} {clamped : Bool}

/-- The CHARGE record of a settlement behind its room. -/
theorem Device.recordCharge_behind (room' : Nat) (kind : ChargeKind) (p : Posting) (cls : RecordClass) :
    ((d.beforeReport key n seq).modifyRoom room f).recordCharge room' k kind lines clamped p cls =
      { d with
        rooms := Table.modify room f d.rooms
        journal := (if lines = [] then d.beforeReport key n seq else (d.beforeReport key n seq).record
          (.charge room' k kind lines (settlementAmount lines) p.moved (if 0 ≤ settlementAmount lines then p.excess else p.lost))
          { clampedReading := clamped, unpriced := lines.any (fun l => l.item.isNone), saturated := p.saturated } cls).journal } := by
  rw [Device.beforeReport_eq]
  unfold Device.recordCharge
  by_cases hl : lines = []
  · rw [if_pos hl, if_pos hl]
    rfl
  · rw [if_neg hl, if_neg hl]
    rfl

/-- The LATE_CHARGE record of a settlement behind its room. -/
theorem Device.recordLate_behind (room' : Nat) (cls : RecordClass) :
    ((d.beforeReport key n seq).modifyRoom room f).recordLate room' k lines clamped cls =
      { d with
        rooms := Table.modify room f d.rooms
        journal := (if lines = [] then d.beforeReport key n seq else (d.beforeReport key n seq).record
          (.lateCharge room' k lines (settlementAmount lines))
          { clampedReading := clamped, unpriced := lines.any (fun l => l.item.isNone) } cls).journal } := by
  rw [Device.beforeReport_eq]
  unfold Device.recordLate
  by_cases hl : lines = []
  · rw [if_pos hl, if_pos hl]
    rfl
  · rw [if_neg hl, if_neg hl]
    rfl

/-- The CHARGE record of a session's settlement behind its room, or its reservation given back. -/
theorem Device.recordCharge_closing (room' : Nat) (kind : ChargeKind) (p : Posting) :
    (((d.beforeReport key n seq).modifyRoom room f).giveBackIf lines).recordCharge room' k kind lines clamped p .reserved =
      { d with
        rooms := Table.modify room f d.rooms
        journal := (if lines = [] then (d.beforeReport key n seq).giveBack else (d.beforeReport key n seq).record
          (.charge room' k kind lines (settlementAmount lines) p.moved (if 0 ≤ settlementAmount lines then p.excess else p.lost))
          { clampedReading := clamped, unpriced := lines.any (fun l => l.item.isNone), saturated := p.saturated }
          .reserved).journal } := by
  rw [Device.beforeReport_eq]
  unfold Device.recordCharge Device.giveBackIf
  by_cases hl : lines = []
  · simp only [if_pos hl]
    rfl
  · simp only [if_neg hl]
    rfl

/-- The LATE_CHARGE record of a session's settlement behind its room, or its reservation given back. -/
theorem Device.recordLate_closing (room' : Nat) :
    (((d.beforeReport key n seq).modifyRoom room f).giveBackIf lines).recordLate room' k lines clamped .reserved =
      { d with
        rooms := Table.modify room f d.rooms
        journal := (if lines = [] then (d.beforeReport key n seq).giveBack else (d.beforeReport key n seq).record
          (.lateCharge room' k lines (settlementAmount lines))
          { clampedReading := clamped, unpriced := lines.any (fun l => l.item.isNone) } .reserved).journal } := by
  rw [Device.beforeReport_eq]
  unfold Device.recordLate Device.giveBackIf
  by_cases hl : lines = []
  · simp only [if_pos hl]
    rfl
  · simp only [if_neg hl]
    rfl
end

/-- The suspension rule out of a session. -/
theorem Room.suspension_outside {r : Room} (h : r.bar.inSession = false) : r.suspension = { r with bar := r.restState } :=
  if_neg (by rw [h]; exact Bool.false_ne_true)

/-- Settles O53: by the state of the minibar, with the settlement's own step rules. -/
theorem tallySettlesTheSlots : Obligations.TallySettlesTheSlots := by
  intro s seg addr attention closed seq position pairs counts n key hs hx hn hl hkey hpos hpairs
  have honline : n.state.isOut = false := by rw [hn.1]; rfl
  have he : exec (.tally seg attention seq position pairs) s =
      commit s (fun t => t.onDevice (fun d => d.answer seg attention (some (seq, .tally closed counts)))) := by
    have hopen : positionOpen 0x83#8 position = !closed := position_means hpos
    rw [exec_tally, tallyBody, hopen, pairs_mean hpairs, Bool.not_not]
  refine ⟨fun hkind => ?_, fun hkind hnone => ?_, fun room r rebased charged after slots lines amount p clamped commands base made hkind
    hmem hfind hlink honly hlength hbase hslots hlines hamount hp hclamped hrebased hcharged hcommands hcase => ?_⟩
  · exact exec_reportRefused attention hs hx hn hl hkey he fun dR _ => if_neg hkind
  · refine exec_reportKept (m := { n with lastSeq := some seq, lastTally := some .refuse }) attention hs hx hn hl hkey he fun dR hdR => ?_
    refine ⟨dR.modifyNode key (fun n => { n with lastTally := some .refuse }), (if_pos hkind).trans ?_, ?_⟩
    · unfold Device.takeTally
      rw [Device.barRoom_none (by rw [hdR.rooms_eq]; exact hnone)]
    · subst hkey
      exact hdR.modifyNode _
  · have hreadings := readings_eq r.slots counts hlength
    rw [← rebased_eq r.slots counts hlength] at hslots
    rw [← anyClamped_eq r.slots counts hlength] at hclamped
    rw [← hreadings] at hlines
    subst hbase hamount hrebased hcharged
    have htariff : ∀ dR, s.dev.Served dR seg addr { n with lastSeq := some seq } [] (s.dev.beforeReport key n seq) →
        dR.tariff.lines 1 (readings r.slots counts) = lines := fun dR hdR => by
      rw [hdR.frame, Device.beforeReport_eq]
      exact hlines.symm
    rcases hcase with ⟨ho, hb, rfl, rfl, rfl⟩ | ⟨ho, hb, rfl, rfl, rfl⟩ | ⟨ho, hb, rfl, rfl⟩ | ⟨ho, hb, rfl, rfl⟩ |
      ⟨ho, hb, rfl, rfl, rfl⟩ | ⟨ho, hb, rfl, rfl, rfl⟩
    · refine exec_tallySettled attention hs hx hn hl hkey he hkind hmem hfind hlink honly (fun dR hdR => ?_)
        (Device.recordCharge_closing room .guest p)
      rw [Device.settleTally_guest (htariff dR hdR) hclamped.symm hslots.symm hp.symm ho hb, hcommands]
      exact (((hdR.modifyRoom room _).relock hkey hx.lineOpen honline).giveBackIf lines).recordCharge _ _ _ _ _ _ _
    · refine exec_tallySettled attention hs hx hn hl hkey he hkind hmem hfind hlink honly (fun dR hdR => ?_)
        (e := ((s.dev.beforeReport key n seq).modifyRoom room
          (fun _ => Room.closeSession { r with slots := slots, unsettled := false })).record _ _ .reserved)
        (by rw [Device.beforeReport_eq]; rfl)
      rw [Device.settleTally_restock hclamped.symm hslots.symm ho hb, hcommands]
      exact ((hdR.modifyRoom room _).relock hkey hx.lineOpen honline).record _ _ _
    · refine exec_tallySettled attention hs hx hn hl hkey he hkind hmem hfind hlink honly (fun dR hdR => ?_)
        (Device.recordCharge_behind room .unattended p .notable)
      rw [Device.settleTally_unattended (htariff dR hdR) hclamped.symm hslots.symm hp.symm ho hb, hcommands]
      exact ((hdR.modifyRoom room _).relockIf hkey hx.lineOpen honline closed).recordCharge _ _ _ _ _ _ _
    · refine exec_tallySettled attention hs hx hn hl hkey he hkind hmem hfind hlink honly (fun dR hdR => ?_)
        (Device.recordLate_behind room .notable)
      rw [Device.settleTally_orphan (htariff dR hdR) hclamped.symm hslots.symm ho hb,
        Room.suspension_outside (r := { r with slots := slots, unsettled := false, orphan := false }) hb, hcommands]
      exact ((hdR.modifyRoom room _).relockIf hkey hx.lineOpen honline closed).recordLate _ _ _ _ _
    · refine exec_tallySettled attention hs hx hn hl hkey he hkind hmem hfind hlink honly (fun dR hdR => ?_)
        (Device.recordLate_closing room)
      rw [Device.settleTally_orphanClosed (htariff dR hdR) hclamped.symm hslots.symm ho hb, hcommands]
      exact (((hdR.modifyRoom room _).relock hkey hx.lineOpen honline).giveBackIf lines).recordLate _ _ _ _ _
    · refine exec_tallySettled attention hs hx hn hl hkey he hkind hmem hfind hlink honly (fun dR hdR => ?_)
        (Device.recordLate_behind room .notable)
      rw [Device.settleTally_orphanOpen (htariff dR hdR) hclamped.symm hslots.symm ho hb, hcommands]
      exact (hdR.modifyRoom room _).recordLate _ _ _ _ _

end Sys2Proof.Machine
end

section
/-! The result of an encoding (O54). -/

namespace Sys2Proof.Machine

open Sys2Proof

/-! ## The result taken by the encoder -/

/-- A result out of WRITING is discarded. -/
theorem Device.takeResult_discarded {d : Device} {key : Nat} {enc : Encoder} (result : EncResult)
    (henc : Table.find key d.creds.encoders = some enc) (h : ∀ c, enc.current = some c → c.timer = none) :
    d.takeResult key result = (d.modifyEncoder key (fun e => { e with lastResult := some .refuse }), .refuse) := by
  unfold Device.takeResult
  rw [henc]
  cases hc : enc.current with
  | none => simp [hc]
  | some c => simp [hc, h c hc]

/-- An issue settled with the result of its encoding (R15). -/
def Device.resultTaken (d : Device) (i : Issue) (result : EncResult) : Device :=
  match result with
  | .written => d.issueWritten i
  | .failed => d.failIssue i .encodeFailed
  | .noCard => d.failIssue i .noCard

/-- A result in WRITING settles its issue, and the next one starts. -/
theorem Device.takeResult_writing {d : Device} {key : Nat} {enc : Encoder} {c : Encoding} {timer : Timer} (result : EncResult)
    (henc : Table.find key d.creds.encoders = some enc) (hc : enc.current = some c) (ht : c.timer = some timer) :
    d.takeResult key result =
      (((d.modifyEncoder key (fun e => { e with lastResult := some .grant })).resultTaken c.issue result).nextEncoding key, .grant) := by
  unfold Device.takeResult
  rw [henc]
  dsimp only
  rw [hc]
  dsimp only
  rw [ht]
  cases result <;> rfl

/-- What settling an issue with its result does, where it supersedes nothing. -/
theorem Device.resultTaken_eq {d : Device} {i : Issue} {result : EncResult} {e : Entry} {left : Option Entry} {event : CardEvent}
    {settlement : Settlement} (he : d.entryOf i.serial = some e)
    (h : (result = .written ∧ i.supersede = false ∧ left = some { e with state := .active, deniedBefore := false } ∧ event = .issued
        ∧ settlement = { block := i.block, words := [e.issueMinute, 0], code := .done })
      ∨ (result ≠ .written ∧ left = none ∧ event = .issueFailed
        ∧ settlement = { block := i.block, words := [0, 0], code := if result = .failed then .encodeFailed else .noCard })) :
    ∃ entries rooms, d.resultTaken i result = { d with
        creds := { d.creds with
          entries := entries
          deny := if result ≠ .written ∧ e.deniedBefore = true then denyAppend i.serial d.creds.deny else d.creds.deny }
        rooms := rooms
        journal := (d.notable (.card i.serial event e.room e.tag)).journal
        walker := { d.walker with settlements := d.walker.settlements ++ [settlement] } } ∧
      (∀ serial : Word, Table.find serial.toNat entries = if serial = i.serial then left else d.entryOf serial) ∧
      (∀ room, Table.find room rooms = (Table.find room d.rooms).map (fun r =>
        if result ≠ .written ∧ e.kind = .guest ∧ room = e.room then { r with guestCount := r.guestCount - 1 } else r)) := by
  rcases h with ⟨rfl, hsup, rfl, rfl, rfl⟩ | ⟨hr, rfl, rfl, rfl⟩
  · refine ⟨_, d.rooms, d.issueWritten_eq i e hsup he, fun serial => d.entryOf_putEntry i.serial serial _, fun room => ?_⟩
    simp
  · have htaken : d.resultTaken i result = d.failIssue i (if result = .failed then .encodeFailed else .noCard) := by
      cases result with
      | written => exact absurd rfl hr
      | failed => rfl
      | noCard => rfl
    obtain ⟨entries, rooms, hfail, hentries, hrooms⟩ := d.failIssue_eq i (if result = .failed then .encodeFailed else .noCard) e he
    refine ⟨entries, rooms, ?_, hentries, fun room => ?_⟩
    · rw [htaken, hfail]
      simp only [ne_eq, hr, not_false_eq_true, true_and]
    · rw [hrooms]
      simp only [ne_eq, hr, not_false_eq_true, true_and]

/-! ## The step rules of an encoding -/

namespace Device.Served

variable {d d2 e : Device} {seg addr key : Nat} {m : Node} {cs : List Command}

/-- An encoder changed. -/
theorem modifyEncoder (h : d.Served d2 seg addr m cs e) (key : Nat) (f : Encoder → Encoder) :
    d.Served (d2.modifyEncoder key f) seg addr m cs (e.modifyEncoder key f) where
  node := h.node
  others := h.others
  segments := h.segments
  frame := congrArg (fun x => x.modifyEncoder key f) h.frame

/-- Credentials, rooms, journal and walker replaced. -/
theorem put (h : d.Served d2 seg addr m cs e) (creds : CredentialUnit) (rooms : Table Room) (journal : Journal) (walker : Walker) :
    d.Served { d2 with creds := creds, rooms := rooms, journal := journal, walker := walker } seg addr m cs
      { e with creds := creds, rooms := rooms, journal := journal, walker := walker } where
  node := h.node
  others := h.others
  segments := h.segments
  frame := congrArg (fun x => { x with creds := creds, rooms := rooms, journal := journal, walker := walker }) h.frame

/-- The credentials are those of the device that it stands as. -/
theorem creds_eq (h : d.Served d2 seg addr m cs e) : d2.creds = e.creds := by
  rw [h.frame]

/-- The next job number set. -/
theorem setJob (h : d.Served d2 seg addr m cs e) (job : Nat) :
    d.Served { d2 with creds := { d2.creds with nextJob := job } } seg addr m cs { e with creds := { e.creds with nextJob := job } } where
  node := h.node
  others := h.others
  segments := h.segments
  frame := congrArg (fun x => { x with creds := { x.creds with nextJob := job } }) h.frame

/-- The next encoding of the encoder served started, where an issue waits (R14). -/
theorem nextEncoding {enc after : Encoder} {commands : List Command} {job : Nat} (h : d.Served d2 seg addr m [] e)
    (hkey : key = seg * 256 + addr) (hx : d.lineOpen seg addr) (hm : m.state.isOut = false)
    (henc : Table.find key e.creds.encoders = some enc)
    (hnext : (enc.waiting = [] ∧ after = { enc with current := none } ∧ commands = [] ∧ job = e.creds.nextJob)
      ∨ ∃ issue rest, enc.waiting = issue :: rest ∧ commands = [.encode issue.image e.creds.nextJob]
        ∧ after = { enc with current := some { issue := issue, timer := none, job := e.creds.nextJob }, waiting := rest }
        ∧ job = e.creds.nextJob + 1) :
    ∃ encoders, Table.find key encoders = some after ∧
      (∀ other, other ≠ key → Table.find other encoders = Table.find other e.creds.encoders) ∧
      d.Served (d2.nextEncoding key) seg addr m commands { e with creds := { e.creds with encoders := encoders, nextJob := job } } := by
  have henc2 : Table.find key d2.creds.encoders = some enc := by rw [h.creds_eq]; exact henc
  have hjob := congrArg CredentialUnit.nextJob h.creds_eq
  rcases hnext with ⟨hw, rfl, rfl, rfl⟩ | ⟨issue, rest, hw, rfl, rfl, rfl⟩
  · have hnext2 : d2.nextEncoding key = d2.modifyEncoder key (fun e => { e with current := none }) := by
      unfold Device.nextEncoding
      rw [henc2]
      dsimp only
      rw [hw]
    rw [hnext2]
    refine ⟨_, ?_, fun other ho => Table.find_modify_ne _ _ ho, h.modifyEncoder key _⟩
    rw [Table.find_modify_self, henc]
    rfl
  · have hnext2 : d2.nextEncoding key =
        (d2.modifyEncoder key (fun e => { e with current := none, waiting := rest })).startEncoding key issue := by
      unfold Device.nextEncoding
      rw [henc2]
      dsimp only
      rw [hw]
    have hready := (((h.modifyEncoder key fun e => { e with current := none, waiting := rest }).modifyEncoder key fun x =>
      { x with current := some { issue := issue, timer := none, job := e.creds.nextJob } }).setJob (e.creds.nextJob + 1)).hand hx hm
        (.encode issue.image e.creds.nextJob)
    rw [← hkey] at hready
    refine ⟨Table.modify key (fun x => { x with current := some { issue := issue, timer := none, job := e.creds.nextJob } })
      (Table.modify key (fun x => { x with current := none, waiting := rest }) e.creds.encoders), ?_, fun other ho => ?_, ?_⟩
    · rw [Table.find_modify_self, Table.find_modify_self, henc]
      rfl
    · rw [Table.find_modify_ne _ _ ho, Table.find_modify_ne _ _ ho]
    · rw [hnext2]
      unfold Device.startEncoding
      dsimp only
      rw [show (d2.modifyEncoder key fun e => { e with current := none, waiting := rest }).creds.nextJob = e.creds.nextJob from hjob]
      exact hready

end Device.Served

end Sys2Proof.Machine
end

section
/-! The result of an encoding: refused, discarded, and settled (O54). -/

namespace Sys2Proof.Machine

open Sys2Proof

/-! ## A result without supersession -/

section
variable {s : State} {seg addr key : Nat} {att : Bool} {n : Node} {seq : BitVec 4} {code : Byte} {result : EncResult} {enc : Encoder}

/-- A result at an encoder that writes no card is discarded, and the refusal kept. -/
theorem exec_resultDiscarded (hs : s.settled) (hx : s.dev.exchangeWith seg addr n) (hn : n.sound) (hl : n.lastSeq ≠ some seq)
    (hkey : key = seg * 256 + addr)
    (he : exec (.encResult seg att seq code) s = commit s (fun t => t.onDevice (fun d => d.answer seg att (some (seq, .encResult result)))))
    (hkind : n.kind = .encoder) (henc : Table.find key s.dev.creds.encoders = some enc)
    (hcur : ∀ c, enc.current = some c → c.timer = none) :
    ∃ t, exec (.encResult seg att seq code) s = .next t ∧
      s.answered t seg addr att { n with lastSeq := some seq, owedAck := some (seq, .refuse) } [] ∧
      Table.find key t.dev.creds.encoders = some { enc with lastResult := some .refuse } ∧
      (∀ other, other ≠ key → Table.find other t.dev.creds.encoders = Table.find other s.dev.creds.encoders) ∧
      t.dev.journal = (s.dev.beforeReport key n seq).journal ∧
      t = { s with dev := { s.dev with
        regs := { s.dev.regs with status := stallStatus s.dev.journal t.dev.journal s.dev.regs.status }
        creds := { s.dev.creds with encoders := t.dev.creds.encoders }
        nodes := t.dev.nodes, segments := t.dev.segments, journal := t.dev.journal } } := by
  obtain ⟨dR, hserved, hgo⟩ := exec_reportHeard att hs hx hn hl hkey he
  have hcreds : dR.creds = s.dev.creds := by rw [hserved.frame, Device.beforeReport_eq]
  have hbase : (s.dev.beforeReport key n seq).modifyEncoder key (fun e => { e with lastResult := some .refuse }) =
      { s.dev with
        creds := { s.dev.creds with
          encoders := Table.modify key (fun e => { e with lastResult := some .refuse }) s.dev.creds.encoders }
        journal := (s.dev.beforeReport key n seq).journal } := by
    rw [Device.beforeReport_eq]
    rfl
  obtain ⟨t, hexec, hans, hj, ht⟩ := hgo _ _ _ _ _
    ((if_pos hkind).trans (Device.takeResult_discarded result (by rw [hcreds]; exact henc) hcur))
    (hserved.modifyEncoder key fun e => { e with lastResult := some .refuse }) (by rw [hbase]; exact hs)
  rw [hbase] at hj ht
  have hencoders : t.dev.creds.encoders = Table.modify key (fun e => { e with lastResult := some .refuse }) s.dev.creds.encoders := by
    rw [ht]
  refine ⟨t, hexec, hans, ?_, fun other ho => ?_, hj, ?_⟩
  · rw [hencoders, Table.find_modify_self, henc]
    rfl
  · rw [hencoders, Table.find_modify_ne _ _ ho]
  · rw [hj, hencoders]
    exact ht

/-- A result in WRITING that supersedes nothing settles its issue, and the next one starts. -/
theorem exec_resultTaken {after : Encoder} {c : Encoding} {timer : Timer} {e : Entry} {left : Option Entry} {event : CardEvent}
    {settlement : Settlement} {job : Nat} {commands : List Command}
    (hs : s.settled) (hx : s.dev.exchangeWith seg addr n) (hn : n.sound) (hl : n.lastSeq ≠ some seq) (hkey : key = seg * 256 + addr)
    (he : exec (.encResult seg att seq code) s = commit s (fun t => t.onDevice (fun d => d.answer seg att (some (seq, .encResult result)))))
    (hkind : n.kind = .encoder) (henc : Table.find key s.dev.creds.encoders = some enc) (hc : enc.current = some c)
    (ht : c.timer = some timer) (hentry : s.dev.entryOf c.issue.serial = some e)
    (hcase : (result = .written ∧ c.issue.supersede = false ∧ left = some { e with state := .active, deniedBefore := false }
          ∧ event = .issued ∧ settlement = { block := c.issue.block, words := [e.issueMinute, 0], code := .done })
        ∨ (result ≠ .written ∧ left = none ∧ event = .issueFailed
          ∧ settlement = { block := c.issue.block, words := [0, 0]
                           code := if result = .failed then .encodeFailed else .noCard }))
    (hnext : (enc.waiting = [] ∧ after = { enc with current := none, lastResult := some .grant } ∧ job = s.dev.creds.nextJob
          ∧ commands = [])
        ∨ ∃ issue rest, enc.waiting = issue :: rest ∧ job = s.dev.creds.nextJob + 1
          ∧ commands = [.encode issue.image s.dev.creds.nextJob]
          ∧ after = { current := some { issue := issue, timer := none, job := s.dev.creds.nextJob }, waiting := rest
                      lastResult := some .grant }) :
    ∃ t, exec (.encResult seg att seq code) s = .next t ∧
      s.answered t seg addr att { n with lastSeq := some seq, owedAck := some (seq, .grant) } commands ∧
      (∀ serial, t.dev.entryOf serial = if serial = c.issue.serial then left else s.dev.entryOf serial) ∧
      t.dev.creds.deny = (if result ≠ .written ∧ e.deniedBefore = true then denyAppend c.issue.serial s.dev.creds.deny
        else s.dev.creds.deny) ∧
      (∀ room, Table.find room t.dev.rooms = (Table.find room s.dev.rooms).map (fun r =>
        if result ≠ .written ∧ e.kind = .guest ∧ room = e.room then { r with guestCount := r.guestCount - 1 } else r)) ∧
      Table.find key t.dev.creds.encoders = some after ∧
      (∀ other, other ≠ key → Table.find other t.dev.creds.encoders = Table.find other s.dev.creds.encoders) ∧
      t.dev.journal = ((s.dev.beforeReport key n seq).notable (.card c.issue.serial event e.room e.tag)).journal ∧
      t = { s with dev := { s.dev with
        regs := { s.dev.regs with status := stallStatus s.dev.journal t.dev.journal s.dev.regs.status }
        walker := { s.dev.walker with settlements := s.dev.walker.settlements ++ [settlement] }
        creds := { s.dev.creds with
          entries := t.dev.creds.entries, deny := t.dev.creds.deny, encoders := t.dev.creds.encoders, nextJob := job }
        rooms := t.dev.rooms, nodes := t.dev.nodes, segments := t.dev.segments, journal := t.dev.journal } } := by
  obtain ⟨dR, hserved, hgo⟩ := exec_reportHeard att hs hx hn hl hkey he
  obtain ⟨j, hbase⟩ : ∃ j, s.dev.beforeReport key n seq = { s.dev with journal := j } := ⟨_, Device.beforeReport_eq _ _ _ _⟩
  rw [hbase] at hserved ⊢
  have honline : n.state.isOut = false := by rw [hn.1]; rfl
  have hcredsR : dR.creds = s.dev.creds := by rw [hserved.frame]
  have hkept := hserved.modifyEncoder key fun x => { x with lastResult := some .grant }
  have htake : dR.handReport key n (.encResult result) =
      (((dR.modifyEncoder key (fun x => { x with lastResult := some .grant })).resultTaken c.issue result).nextEncoding key, .grant) :=
    (if_pos hkind).trans (Device.takeResult_writing result (by rw [hcredsR]; exact henc) hc ht)
  generalize hd1 : dR.modifyEncoder key (fun x => { x with lastResult := some .grant }) = d1 at hkept htake
  have hcreds : d1.creds = { s.dev.creds with
      encoders := Table.modify key (fun x => { x with lastResult := some .grant }) s.dev.creds.encoders } := by
    rw [hkept.frame]
    rfl
  have hwalker : d1.walker = s.dev.walker := by rw [hkept.frame]; rfl
  have hrooms : d1.rooms = s.dev.rooms := by rw [hkept.frame]; rfl
  have hjournal : ∀ body, (d1.notable body).journal = (Device.notable { s.dev with journal := j } body).journal := fun body => by
    rw [hkept.frame]
    rfl
  have hentry1 : ∀ serial, d1.entryOf serial = s.dev.entryOf serial := fun serial => by
    unfold Device.entryOf
    rw [hcreds]
  obtain ⟨entries, rooms, htaken, hentries, hroomsAfter⟩ := Device.resultTaken_eq ((hentry1 _).trans hentry) hcase
  have hsettled := hkept.put
    { d1.creds with
      entries := entries
      deny := if result ≠ .written ∧ e.deniedBefore = true then denyAppend c.issue.serial d1.creds.deny else d1.creds.deny }
    rooms (d1.notable (.card c.issue.serial event e.room e.tag)).journal
    { d1.walker with settlements := d1.walker.settlements ++ [settlement] }
  rw [hcreds, hwalker, hjournal] at hsettled htaken
  obtain ⟨encoders, hfound, hothers, hfinal⟩ := hsettled.nextEncoding (after := after) (commands := commands) (job := job)
    (enc := { enc with lastResult := some .grant }) hkey hx.lineOpen honline
    (by
      dsimp only
      rw [Table.find_modify_self, henc]
      rfl)
    (by
      rcases hnext with ⟨hw, rfl, rfl, rfl⟩ | ⟨issue, rest, hw, rfl, rfl, rfl⟩
      · exact .inl ⟨hw, rfl, rfl, rfl⟩
      · exact .inr ⟨issue, rest, hw, rfl, rfl, rfl⟩)
  rw [← htaken] at hfinal
  obtain ⟨t, hexec, hans, hj, ht⟩ := hgo _ _ _ _ _ htake hfinal hs
  have hcreds' : t.dev.creds = { s.dev.creds with
      entries := entries
      deny := if result ≠ .written ∧ e.deniedBefore = true then denyAppend c.issue.serial s.dev.creds.deny else s.dev.creds.deny
      encoders := encoders
      nextJob := job } := by rw [ht]
  have hrooms' : t.dev.rooms = rooms := by rw [ht]
  refine ⟨t, hexec, hans, fun serial => ?_, ?_, fun room => ?_, ?_, fun other ho => ?_, hj, ?_⟩
  · rw [← hentry1 serial, ← hentries serial, Device.entryOf, hcreds']
  · rw [hcreds']
  · rw [hrooms', ← hrooms]
    exact hroomsAfter room
  · rw [hcreds']
    exact hfound
  · rw [hcreds']
    refine (hothers other ho).trans ?_
    dsimp only
    rw [Table.find_modify_ne _ _ ho]
  · rw [hj, hcreds', hrooms']
    exact ht
end

end Sys2Proof.Machine
end

section
/-! A written result that supersedes the room's other cards (O54). -/

namespace Sys2Proof.Machine

open Sys2Proof

/-! ## Supersession -/

/-- Issues still stand where the entries named, the serials at each encoder and the nodes in service are as they were. -/
theorem Device.issuesStand_of {d d' : Device} {serials : List Word} {f : Nat → Encoder → Encoder} (h : d.issuesStand serials)
    (hwf : Table.wf d'.creds.encoders = true) (hentry : ∀ x ∈ serials, d'.entryOf x = d.entryOf x)
    (hf : ∀ k enc, (f k enc).serials = enc.serials)
    (henc : ∀ k, Table.find k d'.creds.encoders = (Table.find k d.creds.encoders).map (f k))
    (hre : ∀ k n, d.reachable k n → ∃ n', d'.reachable k n') : d'.issuesStand serials := by
  obtain ⟨-, hnodup, hstand⟩ := h
  refine ⟨hwf, hnodup, fun x hx => ?_⟩
  obtain ⟨e, he, hissue⟩ := hstand x hx
  refine ⟨e, (hentry x hx).trans he, fun hst => ?_⟩
  obtain ⟨key, enc, n, ⟨hfind, hin, halone⟩, hreach⟩ := hissue hst
  obtain ⟨n', hreach'⟩ := hre key n hreach
  refine ⟨key, f key enc, n', ⟨by rw [henc, hfind]; rfl, by rw [hf]; exact hin, fun other y ho hy => ?_⟩, hreach'⟩
  rw [henc] at hy
  obtain ⟨z, hz, rfl⟩ := Option.map_eq_some_iff.1 hy
  rw [hf]
  exact halone other z ho hz

/-- A written issue with SUPERSEDE set: the other cards retired, their settlements, its record and its own settlement (R15, R17). -/
theorem Device.issueWritten_superseding {d mid : Device} {i : Issue} {e : Entry} {serials : List Word} {settled : List Settlement}
    (hsup : i.supersede = true) (he : d.entryOf i.serial = some e)
    (hserials : (d.putEntry i.serial { e with state := .active, deniedBefore := false }).guestSerials e.room
      (fun k _ => decide (k ≠ i.serial.toNat)) = serials)
    (hretire : (d.putEntry i.serial { e with state := .active, deniedBefore := false }).retireAll .superseded e.tag serials
      = (mid, settled)) :
    d.issueWritten i = { mid with
      journal := (mid.notable (.card i.serial .issued e.room e.tag)).journal
      walker := { mid.walker with settlements := mid.walker.settlements ++ settled ++
        [{ block := i.block, words := [e.issueMinute, natWord serials.length], code := .done }] } } := by
  unfold Device.issueWritten
  rw [he]
  simp only [hsup, if_true, Device.supersede, hserials, hretire, handSettlements]
  rfl

/-- The serials superseded: the room's other GUEST entries, ascending. -/
theorem Device.supersededSerials {d : Device} {serial : Word} {e written : Entry} {serials : List Word}
    (hwf : Table.wf d.creds.entries = true) (hword : ∀ p ∈ d.creds.entries, p.1 < 4294967296)
    (hmem : ∀ x, x ∈ serials ↔ x ≠ serial ∧ ∃ y, d.entryOf x = some y ∧ y.kind = .guest ∧ y.room = e.room)
    (hrise : serials.Pairwise (fun a b => a.toNat < b.toNat)) :
    (d.putEntry serial written).guestSerials e.room (fun k _ => decide (k ≠ serial.toNat)) = serials := by
  refine Device.guestSerials_eq (Table.wf_put _ _ hwf) (fun p hp => ?_) hrise fun x => ?_
  · rcases Table.mem_put hp with rfl | hp
    · exact serial.isLt
    · exact hword p hp
  · rw [hmem, Device.entryOf_putEntry]
    have hne : x.toNat ≠ serial.toNat ↔ x ≠ serial := not_congr BitVec.toNat_inj
    simp only [decide_eq_true_eq, hne]
    by_cases hx : x = serial
    · simp [hx]
    · simp [hx]

/-- A device stands as itself, an exchange in progress at its node. -/
theorem Device.Served.refl {d : Device} {seg addr : Nat} {n : Node} (hlen : seg < d.segments.length)
    (hn : Table.find (seg * 256 + addr) d.nodes = some n) : d.Served d seg addr n [] d where
  node := hn
  others _ _ := rfl
  segments := (Device.set_segment_self hlen).symm
  frame := rfl

/-- The next encoding of an encoder, whichever issue waits. -/
theorem Encoder.next_cases (last : Encoder) (job : Nat) :
    ∃ (after : Encoder) (commands : List Command) (job' : Nat),
      (last.waiting = [] ∧ after = { last with current := none } ∧ commands = [] ∧ job' = job)
      ∨ ∃ issue rest, last.waiting = issue :: rest ∧ commands = [.encode issue.image job]
        ∧ after = { last with current := some { issue := issue, timer := none, job := job }, waiting := rest } ∧ job' = job + 1 := by
  cases hw : last.waiting with
  | nil => exact ⟨_, _, _, .inl ⟨rfl, rfl, rfl, rfl⟩⟩
  | cons issue rest => exact ⟨_, _, _, .inr ⟨issue, rest, rfl, rfl, rfl, rfl⟩⟩

section
variable {s : State} {seg addr key : Nat} {att : Bool} {n : Node} {seq : BitVec 4} {code : Byte} {enc : Encoder}

/-- WRITTEN of an issue with SUPERSEDE set. -/
theorem exec_resultSuperseding {c : Encoding} {timer : Timer} {e : Entry} {serials : List Word}
    (hs : s.settled) (hx : s.dev.exchangeWith seg addr n) (hn : n.sound) (hl : n.lastSeq ≠ some seq) (hkey : key = seg * 256 + addr)
    (he : exec (.encResult seg att seq code) s =
      commit s (fun t => t.onDevice (fun d => d.answer seg att (some (seq, .encResult .written)))))
    (hkind : n.kind = .encoder) (henc : Table.find key s.dev.creds.encoders = some enc) (hc : enc.current = some c)
    (htimer : c.timer = some timer) (hsup : c.issue.supersede = true) (hentry : s.dev.entryOf c.issue.serial = some e)
    (hwf : Table.wf s.dev.creds.entries = true) (hword : ∀ p ∈ s.dev.creds.entries, p.1 < 4294967296)
    (hmem : ∀ serial, serial ∈ serials ↔ serial ≠ c.issue.serial ∧
      ∃ x, s.dev.entryOf serial = some x ∧ x.kind = .guest ∧ x.room = e.room)
    (hrise : serials.Pairwise (fun a b => a.toNat < b.toNat)) (hstand : s.dev.issuesStand serials) :
    ∃ (t : State) (written mid : Device) (settled : List Settlement) (last after : Encoder) (commands : List Command),
      exec (.encResult seg att seq code) s = .next t ∧
      written.entryOf c.issue.serial = some { e with state := .active, deniedBefore := false } ∧
      (∀ other, other ≠ c.issue.serial → written.entryOf other = s.dev.entryOf other) ∧
      Table.find key written.creds.encoders = some { enc with lastResult := some .grant } ∧
      (∀ other, other ≠ key → Table.find other written.creds.encoders = Table.find other s.dev.creds.encoders) ∧
      Table.find key written.nodes = some { n with lastSeq := some seq } ∧
      (∀ other, other ≠ key → Table.find other written.nodes = Table.find other s.dev.nodes) ∧
      written.journal = (s.dev.beforeReport key n seq).journal ∧
      written = { s.dev with
        creds := { s.dev.creds with entries := written.creds.entries, encoders := written.creds.encoders }
        nodes := written.nodes, journal := written.journal } ∧
      Device.retiredAll .superseded e.tag written mid serials settled ∧
      Table.find key mid.creds.encoders = some last ∧
      ((last.waiting = [] ∧ after = { last with current := none } ∧ commands = [] ∧ t.dev.creds.nextJob = mid.creds.nextJob)
        ∨ ∃ issue rest, last.waiting = issue :: rest ∧ commands = [.encode issue.image mid.creds.nextJob]
          ∧ after = { last with
              current := some { issue := issue, timer := none, job := mid.creds.nextJob }, waiting := rest }
          ∧ t.dev.creds.nextJob = mid.creds.nextJob + 1) ∧
      State.answered { s with dev := mid } t seg addr att
        { n with lastSeq := some seq, owedAck := some (seq, .grant) } commands ∧
      Table.find key t.dev.creds.encoders = some after ∧
      (∀ other, other ≠ key → Table.find other t.dev.creds.encoders = Table.find other mid.creds.encoders) ∧
      t.dev.journal = (mid.notable (.card c.issue.serial .issued e.room e.tag)).journal ∧
      t = { s with dev := { mid with
        regs := { s.dev.regs with status := stallStatus s.dev.journal t.dev.journal s.dev.regs.status }
        walker := { s.dev.walker with settlements := s.dev.walker.settlements ++ settled ++
          [{ block := c.issue.block, words := [e.issueMinute, natWord serials.length], code := .done }] }
        creds := { mid.creds with encoders := t.dev.creds.encoders, nextJob := t.dev.creds.nextJob }
        nodes := t.dev.nodes, segments := t.dev.segments, journal := t.dev.journal } } := by
  subst hkey
  have hlen := State.exchangeWith_length hx
  obtain ⟨dR, hR, hfR, hoR, hgo⟩ := exec_report_mid att hx hn hl he
  have honline : n.state.isOut = false := by rw [hn.1]; rfl
  have hcredsR : dR.creds = s.dev.creds := by rw [hR]
  have htake : dR.handReport (seg * 256 + addr) n (.encResult .written) =
      (((dR.modifyEncoder (seg * 256 + addr) (fun x => { x with lastResult := some .grant })).issueWritten c.issue).nextEncoding
        (seg * 256 + addr), .grant) :=
    (if_pos hkind).trans (Device.takeResult_writing .written (by rw [hcredsR]; exact henc) hc htimer)
  generalize hd1 : dR.modifyEncoder (seg * 256 + addr) (fun x => { x with lastResult := some .grant }) = d1 at htake
  have hentries1 : d1.creds.entries = s.dev.creds.entries := by rw [← hd1, hR]; rfl
  have hentry1 : ∀ x, d1.entryOf x = s.dev.entryOf x := fun x => by
    unfold Device.entryOf
    rw [hentries1]
  have hserials := Device.supersededSerials (d := d1) (serial := c.issue.serial) (e := e)
    (written := { e with state := .active, deniedBefore := false }) (by rw [hentries1]; exact hwf) (by rw [hentries1]; exact hword)
    (by simpa only [hentry1] using hmem) hrise
  generalize hwritten : d1.putEntry c.issue.serial { e with state := .active, deniedBefore := false } = written at hserials
  have hframe : written = { s.dev with
      creds := { s.dev.creds with entries := written.creds.entries, encoders := written.creds.encoders }
      nodes := written.nodes, journal := written.journal } := by
    rw [← hwritten, ← hd1, hR]
    rfl
  have hencoders : written.creds.encoders =
      Table.modify (seg * 256 + addr) (fun x => { x with lastResult := some .grant }) s.dev.creds.encoders := by
    rw [← hwritten, ← hd1, hR]
    rfl
  have hentryW : ∀ x, written.entryOf x = if x = c.issue.serial then some { e with state := .active, deniedBefore := false }
      else s.dev.entryOf x := fun x => by
    rw [← hwritten, Device.entryOf_putEntry, hentry1]
  have hnodes : written.nodes = dR.nodes := by rw [← hwritten, ← hd1]; rfl
  have hjournal : written.journal = (s.dev.beforeReport (seg * 256 + addr) n seq).journal := by rw [← hwritten, ← hd1, hR]; rfl
  have hsegments : written.segments = s.dev.segments := by rw [hframe]
  have hseg : ∀ k, written.segment k = s.dev.segment k := fun k => by rw [Device.segment, hsegments]; rfl
  have hnodeW : Table.find (seg * 256 + addr) written.nodes = some { n with lastSeq := some seq } := by rw [hnodes]; exact hfR
  have hothersW : ∀ other, other ≠ seg * 256 + addr → Table.find other written.nodes = Table.find other s.dev.nodes := fun other ho => by
    rw [hnodes]
    exact hoR other ho
  have hlastW : Table.find (seg * 256 + addr) written.creds.encoders = some { enc with lastResult := some .grant } := by
    rw [hencoders, Table.find_modify_self, henc]
    rfl
  have hstandW : written.issuesStand serials := by
    refine Device.issuesStand_of (f := fun k x => if k = seg * 256 + addr then { x with lastResult := some .grant } else x) hstand
      ?_ (fun x hx => ?_) (fun k x => ?_) (fun k => ?_) (fun k m hm => ?_)
    · rw [hencoders]
      exact Table.wf_modify _ _ hstand.1
    · rw [hentryW, if_neg ((hmem x).1 hx).1]
    · split_ifs <;> rfl
    · rw [hencoders, Table.find_modify]
      by_cases hk : k = seg * 256 + addr
      · subst hk
        simp
      · simp [hk]
    · obtain ⟨hfind, hin, hdis⟩ := hm
      by_cases hk : k = seg * 256 + addr
      · subst hk
        exact ⟨_, hnodeW, honline, by rw [hseg]; exact hdis⟩
      · exact ⟨m, (hothersW k hk).trans hfind, hin, by rw [hseg]; exact hdis⟩
  have hretired := Device.retireAll_retiredAll .superseded e.tag serials written hstandW
  rcases hretire : written.retireAll .superseded e.tag serials with ⟨mid, settled⟩
  rw [hretire] at hretired
  have hissue := Device.issueWritten_superseding (mid := mid) (serials := serials) (settled := settled) hsup ((hentry1 _).trans hentry)
    (by rw [hwritten]; exact hserials) (by rw [hwritten]; exact hretire)
  obtain ⟨haddr, ⟨timeout, hex⟩, hdis, -⟩ := hx
  obtain ⟨hmidEx, hmidLen, last, hlast⟩ := Device.retiredAll_more .superseded e.tag serials written mid settled seg addr timeout
    (seg * 256 + addr) _ hretired ((congrArg Segment.exchange (hseg seg)).trans hex) hlastW
  obtain ⟨hmidNodes, hmidReports, hmidWalker, -, hmidRegs, hmidReach, -⟩ := Device.retiredAll_frame _ _ _ _ _ _ hretired
  have hmidLen' : seg < mid.segments.length := by rw [hmidLen, hsegments]; exact hlen
  have hmidNode : Table.find (seg * 256 + addr) mid.nodes = some { n with lastSeq := some seq } := by rw [hmidNodes]; exact hnodeW
  have hkeySeg : keySeg (seg * 256 + addr) = seg := by unfold keySeg; omega
  have hmidX : mid.exchangeWith seg addr { n with lastSeq := some seq } := by
    have hreach := hmidReach (seg * 256 + addr) { n with lastSeq := some seq } ⟨hnodeW, honline, by rw [hkeySeg, hseg]; exact hdis⟩
    refine ⟨haddr, ⟨timeout, hmidEx⟩, ?_, hmidNode⟩
    rw [← hkeySeg]
    exact hreach.2.2
  obtain ⟨after, commands, job, hnext⟩ := last.next_cases mid.creds.nextJob
  obtain ⟨encoders, hfound, hothers, hfinal⟩ := ((Device.Served.refl hmidLen' hmidNode).put mid.creds mid.rooms
    (mid.notable (.card c.issue.serial .issued e.room e.tag)).journal
    { mid.walker with settlements := mid.walker.settlements ++ settled ++
      [{ block := c.issue.block, words := [e.issueMinute, natWord serials.length], code := .done }] }).nextEncoding
        rfl hmidX.lineOpen honline hlast hnext
  rw [hissue] at htake
  generalize Device.nextEncoding _ _ = d2 at htake hfinal
  have hd2 := hfinal.frame
  obtain ⟨t, hexec, hans, hj, ht⟩ := hgo d2 mid _ _ commands timeout htake (by rw [hd2]; exact hmidReports.trans (by rw [hframe]; exact hs))
    hfinal.node hfinal.others hmidEx hmidLen' hfinal.segments
  have hj' : d2.journal = (mid.notable (.card c.issue.serial .issued e.room e.tag)).journal := by rw [hd2]
  have hcreds' : t.dev.creds = { mid.creds with encoders := encoders, nextJob := job } := by rw [ht, hd2]
  refine ⟨t, written, mid, settled, last, after, commands, hexec, (hentryW _).trans (if_pos rfl),
    fun other ho => (hentryW other).trans (if_neg ho), hlastW, fun other ho => ?_, hnodeW, hothersW, hjournal, hframe, hretired, hlast,
    ?_, hans, ?_, fun other ho => ?_, hj.trans hj', ?_⟩
  · rw [hencoders, Table.find_modify_ne _ _ ho]
  · rw [hcreds']
    exact hnext
  · rw [hcreds']
    exact hfound
  · rw [hcreds']
    exact hothers other ho
  · have hregs : mid.regs = s.dev.regs := by rw [hmidRegs, hframe]
    have hwalker : mid.walker = s.dev.walker := by rw [hmidWalker, hframe]
    rw [hj.trans hj', hcreds', ← hregs, ← hwalker]
    rw [hj'] at ht
    refine ht.trans ?_
    rw [hd2]
end

/-- Settles O54: refused by another kind, discarded out of WRITING, and settled in WRITING without and with supersession. -/
theorem encodingResultSettles : Obligations.EncodingResultSettles := by
  intro s seg addr attention seq code result n key hs hx hn hl hkey hmeans
  have he : exec (.encResult seg attention seq code) s =
      commit s (fun t => t.onDevice (fun d => d.answer seg attention (some (seq, .encResult result)))) := by
    rw [exec_encResult, result_means hmeans]
  refine ⟨fun hkind => ?_, fun enc hkind henc hcur => ?_, fun enc after c timer e left event settlement job commands hkind henc hc ht hentry
    hcase hnext => ?_, fun enc c timer e serials hkind hresult henc hc htimer hsup hentry hwf hword hmem hrise hstand => ?_⟩
  · exact exec_reportRefused attention hs hx hn hl hkey he fun dR _ => if_neg hkind
  · exact exec_resultDiscarded hs hx hn hl hkey he hkind henc hcur
  · exact exec_resultTaken hs hx hn hl hkey he hkind henc hc ht hentry hcase hnext
  · subst hresult
    exact exec_resultSuperseding hs hx hn hl hkey he hkind henc hc htimer hsup hentry hwf hword hmem hrise hstand

end Sys2Proof.Machine
end

section
/-! An answer NOTHING with no command in its exchange (O47). -/

namespace Sys2Proof.Machine

open Sys2Proof

/-! ## The end of an exchange -/

/-- An exchange over leaves the attention set. -/
theorem Segment.closed_attention (g : Segment) : g.closed.attention = g.attention := by
  unfold Segment.closed
  cases g.exchange with
  | none => rfl
  | some x => cases hn : x.next <;> simp [hn]

/-- Commands placed leave the attention set. -/
theorem Segment.places_attention (addr : Nat) (cs : List Command) (g : Segment) :
    (cs.foldl (fun g c => g.place addr c) g).attention = g.attention := by
  induction cs generalizing g with
  | nil => rfl
  | cons c cs ih => exact (ih _).trans (Segment.place_frame g addr c).2.1

/-- The exchange over and the attention mark taken: the node's pass-over count and its segment are all that changes (R151, R156). -/
theorem Device.closeExchange {d dT : Device} {seg addr : Nat} {m : Node} (att : Bool) (haddr : addr < 256) (hlen : seg < d.segments.length)
    (hf : Table.find (seg * 256 + addr) d.nodes = some m)
    (hT : dT = (let d := d.setSegment seg (d.segment seg).closed
      if att then d.joinAttention (nodeKey seg addr) else d.leaveAttention (nodeKey seg addr))) :
    Table.find (seg * 256 + addr) dT.nodes =
        some (if att || !(d.segment seg).attention.contains addr then m else { m with passOver := 0 }) ∧
      (∀ o, o ≠ seg * 256 + addr → Table.find o dT.nodes = Table.find o d.nodes) ∧
      dT.segments = d.segments.set seg { (d.segment seg).closed with
        attention := if att then insertAddress addr (d.segment seg).attention
          else (d.segment seg).attention.filter (fun a => decide (a ≠ addr)) } ∧
      dT = { d with nodes := dT.nodes, segments := dT.segments } := by
  have hks : keySeg (nodeKey seg addr) = seg := by unfold keySeg nodeKey; omega
  have hka : keyAddr (nodeKey seg addr) = addr := by unfold keyAddr nodeKey; omega
  have hsg : (d.setSegment seg (d.segment seg).closed).segment seg = (d.segment seg).closed := by
    rw [Device.segment_setSegment, if_pos ⟨rfl, hlen⟩]
  cases att with
  | true =>
    simp only [if_true, Device.joinAttention, hks, hka, hsg, Segment.closed_attention] at hT
    rw [hT]
    refine ⟨by simpa using hf, fun _ _ => rfl, ?_, rfl⟩
    simp only [Device.setSegment_segments, List.set_set, if_true]
  | false =>
    simp only [Bool.false_eq_true, if_false, Device.leaveAttention, hks, hka, hsg, Segment.closed_attention] at hT
    by_cases hc : (d.segment seg).attention.contains addr = true
    · rw [if_pos hc] at hT
      rw [hT]
      refine ⟨?_, fun o ho => ?_, ?_, rfl⟩
      · rw [Device.modifyNode_nodes, nodeKey, Table.find_modify_self, Device.setSegment_nodes, Device.setSegment_nodes, hf, hc]
        rfl
      · rw [Device.modifyNode_nodes, nodeKey, Table.find_modify_ne _ _ ho]
        rfl
      · simp only [Device.modifyNode_segments, Device.setSegment_segments, List.set_set, Bool.false_eq_true, if_false]
    · rw [if_neg hc] at hT
      rw [hT]
      have hnot : (d.segment seg).attention.contains addr = false := by simpa using hc
      have hfilter : (d.segment seg).attention.filter (fun a => decide (a ≠ addr)) = (d.segment seg).attention := by
        rw [List.filter_eq_self]
        intro a ha
        simp only [decide_eq_true_eq]
        rintro rfl
        exact hc (by simpa using ha)
      refine ⟨by rw [hnot]; simpa using hf, fun _ _ => rfl, ?_, rfl⟩
      rw [Device.setSegment_segments, if_neg Bool.false_ne_true, hfilter, ← Segment.closed_attention]

/-- An answer NOTHING, by what hearing from the node and the answer to the command carried leave. -/
theorem exec_nothingServed {s : State} {seg addr : Nat} {n m : Node} {x : Exchange} {cs : List Command} {d2 e : Device} (att : Bool)
    (hopen : s.dev.lineOpen seg addr) (hx : (s.dev.segment seg).exchange = some x) (hxa : x.addr = addr)
    (hf : Table.find (seg * 256 + addr) s.dev.nodes = some n)
    (hd2 : (s.dev.heardFrom (seg * 256 + addr) n).carriedAnswered (seg * 256 + addr) x = d2) (hserved : s.dev.Served d2 seg addr m cs e)
    (hreports : e.reports = []) :
    ∃ t, exec (.nothing seg att) s = .next t ∧
      Table.find (seg * 256 + addr) t.dev.nodes =
        some (if att || !(s.dev.segment seg).attention.contains addr then m else { m with passOver := 0 }) ∧
      (∀ o, o ≠ seg * 256 + addr → Table.find o t.dev.nodes = Table.find o s.dev.nodes) ∧
      t.dev.segments = s.dev.segments.set seg { (cs.foldl (fun g c => g.place addr c) (s.dev.segment seg)).closed with
        attention := if att then insertAddress addr (s.dev.segment seg).attention
          else (s.dev.segment seg).attention.filter (fun a => decide (a ≠ addr)) } ∧
      t.dev.journal = e.journal ∧
      t = { s with dev := { e with
        regs := { e.regs with status := stallStatus s.dev.journal e.journal e.regs.status }
        nodes := t.dev.nodes, segments := t.dev.segments } } := by
  obtain ⟨haddr, hlen, -⟩ := hopen
  have hlen2 : seg < d2.segments.length := by rw [hserved.segments, List.length_set]; exact hlen
  have hseg2 : d2.segment seg = cs.foldl (fun g c => g.place addr c) (s.dev.segment seg) := by
    rw [Device.segment, hserved.segments, List.getD_eq_getElem?_getD, List.getElem?_set_self hlen, Option.getD_some]
  have hattention : (d2.segment seg).attention = (s.dev.segment seg).attention := by
    rw [hseg2, Segment.places_attention]
  have hans : s.dev.answer seg att none = (let d := d2.setSegment seg (d2.segment seg).closed
      if att then d.joinAttention (nodeKey seg addr) else d.leaveAttention (nodeKey seg addr)) := by
    subst hxa
    unfold Device.answer
    rw [hx]
    simp only [show nodeKey seg x.addr = seg * 256 + x.addr from rfl, hf, hd2]
  obtain ⟨hnode, hothers, hsegments, hframe⟩ := Device.closeExchange att haddr hlen2 hserved.node hans
  generalize hdT : s.dev.answer seg att none = dT at hans hnode hothers hsegments hframe
  rw [hattention] at hnode hsegments
  have hdev : (s.onDevice (fun d => d.answer seg att none)) = { s with dev := dT } := congrArg (fun d => { s with dev := d }) hdT
  have hcommit := commit_of_settled s (fun t => t.onDevice (fun d => d.answer seg att none))
    (by rw [hdev, hframe, hserved.frame]; exact hreports)
  rw [hdev] at hcommit
  have hj : dT.journal = e.journal := by rw [hframe, hserved.frame]
  refine ⟨_, (exec_nothing seg att s).trans hcommit, hnode, fun o ho => (hothers o ho).trans (hserved.others o ho), ?_, hj, ?_⟩
  · refine hsegments.trans ?_
    rw [hserved.segments, List.set_set, hseg2]
  · rw [hframe, hserved.frame]

/-! ## Hearing from a node -/

/-- The kinds that fire frees. -/
theorem NodeKind.firesFree_eq (k : NodeKind) : k.firesFree = (decide (k = .egressDoor) || decide (k = .commonDoor)) := by
  cases k <;> rfl

/-- A door that comes into service. -/
theorem Door.service_gives {r after : Door} {freed : Bool} {commands : List Command} (h : r.serviceGives freed after commands) :
    r.intoService freed = { door := after, commands := commands } ∧ after.holdUnsent = false := by
  unfold Door.intoService
  rcases h with ⟨hst, rfl, rfl⟩ | ⟨hst, rfl, rfl, rfl⟩ | ⟨rfl, hst, rfl, rfl⟩ | ⟨rfl, hu, hh, he, rfl, rfl⟩
  · rcases hst with hst | ⟨hst, rfl⟩ <;> simp [hst]
  · simp [hst, Door.intoEmergency, Door.stopTimers]
  · simp [hst]
  · simp [hu, hh, he, Door.stopTimers]

/-- A door node that comes ONLINE from ABSENT comes into service. -/
theorem Device.ownerTold_service {d : Device} {key : Nat} {n : Node} (hf : Table.find key d.nodes = some n) (hk : n.kind.isDoor = true) :
    d.ownerTold key .absent .online = d.doorEvent key (fun n r => r.intoService (d.fire.active && n.kind.firesFree)) := by
  have hdoor : d.doorNodeChanged key .absent .online = d.doorEvent key (fun n r => r.intoService (d.fire.active && n.kind.firesFree)) := by
    unfold Device.doorNodeChanged
    simp only [if_true]
  unfold Device.ownerTold
  rw [hf]
  cases hkind : n.kind with
  | minibar => rw [hkind] at hk; cases hk
  | encoder => rw [hkind] at hk; cases hk
  | _ => simpa [hkind] using hdoor

namespace Device.Served

variable {d d2 e : Device} {seg addr : Nat} {n m : Node} {cs : List Command}

/-- The Door Unit heard of an answer: a HOLD left unsent is handed again (R78). -/
theorem doorHeard (h : d.Served d2 seg addr m cs e) (hx : d.lineOpen seg addr) (hm : m.state.isOut = false) :
    d.Served (d2.doorHeard (seg * 256 + addr)) seg addr { m with door := m.door.map (fun r => { r with holdUnsent := false }) }
      (cs ++ if m.door.any (fun r => r.holdUnsent) then [.hold] else []) e := by
  unfold Device.doorHeard
  cases hd : m.door with
  | none =>
    have hnone : d2.doorEvent (seg * 256 + addr)
        (fun _ r => if r.holdUnsent then { door := { r with holdUnsent := false }, commands := [.hold] } else .same r) = d2 := by
      unfold Device.doorEvent
      rw [h.node]
      dsimp only
      rw [hd]
    rw [hnone]
    have hself : { m with door := none } = m := by rw [← hd]
    simpa [hself] using h
  | some r =>
    have hevent := h.doorEvent hx hm hd (fun _ r => if r.holdUnsent then { door := { r with holdUnsent := false }, commands := [.hold] }
      else .same r) rfl
    by_cases hu : r.holdUnsent = true
    · simpa [hu] using hevent
    · have hself : { r with holdUnsent := false } = r := by
        have : r.holdUnsent = false := by simpa using hu
        rw [← this]
      simpa [hu, hself, DoorOut.same] using hevent

/-- The NODE RESTORED record of a node with fault open set (R158). -/
theorem restored (h : d.Served d2 seg addr m cs e) {isOpen : Bool} (ho : m.faultOpen = isOpen) (count : Nat) :
    d.Served (if isOpen then
        (d2.modifyNode (seg * 256 + addr) (fun n => { n with faultOpen := false })).notable (.node (seg * 256 + addr) .restored count)
      else d2) seg addr { m with faultOpen := false } cs
      (if isOpen then e.notable (.node (seg * 256 + addr) .restored count) else e) := by
  cases isOpen with
  | true => exact (h.modifyNode fun n => { n with faultOpen := false }).record _ _ _
  | false =>
    have hself : { m with faultOpen := false } = m := by rw [← ho]
    rw [hself]
    exact h

/-- The owner of a node that was polled hears that it is ONLINE, and has nothing to do. -/
theorem toldOnline (h : d.Served d2 seg addr m [] e) (hx : d.lineOpen seg addr) (hm : m.state.isOut = false) {before : NodeState}
    (hb : before = .online ∨ before = .suspect ∨ before = .degraded ∨ (before = .absent ∧ m.kind.isDoor = false)) :
    d.Served (d2.ownerTold (seg * 256 + addr) before .online) seg addr m [] e := by
  obtain ⟨d', rfl, hnode, hothers, hframe⟩ := Device.ownerTold_online (h.reachable hx hm) hb
  refine ⟨hnode, fun o ho => (hothers o ho).trans (h.others o ho), ?_, ?_⟩
  · rw [hframe]
    exact h.segments
  · refine hframe.trans ?_
    have hd2 := h.frame
    generalize (d2.ownerTold (seg * 256 + addr) before .online).nodes = nodes at hframe ⊢
    rw [hframe, hd2]

/-- The owner of a door that was ABSENT hears that it is ONLINE. -/
theorem toldService (h : d.Served d2 seg addr m [] e) (hx : d.lineOpen seg addr) (hm : m.state.isOut = false) {r after : Door}
    {commands : List Command} (hk : m.kind.isDoor = true) (hd : m.door = some r)
    (hgives : r.serviceGives (e.fire.active && (decide (m.kind = .egressDoor) || decide (m.kind = .commonDoor))) after commands) :
    d.Served (d2.ownerTold (seg * 256 + addr) .absent .online) seg addr { m with door := some after } commands e := by
  have hfire : d2.fire = e.fire := by rw [h.frame]
  rw [Device.ownerTold_service h.node hk]
  refine h.doorEvent hx hm hd _ (o := { door := after, commands := commands }) ?_
  rw [hfire, NodeKind.firesFree_eq]
  exact (Door.service_gives hgives).1

end Device.Served

/-- Hearing from a node, by what its owner is told. -/
theorem Device.heardFrom_eq (d : Device) (key : Nat) (n : Node) (told : Device)
    (htold : (d.modifyNode key (fun n => { n with state := .online, misses := 0, retries := 0, onProbe := false })).ownerTold key n.state
      .online = told) :
    d.heardFrom key n = (if n.faultOpen then
      (told.modifyNode key (fun n => { n with faultOpen := false })).notable (.node key .restored n.restoredCount) else told).doorHeard
        key := by
  subst htold
  rfl

end Sys2Proof.Machine
end

section
/-! An answer NOTHING keeps its node ONLINE (O47). -/

namespace Sys2Proof.Machine

open Sys2Proof

/-- What an answer makes of a device with a node that is polled, no command carried (R78, R79, R158). -/
theorem Device.Served.heard {d : Device} {seg addr : Nat} {n : Node} {door : Option Door} {commands : List Command}
    (hx : d.lineOpen seg addr) (hf : Table.find (seg * 256 + addr) d.nodes = some n)
    (hcase : ((n.state = .online ∨ n.state = .suspect ∨ n.state = .degraded ∨ (n.state = .absent ∧ n.kind.isDoor = false ∧ n.door = none))
        ∧ commands = (if n.door.any (fun r => r.holdUnsent) then [.hold] else [])
        ∧ door = n.door.map (fun r => { r with holdUnsent := false }))
      ∨ (n.state = .absent ∧ n.kind.isDoor = true ∧ ∃ r r', n.door = some r ∧ door = some r'
        ∧ r.serviceGives (d.fire.active && (decide (n.kind = .egressDoor) || decide (n.kind = .commonDoor))) r' commands)) :
    d.Served (d.heardFrom (seg * 256 + addr) n) seg addr
      { n with state := .online, misses := 0, retries := 0, onProbe := false, faultOpen := false, door := door } commands
      (if n.faultOpen then d.notable (.node (seg * 256 + addr) .restored n.restoredCount) else d) := by
  have honline := (Device.Served.refl hx.2.1 hf).modifyNode
    fun n => { n with state := .online, misses := 0, retries := 0, onProbe := false }
  rw [d.heardFrom_eq (seg * 256 + addr) n _ rfl]
  rcases hcase with ⟨hstate, rfl, rfl⟩ | ⟨hstate, hk, r, r', hd, rfl, hgives⟩
  · have hbefore : n.state = .online ∨ n.state = .suspect ∨ n.state = .degraded ∨ (n.state = .absent ∧ n.kind.isDoor = false) :=
      hstate.imp_right (Or.imp_right (Or.imp_right fun h => ⟨h.1, h.2.1⟩))
    exact ((honline.toldOnline hx rfl hbefore).restored rfl n.restoredCount).doorHeard hx rfl
  · rw [hstate]
    have hquiet := (Door.service_gives hgives).2
    have hself : { r' with holdUnsent := false } = r' := by rw [← hquiet]
    have hheard := ((honline.toldService hx rfl hk hd hgives).restored rfl n.restoredCount).doorHeard hx rfl
    simpa [hquiet, hself] using hheard

/-- The end of an exchange that carries no command leaves what was placed. -/
theorem Segment.closed_placed {g : Segment} {addr addr' t : Nat} (cs : List Command)
    (h : g.exchange = some { addr := addr', carried := none, next := none, timeout := t }) :
    (cs.foldl (fun g c => g.place addr c) g).closed = { cs.foldl (fun g c => g.place addr c) g with exchange := none } := by
  have hex := (Segment.places_frame (addr := addr) cs h).1.trans h
  unfold Segment.closed
  rw [hex]

/-- NOTHING in an exchange that carries no command. -/
theorem exec_nothingUncarried {s : State} {seg addr : Nat} {att : Bool} {n after : Node} {door : Option Door} {commands : List Command}
    {count : Nat} (hs : s.settled) (hx : s.dev.exchangeWith seg addr n)
    (hcase : ((n.state = .online ∨ n.state = .suspect ∨ n.state = .degraded ∨ (n.state = .absent ∧ n.kind.isDoor = false ∧ n.door = none))
        ∧ commands = (if n.door.any (fun r => r.holdUnsent) then [.hold] else [])
        ∧ door = n.door.map (fun r => { r with holdUnsent := false }))
      ∨ (n.state = .absent ∧ n.kind.isDoor = true ∧ ∃ r r', n.door = some r ∧ door = some r'
        ∧ r.serviceGives (s.dev.fire.active && (decide (n.kind = .egressDoor) || decide (n.kind = .commonDoor))) r' commands))
    (hafter : after = { n with
      state := .online, misses := 0, retries := 0, onProbe := false, faultOpen := false, door := door })
    (hcount : count = (if n.onProbe then n.retries else if n.state = .degraded then n.misses else 0)) :
    ∃ t, exec (.nothing seg att) s = .next t ∧ s.answered t seg addr att after commands ∧
      t.dev.journal = (if n.faultOpen then (s.dev.notable (.node (seg * 256 + addr) .restored count)).journal else s.dev.journal) ∧
      t = { s with dev := { s.dev with
        regs := { s.dev.regs with status := stallStatus s.dev.journal t.dev.journal s.dev.regs.status }
        nodes := t.dev.nodes, segments := t.dev.segments, journal := t.dev.journal } } := by
  subst hafter
  have hserved := Device.Served.heard hx.lineOpen hx.2.2.2 hcase
  have hmade : (if n.faultOpen then s.dev.notable (.node (seg * 256 + addr) .restored n.restoredCount) else s.dev) =
      { s.dev with
        journal := if n.faultOpen then (s.dev.notable (.node (seg * 256 + addr) .restored count)).journal else s.dev.journal } := by
    rw [hcount]
    cases n.faultOpen <;> rfl
  obtain ⟨-, ⟨timeout, hex⟩, -, hf⟩ := id hx
  rw [hmade] at hserved
  obtain ⟨t, hexec, hnode, hothers, hsegments, hj, ht⟩ := exec_nothingServed att hx.lineOpen hex rfl hf rfl hserved hs
  rw [Segment.closed_placed commands hex] at hsegments
  refine ⟨t, hexec, ⟨hnode, hothers, hsegments⟩, hj, ?_⟩
  rw [hj]
  exact ht

/-! ## The command carried is answered -/

/-- An answered command at a door: the outcome that `answeredGives` states, without record or alarm. -/
theorem Door.answered_gives {r : Door} {c : Command} {o : DoorOut} (h : r.answeredGives c o) :
    r.answered c = o ∧ o.events = [] ∧ o.alarm = false ∧
      (c = .relock ∨ c = .hold ∨ (∃ seconds, c = .release seconds) ∨ (c = .signal ∧ o = { door := r })) := by
  rcases h with ⟨rfl, hst, rested, rfl, rfl⟩ | ⟨rfl, hst, rfl⟩ | ⟨hc, rfl⟩ | ⟨rfl, rfl⟩
  · obtain ⟨hevents, halarm⟩ := Door.rest_silent { r with contact := if r.contact = .unseen then .closed else r.contact } false
    refine ⟨?_, hevents, halarm, .inl rfl⟩
    unfold Door.answered
    exact if_pos hst
  · refine ⟨?_, rfl, rfl, .inl rfl⟩
    unfold Door.answered
    exact if_neg hst
  · rcases hc with rfl | ⟨seconds, rfl⟩
    · exact ⟨rfl, rfl, rfl, .inr (.inl rfl)⟩
    · exact ⟨rfl, rfl, rfl, .inr (.inr (.inl ⟨seconds, rfl⟩))⟩
  · exact ⟨rfl, rfl, rfl, .inr (.inr (.inr ⟨rfl, rfl⟩))⟩

/-- A door's command answered at the door's node. -/
theorem Device.Served.doorAnswered {d d2 e : Device} {seg addr : Nat} {n : Node} {c : Command} {door : Option Door}
    {commands : List Command} (h : d.Served d2 seg addr n [] e) (hx : d.lineOpen seg addr) (hm : n.state.isOut = false)
    (hcase : (∃ r o, n.door = some r ∧ r.answeredGives c o ∧ door = some o.door ∧ commands = o.commands)
      ∨ (n.door = none ∧ door = none ∧ commands = [])) :
    d.Served (d2.doorEvent (seg * 256 + addr) (fun _ r => r.answered c)) seg addr { n with door := door } commands e := by
  rcases hcase with ⟨r, o, hd, hgives, rfl, rfl⟩ | ⟨hd, rfl, rfl⟩
  · obtain ⟨hout, hevents, halarm, -⟩ := Door.answered_gives hgives
    have hevent := h.doorEvent hx hm hd (fun _ r => r.answered c) hout
    rw [hevents, halarm] at hevent
    exact hevent
  · have hnone : d2.doorEvent (seg * 256 + addr) (fun _ r => r.answered c) = d2 := by
      unfold Device.doorEvent
      rw [h.node]
      dsimp only
      rw [hd]
    have hself : { n with door := none } = n := by rw [← hd]
    rw [hnone, hself]
    exact h

/-- Rooms replaced. -/
theorem Device.Served.setRooms {d d2 e : Device} {seg addr : Nat} {m : Node} {cs : List Command} (h : d.Served d2 seg addr m cs e)
    (rooms : Table Room) : d.Served { d2 with rooms := rooms } seg addr m cs { e with rooms := rooms } where
  node := h.node
  others := h.others
  segments := h.segments
  frame := congrArg (fun x => { x with rooms := rooms }) h.frame

/-- Encoders replaced. -/
theorem Device.Served.setEncoders {d d2 e : Device} {seg addr : Nat} {m : Node} {cs : List Command} (h : d.Served d2 seg addr m cs e)
    (encoders : Table Encoder) : d.Served { d2 with creds := { d2.creds with encoders := encoders } } seg addr m cs
      { e with creds := { e.creds with encoders := encoders } } where
  node := h.node
  others := h.others
  segments := h.segments
  frame := congrArg (fun x => { x with creds := { x.creds with encoders := encoders } }) h.frame

/-- UNLATCH answered: the pending flag of the room that links the minibar is clear (R92). -/
theorem Device.unlatchAnswered_eq {d : Device} {key : Nat} (hwf : Table.wf d.rooms = true)
    (honly : ∀ i r, (i, r) ∈ d.rooms → r.barLink = some key → ∀ i' r', (i', r') ∈ d.rooms → r'.barLink = some key → i' = i) :
    ∃ rooms, d.unlatchAnswered key = { d with rooms := rooms } ∧ ∀ room, Table.find room rooms =
      (Table.find room d.rooms).map (fun r => { r with unlatchPending := r.unlatchPending && !decide (r.barLink = some key) }) := by
  unfold Device.unlatchAnswered
  cases hbar : d.barRoom key with
  | none =>
    refine ⟨d.rooms, rfl, fun room => ?_⟩
    cases hfind : Table.find room d.rooms with
    | none => rfl
    | some r =>
      have hlink : r.barLink ≠ some key := fun hl => by
        unfold Device.barRoom at hbar
        exact absurd (List.find?_eq_none.1 hbar _ (Table.mem_of_found hfind)) (by simpa using hl)
      simp [hlink]
  | some p =>
    obtain ⟨i, r0⟩ := p
    obtain ⟨hmem, hlink⟩ := Device.barRoom_linked hbar
    refine ⟨_, rfl, fun room => ?_⟩
    by_cases hroom : room = i
    · subst hroom
      rw [Table.find_modify_self, Table.found_of_mem hwf hmem]
      simp [hlink]
    · rw [Table.find_modify_ne _ _ hroom]
      cases hfind : Table.find room d.rooms with
      | none => rfl
      | some r =>
        have hother : r.barLink ≠ some key := fun hl => hroom (honly i r0 hmem hlink room r (Table.mem_of_found hfind) hl)
        simp [hother]

/-- ENCODE answered: the encoding in progress, where it is of this job, is in WRITING (R14). -/
theorem Device.encodeAnswered_eq (d : Device) (key job : Nat) :
    ∃ encoders, d.encodeAnswered key job = { d with creds := { d.creds with encoders := encoders } } ∧
      ∀ other, Table.find other encoders = (Table.find other d.creds.encoders).map (fun enc =>
        if other = key then
          { enc with current := enc.current.map fun c => { c with timer := if c.job = job then Timer.started else c.timer } }
        else enc) := by
  have hcurrent : d.isCurrentJob key job =
      ((Table.find key d.creds.encoders).bind (fun enc => enc.current)).any (fun c => decide (c.job = job)) := by
    unfold Device.isCurrentJob
    cases Table.find key d.creds.encoders with
    | none => rfl
    | some enc => cases hc : enc.current <;> simp [hc]
  unfold Device.encodeAnswered
  by_cases hjob : d.isCurrentJob key job = true
  · rw [if_pos hjob]
    refine ⟨_, rfl, fun other => ?_⟩
    by_cases ho : other = key
    · subst ho
      rw [Table.find_modify_self]
      rw [hcurrent] at hjob
      cases hfind : Table.find other d.creds.encoders with
      | none => rfl
      | some enc =>
        rw [hfind] at hjob
        cases hc : enc.current with
        | none => simp [hc] at hjob
        | some c =>
          have hsame : c.job = job := by simpa [hc] using hjob
          simp [hc, hsame]
    · rw [Table.find_modify_ne _ _ ho]
      simp [ho]
  · rw [if_neg hjob]
    refine ⟨d.creds.encoders, rfl, fun other => ?_⟩
    by_cases ho : other = key
    · subst ho
      rw [hcurrent] at hjob
      cases hfind : Table.find other d.creds.encoders with
      | none => rfl
      | some enc =>
        rw [hfind] at hjob
        cases hc : enc.current with
        | none =>
          have hself : { enc with current := none } = enc := by rw [← hc]
          simp [hc, hself]
        | some c =>
          have hother : ¬ c.job = job := by simpa [hc] using hjob
          have hself : { enc with current := some c } = enc := by rw [← hc]
          simp [hc, hother, hself]
    · simp [ho]

section
variable {d d2 e : Device} {seg addr : Nat} {n : Node} {c : Command} {door : Option Door} {commands : List Command}
  {pending : Room → Bool} {timer : Encoding → Option Timer}

/-- A command that no door's case names finds no door. -/
theorem Door.answered_doorless (hcase : (∃ r o, n.door = some r ∧ r.answeredGives c o ∧ door = some o.door ∧ commands = o.commands)
      ∨ (n.door = none ∧ door = none ∧ commands = [])) (hno : ∀ (r : Door) (o : DoorOut), ¬ r.answeredGives c o) :
    { n with door := door } = n ∧ commands = [] := by
  rcases hcase with ⟨r, o, -, hgives, -⟩ | ⟨hd, rfl, rfl⟩
  · exact absurd hgives (hno r o)
  · exact ⟨by rw [← hd], rfl⟩

/-- The submitter told of an answered command that is neither UNLATCH nor ENCODE: the door alone can change (R78). -/
theorem Device.Served.commandAnswered_door (h : d.Served d2 seg addr n [] e) (hx : d.lineOpen seg addr) (hm : n.state.isOut = false)
    (hcase : (∃ r o, n.door = some r ∧ r.answeredGives c o ∧ door = some o.door ∧ commands = o.commands)
      ∨ (n.door = none ∧ door = none ∧ commands = []))
    (hu : c ≠ .unlatch) (he : ∀ image job, c ≠ .encode image job) :
    d.Served (d2.commandAnswered (seg * 256 + addr) c) seg addr { n with door := door } commands e := by
  cases c with
  | relock => exact h.doorAnswered hx hm hcase
  | release seconds => exact h.doorAnswered hx hm hcase
  | hold => exact h.doorAnswered hx hm hcase
  | signal =>
    rcases hcase with ⟨r, o, hd, hgives, rfl, rfl⟩ | ⟨hd, rfl, rfl⟩
    · obtain rfl : o = { door := r } := (Door.answered_gives hgives).1.symm
      have hself : { n with door := some r } = n := by rw [← hd]
      rw [hself]
      exact h
    · have hself : { n with door := none } = n := by rw [← hd]
      rw [hself]
      exact h
  | abandon =>
    obtain ⟨hself, rfl⟩ := Door.answered_doorless hcase fun r o hg => by simp [Door.answeredGives] at hg
    rw [hself]
    exact h
  | unlatch => exact absurd rfl hu
  | encode image job => exact absurd rfl (he image job)

/-- The submitter of the command carried told that it was answered: the door, the pending flag, or the encoding's timer (R14, R78, R92). -/
theorem Device.Served.commandAnswered (h : d.Served d2 seg addr n [] d) (hx : d.lineOpen seg addr) (hm : n.state.isOut = false)
    (hwf : Table.wf d.rooms = true)
    (honly : ∀ i r, (i, r) ∈ d.rooms → r.barLink = some (seg * 256 + addr) →
      ∀ i' r', (i', r') ∈ d.rooms → r'.barLink = some (seg * 256 + addr) → i' = i)
    (hcase : (∃ r o, n.door = some r ∧ r.answeredGives c o ∧ door = some o.door ∧ commands = o.commands)
      ∨ (n.door = none ∧ door = none ∧ commands = []))
    (hpending : ∀ r, pending r = (r.unlatchPending && !(decide (c = .unlatch) && decide (r.barLink = some (seg * 256 + addr)))))
    (hencode : ∀ image job, c = .encode image job → ∀ x, timer x = if x.job = job then some { count := 0, due := false } else x.timer)
    (hother : (∀ image job, c ≠ .encode image job) → ∀ x, timer x = x.timer) :
    ∃ rooms encoders, d.Served (d2.commandAnswered (seg * 256 + addr) c) seg addr { n with door := door } commands
        { d with creds := { d.creds with encoders := encoders }, rooms := rooms } ∧
      (∀ room, Table.find room rooms = (Table.find room d.rooms).map (fun r => { r with unlatchPending := pending r })) ∧
      (∀ other, Table.find other encoders = (Table.find other d.creds.encoders).map (fun enc =>
        if other = seg * 256 + addr then { enc with current := enc.current.map (fun x => { x with timer := timer x }) } else enc)) := by
  have hrooms : d2.rooms = d.rooms := by rw [h.frame]
  have hcreds : d2.creds = d.creds := by rw [h.frame]
  by_cases hu : c = .unlatch
  · subst hu
    obtain ⟨hself, rfl⟩ := Door.answered_doorless hcase fun r o hg => by simp [Door.answeredGives] at hg
    obtain ⟨rooms, heq, hfind⟩ := Device.unlatchAnswered_eq (d := d2) (key := seg * 256 + addr) (by rw [hrooms]; exact hwf)
      (by rw [hrooms]; exact honly)
    rw [hself]
    refine ⟨rooms, d.creds.encoders, ?_, fun room => ?_, fun other => ?_⟩
    · rw [Device.commandAnswered, heq]
      exact h.setRooms rooms
    · rw [hfind, hrooms]
      simp [hpending]
    · simp [hother]
  by_cases he : ∃ image job, c = .encode image job
  · obtain ⟨image, job, rfl⟩ := he
    obtain ⟨hself, rfl⟩ := Door.answered_doorless hcase fun r o hg => by simp [Door.answeredGives] at hg
    obtain ⟨encoders, heq, hfind⟩ := d2.encodeAnswered_eq (seg * 256 + addr) job
    rw [hself]
    refine ⟨d.rooms, encoders, ?_, fun room => ?_, fun other => ?_⟩
    · rw [Device.commandAnswered, heq]
      exact h.setEncoders encoders
    · simp [hpending]
    · rw [hfind, hcreds]
      simp only [hencode image job rfl]
      rfl
  · have hnot : ∀ image job, c ≠ .encode image job := fun image job hc => he ⟨image, job, hc⟩
    refine ⟨d.rooms, d.creds.encoders, h.commandAnswered_door hx hm hcase hu hnot, fun room => ?_, fun other => ?_⟩
    · simp [hpending, hu]
    · simp [hother hnot]
end

/-- Commands placed keep an exchange in progress, and its address. -/
theorem Segment.places_inProgress (addr : Nat) (cs : List Command) {g : Segment} {x : Exchange} (h : g.exchange = some x) :
    ∃ y, (cs.foldl (fun g c => g.place addr c) g).exchange = some y ∧ y.addr = x.addr := by
  induction cs generalizing g x with
  | nil => exact ⟨x, h, rfl⟩
  | cons c cs ih =>
    have hplace : ∃ y, (g.place addr c).exchange = some y ∧ y.addr = x.addr := by
      unfold Segment.place
      split_ifs
      · exact ⟨x, h, rfl⟩
      · exact ⟨x, h, rfl⟩
      · exact ⟨{ x with next := some c }, by rw [h]; rfl, rfl⟩
      · exact ⟨x, h, rfl⟩
    obtain ⟨y, hy, hyx⟩ := hplace
    obtain ⟨z, hz, hzy⟩ := ih hy
    exact ⟨z, hz, hzy.trans hyx⟩

/-- An exchange over: a command held next enters the queue at its head (R156). -/
theorem Segment.closed_eq {g : Segment} {y : Exchange} (h : g.exchange = some y) :
    g.closed = { g with
      exchange := none
      queue := (y.next.map (fun c => { addr := y.addr, command := c, attempts := 0 : QueueEntry })).toList ++ g.queue } := by
  unfold Segment.closed
  rw [h]
  cases hn : y.next <;> simp [hn]

/-- Settles O47: an exchange without a command, by what its node and door come to, and one whose command is answered. -/
theorem nothingKeepsTheNodeOnline : Obligations.NothingKeepsTheNodeOnline := by
  refine ⟨fun s seg addr attention n after door commands count hs hx hcase hafter hcount =>
    exec_nothingUncarried hs hx hcase hafter hcount, ?_⟩
  intro s seg addr key attention g placed x n c attempts door commands pending timer hs haddr hkey hg hex hxa hcarried hdis hf hsound hcase
    honly hpending htimer hplaced hwf
  subst hkey hg
  have hlen : seg < s.dev.segments.length := by
    by_contra hout
    have hinitial : s.dev.segment seg = Segment.initial := by
      rw [Device.segment, List.getD_eq_getElem?_getD, List.getElem?_eq_none (by omega)]
      rfl
    rw [hinitial] at hex
    cases hex
  have hopen : s.dev.lineOpen seg addr := ⟨haddr, hlen, hdis⟩
  have honline : n.state.isOut = false := by rw [hsound.1]; rfl
  obtain ⟨f, hfn, hheard⟩ := Device.heardFrom_sound hf hsound
  have hstart := (Device.Served.refl hlen hf).modifyNode f
  rw [hfn] at hstart
  obtain ⟨rooms, encoders, hserved, hrooms, hencoders⟩ := hstart.commandAnswered (timer := timer) hopen honline hwf honly hcase hpending
    (fun image job hc y => by subst hc; exact htimer y) (fun hc y => by
      rw [htimer]
      cases c with
      | encode image job => exact absurd rfl (hc image job)
      | _ => rfl)
  have hd2 : (s.dev.heardFrom (seg * 256 + addr) n).carriedAnswered (seg * 256 + addr) x =
      (s.dev.modifyNode (seg * 256 + addr) f).commandAnswered (seg * 256 + addr) c := by
    unfold Device.carriedAnswered
    rw [hcarried, hheard]
  obtain ⟨t, hexec, hnode, hothers, hsegments, hj, ht⟩ := exec_nothingServed attention hopen hex hxa hf hd2 hserved hs
  obtain ⟨y, hy, hyx⟩ := Segment.places_inProgress addr commands hex
  rw [Segment.closed_eq hy] at hsegments
  have hstatus : stallStatus s.dev.journal s.dev.journal s.dev.regs.status = s.dev.regs.status :=
    stallStatus_of_load_le _ (Nat.le_refl _)
  dsimp only at ht
  rw [hstatus] at ht
  have hroomsT : t.dev.rooms = rooms := by rw [ht]
  have hcredsT : t.dev.creds = { s.dev.creds with encoders := encoders } := by rw [ht]
  refine ⟨t, hexec, ?_, hothers, ?_, fun room => ?_, fun other => ?_, ?_⟩
  · exact hnode
  · rw [hsegments, hplaced, hy, Option.bind_some, hyx, hxa]
    cases y.next <;> rfl
  · rw [hroomsT]
    exact hrooms room
  · rw [hcredsT]
    exact hencoders other
  · rw [hroomsT, hcredsT]
    exact ht

end Sys2Proof.Machine
end

section
/-! A frame that arrives, and a miss by what becomes of its node (O46). -/

namespace Sys2Proof.Machine

open Sys2Proof

/-! ## A valid frame -/

/-- What a miss does where the frame is a valid answer: the answer. -/
theorem Device.miss_valid {d : Device} {seg : Nat} {x : Exchange} {addr mark code : Byte} {body : List Byte} {undeliveredFirst : Bool}
    (hx : (d.segment seg).exchange = some x) (hxa : x.addr = addr.toNat) (hlen : answerBodyLength code = some body.length)
    (hshort : body.length < 200) : d.miss seg (some (answerFrame addr mark code body)) undeliveredFirst =
      d.answer seg (answerAttention mark) ((reportOf code body).map (fun b => (answerSequence mark, b))) := by
  unfold Device.miss
  rw [hx]
  dsimp only [Option.getD_some]
  rw [hxa, if_pos (answer_valid addr mark code body hlen hshort), answer_bytes]

/-- Two commands that make the same state are the same step. -/
theorem commit_congr {s : State} {f g : State → State} (h : f s = g s) : commit s f = commit s g := by
  unfold commit
  rw [h]

/-- A miss with a valid frame is the step of its answer. -/
theorem exec_missValid {s : State} {seg : Nat} {x : Exchange} {addr mark code : Byte} {body : List Byte} {undeliveredFirst : Bool}
    {attention : Bool} {report : Option (BitVec 4 × ReportBody)} {c : Instr} (hx : (s.dev.segment seg).exchange = some x)
    (hxa : x.addr = addr.toNat) (hlen : answerBodyLength code = some body.length) (hshort : body.length < 200)
    (hattention : answerAttention mark = attention) (hreport : (reportOf code body).map (fun b => (answerSequence mark, b)) = report)
    (he : exec c s = commit s (fun t => t.onDevice (fun d => d.answer seg attention report))) :
    exec (.miss seg (some (answerFrame addr mark code body)) undeliveredFirst) s = exec c s := by
  rw [exec_miss, he]
  refine commit_congr (congrArg (fun d => { s with dev := d }) ?_)
  show s.dev.miss seg _ undeliveredFirst = s.dev.answer seg attention report
  rw [Device.miss_valid hx hxa hlen hshort, hattention, hreport]

/-- Settles the first part of O46: no exchange, a stray frame, and each message as a valid frame. -/
theorem exec_missFrames (s : State) (seg : Nat) (frame : Option (List Byte)) (undeliveredFirst : Bool) (hs : s.settled) :
    (∀ bytes, exec (.strayFrame seg bytes) s = .next s) ∧
    ((s.dev.segment seg).exchange = none → exec (.miss seg frame undeliveredFirst) s = .next s) ∧
    ∀ (x : Exchange) (addr mark : Byte) (attention : Bool) (seq : BitVec 4), (s.dev.segment seg).exchange = some x →
      x.addr = addr.toNat → attention = mark.getLsbD 7 → seq.toNat = mark.toNat % 16 →
      exec (.miss seg (some (answerFrame addr mark 0x80 [])) undeliveredFirst) s = exec (.nothing seg attention) s ∧
      (∀ image, exec (.miss seg (some (answerFrame addr mark 0x81 (imageBytes image))) undeliveredFirst) s
        = exec (.present seg attention seq image) s) ∧
      (∀ position, exec (.miss seg (some (answerFrame addr mark 0x82 [position])) undeliveredFirst) s
        = exec (.contact seg attention seq position) s) ∧
      (∀ position pairs, pairs.length = 6 →
        exec (.miss seg (some (answerFrame addr mark 0x83 (position :: pairs))) undeliveredFirst) s
          = exec (.tally seg attention seq position pairs) s) ∧
      (∀ value, exec (.miss seg (some (answerFrame addr mark 0x84 [value])) undeliveredFirst) s
        = exec (.button seg attention seq value) s) ∧
      (∀ code, exec (.miss seg (some (answerFrame addr mark 0x85 [code])) undeliveredFirst) s
        = exec (.encResult seg attention seq code) s) := by
  refine ⟨fun bytes => (exec_strayFrame seg bytes s).trans (commit_unchanged s _ rfl hs), fun hnone => ?_,
    fun x addr mark attention seq hx hxa hattention hseq => ?_⟩
  · refine (exec_miss seg frame undeliveredFirst s).trans (commit_unchanged s _ (State.onDevice_self s _ ?_) hs)
    unfold Device.miss
    rw [hnone]
  · have hmark : answerAttention mark = attention := hattention.symm
    have hsequence : answerSequence mark = seq := by
      apply BitVec.eq_of_toNat_eq
      rw [hseq]
      simp [answerSequence, BitVec.extractLsb'_toNat]
    have hbody : ∀ body : ReportBody, (some body).map (fun b => (answerSequence mark, b)) = some (seq, body) := fun body => by
      rw [hsequence]
      rfl
    refine ⟨exec_missValid hx hxa rfl (by decide) hmark rfl (exec_nothing seg attention s), fun image => ?_, fun position => ?_,
      fun position pairs hpairs => ?_, fun value => ?_, fun code => ?_⟩
    · have himage : reportOf 0x81 (imageBytes image) = some (.present image) := congrArg (fun i => some (ReportBody.present i))
        (image_of_bytes image)
      exact exec_missValid hx hxa rfl (by show 13 < 200; decide) hmark (by rw [himage]; exact hbody _)
        (exec_present seg attention seq image s)
    · exact exec_missValid hx hxa rfl (by show 1 < 200; decide) hmark (hbody _) (exec_contact seg attention seq position s)
    · have hlength : answerBodyLength 0x83 = some (position :: pairs).length := by rw [List.length_cons, hpairs]; rfl
      exact exec_missValid hx hxa hlength (by rw [List.length_cons, hpairs]; decide) hmark (hbody _)
        (exec_tally seg attention seq position pairs s)
    · exact exec_missValid hx hxa rfl (by show 1 < 200; decide) hmark (hbody _) (exec_button seg attention seq value s)
    · exact exec_missValid hx hxa rfl (by show 1 < 200; decide) hmark (hbody _) (exec_encResult seg attention seq code s)

/-! ## The node after a miss -/

/-- A miss that leaves its node polled. -/
theorem Node.missed_polled {n after : Node} {fault : Bool} (h : n.missPolled after fault) :
    n.missed = after ∧ after.state.isOut = false ∧
      missRecord n after = (if fault then some (.fault, after.misses, true) else none) ∧
      (n.state = after.state ∨ after.state = .suspect ∨ after.state = .degraded) ∧ after.kind = n.kind ∧ after.door = n.door := by
  rcases h with ⟨hst, hp, rfl, rfl⟩ | ⟨hst, rfl, rfl⟩ | ⟨hst, hm, rfl, rfl⟩ | ⟨hst, hm, ⟨hmode, rfl, rfl⟩ | ⟨hmode, rfl, rfl⟩⟩
  · simp [Node.missed, missRecord, hst, hp, NodeState.isOut]
  · simp [Node.missed, missRecord, hst, NodeState.isOut]
  · rcases hst with hst | hst <;> simp_all [Node.missed, missRecord, NodeState.isOut]
  · have hnot : ¬ min 255 (n.misses + 1) < n.deglitch := by omega
    rcases hst with hst | hst <;> simp [Node.missed, missRecord, hst, hnot, hmode, NodeState.isOut]
  · have hnot : ¬ min 255 (n.misses + 1) < n.deglitch := by omega
    rcases hst with hst | hst <;> simp [Node.missed, missRecord, hst, hnot, hmode, NodeState.isOut]

/-- A miss that takes its node out. -/
theorem Node.missed_out {n after : Node} {event : NodeEvent} {count : Nat} (h : n.missOut after event count) :
    n.missed = after ∧ (after.state = .faulted ∨ after.state = .retryWait) ∧
      missRecord n after = some (event, count, decide (event = .fault)) ∧ n.state ≠ after.state ∧ after.kind = n.kind ∧
      after.door = n.door ∧ after.passOver = n.passOver := by
  rcases h with ⟨hst, hm, rfl, rfl, ⟨hmode, rfl⟩ | ⟨hmode, rfl⟩⟩ | ⟨hst, hp, rfl, rfl, rfl⟩
  · have hnot : ¬ min 255 (n.misses + 1) < n.deglitch := by omega
    rcases hst with hst | hst <;> simp [Node.missed, missRecord, hst, hnot, hmode]
  · have hnot : ¬ min 255 (n.misses + 1) < n.deglitch := by omega
    rcases hst with hst | hst <;> simp [Node.missed, missRecord, hst, hnot, hmode, Timer.started]
  · simp [Node.missed, missRecord, hst, hp, Timer.started]

end Sys2Proof.Machine
end

section
/-! A miss that leaves its node polled: what its owner makes of it (O46). -/

namespace Sys2Proof.Machine

open Sys2Proof

/-! ## The step -/

/-- The device with the node of an exchange counted a miss, its exchange over and the queue as the command carried leaves it. -/
def Device.missClosed (d : Device) (seg : Nat) (g : Segment) (key : Nat) (after : Node) (queue : List QueueEntry) : Device :=
  (d.modifyNode key (fun _ => after)).setSegment seg { g with exchange := none, queue := queue }

/-- The nodes of a miss taken. -/
theorem Device.missClosed_nodes (d : Device) (seg key : Nat) (g : Segment) (after : Node) (queue : List QueueEntry) :
    (d.missClosed seg g key after queue).nodes = Table.modify key (fun _ => after) d.nodes := by
  unfold Device.missClosed
  rw [Device.setSegment_nodes, Device.modifyNode_nodes]

/-- A segment with an exchange exists. -/
theorem Device.exchange_length {d : Device} {seg : Nat} {x : Exchange} (h : (d.segment seg).exchange = some x) :
    seg < d.segments.length := by
  by_contra hlen
  have hinitial : d.segment seg = Segment.initial := by
    rw [Device.segment, List.getD_eq_getElem?_getD, List.getElem?_eq_none (by omega), Option.getD_none]
  rw [hinitial] at h
  cases h

/-- The device after the node's miss is counted stands as the one before, for the reports that follow. -/
theorem Device.missClosed_served {d : Device} {seg : Nat} {g : Segment} {x : Exchange} {after n : Node} (queue : List QueueEntry)
    (hx : (d.segment seg).exchange = some x) (hn : Table.find (seg * 256 + x.addr) d.nodes = some n) :
    (d.missClosed seg g (seg * 256 + x.addr) after queue).Served (d.missClosed seg g (seg * 256 + x.addr) after queue) seg x.addr after []
      d where
  node := by
    rw [Device.missClosed_nodes, Table.find_modify_self, hn]
    rfl
  others _ _ := rfl
  segments := (Device.set_segment_self (by
    show seg < (d.segments.set seg _).length
    rw [List.length_set]
    exact Device.exchange_length hx)).symm
  frame := rfl

/-- The segment of a miss taken. -/
theorem Device.missClosed_segment {d : Device} {seg key : Nat} {g : Segment} {after : Node} {queue : List QueueEntry}
    (hlen : seg < d.segments.length) : (d.missClosed seg g key after queue).segment seg = { g with exchange := none, queue := queue } := by
  show (((d.modifyNode key (fun _ => after)).setSegment seg { g with exchange := none, queue := queue }).segment seg) = _
  rw [Device.segment_setSegment, if_pos ⟨rfl, hlen⟩]

/-- A miss at a node defined, whose frame is not valid. -/
theorem Device.miss_invalid {d : Device} {seg : Nat} {x : Exchange} {n : Node} {frame : Option (List Byte)} (undeliveredFirst : Bool)
    (hx : (d.segment seg).exchange = some x) (hframe : ∀ bytes, frame = some bytes → answerValid x.addr bytes = false)
    (hn : Table.find (seg * 256 + x.addr) d.nodes = some n) :
    d.miss seg frame undeliveredFirst = d.missAt seg x n undeliveredFirst := by
  have hinvalid : answerValid x.addr (frame.getD []) = false := by
    cases frame with
    | none => rfl
    | some bytes => exact hframe bytes rfl
  unfold Device.miss
  rw [hx]
  dsimp only
  rw [hinvalid, if_neg Bool.false_ne_true, show Table.find (nodeKey seg x.addr) d.nodes = some n from hn]

/-- A miss whose node stays polled and whose owner, told of it, leaves the node as `m`, hands the commands `cs` for it and makes of the rest
`e`. -/
theorem exec_missPolled {s : State} {seg : Nat} {frame : Option (List Byte)} {undeliveredFirst : Bool} {g : Segment} {x : Exchange}
    {key : Nat} {n after m : Node} {fault : Bool} {status : Word → Word} {queue : List QueueEntry} {undelivered cs : List Command}
    {e : Device} (hg : s.dev.segment seg = g) (hx : g.exchange = some x) (hkey : key = seg * 256 + x.addr)
    (hn : Table.find key s.dev.nodes = some n) (hframe : ∀ bytes, frame = some bytes → answerValid x.addr bytes = false)
    (hmiss : n.missPolled after fault) (hstatus : ∀ word, status word = if fault then word ||| 256 else word)
    (hqueue : missedCommand g x = (queue, undelivered))
    (hserved : (s.dev.missClosed seg g key after queue).Served
      ((s.dev.missClosed seg g key after queue).tellMiss key n.state after.state undelivered undeliveredFirst) seg x.addr m cs e)
    (hreports : e.reports = []) (hregs : e.regs = s.dev.regs) :
    ∃ t, exec (.miss seg frame undeliveredFirst) s = .next t ∧ Table.find key t.dev.nodes = some m ∧
      (∀ other, other ≠ key → Table.find other t.dev.nodes = Table.find other s.dev.nodes) ∧
      t.dev.journal = (if fault then (e.notable (.node key .fault after.misses)).journal else e.journal) ∧
      t = { s with dev := { e with
        regs := { s.dev.regs with status := stallStatus s.dev.journal t.dev.journal (status s.dev.regs.status) }
        nodes := t.dev.nodes, journal := t.dev.journal
        segments := s.dev.segments.set seg (cs.foldl (fun h c => h.place x.addr c) { g with exchange := none, queue := queue }) } } := by
  subst hg hkey
  obtain ⟨hafter, hpolled, hrecord, -⟩ := Node.missed_polled hmiss
  have hlen := Device.exchange_length hx
  have hdev : s.dev.miss seg frame undeliveredFirst = ((s.dev.missClosed seg (s.dev.segment seg) (seg * 256 + x.addr) after queue).tellMiss
      (seg * 256 + x.addr) n.state after.state undelivered undeliveredFirst).recordMiss (seg * 256 + x.addr) (missRecord n after) := by
    rw [Device.miss_invalid undeliveredFirst hx hframe hn]
    unfold Device.missAt
    simp only [hafter, hpolled, hqueue]
    rfl
  have hothers : ∀ (d2 : Device), (∀ other, other ≠ seg * 256 + x.addr → Table.find other d2.nodes =
      Table.find other (s.dev.missClosed seg (s.dev.segment seg) (seg * 256 + x.addr) after queue).nodes) →
      ∀ other, other ≠ seg * 256 + x.addr → Table.find other d2.nodes = Table.find other s.dev.nodes := fun d2 h other ho =>
    (h other ho).trans (by rw [Device.missClosed_nodes, Table.find_modify_ne _ _ ho])
  have hplaced : ∀ (d2 e2 : Device),
      (s.dev.missClosed seg (s.dev.segment seg) (seg * 256 + x.addr) after queue).Served d2 seg x.addr m cs e2 →
      d2.segments = s.dev.segments.set seg (cs.foldl (fun h c => h.place x.addr c)
        { s.dev.segment seg with exchange := none, queue := queue }) := fun d2 e2 h => by
    rw [h.segments, Device.missClosed_segment hlen]
    exact List.set_set ..
  generalize (s.dev.missClosed seg (s.dev.segment seg) (seg * 256 + x.addr) after queue).tellMiss
    (seg * 256 + x.addr) n.state after.state undelivered undeliveredFirst = told at hdev hserved
  have hrecorded : ∃ e2, (s.dev.missClosed seg (s.dev.segment seg) (seg * 256 + x.addr) after queue).Served
      (told.recordMiss (seg * 256 + x.addr) (missRecord n after)) seg x.addr m cs e2 ∧ e2 = { e with
        regs := { s.dev.regs with status := status s.dev.regs.status }
        journal := if fault then (e.notable (.node (seg * 256 + x.addr) .fault after.misses)).journal else e.journal } := by
    rw [hrecord]
    cases fault with
    | true =>
      refine ⟨_, (hserved.latch .nodeFault).record (.node (seg * 256 + x.addr) .fault after.misses) {} .notable, ?_⟩
      rw [hstatus, ← hregs]
      rfl
    | false =>
      refine ⟨_, hserved, ?_⟩
      rw [hstatus, ← hregs]
      rfl
  obtain ⟨e2, hserved2, he2⟩ := hrecorded
  generalize told.recordMiss (seg * 256 + x.addr) (missRecord n after) = final at hdev hserved2
  have hstate : s.onDevice (fun d => d.miss seg frame undeliveredFirst) = { s with dev := final } :=
    congrArg (fun d => { s with dev := d }) hdev
  have hfinal := hserved2.frame
  refine ⟨_, (exec_miss seg frame undeliveredFirst s).trans (commit_of_settled s _ ?_), ?_, ?_, ?_, ?_⟩
  · rw [hstate]
    show final.reports = []
    rw [hfinal, he2]
    exact hreports
  all_goals simp only [hstate]
  · exact hserved2.node
  · exact hothers _ hserved2.others
  · rw [hfinal, he2]
  · rw [← hplaced _ _ hserved2]
    generalize final.nodes = nodes at hfinal
    generalize final.segments = segments at hfinal
    rw [hfinal, he2]

/-! ## The owner told -/

/-- The node's owner told of its commands undelivered and of its change of state, in either order. -/
theorem Device.tellMiss_either {d : Device} {key : Nat} {before after : NodeState} {cs : List Command}
    {P0 Pd Po P : Device → Prop} (undeliveredFirst : Bool) (h0 : P0 d)
    (hd : ∀ d, P0 d → Pd (d.deliver (cs.map fun c => { node := key, command := c })) ∧
      (d.deliver (cs.map fun c => { node := key, command := c })).reports = [])
    (hdo : ∀ d, Pd d → P (d.ownerTold key before after)) (ho : ∀ d, P0 d → Po (d.ownerTold key before after))
    (hod : ∀ d, Po d → P (d.deliver (cs.map fun c => { node := key, command := c })) ∧
      (d.deliver (cs.map fun c => { node := key, command := c })).reports = []) :
    P (d.tellMiss key before after cs undeliveredFirst) := by
  unfold Device.tellMiss
  cases undeliveredFirst with
  | true =>
    dsimp only
    rw [if_pos rfl, Device.takeReports_of_nil (hd d h0).2]
    exact hdo _ (hd d h0).1
  | false =>
    dsimp only
    rw [if_neg Bool.false_ne_true, Device.takeReports_of_nil (hod _ (ho d h0)).2]
    exact (hod _ (ho d h0)).1

/-- The reports that wait are those of the device that it stands as. -/
theorem Device.Served.reports_eq {d d2 e : Device} {seg addr : Nat} {m : Node} {cs : List Command} (h : d.Served d2 seg addr m cs e) :
    d2.reports = e.reports := by
  rw [h.frame]

/-- The rooms are those of the device that it stands as. -/
theorem Device.Served.rooms_frame {d d2 e : Device} {seg addr : Nat} {m : Node} {cs : List Command} (h : d.Served d2 seg addr m cs e) :
    d2.rooms = e.rooms := by
  rw [h.frame]

/-- The owner told that its node is polled still: nothing comes of it but the end of a session at a minibar newly DEGRADED. -/
theorem Device.Served.toldPolled {d d2 e : Device} {seg addr key : Nat} {m : Node} {cs : List Command} {before after : NodeState}
    (h : d.Served d2 seg addr m cs e) (hkey : key = seg * 256 + addr)
    (hpolled : before = after ∨ after = .suspect ∨ after = .degraded)
    (hsession : before ≠ after → after = .degraded → m.kind = .minibar →
      ∀ i r, (i, r) ∈ e.rooms → r.barLink = some key → r.bar.inSession = false) :
    d.Served (d2.ownerTold key before after) seg addr m cs e := by
  subst hkey
  obtain ⟨f, hf, hold⟩ := Device.ownerTold_polled m h.node hpolled (by rw [h.rooms_frame]; exact hsession)
  rw [hold, ← hf]
  exact hf ▸ h.modifyNode f
end Sys2Proof.Machine
end

section
/-! A miss that leaves its node polled: the command back in the queue, and the third attempt (O46). -/

namespace Sys2Proof.Machine

open Sys2Proof

/-! ## A command back in the queue, or one that nobody minds -/

/-- What becomes of the command of a missed frame where nothing comes of it but its place in the queue. -/
theorem Segment.missQueue_missed {g : Segment} {x : Exchange} {barNode : Bool} {queue : List QueueEntry}
    (h : g.missQueue x barNode queue) : ∃ cs, missedCommand g x = (queue, cs) ∧
      ∀ c ∈ cs, c = .signal ∨ c = .abandon ∨ (c = .relock ∧ barNode = true) := by
  rcases h with ⟨hc, rfl⟩ | ⟨c, k, c', hc, hn, rfl⟩ | ⟨c, k, hc, hn, ⟨hk, rfl⟩ | ⟨hk, hquiet, rfl⟩⟩
  · refine ⟨[], ?_, by simp⟩
    unfold missedCommand
    rw [hc]
  · refine ⟨[], ?_, by simp⟩
    unfold missedCommand
    rw [hc, hn]
  · refine ⟨[], ?_, by simp⟩
    have hfew : k + 1 < Config.commandAttempts := by show k + 1 < 3; omega
    unfold missedCommand
    simp only [hc, hn, if_pos hfew]
  · refine ⟨[c], ?_, by simpa using hquiet⟩
    have hmany : ¬ k + 1 < Config.commandAttempts := by show ¬ k + 1 < 3; omega
    unfold missedCommand
    simp only [hc, hn, if_neg hmany]

/-- A command at its third attempt. -/
theorem missedCommand_third {g : Segment} {x : Exchange} {c : Command} {k : Nat} (hc : x.carried = some (c, k)) (hk : 2 ≤ k)
    (hn : x.next = none) : missedCommand g x = (g.queue, [c]) := by
  have hmany : ¬ k + 1 < Config.commandAttempts := by show ¬ k + 1 < 3; omega
  unfold missedCommand
  simp only [hc, hn, if_neg hmany]

/-- A door's command told undelivered at a node without a door record. -/
theorem Device.doorEvent_doorless {d : Device} {key : Nat} {m : Node} {f : Node → Door → DoorOut} (hn : Table.find key d.nodes = some m)
    (hdoor : m.door = none) : d.doorEvent key f = d := by
  unfold Device.doorEvent
  rw [hn]
  simp only [hdoor]

/-- Reports that nobody minds. -/
theorem Device.deliver_quiet {d : Device} {key : Nat} {m : Node} (cs : List Command) (hn : Table.find key d.nodes = some m)
    (hcs : ∀ c ∈ cs, c = .signal ∨ c = .abandon ∨ (c = .relock ∧ m.door = none)) :
    d.deliver (cs.map fun c => { node := key, command := c }) = d := by
  induction cs with
  | nil => rfl
  | cons c rest ih =>
    have hone : d.commandUndelivered key c = d := by
      rcases hcs c List.mem_cons_self with rfl | rfl | ⟨rfl, hdoor⟩
      · rfl
      · rfl
      · exact Device.doorEvent_doorless hn hdoor
    show (d.commandUndelivered key c).deliver (rest.map fun c => { node := key, command := c }) = d
    rw [hone]
    exact ih fun c hc => hcs c (List.mem_cons_of_mem _ hc)

section
variable {d d2 e : Device} {seg addr key : Nat} {m : Node} {cs : List Command}

/-- The minibar of a node newly DEGRADED, its room in session: the session ends with NODE_FAULT, and RELOCK is handed (R94). -/
theorem Device.Served.toldDegraded {before : NodeState} {room : Nat} {r : Room} (h : d.Served d2 seg addr m cs e)
    (hkey : key = seg * 256 + addr) (hx : d.lineOpen seg addr) (hm : m.state.isOut = false) (hkind : m.kind = .minibar)
    (hbefore : before ≠ .degraded) (hmem : (room, r) ∈ e.rooms) (hlink : r.barLink = some key) (hsession : r.bar.inSession = true)
    (honly : ∀ q ∈ e.rooms, q.2.barLink = some key → q = (room, r)) :
    d.Served (d2.ownerTold key before .degraded) seg addr m (cs ++ [.relock])
      ((e.modifyRoom room (fun r => { r.closeSession with unsettled := true })).record (.unsettled room key .nodeFault) {} .reserved) := by
  have hroom : d2.barRoom key = some (room, r) := Device.barRoom_only (by rw [h.rooms_frame]; exact hmem) hlink
    (by rw [h.rooms_frame]; exact honly)
  have htold : d2.ownerTold key before .degraded = d2.endUnsettled key room .nodeFault true := by
    unfold Device.ownerTold
    rw [hkey, h.node, ← hkey]
    simp only [if_neg hbefore, hkind]
    unfold Device.barNodeChanged
    simp only [hroom, hsession, if_true]
  rw [htold]
  subst hkey
  exact ((h.hand hx hm .relock).modifyRoom room _).record _ {} .reserved

end

section
variable {s : State} {seg : Nat} {frame : Option (List Byte)} {undeliveredFirst : Bool} {g : Segment} {x : Exchange} {key : Nat}
  {n after : Node} {fault : Bool} {status : Word → Word} {queue : List QueueEntry} {undelivered : List Command}

/-- A segment open where SETUP has not left it disabled. -/
theorem Device.missClosed_lineOpen {d : Device} (hx : (d.segment seg).exchange = some x) (haddr : x.addr < 256)
    (hdis : (d.segment seg).isDisabled = false) : (d.missClosed seg (d.segment seg) key after queue).lineOpen seg x.addr := by
  have hlen := Device.exchange_length hx
  refine ⟨haddr, ?_, ?_⟩
  · show seg < (d.segments.set seg _).length
    rw [List.length_set]
    exact hlen
  · rw [Device.missClosed_segment hlen]
    exact hdis

variable (hs : s.settled) (hg : s.dev.segment seg = g) (hx : g.exchange = some x) (hkey : key = seg * 256 + x.addr)
  (hn : Table.find key s.dev.nodes = some n) (hframe : ∀ bytes, frame = some bytes → answerValid x.addr bytes = false)
  (hmiss : n.missPolled after fault) (hstatus : ∀ word, status word = if fault then word ||| 256 else word)
  (hqueue : missedCommand g x = (queue, undelivered))
include hs hg hx hkey hn hframe hmiss hstatus hqueue

/-- A miss that leaves its node polled, with nothing undelivered that a submitter minds and no session that ends. -/
theorem exec_missQuiet
    (hquiet : ∀ d : Device, Table.find key d.nodes = some after → d.creds = s.dev.creds →
      d.deliver (undelivered.map fun c => { node := key, command := c }) = d)
    (hsession : n.state ≠ after.state → after.state = .degraded → n.kind = .minibar →
      ∀ i r, (i, r) ∈ s.dev.rooms → r.barLink = some key → r.bar.inSession = false) :
    ∃ t, exec (.miss seg frame undeliveredFirst) s = .next t ∧ Table.find key t.dev.nodes = some after ∧
      (∀ other, other ≠ key → Table.find other t.dev.nodes = Table.find other s.dev.nodes) ∧
      t.dev.journal = (if fault then (s.dev.notable (.node key .fault after.misses)).journal else s.dev.journal) ∧
      t = { s with dev := { s.dev with
        regs := { s.dev.regs with status := stallStatus s.dev.journal t.dev.journal (status s.dev.regs.status) }
        nodes := t.dev.nodes, journal := t.dev.journal
        segments := s.dev.segments.set seg { g with exchange := none, queue := queue } } } := by
  obtain ⟨-, -, -, hpolled, hkind, -⟩ := Node.missed_polled hmiss
  have hbase := Device.missClosed_served (g := g) (after := after) queue (hg ▸ hx) (hkey ▸ hn)
  rw [← hkey] at hbase
  refine exec_missPolled hg hx hkey hn hframe hmiss hstatus hqueue (e := s.dev) (cs := []) (m := after)
    (Device.tellMiss_either
      (P0 := fun d => Device.Served _ d seg x.addr after [] s.dev) (Pd := fun d => Device.Served _ d seg x.addr after [] s.dev)
      (Po := fun d => Device.Served _ d seg x.addr after [] s.dev) (P := fun d => Device.Served _ d seg x.addr after [] s.dev)
      undeliveredFirst hbase
      (fun d h => ?_) (fun d h => h.toldPolled hkey hpolled fun hne hdeg hbar => hsession hne hdeg (hkind ▸ hbar))
      (fun d h => h.toldPolled hkey hpolled fun hne hdeg hbar => hsession hne hdeg (hkind ▸ hbar)) (fun d h => ?_)) hs rfl
  all_goals
    rw [hquiet d (hkey ▸ h.node) h.creds_eq]
    exact ⟨h, h.reports_eq.trans hs⟩

/-- A miss that makes the node of a minibar in session DEGRADED (R94). -/
theorem exec_missDegraded {room : Nat} {r : Room}
    (hquiet : ∀ d : Device, Table.find key d.nodes = some after → d.deliver (undelivered.map fun c => { node := key, command := c }) = d)
    (hbar : n.kind = .minibar) (hbefore : n.state ≠ .degraded) (hafter : after.state = .degraded) (haddr : x.addr < 256)
    (hdis : g.isDisabled = false) (hmem : (room, r) ∈ s.dev.rooms) (hfind : Table.find room s.dev.rooms = some r)
    (hlink : r.barLink = some key) (hsession : r.bar.inSession = true)
    (honly : ∀ q ∈ s.dev.rooms, q.2.barLink = some key → q = (room, r)) :
    ∃ t ended, exec (.miss seg frame undeliveredFirst) s = .next t ∧
      Table.find key t.dev.nodes = some after ∧
      (∀ other, other ≠ key → Table.find other t.dev.nodes = Table.find other s.dev.nodes) ∧
      Table.find room t.dev.rooms = some { r with
        session := none, unlatchPending := false, unsettled := true
        bar := if r.ceiling - r.balance < r.openFloor ∨ 0 < r.unposted then .suspended else .locked } ∧
      (∀ other, other ≠ room → Table.find other t.dev.rooms = Table.find other s.dev.rooms) ∧
      ended = s.dev.record (.unsettled room key .nodeFault) {} .reserved ∧
      t.dev.journal = (if fault then (ended.notable (.node key .fault after.misses)).journal else ended.journal) ∧
      t = { s with dev := { s.dev with
        regs := { s.dev.regs with status := stallStatus s.dev.journal t.dev.journal (status s.dev.regs.status) }
        nodes := t.dev.nodes, rooms := t.dev.rooms, journal := t.dev.journal
        segments := s.dev.segments.set seg (Segment.place { g with exchange := none, queue := queue } x.addr .relock) } } := by
  obtain ⟨-, hout, -, hpolled, hkind, -⟩ := Node.missed_polled hmiss
  have hbase := Device.missClosed_served (g := g) (after := after) queue (hg ▸ hx) (hkey ▸ hn)
  have hline := Device.missClosed_lineOpen (key := key) (after := after) (queue := queue) (hg ▸ hx) haddr (hg ▸ hdis)
  rw [← hkey] at hbase
  rw [hg] at hline
  have htold : ∀ d : Device, (s.dev.missClosed seg g key after queue).Served d seg x.addr after [] s.dev →
      (s.dev.missClosed seg g key after queue).Served (d.ownerTold key n.state after.state) seg x.addr after [.relock]
        ((s.dev.modifyRoom room (fun r => { r.closeSession with unsettled := true })).record (.unsettled room key .nodeFault) {}
          .reserved) := fun d h => by
    rw [hafter]
    exact h.toldDegraded hkey hline hout (hkind.trans hbar) hbefore hmem hlink hsession honly
  obtain ⟨t, hexec, hnode, hothers, hjournal, ht⟩ := exec_missPolled (undeliveredFirst := undeliveredFirst) hg hx hkey hn
    hframe hmiss hstatus hqueue
    (Device.tellMiss_either
      (P0 := fun d => Device.Served _ d seg x.addr after [] s.dev) (Pd := fun d => Device.Served _ d seg x.addr after [] s.dev)
      (Po := fun d => Device.Served _ d seg x.addr after [.relock] _) (P := fun d => Device.Served _ d seg x.addr after [.relock] _)
      undeliveredFirst hbase
      (fun d h => by
        rw [hquiet d (hkey ▸ h.node)]
        exact ⟨h, h.reports_eq.trans hs⟩) htold htold
      (fun d h => by
        rw [hquiet d (hkey ▸ h.node)]
        exact ⟨h, h.reports_eq.trans hs⟩)) hs rfl
  have hrooms : t.dev.rooms = Table.modify room (fun r => { r.closeSession with unsettled := true }) s.dev.rooms :=
    congrArg (fun t => t.dev.rooms) ht
  refine ⟨t, _, hexec, hnode, hothers, ?_, fun other ho => ?_, rfl, hjournal, ?_⟩
  · rw [hrooms, Table.find_modify_self, hfind, Option.map_some, Room.closeSession_eq]
  · rw [hrooms, Table.find_modify_ne _ _ ho]
  · rw [hrooms]
    exact ht

end

end Sys2Proof.Machine
end

section
/-! A miss at the third attempt of a command whose node stays polled (O46). -/

namespace Sys2Proof.Machine

open Sys2Proof

/-! ## At a door -/

/-- What an undelivered command does at a door. -/
theorem Door.undelivered_gives {r : Door} {c : Command} {o : DoorOut} (h : r.undeliveredGives c o) :
    r.undelivered c = o ∧ o.alarm = false ∧ (∀ event ∈ o.events, event.cls = .notable) ∧
      (c = .relock ∨ c = .hold ∨ ∃ seconds, c = .release seconds) := by
  rcases h with ⟨seconds, rfl, rfl⟩ | ⟨rfl, rfl⟩ | ⟨rfl, hst, rfl⟩ | ⟨rfl, h1, h2, rfl⟩
  · obtain ⟨hevents, halarm⟩ := Door.rest_silent { r with releaseTimer := none } false
    refine ⟨(DoorOut.withEvent_silent _ _ hevents halarm).trans ?_, halarm, ?_, .inr (.inr ⟨seconds, rfl⟩)⟩
    · dsimp only
      rw [halarm]
    · intro event he
      rw [List.mem_singleton.mp he]
      rfl
  · refine ⟨rfl, rfl, ?_, .inl rfl⟩
    intro event he
    rw [List.mem_singleton.mp he]
    rfl
  · refine ⟨?_, rfl, ?_, .inr (.inl rfl)⟩
    · rcases hst with hst | hst <;> simp [Door.undelivered, hst]
    · intro event he
      rw [List.mem_singleton.mp he]
      rfl
  · refine ⟨?_, rfl, fun event he => ?_, .inr (.inl rfl)⟩
    · simp [Door.undelivered, h1, h2, DoorOut.same]
    · cases he

section
variable {d d2 e : Device} {seg addr key : Nat} {m : Node} {cs : List Command} {c : Command}

/-- A door told that a command for it was undelivered (R78). -/
theorem Device.Served.doorUndelivered {r : Door} {o : DoorOut} (h : d.Served d2 seg addr m cs e) (hkey : key = seg * 256 + addr)
    (hx : d.lineOpen seg addr) (hm : m.state.isOut = false) (hdoor : m.door = some r) (hgives : r.undeliveredGives c o) :
    d.Served (d2.deliver ([c].map fun c => { node := key, command := c })) seg addr { m with door := some o.door } (cs ++ o.commands)
      { e with journal := (o.events.foldl (fun (d : Device) event => d.notable (.door key event o.door.state)) e).journal } := by
  subst hkey
  obtain ⟨hout, halarm, hevents, hcommand⟩ := Door.undelivered_gives hgives
  have hone : d2.deliver ([c].map fun c => { node := seg * 256 + addr, command := c }) =
      d2.doorEvent (seg * 256 + addr) (fun n r => if n.state.isOut then .same r else r.undelivered c) := by
    rcases hcommand with rfl | rfl | ⟨seconds, rfl⟩ <;> rfl
  rw [hone]
  have hserved := h.doorEvent hx hm hdoor (fun n r => if n.state.isOut then .same r else r.undelivered c) (o := o) (by
    rw [hm, if_neg Bool.false_ne_true, hout])
  rw [halarm, if_neg Bool.false_ne_true, Device.doorRecords_eq hevents] at hserved
  exact hserved

/-- An UNLATCH told undelivered at the minibar of one room (R92). -/
theorem Device.Served.unlatchUndelivered {room : Nat} {r : Room} (h : d.Served d2 seg addr m cs e) (hmem : (room, r) ∈ e.rooms)
    (hlink : r.barLink = some key) (honly : ∀ q ∈ e.rooms, q.2.barLink = some key → q = (room, r)) :
    d.Served (d2.deliver ([.unlatch].map fun c => { node := key, command := c })) seg addr m cs
      (if r.unlatchPending then (e.giveBack.modifyRoom room Room.closeSession).notable (.unsettled room key .undelivered) else e) := by
  have hroom : d2.barRoom key = some (room, r) := Device.barRoom_only (by rw [h.rooms_frame]; exact hmem) hlink
    (by rw [h.rooms_frame]; exact honly)
  have hone : d2.deliver ([.unlatch].map fun c => { node := key, command := c }) =
      if r.unlatchPending then (d2.giveBack.modifyRoom room Room.closeSession).notable (.unsettled room key .undelivered) else d2 := by
    show d2.unlatchUndelivered key = _
    unfold Device.unlatchUndelivered
    simp only [hroom]
  rw [hone]
  cases r.unlatchPending with
  | true => exact (h.giveBack.modifyRoom room _).record _ {} .notable
  | false => exact h

end

/-- NOTABLE records of a door change the journal alone. -/
theorem Device.doorNotables_eq (key : Nat) (st : DoorState) (events : List DoorEvent) (d : Device) :
    ∃ j, events.foldl (fun (d : Device) event => d.notable (.door key event st)) d = { d with journal := j } := by
  induction events generalizing d with
  | nil => exact ⟨d.journal, rfl⟩
  | cons event rest ih =>
    obtain ⟨j, hj⟩ := ih (d.notable (.door key event st))
    exact ⟨j, hj⟩

/-! ## At an encoder -/

/-- Whether a job is that of the encoding in progress. -/
theorem Device.isCurrentJob_eq {d : Device} {key job : Nat} {enc : Encoder} {encoding : Encoding}
    (henc : Table.find key d.creds.encoders = some enc) (hcurrent : enc.current = some encoding) :
    d.isCurrentJob key job = decide (encoding.job = job) := by
  unfold Device.isCurrentJob
  rw [henc]
  simp only [hcurrent]

/-- An encoder fault of a device with other nodes and segments is one of the device itself. -/
theorem Device.encoderFaulted.transfer {d u : Device} {nodes : Table Node} {segments : List Segment} {key : Nat} {enc : Encoder}
    {failed : List (Issue × Entry)} (h : ({ d with nodes := nodes, segments := segments } : Device).encoderFaulted u key enc failed) :
    d.encoderFaulted { d with walker := u.walker, creds := u.creds, rooms := u.rooms, journal := u.journal } key enc failed ∧
      u = { d with
        nodes := nodes, segments := segments, walker := u.walker, creds := u.creds, rooms := u.rooms, journal := u.journal } := by
  obtain ⟨hentries, hdeny, hrooms, henc, hothers, hjournal, hu⟩ := h
  have hw : u.walker = { d.walker with settlements := d.walker.settlements ++ failed.map (fun p =>
      { block := p.1.block, words := [0, 0], code := .encoderFault }) } := congrArg Device.walker hu
  have hc : u.creds = { d.creds with entries := u.creds.entries, deny := u.creds.deny, encoders := u.creds.encoders } :=
    congrArg Device.creds hu
  refine ⟨⟨hentries, hdeny, hrooms, henc, hothers, ?_, ?_⟩, ?_⟩
  · refine hjournal.trans ?_
    have := Device.notables_journal (failed.map fun p => RecordBody.card p.1.serial .issueFailed p.2.room p.2.tag)
      { d with nodes := nodes, segments := segments } d rfl rfl
    simpa [List.foldl_map] using this
  · exact congrArg₂ (fun w c => ({ d with walker := w, creds := c, rooms := u.rooms, journal := u.journal } : Device)) hw hc
  · exact hu.trans (congrArg₂ (fun w c => ({ d with
      nodes := nodes, segments := segments, walker := w, creds := c, rooms := u.rooms, journal := u.journal } : Device)) hw hc).symm

/-- What an encoder fault leaves of the device. -/
theorem Device.encoderFaulted.frame {d u : Device} {key : Nat} {enc : Encoder} {failed : List (Issue × Entry)}
    (h : d.encoderFaulted u key enc failed) : u = { d with
      walker := u.walker
      creds := { d.creds with entries := u.creds.entries, deny := u.creds.deny, encoders := u.creds.encoders }
      rooms := u.rooms, journal := u.journal } := by
  obtain ⟨-, -, -, -, -, -, hu⟩ := h
  have hw : u.walker = { d.walker with settlements := d.walker.settlements ++ failed.map (fun p =>
      { block := p.1.block, words := [0, 0], code := .encoderFault }) } := congrArg Device.walker hu
  exact hu.trans (congrArg (fun w => ({ d with
    walker := w
    creds := { d.creds with entries := u.creds.entries, deny := u.creds.deny, encoders := u.creds.encoders }
    rooms := u.rooms, journal := u.journal } : Device)) hw).symm

/-- The encoder of a node faulted: every issue of the encoder fails (R19). -/
theorem Device.Served.faulted {d d2 e : Device} {seg addr key : Nat} {m : Node} {cs : List Command} {enc : Encoder}
    {failed : List (Issue × Entry)} (h : d.Served d2 seg addr m cs e) (henc : Table.find key e.creds.encoders = some enc)
    (hissues : e.issuesOf enc failed) :
    ∃ u, d.Served (d2.encoderFault key) seg addr m cs u ∧ e.encoderFaulted u key enc failed := by
  have hframe := h.frame
  have hspec : d2.encoderFaulted (d2.encoderFault key) key enc failed := encoderFault_spec (by rw [h.creds_eq]; exact henc) (by
    obtain ⟨hmap, hnodup, hentries⟩ := hissues
    refine ⟨hmap, hnodup, fun p hp => ?_⟩
    have := hentries p hp
    unfold Device.entryOf at this ⊢
    rw [h.creds_eq]
    exact this)
  generalize d2.encoderFault key = u2 at hspec
  obtain ⟨nodes, segments, rfl⟩ : ∃ nodes segments, d2 = { e with nodes := nodes, segments := segments } := ⟨_, _, hframe⟩
  obtain ⟨hfaulted, hu⟩ := hspec.transfer
  refine ⟨_, ?_, hfaulted⟩
  rw [hu]
  exact h.put u2.creds u2.rooms u2.journal u2.walker

/-- The ENCODE of the encoding in progress told undelivered: an encoder fault (R19). -/
theorem Device.encodeUndelivered_current {d : Device} {key job : Nat} {enc : Encoder} {encoding : Encoding}
    (henc : Table.find key d.creds.encoders = some enc) (hcurrent : enc.current = some encoding) :
    d.encodeUndelivered key job = if encoding.job = job then d.encoderFault key else d := by
  unfold Device.encodeUndelivered
  rw [Device.isCurrentJob_eq henc hcurrent]
  simp only [decide_eq_true_eq]

end Sys2Proof.Machine
end

section
/-! A miss that leaves its node polled, each case assembled (O46). -/

namespace Sys2Proof.Machine

open Sys2Proof

section
variable {s : State} {seg : Nat} {frame : Option (List Byte)} {undeliveredFirst : Bool} {g : Segment} {x : Exchange} {key : Nat}
  {n after : Node} {fault : Bool} {status : Word → Word} {c : Command} {k : Nat}

variable (hs : s.settled) (hg : s.dev.segment seg = g) (hx : g.exchange = some x) (hkey : key = seg * 256 + x.addr)
  (hn : Table.find key s.dev.nodes = some n) (hframe : ∀ bytes, frame = some bytes → answerValid x.addr bytes = false)
  (hmiss : n.missPolled after fault) (hstatus : ∀ word, status word = if fault then word ||| 256 else word)
  (hcarried : x.carried = some (c, k)) (hk : 2 ≤ k) (hnext : x.next = none)
include hs hg hx hkey hn hframe hmiss hstatus hcarried hk hnext

/-- A door's command at its third attempt (R78). -/
theorem exec_missDoor {r : Door} {o : DoorOut} (haddr : x.addr < 256) (hdis : g.isDisabled = false) (hdoorKind : n.kind.isDoor = true)
    (hdoor : n.door = some r) (hgives : r.undeliveredGives c o) :
    ∃ t failed, exec (.miss seg frame undeliveredFirst) s = .next t ∧
      Table.find key t.dev.nodes = some { after with door := some o.door } ∧
      (∀ other, other ≠ key → Table.find other t.dev.nodes = Table.find other s.dev.nodes) ∧
      failed = o.events.foldl (fun (d : Device) e => d.notable (.door key e o.door.state)) s.dev ∧
      t.dev.journal = (if fault then (failed.notable (.node key .fault after.misses)).journal else failed.journal) ∧
      t = { s with dev := { s.dev with
        regs := { s.dev.regs with status := stallStatus s.dev.journal t.dev.journal (status s.dev.regs.status) }
        nodes := t.dev.nodes, journal := t.dev.journal
        segments := s.dev.segments.set seg (o.commands.foldl (fun h c' => h.place x.addr c') { g with exchange := none }) } } := by
  obtain ⟨-, hout, -, hpolled, hkind, hafterDoor⟩ := Node.missed_polled hmiss
  have hbase := Device.missClosed_served (g := g) (after := after) g.queue (hg ▸ hx) (hkey ▸ hn)
  have hline := Device.missClosed_lineOpen (key := key) (after := after) (queue := g.queue) (hg ▸ hx) haddr (hg ▸ hdis)
  rw [← hkey] at hbase
  rw [hg] at hline
  have hnobar : after.kind ≠ .minibar := fun h => by
    rw [← hkind, h] at hdoorKind
    cases hdoorKind
  have hdeliver : ∀ d : Device, (s.dev.missClosed seg g key after g.queue).Served d seg x.addr after [] s.dev → _ := fun d h =>
    h.doorUndelivered hkey hline hout (hafterDoor.trans hdoor) hgives
  obtain ⟨j, hfailed⟩ := Device.doorNotables_eq key o.door.state o.events s.dev
  rw [hfailed] at hdeliver ⊢
  obtain ⟨t, hexec, hnode, hothers, hjournal, ht⟩ := exec_missPolled (undeliveredFirst := undeliveredFirst) hg hx hkey hn hframe hmiss
    hstatus (missedCommand_third hcarried hk hnext)
    (Device.tellMiss_either
      (P0 := fun d => Device.Served _ d seg x.addr after [] s.dev)
      (Pd := fun d => Device.Served _ d seg x.addr { after with door := some o.door } o.commands { s.dev with journal := j })
      (Po := fun d => Device.Served _ d seg x.addr after [] s.dev)
      (P := fun d => Device.Served _ d seg x.addr { after with door := some o.door } o.commands { s.dev with journal := j })
      undeliveredFirst hbase
      (fun d h => ⟨hdeliver d h, (hdeliver d h).reports_eq.trans hs⟩)
      (fun d h => h.toldPolled hkey hpolled fun _ _ hbar => absurd hbar hnobar)
      (fun d h => h.toldPolled hkey hpolled fun _ _ hbar => absurd hbar hnobar)
      (fun d h => ⟨hdeliver d h, (hdeliver d h).reports_eq.trans hs⟩)) hs rfl
  exact ⟨t, _, hexec, hnode, hothers, rfl, hjournal, ht⟩

/-- A minibar's UNLATCH at its third attempt (R92). -/
theorem exec_missUnlatch {room : Nat} {r : Room} (hunlatch : c = .unlatch)
    (hdegraded : after.state = .degraded → n.state = .degraded) (hmem : (room, r) ∈ s.dev.rooms)
    (hfind : Table.find room s.dev.rooms = some r) (hlink : r.barLink = some key)
    (honly : ∀ q ∈ s.dev.rooms, q.2.barLink = some key → q = (room, r)) :
    ∃ t failed, exec (.miss seg frame undeliveredFirst) s = .next t ∧
      Table.find key t.dev.nodes = some after ∧
      (∀ other, other ≠ key → Table.find other t.dev.nodes = Table.find other s.dev.nodes) ∧
      Table.find room t.dev.rooms = some (if r.unlatchPending then { r with
        session := none, unlatchPending := false
        bar := if r.ceiling - r.balance < r.openFloor ∨ 0 < r.unposted then .suspended else .locked } else r) ∧
      (∀ other, other ≠ room → Table.find other t.dev.rooms = Table.find other s.dev.rooms) ∧
      failed = (if r.unlatchPending then s.dev.giveBack.notable (.unsettled room key .undelivered) else s.dev) ∧
      t.dev.journal = (if fault then (failed.notable (.node key .fault after.misses)).journal else failed.journal) ∧
      t = { s with dev := { s.dev with
        regs := { s.dev.regs with status := stallStatus s.dev.journal t.dev.journal (status s.dev.regs.status) }
        nodes := t.dev.nodes, rooms := t.dev.rooms, journal := t.dev.journal
        segments := s.dev.segments.set seg { g with exchange := none } } } := by
  obtain ⟨-, -, -, hpolled, -, -⟩ := Node.missed_polled hmiss
  have hbase := Device.missClosed_served (g := g) (after := after) g.queue (hg ▸ hx) (hkey ▸ hn)
  rw [← hkey] at hbase
  subst hunlatch
  have htold : ∀ (d : Device) (e : Device), (s.dev.missClosed seg g key after g.queue).Served d seg x.addr after [] e →
      (s.dev.missClosed seg g key after g.queue).Served (d.ownerTold key n.state after.state) seg x.addr after [] e := fun d e h =>
    h.toldPolled hkey hpolled fun hne hdeg _ => absurd ((hdegraded hdeg).trans hdeg.symm) hne
  have hdeliver : ∀ d : Device, (s.dev.missClosed seg g key after g.queue).Served d seg x.addr after [] s.dev → _ := fun d h =>
    h.unlatchUndelivered hmem hlink honly
  have hdone := fun hreports hregs => exec_missPolled (undeliveredFirst := undeliveredFirst) hg hx hkey hn hframe hmiss
    hstatus (missedCommand_third hcarried hk hnext)
    (Device.tellMiss_either
      (P0 := fun d => Device.Served _ d seg x.addr after [] s.dev)
      (Pd := fun d => Device.Served _ d seg x.addr after [] _)
      (Po := fun d => Device.Served _ d seg x.addr after [] s.dev)
      (P := fun d => Device.Served _ d seg x.addr after [] _)
      undeliveredFirst hbase
      (fun d h => ⟨hdeliver d h, (hdeliver d h).reports_eq.trans hreports⟩) (fun d h => htold d _ h) (fun d h => htold d _ h)
      (fun d h => ⟨hdeliver d h, (hdeliver d h).reports_eq.trans hreports⟩)) hreports hregs
  cases hpending : r.unlatchPending with
  | true =>
    simp only [hpending, if_true] at hdone ⊢
    obtain ⟨t, hexec, hnode, hothers, hjournal, ht⟩ := hdone hs rfl
    have hrooms : t.dev.rooms = Table.modify room Room.closeSession s.dev.rooms := congrArg (fun t => t.dev.rooms) ht
    refine ⟨t, _, hexec, hnode, hothers, ?_, fun other ho => ?_, rfl, hjournal, ?_⟩
    · rw [hrooms, Table.find_modify_self, hfind, Option.map_some, Room.closeSession_eq]
    · rw [hrooms, Table.find_modify_ne _ _ ho]
    · rw [hrooms]
      exact ht
  | false =>
    simp only [hpending, Bool.false_eq_true, if_false] at hdone ⊢
    obtain ⟨t, hexec, hnode, hothers, hjournal, ht⟩ := hdone hs trivial
    have hrooms : t.dev.rooms = s.dev.rooms := congrArg (fun t => t.dev.rooms) ht
    refine ⟨t, _, hexec, hnode, hothers, ?_, fun other ho => ?_, rfl, hjournal, ?_⟩
    · rw [hrooms, hfind]
    · rw [hrooms]
    · rw [hrooms]
      exact ht

/-- An ENCODE at its third attempt, that of the encoding in progress (R19). -/
theorem exec_missEncode {image : CardImage} {job : Nat} {enc : Encoder} {encoding : Encoding} {failed : List (Issue × Entry)}
    (hencode : c = .encode image job) (hencoder : n.kind = .encoder) (henc : Table.find key s.dev.creds.encoders = some enc)
    (hcurrent : enc.current = some encoding) (hjob : encoding.job = job) (hissues : s.dev.issuesOf enc failed) :
    ∃ t u, exec (.miss seg frame undeliveredFirst) s = .next t ∧
      s.dev.encoderFaulted u key enc failed ∧
      Table.find key t.dev.nodes = some after ∧
      (∀ other, other ≠ key → Table.find other t.dev.nodes = Table.find other s.dev.nodes) ∧
      t.dev.journal = (if fault then (u.notable (.node key .fault after.misses)).journal else u.journal) ∧
      t = { s with dev := { s.dev with
        regs := { s.dev.regs with status := stallStatus s.dev.journal t.dev.journal (status s.dev.regs.status) }
        walker := u.walker
        creds := { s.dev.creds with entries := u.creds.entries, deny := u.creds.deny, encoders := u.creds.encoders }
        rooms := u.rooms
        nodes := t.dev.nodes, journal := t.dev.journal
        segments := s.dev.segments.set seg { g with exchange := none } } } := by
  obtain ⟨-, -, -, hpolled, hkind, -⟩ := Node.missed_polled hmiss
  have hbase := Device.missClosed_served (g := g) (after := after) g.queue (hg ▸ hx) (hkey ▸ hn)
  rw [← hkey] at hbase
  subst hencode
  have hnobar : after.kind ≠ .minibar := fun h => by
    rw [hkind, hencoder] at h
    cases h
  have htold : ∀ (d e : Device), (s.dev.missClosed seg g key after g.queue).Served d seg x.addr after [] e →
      (s.dev.missClosed seg g key after g.queue).Served (d.ownerTold key n.state after.state) seg x.addr after [] e := fun d e h =>
    h.toldPolled hkey hpolled fun _ _ hbar => absurd hbar hnobar
  have hdeliver : ∀ d : Device, (s.dev.missClosed seg g key after g.queue).Served d seg x.addr after [] s.dev →
      (∃ u, s.dev.encoderFaulted u key enc failed ∧ (s.dev.missClosed seg g key after g.queue).Served
        (d.deliver ([.encode image job].map fun c => { node := key, command := c })) seg x.addr after [] u) ∧
      (d.deliver ([.encode image job].map fun c => { node := key, command := c })).reports = [] := fun d h => by
    obtain ⟨u, hserved, hu⟩ := h.faulted henc hissues
    have hfault : d.deliver ([.encode image job].map fun c => { node := key, command := c }) = d.encoderFault key :=
      (Device.encodeUndelivered_current (by rw [h.creds_eq]; exact henc) hcurrent).trans (if_pos hjob)
    rw [hfault]
    exact ⟨⟨u, hu, hserved⟩, hserved.reports_eq.trans ((congrArg Device.reports hu.frame : u.reports = _).trans hs)⟩
  obtain ⟨u, hu, hserved⟩ := Device.tellMiss_either (before := n.state) (after := after.state)
    (P0 := fun d => (s.dev.missClosed seg g key after g.queue).Served d seg x.addr after [] s.dev)
    (Pd := fun d => ∃ u, s.dev.encoderFaulted u key enc failed ∧
      (s.dev.missClosed seg g key after g.queue).Served d seg x.addr after [] u)
    (Po := fun d => (s.dev.missClosed seg g key after g.queue).Served d seg x.addr after [] s.dev)
    (P := fun d => ∃ u, s.dev.encoderFaulted u key enc failed ∧
      (s.dev.missClosed seg g key after g.queue).Served d seg x.addr after [] u)
    undeliveredFirst hbase hdeliver (fun d ⟨u, hu, h⟩ => ⟨u, hu, htold d u h⟩) (fun d h => htold d _ h) hdeliver
  have hkept := hu.frame
  obtain ⟨t, hexec, hnode, hothers, hjournal, ht⟩ := exec_missPolled (undeliveredFirst := undeliveredFirst) hg hx hkey hn hframe hmiss
    hstatus (missedCommand_third hcarried hk hnext) hserved ((congrArg Device.reports hkept).trans hs) (by rw [hkept])
  exact ⟨t, u, hexec, hu, hnode, hothers, hjournal, ht.trans (congrArg (fun d => { s with dev := { d with
    regs := { s.dev.regs with status := stallStatus s.dev.journal t.dev.journal (status s.dev.regs.status) }
    nodes := t.dev.nodes, journal := t.dev.journal
    segments := s.dev.segments.set seg { g with exchange := none } } }) hkept)⟩

end

/-- Settles the second part of O46: a miss that leaves its node polled. -/
theorem exec_missKeeps (s : State) (seg : Nat) (frame : Option (List Byte)) (undeliveredFirst : Bool) (g : Segment) (x : Exchange)
    (key : Nat) (n after : Node) (fault : Bool) (status : Word → Word) (hs : s.settled) (hg : s.dev.segment seg = g)
    (hx : g.exchange = some x) (hkey : key = seg * 256 + x.addr) (hn : Table.find key s.dev.nodes = some n)
    (hframe : ∀ bytes, frame = some bytes → answerValid x.addr bytes = false) (hmiss : n.missPolled after fault)
    (hstatus : ∀ word, status word = if fault then word ||| 256 else word) :
    (∀ queue : List QueueEntry, g.missQueue x (decide (n.kind = .minibar ∧ n.door = none)) queue →
      ((n.kind = .minibar → n.state ≠ .degraded → after.state = .degraded →
          ∀ i r, (i, r) ∈ s.dev.rooms → r.barLink = some key → r.bar.inSession = false) →
        ∃ t, exec (.miss seg frame undeliveredFirst) s = .next t ∧
          Table.find key t.dev.nodes = some after ∧
          (∀ other, other ≠ key → Table.find other t.dev.nodes = Table.find other s.dev.nodes) ∧
          t.dev.journal = (if fault then (s.dev.notable (.node key .fault after.misses)).journal else s.dev.journal) ∧
          t = { s with dev := { s.dev with
            regs := { s.dev.regs with status := stallStatus s.dev.journal t.dev.journal (status s.dev.regs.status) }
            nodes := t.dev.nodes, journal := t.dev.journal
            segments := s.dev.segments.set seg { g with exchange := none, queue := queue } } }) ∧
      (∀ room r, n.kind = .minibar → n.state ≠ .degraded → after.state = .degraded → x.addr < 256 → g.isDisabled = false →
        (room, r) ∈ s.dev.rooms → Table.find room s.dev.rooms = some r → r.barLink = some key → r.bar.inSession = true →
        (∀ q ∈ s.dev.rooms, q.2.barLink = some key → q = (room, r)) →
        ∃ t ended, exec (.miss seg frame undeliveredFirst) s = .next t ∧
          Table.find key t.dev.nodes = some after ∧
          (∀ other, other ≠ key → Table.find other t.dev.nodes = Table.find other s.dev.nodes) ∧
          Table.find room t.dev.rooms = some { r with
            session := none, unlatchPending := false, unsettled := true
            bar := if r.ceiling - r.balance < r.openFloor ∨ 0 < r.unposted then .suspended else .locked } ∧
          (∀ other, other ≠ room → Table.find other t.dev.rooms = Table.find other s.dev.rooms) ∧
          ended = s.dev.record (.unsettled room key .nodeFault) {} .reserved ∧
          t.dev.journal = (if fault then (ended.notable (.node key .fault after.misses)).journal else ended.journal) ∧
          t = { s with dev := { s.dev with
            regs := { s.dev.regs with status := stallStatus s.dev.journal t.dev.journal (status s.dev.regs.status) }
            nodes := t.dev.nodes, rooms := t.dev.rooms, journal := t.dev.journal
            segments := s.dev.segments.set seg (Segment.place { g with exchange := none, queue := queue } x.addr .relock) } })) ∧
    (∀ (c : Command) (k : Nat), x.carried = some (c, k) → 2 ≤ k → x.next = none → x.addr < 256 → g.isDisabled = false →
      (∀ r o, n.kind.isDoor = true → n.door = some r → r.undeliveredGives c o →
        ∃ t failed, exec (.miss seg frame undeliveredFirst) s = .next t ∧
          Table.find key t.dev.nodes = some { after with door := some o.door } ∧
          (∀ other, other ≠ key → Table.find other t.dev.nodes = Table.find other s.dev.nodes) ∧
          failed = o.events.foldl (fun (d : Device) e => d.notable (.door key e o.door.state)) s.dev ∧
          t.dev.journal = (if fault then (failed.notable (.node key .fault after.misses)).journal else failed.journal) ∧
          t = { s with dev := { s.dev with
            regs := { s.dev.regs with status := stallStatus s.dev.journal t.dev.journal (status s.dev.regs.status) }
            nodes := t.dev.nodes, journal := t.dev.journal
            segments := s.dev.segments.set seg (o.commands.foldl (fun h c' => h.place x.addr c') { g with exchange := none }) } }) ∧
      (∀ room r, c = .unlatch → n.kind = .minibar → (after.state = .degraded → n.state = .degraded) →
        (room, r) ∈ s.dev.rooms → Table.find room s.dev.rooms = some r → r.barLink = some key →
        (∀ q ∈ s.dev.rooms, q.2.barLink = some key → q = (room, r)) →
        ∃ t failed, exec (.miss seg frame undeliveredFirst) s = .next t ∧
          Table.find key t.dev.nodes = some after ∧
          (∀ other, other ≠ key → Table.find other t.dev.nodes = Table.find other s.dev.nodes) ∧
          Table.find room t.dev.rooms = some (if r.unlatchPending then { r with
            session := none, unlatchPending := false
            bar := if r.ceiling - r.balance < r.openFloor ∨ 0 < r.unposted then .suspended else .locked } else r) ∧
          (∀ other, other ≠ room → Table.find other t.dev.rooms = Table.find other s.dev.rooms) ∧
          failed = (if r.unlatchPending then s.dev.giveBack.notable (.unsettled room key .undelivered) else s.dev) ∧
          t.dev.journal = (if fault then (failed.notable (.node key .fault after.misses)).journal else failed.journal) ∧
          t = { s with dev := { s.dev with
            regs := { s.dev.regs with status := stallStatus s.dev.journal t.dev.journal (status s.dev.regs.status) }
            nodes := t.dev.nodes, rooms := t.dev.rooms, journal := t.dev.journal
            segments := s.dev.segments.set seg { g with exchange := none } } }) ∧
      (∀ image job enc encoding failed, c = .encode image job → n.kind = .encoder →
        Table.find key s.dev.creds.encoders = some enc → enc.current = some encoding →
        (encoding.job ≠ job → ∃ t, exec (.miss seg frame undeliveredFirst) s = .next t ∧
          Table.find key t.dev.nodes = some after ∧
          (∀ other, other ≠ key → Table.find other t.dev.nodes = Table.find other s.dev.nodes) ∧
          t.dev.journal = (if fault then (s.dev.notable (.node key .fault after.misses)).journal else s.dev.journal) ∧
          t = { s with dev := { s.dev with
            regs := { s.dev.regs with status := stallStatus s.dev.journal t.dev.journal (status s.dev.regs.status) }
            nodes := t.dev.nodes, journal := t.dev.journal
            segments := s.dev.segments.set seg { g with exchange := none } } }) ∧
        (encoding.job = job → s.dev.issuesOf enc failed → ∃ t u, exec (.miss seg frame undeliveredFirst) s = .next t ∧
          s.dev.encoderFaulted u key enc failed ∧
          Table.find key t.dev.nodes = some after ∧
          (∀ other, other ≠ key → Table.find other t.dev.nodes = Table.find other s.dev.nodes) ∧
          t.dev.journal = (if fault then (u.notable (.node key .fault after.misses)).journal else u.journal) ∧
          t = { s with dev := { s.dev with
            regs := { s.dev.regs with status := stallStatus s.dev.journal t.dev.journal (status s.dev.regs.status) }
            walker := u.walker
            creds := { s.dev.creds with entries := u.creds.entries, deny := u.creds.deny, encoders := u.creds.encoders }
            rooms := u.rooms
            nodes := t.dev.nodes, journal := t.dev.journal
            segments := s.dev.segments.set seg { g with exchange := none } } }))) := by
  obtain ⟨-, -, -, -, -, hafterDoor⟩ := Node.missed_polled hmiss
  refine ⟨fun queue hqueue => ?_, fun c k hcarried hk hnext haddr hdis => ⟨fun r o hkind hdoor hgives => ?_,
    fun room r hunlatch hbar hdegraded hmem hfind hlink honly => ?_, fun image job enc encoding failed hencode hencoder henc hcurrent =>
      ⟨fun hjob => ?_, fun hjob hissues => ?_⟩⟩⟩
  · obtain ⟨undelivered, hmissed, hminded⟩ := Segment.missQueue_missed hqueue
    have hquiet : ∀ d : Device, Table.find key d.nodes = some after →
        d.deliver (undelivered.map fun c => { node := key, command := c }) = d := fun d hd =>
      Device.deliver_quiet undelivered hd fun c hc => by
        rcases hminded c hc with h | h | ⟨h, hbar⟩
        · exact .inl h
        · exact .inr (.inl h)
        · exact .inr (.inr ⟨h, hafterDoor.trans (of_decide_eq_true hbar).2⟩)
    refine ⟨fun hsession => ?_, fun room r hbar hbefore hafter haddr hdis hmem hfind hlink hsession honly => ?_⟩
    · exact exec_missQuiet hs hg hx hkey hn hframe hmiss hstatus hmissed (fun d hd _ => hquiet d hd) fun hne hdeg hbar =>
        hsession hbar (fun h => hne (h.trans hdeg.symm)) hdeg
    · exact exec_missDegraded hs hg hx hkey hn hframe hmiss hstatus hmissed hquiet hbar hbefore hafter haddr hdis hmem hfind hlink
        hsession honly
  · exact exec_missDoor hs hg hx hkey hn hframe hmiss hstatus hcarried hk hnext haddr hdis hkind hdoor hgives
  · exact exec_missUnlatch hs hg hx hkey hn hframe hmiss hstatus hcarried hk hnext hunlatch hdegraded hmem hfind hlink honly
  · refine exec_missQuiet hs hg hx hkey hn hframe hmiss hstatus (missedCommand_third hcarried hk hnext) (fun d hd hcreds => ?_)
      fun _ _ hbar => by rw [hencoder] at hbar; cases hbar
    subst hencode
    show d.encodeUndelivered key job = d
    rw [Device.encodeUndelivered_current (by rw [hcreds]; exact henc) hcurrent, if_neg hjob]
  · exact exec_missEncode hs hg hx hkey hn hframe hmiss hstatus hcarried hk hnext hencode hencoder henc hcurrent hjob hissues

end Sys2Proof.Machine
end

section
/-! A miss that takes its node out: the step, and what its owner is told (O46). -/

namespace Sys2Proof.Machine

open Sys2Proof

/-! ## What the owner may change -/

/-- The device `u` is `d` in all but the settlement list, the credentials' tables, the rooms and the journal. -/
def Device.kept (d u : Device) : Prop :=
  ∃ walker entries deny encoders rooms journal, u = { d with
    walker := walker, creds := { d.creds with entries := entries, deny := deny, encoders := encoders }
    rooms := rooms, journal := journal }

/-- A device keeps itself. -/
theorem Device.kept.refl (d : Device) : d.kept d :=
  ⟨d.walker, d.creds.entries, d.creds.deny, d.creds.encoders, d.rooms, d.journal, rfl⟩

/-- Changes that keep the rest, one after another. -/
theorem Device.kept.trans {d u v : Device} (h : d.kept u) (h' : u.kept v) : d.kept v := by
  obtain ⟨w, entries, deny, encoders, rooms, journal, rfl⟩ := h
  obtain ⟨w', entries', deny', encoders', rooms', journal', rfl⟩ := h'
  exact ⟨w', entries', deny', encoders', rooms', journal', rfl⟩

/-- An encoder fault of any encoder changes what its owner may change. -/
theorem Device.encoderFaulted.kept {d u : Device} {key : Nat} {enc : Encoder} {failed : List (Issue × Entry)}
    (h : d.encoderFaulted u key enc failed) : d.kept u :=
  ⟨_, _, _, _, _, _, h.frame⟩

/-- An entry freed changes what its owner may change. -/
theorem Device.freeEntry_kept (d : Device) (serial : Word) (e : Entry) : d.kept (d.freeEntry serial e) := by
  unfold Device.freeEntry
  dsimp only
  split_ifs
  · exact ⟨_, _, _, _, _, _, rfl⟩
  · exact ⟨_, _, _, _, _, _, rfl⟩

/-- An issue failed changes what its owner may change. -/
theorem Device.failIssue_kept (d : Device) (i : Issue) (code : ResultCode) : d.kept (d.failIssue i code) := by
  unfold Device.failIssue
  refine Device.kept.trans ?_ ⟨_, _, _, _, _, _, rfl⟩
  cases d.entryOf i.serial with
  | none => exact .refl d
  | some e =>
    have hdenied : (d.freeEntry i.serial e).kept
        (if e.deniedBefore then (d.freeEntry i.serial e).denySerial i.serial else d.freeEntry i.serial e) := by
      split_ifs
      · exact ⟨_, _, _, _, _, _, rfl⟩
      · exact .refl _
    exact ((d.freeEntry_kept i.serial e).trans hdenied).trans ⟨_, _, _, _, _, _, rfl⟩

/-- An encoder fault changes what its owner may change. -/
theorem Device.encoderFault_kept (d : Device) (key : Nat) : d.kept (d.encoderFault key) := by
  have hall : ∀ (issues : List Issue) (d : Device), d.kept (issues.foldl (fun acc i => acc.failIssue i .encoderFault) d) := by
    intro issues
    induction issues with
    | nil => exact fun d => .refl d
    | cons i rest ih => exact fun d => (d.failIssue_kept i .encoderFault).trans (ih _)
  unfold Device.encoderFault
  cases Table.find key d.creds.encoders with
  | none => exact .refl d
  | some enc => exact (hall _ d).trans ⟨_, _, _, _, _, _, rfl⟩

/-! ## The step -/

/-- The device with the node of an exchange taken out by a miss: its exchange over, its queued commands and its attention gone (R157). -/
def Device.missDropped (d : Device) (seg : Nat) (g : Segment) (key addr : Nat) (after : Node) : Device :=
  ((d.modifyNode key (fun _ => after)).setSegment seg { g.dropQueued addr with exchange := none }).leaveAttention key

section
variable {d : Device} {seg : Nat} {g : Segment} {x : Exchange} {after n : Node}

/-- The node and the segments of a node taken out. -/
theorem Device.missDropped_eq (hg : d.segment seg = g) (hx : g.exchange = some x) (haddr : x.addr < 256)
    (hn : Table.find (seg * 256 + x.addr) d.nodes = some n) (hpass : after.passOver = n.passOver) :
    Table.find (seg * 256 + x.addr) (d.missDropped seg g (seg * 256 + x.addr) x.addr after).nodes =
        some { after with passOver := if g.attention.contains x.addr then 0 else n.passOver } ∧
      (∀ other, other ≠ seg * 256 + x.addr →
        Table.find other (d.missDropped seg g (seg * 256 + x.addr) x.addr after).nodes = Table.find other d.nodes) ∧
      (d.missDropped seg g (seg * 256 + x.addr) x.addr after).segments = d.segments.set seg { g with
        exchange := none, queue := g.queue.filter (fun e => decide (e.addr ≠ x.addr))
        attention := g.attention.filter (fun a => decide (a ≠ x.addr)) } ∧
      d.missDropped seg g (seg * 256 + x.addr) x.addr after = { d with
        nodes := (d.missDropped seg g (seg * 256 + x.addr) x.addr after).nodes
        segments := (d.missDropped seg g (seg * 256 + x.addr) x.addr after).segments } := by
  have hlen := Device.exchange_length (hg ▸ hx)
  have hks : keySeg (seg * 256 + x.addr) = seg := by unfold keySeg; omega
  have hka : keyAddr (seg * 256 + x.addr) = x.addr := by unfold keyAddr; omega
  have hsegment : ((d.modifyNode (seg * 256 + x.addr) (fun _ => after)).setSegment seg
      { g.dropQueued x.addr with exchange := none }).segment seg = { g.dropQueued x.addr with exchange := none } := by
    rw [Device.segment_setSegment, if_pos ⟨rfl, hlen⟩]
  unfold Device.missDropped Device.leaveAttention
  simp only [hks, hka, hsegment]
  by_cases hc : g.attention.contains x.addr = true
  · rw [if_pos (show ({ g.dropQueued x.addr with exchange := none } : Segment).attention.contains x.addr = true from hc), if_pos hc]
    refine ⟨?_, fun other ho => ?_, ?_, rfl⟩
    · rw [Device.modifyNode_nodes, Table.find_modify_self, Device.setSegment_nodes, Device.setSegment_nodes, Device.modifyNode_nodes,
        Table.find_modify_self, hn]
      rfl
    · rw [Device.modifyNode_nodes, Table.find_modify_ne _ _ ho, Device.setSegment_nodes, Device.setSegment_nodes,
        Device.modifyNode_nodes, Table.find_modify_ne _ _ ho]
    · exact List.set_set ..
  · have hnotin : g.attention.filter (fun a => decide (a ≠ x.addr)) = g.attention := by
      rw [List.filter_eq_self]
      intro a ha
      have : a ≠ x.addr := fun h => hc (by rw [List.contains_iff_mem, ← h]; exact ha)
      exact decide_eq_true this
    rw [if_neg (show ¬ ({ g.dropQueued x.addr with exchange := none } : Segment).attention.contains x.addr = true from hc), if_neg hc,
      hnotin, ← hpass]
    refine ⟨?_, fun other ho => ?_, rfl, rfl⟩
    · rw [Device.setSegment_nodes, Device.modifyNode_nodes, Table.find_modify_self, hn]
      rfl
    · rw [Device.setSegment_nodes, Device.modifyNode_nodes, Table.find_modify_ne _ _ ho]

/-- The device with the node taken out stands as the one before, for the reports that follow. -/
theorem Device.missDropped_served (hg : d.segment seg = g) (hx : g.exchange = some x) (haddr : x.addr < 256)
    (hn : Table.find (seg * 256 + x.addr) d.nodes = some n) (hpass : after.passOver = n.passOver) :
    (d.missDropped seg g (seg * 256 + x.addr) x.addr after).Served (d.missDropped seg g (seg * 256 + x.addr) x.addr after) seg x.addr
      { after with passOver := if g.attention.contains x.addr then 0 else n.passOver } [] d := by
  obtain ⟨hnode, -, hsegments, hframe⟩ := Device.missDropped_eq hg hx haddr hn hpass
  refine ⟨hnode, fun _ _ => rfl, (Device.set_segment_self ?_).symm, hframe⟩
  rw [hsegments, List.length_set]
  exact Device.exchange_length (hg ▸ hx)

end

/-- A miss that takes its node out, whose owner, told of it, leaves the node as `m` and makes of the rest `u`. -/
theorem exec_missOut {s : State} {seg : Nat} {frame : Option (List Byte)} {undeliveredFirst : Bool} {g : Segment} {x : Exchange}
    {key : Nat} {n after m : Node} {event : NodeEvent} {count : Nat} {u : Device} (hs : s.settled) (hg : s.dev.segment seg = g)
    (hx : g.exchange = some x) (haddr : x.addr < 256) (hkey : key = seg * 256 + x.addr) (hn : Table.find key s.dev.nodes = some n)
    (hframe : ∀ bytes, frame = some bytes → answerValid x.addr bytes = false) (hmiss : n.missOut after event count)
    (hserved : (s.dev.missDropped seg g key x.addr after).Served
      ((s.dev.missDropped seg g key x.addr after).tellMiss key n.state after.state (discarded g x) undeliveredFirst) seg x.addr m [] u)
    (hkept : s.dev.kept u) :
    ∃ t : Device, exec (.miss seg frame undeliveredFirst) s = .next { s with dev := t } ∧ Table.find key t.nodes = some m ∧
      (∀ other, other ≠ key → Table.find other t.nodes = Table.find other s.dev.nodes) ∧
      t.journal = (u.notable (.node key event count)).journal ∧ t.walker = u.walker ∧ t.creds = u.creds ∧ t.rooms = u.rooms ∧
      u = { s.dev with walker := t.walker, creds := t.creds, rooms := t.rooms, journal := u.journal } ∧
      t = { s.dev with
        regs := { s.dev.regs with
          status := stallStatus s.dev.journal t.journal (if event = .fault then s.dev.regs.status ||| 256 else s.dev.regs.status) }
        creds := { s.dev.creds with entries := t.creds.entries, deny := t.creds.deny, encoders := t.creds.encoders }
        walker := t.walker, rooms := t.rooms, nodes := t.nodes, journal := t.journal
        segments := s.dev.segments.set seg { g with
          exchange := none, queue := g.queue.filter (fun e => decide (e.addr ≠ x.addr))
          attention := g.attention.filter (fun a => decide (a ≠ x.addr)) } } := by
  subst hkey
  obtain ⟨hafter, hout, hrecord, -, -, -, hpass⟩ := Node.missed_out hmiss
  have hisOut : after.state.isOut = true := by rcases hout with h | h <;> rw [h] <;> rfl
  obtain ⟨-, hothers, hsegments, -⟩ := Device.missDropped_eq hg hx haddr hn hpass
  have hlen : seg < s.dev.segments.length := Device.exchange_length (hg ▸ hx)
  have hdev : s.dev.miss seg frame undeliveredFirst = ((s.dev.missDropped seg g (seg * 256 + x.addr) x.addr after).tellMiss
      (seg * 256 + x.addr) n.state after.state (discarded g x) undeliveredFirst).recordMiss (seg * 256 + x.addr) (missRecord n after) := by
    rw [Device.miss_invalid undeliveredFirst (hg ▸ hx) hframe hn]
    unfold Device.missAt
    simp only [hafter, hisOut, hg]
    rfl
  have hbase : (s.dev.missDropped seg g (seg * 256 + x.addr) x.addr after).segment seg = { g with
      exchange := none, queue := g.queue.filter (fun e => decide (e.addr ≠ x.addr))
      attention := g.attention.filter (fun a => decide (a ≠ x.addr)) } := by
    rw [Device.segment, hsegments, List.getD_eq_getElem?_getD, List.getElem?_set_self hlen, Option.getD_some]
  generalize s.dev.missDropped seg g (seg * 256 + x.addr) x.addr after = base at *
  generalize base.tellMiss (seg * 256 + x.addr) n.state after.state (discarded g x) undeliveredFirst = told at hdev hserved
  rw [hrecord] at hdev
  have hrecorded : ∃ e,
      base.Served (told.recordMiss (seg * 256 + x.addr) (some (event, count, decide (event = .fault)))) seg x.addr m [] e ∧
      e = { u with
        regs := { u.regs with status := if event = .fault then u.regs.status ||| 256 else u.regs.status }
        journal := (u.notable (.node (seg * 256 + x.addr) event count)).journal } := by
    by_cases hevent : event = .fault
    · subst hevent
      exact ⟨_, (hserved.latch .nodeFault).record (.node (seg * 256 + x.addr) .fault count) {} .notable, rfl⟩
    · simp only [hevent, decide_false, if_false]
      exact ⟨_, hserved.record (.node (seg * 256 + x.addr) event count) {} .notable, rfl⟩
  obtain ⟨e, hserved2, he⟩ := hrecorded
  generalize told.recordMiss (seg * 256 + x.addr) (some (event, count, decide (event = .fault))) = final at hdev hserved2
  have hstate : s.onDevice (fun d => d.miss seg frame undeliveredFirst) = { s with dev := final } :=
    congrArg (fun d => { s with dev := d }) hdev
  have hfinal := hserved2.frame
  have hlast : final.segments = s.dev.segments.set seg { g with
      exchange := none, queue := g.queue.filter (fun e => decide (e.addr ≠ x.addr))
      attention := g.attention.filter (fun a => decide (a ≠ x.addr)) } := by
    rw [hserved2.segments, hbase, hsegments]
    exact List.set_set ..
  obtain ⟨w, entries, deny, encoders, rooms, journal, rfl⟩ := hkept
  have hcommit := commit_of_settled s (fun t => t.onDevice (fun d => d.miss seg frame undeliveredFirst)) (by
    rw [hstate]
    show final.reports = []
    rw [hfinal, he]
    exact hs)
  rw [hstate] at hcommit
  refine ⟨_, (exec_miss seg frame undeliveredFirst s).trans hcommit, hserved2.node, fun other ho =>
    (hserved2.others other ho).trans (hothers other ho), ?_⟩
  rw [hlast] at hfinal
  generalize final.nodes = nodes at hfinal
  subst hfinal he
  exact ⟨rfl, rfl, rfl, rfl, rfl, rfl⟩

end Sys2Proof.Machine
end

section
/-! A miss that takes its node out: what the owner's parts make of it (O46). -/

namespace Sys2Proof.Machine

open Sys2Proof

/-- Reports taken one after another keep what each of them keeps. -/
theorem Device.deliver_keeps {P : Device → Prop} {key : Nat} (cs : List Command)
    (hstep : ∀ d, ∀ c ∈ cs, P d → P (d.commandUndelivered key c)) {d : Device} (h : P d) :
    P (d.deliver (cs.map fun c => { node := key, command := c })) := by
  induction cs generalizing d with
  | nil => exact h
  | cons c rest ih => exact ih (fun d c hc => hstep d c (List.mem_cons_of_mem _ hc)) (hstep d c List.mem_cons_self h)

/-- A node whose owner has been told that it is out: a door goes out of service (R79). -/
def Node.toldOut (n : Node) : Node :=
  if n.kind.isDoor then { n with door := n.door.map Door.outOfService } else n

/-- A node told out keeps its state and its kind. -/
theorem Node.toldOut_frame (n : Node) : n.toldOut.state = n.state ∧ n.toldOut.kind = n.kind := by
  unfold Node.toldOut
  split_ifs <;> exact ⟨rfl, rfl⟩

/-- A node without a door record is told out as it stands. -/
theorem Node.toldOut_doorless {n : Node} (h : n.door = none) : n.toldOut = n := by
  unfold Node.toldOut
  rw [h]
  split_ifs
  · cases n
    cases h
    rfl
  · rfl

/-- A door out of service (R79). -/
theorem Door.outOfService_eq (r : Door) : r.outOfService =
    if r.state = .holdOpen ∨ r.state = .emergency then { r with releaseTimer := none, heldTimer := none, delayTimer := none }
    else { r with state := .unknown, contact := .unseen, releaseTimer := none, heldTimer := none, delayTimer := none } := by
  unfold Door.outOfService
  simp only [Bool.or_eq_true, decide_eq_true_eq]
  rfl

section
variable {b d d2 u : Device} {seg addr key : Nat} {m : Node} {before after : NodeState}

/-- A device kept has no report more. -/
theorem Device.kept.reports_eq (h : d.kept u) : u.reports = d.reports := by
  obtain ⟨w, entries, deny, encoders, rooms, journal, rfl⟩ := h
  rfl

/-- An event at the door of a node that is out, which hands no command. -/
theorem Device.Served.doorOut (h : b.Served d2 seg addr m [] u) (hkey : key = seg * 256 + addr) {r : Door} (hdoor : m.door = some r)
    (f : Node → Door → DoorOut) {r' : Door} (hf : f m r = .same r') :
    b.Served (d2.doorEvent key f) seg addr { m with door := some r' } [] u := by
  subst hkey
  have hevent : d2.doorEvent (seg * 256 + addr) f = d2.modifyNode (seg * 256 + addr) (fun n => { n with door := some r' }) := by
    unfold Device.doorEvent
    rw [h.node]
    simp only [hdoor, hf]
    unfold Device.applyDoor DoorOut.same
    cases m.state.isOut <;> rfl
  rw [hevent]
  exact h.modifyNode _

/-- A door's command told undelivered at a node that is out: nothing (R78). -/
theorem Device.Served.doorOut_undelivered (h : b.Served d2 seg addr m [] u) (hkey : key = seg * 256 + addr)
    (hout : m.state.isOut = true) (c : Command) :
    b.Served (d2.doorEvent key (fun n r => if n.state.isOut then .same r else r.undelivered c)) seg addr m [] u := by
  cases hdoor : m.door with
  | none =>
    rw [Device.doorEvent_doorless (hkey ▸ h.node) hdoor]
    exact h
  | some r =>
    have hserved := h.doorOut hkey hdoor (fun n r => if n.state.isOut then .same r else r.undelivered c) (r' := r) (if_pos hout)
    rwa [← hdoor] at hserved

/-- A command that no minibar and no encoder minds, told undelivered at a node that is out: nothing. -/
theorem Device.Served.outQuiet (h : b.Served d2 seg addr m [] u) (hkey : key = seg * 256 + addr) (hout : m.state.isOut = true)
    {c : Command} (hunlatch : c ≠ .unlatch) (hencode : ∀ image job, c ≠ .encode image job) :
    b.Served (d2.commandUndelivered key c) seg addr m [] u := by
  cases c with
  | relock => exact h.doorOut_undelivered hkey hout _
  | release seconds => exact h.doorOut_undelivered hkey hout _
  | hold => exact h.doorOut_undelivered hkey hout _
  | signal => exact h
  | abandon => exact h
  | unlatch => exact absurd rfl hunlatch
  | encode image job => exact absurd rfl (hencode image job)

/-- An encoder fault changes what its owner may change. -/
theorem Device.Served.encoderFault (h : b.Served d2 seg addr m [] u) (hkept : d.kept u) :
    ∃ u', b.Served (d2.encoderFault key) seg addr m [] u' ∧ d.kept u' := by
  obtain ⟨w, entries, deny, encoders, rooms, journal, hfault⟩ := d2.encoderFault_kept key
  rw [hfault]
  refine ⟨_, h.put _ rooms journal w, hkept.trans ⟨w, entries, deny, encoders, rooms, journal, ?_⟩⟩
  rw [h.creds_eq]

/-- An UNLATCH told undelivered changes the rooms and the journal alone. -/
theorem Device.Served.unlatchOut (h : b.Served d2 seg addr m [] u) :
    ∃ rooms journal, b.Served (d2.unlatchUndelivered key) seg addr m [] { u with rooms := rooms, journal := journal } := by
  unfold Device.unlatchUndelivered
  cases d2.barRoom key with
  | none => exact ⟨u.rooms, u.journal, h⟩
  | some p =>
    obtain ⟨room, r⟩ := p
    dsimp only
    split_ifs
    · exact ⟨_, _, (h.giveBack.modifyRoom room Room.closeSession).record (.unsettled room key .undelivered) {} .notable⟩
    · exact ⟨u.rooms, u.journal, h⟩

/-- A command told undelivered at a node that is out. -/
theorem Device.Served.outDelivered (h : b.Served d2 seg addr m [] u) (hkept : d.kept u) (hkey : key = seg * 256 + addr)
    (hout : m.state.isOut = true) (c : Command) :
    ∃ u', b.Served (d2.commandUndelivered key c) seg addr m [] u' ∧ d.kept u' := by
  by_cases hunlatch : c = .unlatch
  · subst hunlatch
    obtain ⟨rooms, journal, hserved⟩ := h.unlatchOut (key := key)
    exact ⟨_, hserved, hkept.trans ⟨_, _, _, _, _, _, rfl⟩⟩
  · by_cases hencode : ∃ image job, c = .encode image job
    · obtain ⟨image, job, rfl⟩ := hencode
      show ∃ u', b.Served (d2.encodeUndelivered key job) seg addr m [] u' ∧ d.kept u'
      unfold Device.encodeUndelivered
      split_ifs
      · exact h.encoderFault hkept
      · exact ⟨u, h, hkept⟩
    · exact ⟨u, h.outQuiet hkey hout hunlatch fun image job hc => hencode ⟨image, job, hc⟩, hkept⟩

/-- The door of a node told that it is out. -/
theorem Device.Served.outTold_door (h : b.Served d2 seg addr m [] u) (hkey : key = seg * 256 + addr)
    (hne : before ≠ after) (hafter : after = .faulted ∨ after = .retryWait) (hdoor : m.kind.isDoor = true) :
    b.Served (d2.ownerTold key before after) seg addr m.toldOut [] u := by
  have htold : d2.ownerTold key before after = d2.doorNodeChanged key before after := by
    unfold Device.ownerTold
    rw [hkey, h.node]
    simp only [if_neg hne]
    cases hkind : m.kind with
    | roomDoor => rfl
    | commonDoor => rfl
    | shoreGate => rfl
    | egressDoor => rfl
    | minibar => rw [hkind] at hdoor; cases hdoor
    | encoder => rw [hkind] at hdoor; cases hdoor
  rw [htold]
  unfold Device.doorNodeChanged Node.toldOut
  rw [if_pos hdoor]
  cases hr : m.door with
  | none =>
    rw [Device.doorEvent_doorless (hkey ▸ h.node) hr, Option.map_none, ← hr]
    exact h
  | some r =>
    refine h.doorOut hkey hr _ ?_
    rcases hafter with rfl | rfl <;> rfl

/-- A node of a minibar that is out is told to the minibar unit alone. -/
theorem Device.Served.outTold_bar (h : b.Served d2 seg addr m [] u) (hkey : key = seg * 256 + addr)
    (hne : before ≠ after) (hbar : m.kind = .minibar) :
    d2.ownerTold key before after = d2.barNodeChanged key before after ∧ m.toldOut = m := by
  refine ⟨?_, ?_⟩
  · unfold Device.ownerTold
    rw [hkey, h.node]
    simp only [if_neg hne, hbar]
  · unfold Node.toldOut
    rw [hbar]
    rfl

/-- The encoder of a node told that it is out: an encoder fault (R19). -/
theorem Device.Served.outTold_encoder (h : b.Served d2 seg addr m [] u) (hkey : key = seg * 256 + addr)
    (hne : before ≠ after) (hafter : after = .faulted ∨ after = .retryWait) (hencoder : m.kind = .encoder) :
    d2.ownerTold key before after = d2.encoderFault key ∧ m.toldOut = m := by
  refine ⟨?_, ?_⟩
  · unfold Device.ownerTold Device.encoderNodeChanged
    rw [hkey, h.node]
    simp only [if_neg hne, hencoder]
    rcases hafter with rfl | rfl <;> rfl
  · unfold Node.toldOut
    rw [hencoder]
    rfl

/-- A session ended by its node going out (R94). -/
theorem Device.Served.endOut (h : b.Served d2 seg addr m [] u) {room : Nat} {r : Room} (hafter : after = .faulted ∨ after = .retryWait)
    (hroom : d2.barRoom key = some (room, r)) (hsession : r.bar.inSession = true) :
    b.Served (d2.barNodeChanged key before after) seg addr m []
      ((u.modifyRoom room (fun r => { r.closeSession with unsettled := true })).record (.unsettled room key .nodeFault) {} .reserved) := by
  have hended : d2.barNodeChanged key before after = d2.endUnsettled key room .nodeFault false := by
    unfold Device.barNodeChanged
    simp only [hroom, hsession, if_true]
    rcases hafter with rfl | rfl <;> rfl
  rw [hended]
  exact (h.modifyRoom room _).record _ {} .reserved

/-- The minibar unit told that a node is out, where no room that links it is in session. -/
theorem Device.barNodeChanged_idle (hidle : ∀ room r, d.barRoom key = some (room, r) → r.bar.inSession = false) :
    d.barNodeChanged key before after = d := by
  unfold Device.barNodeChanged
  cases hroom : d.barRoom key with
  | none => rfl
  | some p =>
    obtain ⟨room, r⟩ := p
    simp only [hidle room r hroom, Bool.false_eq_true, if_false]

/-- The minibar unit told that a node is out changes the rooms and the journal alone. -/
theorem Device.Served.barOut (h : b.Served d2 seg addr m [] u) (hkey : key = seg * 256 + addr) (hne : before ≠ after)
    (hafter : after = .faulted ∨ after = .retryWait) (hbar : m.kind = .minibar) :
    ∃ rooms journal, b.Served (d2.ownerTold key before after) seg addr m [] { u with rooms := rooms, journal := journal } := by
  rw [(h.outTold_bar (before := before) (after := after) hkey hne hbar).1]
  by_cases hsession : ∃ room r, d2.barRoom key = some (room, r) ∧ r.bar.inSession = true
  · obtain ⟨room, r, hroom, hsession⟩ := hsession
    exact ⟨_, _, h.endOut hafter hroom hsession⟩
  · rw [Device.barNodeChanged_idle fun room r hroom => Bool.eq_false_iff.mpr fun hr => hsession ⟨room, r, hroom, hr⟩]
    exact ⟨u.rooms, u.journal, h⟩

/-- The owner told that its node is out. -/
theorem Device.Served.outTold (h : b.Served d2 seg addr m [] u) (hkept : d.kept u) (hkey : key = seg * 256 + addr)
    (hne : before ≠ after) (hafter : after = .faulted ∨ after = .retryWait) :
    ∃ u', b.Served (d2.ownerTold key before after) seg addr m.toldOut [] u' ∧ d.kept u' := by
  by_cases hdoor : m.kind.isDoor = true
  · exact ⟨u, h.outTold_door hkey hne hafter hdoor, hkept⟩
  · by_cases hbar : m.kind = .minibar
    · rw [(h.outTold_bar (before := before) (after := after) hkey hne hbar).2]
      obtain ⟨rooms, journal, hserved⟩ := h.barOut hkey hne hafter hbar
      exact ⟨_, hserved, hkept.trans ⟨_, _, _, _, _, _, rfl⟩⟩
    · have hencoder : m.kind = .encoder := by
        cases hkind : m.kind <;> simp_all [NodeKind.isDoor]
      obtain ⟨htold, hsame⟩ := h.outTold_encoder hkey hne hafter hencoder
      rw [htold, hsame]
      exact h.encoderFault hkept

/-- The owner told of its commands undelivered and that its node is out, in either order. -/
theorem Device.Served.toldOut (h : b.Served d2 seg addr m [] u) (hkept : d.kept u) (hreports : d.reports = [])
    (hkey : key = seg * 256 + addr) (hne : before ≠ after) (hafter : after = .faulted ∨ after = .retryWait)
    (hout : m.state.isOut = true) (cs : List Command) (undeliveredFirst : Bool) :
    ∃ u', b.Served (d2.tellMiss key before after cs undeliveredFirst) seg addr m.toldOut [] u' ∧ d.kept u' := by
  have hdeliver : ∀ m : Node, m.state.isOut = true → ∀ d2, (∃ u, b.Served d2 seg addr m [] u ∧ d.kept u) →
      (∃ u, b.Served (d2.deliver (cs.map fun c => { node := key, command := c })) seg addr m [] u ∧ d.kept u) ∧
        (d2.deliver (cs.map fun c => { node := key, command := c })).reports = [] := fun m hm d2 h2 => by
    obtain ⟨u', hu, hk⟩ := Device.deliver_keeps (P := fun d2 => ∃ u, b.Served d2 seg addr m [] u ∧ d.kept u) cs
      (fun _ c _ ⟨_, hu, hk⟩ => hu.outDelivered hk hkey hm c) h2
    exact ⟨⟨u', hu, hk⟩, hu.reports_eq.trans (hk.reports_eq.trans hreports)⟩
  exact Device.tellMiss_either (P0 := fun d2 => ∃ u, b.Served d2 seg addr m [] u ∧ d.kept u)
    (Pd := fun d2 => ∃ u, b.Served d2 seg addr m [] u ∧ d.kept u)
    (Po := fun d2 => ∃ u, b.Served d2 seg addr m.toldOut [] u ∧ d.kept u)
    (P := fun d2 => ∃ u, b.Served d2 seg addr m.toldOut [] u ∧ d.kept u) undeliveredFirst ⟨u, h, hkept⟩
    (hdeliver m hout) (fun _ ⟨_, hu, hk⟩ => hu.outTold hk hkey hne hafter) (fun _ ⟨_, hu, hk⟩ => hu.outTold hk hkey hne hafter)
    (hdeliver m.toldOut (by rw [m.toldOut_frame.1]; exact hout))

end

end Sys2Proof.Machine
end

section
/-! A miss that takes its node out, by its owner (O46). -/

namespace Sys2Proof.Machine

open Sys2Proof

/-- The commands discarded are those that stand for the address. -/
theorem mem_discarded {g : Segment} {x : Exchange} {c : Command} : c ∈ discarded g x ↔ g.standing x c := by
  unfold discarded Segment.standing Segment.pendingOf
  have hcarried : (c ∈ match x.carried with | none => [] | some (c', _) => [c']) ↔ ∃ k, x.carried = some (c, k) := by
    cases hx : x.carried with
    | none => simp
    | some p =>
      obtain ⟨c', k⟩ := p
      simp [eq_comm]
  have hnext : (c ∈ match x.next with | none => [] | some c' => [c']) ↔ x.next = some c := by
    cases hx : x.next with
    | none => simp
    | some c' => simp [eq_comm]
  simp only [List.mem_append, List.mem_map, List.mem_filter, decide_eq_true_eq]
  rw [or_assoc]
  refine or_congr (exists_congr fun e => by rw [and_assoc]) (or_congr ?_ ?_)
  · exact hcarried
  · exact hnext

section
variable {b d d2 u : Device} {seg addr key : Nat} {m : Node} {before after : NodeState} {cs : List Command}

/-- A door whose node goes out, with commands of a door discarded: the node alone changes. -/
theorem Device.Served.toldOut_door (h : b.Served d2 seg addr m [] u) (hreports : u.reports = [])
    (hkey : key = seg * 256 + addr) (hne : before ≠ after) (hafter : after = .faulted ∨ after = .retryWait)
    (hout : m.state.isOut = true) (hdoor : m.kind.isDoor = true)
    (hcs : ∀ c ∈ cs, c = .relock ∨ c = .hold ∨ c = .signal ∨ ∃ seconds, c = .release seconds) (undeliveredFirst : Bool) :
    b.Served (d2.tellMiss key before after cs undeliveredFirst) seg addr m.toldOut [] u := by
  have hdeliver : ∀ m : Node, m.state.isOut = true → ∀ d2, b.Served d2 seg addr m [] u →
      b.Served (d2.deliver (cs.map fun c => { node := key, command := c })) seg addr m [] u ∧
        (d2.deliver (cs.map fun c => { node := key, command := c })).reports = [] := fun m hm d2 h2 => by
    have hserved := Device.deliver_keeps (P := fun d2 => b.Served d2 seg addr m [] u) cs (fun d c hc hd => by
      rcases hcs c hc with rfl | rfl | rfl | ⟨seconds, rfl⟩ <;>
        exact hd.outQuiet hkey hm (fun h => by cases h) (fun _ _ h => by cases h)) h2
    exact ⟨hserved, hserved.reports_eq.trans hreports⟩
  exact Device.tellMiss_either (P0 := fun d2 => b.Served d2 seg addr m [] u) (Pd := fun d2 => b.Served d2 seg addr m [] u)
    (Po := fun d2 => b.Served d2 seg addr m.toldOut [] u) (P := fun d2 => b.Served d2 seg addr m.toldOut [] u) undeliveredFirst h
    (hdeliver m hout) (fun _ hd => hd.outTold_door hkey hne hafter hdoor) (fun _ hd => hd.outTold_door hkey hne hafter hdoor)
    (hdeliver m.toldOut (by rw [m.toldOut_frame.1]; exact hout))

/-! ## A minibar -/

/-- No room that links the node is in session or awaits an UNLATCH. -/
def Device.barIdle (d : Device) (key : Nat) : Prop :=
  ∀ i r, (i, r) ∈ d.rooms → r.barLink = some key → r.bar.inSession = false ∧ r.unlatchPending = false

/-- The minibar's commands told undelivered, no room in session or awaiting an UNLATCH: nothing. -/
theorem Device.Served.barIdle_delivered (h : b.Served d2 seg addr m [] u) (hidle : u.barIdle key) (hkey : key = seg * 256 + addr)
    (hout : m.state.isOut = true) (hcs : ∀ c ∈ cs, c = .relock ∨ c = .unlatch ∨ c = .signal) :
    b.Served (d2.deliver (cs.map fun c => { node := key, command := c })) seg addr m [] u := by
  refine Device.deliver_keeps (P := fun d2 => b.Served d2 seg addr m [] u) cs (fun d c hc hd => ?_) h
  rcases hcs c hc with rfl | rfl | rfl
  · exact hd.outQuiet hkey hout (fun h => by cases h) (fun _ _ h => by cases h)
  · have hnothing : d.unlatchUndelivered key = d := by
      unfold Device.unlatchUndelivered
      cases hroom : d.barRoom key with
      | none => rfl
      | some p =>
        obtain ⟨room, r⟩ := p
        obtain ⟨hmem, hlink⟩ := Device.barRoom_linked hroom
        rw [hd.rooms_frame] at hmem
        simp only [(hidle room r hmem hlink).2, Bool.false_eq_true, if_false]
    show b.Served (d.unlatchUndelivered key) seg addr m [] u
    rw [hnothing]
    exact hd
  · exact hd

/-- The minibar unit told that a node is out, no room in session. -/
theorem Device.Served.barIdle_told (h : b.Served d2 seg addr m [] u) (hidle : u.barIdle key) (hkey : key = seg * 256 + addr)
    (hne : before ≠ after) (hbar : m.kind = .minibar) : b.Served (d2.ownerTold key before after) seg addr m [] u := by
  rw [(h.outTold_bar (before := before) (after := after) hkey hne hbar).1, Device.barNodeChanged_idle fun room r hroom => by
    obtain ⟨hmem, hlink⟩ := Device.barRoom_linked hroom
    rw [h.rooms_frame] at hmem
    exact (hidle room r hmem hlink).1]
  exact h

/-- A minibar whose node goes out: the rooms and the journal alone change but for the node. -/
theorem Device.Served.toldOut_bar (h : b.Served d2 seg addr m [] u) (hreports : u.reports = []) (hkey : key = seg * 256 + addr)
    (hne : before ≠ after) (hafter : after = .faulted ∨ after = .retryWait) (hout : m.state.isOut = true) (hbar : m.kind = .minibar)
    (hcs : ∀ c ∈ cs, c = .relock ∨ c = .unlatch ∨ c = .signal) (undeliveredFirst : Bool) :
    ∃ rooms journal,
      b.Served (d2.tellMiss key before after cs undeliveredFirst) seg addr m [] { u with rooms := rooms, journal := journal } := by
  have hdeliver : ∀ d2, (∃ rooms journal, b.Served d2 seg addr m [] { u with rooms := rooms, journal := journal }) →
      (∃ rooms journal, b.Served (d2.deliver (cs.map fun c => { node := key, command := c })) seg addr m []
        { u with rooms := rooms, journal := journal }) ∧
      (d2.deliver (cs.map fun c => { node := key, command := c })).reports = [] := fun d2 h2 => by
    have hserved := Device.deliver_keeps
      (P := fun d2 => ∃ rooms journal, b.Served d2 seg addr m [] { u with rooms := rooms, journal := journal }) (key := key) cs
      (fun d c hc ⟨rooms, journal, hd⟩ => by
        rcases hcs c hc with rfl | rfl | rfl
        · exact ⟨rooms, journal, hd.outQuiet hkey hout (fun h => by cases h) (fun _ _ h => by cases h)⟩
        · obtain ⟨rooms', journal', hd'⟩ := hd.unlatchOut (key := key)
          exact ⟨rooms', journal', hd'⟩
        · exact ⟨rooms, journal, hd⟩) h2
    obtain ⟨rooms, journal, hd⟩ := hserved
    exact ⟨⟨rooms, journal, hd⟩, hd.reports_eq.trans hreports⟩
  have htold : ∀ d2, (∃ rooms journal, b.Served d2 seg addr m [] { u with rooms := rooms, journal := journal }) →
      ∃ rooms journal, b.Served (d2.ownerTold key before after) seg addr m [] { u with rooms := rooms, journal := journal } :=
    fun _ ⟨_, _, hd⟩ => by
      obtain ⟨rooms', journal', hd'⟩ := hd.barOut hkey hne hafter hbar
      exact ⟨rooms', journal', hd'⟩
  exact Device.tellMiss_either
    (P0 := fun d2 => ∃ rooms journal, b.Served d2 seg addr m [] { u with rooms := rooms, journal := journal })
    (Pd := fun d2 => ∃ rooms journal, b.Served d2 seg addr m [] { u with rooms := rooms, journal := journal })
    (Po := fun d2 => ∃ rooms journal, b.Served d2 seg addr m [] { u with rooms := rooms, journal := journal })
    (P := fun d2 => ∃ rooms journal, b.Served d2 seg addr m [] { u with rooms := rooms, journal := journal }) undeliveredFirst
    ⟨u.rooms, u.journal, h⟩ hdeliver htold htold hdeliver

/-- A minibar that no session concerns. -/
theorem Device.Served.toldOut_idle (h : b.Served d2 seg addr m [] u) (hidle : u.barIdle key) (hreports : u.reports = [])
    (hkey : key = seg * 256 + addr) (hne : before ≠ after) (hout : m.state.isOut = true) (hbar : m.kind = .minibar)
    (hcs : ∀ c ∈ cs, c = .relock ∨ c = .unlatch ∨ c = .signal) (undeliveredFirst : Bool) :
    b.Served (d2.tellMiss key before after cs undeliveredFirst) seg addr m [] u := by
  have hdeliver : ∀ d2, b.Served d2 seg addr m [] u →
      b.Served (d2.deliver (cs.map fun c => { node := key, command := c })) seg addr m [] u ∧
        (d2.deliver (cs.map fun c => { node := key, command := c })).reports = [] := fun d2 h2 =>
    ⟨h2.barIdle_delivered hidle hkey hout hcs, (h2.barIdle_delivered hidle hkey hout hcs).reports_eq.trans hreports⟩
  exact Device.tellMiss_either (P0 := fun d2 => b.Served d2 seg addr m [] u) (Pd := fun d2 => b.Served d2 seg addr m [] u)
    (Po := fun d2 => b.Served d2 seg addr m [] u) (P := fun d2 => b.Served d2 seg addr m [] u) undeliveredFirst h
    hdeliver (fun _ hd => hd.barIdle_told hidle hkey hne hbar) (fun _ hd => hd.barIdle_told hidle hkey hne hbar) hdeliver

/-- A room whose minibar is at rest with no UNLATCH pending leaves it idle where no other room links the node. -/
theorem Device.barIdle_closed {room : Nat} {r : Room} {f : Room → Room}
    (hf : ∀ r, (f r).bar.inSession = false ∧ (f r).unlatchPending = false ∧ (f r).barLink = r.barLink)
    (honly : ∀ q ∈ d.rooms, q.2.barLink = some key → q = (room, r)) : (d.modifyRoom room f).barIdle key := by
  intro i r' hmem hr'
  obtain ⟨q, hq, hqe⟩ := List.mem_map.mp (show (i, r') ∈ Table.modify room f d.rooms from hmem)
  by_cases hroom : q.1 = room
  · rw [if_pos hroom] at hqe
    obtain ⟨rfl, rfl⟩ := Prod.mk.inj hqe
    exact ⟨(hf q.2).1, (hf q.2).2.1⟩
  · rw [if_neg hroom] at hqe
    subst hqe
    exact absurd (congrArg Prod.fst (honly _ hq hr')) hroom

/-- A session closed leaves the minibar at rest with no UNLATCH pending. -/
theorem Room.closeSession_idle (r : Room) :
    r.closeSession.bar.inSession = false ∧ r.closeSession.unlatchPending = false ∧ r.closeSession.barLink = r.barLink := by
  rw [Room.closeSession_eq]
  refine ⟨?_, rfl, rfl⟩
  dsimp only
  split_ifs <;> rfl

section
variable {room : Nat} {r : Room}

/-- A session that ends with its UNLATCH undelivered (R92). -/
def Device.unlatchLost (d : Device) (key room : Nat) : Device :=
  (d.giveBack.modifyRoom room Room.closeSession).notable (.unsettled room key .undelivered)

/-- A session that ends with its node (R94). -/
def Device.nodeLost (d : Device) (key room : Nat) : Device :=
  (d.modifyRoom room (fun r => { r.closeSession with unsettled := true })).record (.unsettled room key .nodeFault) {} .reserved

/-- The minibar is idle behind either end of its session. -/
theorem Device.barIdle_lost (honly : ∀ q ∈ d.rooms, q.2.barLink = some key → q = (room, r)) :
    (d.unlatchLost key room).barIdle key ∧ (d.nodeLost key room).barIdle key :=
  ⟨Device.barIdle_closed (d := d) Room.closeSession_idle honly,
    Device.barIdle_closed (d := d) (f := fun r => { r.closeSession with unsettled := true }) Room.closeSession_idle honly⟩

variable (h : b.Served d2 seg addr m [] u) (hkey : key = seg * 256 + addr) (hout : m.state.isOut = true)
  (hcs : ∀ c ∈ cs, c = .relock ∨ c = .unlatch ∨ c = .signal) (hmem : (room, r) ∈ u.rooms) (hlink : r.barLink = some key)
  (honly : ∀ q ∈ u.rooms, q.2.barLink = some key → q = (room, r))
include h hkey hout hcs hmem hlink honly

/-- The commands of a minibar told undelivered: the first UNLATCH ends a session that awaits it. -/
theorem Device.Served.barDelivered :
    (r.unlatchPending = true ∧ .unlatch ∈ cs →
      b.Served (d2.deliver (cs.map fun c => { node := key, command := c })) seg addr m [] (u.unlatchLost key room)) ∧
    (¬ (r.unlatchPending = true ∧ .unlatch ∈ cs) →
      b.Served (d2.deliver (cs.map fun c => { node := key, command := c })) seg addr m [] u) := by
  induction cs generalizing d2 with
  | nil => exact ⟨fun hin => by simp at hin, fun _ => h⟩
  | cons c rest ih =>
    have hrest : ∀ c ∈ rest, c = .relock ∨ c = .unlatch ∨ c = .signal := fun c hc => hcs c (List.mem_cons_of_mem _ hc)
    show (_ → b.Served ((d2.commandUndelivered key c).deliver (rest.map fun c => { node := key, command := c })) seg addr m [] _) ∧
      (_ → b.Served ((d2.commandUndelivered key c).deliver (rest.map fun c => { node := key, command := c })) seg addr m [] _)
    by_cases hunlatch : c = .unlatch
    · subst hunlatch
      have hserved := h.unlatchUndelivered hmem hlink honly
      cases hpending : r.unlatchPending with
      | true =>
        rw [hpending, if_pos rfl] at hserved
        exact ⟨fun _ => hserved.barIdle_delivered (Device.barIdle_lost honly).1 hkey hout hrest,
          fun hno => absurd ⟨rfl, List.mem_cons_self⟩ hno⟩
      | false =>
        rw [hpending, if_neg Bool.false_ne_true] at hserved
        exact ⟨fun hin => absurd hin.1 Bool.false_ne_true, fun _ => (ih hserved hrest).2 fun hin => by
          rw [hpending] at hin
          exact Bool.false_ne_true hin.1⟩
    · have hquiet := h.outQuiet hkey hout hunlatch fun image job hc => by
        rcases hcs c List.mem_cons_self with h | h | h <;> rw [h] at hc <;> cases hc
      have hin : .unlatch ∈ c :: rest ↔ .unlatch ∈ rest := by
        rw [List.mem_cons, or_iff_right fun he => hunlatch he.symm]
      rw [hin]
      exact ih hquiet hrest

/-- A minibar in session whose node goes out: its session ends once, by the first of the reports that ends it (R92, R94). -/
theorem Device.Served.toldOut_session (hreports : u.reports = []) (hne : before ≠ after) (hafter : after = .faulted ∨ after = .retryWait)
    (hbar : m.kind = .minibar) (hsession : r.bar.inSession = true) {undeliveredFirst undelivered : Bool}
    (hundelivered : undelivered = true ↔ undeliveredFirst = true ∧ r.unlatchPending = true ∧ .unlatch ∈ cs) :
    b.Served (d2.tellMiss key before after cs undeliveredFirst) seg addr m []
      (if undelivered then u.unlatchLost key room else u.nodeLost key room) := by
  have hidle := Device.barIdle_lost honly
  have hended : ∀ d2, b.Served d2 seg addr m [] u → b.Served (d2.ownerTold key before after) seg addr m [] (u.nodeLost key room) :=
    fun d2 hd => by
      rw [(hd.outTold_bar (before := before) (after := after) hkey hne hbar).1]
      exact hd.endOut hafter (Device.barRoom_only (by rw [hd.rooms_frame]; exact hmem) hlink (by rw [hd.rooms_frame]; exact honly)) hsession
  unfold Device.tellMiss
  dsimp only
  cases undeliveredFirst with
  | false =>
    have hfalse : undelivered = false := by
      rw [Bool.eq_false_iff]
      exact fun ht => Bool.false_ne_true (hundelivered.mp ht).1
    have hserved := (hended d2 h).barIdle_delivered hidle.2 hkey hout hcs
    rw [if_neg Bool.false_ne_true, hfalse, if_neg Bool.false_ne_true, Device.takeReports_of_nil (hserved.reports_eq.trans hreports)]
    exact hserved
  | true =>
    obtain ⟨hlost, hkeep⟩ := h.barDelivered hkey hout hcs hmem hlink honly
    rw [if_pos rfl]
    by_cases hin : r.unlatchPending = true ∧ .unlatch ∈ cs
    · rw [hundelivered.mpr ⟨rfl, hin⟩, if_pos rfl, Device.takeReports_of_nil ((hlost hin).reports_eq.trans hreports)]
      exact (hlost hin).barIdle_told hidle.1 hkey hne hbar
    · have hfalse : undelivered = false := by
        rw [Bool.eq_false_iff]
        exact fun ht => hin (hundelivered.mp ht).2
      rw [hfalse, if_neg Bool.false_ne_true, Device.takeReports_of_nil ((hkeep hin).reports_eq.trans hreports)]
      exact hended _ (hkeep hin)

end

/-! ## An encoder -/

/-- An encoder without issues faulted again: nothing that is told of it changes. -/
theorem Device.encoderFaulted.again {enc : Encoder} {failed : List (Issue × Entry)} (h : d.encoderFaulted u key enc failed) :
    d.encoderFaulted (u.modifyEncoder key (fun e => { e with current := none, waiting := [] })) key enc failed := by
  obtain ⟨hentries, hdeny, hrooms, henc, hothers, hjournal, hu⟩ := h
  refine ⟨hentries, hdeny, hrooms, ?_, fun other ho => ?_, hjournal,
    congrArg (fun x => x.modifyEncoder key (fun e => { e with current := none, waiting := [] })) hu⟩
  · unfold Device.modifyEncoder
    dsimp only
    rw [Table.find_modify_self, henc]
    rfl
  · unfold Device.modifyEncoder
    dsimp only
    rw [Table.find_modify_ne _ _ ho]
    exact hothers other ho

section
variable {enc : Encoder} {failed : List (Issue × Entry)}

/-- The encoder of a node faulted already: a second fault finds no issue. -/
theorem Device.Served.faultedAgain (h : b.Served d2 seg addr m [] u) (hu : d.encoderFaulted u key enc failed) :
    ∃ u', b.Served (d2.encoderFault key) seg addr m [] u' ∧ d.encoderFaulted u' key enc failed := by
  have hfault : d2.encoderFault key = d2.modifyEncoder key (fun e => { e with current := none, waiting := [] }) := by
    unfold Device.encoderFault
    rw [h.creds_eq, hu.2.2.2.1]
    rfl
  rw [hfault]
  exact ⟨_, h.modifyEncoder key _, hu.again⟩

variable (henc : Table.find key d.creds.encoders = some enc) (hissues : d.issuesOf enc failed)

/-- The encoder is as it was, or its issues have failed. -/
def Device.faultedOrKept (d b d2 : Device) (seg addr key : Nat) (m : Node) (enc : Encoder) (failed : List (Issue × Entry)) : Prop :=
  b.Served d2 seg addr m [] d ∨ ∃ u, b.Served d2 seg addr m [] u ∧ d.encoderFaulted u key enc failed

include henc hissues in
/-- An encoder faulted, whether or not it was faulted before. -/
theorem Device.faultedOrKept.fault (h : d.faultedOrKept b d2 seg addr key m enc failed) :
    ∃ u, b.Served (d2.encoderFault key) seg addr m [] u ∧ d.encoderFaulted u key enc failed := by
  rcases h with h | ⟨u, h, hu⟩
  · exact h.faulted henc hissues
  · exact h.faultedAgain hu

include henc hissues in
/-- The commands of an encoder told undelivered: its issues fail or stand, and stay failed. -/
theorem Device.faultedOrKept.delivered (h : d.faultedOrKept b d2 seg addr key m enc failed) {c : Command}
    (hc : c = .abandon ∨ c = .signal ∨ ∃ image job, c = .encode image job) :
    d.faultedOrKept b (d2.commandUndelivered key c) seg addr key m enc failed := by
  rcases hc with rfl | rfl | ⟨image, job, rfl⟩
  · exact h
  · exact h
  · show d.faultedOrKept b (d2.encodeUndelivered key job) seg addr key m enc failed
    unfold Device.encodeUndelivered
    split_ifs
    · exact .inr (h.fault henc hissues)
    · exact h

/-- The issues of an encoder failed stay failed as its commands are told undelivered. -/
theorem Device.Served.faulted_delivered (h : b.Served d2 seg addr m [] u) (hu : d.encoderFaulted u key enc failed) {c : Command}
    (hc : c = .abandon ∨ c = .signal ∨ ∃ image job, c = .encode image job) :
    ∃ u', b.Served (d2.commandUndelivered key c) seg addr m [] u' ∧ d.encoderFaulted u' key enc failed := by
  rcases hc with rfl | rfl | ⟨image, job, rfl⟩
  · exact ⟨u, h, hu⟩
  · exact ⟨u, h, hu⟩
  · show ∃ u', b.Served (d2.encodeUndelivered key job) seg addr m [] u' ∧ _
    unfold Device.encodeUndelivered
    split_ifs
    · exact h.faultedAgain hu
    · exact ⟨u, h, hu⟩

include henc hissues in
/-- An encoder whose node goes out: every issue of it fails once (R19). -/
theorem Device.Served.toldOut_encoder (h : b.Served d2 seg addr m [] d) (hreports : d.reports = []) (hkey : key = seg * 256 + addr)
    (hne : before ≠ after) (hafter : after = .faulted ∨ after = .retryWait) (hencoder : m.kind = .encoder)
    (hcs : ∀ c ∈ cs, c = .abandon ∨ c = .signal ∨ ∃ image job, c = .encode image job) (undeliveredFirst : Bool) :
    ∃ u, b.Served (d2.tellMiss key before after cs undeliveredFirst) seg addr m [] u ∧ d.encoderFaulted u key enc failed := by
  have hreported : ∀ d2, (∃ u, b.Served d2 seg addr m [] u ∧ d.encoderFaulted u key enc failed) → d2.reports = [] :=
    fun d2 ⟨u, hserved, hu⟩ => hserved.reports_eq.trans (hu.kept.reports_eq.trans hreports)
  have htold : ∀ d2, d.faultedOrKept b d2 seg addr key m enc failed →
      ∃ u, b.Served (d2.ownerTold key before after) seg addr m [] u ∧ d.encoderFaulted u key enc failed := fun d2 hd => by
    have hfault : d2.ownerTold key before after = d2.encoderFault key := by
      rcases hd with hd | ⟨u, hd, -⟩
      · exact (hd.outTold_encoder hkey hne hafter hencoder).1
      · exact (hd.outTold_encoder hkey hne hafter hencoder).1
    rw [hfault]
    exact hd.fault henc hissues
  refine Device.tellMiss_either (P0 := fun d2 => b.Served d2 seg addr m [] d)
    (Pd := fun d2 => d.faultedOrKept b d2 seg addr key m enc failed)
    (Po := fun d2 => ∃ u, b.Served d2 seg addr m [] u ∧ d.encoderFaulted u key enc failed)
    (P := fun d2 => ∃ u, b.Served d2 seg addr m [] u ∧ d.encoderFaulted u key enc failed) undeliveredFirst h
    (fun d2 hd => ?_) htold (fun d2 hd => htold d2 (.inl hd)) (fun d2 hd => ?_)
  · have hdelivered := Device.deliver_keeps (P := fun d2 => d.faultedOrKept b d2 seg addr key m enc failed) (key := key) cs
      (fun _ c hc hd => hd.delivered henc hissues (hcs c hc)) (.inl hd)
    refine ⟨hdelivered, ?_⟩
    rcases hdelivered with hd | hd
    · exact hd.reports_eq.trans hreports
    · exact hreported _ hd
  · have hdelivered := Device.deliver_keeps (P := fun d2 => ∃ u, b.Served d2 seg addr m [] u ∧ d.encoderFaulted u key enc failed)
      (key := key) cs (fun _ c hc ⟨_, hd, hu⟩ => hd.faulted_delivered hu (hcs c hc)) hd
    exact ⟨hdelivered, hreported _ hdelivered⟩

end

end

end Sys2Proof.Machine
end

section
/-! A miss that takes its node out, each part assembled (O46). -/

namespace Sys2Proof.Machine

open Sys2Proof

/-- What the owner leaves of the node and of the rest is one. -/
theorem Device.Served.unique {b d d2 u u' : Device} {seg addr : Nat} {m m' : Node} (h : b.Served d2 seg addr m [] u)
    (h' : b.Served d2 seg addr m' [] u') (hkept : d.kept u) (hkept' : d.kept u') : m = m' ∧ u = u' := by
  refine ⟨Option.some.inj (h.node.symm.trans h'.node), ?_⟩
  have hframe := h.frame.symm.trans h'.frame
  obtain ⟨w, entries, deny, encoders, rooms, journal, rfl⟩ := hkept
  obtain ⟨w', entries', deny', encoders', rooms', journal', rfl⟩ := hkept'
  simp only [Device.mk.injEq] at hframe ⊢
  obtain ⟨-, -, hwalker, hcreds, hrooms, -, -, -, -, hjournal, -⟩ := hframe
  simp only [hwalker, hcreds, hrooms, hjournal, and_self]

/-- Settles the third part of O46: a miss that takes its node out. -/
theorem exec_missTakesOut (s : State) (seg : Nat) (frame : Option (List Byte)) (undeliveredFirst : Bool) (g : Segment) (x : Exchange)
    (key : Nat) (n after : Node) (event : NodeEvent) (count : Nat) (hs : s.settled) (hg : s.dev.segment seg = g)
    (hx : g.exchange = some x) (haddr : x.addr < 256) (hkey : key = seg * 256 + x.addr) (hn : Table.find key s.dev.nodes = some n)
    (hframe : ∀ bytes, frame = some bytes → answerValid x.addr bytes = false) (hmiss : n.missOut after event count) :
    ∃ t u : Device,
      exec (.miss seg frame undeliveredFirst) s = .next { s with dev := t } ∧
      (∀ other, other ≠ key → Table.find other t.nodes = Table.find other s.dev.nodes) ∧
      t.journal = (u.notable (.node key event count)).journal ∧
      u = { s.dev with walker := t.walker, creds := t.creds, rooms := t.rooms, journal := u.journal } ∧
      t = { s.dev with
        regs := { s.dev.regs with
          status := stallStatus s.dev.journal t.journal (if event = .fault then s.dev.regs.status ||| 256 else s.dev.regs.status) }
        creds := { s.dev.creds with entries := t.creds.entries, deny := t.creds.deny, encoders := t.creds.encoders }
        walker := t.walker, rooms := t.rooms, nodes := t.nodes, journal := t.journal
        segments := s.dev.segments.set seg { g with
          exchange := none, queue := g.queue.filter (fun e => decide (e.addr ≠ x.addr))
          attention := g.attention.filter (fun a => decide (a ≠ x.addr)) } } ∧
      (n.kind.isDoor = true →
        (∀ c, g.standing x c → c = .relock ∨ c = .hold ∨ c = .signal ∨ ∃ seconds, c = .release seconds) →
        Table.find key t.nodes = some { after with
            passOver := if g.attention.contains x.addr then 0 else n.passOver
            door := n.door.map (fun r =>
              if r.state = .holdOpen ∨ r.state = .emergency then { r with releaseTimer := none, heldTimer := none, delayTimer := none }
              else { r with
                state := .unknown, contact := .unseen, releaseTimer := none, heldTimer := none, delayTimer := none }) }
          ∧ u.journal = s.dev.journal ∧ t.walker = s.dev.walker ∧ t.rooms = s.dev.rooms ∧ t.creds = s.dev.creds) ∧
      (n.door = none → Table.find key t.nodes = some { after with passOver := if g.attention.contains x.addr then 0 else n.passOver }) ∧
      (n.kind = .minibar → n.door = none → (∀ c, g.standing x c → c = .relock ∨ c = .unlatch ∨ c = .signal) →
        t.walker = s.dev.walker ∧ t.creds = s.dev.creds ∧
        ((∀ i r, (i, r) ∈ s.dev.rooms → r.barLink = some key → r.bar.inSession = false ∧ r.unlatchPending = false) →
          u.journal = s.dev.journal ∧ t.rooms = s.dev.rooms) ∧
        ∀ room r, (room, r) ∈ s.dev.rooms → Table.find room s.dev.rooms = some r → r.barLink = some key → r.bar.inSession = true →
          (∀ q ∈ s.dev.rooms, q.2.barLink = some key → q = (room, r)) → ∀ undelivered : Bool,
          (undelivered = true ↔ undeliveredFirst = true ∧ r.unlatchPending = true ∧ g.standing x .unlatch) →
          Table.find room t.rooms = some { r with
            session := none, unlatchPending := false, unsettled := r.unsettled || !undelivered
            bar := if r.ceiling - r.balance < r.openFloor ∨ 0 < r.unposted then .suspended else .locked } ∧
          (∀ other, other ≠ room → Table.find other t.rooms = Table.find other s.dev.rooms) ∧
          u.journal = (if undelivered then s.dev.giveBack.notable (.unsettled room key .undelivered)
            else s.dev.record (.unsettled room key .nodeFault) {} .reserved).journal) ∧
      (n.kind = .encoder → n.door = none →
        (∀ c, g.standing x c → c = .abandon ∨ c = .signal ∨ ∃ image job, c = .encode image job) →
        ∀ enc failed, Table.find key s.dev.creds.encoders = some enc → s.dev.issuesOf enc failed →
          s.dev.encoderFaulted u key enc failed) := by
  obtain ⟨-, hafter, -, hne, hkind, hdoors, hpass⟩ := Node.missed_out hmiss
  have hout : after.state.isOut = true := by rcases hafter with h | h <;> rw [h] <;> rfl
  have hbase := Device.missDropped_served (after := after) hg hx haddr (hkey ▸ hn) hpass
  rw [← hkey] at hbase
  have hcommands : ∀ {P : Command → Prop}, (∀ c, g.standing x c → P c) → ∀ c ∈ discarded g x, P c := fun h c hc =>
    h c (mem_discarded.mp hc)
  generalize hm : ({ after with passOver := if g.attention.contains x.addr then 0 else n.passOver } : Node) = m at hbase
  have hmout : m.state.isOut = true := by rw [← hm]; exact hout
  have hmkind : m.kind = n.kind := by rw [← hm]; exact hkind
  have hmdoor : m.door = n.door := by rw [← hm]; exact hdoors
  obtain ⟨u, hserved, hkept⟩ := hbase.toldOut (.refl s.dev) hs hkey hne hafter hmout (discarded g x) undeliveredFirst
  obtain ⟨t, hexec, hnode, hothers, hjournal, hwalker, hcreds, hrooms, hu, ht⟩ := exec_missOut hs hg hx haddr hkey hn hframe hmiss
    hserved hkept
  refine ⟨t, u, hexec, hothers, hjournal, hu, ht, fun hdoor hstanding => ?_, fun hdoorless => ?_,
    fun hbar _ hstanding => ?_, fun hencoder _ hstanding enc failed henc hissues => ?_⟩
  · obtain ⟨-, rfl⟩ := hserved.unique (hbase.toldOut_door hs hkey hne hafter hmout (hmkind ▸ hdoor) (hcommands hstanding) _) hkept
      (.refl s.dev)
    refine ⟨hnode.trans ?_, rfl, hwalker, hrooms, hcreds⟩
    unfold Node.toldOut
    rw [if_pos (hmkind ▸ hdoor), hmdoor, ← hm, funext Door.outOfService_eq]
  · rw [hnode, Node.toldOut_doorless (hmdoor.trans hdoorless)]
  · have hbarm : m.kind = .minibar := hmkind.trans hbar
    have hcs := hcommands hstanding
    obtain ⟨rooms, journal, hserved'⟩ := hbase.toldOut_bar hs hkey hne hafter hmout hbarm hcs undeliveredFirst
    obtain ⟨-, hsame⟩ := hserved.unique hserved' hkept ⟨_, _, _, _, _, _, rfl⟩
    refine ⟨hwalker.trans (by rw [hsame]), hcreds.trans (by rw [hsame]), fun hidle => ?_,
      fun room r hmem hfind hlink hsession honly undelivered hundelivered => ?_⟩
    · obtain ⟨-, rfl⟩ := hserved.unique (hbase.toldOut_idle hidle hs hkey hne hmout hbarm hcs undeliveredFirst) hkept (.refl s.dev)
      exact ⟨rfl, hrooms⟩
    · have hended := hbase.toldOut_session hkey hmout hcs hmem hlink honly hs hne hafter hbarm hsession (undelivered := undelivered)
        (undeliveredFirst := undeliveredFirst) (by rw [mem_discarded]; exact hundelivered)
      cases undelivered with
      | true =>
        obtain ⟨-, rfl⟩ := hserved.unique hended hkept ⟨_, _, _, _, _, _, rfl⟩
        have hclosed : t.rooms = Table.modify room Room.closeSession s.dev.rooms := hrooms
        refine ⟨?_, fun other ho => ?_, rfl⟩
        · rw [hclosed, Table.find_modify_self, hfind, Option.map_some, Room.closeSession_eq, Bool.not_true, Bool.or_false]
        · rw [hclosed, Table.find_modify_ne _ _ ho]
      | false =>
        obtain ⟨-, rfl⟩ := hserved.unique hended hkept ⟨_, _, _, _, _, _, rfl⟩
        have hclosed : t.rooms = Table.modify room (fun r => { r.closeSession with unsettled := true }) s.dev.rooms := hrooms
        refine ⟨?_, fun other ho => ?_, rfl⟩
        · rw [hclosed, Table.find_modify_self, hfind, Option.map_some, Room.closeSession_eq, Bool.not_false, Bool.or_true]
        · rw [hclosed, Table.find_modify_ne _ _ ho]
  · obtain ⟨u', hserved', hu'⟩ := hbase.toldOut_encoder henc hissues hs hkey hne hafter (hmkind.trans hencoder) (hcommands hstanding)
      undeliveredFirst
    obtain ⟨-, rfl⟩ := hserved.unique hserved' hkept hu'.kept
    exact hu'

/-- Settles O46: a valid frame is its answer, and a miss by what becomes of its node. -/
theorem missesCountAndTakeTheNodeOut : Obligations.MissesCountAndTakeTheNodeOut :=
  ⟨exec_missFrames, exec_missKeeps, exec_missTakesOut⟩

end Sys2Proof.Machine
end
